-- ==== Sys2Proof/Word.lean ====
section
/-! DEFINITION. The word types of the RN4 (R2, R3, R66) and the sparse map that every large store is kept in. -/

namespace Sys2Proof

/-- One byte of memory (R3). -/
abbrev Byte := BitVec 8

/-- A 32-bit register or word (R128, R155). -/
abbrev Word := BitVec 32

/-- A 64-bit value: a pair of registers, an address, a program counter (R3). -/
abbrev DWord := BitVec 64

/-- A lane mask of up to 128 lanes: a fragment's siblings, a rejoin set, a writer roster. -/
abbrev Mask := BitVec 128

/-- A sparse map: keys strictly rising, no entry equal to what an unlisted key reads as. -/
abbrev SMap (α : Type) := List (Nat × α)

end Sys2Proof
end

