-- ==== Sys2Proof/Config.lean ====
section
/-! DEFINITION. What the manual leaves open, as constants without a body: nothing can be proved of their values, so every
claim holds whatever they are. A constant of one argument `Nat` is a stream: the State's counter `freeCtr` says which
element the next use takes. -/

namespace Sys2Proof.Config

/-- The stream of free 64-bit values (notes/assumptions/2). -/
opaque freeWord : Nat → DWord

/-- The stream of free choices; a use reduces it by the number of choices there are (notes/assumptions/2). -/
opaque choice : Nat → Nat

/-- FRSQ's result before the bound of R146 is applied: one fixed function of its operand. -/
opaque frsq : Word → Word

/-- FEXP2's result before the bound of R146 is applied. -/
opaque fexp2 : Word → Word

/-- FLOG2's result before the bound of R146 is applied. -/
opaque flog2 : Word → Word

/-- FSIN's result before the bound of R146 is applied. -/
opaque fsin : Word → Word

/-- FCOS's result before the bound of R146 is applied. -/
opaque fcos : Word → Word

/-- The home hash over physical addresses (R26): which slice a 32-byte sector's line is homed at. Its values are not
stated; the model reduces it to the slice numbers there are. -/
opaque homeHash : Nat → Nat

/-- The set of a slice that a line falls into: its values are not stated; the model reduces it to the 1536 sets there are
(R25, R236). -/
opaque l2Set : Nat → Nat

/-- Whether a save area of so many bytes that already holds so many groups takes one more: the size of a saved group is
not stated (R300, R340; notes/assumptions/20). -/
opaque saveAreaFits : Nat → Nat → Bool

/-- The device's public key (R346): each module has its own. -/
opaque publicKey : BitVec 256

/-- SHA-512 of the loaded firmware images, chained in load order, from the images' own hashes: the chaining is not stated
(R347). -/
opaque firmwareChain : List (BitVec 512) → BitVec 512

/-- SHA-512 of the region table and of every partition's WORLD, CORESETS and PORTS, of which the manual does not state the
layout (R347): the model gives it those fields in order. -/
opaque measure : List Nat → BitVec 512

/-- The device key's signature of a report (R346, R347). -/
opaque signature : List Byte → BitVec 512

/-! The management read space (R344). -/

/-- The structures that the read space shows, by block: of a core, of a slice, of a launch queue, of a partition. -/
inductive ReadPart where
  | group (slot : Nat)
  | state (slot lane : Nat)
  | pc (slot lane : Nat)
  | reg (slot lane r : Nat)
  | pred (slot lane : Nat)
  | index (slot lane x : Nat)
  | uniform (slot r : Nat)
  | mask (slot j : Nat)
  | meld (slot entry : Nat)
  | bin (k : Nat)
  | callee (k : Nat)
  | future (k : Nat)
  | storeQueue (k : Nat)
  | writeThrough (k : Nat)
  | combining (k : Nat)
  | inspects (k : Nat)
  | replays
  | binding
  | object (k : Nat)
  | roster
  | owned (k : Nat)
  | gangMap (k : Nat)
  | queue (k : Nat)
  | pins (k : Nat)
  | record (k : Nat)
  | claim (k : Nat)
  | rounds (k : Nat)
  | priority (k : Nat)
  | errorLog (k : Nat)
  | sampler (i : Nat)
  | samples
  | collector (stack k : Nat)
  | saveIndex (k : Nat)
deriving DecidableEq, Repr

/-- Which word of which structure the 32-bit word at a place of a block shows, none for none: the manual gives the blocks
(0 a core's, 1 a slice's, 2 a launch queue's, 3 a partition's) and what they hold, not where (notes/assumptions/76). -/
opaque readPlace : Nat → Nat → Option (ReadPart × Nat)

/-- How a structure without a field map of its own is laid out: word i of its contents (notes/assumptions/76). -/
opaque shown : ReadPart → List Nat → Nat → Word

end Sys2Proof.Config
end

