-- ==== Sys2Proof/Machine/Flags.lean ====
section
/-! DEFINITION. Number formats, rounding, stochastic draws and conversion (R66 to R84), and the comparisons and classes
that predicates take from them (R141, R145). The RN4 keeps no arithmetic flags (R71): the result alone records what
happened. Values are bit patterns held as natural numbers; exact values are dyadic. -/

namespace Sys2Proof.Machine

/-! Integers (R66, R67). -/

/-- A w-bit pattern read in the given signedness. -/
def toInt (signed : Bool) (w x : Nat) : Int :=
  if signed && 2 ^ (w - 1) ≤ x % 2 ^ w then (x % 2 ^ w : Nat) - 2 ^ w else (x % 2 ^ w : Nat)

/-- The low w bits of an exact result (R67). -/
def wrapTo (w : Nat) (x : Int) : Nat := (x % (2 ^ w : Nat)).toNat

/-- The least and the greatest value of an integer type (R66). -/
def intMin (signed : Bool) (w : Nat) : Int := if signed then -(2 ^ (w - 1) : Nat) else 0
def intMax (signed : Bool) (w : Nat) : Int := if signed then (2 ^ (w - 1) : Nat) - 1 else (2 ^ w : Nat) - 1

/-- Sat(x, type) of R7. -/
def clampTo (signed : Bool) (w : Nat) (x : Int) : Int := max (intMin signed w) (min (intMax signed w) x)

/-- The result of an integer operation: wrapped, or clamped under .SAT (R67). -/
def narrow (signed : Bool) (w : Nat) (sat : Bool) (x : Int) : Nat :=
  wrapTo w (if sat then clampTo signed w x else x)

/-! The floating-point formats (R68, R69). -/

inductive Fmt where
  | fp32
  | fp16
  | bf16
  | e4m3
  | e5m2
  | e2m1
deriving DecidableEq, Repr

def Fmt.width : Fmt → Nat
  | .fp32 => 32
  | .fp16 => 16
  | .bf16 => 16
  | .e4m3 => 8
  | .e5m2 => 8
  | .e2m1 => 4

/-- Mantissa bits. -/
def Fmt.man : Fmt → Nat
  | .fp32 => 23
  | .fp16 => 10
  | .bf16 => 7
  | .e4m3 => 3
  | .e5m2 => 2
  | .e2m1 => 1

def Fmt.bias : Fmt → Nat
  | .fp32 => 127
  | .fp16 => 15
  | .bf16 => 127
  | .e4m3 => 7
  | .e5m2 => 15
  | .e2m1 => 1

/-- The exponent of the last bit of a subnormal. -/
def Fmt.qmin (f : Fmt) : Int := 1 - (f.bias : Int) - (f.man : Int)

/-- The magnitude bits of the largest finite value (R69). -/
def Fmt.maxFinite : Fmt → Nat
  | .fp32 => 0x7F7FFFFF
  | .fp16 => 0x7BFF
  | .bf16 => 0x7F7F
  | .e4m3 => 0x7E
  | .e5m2 => 0x7B
  | .e2m1 => 7

/-- The bits of +∞, in the formats that have it (R69). -/
def Fmt.inf? : Fmt → Option Nat
  | .fp32 => some 0x7F800000
  | .fp16 => some 0x7C00
  | .bf16 => some 0x7F80
  | .e5m2 => some 0x7C
  | .e4m3 => none
  | .e2m1 => none

/-- The canonical NaN (R69); E2M1 has none and takes +6 (R74). -/
def Fmt.nan : Fmt → Nat
  | .fp32 => 0x7FC00000
  | .fp16 => 0x7E00
  | .bf16 => 0x7FC0
  | .e4m3 => 0x7F
  | .e5m2 => 0x7E
  | .e2m1 => 7

/-- A value: NaN, an infinity, or (-1)^neg × m × 2^q. -/
inductive FV where
  | nan
  | inf (neg : Bool)
  | fin (neg : Bool) (m : Nat) (q : Int)
deriving DecidableEq, Repr

def FV.zero (neg : Bool) : FV := .fin neg 0 0

def FV.ofInt (x : Int) : FV := .fin (x < 0) x.natAbs 0

/-- The value of an encoding (R68). -/
def Fmt.value (f : Fmt) (bits : Nat) : FV :=
  let neg := bits.testBit (f.width - 1)
  let mag := bits % 2 ^ (f.width - 1)
  let e := mag / 2 ^ f.man
  let m := mag % 2 ^ f.man
  if f.maxFinite < mag then
    if f.inf? = some mag then .inf neg else .nan
  else if e = 0 then .fin neg m f.qmin
  else .fin neg (m + 2 ^ f.man) (f.qmin + (e - 1 : Nat))

def FV.isNan : FV → Bool
  | .nan => true
  | _ => false

def FV.neg : FV → FV
  | .nan => .nan
  | .inf n => .inf !n
  | .fin n m q => .fin (!n) m q

/-- A product; zeros and infinities take the exclusive OR of the signs (R72). -/
def FV.mul : FV → FV → FV
  | .nan, _ => .nan
  | _, .nan => .nan
  | .inf a, .inf b => .inf (a != b)
  | .inf a, .fin b m _ => if m = 0 then .nan else .inf (a != b)
  | .fin a m _, .inf b => if m = 0 then .nan else .inf (a != b)
  | .fin a m q, .fin b n r => .fin (a != b) (m * n) (q + r)

/-- A value times 2^k, exactly. -/
def FV.scale (k : Int) : FV → FV
  | .fin n m q => .fin n m (q + k)
  | x => x

/-- The exact sum of two finite values as a signed integer at a common exponent. -/
def FV.signed (neg : Bool) (m : Nat) (q base : Int) : Int :=
  let x : Int := (m <<< (q - base).toNat : Nat)
  if neg then -x else x

/-- One term more of an exact sum. A zero sum carries the terms' common sign, or is a mixed zero whose sign R72 gives
by the rounding mode. -/
inductive Sum where
  | none
  | zeros (neg : Bool)
  | nan
  | inf (neg : Bool)
  | fin (x : Int) (q : Int)
deriving DecidableEq, Repr

def Sum.add : Sum → FV → Sum
  | .nan, _ => .nan
  | _, .nan => .nan
  | .inf a, .inf b => if a = b then .inf a else .nan
  | .inf a, .fin _ _ _ => .inf a
  | _, .inf b => .inf b
  | .none, .fin n m q => if m = 0 then .zeros n else .fin (FV.signed n m q q) q
  | .zeros a, .fin n m q =>
    if m = 0 then (if a = n then .zeros a else .fin 0 q) else .fin (FV.signed n m q q) q
  | .fin x r, .fin n m q =>
    if m = 0 then .fin x r
    else
      let b := min q r
      .fin (x <<< (r - b).toNat + FV.signed n m q b) b

/-- The value of an exact sum; `rd` says that the rounding mode is RD (R72). -/
def Sum.value (rd : Bool) : Sum → FV
  | .none => .fin false 0 0
  | .zeros n => .fin n 0 0
  | .nan => .nan
  | .inf n => .inf n
  | .fin x q => if x = 0 then .fin rd 0 0 else .fin (x < 0) x.natAbs q

/-- The exact sum of terms (R72). -/
def FV.sum (rd : Bool) (terms : List FV) : FV := (terms.foldl Sum.add .none).value rd

/-! Rounding (R46, R73 to R75). -/

inductive Rnd where
  | rne
  | rz
  | rd
  | ru
  | rna
  | sr (u : Word)
deriving DecidableEq, Repr

def Rnd.isRd : Rnd → Bool
  | .rd => true
  | _ => false

/-- A rounding code; u is the draw that SR takes (R75). -/
def Rnd.ofCode (code : Nat) (u : Word) : Rnd :=
  match code with
  | 0 => .rne
  | 1 => .rz
  | 2 => .rd
  | 3 => .ru
  | 4 => .rna
  | _ => .sr u

/-- Whether the neighbour farther from zero is chosen, for a magnitude r + rem / 2^sh that is not an integer: R73's
table, and u < f × 2^32 under SR (R75). -/
def Rnd.up (mode : Rnd) (neg : Bool) (r rem sh : Nat) : Bool :=
  let twice := 2 * rem
  let one := 2 ^ sh
  match mode with
  | .rne => one < twice || (one == twice && r % 2 == 1)
  | .rz => false
  | .rd => neg
  | .ru => !neg
  | .rna => one ≤ twice
  | .sr u => u.toNat * one < rem * 2 ^ 32

/-- m × 2^-sh rounded to an integer. -/
def roundShift (mode : Rnd) (neg : Bool) (m sh : Nat) : Nat :=
  let r := m >>> sh
  let rem := m % 2 ^ sh
  if rem = 0 then r else if mode.up neg r rem sh then r + 1 else r

/-- The magnitude bits of a nonzero finite value rounded to the format with an unbounded exponent above: consecutive
representable magnitudes have consecutive codes. -/
def Fmt.code (f : Fmt) (mode : Rnd) (neg : Bool) (m : Nat) (q : Int) : Nat :=
  let lead : Int := (m.log2 : Int) + q
  let t := max (lead - (f.man : Int)) f.qmin
  let r := if t ≤ q then m <<< (q - t).toNat else roundShift mode neg m (t - q).toNat
  (t - f.qmin).toNat * 2 ^ f.man + r

def Fmt.withSign (f : Fmt) (neg : Bool) (mag : Nat) : Nat := if neg then mag + 2 ^ (f.width - 1) else mag

/-- What an overflow, or under `sat` an infinity, becomes (R74). -/
def Fmt.overflow (f : Fmt) (mode : Rnd) (sat neg : Bool) : Nat :=
  let top := f.withSign neg f.maxFinite
  if sat then top
  else
    match f with
    | .e2m1 => top
    | .e4m3 => f.nan
    | .e5m2 => f.withSign neg 0x7C
    | _ =>
      let inf := f.withSign neg (f.inf?.getD 0)
      match mode with
      | .rz => top
      | .rd => if neg then inf else top
      | .ru => if neg then top else inf
      | _ => inf

/-- Round(x, fmt, mode) as an encoding (R73, R74). An infinite value under .SAT is the largest finite one, in a conversion
to a wider or equal format too (notes/assumptions/104). -/
def Fmt.round (f : Fmt) (mode : Rnd) (sat : Bool) : FV → Nat
  | .nan => f.nan
  | .inf n =>
    match f.inf? with
    | some i => if sat then f.withSign n f.maxFinite else f.withSign n i
    | none => f.overflow mode sat n
  | .fin n m q =>
    if m = 0 then f.withSign n 0
    else
      let c := f.code mode n m q
      if f.maxFinite < c then f.overflow mode sat n else f.withSign n c

/-- The BF16 adder of the slice atomics replaces a subnormal result by a zero with the sign of the exact result (R70). -/
def flushBf16 (bits : Nat) : Nat := if bits % 2 ^ 15 < 2 ^ 7 then bits / 2 ^ 15 * 2 ^ 15 else bits

/-- A float rounded to an integer (R73). -/
def FV.toIntegral (mode : Rnd) (neg : Bool) (m : Nat) (q : Int) : Int :=
  let r : Nat := if 0 ≤ q then m <<< q.toNat else roundShift mode neg m (-q).toNat
  if neg then -(r : Int) else r

/-- One draw of the generator (R76). -/
def srNext (g : Word) : Word :=
  let g := g ^^^ (g <<< 13)
  let g := g ^^^ (g >>> 17)
  g ^^^ (g <<< 5)

/-- n draws: the values, and the generator afterwards. -/
def srDraws : Nat → Word → List Word × Word
  | 0, g => ([], g)
  | n + 1, g =>
    let r := srDraws n (srNext g)
    (srNext g :: r.1, r.2)

/-- The generator of physical lane P seeded with v (R76). -/
def srSeed (v : Word) (lane : Nat) : Word :=
  let g := v ^^^ (BitVec.ofNat 32 (lane + 1) * 0x9E3779B9)
  if g = 0 then 1 else g

/-! Types (R45, R66, R68). -/

inductive EKind where
  | int (signed : Bool)
  | flt (f : Fmt)
  | scale
deriving DecidableEq, Repr

/-- The element kind of a type code. -/
def tyKind (ty : Nat) : EKind :=
  match ty with
  | 0 => .int true
  | 1 => .int false
  | 2 => .int true
  | 3 => .int false
  | 4 => .int true
  | 5 => .int false
  | 6 => .int true
  | 7 => .int false
  | 8 => .flt .fp32
  | 9 => .flt .fp16
  | 10 => .flt .bf16
  | 11 => .flt .fp16
  | 12 => .flt .bf16
  | 13 => .flt .e4m3
  | 14 => .flt .e5m2
  | 15 => .flt .e2m1
  | 16 => .int true
  | 17 => .int false
  | _ => .scale

/-- The element width of a type code. -/
def tyWidth (ty : Nat) : Nat :=
  match ty with
  | 0 => 32
  | 1 => 32
  | 2 => 64
  | 3 => 64
  | 4 => 16
  | 5 => 16
  | 6 => 8
  | 7 => 8
  | 8 => 32
  | 9 => 16
  | 10 => 16
  | 11 => 16
  | 12 => 16
  | 13 => 8
  | 14 => 8
  | 15 => 4
  | 16 => 4
  | 17 => 4
  | _ => 8

/-- The elements of one operand: one for a scalar, as many as fill 32 bits for a packed type (R66). -/
def tyElems (ty : Nat) : Nat :=
  match ty with
  | 4 => 2
  | 5 => 2
  | 6 => 4
  | 7 => 4
  | 9 => 2
  | 10 => 2
  | 13 => 4
  | 14 => 4
  | 15 => 8
  | 16 => 8
  | 17 => 8
  | 18 => 4
  | _ => 1

def tySigned (ty : Nat) : Bool :=
  match tyKind ty with
  | .int s => s
  | _ => false

/-- Element i of an operand's bits (R66). -/
def elem (w i x : Nat) : Nat := x / 2 ^ (w * i) % 2 ^ w

/-- The bits that elements of width w spell, element 0 lowest (R66). -/
def packElems (w : Nat) : List Nat → Nat
  | [] => 0
  | x :: xs => x % 2 ^ w + 2 ^ w * packElems w xs

/-- An operation element by element. -/
def mapElems (ty : Nat) (f : Nat → Nat) : Nat := packElems (tyWidth ty) ((List.range (tyElems ty)).map f)

/-- The value of an element of a type. -/
def elemValue (ty bits : Nat) : FV :=
  match tyKind ty with
  | .int s => .ofInt (toInt s (tyWidth ty) bits)
  | .flt f => f.value bits
  | .scale => if bits % 256 = 0xFF then .nan else .fin false 1 ((bits % 256 : Nat) - 127)

/-! Conversion of one element (R83). -/

/-- F32 to E8M0: floor(log2 |e|) under RZ, ceil under RU, plus 127. -/
def toScale (mode : Rnd) (sat : Bool) : FV → Nat
  | .nan => 0xFF
  | .inf _ => if sat then 0xFE else 0xFF
  | .fin _ m q =>
    if m = 0 then 0
    else
      let lead : Int := (m.log2 : Int) + q
      if lead < -127 then 0
      else
        let up := mode == .ru && m != 2 ^ m.log2
        let e := lead + 127 + (if up then 1 else 0)
        if 0xFE < e then (if sat then 0xFE else 0xFF) else e.toNat

/-- Conv of R83, from an exact value; an integer destination takes an integer source modulo 2^w. -/
def convTo (srcInt : Bool) (dst : Nat) (mode : Rnd) (sat : Bool) (x : FV) : Nat :=
  match tyKind dst with
  | .flt f => f.round mode sat x
  | .scale => toScale mode sat x
  | .int s =>
    let w := tyWidth dst
    match x with
    | .nan => 0
    | .inf n => wrapTo w (if n then intMin s w else intMax s w)
    | .fin n m q =>
      let v := FV.toIntegral mode n m q
      narrow s w (sat || !srcInt) v

def isIntTy (ty : Nat) : Bool :=
  match tyKind ty with
  | .int _ => true
  | _ => false

/-- Conv(e, srcT, dstT, mode, sat). -/
def conv (src dst : Nat) (mode : Rnd) (sat : Bool) (bits : Nat) : Nat :=
  convTo (isIntTy src) dst mode sat (elemValue src bits)

/-! Comparison and class (R72, R141, R145). -/

/-- The order of two values that are not NaN: -0 = +0. -/
def FV.lt (a b : FV) : Bool :=
  match a, b with
  | .inf n, .inf k => n && !k
  | .inf n, .fin _ _ _ => n
  | .fin _ _ _, .inf n => !n
  | .fin n m q, .fin k r t =>
    let base := min q t
    decide (FV.signed n m q base < FV.signed k r t base)
  | _, _ => false

/-- R141's codes over a three-way order. -/
def cmpCode (code : Nat) (unordered lt gt : Bool) : Bool :=
  match code with
  | 0 => !unordered && !lt && !gt
  | 1 => unordered || lt || gt
  | 2 => !unordered && lt
  | 3 => !unordered && !gt
  | 4 => !unordered && gt
  | 5 => !unordered && !lt
  | 6 => !unordered
  | _ => unordered

def intCmp (code : Nat) (a b : Int) : Bool := cmpCode code false (a < b) (b < a)

def floatCmp (code : Nat) (a b : FV) : Bool := cmpCode code (a.isNan || b.isNan) (a.lt b) (b.lt a)

/-- The class number of an encoding (R145). -/
def floatClass (f : Fmt) (bits : Nat) : Nat :=
  match f.value bits with
  | .nan => 0
  | .inf n => if n then 1 else 7
  | .fin n m _ =>
    if m = 0 then 4
    else if m < 2 ^ f.man then (if n then 3 else 5)
    else (if n then 2 else 6)

/-- FMIN and FMAX of two encodings: the operand that is no NaN, and -0 below +0 (R72). -/
def floatPick (f : Fmt) (wantMax : Bool) (a b : Nat) : Nat :=
  let x := f.value a
  let y := f.value b
  if x.isNan && y.isNan then f.nan
  else if x.isNan then b % 2 ^ f.width
  else if y.isNan then a % 2 ^ f.width
  else
    let less := x.lt y || (!y.lt x && a.testBit (f.width - 1) && !b.testBit (f.width - 1))
    (if less != wantMax then a else b) % 2 ^ f.width

/-! Exact roots and quotients: enough bits that the discarded part is only known to be zero or not (R146). -/

/-- The integer square root, from the bit k downwards. -/
def isqrt (x : Nat) : Nat → Nat → Nat
  | 0, r => r
  | k + 1, r => if (r + 2 ^ k) * (r + 2 ^ k) ≤ x then isqrt x k (r + 2 ^ k) else isqrt x k r

/-- m × 2^q with one more bit that says whether anything was cut off. -/
def sticky (neg : Bool) (m : Nat) (exact : Bool) (q : Int) : FV := .fin neg (2 * m + (if exact then 0 else 1)) (q - 1)

/-- The quotient a / b (R147). -/
def FV.div : FV → FV → FV
  | .nan, _ => .nan
  | _, .nan => .nan
  | .inf _, .inf _ => .nan
  | .inf a, .fin b _ _ => .inf (a != b)
  | .fin a _ _, .inf b => .fin (a != b) 0 0
  | .fin a m q, .fin b n r =>
    if n = 0 then (if m = 0 then .nan else .inf (a != b))
    else if m = 0 then .fin (a != b) 0 0
    else
      let k := 96
      sticky (a != b) ((m <<< k) / n) ((m <<< k) % n == 0) (q - r - k)

def FV.one : FV := .fin false 1 0

/-- The square root (R147). -/
def FV.sqrt : FV → FV
  | .nan => .nan
  | .inf n => if n then .nan else .inf false
  | .fin n m q =>
    if m = 0 then .fin n 0 0
    else if n then .nan
    else
      let e : Nat := if q % 2 = 0 then 96 else 97
      let x := m <<< e
      let r := isqrt x 100 0
      sticky false r (r * r == x) ((q - (e : Int)) / 2)

/-! FRSQ, FEXP2, FLOG2, FSIN and FCOS: one fixed function each, free within the bound that R146 states
(notes/assumptions/3). The reference value is computed to far more bits than the bound needs. -/

/-- ln 2 × 2^p, as the sum of 1 / (k × 2^k). -/
def ln2Fixed (p : Nat) : Nat → Nat
  | 0 => 0
  | k + 1 => (2 ^ p / (2 ^ (k + 1) * (k + 1))) + ln2Fixed p k

/-- The exponential series in fixed point: the sum of the terms t, t·x/n, t·x²/(n(n+1)), … -/
def expSeries (p x : Nat) : Nat → Nat → Nat → Nat
  | 0, _, t => t
  | k + 1, n, t => t + expSeries p x k (n + 1) (t * x / 2 ^ p / n)

/-- 2^(f / 2^p) × 2^p for f below 2^p. -/
def exp2Fixed (p f : Nat) : Nat := expSeries p (f * ln2Fixed p (p + 8) / 2 ^ p) 64 1 (2 ^ p)

/-- k bits of log2(x / 2^p) for 1 ≤ x / 2^p < 2, most significant first, by repeated squaring. -/
def log2Bits (p : Nat) : Nat → Nat → Nat → Nat
  | 0, _, acc => acc
  | k + 1, x, acc =>
    let y := x * x / 2 ^ p
    if 2 ^ (p + 1) ≤ y then log2Bits p k (y / 2) (2 * acc + 1) else log2Bits p k y (2 * acc)

/-- The alternating series of sine (n = 1, t = x) and cosine (n = 0, t = 1) in fixed point. -/
def trigSeries (p : Nat) (xx : Int) : Nat → Nat → Int → Int
  | 0, _, t => t
  | k + 1, n, t => t + trigSeries p xx k (n + 2) (-(t * xx / 2 ^ p) / ((n + 1) * (n + 2) : Nat))

/-- x × 2^p as an integer, cut off. -/
def FV.fixed (p : Nat) (neg : Bool) (m : Nat) (q : Int) : Int :=
  let e := q + p
  let x : Nat := if 0 ≤ e then m <<< e.toNat else m >>> (-e).toNat
  if neg then -(x : Int) else x

/-- A free encoding held to a bound. -/
def bounded (ok : Nat → Bool) (free fallback : Nat) : Nat := if ok free then free else fallback

/-- Magnitude codes within n units in the last place of an exact value whose truncated code is lo (R146). -/
def withinUlp (n lo : Nat) (exact : Bool) (c : Nat) : Bool :=
  let hi := if exact then lo + n else lo + n
  let low := if exact then lo - n else lo - (n - 1)
  decide (min low 0x7F800000 ≤ c ∧ c ≤ min hi 0x7F800000)

def fp32Inf : Nat := 0x7F800000
def fp32Nan : Nat := 0x7FC00000

def frsq32 (a : Word) : Nat :=
  match Fmt.fp32.value a.toNat with
  | .nan => fp32Nan
  | .inf n => if n then fp32Nan else 0
  | .fin n m q =>
    if m = 0 then Fmt.fp32.withSign n fp32Inf
    else if n then fp32Nan
    else
      match FV.sqrt (FV.div .one (.fin false m q)) with
      | .fin _ r t =>
        let lo := Fmt.fp32.code .rz false r t
        bounded (withinUlp 1 lo (Fmt.fp32.code .ru false r t == lo)) (Config.frsq a).toNat lo
      | _ => fp32Nan

def fexp2_32 (a : Word) : Nat :=
  match Fmt.fp32.value a.toNat with
  | .nan => fp32Nan
  | .inf n => if n then 0 else fp32Inf
  | .fin n m q =>
    if m = 0 then 0x3F800000
    else
      let p := 128
      let x := if !n && 8 ≤ q + m.log2 then 200 * 2 ^ p else if n && 8 ≤ q + m.log2 then -200 * 2 ^ p else FV.fixed p n m q
      let whole := x / 2 ^ p
      let lo := Fmt.fp32.code .rz false (exp2Fixed p (x % 2 ^ p).toNat) (whole - p)
      bounded (withinUlp 2 lo (x % 2 ^ p == 0)) (Config.fexp2 a).toNat (min lo fp32Inf)

def flog2_32 (a : Word) : Nat :=
  match Fmt.fp32.value a.toNat with
  | .nan => fp32Nan
  | .inf n => if n then fp32Nan else fp32Inf
  | .fin n m q =>
    if m = 0 then Fmt.fp32.withSign true fp32Inf
    else if n then fp32Nan
    else
      let p := 256
      let lead : Int := (m.log2 : Int) + q
      let frac := log2Bits p 160 (m <<< (p - m.log2)) 0
      let v : Int := lead * 2 ^ 160 + (frac : Int)
      if v = 0 then 0
      else
        let neg := decide (v < 0)
        let lo := Fmt.fp32.code .rz false v.natAbs (-160)
        let free := (Config.flog2 a).toNat
        let ok := fun c => c / 2 ^ 31 == (if neg then 1 else 0) && withinUlp 2 lo (frac == 0) (c % 2 ^ 31)
        bounded ok free (Fmt.fp32.withSign neg lo)

/-- An encoding within 2^-21 of an exact value v / 2^p in absolute error. -/
def within21 (p : Nat) (v : Int) (c : Nat) : Bool :=
  match Fmt.fp32.value c with
  | .fin n m q => decide ((FV.fixed p n m q - v).natAbs ≤ 2 ^ (p - 21))
  | _ => false

/-- An encoding of a value in [-1, 1]. -/
def inUnit (c : Nat) : Bool := c / 2 ^ 31 < 2 && c % 2 ^ 31 ≤ 0x3F800000

/-- FSIN and FCOS of a finite operand other than zero; the sum holds for |a| ≤ 100π, and beyond it the value is any in
[-1, 1] (R146). -/
def trig32 (cosine : Bool) (free : Nat) (n : Bool) (m : Nat) (q : Int) : Nat :=
  let p := 640
  let x := FV.fixed p n m q
  let within := decide (q + m.log2 ≤ 8) && decide (x.natAbs * 10 ^ 20 ≤ 31415926535897932384626 * 2 ^ p)
  if within then
    let xx := x * x / 2 ^ p
    let v := if cosine then trigSeries p xx 500 0 (2 ^ p) else trigSeries p xx 500 1 x
    let near := Fmt.fp32.round .rne false (if v = 0 then .zero false else .fin (v < 0) v.natAbs (-p))
    bounded (fun c => within21 p v c) free near
  else bounded inUnit free 0

def fsin32 (a : Word) : Nat :=
  match Fmt.fp32.value a.toNat with
  | .fin n m q => if m = 0 then Fmt.fp32.withSign n 0 else trig32 false (Config.fsin a).toNat n m q
  | _ => fp32Nan

def fcos32 (a : Word) : Nat :=
  match Fmt.fp32.value a.toNat with
  | .fin n m q => if m = 0 then 0x3F800000 else trig32 true (Config.fcos a).toNat n m q
  | _ => fp32Nan

end Sys2Proof.Machine
end

