-- ==== Sys2Proof/Syntax.lean ====
section
/-! DEFINITION. The instructions of the RN4 as data: one constructor of Instr per row of the opcode table. A Sazil
instruction carries the fields of its layout (R34, R36 to R39, R50 to R52); a row that names an event of the device
(R95 to R349: a slice serving a request, a host write, a frame arriving) carries what the outside or the schedule
decides about it. -/

namespace Sys2Proof

/-- The two physical encodings of a kernel: Sazil-D on density cores, Sazil-L on latency cores. -/
inductive Enc where
  | d
  | l
deriving DecidableEq, Repr

/-- A compact form (R34): one word, three 8-bit register fields. -/
structure CForm where
  d : BitVec 8
  a : BitVec 8
  b : BitVec 8
deriving DecidableEq, Repr

/-- The register layout (R36, R50). An absent index operand is code 0x3FF in both encodings (R54). -/
structure RForm where
  d : BitVec 10
  a : BitVec 10
  b : BitVec 10
  c : BitVec 10
  pred : BitVec 4
  ty : BitVec 5
  mx : Bool
  hold : BitVec 2
  stall : BitVec 3
  yld : Bool
deriving DecidableEq, Repr

/-- The 16-bit immediate layout (R37, R51). -/
structure I16Form where
  d : BitVec 10
  a : BitVec 10
  pred : BitVec 4
  imm : BitVec 16
  mod4 : BitVec 4
deriving DecidableEq, Repr

/-- The long-immediate layout (R38, R51): 24 bits in Sazil-D, 32 in Sazil-L, kept sign-extended. -/
structure I24Form where
  d : BitVec 10
  imm : BitVec 32
deriving DecidableEq, Repr

/-- The memory layout (R39, R48, R52). The offset is kept as the 18-bit field of Sazil-L. -/
structure MForm where
  d : BitVec 10
  areg : BitVec 4
  scale : BitVec 2
  order : BitVec 2
  idx : BitVec 10
  pred : BitVec 4
  size : BitVec 4
  off : BitVec 18
deriving DecidableEq, Repr

/-- One front end's binding in the module's repair record (R15 to R18). -/
structure Binding where
  stack : Nat
  latency : Bool
  frontEnd : Nat
  lowSlab : Nat
  lowHi : Bool
  highSlab : Nat
  highHi : Bool
deriving DecidableEq, Repr

/-- What a cold reset applies and loads (R17, R346, R348): the bindings, and each firmware image as its SHA-512 with
whether its signature verifies. -/
structure RepairRecord where
  bindings : List Binding
  firmware : List (BitVec 512 × Bool)
deriving DecidableEq, Repr

/-- A received Bowline data frame (R337). -/
structure BowlineFrame where
  smac : BitVec 48
  ver : BitVec 8
  opc : BitVec 8
  seq : BitVec 32
  addr : BitVec 64
  len : BitVec 32
  imm : BitVec 32
  payload : List (BitVec 8)
deriving DecidableEq, Repr

/-- A received RoCE v2 packet (R338): the local context, its PSN, and the fields its operation has. -/
structure RocePacket where
  context : Nat
  psn : BitVec 24
  key : BitVec 32
  addr : BitVec 64
  len : BitVec 32
  payload : List (BitVec 8)
  last : Bool
deriving DecidableEq, Repr

/-- A NAK for a context of a port, and whether it says that the receiver was not ready. -/
structure RoceNak where
  context : Nat
  notReady : Bool := false
deriving DecidableEq, Repr

/-- What a peer asks for over the Veleel Link (R246, R278, R333). -/
inductive PeerKind where
  | load (count : Nat)
  | store (data : List (BitVec 8))
  | atomic (op : Nat) (ty : Nat) (operand : BitVec 64)
  | cas (ty : Nat) (operand comparand : BitVec 64)
  | padd2 (ty : Nat) (operand : BitVec 32)
  | inspect (form : Nat) (nameLo nameHi : BitVec 32) (count : Nat)
deriving DecidableEq, Repr

/-- A peer's request: the asking device, the partition it names, and the physical address (R333). -/
structure PeerRequest where
  device : Nat
  part : Nat
  pa : Nat
  kind : PeerKind
deriving DecidableEq, Repr

/-- The rows of the opcode table. -/
inductive Instr where
  /-- R34: Compact lane-set IADD: the I32 alias of full IADD, adding A and B into D. -/
  | iaddCompact (f : CForm)
  /-- R34: Compact lane-set ISUB: the I32 alias of full ISUB. -/
  | isubCompact (f : CForm)
  /-- R34: Compact lane-set IMUL: the I32 alias of full IMUL. -/
  | imulCompact (f : CForm)
  /-- R34: Compact lane-set AND: the alias of full AND. -/
  | andCompact (f : CForm)
  /-- R34: Compact lane-set OR: the alias of full OR. -/
  | orCompact (f : CForm)
  /-- R34: Compact lane-set XOR: the alias of full XOR. -/
  | xorCompact (f : CForm)
  /-- R34: Compact lane-set SHL: the I32 alias of full SHL. -/
  | shlCompact (f : CForm)
  /-- R34: Compact lane-set SHR: the I32 alias of full SHR. -/
  | shrCompact (f : CForm)
  /-- R34: Compact lane-set SAR: the I32 alias of full SAR. -/
  | sarCompact (f : CForm)
  /-- R34: Compact lane-set IMIN: the I32 alias of full IMIN. -/
  | iminCompact (f : CForm)
  /-- R34: Compact lane-set IMAX: the I32 alias of full IMAX. -/
  | imaxCompact (f : CForm)
  /-- R34: Compact lane-set FADD: the F32 RNE alias of full FADD. -/
  | faddCompact (f : CForm)
  /-- R34: Compact lane-set FSUB: the F32 RNE alias of full FSUB. -/
  | fsubCompact (f : CForm)
  /-- R34: Compact lane-set FMUL: the F32 RNE alias of full FMUL. -/
  | fmulCompact (f : CForm)
  /-- R34: Compact lane-set FMIN: the F32 alias of full FMIN. -/
  | fminCompact (f : CForm)
  /-- R34: Compact lane-set FMAX: the F32 alias of full FMAX. -/
  | fmaxCompact (f : CForm)
  /-- R34: Compact lane-set MOV: alias of OR with B equal to A, copying vA to vD. -/
  | movCompact (f : CForm)
  /-- R34: Compact lane-set FFMA: F32 fused multiply-add accumulating into D. -/
  | ffmaCompact (f : CForm)
  /-- R34: Compact lane-set IMAD: I32 multiply-add accumulating into D. -/
  | imadCompact (f : CForm)
  /-- R34: Compact lane-set DOT4: I8X4 dot product accumulating into D. -/
  | dot4Compact (f : CForm)
  /-- R34: Compact lane-set DOT8: I4X8 dot product accumulating into D. -/
  | dot8Compact (f : CForm)
  /-- R34: Compact lane-set DOT2: BF16X2 dot product accumulating into D. -/
  | dot2Compact (f : CForm)
  /-- R34: Compact uniform UADD: the I32 alias of full UADD. -/
  | uaddCompact (f : CForm)
  /-- R34: Compact uniform USUB: the I32 alias of full USUB. -/
  | usubCompact (f : CForm)
  /-- R34: Compact uniform UMUL: the I32 alias of full UMUL. -/
  | umulCompact (f : CForm)
  /-- R34: Compact uniform UAND: the alias of full UAND. -/
  | uandCompact (f : CForm)
  /-- R34: Compact uniform UOR: the alias of full UOR. -/
  | uorCompact (f : CForm)
  /-- R34: Compact uniform UXOR: the alias of full UXOR. -/
  | uxorCompact (f : CForm)
  /-- R34: Compact uniform USHL: the I32 alias of full USHL. -/
  | ushlCompact (f : CForm)
  /-- R34: Compact uniform USHR: the I32 alias of full USHR. -/
  | ushrCompact (f : CForm)
  /-- R34: Compact uniform USAR: the I32 alias of full USAR. -/
  | usarCompact (f : CForm)
  /-- R34: Compact uniform UMIN: the I32 alias of full UMIN. -/
  | uminCompact (f : CForm)
  /-- R34: Compact uniform UMAX: the I32 alias of full UMAX. -/
  | umaxCompact (f : CForm)
  /-- R34: Compact uniform UMOV: alias of UOR with B equal to A, copying sA to sD. -/
  | umovCompact (f : CForm)
  /-- R34: Compact uniform UMAD: I32 multiply-add accumulating into D. -/
  | umadCompact (f : CForm)
  /-- R140: Integer add per element, wrapping or saturating. -/
  | iadd (f : RForm)
  /-- R140: Integer subtract per element, wrapping or saturating. -/
  | isub (f : RForm)
  /-- R140: Integer multiply per element, low bits or saturated. -/
  | imul (f : RForm)
  /-- R140: High half of the integer product per element. -/
  | imulh (f : RForm)
  /-- R140: Integer multiply-add with addend register C. -/
  | imad (f : RForm)
  /-- R140: Integer minimum per element. -/
  | imin (f : RForm)
  /-- R140: Integer maximum per element. -/
  | imax (f : RForm)
  /-- R140: Integer absolute value per element. -/
  | iabs (f : RForm)
  /-- R140: Integer negation per element. -/
  | ineg (f : RForm)
  /-- R140: Integer comparison writing a lane predicate. -/
  | icmp (f : RForm)
  /-- R140: Select vA or vB by a lane predicate. -/
  | sel (f : RForm)
  /-- R142: Bitwise AND. -/
  | and (f : RForm)
  /-- R142: Bitwise OR. -/
  | or (f : RForm)
  /-- R142: Bitwise XOR. -/
  | xor (f : RForm)
  /-- R142: Bitwise A AND NOT B. -/
  | andn (f : RForm)
  /-- R142: Bitwise NOT. -/
  | not (f : RForm)
  /-- R143: Left shift per element by a count register. -/
  | shl (f : RForm)
  /-- R143: Logical right shift per element. -/
  | shr (f : RForm)
  /-- R143: Arithmetic right shift per element. -/
  | sar (f : RForm)
  /-- R143: Rotate left per element by count mod width. -/
  | rot (f : RForm)
  /-- R142: Population count per element. -/
  | popc (f : RForm)
  /-- R142: Leading-zero count per element. -/
  | clz (f : RForm)
  /-- R142: Bit reversal per element. -/
  | brev (f : RForm)
  /-- R143: Bit-field extract, optionally sign-extended. -/
  | bfx (f : RForm)
  /-- R143: Bit-field insert into a base register. -/
  | bfi (f : RForm)
  /-- R144: Float add rounded by the code in C. -/
  | fadd (f : RForm)
  /-- R144: Float subtract rounded by the code in C. -/
  | fsub (f : RForm)
  /-- R144: Float multiply rounded by the code in C. -/
  | fmul (f : RForm)
  /-- R144: Fused multiply-add rounded once with RNE, product optionally negated. -/
  | ffma (f : RForm)
  /-- R144: Float minimum per R72. -/
  | fmin (f : RForm)
  /-- R144: Float maximum per R72. -/
  | fmax (f : RForm)
  /-- R144: Float comparison writing a lane predicate. -/
  | fcmp (f : RForm)
  /-- R145: Tests a class-mask bit for the class of A into a predicate. -/
  | fclass (f : RForm)
  /-- R146: Correctly rounded reciprocal. -/
  | frcp (f : RForm)
  /-- R146: Reciprocal square root within 1 ulp. -/
  | frsq (f : RForm)
  /-- R146: Correctly rounded square root. -/
  | fsqrt (f : RForm)
  /-- R146: Base-2 exponential within 2 ulp. -/
  | fexp2 (f : RForm)
  /-- R146: Base-2 logarithm within 2 ulp. -/
  | flog2 (f : RForm)
  /-- R146: Sine of A in radians. -/
  | fsin (f : RForm)
  /-- R146: Cosine of A in radians. -/
  | fcos (f : RForm)
  /-- R146: Correctly rounded division under the rounding code in C. -/
  | fdiv (f : RForm)
  /-- R148: 8-bit four-way dot product with accumulator, wrap or saturate. -/
  | dot4 (f : RForm)
  /-- R148: 4-bit eight-way dot product with accumulator. -/
  | dot8 (f : RForm)
  /-- R148: BF16 pair dot product into an FP32 accumulator, rounded once. -/
  | dot2 (f : RForm)
  /-- R148: Scales A by 2^k from B, rounded once to F32. -/
  | fscl (f : RForm)
  /-- R84: Converts one scalar between integer and float types. -/
  | cvt (f : RForm)
  /-- R84: Converts a run of packed elements between types. -/
  | cvtp (f : RForm)
  /-- R84: Packed conversion with an E8M0 block scale on the wide side. -/
  | cvtx (f : RForm)
  /-- R149: Loads a sign-extended 16-bit immediate. -/
  | movi (f : I16Form)
  /-- R149: Sets bits 31:16 from the immediate, keeping the low half. -/
  | movh (f : I16Form)
  /-- R151: Broadcasts a source lane's register to all active lanes. -/
  | bcast (f : RForm)
  /-- R151: Cross-lane shuffle by index, up, down or xor. -/
  | shfl (f : RForm)
  /-- R152: All, any or uniform vote of a predicate across active lanes. -/
  | vote (f : RForm)
  /-- R152: Writes the mask of active lanes whose predicate is true. -/
  | ballot (f : RForm)
  /-- R153: Tree reduction over the group's active lanes. -/
  | redux (f : RForm)
  /-- R153: Inclusive or exclusive tree scan over the group's lanes. -/
  | scan (f : RForm)
  /-- R136: Sets an index register from a vector register. -/
  | xset (f : RForm)
  /-- R136: Adds an immediate to an index register's INDEX mod 1024. -/
  | xadd (f : I16Form)
  /-- R136: Reads the vector register an index register points at. -/
  | movx (f : I16Form)
  /-- R136: Writes the vector register an index register points at. -/
  | stx (f : I16Form)
  /-- R138: Predicate logic through a 4-bit truth table. -/
  | plop (f : RForm)
  /-- R138: Moves predicates to or from a vector register. -/
  | pmov (f : RForm)
  /-- R226: Global load per lane through an address register. -/
  | ld (f : MForm)
  /-- R226: Global store per lane into the store queue or write-combining buffer. -/
  | st (f : MForm)
  /-- R227: Prefetches lines into L1 or L2 without affecting values. -/
  | pref (f : MForm)
  /-- R251: Team reads a whole object row at its home under the row lock. -/
  | rowld (f : MForm)
  /-- R198: Scratchpad load, parking on absent lines. -/
  | lds (f : MForm)
  /-- R198: Scratchpad store applied in issue order. -/
  | sts (f : MForm)
  /-- R200: Scratchpad atomic read-modify-write per lane. -/
  | atoms (f : RForm)
  /-- R201: Tests whether scratchpad lines are present into a predicate. -/
  | present (f : MForm)
  /-- R243: Atomic operation applied at the home slice. -/
  | atom (f : RForm)
  /-- R243: Compare-and-swap at the home slice. -/
  | cas (f : RForm)
  /-- R245: Packed pair atomic add, each half a separate update at home. -/
  | padd2 (f : RForm)
  /-- R250: Team adds chunks into a whole object row at its home under lock. -/
  | rowadd (f : RForm)
  /-- R255: Appends each active lane's entry to a slice queue. -/
  | enq (f : I16Form)
  /-- R255: Takes an entry from a slice queue, parking while empty and live. -/
  | deq (f : I16Form)
  /-- R255: Takes an entry if one is present, without parking. -/
  | qtry (f : I16Form)
  /-- R255: Reads a slice queue's entry count. -/
  | qlen (f : I16Form)
  /-- R256: Registers active threads as producers of a slice queue. -/
  | qopen (f : I16Form)
  /-- R256: Retires producer registrations, closing the queue at zero. -/
  | qdone (f : I16Form)
  /-- R112: Per-lane branch, splitting the fragment. -/
  | brx (f : I16Form)
  /-- R119: Lane-varying indirect call, filing lanes into callee queues. -/
  | callq (f : RForm)
  /-- R117: Pops each lane's return stack and splits by return PC. -/
  | ret (f : RForm)
  /-- R114: Adds active lanes to a rejoin mask's members. -/
  | join (f : RForm)
  /-- R114: Parks lanes on a rejoin mask until all members arrive. -/
  | waitj (f : RForm)
  /-- R102: Exits active threads after draining their group's stores. -/
  | exit (f : RForm)
  /-- R97: Files the fragment into a bin keyed by block and PC. -/
  | reform (f : RForm)
  /-- R98: Files threads to sort the block across slots by key. -/
  | reorder (f : RForm)
  /-- R99: Drains and launches one child grid per active lane. -/
  | spawn (f : RForm)
  /-- R108: Sets or clears the group's pending class migration. -/
  | migrate (f : RForm)
  /-- R107: Equivalence point: records the point and takes a pending migration. -/
  | eqpt (f : I16Form)
  /-- R287: Opens a new idempotent region at the next instruction. -/
  | region (f : RForm)
  /-- R124: Assigns lane paths and opens the meld region. -/
  | meld (f : RForm)
  /-- R124: Closes the meld region and clears paths. -/
  | endmeld (f : RForm)
  /-- R123: Loads the whole rename table from uniform registers or memory. -/
  | mtbl (f : RForm)
  /-- R179: Matrix multiply-accumulate of one k-block into a tile. -/
  | mma (f : RForm)
  /-- R180: Matrix multiply-accumulate issued per quarter, fusable. -/
  | mmaq (f : RForm)
  /-- R182: Dense product plus an outlier list into a tile. -/
  | mmao (f : RForm)
  /-- R181: Block-scaled matrix multiply-accumulate. -/
  | mmas (f : RForm)
  /-- R186: Reads a tile row or column into vector registers. -/
  | tslr (f : RForm)
  /-- R186: Writes a tile row or column from vector registers. -/
  | tslw (f : RForm)
  /-- R184: Joins or leaves a B-share as a quarter. -/
  | bshare (f : RForm)
  /-- R204: Issues a strided copy to the engine and returns a future. -/
  | cpy (f : RForm)
  /-- R208: Issues a multicast copy to gang positions. -/
  | cpym (f : RForm)
  /-- R208: Issues a copy into a peer block's scratchpad. -/
  | cpyp (f : RForm)
  /-- R267: Sends inspect requests pushing named writers' stores and parks until done. -/
  | inspect (f : RForm)
  /-- R267: Sends inspect requests and returns a future handle. -/
  | inspectf (f : RForm)
  /-- R215: Tests whether a future register is no longer pending. -/
  | ftest (f : RForm)
  /-- R215: Blocking read of a future register. -/
  | fwait (f : RForm)
  /-- R215: Cancels a pending or faulted future register. -/
  | fcancel (f : RForm)
  /-- R215: Copies a future register with its tag. -/
  | fpass (f : RForm)
  /-- R133: Does nothing beyond its scheduling fields. -/
  | nop (f : RForm)
  /-- R133: Holds the fragment until issue counters fall to the given levels. -/
  | wait (f : I16Form)
  /-- R133: Exchanges the bundle out of the active set. -/
  | yield (f : RForm)
  /-- R294: Raises cause TRAP with a code, resuming after it. -/
  | trap (f : I16Form)
  /-- R294: Raises cause BKPT with a breakpoint id. -/
  | bkpt (f : I16Form)
  /-- R293: Returns each handler lane's origin to READY at REPC and exits. -/
  | rte (f : RForm)
  /-- R293: Reads the handler lane's pennant. -/
  | pen (f : RForm)
  /-- R159: Uniform add, wrapping or saturating. -/
  | uadd (f : RForm)
  /-- R159: Uniform subtract. -/
  | usub (f : RForm)
  /-- R159: Uniform multiply. -/
  | umul (f : RForm)
  /-- R159: High half of the uniform product. -/
  | umulh (f : RForm)
  /-- R159: Uniform multiply-add. -/
  | umad (f : RForm)
  /-- R159: Uniform minimum. -/
  | umin (f : RForm)
  /-- R159: Uniform maximum. -/
  | umax (f : RForm)
  /-- R159: Uniform comparison into a uniform predicate. -/
  | ucmp (f : RForm)
  /-- R158: Selects sA or sB by a uniform predicate. -/
  | usel (f : RForm)
  /-- R158: Uniform bitwise AND. -/
  | uand (f : RForm)
  /-- R158: Uniform bitwise OR. -/
  | uor (f : RForm)
  /-- R158: Uniform bitwise XOR. -/
  | uxor (f : RForm)
  /-- R158: Uniform bitwise NOT. -/
  | unot (f : RForm)
  /-- R159: Uniform left shift. -/
  | ushl (f : RForm)
  /-- R159: Uniform logical right shift. -/
  | ushr (f : RForm)
  /-- R159: Uniform arithmetic right shift. -/
  | usar (f : RForm)
  /-- R159: Uniform population count. -/
  | upopc (f : RForm)
  /-- R159: Uniform leading-zero count. -/
  | uclz (f : RForm)
  /-- R160: Loads a sign-extended immediate into a uniform register. -/
  | umovi (f : I16Form)
  /-- R160: Sets a uniform register's high half from the immediate. -/
  | umovh (f : I16Form)
  /-- R162: Reads a special register. -/
  | ursr (f : I16Form)
  /-- R162: Writes a special register, reseeding the core's generators. -/
  | uwsr (f : I16Form)
  /-- R160: Uniform predicate logic through a truth table. -/
  | uplop (f : RForm)
  /-- R161: Copies one lane's vector register into a uniform register. -/
  | uread (f : RForm)
  /-- R169: Sets one field of an address register, unchecked. -/
  | aset (f : RForm)
  /-- R169: Reads one field of an address register into a uniform pair. -/
  | aget (f : RForm)
  /-- R169: Advances POINTER by a stride, checked against the range. -/
  | adv (f : RForm)
  /-- R170: Shrinks an address register's range or permissions. -/
  | anarrow (f : RForm)
  /-- R171: Loads a whole address register from 32 bytes of memory. -/
  | ald (f : MForm)
  /-- R226: Uniform global load once per group. -/
  | ldu (f : MForm)
  /-- R226: Uniform global store once per group. -/
  | stu (f : MForm)
  /-- R238: Invalidates a range in every instruction cache of the partition. -/
  | icinv (f : RForm)
  /-- R238: Discards the group's fetched and decoded instructions. -/
  | fbar (f : RForm)
  /-- R236: Pins a range's lines in L2, all or nothing. -/
  | pin (f : RForm)
  /-- R236: Decrements pin counts over a range. -/
  | unpin (f : RForm)
  /-- R235: Declares a coherence object from a shape record. -/
  | odecl (f : MForm)
  /-- R235: Pushes and frees a coherence object's entry. -/
  | ofree (f : RForm)
  /-- R235: Pushes rostered stores home, invalidates L1 copies and seals the object. -/
  | seal (f : RForm)
  /-- R235: Invalidates L1 copies and returns a sealed object to IDLE. -/
  | unseal (f : RForm)
  /-- R235: Writes a snapshot of an object entry to eight uniform registers. -/
  | oquery (f : RForm)
  /-- R112: Uniform relative branch under a uniform condition. -/
  | bra (f : I24Form)
  /-- R112: Uniform indirect jump to a uniform pair's address. -/
  | jmpi (f : RForm)
  /-- R117: Uniform call pushing PC + 8 on each thread's return stack. -/
  | call (f : I24Form)
  /-- R99: Launches one child grid for the group. -/
  | uspawn (f : RForm)
  /-- R100: Parks the group until every child grid is final. -/
  | gridwait (f : RForm)
  /-- R187: Loads a whole tile from memory or scratchpad. -/
  | tld (f : MForm)
  /-- R187: Stores a whole tile as sector stores of the group. -/
  | tst (f : MForm)
  /-- R188: Zeroes every element of a tile. -/
  | tzero (f : RForm)
  /-- R188: Copies one tile to another. -/
  | tmov (f : RForm)
  /-- R188: Converts a tile's FP32 elements to a narrower format. -/
  | tcvt (f : RForm)
  /-- R189: Allots a run of tile names to the block. -/
  | talloc (f : RForm)
  /-- R189: Releases a run of tile names. -/
  | tfree (f : RForm)
  /-- R189: Reads the core's tile and share status word. -/
  | tstat (f : RForm)
  /-- R212: Initialises a barrier object. -/
  | boinit (f : MForm)
  /-- R212: Counts arrivals at a barrier object's unit. -/
  | boarrive (f : MForm)
  /-- R212: Sets a barrier's EXPECT and checks for a flip. -/
  | boexpect (f : MForm)
  /-- R212: Parks until the barrier's phase differs from the given bit. -/
  | bowait (f : MForm)
  /-- R212: Reads a barrier object's word 0. -/
  | botest (f : MForm)
  /-- R259: Reads, optionally clearing, a stale-read sampler counter. -/
  | srstat (f : RForm)
  /-- R275: Reads, optionally clearing, an inspect counter. -/
  | istat (f : RForm)
  /-- R163: Reads the core's 64-bit cycle counter. -/
  | ccount (f : RForm)
  /-- R307: Invalidates translations of a range across the partition. -/
  | tlbinv (f : RForm)
  /-- R296: Saves a trapped origin's thread or group image to memory. -/
  | csave (f : MForm)
  /-- R296: Loads a thread or group image into a trapped origin. -/
  | cload (f : MForm)
  /-- R299: Halts the group and posts a code to the debug mailbox. -/
  | halt (f : RForm)
  /-- R306: Removes the oldest error-log entry into eight uniform registers. -/
  | errlog (f : RForm)
  /-- R289: A collector forms a handler wave at W lanes or when its oldest lane has waited 256 cycles, and places it. -/
  | handlerWaveForm (stack : Nat) (part : Nat) (aged : Bool)
  /-- R94: Every 4 cycles the front end merges ready fragments at one PC into a bundle. -/
  | bundleFormation (core : Nat)
  /-- R96: A bin that is full or aged 256 cycles yields one bundle. -/
  | binHoist (core : Nat) (bin : Nat) (aged : Bool)
  /-- R98: The REORDER bin is sorted by key when all threads arrived or its oldest entry aged 256 cycles. -/
  | reorderSort (core : Nat) (bin : Nat) (aged : Bool)
  /-- R120: A callee queue that is full or aged 256 cycles yields one bundle at its target. -/
  | calleeQueueDrain (core : Nat) (queue : Nat) (aged : Bool)
  /-- R326: Host writes a record address to a launch port, placing it in the queue or refusing it. -/
  | launchPortWrite (port : Nat) (width : Nat) (value : BitVec 64)
  /-- R91: The launch unit reads a queued record and header, checks them and sets WAITING, ELIGIBLE or REFUSED. -/
  | recordResolution (queue : Nat)
  /-- R93: A core set offers a claim and the stack arbiter grants blocks or a waiting migration, placing them. -/
  | claim (core : Nat) (evict : Bool)
  /-- R300: An evicted group is restored when a core can place it, possibly under a rewritten gang map. -/
  | groupRestore (gid : Nat) (core : Nat)
  /-- R223: A store-queue entry or write-combining line leaves the core for its home slice. -/
  | storeDrainSend (core : Nat) (entry : Nat) (combining : Bool)
  /-- R223: A store reaches its home slice, is applied or discarded if sealed, and is acknowledged. -/
  | storeArrivalAtHome (req : Nat)
  /-- R223: A home slice's acknowledgement reclaims a write-through entry. -/
  | writeThroughAck (core : Nat) (entry : Nat)
  /-- R224: A load request reaches its home slice and is served from the current value. -/
  | loadRequestAtHome (req : Nat)
  /-- R131: A reply returns to the core and writes the tagged register or is dropped, raising late causes. -/
  | sliceReply (reply : Nat)
  /-- R240: An atomic request is applied indivisibly at its home slice in arrival order. -/
  | atomicRequestAtHome (req : Nat) (high : Bool)
  /-- R252: A ROWADD or ROWLD request locks, applies or reads the row at its home. -/
  | rowRequestAtHome (req : Nat)
  /-- R255: A queue request is served at its slice lane by lane. -/
  | queueRequestAtSlice (req : Nat)
  /-- R199: A PEER-SPAD access or BOARRIVE reaches the target core through its forwarding slice. -/
  | peerSpadRequest (req : Nat)
  /-- R231: A store's roster request sets the core's bit at the object or slice and answers. -/
  | rosterBitRequest (core : Nat) (objid : BitVec 32) (slice : Nat)
  /-- R231: A lookup miss is filled from the object's entry. -/
  | objectLookupFill (core : Nat) (objid : BitVec 32)
  /-- R220: A TLB miss walks the page tables with strong loads and returns a translation or fault. -/
  | pageWalk (core : Nat) (part : Nat) (va : BitVec 64)
  /-- R237: The front end fetches ahead, filling its instruction cache from the home slice. -/
  | instructionFetch (gid : Nat) (va : BitVec 64)
  /-- R206: A copy takes ownership of its GLOBAL destination, waiting as needed. -/
  | copyOwnershipAcquire (copy : Nat)
  /-- R196: A forwarding slice's clear request clears presence bits at a receiving core. -/
  | presenceClearArrival (copy : Nat) (recv : Nat)
  /-- R205: A copy sector lands, setting presence and updating the receiver's barrier. -/
  | copySectorLand (copy : Nat) (recv : Nat) (ahead : Bool)
  /-- R207: A copy resolves, releases ownership and writes its future's result. -/
  | copyResolve (copy : Nat)
  /-- R270: A slice takes a roster snapshot and forwards drains to the listed cores. -/
  | inspectSnapshot (insp : Nat)
  /-- R268: An inspect request or drain arrives at a target core and pushes older entries. -/
  | inspectArrival (insp : Nat) (core : Nat)
  /-- R267: All pushes acknowledged: the observer's L1 is invalidated and the inspect completes. -/
  | inspectComplete (insp : Nat)
  /-- R258: Every 2^k-th L1-served access sends a shadow read compared at home. -/
  | staleReadSample (sample : Nat)
  /-- R304: An uncorrectable dirty L2 line evicted unowned is written back as poison and logged. -/
  | poisonWriteback (part : Nat) (pa : Nat)
  /-- R325: A BAR0 access of wrong width or alignment is dropped, reads return all ones. -/
  | bar0IllegalAccess (off : Nat) (width : Nat) (isRead : Bool)
  /-- R329: Host read through BAR2 served at the home slice. -/
  | bar2Read (off : Nat) (count : Nat)
  /-- R277: Host write through BAR2 applied at its home slice before later host requests. -/
  | bar2Write (off : Nat) (data : List (BitVec 8))
  /-- R328: Host writes a queue's priority, chunk, aging and core mask. -/
  | launchQueueControlWrite (queue : Nat) (off : Nat) (width : Nat) (value : BitVec 64)
  /-- R341: A write to a partition control block is judged field by field under quiesce and ownership rules. -/
  | partitionControlWrite (part : Nat) (off : Nat) (width : Nat) (value : BitVec 64) (secure : Bool)
  /-- R340: Doorbell bit 0 invalidates every translation of the partition. -/
  | doorbellTlbInvalidate (part : Nat)
  /-- R340: Doorbell bit 1 invalidates the partition's instruction caches. -/
  | doorbellIcacheInvalidate (part : Nat)
  /-- R301: Doorbell bit 2 switches the partition out, evicting every group with tiles and regions. -/
  | doorbellTimeSliceOut (part : Nat)
  /-- R301: Doorbell bit 3 restores a switched-out partition. -/
  | doorbellTimeSliceIn (part : Nat)
  /-- R297: Doorbell bit 4 resumes halted groups. -/
  | doorbellResumeHalted (part : Nat)
  /-- R341: A doorbell action finishes and its DBSTAT bit clears. -/
  | doorbellActionComplete (part : Nat) (bit : Nat)
  /-- R340: Creates a slice queue LIVE from QNUM, QLOGCAP and QBASE. -/
  | qcmdCreate (part : Nat)
  /-- R340: Resets a slice queue to empty and LIVE. -/
  | qcmdReset (part : Nat)
  /-- R340: Deletes a slice queue unless lanes are parked on it. -/
  | qcmdDelete (part : Nat)
  /-- R342: Host writes a memory region entry; overlapping writes are ignored. -/
  | regionTableWrite (index : Nat) (off : Nat) (width : Nat) (value : BitVec 64) (secure : Bool)
  /-- R276: Host starts a .SYS inspect from its partition's mailbox. -/
  | hinspectDoorbell (part : Nat) (seq : BitVec 32)
  /-- R276: The mailbox inspect finishes and writes its completion word to DONEADDR. -/
  | hostInspectComplete (part : Nat) (addressFault : Bool)
  /-- R345: A write to NEXT removes the posted pennant and shows the next one. -/
  | debugNext (part : Nat)
  /-- R345: State-port command 1 saves a halted lane's image to DSADDR. -/
  | dscmdSave (part : Nat)
  /-- R345: State-port command 2 loads an image from DSADDR into a halted lane or group. -/
  | dscmdLoad (part : Nat)
  /-- R347: Writing 1 to identity offset 0x0FC starts a signed attestation report over the nonce. -/
  | attestationRequest (value : BitVec 32)
  /-- R347: The attestation report is complete and bit 0 of 0x0F8 is set. -/
  | attestationReportDone
  /-- R335: A write to an Ethernet port control block is judged field by field. -/
  | portControlWrite (port : Nat) (off : Nat) (width : Nat) (value : BitVec 64)
  /-- R335: Setting ENABLE starts the port if its queues and table are valid, else sets RANGE. -/
  | portEnable (port : Nat)
  /-- R335: Clearing ENABLE stops the port, completing taken requests with STATUS 6. -/
  | portDisable (port : Nat)
  /-- R338: Writing i makes the port read RoCE context i afresh. -/
  | qpload (port : Nat) (context : Nat)
  /-- R336: The port takes a SENDQ entry, reads its descriptor and starts the transfer. -/
  | portSendRequest (port : Nat)
  /-- R336: The port takes a posted receive descriptor from RECVQ. -/
  | portRecvPost (port : Nat)
  /-- R337: A Bowline WRITE or WRITE-FLAG frame is accepted into the window, dropped or NAKed. -/
  | bowlineDataFrameRx (port : Nat) (frame : BowlineFrame)
  /-- R337: A cumulative ACK frees sent frames and may complete a message. -/
  | bowlineAckRx (port : Nat) (mac : BitVec 48) (seq : BitVec 32)
  /-- R337: A NAK completes the message with STATUS 1 and stops its later frames. -/
  | bowlineNakRx (port : Nat) (mac : BitVec 48) (seq : BitVec 32)
  /-- R337: BLTMO expiry resends from the oldest unacknowledged frame, failing after 8 resends. -/
  | bowlineResendTimeout (port : Nat) (mac : BitVec 48)
  /-- R338: An incoming RDMA WRITE is checked against the key table and written. -/
  | roceRdmaWriteRx (port : Nat) (pkt : RocePacket)
  /-- R338: An incoming RDMA READ is checked against the key table and answered. -/
  | roceRdmaReadRx (port : Nat) (pkt : RocePacket)
  /-- R338: An incoming SEND fills the oldest posted RECV or is NAKed. -/
  | roceSendRx (port : Nat) (pkt : RocePacket)
  /-- R338: A RoCE acknowledgement completes acknowledged requests. -/
  | roceAckRx (port : Nat) (context : Nat) (psn : BitVec 24)
  /-- R338: A RoCE NAK fails the context's outstanding requests. -/
  | roceNakRx (port : Nat) (context : RoceNak)
  /-- R338: The acknowledgement timeout resends, failing the context after RETRY resends. -/
  | roceAckTimeout (port : Nat) (context : Nat)
  /-- R278: A peer's store, load, atomic or inspect arrives over the Veleel Link and is served. -/
  | peerRequestArrival (req : PeerRequest)
  /-- R333: A flit failing its CRC is resent by the link. -/
  | linkFlitError (link : Nat)
  /-- R333: LINKTMO expiry fails a remote request: POISON, dropped store or FAULTED inspect. -/
  | linkTimeout (req : Nat)
  /-- R348: Applies repair bindings, loads verified firmware, trains links, clears partitions and zeroes near memory. -/
  | coldReset (repair : RepairRecord)
  /-- R348: Clears partitions, queues and mailboxes and kills every gang, keeping memory. -/
  | functionLevelReset
  /-- R349: Above a power or temperature limit firmware lowers stack clocks. -/
  | thermalThrottle (stack : Nat)
  /-- R349: Flow loss for 5 s or 105 °C junction stops every stack until cold reset. -/
  | coolingShutdown
  /-- R4: A write to a register without its own row stores, clears or ignores bits per its Access codes. -/
  | registerWrite (off : Nat) (width : Nat) (value : BitVec 64)
  /-- R335: A received frame with an FCS failure, an unknown EtherType, an unknown context, or a bad sequence or window is dropped and counted in RXDROPS. -/
  | frameDropped (port : Nat)
  /-- R338: RDMA READ response data arriving for a request this port sent lands in the local buffer, and a KIND 2 completion is enqueued once every byte is home. -/
  | rdmaReadResponseRx (port : Nat) (pkt : RocePacket)
  /-- R338: An incoming RoCE atomic request is answered with an invalid-request NAK. -/
  | roceAtomicRequestRx (port : Nat) (pkt : RocePacket)
deriving DecidableEq, Repr

end Sys2Proof
end

