-- ==== Sys2Proof/WellFormed.lean ====
section
/-! DEFINITION. The opcode map as data (R59, R60): one Row per mnemonic, giving its set, class, function number, layout,
the kind of register or code each field names, and the values its variant fields accept (R40 to R56). An instruction is
well formed in an encoding when every field it uses holds an accepted value and every field it does not use is zero. -/

namespace Sys2Proof

/-- The second-word layouts of Sazil-D, which fix the Sazil-L layouts (R36 to R39, R61). -/
inductive Layout where
  | r
  | i16
  | i24
  | m
deriving DecidableEq, Repr

/-- What a field names (R40, R48). vecTyped and uniTyped are even pairs under a 64-bit type; vecRun and uniRun are runs
whose length the SIZE field gives; uniMul n is a uniform run whose first code is a multiple of n. -/
inductive Kind where
  | unused
  | vec
  | vecTyped
  | vecPair
  | vecRun
  | uni
  | uniTyped
  | uniPair
  | uniRun
  | uniMul (n : Nat)
  | addr
  | xreg
  | pred
  | upred
  | join
  | tile
  | code (max : Nat)
  | mem
  | idx
  | uidx
  | pairIdx
  | special
deriving DecidableEq, Repr

/-- The fields of a Sazil instruction, by layout. -/
inductive Fields where
  | r (f : RForm)
  | i16 (f : I16Form)
  | i24 (f : I24Form)
  | m (f : MForm)
deriving DecidableEq, Repr

/-- One row of the opcode map (R59, R60). -/
structure Row where
  uniform : Bool
  op : Nat
  fn : Nat
  layout : Layout
  d : Kind := .unused
  a : Kind := .unused
  b : Kind := .unused
  c : Kind := .unused
  types : Option (List Nat) := none
  flag : Bool := false
  sizes : List Nat := []
  orders : List Nat := []
  unpredicated : Bool := false
  signed : Bool := false
  mod4 : Bool := false
  extra : Enc → Fields → Bool := fun _ _ => true
  fix : Fields → Fields := fun f => f
  build : Fields → Option Instr

def Row.mkR (c : RForm → Instr) : Fields → Option Instr
  | .r f => some (c f)
  | .i16 _ => none
  | .i24 _ => none
  | .m _ => none

def Row.mkI (c : I16Form → Instr) : Fields → Option Instr
  | .i16 f => some (c f)
  | .r _ => none
  | .i24 _ => none
  | .m _ => none

def Row.mkL (c : I24Form → Instr) : Fields → Option Instr
  | .i24 f => some (c f)
  | .r _ => none
  | .i16 _ => none
  | .m _ => none

def Row.mkM (c : MForm → Instr) : Fields → Option Instr
  | .m f => some (c f)
  | .r _ => none
  | .i16 _ => none
  | .i24 _ => none

/-- The code of an absent index operand (R48, R54). -/
def noIndex : BitVec 10 := 0x3FF

/-- The number of vector register codes an encoding's fields reach (R40). -/
def Enc.vecCodes : Enc → Nat
  | .d => 256
  | .l => 1024

/-- The registers an access of a SIZE code fills: 1, or 2, 4, 8 or 16 (R40, R46). -/
def sizeRun (size : Nat) : Nat := if size ≤ 2 then 1 else 2 ^ (size - 2)

/-- Types whose values are 64 bits wide (R66). -/
def wideType (ty : BitVec 5) : Bool := ty == 2 || ty == 3

/-- A field code is valid for its kind (R40, R55). -/
def Kind.ok (e : Enc) (wide : Bool) (run : Nat) (k : Kind) (x : BitVec 10) : Bool :=
  let n := x.toNat
  match k with
  | .unused => n == 0
  | .vec => n < e.vecCodes
  | .vecTyped => n < e.vecCodes && (!wide || n % 2 == 0)
  | .vecPair => n < e.vecCodes && n % 2 == 0
  | .vecRun => n < e.vecCodes && n % run == 0
  | .uni => n < 256
  | .uniTyped => n < 256 && (!wide || n % 2 == 0)
  | .uniPair => n < 256 && n % 2 == 0
  | .uniRun => n < 256 && n % run == 0
  | .uniMul k => n < 256 && n % k == 0
  | .addr => n < 16
  | .xreg => n < 8
  | .pred => n < 8
  | .upred => n < 8
  | .join => n < 16
  | .tile => n < 256
  | .code max => n ≤ max
  | .mem => n < 256 && n % 4 != 3
  | .idx => n == 0x3FF || n + 1 < e.vecCodes
  | .uidx => n == 0x3FF || n < 255 || (e == .l && n < 256)
  | .pairIdx => n == 0x3FF || (n + 1 < e.vecCodes && n % 2 == 0)
  | .special => true

/-- CVT's scalar types (R82). -/
def cvtScalar : List Nat := [0, 1, 2, 3, 8, 11, 12]

/-- CVTP's types (R82). -/
def cvtPacked : List Nat := [0, 8, 4, 5, 9, 10, 6, 7, 13, 14, 16, 17, 15, 18]

/-- Elements per 32-bit register of a type (R66, R84). -/
def perReg (ty : Nat) : Nat :=
  if ty ∈ [4, 5, 9, 10] then 2 else if ty ∈ [6, 7, 13, 14, 18] then 4 else if ty ∈ [15, 16, 17] then 8 else 1

/-- The conversion's source type (R82: C[7:3]) and rounding code (C[2:0]). -/
def cvtSource (f : RForm) : Nat := f.c.toNat / 8
def cvtRound (f : RForm) : Nat := f.c.toNat % 8

def cvtOk (_ : Enc) : Fields → Bool
  | .r f =>
    let src := cvtSource f
    cvtScalar.contains src && cvtScalar.contains f.ty.toNat && cvtRound f ≤ 5
      && (src != 2 && src != 3 || f.a.toNat % 2 == 0) && (!wideType f.ty || f.d.toNat % 2 == 0)
  | _ => false

/-- The register runs of CVTP and CVTX are aligned to their lengths (R82). -/
def cvtRunsOk (f : RForm) : Bool :=
  let ps := perReg (cvtSource f)
  let pd := perReg f.ty.toNat
  let n := max ps pd
  f.a.toNat % (n / ps) == 0 && f.d.toNat % (n / pd) == 0

def cvtpOk (_ : Enc) : Fields → Bool
  | .r f =>
    let src := cvtSource f
    let dst := f.ty.toNat
    cvtPacked.contains src && cvtPacked.contains dst && src != dst && cvtRound f ≤ 5
      && (src != 18 || dst == 8) && (dst != 18 || (src == 8 && (cvtRound f == 1 || cvtRound f == 3)))
      && cvtRunsOk f
  | _ => false

def cvtxOk (_ : Enc) : Fields → Bool
  | .r f =>
    let src := cvtSource f
    let dst := f.ty.toNat
    let packed := [9, 10, 13, 14, 15]
    ((src == 8 && packed.contains dst) || (dst == 8 && packed.contains src)) && cvtRound f ≤ 5 && cvtRunsOk f
  | _ => false

/-- PMOV.GET names a vector in D, PMOV.SET one in A; the other field is ignored (R137). -/
def pmovOk (e : Enc) : Fields → Bool
  | .r f => f.d.toNat < e.vecCodes && f.a.toNat < e.vecCodes && (if f.c == 0 then f.a == 0 else f.d == 0)
  | _ => false

def pmovFix : Fields → Fields
  | .r f => .r (if f.c == 0 then { f with a := 0 } else { f with d := 0 })
  | f => f

/-- REORDER's live mask is 8 uniform registers on a D-core, 32 on an L-core (R98's limits). -/
def reorderOk (e : Enc) : Fields → Bool
  | .r f => f.b.toNat < 256 && f.b.toNat % (match e with | .d => 8 | .l => 32) == 0
  | _ => false

/-- MELD's A names a lane predicate, or a vector register under MOD[5] (R124's table). -/
def meldOk (e : Enc) : Fields → Bool
  | .r f => if f.mx then f.a.toNat < e.vecCodes else f.a.toNat < 8
  | _ => false

/-- MTBL's A names the first of 32 uniform registers, or an address register (R123's operands). -/
def mtblOk (_ : Enc) : Fields → Bool
  | .r f => if f.c == 0 then f.a.toNat < 256 && f.a.toNat % 32 == 0 else f.a.toNat < 16
  | _ => false

/-- The B source of a matrix instruction: an address register, or a B-share where allowed (R177, R178). -/
def bSrcOk (share : Bool) (_ : Enc) : Fields → Bool
  | .r f => f.b.toNat < 16 || (share && 0x80 ≤ f.b.toNat && f.b.toNat < 0x90)
  | _ => false

/-- BSHARE.LEAVE ignores A (R184). -/
def bshareOk (e : Enc) : Fields → Bool
  | .r f => f.a.toNat < e.vecCodes && (f.c != 4 || f.a == 0)
  | _ => false

def bshareFix : Fields → Fields
  | .r f => .r (if f.c == 4 then { f with a := 0 } else f)
  | f => f

/-- The form, the scope and the register fields of INSPECT and INSPECTF (R264). -/
def inspectForm (f : RForm) : Nat := f.c.toNat % 8
def inspectScope (f : RForm) : Nat := f.c.toNat / 8 % 4

def inspectOk (e : Enc) : Fields → Bool
  | .r f =>
    let form := inspectForm f
    let scope := inspectScope f
    let vecB := f.b.toNat + 1 < e.vecCodes
    form ≤ 6 && scope ≤ 2 && f.c.toNat / 32 == 0
      && (if form == 6 then f.a == 0 else f.a.toNat < e.vecCodes && f.a.toNat % 2 == 0)
      && (if form ≤ 2 then f.b == noIndex || (vecB && scope == 2)
          else if form == 4 then vecB else f.b == 0)
  | _ => false

def inspectFix : Fields → Fields
  | .r f =>
    let form := inspectForm f
    let f := if form == 6 then { f with a := 0 } else f
    .r (if form == 3 || 5 ≤ form then { f with b := 0 } else f)
  | f => f

/-- The special-register numbers of R162. -/
def specialRegs : List Nat :=
  [0x000, 0x001, 0x010, 0x011, 0x012, 0x013, 0x014, 0x015, 0x016, 0x017, 0x018, 0x019, 0x01A, 0x01B, 0x040]

/-- URSR of sr.lane or sr.thread names a vector register in D, of any other number a uniform one (R162). -/
def ursrOk (e : Enc) : Fields → Bool
  | .i16 f => specialRegs.contains f.imm.toNat && (if f.imm.toNat ≤ 1 then f.d.toNat < e.vecCodes else f.d.toNat < 256)
  | _ => false

def uwsrOk (_ : Enc) : Fields → Bool
  | .i16 f => f.imm == 0x040
  | _ => false

/-- BRA's condition is D[3:0]; the other bits of D are ignored, and 0b1111 is ILLOP (R60). -/
def braOk (_ : Enc) : Fields → Bool
  | .i24 f => f.d.toNat < 15
  | _ => false

def braFix : Fields → Fields
  | .i24 f => .i24 { f with d := f.d &&& 0xF }
  | f => f

def anarrowOk (_ : Enc) : Fields → Bool
  | .r f => 1 ≤ f.c.toNat
  | _ => false

/-- F32 takes only ADD, MIN and MAX of REDUX and SCAN (R153). -/
def reduxOk (_ : Enc) : Fields → Bool
  | .r f => f.ty != 8 || f.c.toNat ≤ 2
  | _ => false

/-- The types each atomic operation lists (R200, R242). -/
def atomTypes (op : Nat) : List Nat :=
  match op with
  | 0 => [0, 1, 2, 3, 8, 9, 10]
  | 1 => [0, 1, 2, 3]
  | 2 => [0, 1, 2, 3]
  | 3 => [0, 1, 2, 3]
  | 4 => [0, 1, 2, 3, 8]
  | 5 => [0, 1, 2, 3, 8]
  | 6 => [0, 1, 2, 3, 8]
  | 7 => [1, 3]
  | 8 => [1, 3]
  | _ => []

def atomOk (_ : Enc) : Fields → Bool
  | .r f => (atomTypes f.c.toNat).contains f.ty.toNat
  | _ => false

/-- ROWADD's chunk is a SIZE code 2 to 6, and its run is aligned (R248, R40). -/
def rowaddOk (_ : Enc) : Fields → Bool
  | .r f => 2 ≤ f.c.toNat && f.d.toNat % sizeRun f.c.toNat == 0
  | _ => false

/-- Slice queues are numbered 0 to 8191 (R254). -/
def queueOk (_ : Enc) : Fields → Bool
  | .i16 f => f.imm.toNat < 8192
  | _ => false

/-- DEQ and QTRY ignore MOD4[3] (R254). -/
def deqFix : Fields → Fields
  | .i16 f => .i16 { f with mod4 := f.mod4 &&& 7 }
  | f => f

/-- IADD (R59, R60; R140). -/
def Rows.iadd : Row :=
  { uniform := false, op := 0x20, fn := 0, layout := .r, d := .vecTyped, a := .vecTyped, b := .vecTyped, types := some [0, 1, 2, 3, 4, 5, 6, 7], flag := true,
    build := Row.mkR .iadd }

/-- ISUB (R59, R60; R140). -/
def Rows.isub : Row :=
  { uniform := false, op := 0x20, fn := 1, layout := .r, d := .vecTyped, a := .vecTyped, b := .vecTyped, types := some [0, 1, 2, 3, 4, 5, 6, 7], flag := true,
    build := Row.mkR .isub }

/-- IMUL (R59, R60; R140). -/
def Rows.imul : Row :=
  { uniform := false, op := 0x20, fn := 2, layout := .r, d := .vecTyped, a := .vecTyped, b := .vecTyped, types := some [0, 1, 2, 3, 4, 5], flag := true,
    build := Row.mkR .imul }

/-- IMULH (R59, R60; R140). -/
def Rows.imulh : Row :=
  { uniform := false, op := 0x20, fn := 3, layout := .r, d := .vecTyped, a := .vecTyped, b := .vecTyped, types := some [0, 1, 2, 3],
    build := Row.mkR .imulh }

/-- IMAD (R59, R60; R140). -/
def Rows.imad : Row :=
  { uniform := false, op := 0x20, fn := 4, layout := .r, d := .vecTyped, a := .vecTyped, b := .vecTyped, c := .vecTyped, types := some [0, 1, 2, 3], flag := true,
    build := Row.mkR .imad }

/-- IMIN (R59, R60; R140). -/
def Rows.imin : Row :=
  { uniform := false, op := 0x20, fn := 5, layout := .r, d := .vecTyped, a := .vecTyped, b := .vecTyped, types := some [0, 1, 2, 3, 4, 5, 6, 7],
    build := Row.mkR .imin }

/-- IMAX (R59, R60; R140). -/
def Rows.imax : Row :=
  { uniform := false, op := 0x20, fn := 6, layout := .r, d := .vecTyped, a := .vecTyped, b := .vecTyped, types := some [0, 1, 2, 3, 4, 5, 6, 7],
    build := Row.mkR .imax }

/-- IABS (R59, R60; R140). -/
def Rows.iabs : Row :=
  { uniform := false, op := 0x20, fn := 7, layout := .r, d := .vecTyped, a := .vecTyped, types := some [0, 2, 4, 6], flag := true,
    build := Row.mkR .iabs }

/-- INEG (R59, R60; R140). -/
def Rows.ineg : Row :=
  { uniform := false, op := 0x20, fn := 8, layout := .r, d := .vecTyped, a := .vecTyped, types := some [0, 2, 4, 6], flag := true,
    build := Row.mkR .ineg }

/-- ICMP (R59, R60; R140). -/
def Rows.icmp : Row :=
  { uniform := false, op := 0x20, fn := 9, layout := .r, d := .pred, a := .vecTyped, b := .vecTyped, c := .code 5, types := some [0, 1, 2, 3],
    build := Row.mkR .icmp }

/-- SEL (R59, R60; R140). -/
def Rows.sel : Row :=
  { uniform := false, op := 0x20, fn := 10, layout := .r, d := .vec, a := .vec, b := .vec, c := .pred,
    build := Row.mkR .sel }

/-- AND (R59, R60; R142). -/
def Rows.and : Row :=
  { uniform := false, op := 0x21, fn := 0, layout := .r, d := .vec, a := .vec, b := .vec,
    build := Row.mkR .and }

/-- OR (R59, R60; R142). -/
def Rows.or : Row :=
  { uniform := false, op := 0x21, fn := 1, layout := .r, d := .vec, a := .vec, b := .vec,
    build := Row.mkR .or }

/-- XOR (R59, R60; R142). -/
def Rows.xor : Row :=
  { uniform := false, op := 0x21, fn := 2, layout := .r, d := .vec, a := .vec, b := .vec,
    build := Row.mkR .xor }

/-- ANDN (R59, R60; R142). -/
def Rows.andn : Row :=
  { uniform := false, op := 0x21, fn := 3, layout := .r, d := .vec, a := .vec, b := .vec,
    build := Row.mkR .andn }

/-- NOT (R59, R60; R142). -/
def Rows.not : Row :=
  { uniform := false, op := 0x21, fn := 4, layout := .r, d := .vec, a := .vec,
    build := Row.mkR .not }

/-- SHL (R59, R60; R143). -/
def Rows.shl : Row :=
  { uniform := false, op := 0x21, fn := 5, layout := .r, d := .vecTyped, a := .vecTyped, b := .vec, types := some [0, 1, 2, 3, 4, 5, 6, 7],
    build := Row.mkR .shl }

/-- SHR (R59, R60; R143). -/
def Rows.shr : Row :=
  { uniform := false, op := 0x21, fn := 6, layout := .r, d := .vecTyped, a := .vecTyped, b := .vec, types := some [0, 1, 2, 3, 4, 5, 6, 7],
    build := Row.mkR .shr }

/-- SAR (R59, R60; R143). -/
def Rows.sar : Row :=
  { uniform := false, op := 0x21, fn := 7, layout := .r, d := .vecTyped, a := .vecTyped, b := .vec, types := some [0, 1, 2, 3, 4, 5, 6, 7],
    build := Row.mkR .sar }

/-- ROT (R59, R60; R143). -/
def Rows.rot : Row :=
  { uniform := false, op := 0x21, fn := 8, layout := .r, d := .vecTyped, a := .vecTyped, b := .vec, types := some [0, 1, 2, 3, 4, 5, 6, 7],
    build := Row.mkR .rot }

/-- POPC (R59, R60; R142). -/
def Rows.popc : Row :=
  { uniform := false, op := 0x21, fn := 9, layout := .r, d := .vec, a := .vecTyped, types := some [0, 1, 2, 3, 4, 5, 6, 7],
    build := Row.mkR .popc }

/-- CLZ (R59, R60; R142). -/
def Rows.clz : Row :=
  { uniform := false, op := 0x21, fn := 10, layout := .r, d := .vec, a := .vecTyped, types := some [0, 1, 2, 3, 4, 5, 6, 7],
    build := Row.mkR .clz }

/-- BREV (R59, R60; R142). -/
def Rows.brev : Row :=
  { uniform := false, op := 0x21, fn := 11, layout := .r, d := .vecTyped, a := .vecTyped, types := some [0, 1, 2, 3, 4, 5, 6, 7],
    build := Row.mkR .brev }

/-- BFX (R59, R60; R143). -/
def Rows.bfx : Row :=
  { uniform := false, op := 0x21, fn := 12, layout := .r, d := .vecTyped, a := .vecTyped, c := .vec, types := some [0, 1, 2, 3], flag := true,
    build := Row.mkR .bfx }

/-- BFI (R59, R60; R143). -/
def Rows.bfi : Row :=
  { uniform := false, op := 0x21, fn := 13, layout := .r, d := .vecTyped, a := .vecTyped, b := .vecTyped, c := .vec, types := some [0, 1, 2, 3],
    build := Row.mkR .bfi }

/-- FADD (R59, R60; R144). -/
def Rows.fadd : Row :=
  { uniform := false, op := 0x22, fn := 0, layout := .r, d := .vec, a := .vec, b := .vec, c := .code 5, types := some [8, 9, 10, 11, 12],
    build := Row.mkR .fadd }

/-- FSUB (R59, R60; R144). -/
def Rows.fsub : Row :=
  { uniform := false, op := 0x22, fn := 1, layout := .r, d := .vec, a := .vec, b := .vec, c := .code 5, types := some [8, 9, 10, 11, 12],
    build := Row.mkR .fsub }

/-- FMUL (R59, R60; R144). -/
def Rows.fmul : Row :=
  { uniform := false, op := 0x22, fn := 2, layout := .r, d := .vec, a := .vec, b := .vec, c := .code 5, types := some [8, 9, 10, 11, 12],
    build := Row.mkR .fmul }

/-- FFMA (R59, R60; R144). -/
def Rows.ffma : Row :=
  { uniform := false, op := 0x22, fn := 3, layout := .r, d := .vec, a := .vec, b := .vec, c := .vec, types := some [8, 9, 10, 11, 12], flag := true,
    build := Row.mkR .ffma }

/-- FMIN (R59, R60; R144). -/
def Rows.fmin : Row :=
  { uniform := false, op := 0x22, fn := 4, layout := .r, d := .vec, a := .vec, b := .vec, types := some [8, 9, 10, 11, 12],
    build := Row.mkR .fmin }

/-- FMAX (R59, R60; R144). -/
def Rows.fmax : Row :=
  { uniform := false, op := 0x22, fn := 5, layout := .r, d := .vec, a := .vec, b := .vec, types := some [8, 9, 10, 11, 12],
    build := Row.mkR .fmax }

/-- FCMP (R59, R60; R144). -/
def Rows.fcmp : Row :=
  { uniform := false, op := 0x22, fn := 6, layout := .r, d := .pred, a := .vec, b := .vec, c := .code 7, types := some [8, 11, 12],
    build := Row.mkR .fcmp }

/-- FCLASS (R59, R60; R145). -/
def Rows.fclass : Row :=
  { uniform := false, op := 0x22, fn := 7, layout := .r, d := .pred, a := .vec, c := .code 255, types := some [8, 11, 12],
    build := Row.mkR .fclass }

/-- FRCP (R59, R60; R146). -/
def Rows.frcp : Row :=
  { uniform := false, op := 0x23, fn := 0, layout := .r, d := .vec, a := .vec, types := some [8, 11, 12],
    build := Row.mkR .frcp }

/-- FRSQ (R59, R60; R146). -/
def Rows.frsq : Row :=
  { uniform := false, op := 0x23, fn := 1, layout := .r, d := .vec, a := .vec, types := some [8, 11, 12],
    build := Row.mkR .frsq }

/-- FSQRT (R59, R60; R146). -/
def Rows.fsqrt : Row :=
  { uniform := false, op := 0x23, fn := 2, layout := .r, d := .vec, a := .vec, types := some [8, 11, 12],
    build := Row.mkR .fsqrt }

/-- FEXP2 (R59, R60; R146). -/
def Rows.fexp2 : Row :=
  { uniform := false, op := 0x23, fn := 3, layout := .r, d := .vec, a := .vec, types := some [8, 11, 12],
    build := Row.mkR .fexp2 }

/-- FLOG2 (R59, R60; R146). -/
def Rows.flog2 : Row :=
  { uniform := false, op := 0x23, fn := 4, layout := .r, d := .vec, a := .vec, types := some [8, 11, 12],
    build := Row.mkR .flog2 }

/-- FSIN (R59, R60; R146). -/
def Rows.fsin : Row :=
  { uniform := false, op := 0x23, fn := 5, layout := .r, d := .vec, a := .vec, types := some [8, 11, 12],
    build := Row.mkR .fsin }

/-- FCOS (R59, R60; R146). -/
def Rows.fcos : Row :=
  { uniform := false, op := 0x23, fn := 6, layout := .r, d := .vec, a := .vec, types := some [8, 11, 12],
    build := Row.mkR .fcos }

/-- FDIV (R59, R60; R146). -/
def Rows.fdiv : Row :=
  { uniform := false, op := 0x23, fn := 7, layout := .r, d := .vec, a := .vec, b := .vec, c := .code 5, types := some [8, 11, 12],
    build := Row.mkR .fdiv }

/-- DOT4 (R59, R60; R148). -/
def Rows.dot4 : Row :=
  { uniform := false, op := 0x24, fn := 0, layout := .r, d := .vec, a := .vec, b := .vec, c := .vec, types := some [0, 6, 7], flag := true,
    build := Row.mkR .dot4 }

/-- DOT8 (R59, R60; R148). -/
def Rows.dot8 : Row :=
  { uniform := false, op := 0x24, fn := 1, layout := .r, d := .vec, a := .vec, b := .vec, c := .vec, types := some [0, 16, 17], flag := true,
    build := Row.mkR .dot8 }

/-- DOT2 (R59, R60; R148). -/
def Rows.dot2 : Row :=
  { uniform := false, op := 0x24, fn := 2, layout := .r, d := .vec, a := .vec, b := .vec, c := .vec, types := some [8, 10],
    build := Row.mkR .dot2 }

/-- FSCL (R59, R60; R148). -/
def Rows.fscl : Row :=
  { uniform := false, op := 0x24, fn := 3, layout := .r, d := .vec, a := .vec, b := .vec, types := some [0, 8],
    build := Row.mkR .fscl }

/-- CVT (R59, R60; R84). -/
def Rows.cvt : Row :=
  { uniform := false, op := 0x25, fn := 0, layout := .r, d := .vec, a := .vec, c := .code 255, types := some [0, 1, 2, 3, 4, 5, 6, 7, 8, 9, 10, 11, 12, 13, 14, 15, 16, 17, 18], flag := true, extra := cvtOk,
    build := Row.mkR .cvt }

/-- CVTP (R59, R60; R84). -/
def Rows.cvtp : Row :=
  { uniform := false, op := 0x25, fn := 1, layout := .r, d := .vec, a := .vec, c := .code 255, types := some [0, 1, 2, 3, 4, 5, 6, 7, 8, 9, 10, 11, 12, 13, 14, 15, 16, 17, 18], flag := true, extra := cvtpOk,
    build := Row.mkR .cvtp }

/-- CVTX (R59, R60; R84). -/
def Rows.cvtx : Row :=
  { uniform := false, op := 0x25, fn := 2, layout := .r, d := .vec, a := .vec, b := .vec, c := .code 255, types := some [0, 1, 2, 3, 4, 5, 6, 7, 8, 9, 10, 11, 12, 13, 14, 15, 16, 17, 18], flag := true, extra := cvtxOk,
    build := Row.mkR .cvtx }

/-- MOVI (R59, R60; R149). -/
def Rows.movi : Row :=
  { uniform := false, op := 0x26, fn := 0, layout := .i16, d := .vec, signed := true,
    build := Row.mkI .movi }

/-- MOVH (R59, R60; R149); its IMM16 counts as zero-extended (notes/assumptions/10). -/
def Rows.movh : Row :=
  { uniform := false, op := 0x26, fn := 1, layout := .i16, d := .vec, signed := false,
    build := Row.mkI .movh }

/-- BCAST (R59, R60; R151). -/
def Rows.bcast : Row :=
  { uniform := false, op := 0x26, fn := 2, layout := .r, d := .vec, a := .vec, b := .uni,
    build := Row.mkR .bcast }

/-- SHFL (R59, R60; R151). -/
def Rows.shfl : Row :=
  { uniform := false, op := 0x26, fn := 3, layout := .r, d := .vec, a := .vec, b := .vec, c := .code 3,
    build := Row.mkR .shfl }

/-- VOTE (R59, R60; R152). -/
def Rows.vote : Row :=
  { uniform := false, op := 0x26, fn := 4, layout := .r, d := .pred, a := .pred, c := .code 2,
    build := Row.mkR .vote }

/-- BALLOT (R59, R60; R152). -/
def Rows.ballot : Row :=
  { uniform := false, op := 0x26, fn := 5, layout := .r, d := .vec, a := .pred,
    build := Row.mkR .ballot }

/-- REDUX (R59, R60; R153). -/
def Rows.redux : Row :=
  { uniform := false, op := 0x26, fn := 6, layout := .r, d := .vecTyped, a := .vecTyped, c := .code 5, types := some [0, 1, 2, 3, 8], extra := reduxOk,
    build := Row.mkR .redux }

/-- SCAN (R59, R60; R153). -/
def Rows.scan : Row :=
  { uniform := false, op := 0x26, fn := 7, layout := .r, d := .vecTyped, a := .vecTyped, c := .code 5, types := some [0, 1, 2, 3, 8], flag := true, extra := reduxOk,
    build := Row.mkR .scan }

/-- XSET (R59, R60; R136). -/
def Rows.xset : Row :=
  { uniform := false, op := 0x27, fn := 0, layout := .r, d := .xreg, a := .vec,
    build := Row.mkR .xset }

/-- XADD (R59, R60; R136). -/
def Rows.xadd : Row :=
  { uniform := false, op := 0x27, fn := 1, layout := .i16, d := .xreg, signed := true,
    build := Row.mkI .xadd }

/-- MOVX (R59, R60; R136). -/
def Rows.movx : Row :=
  { uniform := false, op := 0x27, fn := 2, layout := .i16, d := .vec, a := .xreg, signed := true,
    build := Row.mkI .movx }

/-- STX (R59, R60; R136). -/
def Rows.stx : Row :=
  { uniform := false, op := 0x27, fn := 3, layout := .i16, d := .xreg, a := .vec, signed := true,
    build := Row.mkI .stx }

/-- PLOP (R59, R60; R138). -/
def Rows.plop : Row :=
  { uniform := false, op := 0x28, fn := 0, layout := .r, d := .pred, a := .pred, b := .pred, c := .code 15,
    build := Row.mkR .plop }

/-- PMOV (R59, R60; R138). -/
def Rows.pmov : Row :=
  { uniform := false, op := 0x28, fn := 1, layout := .r, d := .special, a := .special, c := .code 1, extra := pmovOk, fix := pmovFix,
    build := Row.mkR .pmov }

/-- LD (R59, R60; R226). -/
def Rows.ld : Row :=
  { uniform := false, op := 0x29, fn := 0, layout := .m, d := .vecRun,
    sizes := [0, 1, 2, 3, 4, 5, 6], orders := [0, 1, 2],
    build := Row.mkM .ld }

/-- ST (R59, R60; R226). -/
def Rows.st : Row :=
  { uniform := false, op := 0x29, fn := 1, layout := .m, d := .vecRun,
    sizes := [0, 1, 2, 3, 4, 5, 6], orders := [0, 1, 2],
    build := Row.mkM .st }

/-- PREF (R59, R60; R227). -/
def Rows.pref : Row :=
  { uniform := false, op := 0x29, fn := 2, layout := .m,
    sizes := [0, 1, 2, 3, 4, 5, 6], orders := [0, 1],
    build := Row.mkM .pref }

/-- ROWLD (R59, R60; R251). -/
def Rows.rowld : Row :=
  { uniform := false, op := 0x29, fn := 3, layout := .m, d := .vecRun,
    sizes := [2, 3, 4, 5, 6], orders := [1],
    build := Row.mkM .rowld }

/-- LDS (R59, R60; R198). -/
def Rows.lds : Row :=
  { uniform := false, op := 0x2A, fn := 0, layout := .m, d := .vecRun,
    sizes := [0, 1, 2, 3, 4, 5, 6], orders := [0, 1],
    build := Row.mkM .lds }

/-- STS (R59, R60; R198). -/
def Rows.sts : Row :=
  { uniform := false, op := 0x2A, fn := 1, layout := .m, d := .vecRun,
    sizes := [0, 1, 2, 3, 4, 5, 6], orders := [0, 1],
    build := Row.mkM .sts }

/-- ATOMS (R59, R60; R200). -/
def Rows.atoms : Row :=
  { uniform := false, op := 0x2A, fn := 2, layout := .r, d := .vecTyped, a := .mem, b := .idx, c := .code 8, types := some [0, 1, 2, 3, 8, 9, 10], flag := true, orders := [0], extra := atomOk,
    build := Row.mkR .atoms }

/-- PRESENT (R59, R60; R201). -/
def Rows.present : Row :=
  { uniform := false, op := 0x2A, fn := 3, layout := .m, d := .pred,
    sizes := [0, 1, 2, 3, 4, 5, 6], orders := [0],
    build := Row.mkM .present }

/-- ATOM (R59, R60; R243). -/
def Rows.atom : Row :=
  { uniform := false, op := 0x2B, fn := 0, layout := .r, d := .vecTyped, a := .mem, b := .idx, c := .code 8, types := some [0, 1, 2, 3, 8, 9, 10], flag := true, orders := [0], extra := atomOk,
    build := Row.mkR .atom }

/-- CAS (R59, R60; R243). -/
def Rows.cas : Row :=
  { uniform := false, op := 0x2B, fn := 1, layout := .r, d := .vecTyped, a := .mem, b := .idx, c := .vecTyped, types := some [0, 1, 2, 3], orders := [0],
    build := Row.mkR .cas }

/-- PADD2 (R59, R60; R245). -/
def Rows.padd2 : Row :=
  { uniform := false, op := 0x2B, fn := 2, layout := .r, d := .vec, a := .mem, b := .idx, types := some [9, 10], orders := [0],
    build := Row.mkR .padd2 }

/-- ROWADD (R59, R60; R250). -/
def Rows.rowadd : Row :=
  { uniform := false, op := 0x2B, fn := 3, layout := .r, d := .vec, a := .mem, b := .idx, c := .code 6, types := some [8, 12], orders := [0], extra := rowaddOk,
    build := Row.mkR .rowadd }

/-- ENQ (R59, R60; R255). -/
def Rows.enq : Row :=
  { uniform := false, op := 0x2C, fn := 0, layout := .i16, a := .vec, signed := false, extra := queueOk,
    build := Row.mkI .enq }

/-- DEQ (R59, R60; R255). -/
def Rows.deq : Row :=
  { uniform := false, op := 0x2C, fn := 1, layout := .i16, d := .vec, signed := false, mod4 := true, extra := queueOk, fix := deqFix,
    build := Row.mkI .deq }

/-- QTRY (R59, R60; R255). -/
def Rows.qtry : Row :=
  { uniform := false, op := 0x2C, fn := 2, layout := .i16, d := .vec, signed := false, mod4 := true, extra := queueOk, fix := deqFix,
    build := Row.mkI .qtry }

/-- QLEN (R59, R60; R255). -/
def Rows.qlen : Row :=
  { uniform := false, op := 0x2C, fn := 3, layout := .i16, d := .vec, signed := false, extra := queueOk,
    build := Row.mkI .qlen }

/-- QOPEN (R59, R60; R256). -/
def Rows.qopen : Row :=
  { uniform := false, op := 0x2C, fn := 4, layout := .i16, signed := false, extra := queueOk,
    build := Row.mkI .qopen }

/-- QDONE (R59, R60; R256). -/
def Rows.qdone : Row :=
  { uniform := false, op := 0x2C, fn := 5, layout := .i16, signed := false, extra := queueOk,
    build := Row.mkI .qdone }

/-- BRX (R59, R60; R112). -/
def Rows.brx : Row :=
  { uniform := false, op := 0x2D, fn := 0, layout := .i16, signed := true,
    build := Row.mkI .brx }

/-- CALLQ (R59, R60; R119). -/
def Rows.callq : Row :=
  { uniform := false, op := 0x2D, fn := 1, layout := .r, a := .vecPair,
    build := Row.mkR .callq }

/-- RET (R59, R60; R117). -/
def Rows.ret : Row :=
  { uniform := false, op := 0x2D, fn := 2, layout := .r,
    build := Row.mkR .ret }

/-- JOIN (R59, R60; R114). -/
def Rows.join : Row :=
  { uniform := false, op := 0x2D, fn := 3, layout := .r, d := .join,
    build := Row.mkR .join }

/-- WAITJ (R59, R60; R114). -/
def Rows.waitj : Row :=
  { uniform := false, op := 0x2D, fn := 4, layout := .r, d := .join,
    build := Row.mkR .waitj }

/-- EXIT (R59, R60; R102). -/
def Rows.exit : Row :=
  { uniform := false, op := 0x2D, fn := 5, layout := .r,
    build := Row.mkR .exit }

/-- REFORM (R59, R60; R97). -/
def Rows.reform : Row :=
  { uniform := false, op := 0x2D, fn := 6, layout := .r,
    build := Row.mkR .reform }

/-- REORDER (R59, R60; R98). -/
def Rows.reorder : Row :=
  { uniform := false, op := 0x2D, fn := 7, layout := .r, a := .vec, b := .special, unpredicated := true, extra := reorderOk,
    build := Row.mkR .reorder }

/-- SPAWN (R59, R60; R99). -/
def Rows.spawn : Row :=
  { uniform := false, op := 0x2D, fn := 8, layout := .r, a := .vecPair,
    build := Row.mkR .spawn }

/-- MIGRATE (R59, R60; R108). -/
def Rows.migrate : Row :=
  { uniform := false, op := 0x2D, fn := 9, layout := .r, c := .code 1, unpredicated := true,
    build := Row.mkR .migrate }

/-- EQPT (R59, R60; R107). -/
def Rows.eqpt : Row :=
  { uniform := false, op := 0x2D, fn := 10, layout := .i16, unpredicated := true, signed := false,
    build := Row.mkI .eqpt }

/-- REGION (R59, R60; R287). -/
def Rows.region : Row :=
  { uniform := false, op := 0x2D, fn := 11, layout := .r, unpredicated := true,
    build := Row.mkR .region }

/-- MELD (R59, R60; R124). -/
def Rows.meld : Row :=
  { uniform := false, op := 0x2D, fn := 12, layout := .r, a := .special, flag := true, unpredicated := true, extra := meldOk,
    build := Row.mkR .meld }

/-- ENDMELD (R59, R60; R124). -/
def Rows.endmeld : Row :=
  { uniform := false, op := 0x2D, fn := 13, layout := .r, unpredicated := true,
    build := Row.mkR .endmeld }

/-- MTBL (R59, R60; R123). -/
def Rows.mtbl : Row :=
  { uniform := false, op := 0x2D, fn := 14, layout := .r, a := .special, c := .code 1, unpredicated := true, extra := mtblOk,
    build := Row.mkR .mtbl }

/-- MMA (R59, R60; R179). -/
def Rows.mma : Row :=
  { uniform := false, op := 0x2E, fn := 0, layout := .r, d := .tile, a := .vec, b := .special, types := some [6, 7, 11, 12, 13, 14, 15, 16, 17], extra := bSrcOk true,
    build := Row.mkR .mma }

/-- MMAQ (R59, R60; R180). -/
def Rows.mmaq : Row :=
  { uniform := false, op := 0x2E, fn := 1, layout := .r, d := .tile, a := .vec, b := .special, types := some [6, 7, 11, 12, 13, 14, 15, 16, 17], extra := bSrcOk true,
    build := Row.mkR .mmaq }

/-- MMAO (R59, R60; R182). -/
def Rows.mmao : Row :=
  { uniform := false, op := 0x2E, fn := 2, layout := .r, d := .tile, a := .vec, b := .special, c := .uniPair, types := some [13, 14, 15], extra := bSrcOk true,
    build := Row.mkR .mmao }

/-- MMAS (R59, R60; R181). -/
def Rows.mmas : Row :=
  { uniform := false, op := 0x2E, fn := 3, layout := .r, d := .tile, a := .vec, b := .special, c := .vec, types := some [13, 14, 15], extra := bSrcOk false,
    build := Row.mkR .mmas }

/-- TSLR (R59, R60; R186). -/
def Rows.tslr : Row :=
  { uniform := false, op := 0x2E, fn := 4, layout := .r, d := .vec, a := .tile, b := .uidx, c := .uni, flag := true,
    build := Row.mkR .tslr }

/-- TSLW (R59, R60; R186). -/
def Rows.tslw : Row :=
  { uniform := false, op := 0x2E, fn := 5, layout := .r, d := .vec, a := .tile, b := .uidx, c := .uni, flag := true,
    build := Row.mkR .tslw }

/-- BSHARE (R59, R60; R184). -/
def Rows.bshare : Row :=
  { uniform := false, op := 0x2E, fn := 6, layout := .r, d := .code 15, a := .special, c := .code 4, unpredicated := true, extra := bshareOk, fix := bshareFix,
    build := Row.mkR .bshare }

/-- CPY (R59, R60; R204). -/
def Rows.cpy : Row :=
  { uniform := false, op := 0x2F, fn := 0, layout := .r, d := .vec, a := .code 255, b := .pairIdx, c := .uniMul 16,
    build := Row.mkR .cpy }

/-- CPYM (R59, R60; R208). -/
def Rows.cpym : Row :=
  { uniform := false, op := 0x2F, fn := 1, layout := .r, d := .vec, a := .code 255, b := .pairIdx, c := .uniMul 16,
    build := Row.mkR .cpym }

/-- CPYP (R59, R60; R208). -/
def Rows.cpyp : Row :=
  { uniform := false, op := 0x2F, fn := 2, layout := .r, d := .vec, a := .code 255, b := .pairIdx, c := .uniMul 16,
    build := Row.mkR .cpyp }

/-- INSPECT (R59, R60; R267). -/
def Rows.inspect : Row :=
  { uniform := false, op := 0x2F, fn := 3, layout := .r, a := .special, b := .special, c := .code 255, extra := inspectOk, fix := inspectFix,
    build := Row.mkR .inspect }

/-- INSPECTF (R59, R60; R267). -/
def Rows.inspectf : Row :=
  { uniform := false, op := 0x2F, fn := 4, layout := .r, d := .vec, a := .special, b := .special, c := .code 255, extra := inspectOk, fix := inspectFix,
    build := Row.mkR .inspectf }

/-- FTEST (R59, R60; R215). -/
def Rows.ftest : Row :=
  { uniform := false, op := 0x2F, fn := 5, layout := .r, d := .pred, a := .vec,
    build := Row.mkR .ftest }

/-- FWAIT (R59, R60; R215). -/
def Rows.fwait : Row :=
  { uniform := false, op := 0x2F, fn := 6, layout := .r, a := .vec,
    build := Row.mkR .fwait }

/-- FCANCEL (R59, R60; R215). -/
def Rows.fcancel : Row :=
  { uniform := false, op := 0x2F, fn := 7, layout := .r, a := .vec,
    build := Row.mkR .fcancel }

/-- FPASS (R59, R60; R215). -/
def Rows.fpass : Row :=
  { uniform := false, op := 0x2F, fn := 8, layout := .r, d := .vec, a := .vec,
    build := Row.mkR .fpass }

/-- NOP (R59, R60; R133). -/
def Rows.nop : Row :=
  { uniform := false, op := 0x30, fn := 0, layout := .r,
    build := Row.mkR .nop }

/-- WAIT (R59, R60; R133); its IMM16 counts as zero-extended (notes/assumptions/102). -/
def Rows.wait : Row :=
  { uniform := false, op := 0x30, fn := 1, layout := .i16, signed := false,
    build := Row.mkI .wait }

/-- YIELD (R59, R60; R133). -/
def Rows.yield : Row :=
  { uniform := false, op := 0x30, fn := 2, layout := .r,
    build := Row.mkR .yield }

/-- TRAP (R59, R60; R294). -/
def Rows.trap : Row :=
  { uniform := false, op := 0x30, fn := 3, layout := .i16, signed := false,
    build := Row.mkI .trap }

/-- BKPT (R59, R60; R294); its IMM16 counts as zero-extended (notes/assumptions/102). -/
def Rows.bkpt : Row :=
  { uniform := false, op := 0x30, fn := 4, layout := .i16, signed := false,
    build := Row.mkI .bkpt }

/-- RTE (R59, R60; R293). -/
def Rows.rte : Row :=
  { uniform := false, op := 0x30, fn := 5, layout := .r, unpredicated := true,
    build := Row.mkR .rte }

/-- PEN (R59, R60; R293). -/
def Rows.pen : Row :=
  { uniform := false, op := 0x30, fn := 6, layout := .r, d := .vec,
    build := Row.mkR .pen }

/-- UADD (R59, R60; R159). -/
def Rows.uadd : Row :=
  { uniform := true, op := 0x20, fn := 0, layout := .r, d := .uniTyped, a := .uniTyped, b := .uniTyped, types := some [0, 1, 2, 3], flag := true,
    build := Row.mkR .uadd }

/-- USUB (R59, R60; R159). -/
def Rows.usub : Row :=
  { uniform := true, op := 0x20, fn := 1, layout := .r, d := .uniTyped, a := .uniTyped, b := .uniTyped, types := some [0, 1, 2, 3], flag := true,
    build := Row.mkR .usub }

/-- UMUL (R59, R60; R159). -/
def Rows.umul : Row :=
  { uniform := true, op := 0x20, fn := 2, layout := .r, d := .uniTyped, a := .uniTyped, b := .uniTyped, types := some [0, 1, 2, 3], flag := true,
    build := Row.mkR .umul }

/-- UMULH (R59, R60; R159). -/
def Rows.umulh : Row :=
  { uniform := true, op := 0x20, fn := 3, layout := .r, d := .uniTyped, a := .uniTyped, b := .uniTyped, types := some [0, 1, 2, 3],
    build := Row.mkR .umulh }

/-- UMAD (R59, R60; R159). -/
def Rows.umad : Row :=
  { uniform := true, op := 0x20, fn := 4, layout := .r, d := .uniTyped, a := .uniTyped, b := .uniTyped, c := .uniTyped, types := some [0, 1, 2, 3], flag := true,
    build := Row.mkR .umad }

/-- UMIN (R59, R60; R159). -/
def Rows.umin : Row :=
  { uniform := true, op := 0x20, fn := 5, layout := .r, d := .uniTyped, a := .uniTyped, b := .uniTyped, types := some [0, 1, 2, 3],
    build := Row.mkR .umin }

/-- UMAX (R59, R60; R159). -/
def Rows.umax : Row :=
  { uniform := true, op := 0x20, fn := 6, layout := .r, d := .uniTyped, a := .uniTyped, b := .uniTyped, types := some [0, 1, 2, 3],
    build := Row.mkR .umax }

/-- UCMP (R59, R60; R159). -/
def Rows.ucmp : Row :=
  { uniform := true, op := 0x20, fn := 7, layout := .r, d := .upred, a := .uniTyped, b := .uniTyped, c := .code 5, types := some [0, 1, 2, 3],
    build := Row.mkR .ucmp }

/-- USEL (R59, R60; R158). -/
def Rows.usel : Row :=
  { uniform := true, op := 0x20, fn := 8, layout := .r, d := .uni, a := .uni, b := .uni, c := .upred,
    build := Row.mkR .usel }

/-- UAND (R59, R60; R158). -/
def Rows.uand : Row :=
  { uniform := true, op := 0x21, fn := 0, layout := .r, d := .uni, a := .uni, b := .uni,
    build := Row.mkR .uand }

/-- UOR (R59, R60; R158). -/
def Rows.uor : Row :=
  { uniform := true, op := 0x21, fn := 1, layout := .r, d := .uni, a := .uni, b := .uni,
    build := Row.mkR .uor }

/-- UXOR (R59, R60; R158). -/
def Rows.uxor : Row :=
  { uniform := true, op := 0x21, fn := 2, layout := .r, d := .uni, a := .uni, b := .uni,
    build := Row.mkR .uxor }

/-- UNOT (R59, R60; R158). -/
def Rows.unot : Row :=
  { uniform := true, op := 0x21, fn := 3, layout := .r, d := .uni, a := .uni,
    build := Row.mkR .unot }

/-- USHL (R59, R60; R159). -/
def Rows.ushl : Row :=
  { uniform := true, op := 0x21, fn := 4, layout := .r, d := .uniTyped, a := .uniTyped, b := .uni, types := some [0, 1, 2, 3],
    build := Row.mkR .ushl }

/-- USHR (R59, R60; R159). -/
def Rows.ushr : Row :=
  { uniform := true, op := 0x21, fn := 5, layout := .r, d := .uniTyped, a := .uniTyped, b := .uni, types := some [0, 1, 2, 3],
    build := Row.mkR .ushr }

/-- USAR (R59, R60; R159). -/
def Rows.usar : Row :=
  { uniform := true, op := 0x21, fn := 6, layout := .r, d := .uniTyped, a := .uniTyped, b := .uni, types := some [0, 1, 2, 3],
    build := Row.mkR .usar }

/-- UPOPC (R59, R60; R159). -/
def Rows.upopc : Row :=
  { uniform := true, op := 0x21, fn := 7, layout := .r, d := .uni, a := .uniTyped, types := some [0, 1, 2, 3],
    build := Row.mkR .upopc }

/-- UCLZ (R59, R60; R159). -/
def Rows.uclz : Row :=
  { uniform := true, op := 0x21, fn := 8, layout := .r, d := .uni, a := .uniTyped, types := some [0, 1, 2, 3],
    build := Row.mkR .uclz }

/-- UMOVI (R59, R60; R160). -/
def Rows.umovi : Row :=
  { uniform := true, op := 0x22, fn := 0, layout := .i16, d := .uni, signed := true,
    build := Row.mkI .umovi }

/-- UMOVH (R59, R60; R160); its IMM16 counts as zero-extended (notes/assumptions/10). -/
def Rows.umovh : Row :=
  { uniform := true, op := 0x22, fn := 1, layout := .i16, d := .uni, signed := false,
    build := Row.mkI .umovh }

/-- URSR (R59, R60; R162). -/
def Rows.ursr : Row :=
  { uniform := true, op := 0x22, fn := 2, layout := .i16, d := .special, signed := false, extra := ursrOk,
    build := Row.mkI .ursr }

/-- UWSR (R59, R60; R162). -/
def Rows.uwsr : Row :=
  { uniform := true, op := 0x22, fn := 3, layout := .i16, a := .uni, signed := false, extra := uwsrOk,
    build := Row.mkI .uwsr }

/-- UPLOP (R59, R60; R160). -/
def Rows.uplop : Row :=
  { uniform := true, op := 0x22, fn := 4, layout := .r, d := .upred, a := .upred, b := .upred, c := .code 15,
    build := Row.mkR .uplop }

/-- UREAD (R59, R60; R161). -/
def Rows.uread : Row :=
  { uniform := true, op := 0x22, fn := 5, layout := .r, d := .uni, a := .vec, b := .uni,
    build := Row.mkR .uread }

/-- ASET (R59, R60; R169). -/
def Rows.aset : Row :=
  { uniform := true, op := 0x23, fn := 0, layout := .r, d := .addr, a := .uniPair, c := .code 3,
    build := Row.mkR .aset }

/-- AGET (R59, R60; R169). -/
def Rows.aget : Row :=
  { uniform := true, op := 0x23, fn := 1, layout := .r, d := .uniPair, a := .addr, c := .code 3,
    build := Row.mkR .aget }

/-- ADV (R59, R60; R169). -/
def Rows.adv : Row :=
  { uniform := true, op := 0x23, fn := 2, layout := .r, d := .addr, a := .uni,
    build := Row.mkR .adv }

/-- ANARROW (R59, R60; R170). -/
def Rows.anarrow : Row :=
  { uniform := true, op := 0x23, fn := 3, layout := .r, d := .addr, a := .uniPair, c := .code 4, extra := anarrowOk,
    build := Row.mkR .anarrow }

/-- ALD (R59, R60; R171). -/
def Rows.ald : Row :=
  { uniform := true, op := 0x23, fn := 4, layout := .m, d := .addr,
    sizes := [5], orders := [0, 1],
    build := Row.mkM .ald }

/-- LDU (R59, R60; R226). -/
def Rows.ldu : Row :=
  { uniform := true, op := 0x24, fn := 0, layout := .m, d := .uniRun,
    sizes := [0, 1, 2, 3, 4, 5, 6], orders := [0, 1, 2],
    build := Row.mkM .ldu }

/-- STU (R59, R60; R226). -/
def Rows.stu : Row :=
  { uniform := true, op := 0x24, fn := 1, layout := .m, d := .uniRun,
    sizes := [0, 1, 2, 3, 4, 5, 6], orders := [0, 1, 2],
    build := Row.mkM .stu }

/-- ICINV (R59, R60; R238). -/
def Rows.icinv : Row :=
  { uniform := true, op := 0x24, fn := 2, layout := .r, a := .addr, b := .uni,
    build := Row.mkR .icinv }

/-- FBAR (R59, R60; R238). -/
def Rows.fbar : Row :=
  { uniform := true, op := 0x24, fn := 3, layout := .r,
    build := Row.mkR .fbar }

/-- PIN (R59, R60; R236). -/
def Rows.pin : Row :=
  { uniform := true, op := 0x24, fn := 4, layout := .r, a := .addr, b := .uni,
    build := Row.mkR .pin }

/-- UNPIN (R59, R60; R236). -/
def Rows.unpin : Row :=
  { uniform := true, op := 0x24, fn := 5, layout := .r, a := .addr, b := .uni,
    build := Row.mkR .unpin }

/-- ODECL (R59, R60; R235). -/
def Rows.odecl : Row :=
  { uniform := true, op := 0x25, fn := 0, layout := .m, d := .uniPair,
    sizes := [6], orders := [0, 1],
    build := Row.mkM .odecl }

/-- OFREE (R59, R60; R235). -/
def Rows.ofree : Row :=
  { uniform := true, op := 0x25, fn := 1, layout := .r, a := .uni,
    build := Row.mkR .ofree }

/-- SEAL (R59, R60; R235). -/
def Rows.seal : Row :=
  { uniform := true, op := 0x25, fn := 2, layout := .r, a := .uni,
    build := Row.mkR .seal }

/-- UNSEAL (R59, R60; R235). -/
def Rows.unseal : Row :=
  { uniform := true, op := 0x25, fn := 3, layout := .r, a := .uni,
    build := Row.mkR .unseal }

/-- OQUERY (R59, R60; R235). -/
def Rows.oquery : Row :=
  { uniform := true, op := 0x25, fn := 4, layout := .r, d := .uniMul 8, a := .uni,
    build := Row.mkR .oquery }

/-- BRA (R59, R60; R112). -/
def Rows.bra : Row :=
  { uniform := true, op := 0x26, fn := 0, layout := .i24, d := .special, extra := braOk, fix := braFix,
    build := Row.mkL .bra }

/-- JMPI (R59, R60; R112). -/
def Rows.jmpi : Row :=
  { uniform := true, op := 0x26, fn := 1, layout := .r, a := .uniPair,
    build := Row.mkR .jmpi }

/-- CALL (R59, R60; R117). -/
def Rows.call : Row :=
  { uniform := true, op := 0x26, fn := 2, layout := .i24,
    build := Row.mkL .call }

/-- USPAWN (R59, R60; R99). -/
def Rows.uspawn : Row :=
  { uniform := true, op := 0x26, fn := 3, layout := .r, a := .uniPair,
    build := Row.mkR .uspawn }

/-- GRIDWAIT (R59, R60; R100). -/
def Rows.gridwait : Row :=
  { uniform := true, op := 0x26, fn := 4, layout := .r,
    build := Row.mkR .gridwait }

/-- TLD (R59, R60; R187). -/
def Rows.tld : Row :=
  { uniform := true, op := 0x27, fn := 0, layout := .m, d := .tile,
    sizes := [0, 1, 2], orders := [0, 1],
    build := Row.mkM .tld }

/-- TST (R59, R60; R187). -/
def Rows.tst : Row :=
  { uniform := true, op := 0x27, fn := 1, layout := .m, d := .tile,
    sizes := [0, 1, 2], orders := [0, 1, 2],
    build := Row.mkM .tst }

/-- TZERO (R59, R60; R188). -/
def Rows.tzero : Row :=
  { uniform := true, op := 0x27, fn := 2, layout := .r, d := .tile,
    build := Row.mkR .tzero }

/-- TMOV (R59, R60; R188). -/
def Rows.tmov : Row :=
  { uniform := true, op := 0x27, fn := 3, layout := .r, d := .tile, a := .tile,
    build := Row.mkR .tmov }

/-- TCVT (R59, R60; R188). -/
def Rows.tcvt : Row :=
  { uniform := true, op := 0x27, fn := 4, layout := .r, d := .tile, a := .tile, c := .code 5, types := some [11, 12, 13, 14],
    build := Row.mkR .tcvt }

/-- TALLOC (R59, R60; R189). -/
def Rows.talloc : Row :=
  { uniform := true, op := 0x27, fn := 5, layout := .r, d := .uni, a := .uni,
    build := Row.mkR .talloc }

/-- TFREE (R59, R60; R189). -/
def Rows.tfree : Row :=
  { uniform := true, op := 0x27, fn := 6, layout := .r, a := .uni, b := .uni,
    build := Row.mkR .tfree }

/-- TSTAT (R59, R60; R189). -/
def Rows.tstat : Row :=
  { uniform := true, op := 0x27, fn := 7, layout := .r, d := .uni,
    build := Row.mkR .tstat }

/-- BOINIT (R59, R60; R212). -/
def Rows.boinit : Row :=
  { uniform := true, op := 0x28, fn := 0, layout := .m, d := .uniPair,
    sizes := [5], orders := [0],
    build := Row.mkM .boinit }

/-- BOARRIVE (R59, R60; R212). -/
def Rows.boarrive : Row :=
  { uniform := true, op := 0x28, fn := 1, layout := .m, d := .uni,
    sizes := [5], orders := [0],
    build := Row.mkM .boarrive }

/-- BOEXPECT (R59, R60; R212). -/
def Rows.boexpect : Row :=
  { uniform := true, op := 0x28, fn := 2, layout := .m, d := .uni,
    sizes := [5], orders := [0],
    build := Row.mkM .boexpect }

/-- BOWAIT (R59, R60; R212). -/
def Rows.bowait : Row :=
  { uniform := true, op := 0x28, fn := 3, layout := .m, d := .uni,
    sizes := [5], orders := [0],
    build := Row.mkM .bowait }

/-- BOTEST (R59, R60; R212). -/
def Rows.botest : Row :=
  { uniform := true, op := 0x28, fn := 4, layout := .m, d := .uni,
    sizes := [5], orders := [0],
    build := Row.mkM .botest }

/-- SRSTAT (R59, R60; R259). -/
def Rows.srstat : Row :=
  { uniform := true, op := 0x29, fn := 0, layout := .r, d := .uniPair, a := .uni, c := .code 1,
    build := Row.mkR .srstat }

/-- ISTAT (R59, R60; R275). -/
def Rows.istat : Row :=
  { uniform := true, op := 0x29, fn := 1, layout := .r, d := .uniPair, a := .uni, c := .code 1,
    build := Row.mkR .istat }

/-- CCOUNT (R59, R60; R163). -/
def Rows.ccount : Row :=
  { uniform := true, op := 0x29, fn := 2, layout := .r, d := .uniPair,
    build := Row.mkR .ccount }

/-- TLBINV (R59, R60; R307). -/
def Rows.tlbinv : Row :=
  { uniform := true, op := 0x2A, fn := 0, layout := .r, a := .addr, b := .uni,
    build := Row.mkR .tlbinv }

/-- CSAVE (R59, R60; R296). -/
def Rows.csave : Row :=
  { uniform := true, op := 0x2A, fn := 1, layout := .m, d := .uniPair,
    sizes := [6], orders := [0, 1],
    build := Row.mkM .csave }

/-- CLOAD (R59, R60; R296). -/
def Rows.cload : Row :=
  { uniform := true, op := 0x2A, fn := 2, layout := .m, d := .uniPair,
    sizes := [6], orders := [0, 1],
    build := Row.mkM .cload }

/-- HALT (R59, R60; R299). -/
def Rows.halt : Row :=
  { uniform := true, op := 0x2A, fn := 3, layout := .r, a := .uni,
    build := Row.mkR .halt }

/-- ERRLOG (R59, R60; R306). -/
def Rows.errlog : Row :=
  { uniform := true, op := 0x2A, fn := 4, layout := .r, d := .uniMul 8,
    build := Row.mkR .errlog }

/-- Class IALU (R59, R60). -/
def Rows.clsIalu : List Row :=
  [Rows.iadd, Rows.isub, Rows.imul, Rows.imulh, Rows.imad, Rows.imin, Rows.imax, Rows.iabs, Rows.ineg, Rows.icmp, Rows.sel]

/-- Class BITS (R59, R60). -/
def Rows.clsBits : List Row :=
  [Rows.and, Rows.or, Rows.xor, Rows.andn, Rows.not, Rows.shl, Rows.shr, Rows.sar, Rows.rot, Rows.popc, Rows.clz, Rows.brev, Rows.bfx, Rows.bfi]

/-- Class FALU (R59, R60). -/
def Rows.clsFalu : List Row :=
  [Rows.fadd, Rows.fsub, Rows.fmul, Rows.ffma, Rows.fmin, Rows.fmax, Rows.fcmp, Rows.fclass]

/-- Class FSPEC (R59, R60). -/
def Rows.clsFspec : List Row :=
  [Rows.frcp, Rows.frsq, Rows.fsqrt, Rows.fexp2, Rows.flog2, Rows.fsin, Rows.fcos, Rows.fdiv]

/-- Class DOT (R59, R60). -/
def Rows.clsDot : List Row :=
  [Rows.dot4, Rows.dot8, Rows.dot2, Rows.fscl]

/-- Class CVT (R59, R60). -/
def Rows.clsCvt : List Row :=
  [Rows.cvt, Rows.cvtp, Rows.cvtx]

/-- Class LANE (R59, R60). -/
def Rows.clsLane : List Row :=
  [Rows.movi, Rows.movh, Rows.bcast, Rows.shfl, Rows.vote, Rows.ballot, Rows.redux, Rows.scan]

/-- Class INDEX (R59, R60). -/
def Rows.clsIndex : List Row :=
  [Rows.xset, Rows.xadd, Rows.movx, Rows.stx]

/-- Class PRED (R59, R60). -/
def Rows.clsPred : List Row :=
  [Rows.plop, Rows.pmov]

/-- Class MEM (R59, R60). -/
def Rows.clsMem : List Row :=
  [Rows.ld, Rows.st, Rows.pref, Rows.rowld]

/-- Class SPAD (R59, R60). -/
def Rows.clsSpad : List Row :=
  [Rows.lds, Rows.sts, Rows.atoms, Rows.present]

/-- Class ATOM (R59, R60). -/
def Rows.clsAtom : List Row :=
  [Rows.atom, Rows.cas, Rows.padd2, Rows.rowadd]

/-- Class QUEUE (R59, R60). -/
def Rows.clsQueue : List Row :=
  [Rows.enq, Rows.deq, Rows.qtry, Rows.qlen, Rows.qopen, Rows.qdone]

/-- Class FLOW (R59, R60). -/
def Rows.clsFlow : List Row :=
  [Rows.brx, Rows.callq, Rows.ret, Rows.join, Rows.waitj, Rows.exit, Rows.reform, Rows.reorder, Rows.spawn, Rows.migrate, Rows.eqpt, Rows.region, Rows.meld, Rows.endmeld, Rows.mtbl]

/-- Class TILE (R59, R60). -/
def Rows.clsTile : List Row :=
  [Rows.mma, Rows.mmaq, Rows.mmao, Rows.mmas, Rows.tslr, Rows.tslw, Rows.bshare]

/-- Class ENGINE (R59, R60). -/
def Rows.clsEngine : List Row :=
  [Rows.cpy, Rows.cpym, Rows.cpyp, Rows.inspect, Rows.inspectf, Rows.ftest, Rows.fwait, Rows.fcancel, Rows.fpass]

/-- Class SYS (R59, R60). -/
def Rows.clsSys : List Row :=
  [Rows.nop, Rows.wait, Rows.yield, Rows.trap, Rows.bkpt, Rows.rte, Rows.pen]

/-- Class UALU (R59, R60). -/
def Rows.clsUalu : List Row :=
  [Rows.uadd, Rows.usub, Rows.umul, Rows.umulh, Rows.umad, Rows.umin, Rows.umax, Rows.ucmp, Rows.usel]

/-- Class UBITS (R59, R60). -/
def Rows.clsUbits : List Row :=
  [Rows.uand, Rows.uor, Rows.uxor, Rows.unot, Rows.ushl, Rows.ushr, Rows.usar, Rows.upopc, Rows.uclz]

/-- Class UMOVE (R59, R60). -/
def Rows.clsUmove : List Row :=
  [Rows.umovi, Rows.umovh, Rows.ursr, Rows.uwsr, Rows.uplop, Rows.uread]

/-- Class ADDR (R59, R60). -/
def Rows.clsAddr : List Row :=
  [Rows.aset, Rows.aget, Rows.adv, Rows.anarrow, Rows.ald]

/-- Class UMEM (R59, R60). -/
def Rows.clsUmem : List Row :=
  [Rows.ldu, Rows.stu, Rows.icinv, Rows.fbar, Rows.pin, Rows.unpin]

/-- Class OBJ (R59, R60). -/
def Rows.clsObj : List Row :=
  [Rows.odecl, Rows.ofree, Rows.seal, Rows.unseal, Rows.oquery]

/-- Class UFLOW (R59, R60). -/
def Rows.clsUflow : List Row :=
  [Rows.bra, Rows.jmpi, Rows.call, Rows.uspawn, Rows.gridwait]

/-- Class UTILE (R59, R60). -/
def Rows.clsUtile : List Row :=
  [Rows.tld, Rows.tst, Rows.tzero, Rows.tmov, Rows.tcvt, Rows.talloc, Rows.tfree, Rows.tstat]

/-- Class BAR (R59, R60). -/
def Rows.clsBar : List Row :=
  [Rows.boinit, Rows.boarrive, Rows.boexpect, Rows.bowait, Rows.botest]

/-- Class UENG (R59, R60). -/
def Rows.clsUeng : List Row :=
  [Rows.srstat, Rows.istat, Rows.ccount]

/-- Class PRIV (R59, R60). -/
def Rows.clsPriv : List Row :=
  [Rows.tlbinv, Rows.csave, Rows.cload, Rows.halt, Rows.errlog]

/-- The lane set, class by class (R59). -/
def Rows.lane : List Row :=
  Rows.clsIalu ++ Rows.clsBits ++ Rows.clsFalu ++ Rows.clsFspec ++ Rows.clsDot ++ Rows.clsCvt ++ Rows.clsLane ++ Rows.clsIndex ++ Rows.clsPred ++ Rows.clsMem ++ Rows.clsSpad ++ Rows.clsAtom ++ Rows.clsQueue ++ Rows.clsFlow ++ Rows.clsTile ++ Rows.clsEngine ++ Rows.clsSys

/-- The uniform set, class by class (R60). -/
def Rows.uniform : List Row :=
  Rows.clsUalu ++ Rows.clsUbits ++ Rows.clsUmove ++ Rows.clsAddr ++ Rows.clsUmem ++ Rows.clsObj ++ Rows.clsUflow ++ Rows.clsUtile ++ Rows.clsBar ++ Rows.clsUeng ++ Rows.clsPriv


/-- Every row, in the order of R59 and R60. -/
def Rows.all : List Row := Rows.lane ++ Rows.uniform

/-- The row that a set, a class and a function number name (R59, R60). -/
def Rows.find (uniform : Bool) (op fn : Nat) : Option Row :=
  (if uniform then Rows.uniform else Rows.lane).find? fun r => r.op == op && r.fn == fn

/-- A Sazil instruction's row and fields; none for a compact form and for an event. -/
def Instr.row? : Instr → Option (Row × Fields)
  | .iaddCompact _ => none
  | .isubCompact _ => none
  | .imulCompact _ => none
  | .andCompact _ => none
  | .orCompact _ => none
  | .xorCompact _ => none
  | .shlCompact _ => none
  | .shrCompact _ => none
  | .sarCompact _ => none
  | .iminCompact _ => none
  | .imaxCompact _ => none
  | .faddCompact _ => none
  | .fsubCompact _ => none
  | .fmulCompact _ => none
  | .fminCompact _ => none
  | .fmaxCompact _ => none
  | .movCompact _ => none
  | .ffmaCompact _ => none
  | .imadCompact _ => none
  | .dot4Compact _ => none
  | .dot8Compact _ => none
  | .dot2Compact _ => none
  | .uaddCompact _ => none
  | .usubCompact _ => none
  | .umulCompact _ => none
  | .uandCompact _ => none
  | .uorCompact _ => none
  | .uxorCompact _ => none
  | .ushlCompact _ => none
  | .ushrCompact _ => none
  | .usarCompact _ => none
  | .uminCompact _ => none
  | .umaxCompact _ => none
  | .umovCompact _ => none
  | .umadCompact _ => none
  | .iadd f => some (Rows.iadd, .r f)
  | .isub f => some (Rows.isub, .r f)
  | .imul f => some (Rows.imul, .r f)
  | .imulh f => some (Rows.imulh, .r f)
  | .imad f => some (Rows.imad, .r f)
  | .imin f => some (Rows.imin, .r f)
  | .imax f => some (Rows.imax, .r f)
  | .iabs f => some (Rows.iabs, .r f)
  | .ineg f => some (Rows.ineg, .r f)
  | .icmp f => some (Rows.icmp, .r f)
  | .sel f => some (Rows.sel, .r f)
  | .and f => some (Rows.and, .r f)
  | .or f => some (Rows.or, .r f)
  | .xor f => some (Rows.xor, .r f)
  | .andn f => some (Rows.andn, .r f)
  | .not f => some (Rows.not, .r f)
  | .shl f => some (Rows.shl, .r f)
  | .shr f => some (Rows.shr, .r f)
  | .sar f => some (Rows.sar, .r f)
  | .rot f => some (Rows.rot, .r f)
  | .popc f => some (Rows.popc, .r f)
  | .clz f => some (Rows.clz, .r f)
  | .brev f => some (Rows.brev, .r f)
  | .bfx f => some (Rows.bfx, .r f)
  | .bfi f => some (Rows.bfi, .r f)
  | .fadd f => some (Rows.fadd, .r f)
  | .fsub f => some (Rows.fsub, .r f)
  | .fmul f => some (Rows.fmul, .r f)
  | .ffma f => some (Rows.ffma, .r f)
  | .fmin f => some (Rows.fmin, .r f)
  | .fmax f => some (Rows.fmax, .r f)
  | .fcmp f => some (Rows.fcmp, .r f)
  | .fclass f => some (Rows.fclass, .r f)
  | .frcp f => some (Rows.frcp, .r f)
  | .frsq f => some (Rows.frsq, .r f)
  | .fsqrt f => some (Rows.fsqrt, .r f)
  | .fexp2 f => some (Rows.fexp2, .r f)
  | .flog2 f => some (Rows.flog2, .r f)
  | .fsin f => some (Rows.fsin, .r f)
  | .fcos f => some (Rows.fcos, .r f)
  | .fdiv f => some (Rows.fdiv, .r f)
  | .dot4 f => some (Rows.dot4, .r f)
  | .dot8 f => some (Rows.dot8, .r f)
  | .dot2 f => some (Rows.dot2, .r f)
  | .fscl f => some (Rows.fscl, .r f)
  | .cvt f => some (Rows.cvt, .r f)
  | .cvtp f => some (Rows.cvtp, .r f)
  | .cvtx f => some (Rows.cvtx, .r f)
  | .movi f => some (Rows.movi, .i16 f)
  | .movh f => some (Rows.movh, .i16 f)
  | .bcast f => some (Rows.bcast, .r f)
  | .shfl f => some (Rows.shfl, .r f)
  | .vote f => some (Rows.vote, .r f)
  | .ballot f => some (Rows.ballot, .r f)
  | .redux f => some (Rows.redux, .r f)
  | .scan f => some (Rows.scan, .r f)
  | .xset f => some (Rows.xset, .r f)
  | .xadd f => some (Rows.xadd, .i16 f)
  | .movx f => some (Rows.movx, .i16 f)
  | .stx f => some (Rows.stx, .i16 f)
  | .plop f => some (Rows.plop, .r f)
  | .pmov f => some (Rows.pmov, .r f)
  | .ld f => some (Rows.ld, .m f)
  | .st f => some (Rows.st, .m f)
  | .pref f => some (Rows.pref, .m f)
  | .rowld f => some (Rows.rowld, .m f)
  | .lds f => some (Rows.lds, .m f)
  | .sts f => some (Rows.sts, .m f)
  | .atoms f => some (Rows.atoms, .r f)
  | .present f => some (Rows.present, .m f)
  | .atom f => some (Rows.atom, .r f)
  | .cas f => some (Rows.cas, .r f)
  | .padd2 f => some (Rows.padd2, .r f)
  | .rowadd f => some (Rows.rowadd, .r f)
  | .enq f => some (Rows.enq, .i16 f)
  | .deq f => some (Rows.deq, .i16 f)
  | .qtry f => some (Rows.qtry, .i16 f)
  | .qlen f => some (Rows.qlen, .i16 f)
  | .qopen f => some (Rows.qopen, .i16 f)
  | .qdone f => some (Rows.qdone, .i16 f)
  | .brx f => some (Rows.brx, .i16 f)
  | .callq f => some (Rows.callq, .r f)
  | .ret f => some (Rows.ret, .r f)
  | .join f => some (Rows.join, .r f)
  | .waitj f => some (Rows.waitj, .r f)
  | .exit f => some (Rows.exit, .r f)
  | .reform f => some (Rows.reform, .r f)
  | .reorder f => some (Rows.reorder, .r f)
  | .spawn f => some (Rows.spawn, .r f)
  | .migrate f => some (Rows.migrate, .r f)
  | .eqpt f => some (Rows.eqpt, .i16 f)
  | .region f => some (Rows.region, .r f)
  | .meld f => some (Rows.meld, .r f)
  | .endmeld f => some (Rows.endmeld, .r f)
  | .mtbl f => some (Rows.mtbl, .r f)
  | .mma f => some (Rows.mma, .r f)
  | .mmaq f => some (Rows.mmaq, .r f)
  | .mmao f => some (Rows.mmao, .r f)
  | .mmas f => some (Rows.mmas, .r f)
  | .tslr f => some (Rows.tslr, .r f)
  | .tslw f => some (Rows.tslw, .r f)
  | .bshare f => some (Rows.bshare, .r f)
  | .cpy f => some (Rows.cpy, .r f)
  | .cpym f => some (Rows.cpym, .r f)
  | .cpyp f => some (Rows.cpyp, .r f)
  | .inspect f => some (Rows.inspect, .r f)
  | .inspectf f => some (Rows.inspectf, .r f)
  | .ftest f => some (Rows.ftest, .r f)
  | .fwait f => some (Rows.fwait, .r f)
  | .fcancel f => some (Rows.fcancel, .r f)
  | .fpass f => some (Rows.fpass, .r f)
  | .nop f => some (Rows.nop, .r f)
  | .wait f => some (Rows.wait, .i16 f)
  | .yield f => some (Rows.yield, .r f)
  | .trap f => some (Rows.trap, .i16 f)
  | .bkpt f => some (Rows.bkpt, .i16 f)
  | .rte f => some (Rows.rte, .r f)
  | .pen f => some (Rows.pen, .r f)
  | .uadd f => some (Rows.uadd, .r f)
  | .usub f => some (Rows.usub, .r f)
  | .umul f => some (Rows.umul, .r f)
  | .umulh f => some (Rows.umulh, .r f)
  | .umad f => some (Rows.umad, .r f)
  | .umin f => some (Rows.umin, .r f)
  | .umax f => some (Rows.umax, .r f)
  | .ucmp f => some (Rows.ucmp, .r f)
  | .usel f => some (Rows.usel, .r f)
  | .uand f => some (Rows.uand, .r f)
  | .uor f => some (Rows.uor, .r f)
  | .uxor f => some (Rows.uxor, .r f)
  | .unot f => some (Rows.unot, .r f)
  | .ushl f => some (Rows.ushl, .r f)
  | .ushr f => some (Rows.ushr, .r f)
  | .usar f => some (Rows.usar, .r f)
  | .upopc f => some (Rows.upopc, .r f)
  | .uclz f => some (Rows.uclz, .r f)
  | .umovi f => some (Rows.umovi, .i16 f)
  | .umovh f => some (Rows.umovh, .i16 f)
  | .ursr f => some (Rows.ursr, .i16 f)
  | .uwsr f => some (Rows.uwsr, .i16 f)
  | .uplop f => some (Rows.uplop, .r f)
  | .uread f => some (Rows.uread, .r f)
  | .aset f => some (Rows.aset, .r f)
  | .aget f => some (Rows.aget, .r f)
  | .adv f => some (Rows.adv, .r f)
  | .anarrow f => some (Rows.anarrow, .r f)
  | .ald f => some (Rows.ald, .m f)
  | .ldu f => some (Rows.ldu, .m f)
  | .stu f => some (Rows.stu, .m f)
  | .icinv f => some (Rows.icinv, .r f)
  | .fbar f => some (Rows.fbar, .r f)
  | .pin f => some (Rows.pin, .r f)
  | .unpin f => some (Rows.unpin, .r f)
  | .odecl f => some (Rows.odecl, .m f)
  | .ofree f => some (Rows.ofree, .r f)
  | .seal f => some (Rows.seal, .r f)
  | .unseal f => some (Rows.unseal, .r f)
  | .oquery f => some (Rows.oquery, .r f)
  | .bra f => some (Rows.bra, .i24 f)
  | .jmpi f => some (Rows.jmpi, .r f)
  | .call f => some (Rows.call, .i24 f)
  | .uspawn f => some (Rows.uspawn, .r f)
  | .gridwait f => some (Rows.gridwait, .r f)
  | .tld f => some (Rows.tld, .m f)
  | .tst f => some (Rows.tst, .m f)
  | .tzero f => some (Rows.tzero, .r f)
  | .tmov f => some (Rows.tmov, .r f)
  | .tcvt f => some (Rows.tcvt, .r f)
  | .talloc f => some (Rows.talloc, .r f)
  | .tfree f => some (Rows.tfree, .r f)
  | .tstat f => some (Rows.tstat, .r f)
  | .boinit f => some (Rows.boinit, .m f)
  | .boarrive f => some (Rows.boarrive, .m f)
  | .boexpect f => some (Rows.boexpect, .m f)
  | .bowait f => some (Rows.bowait, .m f)
  | .botest f => some (Rows.botest, .m f)
  | .srstat f => some (Rows.srstat, .r f)
  | .istat f => some (Rows.istat, .r f)
  | .ccount f => some (Rows.ccount, .r f)
  | .tlbinv f => some (Rows.tlbinv, .r f)
  | .csave f => some (Rows.csave, .m f)
  | .cload f => some (Rows.cload, .m f)
  | .halt f => some (Rows.halt, .r f)
  | .errlog f => some (Rows.errlog, .r f)
  | .handlerWaveForm _ _ _ => none
  | .bundleFormation _ => none
  | .binHoist _ _ _ => none
  | .reorderSort _ _ _ => none
  | .calleeQueueDrain _ _ _ => none
  | .launchPortWrite _ _ _ => none
  | .recordResolution _ => none
  | .claim _ _ => none
  | .groupRestore _ _ => none
  | .storeDrainSend _ _ _ => none
  | .storeArrivalAtHome _ => none
  | .writeThroughAck _ _ => none
  | .loadRequestAtHome _ => none
  | .sliceReply _ => none
  | .atomicRequestAtHome _ _ => none
  | .rowRequestAtHome _ => none
  | .queueRequestAtSlice _ => none
  | .peerSpadRequest _ => none
  | .rosterBitRequest _ _ _ => none
  | .objectLookupFill _ _ => none
  | .pageWalk _ _ _ => none
  | .instructionFetch _ _ => none
  | .copyOwnershipAcquire _ => none
  | .presenceClearArrival _ _ => none
  | .copySectorLand _ _ _ => none
  | .copyResolve _ => none
  | .inspectSnapshot _ => none
  | .inspectArrival _ _ => none
  | .inspectComplete _ => none
  | .staleReadSample _ => none
  | .poisonWriteback _ _ => none
  | .bar0IllegalAccess _ _ _ => none
  | .bar2Read _ _ => none
  | .bar2Write _ _ => none
  | .launchQueueControlWrite _ _ _ _ => none
  | .partitionControlWrite _ _ _ _ _ => none
  | .doorbellTlbInvalidate _ => none
  | .doorbellIcacheInvalidate _ => none
  | .doorbellTimeSliceOut _ => none
  | .doorbellTimeSliceIn _ => none
  | .doorbellResumeHalted _ => none
  | .doorbellActionComplete _ _ => none
  | .qcmdCreate _ => none
  | .qcmdReset _ => none
  | .qcmdDelete _ => none
  | .regionTableWrite _ _ _ _ _ => none
  | .hinspectDoorbell _ _ => none
  | .hostInspectComplete _ _ => none
  | .debugNext _ => none
  | .dscmdSave _ => none
  | .dscmdLoad _ => none
  | .attestationRequest _ => none
  | .attestationReportDone => none
  | .portControlWrite _ _ _ _ => none
  | .portEnable _ => none
  | .portDisable _ => none
  | .qpload _ _ => none
  | .portSendRequest _ => none
  | .portRecvPost _ => none
  | .bowlineDataFrameRx _ _ => none
  | .bowlineAckRx _ _ _ => none
  | .bowlineNakRx _ _ _ => none
  | .bowlineResendTimeout _ _ => none
  | .roceRdmaWriteRx _ _ => none
  | .roceRdmaReadRx _ _ => none
  | .roceSendRx _ _ => none
  | .roceAckRx _ _ _ => none
  | .roceNakRx _ _ => none
  | .roceAckTimeout _ _ => none
  | .peerRequestArrival _ => none
  | .linkFlitError _ => none
  | .linkTimeout _ => none
  | .coldReset _ => none
  | .functionLevelReset => none
  | .thermalThrottle _ => none
  | .coolingShutdown => none
  | .registerWrite _ _ _ => none
  | .frameDropped _ => none
  | .rdmaReadResponseRx _ _ => none
  | .roceAtomicRequestRx _ _ => none

/-- A compact form's top byte and fields (R57); none for every other row. -/
def Instr.compact? : Instr → Option (Nat × CForm)
  | .iaddCompact f => some (0x00, f)
  | .isubCompact f => some (0x01, f)
  | .imulCompact f => some (0x02, f)
  | .andCompact f => some (0x03, f)
  | .orCompact f => some (0x04, f)
  | .xorCompact f => some (0x05, f)
  | .shlCompact f => some (0x06, f)
  | .shrCompact f => some (0x07, f)
  | .sarCompact f => some (0x08, f)
  | .iminCompact f => some (0x09, f)
  | .imaxCompact f => some (0x0A, f)
  | .faddCompact f => some (0x0B, f)
  | .fsubCompact f => some (0x0C, f)
  | .fmulCompact f => some (0x0D, f)
  | .fminCompact f => some (0x0E, f)
  | .fmaxCompact f => some (0x0F, f)
  | .movCompact f => some (0x10, f)
  | .ffmaCompact f => some (0x11, f)
  | .imadCompact f => some (0x12, f)
  | .dot4Compact f => some (0x13, f)
  | .dot8Compact f => some (0x14, f)
  | .dot2Compact f => some (0x15, f)
  | .uaddCompact f => some (0x80, f)
  | .usubCompact f => some (0x81, f)
  | .umulCompact f => some (0x82, f)
  | .uandCompact f => some (0x83, f)
  | .uorCompact f => some (0x84, f)
  | .uxorCompact f => some (0x85, f)
  | .ushlCompact f => some (0x86, f)
  | .ushrCompact f => some (0x87, f)
  | .usarCompact f => some (0x88, f)
  | .uminCompact f => some (0x89, f)
  | .umaxCompact f => some (0x8A, f)
  | .umovCompact f => some (0x90, f)
  | .umadCompact f => some (0x92, f)
  | .iadd _ => none
  | .isub _ => none
  | .imul _ => none
  | .imulh _ => none
  | .imad _ => none
  | .imin _ => none
  | .imax _ => none
  | .iabs _ => none
  | .ineg _ => none
  | .icmp _ => none
  | .sel _ => none
  | .and _ => none
  | .or _ => none
  | .xor _ => none
  | .andn _ => none
  | .not _ => none
  | .shl _ => none
  | .shr _ => none
  | .sar _ => none
  | .rot _ => none
  | .popc _ => none
  | .clz _ => none
  | .brev _ => none
  | .bfx _ => none
  | .bfi _ => none
  | .fadd _ => none
  | .fsub _ => none
  | .fmul _ => none
  | .ffma _ => none
  | .fmin _ => none
  | .fmax _ => none
  | .fcmp _ => none
  | .fclass _ => none
  | .frcp _ => none
  | .frsq _ => none
  | .fsqrt _ => none
  | .fexp2 _ => none
  | .flog2 _ => none
  | .fsin _ => none
  | .fcos _ => none
  | .fdiv _ => none
  | .dot4 _ => none
  | .dot8 _ => none
  | .dot2 _ => none
  | .fscl _ => none
  | .cvt _ => none
  | .cvtp _ => none
  | .cvtx _ => none
  | .movi _ => none
  | .movh _ => none
  | .bcast _ => none
  | .shfl _ => none
  | .vote _ => none
  | .ballot _ => none
  | .redux _ => none
  | .scan _ => none
  | .xset _ => none
  | .xadd _ => none
  | .movx _ => none
  | .stx _ => none
  | .plop _ => none
  | .pmov _ => none
  | .ld _ => none
  | .st _ => none
  | .pref _ => none
  | .rowld _ => none
  | .lds _ => none
  | .sts _ => none
  | .atoms _ => none
  | .present _ => none
  | .atom _ => none
  | .cas _ => none
  | .padd2 _ => none
  | .rowadd _ => none
  | .enq _ => none
  | .deq _ => none
  | .qtry _ => none
  | .qlen _ => none
  | .qopen _ => none
  | .qdone _ => none
  | .brx _ => none
  | .callq _ => none
  | .ret _ => none
  | .join _ => none
  | .waitj _ => none
  | .exit _ => none
  | .reform _ => none
  | .reorder _ => none
  | .spawn _ => none
  | .migrate _ => none
  | .eqpt _ => none
  | .region _ => none
  | .meld _ => none
  | .endmeld _ => none
  | .mtbl _ => none
  | .mma _ => none
  | .mmaq _ => none
  | .mmao _ => none
  | .mmas _ => none
  | .tslr _ => none
  | .tslw _ => none
  | .bshare _ => none
  | .cpy _ => none
  | .cpym _ => none
  | .cpyp _ => none
  | .inspect _ => none
  | .inspectf _ => none
  | .ftest _ => none
  | .fwait _ => none
  | .fcancel _ => none
  | .fpass _ => none
  | .nop _ => none
  | .wait _ => none
  | .yield _ => none
  | .trap _ => none
  | .bkpt _ => none
  | .rte _ => none
  | .pen _ => none
  | .uadd _ => none
  | .usub _ => none
  | .umul _ => none
  | .umulh _ => none
  | .umad _ => none
  | .umin _ => none
  | .umax _ => none
  | .ucmp _ => none
  | .usel _ => none
  | .uand _ => none
  | .uor _ => none
  | .uxor _ => none
  | .unot _ => none
  | .ushl _ => none
  | .ushr _ => none
  | .usar _ => none
  | .upopc _ => none
  | .uclz _ => none
  | .umovi _ => none
  | .umovh _ => none
  | .ursr _ => none
  | .uwsr _ => none
  | .uplop _ => none
  | .uread _ => none
  | .aset _ => none
  | .aget _ => none
  | .adv _ => none
  | .anarrow _ => none
  | .ald _ => none
  | .ldu _ => none
  | .stu _ => none
  | .icinv _ => none
  | .fbar _ => none
  | .pin _ => none
  | .unpin _ => none
  | .odecl _ => none
  | .ofree _ => none
  | .seal _ => none
  | .unseal _ => none
  | .oquery _ => none
  | .bra _ => none
  | .jmpi _ => none
  | .call _ => none
  | .uspawn _ => none
  | .gridwait _ => none
  | .tld _ => none
  | .tst _ => none
  | .tzero _ => none
  | .tmov _ => none
  | .tcvt _ => none
  | .talloc _ => none
  | .tfree _ => none
  | .tstat _ => none
  | .boinit _ => none
  | .boarrive _ => none
  | .boexpect _ => none
  | .bowait _ => none
  | .botest _ => none
  | .srstat _ => none
  | .istat _ => none
  | .ccount _ => none
  | .tlbinv _ => none
  | .csave _ => none
  | .cload _ => none
  | .halt _ => none
  | .errlog _ => none
  | .handlerWaveForm _ _ _ => none
  | .bundleFormation _ => none
  | .binHoist _ _ _ => none
  | .reorderSort _ _ _ => none
  | .calleeQueueDrain _ _ _ => none
  | .launchPortWrite _ _ _ => none
  | .recordResolution _ => none
  | .claim _ _ => none
  | .groupRestore _ _ => none
  | .storeDrainSend _ _ _ => none
  | .storeArrivalAtHome _ => none
  | .writeThroughAck _ _ => none
  | .loadRequestAtHome _ => none
  | .sliceReply _ => none
  | .atomicRequestAtHome _ _ => none
  | .rowRequestAtHome _ => none
  | .queueRequestAtSlice _ => none
  | .peerSpadRequest _ => none
  | .rosterBitRequest _ _ _ => none
  | .objectLookupFill _ _ => none
  | .pageWalk _ _ _ => none
  | .instructionFetch _ _ => none
  | .copyOwnershipAcquire _ => none
  | .presenceClearArrival _ _ => none
  | .copySectorLand _ _ _ => none
  | .copyResolve _ => none
  | .inspectSnapshot _ => none
  | .inspectArrival _ _ => none
  | .inspectComplete _ => none
  | .staleReadSample _ => none
  | .poisonWriteback _ _ => none
  | .bar0IllegalAccess _ _ _ => none
  | .bar2Read _ _ => none
  | .bar2Write _ _ => none
  | .launchQueueControlWrite _ _ _ _ => none
  | .partitionControlWrite _ _ _ _ _ => none
  | .doorbellTlbInvalidate _ => none
  | .doorbellIcacheInvalidate _ => none
  | .doorbellTimeSliceOut _ => none
  | .doorbellTimeSliceIn _ => none
  | .doorbellResumeHalted _ => none
  | .doorbellActionComplete _ _ => none
  | .qcmdCreate _ => none
  | .qcmdReset _ => none
  | .qcmdDelete _ => none
  | .regionTableWrite _ _ _ _ _ => none
  | .hinspectDoorbell _ _ => none
  | .hostInspectComplete _ _ => none
  | .debugNext _ => none
  | .dscmdSave _ => none
  | .dscmdLoad _ => none
  | .attestationRequest _ => none
  | .attestationReportDone => none
  | .portControlWrite _ _ _ _ => none
  | .portEnable _ => none
  | .portDisable _ => none
  | .qpload _ _ => none
  | .portSendRequest _ => none
  | .portRecvPost _ => none
  | .bowlineDataFrameRx _ _ => none
  | .bowlineAckRx _ _ _ => none
  | .bowlineNakRx _ _ _ => none
  | .bowlineResendTimeout _ _ => none
  | .roceRdmaWriteRx _ _ => none
  | .roceRdmaReadRx _ _ => none
  | .roceSendRx _ _ => none
  | .roceAckRx _ _ _ => none
  | .roceNakRx _ _ => none
  | .roceAckTimeout _ _ => none
  | .peerRequestArrival _ => none
  | .linkFlitError _ => none
  | .linkTimeout _ => none
  | .coldReset _ => none
  | .functionLevelReset => none
  | .thermalThrottle _ => none
  | .coolingShutdown => none
  | .registerWrite _ _ _ => none
  | .frameDropped _ => none
  | .rdmaReadResponseRx _ _ => none
  | .roceAtomicRequestRx _ _ => none

/-- The fields with every field the row does not use set to zero (R55: should be zero, ignored). -/
def Row.normalise (r : Row) : Fields → Fields
  | .r f => r.fix (.r
      { f with
        d := if r.d = .unused then 0 else f.d
        a := if r.a = .unused then 0 else if r.a = .mem ∧ f.b = noIndex then f.a &&& 0xF3 else f.a
        b := if r.b = .unused then 0 else f.b
        c := if r.c = .unused then 0 else f.c
        ty := if r.types.isNone then 0 else f.ty
        mx := r.flag && f.mx })
  | .i16 f => r.fix (.i16
      { f with
        d := if r.d = .unused then 0 else f.d
        a := if r.a = .unused then 0 else f.a
        mod4 := if r.mod4 then f.mod4 else 0 })
  | .i24 f => r.fix (.i24 { f with d := if r.d = .unused then 0 else f.d })
  | .m f => r.fix (.m
      { f with
        d := if r.d = .unused then 0 else f.d
        scale := if f.idx = noIndex then 0 else f.scale })

/-- The PRED values no state of the group accepts (R42): 0b1111 in the uniform set, anything but 0b0111 in an
unpredicated instruction. -/
def Row.predOk (r : Row) (pred : BitVec 4) : Bool :=
  if r.unpredicated then pred == 7 else !(r.uniform && pred == 15)

/-- Every used field holds an accepted value (R40, R45, R46, R55). -/
def Row.fieldsOk (r : Row) (e : Enc) (f : Fields) : Bool :=
  (match r.layout, f with
   | .r, .r f =>
     let wide := wideType f.ty
     r.d.ok e wide 1 f.d && r.a.ok e wide 1 f.a && r.b.ok e wide 1 f.b && r.c.ok e wide 1 f.c
       && (match r.types with | none => f.ty == 0 | some ts => ts.contains f.ty.toNat)
       && (r.flag || !f.mx) && (r.a != .mem || r.orders.contains (f.a.toNat % 4)) && r.predOk f.pred
       && (e == .d || (f.hold == 0 && f.stall == 0 && !f.yld))
   | .i16, .i16 f =>
     r.d.ok e false 1 f.d && r.a.ok e false 1 f.a && (r.mod4 || f.mod4 == 0) && r.predOk f.pred
   | .i24, .i24 f => r.d.ok e false 1 f.d && (e == .l || (f.imm.truncate 24).signExtend 32 == f.imm)
   | .m, .m f =>
     r.sizes.contains f.size.toNat && r.orders.contains f.order.toNat
       && r.d.ok e false (sizeRun f.size.toNat) f.d
       && (if r.uniform then Kind.uidx else Kind.idx).ok e false 1 f.idx
       && r.predOk f.pred && (e == .l || (f.off.truncate 16).signExtend 18 == f.off)
   | _, _ => false) && r.extra e f

/-- The instruction is one that a word of encoding e can hold: every used field accepted, every unused field zero. An
event has no encoding. -/
def Instr.wf (e : Enc) (i : Instr) : Bool :=
  match i.row? with
  | some (r, f) => r.fieldsOk e f && r.normalise f == f
  | none =>
    match i.compact? with
    | some (top, f) => e == .d && (top % 128 != 0x10 || f.b == 0)
    | none => false

end Sys2Proof
end

