-- ==== Sys2Proof/Decode.lean ====
section
/-! DEFINITION. Decoding and encoding of Sazil words (R31 to R64). Decoding is total: a word is an instruction or is
rejected under a name, and every rejection is ILLOP (R63). -/

namespace Sys2Proof

/-- Why a bit pattern is no instruction (R63). Each raises ILLOP when the word is issued; `short` says that the words
of the instruction are not all there. -/
inductive DecodeError where
  | short
  | compactCode
  | classNumber
  | function
  | field
  | immediate
deriving DecidableEq, Repr

/-! Layout of Sazil-D word 0 and word 1 (R32, R36 to R39). -/

/-- An 8-bit register code as a 10-bit code; 0xFF is the no-index code where the field is an index operand (R54). -/
def wideCode (index : Bool) (x : BitVec 8) : BitVec 10 :=
  if index && x == 0xFF then noIndex else x.setWidth 10

def Kind.isIndex : Kind → Bool
  | .idx => true
  | .uidx => true
  | .pairIdx => true
  | _ => false

/-- Field B of this row may be the no-index code; INSPECT's B is `special` and has it too (R264). -/
def Row.indexB (r : Row) : Bool := r.b.isIndex || (r.op == 0x2F && (r.fn == 3 || r.fn == 4))

/-- The fields of a full Sazil-D form. -/
def Row.readD (r : Row) (w0 w1 : Word) : Fields :=
  let d := w0.extractLsb' 16 8
  let a := w0.extractLsb' 8 8
  let b := w0.extractLsb' 0 8
  match r.layout with
  | .r => .r { d := d.setWidth 10, a := a.setWidth 10, b := wideCode r.indexB b
               c := (w1.extractLsb' 16 8).setWidth 10, pred := w1.extractLsb' 12 4, hold := w1.extractLsb' 10 2
               stall := w1.extractLsb' 7 3, yld := w1.getLsbD 6, mx := w1.getLsbD 5, ty := w1.extractLsb' 0 5 }
  | .i16 => .i16 { d := d.setWidth 10, a := a.setWidth 10, pred := w1.extractLsb' 20 4, imm := w1.extractLsb' 4 16
                   mod4 := w1.extractLsb' 0 4 }
  | .i24 => .i24 { d := d.setWidth 10, imm := (w1.extractLsb' 0 24).signExtend 32 }
  | .m => .m { d := d.setWidth 10, areg := a.extractLsb' 4 4, scale := a.extractLsb' 2 2, order := a.extractLsb' 0 2
               idx := wideCode true b, pred := w1.extractLsb' 20 4, size := w1.extractLsb' 16 4
               off := (w1.extractLsb' 0 16).signExtend 18 }

/-- A code of Sazil-L that occupies eight bits of its field: the two above are ignored (R50, R53, R55). -/
def Kind.narrow : Kind → Bool
  | .code _ => true
  | .mem => true
  | _ => false

def narrowCode (k : Kind) (x : BitVec 10) : BitVec 10 := if k.narrow then x &&& 0xFF else x

/-- MTBL's and INSPECT's codes stand in C, so their A and B keep all ten bits; D codes keep theirs (R55 names A and C). -/
def Row.readLR (r : Row) (w : DWord) : Fields :=
  .r { d := w.extractLsb' 39 10, a := narrowCode r.a (w.extractLsb' 29 10), b := w.extractLsb' 19 10
       c := narrowCode r.c (w.extractLsb' 9 10), pred := w.extractLsb' 5 4, hold := 0, stall := 0, yld := false
       mx := w.getLsbD 56, ty := w.extractLsb' 0 5 }

/-- The immediate field holds exactly the extension of a 16-bit value (R51). Where the manual does not say which, it is
the zero-extension: of WAIT and BKPT (notes/assumptions/102), of MOVH and UMOVH (10). -/
def immFits (signed : Bool) (field : Word) (bits : Nat) : Bool :=
  let v := field.extractLsb' 0 16
  let ext : Word := if signed then v.signExtend 32 else v.setWidth 32
  ext.extractLsb' 0 bits == field.extractLsb' 0 bits

def Row.readLI (r : Row) (w : DWord) : Except DecodeError Fields :=
  let imm : Word := w.extractLsb' 0 32
  let carriesA := r.a != .unused
  if immFits r.signed imm (if carriesA then 22 else 32) then
    .ok (.i16 { d := w.extractLsb' 39 10, a := if carriesA then imm.extractLsb' 22 10 else 0
                pred := w.extractLsb' 35 4, imm := imm.extractLsb' 0 16
                mod4 := w.extractLsb' 56 1 ++ w.extractLsb' 32 3 })
  else .error .immediate

def Row.readLM (w : DWord) : Fields :=
  .m { d := w.extractLsb' 39 10, areg := w.extractLsb' 35 4, scale := w.extractLsb' 33 2, order := w.extractLsb' 31 2
       idx := w.extractLsb' 21 10, pred := w.extractLsb' 17 4, size := (w.extractLsb' 14 3).setWidth 4
       off := w.extractLsb' 53 4 ++ w.extractLsb' 0 14 }

/-- Step 4 of R62, and the fates of R55: unused fields are dropped, every used field must hold an accepted value. -/
def Row.finish (r : Row) (e : Enc) (f : Fields) : Except DecodeError Instr :=
  let g := r.normalise f
  if r.fieldsOk e g then
    match r.build g with
    | some i => .ok i
    | none => .error .field
  else .error .field

/-! Sazil-D. -/

/-- A word 0 with X = 1 is followed by a second word in every case (R33). -/
def isFull (w0 : Word) : Bool := w0.getLsbD 30

/-- The compact operation of a top byte (R57). -/
def compactOf (top : Nat) (f : CForm) : Option Instr :=
  match top with
  | 0x00 => some (.iaddCompact f)
  | 0x01 => some (.isubCompact f)
  | 0x02 => some (.imulCompact f)
  | 0x03 => some (.andCompact f)
  | 0x04 => some (.orCompact f)
  | 0x05 => some (.xorCompact f)
  | 0x06 => some (.shlCompact f)
  | 0x07 => some (.shrCompact f)
  | 0x08 => some (.sarCompact f)
  | 0x09 => some (.iminCompact f)
  | 0x0A => some (.imaxCompact f)
  | 0x0B => some (.faddCompact f)
  | 0x0C => some (.fsubCompact f)
  | 0x0D => some (.fmulCompact f)
  | 0x0E => some (.fminCompact f)
  | 0x0F => some (.fmaxCompact f)
  | 0x10 => some (.movCompact { f with b := 0 })
  | 0x11 => some (.ffmaCompact f)
  | 0x12 => some (.imadCompact f)
  | 0x13 => some (.dot4Compact f)
  | 0x14 => some (.dot8Compact f)
  | 0x15 => some (.dot2Compact f)
  | 0x80 => some (.uaddCompact f)
  | 0x81 => some (.usubCompact f)
  | 0x82 => some (.umulCompact f)
  | 0x83 => some (.uandCompact f)
  | 0x84 => some (.uorCompact f)
  | 0x85 => some (.uxorCompact f)
  | 0x86 => some (.ushlCompact f)
  | 0x87 => some (.ushrCompact f)
  | 0x88 => some (.usarCompact f)
  | 0x89 => some (.uminCompact f)
  | 0x8A => some (.umaxCompact f)
  | 0x90 => some (.umovCompact { f with b := 0 })
  | 0x92 => some (.umadCompact f)
  | _ => none

/-- A compact word (R34). -/
def decodeCompact (w0 : Word) : Except DecodeError Instr :=
  let f : CForm := { d := w0.extractLsb' 16 8, a := w0.extractLsb' 8 8, b := w0.extractLsb' 0 8 }
  match compactOf (w0.extractLsb' 24 8).toNat f with
  | some i => .ok i
  | none => .error .compactCode

/-- A class has some assigned function (R57, R58). -/
def classAssigned (uniform : Bool) (op : Nat) : Bool := 0x20 ≤ op && op ≤ (if uniform then 0x2A else 0x30)

/-- A full Sazil-D form (R33, R62). -/
def decodeFull (w0 w1 : Word) : Except DecodeError Instr :=
  let op := (w0.extractLsb' 24 6).toNat
  if classAssigned (w0.getLsbD 31) op then
    match Rows.find (w0.getLsbD 31) op (w1.extractLsb' 24 8).toNat with
    | some r => r.finish .d (r.readD w0 w1)
    | none => .error .function
  else .error .classNumber

/-- A Sazil-D instruction; the second word is looked at only after a word 0 with X = 1. -/
def decodeD (w0 w1 : Word) : Except DecodeError Instr :=
  if isFull w0 then decodeFull w0 w1 else decodeCompact w0

/-! Sazil-L. -/

/-- A Sazil-L instruction, in the order of R62. -/
def decodeL (w : DWord) : Except DecodeError Instr :=
  let op := (w.extractLsb' 57 6).toNat
  if classAssigned (w.getLsbD 63) op then
    match Rows.find (w.getLsbD 63) op (w.extractLsb' 49 4).toNat with
    | some r =>
      match r.layout with
      | .m => r.finish .l (Row.readLM w)
      | .r => if w.extractLsb' 53 3 == 0 then r.finish .l (r.readLR w) else .error .function
      | .i16 =>
        if w.extractLsb' 53 3 == 0 then
          match r.readLI w with
          | .ok f => r.finish .l f
          | .error x => .error x
        else .error .function
      | .i24 =>
        if w.extractLsb' 53 3 == 0 then
          if w.extractLsb' 35 4 == 7 then r.finish .l (.i24 { d := w.extractLsb' 39 10, imm := w.extractLsb' 0 32 })
          else .error .field
        else .error .function
    | none => .error .function
  else .error .classNumber

/-! Bytes: words are little-endian (R31). -/

def word32 (b0 b1 b2 b3 : Byte) : Word := b3 ++ b2 ++ b1 ++ b0

/-- The instruction at the head of a byte sequence and the bytes after it. -/
def decodeBytes (e : Enc) (bs : List Byte) : Except DecodeError (Instr × List Byte) :=
  match e, bs with
  | .d, b0 :: b1 :: b2 :: b3 :: rest =>
    let w0 := word32 b0 b1 b2 b3
    if isFull w0 then
      match rest with
      | c0 :: c1 :: c2 :: c3 :: rest => (decodeFull w0 (word32 c0 c1 c2 c3)).map (·, rest)
      | _ => .error .short
    else (decodeCompact w0).map (·, rest)
  | .l, b0 :: b1 :: b2 :: b3 :: c0 :: c1 :: c2 :: c3 :: rest =>
    (decodeL (word32 c0 c1 c2 c3 ++ word32 b0 b1 b2 b3)).map (·, rest)
  | _, _ => .error .short

/-- The n bytes of a number, least significant first (R3). -/
def leBytes : Nat → Nat → List Byte
  | 0, _ => []
  | n + 1, w => BitVec.ofNat 8 w :: leBytes n (w / 256)

/-- The number that bytes spell, least significant first (R3). -/
def leNat : List Byte → Nat
  | [] => 0
  | b :: bs => b.toNat + 256 * leNat bs

/-- The longest instruction is eight bytes (R31). -/
def tableBytes (_nbits w : Nat) : List Byte := leBytes 8 w

/-- The instruction that the decoder reads from the bits of an opcode table row: word 0 is bits [31:0], word 1 bits
[63:32] (R31). The table's numbered rows are compact Sazil-D words. -/
def decodeTableWord (nbits w : Nat) : Option Instr :=
  match decodeBytes .d (tableBytes nbits w) with
  | .ok (i, _) => some i
  | .error _ => none

/-! The encoder, from the same tables. -/

/-- Word 0 of a full form (R32). -/
def Row.word0 (r : Row) (d a b : BitVec 8) : Word :=
  BitVec.ofBool r.uniform ++ (1 : BitVec 1) ++ BitVec.ofNat 6 r.op ++ d ++ a ++ b

def Row.encodeD (r : Row) : Fields → Word × Word
  | .r f =>
    (r.word0 (f.d.setWidth 8) (f.a.setWidth 8) (f.b.setWidth 8),
      BitVec.ofNat 8 r.fn ++ f.c.setWidth 8 ++ f.pred ++ f.hold ++ f.stall ++ BitVec.ofBool f.yld ++ BitVec.ofBool f.mx
        ++ f.ty)
  | .i16 f =>
    (r.word0 (f.d.setWidth 8) (f.a.setWidth 8) 0, BitVec.ofNat 8 r.fn ++ f.pred ++ f.imm ++ f.mod4)
  | .i24 f => (r.word0 (f.d.setWidth 8) 0 0, BitVec.ofNat 8 r.fn ++ f.imm.setWidth 24)
  | .m f =>
    (r.word0 (f.d.setWidth 8) (f.areg ++ f.scale ++ f.order) (f.idx.setWidth 8),
      BitVec.ofNat 8 r.fn ++ f.pred ++ f.size ++ f.off.setWidth 16)

/-- The IMM32 field of a 16-bit immediate (R51). -/
def Row.imm32 (r : Row) (f : I16Form) : Word :=
  let ext : Word := if r.signed then f.imm.signExtend 32 else f.imm.setWidth 32
  if r.a != .unused then f.a ++ ext.setWidth 22 else ext

def Row.encodeL (r : Row) (fs : Fields) : DWord :=
  let head : BitVec 7 := BitVec.ofBool r.uniform ++ BitVec.ofNat 6 r.op
  match fs with
  | .r f =>
    head ++ BitVec.ofBool f.mx ++ BitVec.ofNat 7 r.fn ++ f.d ++ f.a ++ f.b ++ f.c ++ f.pred ++ f.ty
  | .i16 f =>
    head ++ f.mod4.extractLsb' 3 1 ++ BitVec.ofNat 7 r.fn ++ f.d ++ f.pred ++ f.mod4.extractLsb' 0 3 ++ r.imm32 f
  | .i24 f => head ++ (0 : BitVec 1) ++ BitVec.ofNat 7 r.fn ++ f.d ++ (7 : BitVec 4) ++ (0 : BitVec 3) ++ f.imm
  | .m f =>
    head ++ f.off.extractLsb' 14 4 ++ BitVec.ofNat 4 r.fn ++ f.d ++ f.areg ++ f.scale ++ f.order ++ f.idx ++ f.pred
      ++ f.size.setWidth 3 ++ f.off.extractLsb' 0 14

/-- The Sazil-D words of an instruction: one for a compact form, two for a full form. -/
def encodeD (i : Instr) : List Word :=
  match i.row? with
  | some (r, f) => [(r.encodeD f).1, (r.encodeD f).2]
  | none =>
    match i.compact? with
    | some (top, f) => [BitVec.ofNat 8 top ++ f.d ++ f.a ++ f.b]
    | none => []

/-- The Sazil-L word of an instruction. -/
def encodeL (i : Instr) : Option DWord := i.row?.map fun (r, f) => r.encodeL f

/-- The bytes of an instruction in an encoding. -/
def encode (e : Enc) (i : Instr) : List Byte :=
  match e with
  | .d => (encodeD i).flatMap fun w => leBytes 4 w.toNat
  | .l =>
    match encodeL i with
    | some w => leBytes 8 w.toNat
    | none => []

end Sys2Proof
end

