-- ==== Sys2Proof/Machine/Maps.lean ====
section
/-! DEFINITION. Sparse maps in one canonical form: keys strictly rising, and no entry equal to the value that an
unlisted key reads as. Memory, register files and every table of the device are kept in it. -/

namespace Sys2Proof.Machine

/-- The entry of a key. -/
def mapFind {α : Type} (k : Nat) : SMap α → Option α
  | [] => none
  | (j, x) :: rest => if k = j then some x else mapFind k rest

/-- What a key reads as, dflt where it is unlisted. -/
def mapGet {α : Type} (dflt : α) (m : SMap α) (k : Nat) : α := (mapFind k m).getD dflt

def mapErase {α : Type} (k : Nat) (m : SMap α) : SMap α := m.filter fun e => e.1 != k

/-- Lists an entry, keeping the keys in order. -/
def mapInsert {α : Type} (k : Nat) (v : α) : SMap α → SMap α
  | [] => [(k, v)]
  | (j, x) :: rest =>
    if k = j then (k, v) :: rest else if k < j then (k, v) :: (j, x) :: rest else (j, x) :: mapInsert k v rest

/-- Writes a value; the value that an unlisted key reads as removes the entry. -/
def mapPut {α : Type} [DecidableEq α] (dflt : α) (k : Nat) (v : α) (m : SMap α) : SMap α :=
  if v = dflt then mapErase k m else mapInsert k v m

/-- Keys strictly rising from a lower bound, no entry equal to the default. -/
def mapOk {α : Type} [DecidableEq α] (dflt : α) : Nat → SMap α → Bool
  | _, [] => true
  | lo, (k, v) :: rest => decide (lo ≤ k) && decide (v ≠ dflt) && mapOk dflt (k + 1) rest

/-- The least number that no key has from n on: fuel bounds the search. -/
def mapFresh {α : Type} (m : SMap α) : Nat :=
  match m.getLast? with
  | some (k, _) => k + 1
  | none => 0

def mapUpdate {α : Type} (k : Nat) (f : α → α) (m : SMap α) : SMap α :=
  match mapFind k m with
  | some x => mapInsert k (f x) m
  | none => m

def mapKeys {α : Type} (m : SMap α) : List Nat := m.map (·.1)

def mapVals {α : Type} (m : SMap α) : List α := m.map (·.2)

/-- A sorted set of numbers. -/
def setAdd (k : Nat) : List Nat → List Nat
  | [] => [k]
  | j :: rest => if k = j then j :: rest else if k < j then k :: j :: rest else j :: setAdd k rest

def setDel (k : Nat) (xs : List Nat) : List Nat := xs.filter (· != k)

end Sys2Proof.Machine
end

