-- ==== Sys2Proof/Machine/State.lean ====
section
/-! DEFINITION. The state of the device: everything the manual gives the RN4 to hold, as plain data. Sparse stores are
lists of pairs in one canonical form (Maps.lean). Names are the manual's. -/

namespace Sys2Proof.Machine

/-- Why a step can stop with a fault. -/
inductive Fault where
  /-- Raised by the meaning of a Sazil instruction in a state where no bundle is at issue; the step function issues an
  instruction only with its bundle, so a run never meets it. Safe: the machine stops. -/
  | noBundle
deriving DecidableEq, Repr

/-- Why a step can be refused. -/
inductive Refusal where
  /-- Raised by the dispatcher for an instruction without a meaning. Safe: nothing is claimed of it. -/
  | notModelled (mnemonic : String)
deriving DecidableEq, Repr

/-! ## Threads (R85, R103, R110, R128 to R138) -/

/-- What a parked thread waits for (R103). -/
inductive Park where
  | lines (bid idx : Nat) (lines : List Nat)
  | future (core slot gen : Nat)
  | barrier (bid idx off : Nat) (phase : Bool)
  | launchSpace (queue : Nat)
  | engineSpace (core : Nat)
  | futureSpace (core : Nat)
  | shareSlot (core : Nat)
  | shareWhole (core bid share : Nat)
  | producer (queue : Nat)
  | join (j : Nat)
  | children (records : List Nat)
  | callee (core queue : Nat)
  | entry (queue pend : Nat)
  | space (queue pend : Nat)
  | answer (pend : Nat)
deriving DecidableEq, Repr

/-- The thread states of R103; an evicted or halted thread remembers the state it left. -/
inductive TState where
  | ready
  | running
  | binned
  | parked (on : Park)
  | migrating
  | trapped
  | evicted (was : TState)
  | exited
  | halted (was : TState)
deriving DecidableEq, Repr

/-- The tag of a register that received a handle (R214). -/
inductive FTag where
  | pending (core slot gen : Nat)
  | faulted
deriving DecidableEq, Repr

/-- A fixed-latency result that a native-mode reader may miss (R43): the values it may still see, and the cycles the
latency still has to run. -/
structure Hazard where
  olds : List Word
  left : Nat
deriving DecidableEq, Repr

/-- What the device keeps of a trapped lane: the fields of its fault record (R283). -/
structure TrapInfo where
  cause : Nat
  code : Nat := 0
  pc : DWord
  repc : DWord
  rcount : Word
  addr : DWord := 0
  frag : Nat
  parent : Nat
  sib : Mask
  slot : Option Nat := none
deriving DecidableEq, Repr

/-- How far the ENQ or DEQ at which a thread stands has come (R7, R255): the lane is not active; its operands stop it; its
request is on its way; the slice makes it wait; the slice has served it. -/
inductive QStage where
  | skip
  | again
  | sent
  | waits
  | served
deriving DecidableEq, Repr

structure Thread where
  st : TState := .ready
  pc : DWord := 0
  frag : Nat := 0
  /-- v0 … (R128): unlisted registers are zero. -/
  v : SMap Word := []
  /-- p0–p7 (R137); bit 7 is not stored, it reads true. -/
  p : BitVec 8 := 0
  /-- x0–x7 (R135). -/
  x : SMap Word := []
  /-- The meld path (R122). -/
  path : BitVec 2 := 0
  rstk : List DWord := []
  rcount : Word := 0
  rentry : DWord := 0
  /-- The last equivalence point: its id, DPC and LPC (R107, R283). -/
  eq : Option (Nat × Word × Word) := none
  /-- The issue counters of R132. -/
  loads : Nat := 0
  stores : Nat := 0
  copies : Nat := 0
  tiles : Nat := 0
  /-- Last-writer tags with a variable-latency result outstanding: register, pending operation (R131). -/
  vtag : SMap Nat := []
  ptag : SMap Nat := []
  /-- Future tags (R214). -/
  fut : SMap FTag := []
  vhaz : SMap Hazard := []
  phaz : SMap Hazard := []
  xhaz : SMap Hazard := []
  trap : Option TrapInfo := none
  /-- A handler lane's origin and its pennant (R289, R293). -/
  origin : Option (Nat × Nat) := none
  pennant : Word := 0
  /-- Queues on which the thread is a registered producer (R256). -/
  producer : List Nat := []
  /-- When it became READY, in the order of the model's own numbers, while no bundle has taken it up (R95). -/
  readyAt : Option Nat := none
  /-- Its part in the ENQ or DEQ at which it stands: the operation, and how far that has come (R255). -/
  asked : Option (Nat × QStage) := none
deriving DecidableEq, Repr

/-! ## Groups (R87, R110 to R127, R155 to R171) -/

/-- An address register (R164). -/
structure AddrReg where
  pointer : DWord := 0
  base : DWord := 0
  limit : DWord := 0
  attr : DWord := 0
deriving DecidableEq, Repr

/-- A rejoin mask (R113). -/
structure JoinMask where
  members : Mask := 0
  arrived : Mask := 0
deriving DecidableEq, Repr

/-- A fragment's properties (R110). -/
structure Frag where
  id : Nat
  parent : Nat
  sib : Mask
deriving DecidableEq, Repr

/-- A thread filed in a bin or a callee queue: its group and lane, and when it arrived, in the order of the model's own
numbers (R96, R118); in a REORDER bin its sort key and live mask, and whether it is sorted and waits for its hoist
(R98). -/
structure Entry where
  who : Nat × Nat
  since : Nat := 0
  key : Word := 0
  live : List Word := []
  sorted : Bool := false
deriving DecidableEq, Repr

/-- A bin (R96): its key and the filed threads in the order they came; `sort` marks a REORDER bin (R98). -/
structure Bin where
  bid : Nat
  pc : DWord
  entries : List Entry
  sort : Bool := false
deriving DecidableEq, Repr

/-- Where a byte lives: device memory and the system windows by physical address, or a block's scratchpad. -/
inductive Place where
  | mem (pa : Nat)
  | spad (bid idx off : Nat)
deriving DecidableEq, Repr

/-- A TST under way: its instruction, its stretches, its bytes, and how many sectors have entered the buffers (R187). -/
structure TileStore where
  pc : DWord
  segs : List (Place × Nat)
  bytes : List Byte
  next : Nat := 0
  /-- The object of its address register (R231). -/
  obj : Word := 0
deriving DecidableEq, Repr

/-- The issue counters of R132 that count operand reads. -/
inductive Counter where
  | stores
  | copies
  | tiles
deriving DecidableEq, Repr

/-- What an operation does with operands that it reads after issue (R131): nothing more; the data of a store in the
buffers, or in the group's own scratchpad at an offset of a position of a block; a tile's row or column of a block's
position; a product's rows; the offsets of a copy of a kind (CPY 0, CPYM 1, CPYP 2) between two address registers. -/
inductive LateUse where
  | counted
  | store
  | spad (bid idx off : Nat)
  | slice (bid idx tile : Nat) (column : Bool) (sel : Nat)
  | product (num : Nat)
  | copy (id kind : Nat) (src dst : AddrReg)
deriving DecidableEq, Repr

/-- A lane's operands that an operation has not read yet (R131, R132): the physical registers, their bytes in use, and
which of these still are the lane's. `owedBy` is a result that the operation waits for though a later write has taken its
register, and `words` that result. -/
structure Late where
  id : Nat
  lane : Nat
  counter : Counter
  regs : List Nat
  size : Nat
  use : LateUse
  own : List Nat
  owedBy : Option Nat := none
  words : Option (List Word) := none
deriving DecidableEq, Repr

/-- A product whose A registers may not have been read yet (R174): its tile, its type, its other operands as read, the tile
before it, and the registers read of each lane. -/
structure Product where
  num : Nat
  bid : Nat
  idx : Nat
  tile : Nat
  ty : Nat
  scaled : Bool
  columns : List Nat
  scales : List Word
  entries : List (Nat × Nat × Nat)
  before : SMap Word
  lanes : List (Nat × List Word × List Word)
  /-- With a B-share, the group's own quarters of it: each with its first register, and its words by lane (R185). -/
  quarters : List (Nat × Nat × List (Nat × List Word)) := []
deriving DecidableEq, Repr

/-- Where a group stands. -/
inductive Residence where
  | resident
  | migrating
  | evicted
deriving DecidableEq, Repr

structure Group where
  bid : Nat
  /-- sr.group (R87). -/
  index : Nat
  width : Nat
  part : Nat
  core : Nat
  /-- The slot rows, and the first lane on the core (R85). -/
  rows : List Nat
  lane0 : Nat
  enc : Enc
  /-- Runs interlocked, or on an L-core (R315). -/
  ilk : Bool
  c16 : Bool
  /-- The allotment V (R128). -/
  vregs : Nat
  privileged : Bool
  handler : Bool
  threads : List Thread
  frags : List Frag
  s : SMap Word := []
  /-- q0–q7 (R156); bit 7 reads true. -/
  q : BitVec 8 := 0
  a : SMap AddrReg := []
  j : SMap JoinMask := []
  /-- The rename table, 64 entries, or none when empty (R122). -/
  meld : Option (List (BitVec 10)) := none
  region : Bool := false
  /-- Lanes held at a PC until the trapped lanes come back (R126). -/
  holds : List (DWord × Mask) := []
  pendMig : Option Enc := none
  /-- Uniform registers and predicates with a result outstanding (R130): the pending operation. -/
  stag : SMap Nat := []
  atag : SMap Nat := []
  /-- Grids launched by the group (R100): record numbers. -/
  children : List Nat := []
  /-- Queues with registrations of the group, at most 16 (R256). -/
  producers : List Nat := []
  /-- Fetched code by 32-byte sector of virtual address (R237). -/
  fetched : SMap (List Byte) := []
  residence : Residence := .resident
  /-- The position of the group's scratchpad and tiles in its block: the core it was placed on (R107). -/
  home : Nat := 0
  /-- When the latest of its threads parked, in the order of the model's own numbers (R300). -/
  parkedAt : Nat := 0
  tst : Option TileStore := none
  /-- Bin entries of its threads while it is evicted, one bin each (R300). -/
  binned : List Bin := []
  /-- Operands not yet read, in the order of their instructions, and the products among their operations (R131). -/
  late : List Late := []
  products : List Product := []
deriving DecidableEq, Repr

/-! ## Kernels, launches and blocks (R85 to R109, R313) -/

/-- A kernel header (R313). -/
structure KHdr where
  entry : DWord := 0
  width : Nat := 16
  c16 : Bool := false
  encD : Bool := false
  encL : Bool := false
  step : Nat := 0
  ilk : Bool := false
  relaunch : Bool := false
  gang : Bool := false
  vregsD : Nat := 0
  vregsL : Nat := 0
  tiles : Nat := 0
  spad : Nat := 0
  gangReq : Nat := 0
  dtext : DWord := 0
  ltext : DWord := 0
  dentry : DWord := 0
  lentry : DWord := 0
  eqmap : DWord := 0
  eqlen : Nat := 0
deriving DecidableEq, Repr

/-- A launch record that the launch unit tracks (R88 to R101). -/
structure Launch where
  addr : DWord
  part : Nat
  queue : Nat
  /-- Placement order over the whole device (R91). -/
  order : Nat
  status : Nat := 0
  reason : Nat := 0
  hdr : Option KHdr := none
  kargs : DWord := 0
  karglen : Word := 0
  gridX : Nat := 0
  gridY : Nat := 0
  gridZ : Nat := 0
  bthreads : Nat := 0
  bcores : Nat := 0
  gangb : Nat := 1
  cls : Nat := 0
  relaunch : Bool := false
  after : List DWord := []
  parent : Option Nat := none
  parentAddr : DWord := 0
  depth : Nat := 0
  grid : Nat := 0
  /-- The claim counter, the gangs to place again, and the aging rounds (R92, R93, R304). -/
  next : Nat := 0
  again : List Nat := []
  rounds : Nat := 0
  boost : Nat := 0
  live : List Nat := []
  killCause : Option Nat := none
  relaunches : SMap Nat := []
  queued : Bool := true
deriving DecidableEq, Repr

/-- A block's scratchpad region on one core (R192 to R196, R209). -/
structure Region where
  size : Nat
  data : SMap Byte := []
  /-- Absent lines with the copies that owe them bytes (R196). -/
  owed : List (Nat × Nat) := []
  poison : List Nat := []
  barriers : List Nat := []
deriving DecidableEq, Repr

/-- A tile: 64 × 64 elements, row-major, unlisted elements zero (R173). -/
abbrev Tile := SMap Word

structure Block where
  /-- The launch it belongs to; none for a handler wave. -/
  rid : Option Nat
  part : Nat
  index : Nat
  gangb : Nat
  hdr : KHdr
  /-- The gang-map entry: the core at each position of the block (R194). -/
  cores : List Nat
  groups : List Nat
  regions : List Region
  /-- The allotted tiles of each core of the block, by name (R173). -/
  tiles : List (SMap Tile)
  exited : Bool := false
  /-- Which relaunch of its gang it belongs to (R304). -/
  life : Nat := 0
deriving DecidableEq, Repr

/-! ## Memory system (R218 to R263, R360) -/

/-- One pending store: the bytes one instruction writes into one 32-byte sector, or a write-combining line (R223). -/
structure Store where
  seq : Nat
  gid : Nat
  part : Nat
  core : Nat
  /-- The place of the sector's (or line's) first byte. -/
  at_ : Place
  bytes : SMap Byte
  strong : Bool := false
  obj : Word := 0
  sys : Bool := false
  /-- Handed to the request network; applied at its destination. -/
  sent : Bool := false
  applied : Bool := false
  /-- Replies with a lower number left the home before the store was applied. -/
  ackFrom : Nat := 0
  /-- Placed in the L1 by a .CORE push (R268). -/
  pushed : Bool := false
  /-- For each byte whose operand has not been read yet, that operand and which of its bytes it is (R131). -/
  owner : SMap (Nat × Nat) := []
  /-- In a peer's window, the operations that stand for the storing lanes until the peer answers (R333). -/
  pends : List Nat := []
deriving DecidableEq, Repr

/-- A sector of an L1 (R222, R360). -/
structure L1Sector where
  bytes : List Byte
  poison : Bool := false
deriving DecidableEq, Repr

/-- A cached translation of a 64 KiB page: partition, page, physical page, permissions, and how many such pages the leaf
maps: 1, 32 or 16384 (R219, R220). -/
structure TlbEntry where
  part : Nat
  page : Nat
  phys : Nat
  r : Bool
  w : Bool
  x : Bool
  span : Nat := 1
deriving DecidableEq, Repr

/-- A core's cached object entry (R231). -/
structure Lookup where
  id : Word
  base : DWord
  extent : DWord
  sealed : Bool
  known : Bool
deriving DecidableEq, Repr

/-- An object's states (R230). -/
inductive ObjState where
  | idle
  | owned
  | sealed
deriving DecidableEq, Repr

/-- An object table entry (R230). -/
structure ObjEntry where
  id : Word
  base : DWord
  extent : DWord
  cls : Nat
  sealable : Bool
  shared : Bool
  rowAtomic : Bool
  rowLen : Nat
  rowStride : Nat
  part : Nat
  state : ObjState := .idle
  /-- The group whose SEAL or OFREE has begun: further roster requests are refused (R235). -/
  closing : Option Nat := none
  /-- The copy that owns it and that copy's core (R206). -/
  owner : Option (Nat × Nat) := none
  roster : Mask := 0
  gen : BitVec 16 := 0
  /-- The lines a SEAL found (R235). -/
  lines : List Nat := []
deriving DecidableEq, Repr

/-- Pins of one line by one partition (R236). -/
structure Pin where
  line : Nat
  part : Nat
  count : Nat
deriving DecidableEq, Repr

structure Slice where
  objects : SMap ObjEntry := []
  seqs : SMap Nat := []
  roster : Mask := 0
  /-- Lines owned by engines and row operations: line, copy (R206). -/
  owned : List (Nat × Nat) := []
  pins : List Pin := []
deriving DecidableEq, Repr

/-- A lane that a slice queue holds (R255). -/
structure Waiter where
  gid : Nat
  lane : Nat
  pend : Nat
  value : Word := 0
deriving DecidableEq, Repr

/-- A slice queue (R253). -/
structure SQueue where
  base : DWord := 0
  head : Word := 0
  tail : Word := 0
  part : Nat := 0
  /-- 0 UNUSED, 1 LIVE, 2 CLOSED. -/
  state : Nat := 0
  armed : Bool := false
  logcap : Nat := 0
  prod : Nat := 0
  dropped : Nat := 0
  takers : List Waiter := []
  givers : List Waiter := []
deriving DecidableEq, Repr

/-- Where a variable-latency result goes (R130). -/
inductive Dest where
  | none
  | vec (lane : Nat) (regs : List Nat)
  | entry (lane reg pred : Nat)
  | pred (lane p : Nat)
  | uni (regs : List Nat)
  | addr (k : Nat)
  | tile (t width : Nat)
  | answer
deriving DecidableEq, Repr

/-- A variable-latency operation in flight. The thread fields it was issued with go back in place if it traps late
(R221, R243). -/
structure Pend where
  id : Nat
  gid : Nat
  lanes : List Nat
  dest : Dest
  data : List (Option Byte) := []
  /-- Replies still to come. -/
  wait : Nat := 0
  cause : Option (Nat × DWord) := none
  pc : DWord
  rentry : List DWord
  rcount : List Word
  ea : DWord := 0
  dropped : Bool := false
  /-- The issuing fragment's properties (R283). -/
  frag : Nat := 0
  parent : Nat := 0
  sib : Mask := 0
deriving DecidableEq, Repr

/-- An atomic's arithmetic (R200, R242, R243): the operation code, or compare-and-swap. -/
structure AtomOp where
  op : Nat
  ty : Nat
  cas : Bool := false
  padd : Bool := false
  /-- The issue that it belongs to, and its effective address (R244). -/
  issue : Nat := 0
  ea : DWord := 0
  operand : Nat
  comparand : Nat := 0
  /-- PADD2's halves already applied (R245). -/
  lowDone : Bool := false
  highDone : Bool := false
deriving DecidableEq, Repr

/-- The lanes of one request: the pending operation of each and the sum of the operands before it (R244). -/
structure Share2 where
  pend : Nat
  before : Nat
deriving DecidableEq, Repr

inductive ReqKind where
  /-- A read of bytes [off, off + len) of the place's sector into a pending operation from byte `to_`; `fill` installs
  the sector in the L1 (R224). -/
  | load (at_ : Place) (len : Nat) (pend to_ : Nat) (fill : Bool)
  | fill (pa : Nat) (l1 : Bool)
  | store (st : Store)
  | atomic (at_ : Place) (size : Nat) (op : AtomOp) (lanes : List Share2) (obj : Word)
  /-- ROWADD (some type) or ROWLD (none) of a row in physical segments; the bytes to add, and the pending operation and
  byte range of each lane (R250, R251); `issue` says which issue it belongs to (R244). -/
  | row (segs : List (Nat × Nat)) (ty : Option Nat) (add : List Byte) (lanes : List (Nat × Nat × Nat)) (obj : Word)
      (issue : Nat)
  /-- 0 ENQ, 1 DEQ, 2 QTRY, 3 QLEN (R255). -/
  | queue (op n : Nat) (lanes : List Waiter)
  | arrive (at_ : Place) (k : Nat) (pend : Nat)
  | sample (bytes : List (Nat × Byte)) (obj : Word)
  /-- An inspect on its way to the slice that forwards it (R28, R270). -/
  | inspect (id : Nat)
deriving DecidableEq, Repr

/-- A request between a core and a slice (R29). From 128 on, `core` is a device of the domain: 128 and its id. -/
structure Req where
  id : Nat
  core : Nat
  slice : Nat
  gid : Nat
  part : Nat
  kind : ReqKind
deriving DecidableEq, Repr

/-- A reply to a core: bytes for a pending operation, or a cause (R224, R243). `slice` is none for bytes served inside
the core. -/
structure Reply where
  id : Nat
  core : Nat
  slice : Option Nat
  pend : Nat
  to_ : Nat
  bytes : List Byte
  cause : Option (Nat × DWord) := none
  fill : Option (Nat × L1Sector) := none
  /-- The result predicate of DEQ and QTRY: none leaves the register as it is. -/
  got : Bool := true
deriving DecidableEq, Repr

/-! ## Engines (R202 to R216, R264 to R278) -/

/-- A receiver of a copy. -/
structure Receiver where
  pos : Nat
  bid : Nat
  idx : Nat
  dropped : Bool := false
  /-- Rows landed: the walk position of the next sector. -/
  done : Nat := 0
  cleared : Bool := false
deriving DecidableEq, Repr

/-- A copy in flight (R202 to R208). -/
structure Copy where
  core : Nat
  part : Nat
  slot : Nat
  gen : Nat
  /-- The issuing group's block and its core position. -/
  bid : Nat
  idx : Nat
  srcSpace : Nat
  srcObj : Word := 0
  srcBase : DWord
  dstSpace : Nat
  dstBase : DWord
  dim0 : Nat
  dim1 : Nat
  dim2 : Nat
  sstr1 : Int
  sstr2 : Int
  dstr1 : Int
  dstr2 : Int
  bar : Option Nat
  strong : Bool
  obj : Word := 0
  multicast : Bool
  /-- For a GLOBAL destination one receiver, which names no region. -/
  receivers : List Receiver
  owns : Bool := false
  /-- Source bytes read and not yet landed, by walk position; the position that reading has reached; the positions whose
  source sector was uncorrectable, and those whose was corrected. -/
  data : SMap Byte := []
  readTo : Nat := 0
  bad : List Nat := []
  ecc : List Nat := []
  status : BitVec 6 := 0
  drops : Word := 0
  failed : Bool := false
deriving DecidableEq, Repr

/-- An inspect request (R264 to R276). -/
structure Inspect where
  /-- The observer's core at issue; none for the host's and a peer's requests. -/
  core : Option Nat
  gid : Nat
  part : Nat
  form : Nat
  scope : Nat
  lo : Word
  hi : Word
  count : Nat := 0
  /-- The device that a .SYS request goes to. -/
  peer : Option Nat := none
  /-- The slice that takes the snapshot, and whether it has. -/
  slice : Option Nat := none
  snapped : Bool := false
  /-- The request that carries it to a slice, until that forwards it (R28). -/
  req : Option Nat := none
  /-- The groups that a name stands for. -/
  groups : List Nat := []
  /-- Cores that it has not reached, and cores that push and have not acknowledged. -/
  targets : List Nat := []
  pushing : List Nat := []
  /-- Buffer entries whose acknowledgement it waits for: core, and the entry's number, group and place (R268). -/
  awaits : List (Nat × Nat × Nat × Place) := []
  /-- The handles that lanes hold on it: slot, generation; the pending operations of lanes that wait (R267). -/
  handles : List (Nat × Nat) := []
  pends : List Nat := []
deriving DecidableEq, Repr

/-! ## Cores (R14 to R24, R94 to R96, R118) -/

/-- A bundle: fragments of one launch at one PC, as (group, fragment) in ascending (block, group) order (R94). -/
structure Bundle where
  frags : List (Nat × Nat)
  stalled : Bool := false
  /-- The results that were outstanding when it stalled (R95). -/
  waits : List Nat := []
deriving DecidableEq, Repr

/-- A callee queue (R118). -/
structure Callee where
  bid : Nat
  target : DWord
  entries : List Entry
deriving DecidableEq, Repr

/-- A share slot: its block and name, and the group and register of each quarter (R184). -/
structure BShare where
  bid : Nat
  name : Nat
  quarters : List (Option (Nat × Nat))
deriving DecidableEq, Repr

structure Core where
  /-- Generators that have drawn or been reseeded (R76): unlisted lanes stand at the reset seed. -/
  rng : SMap Word := []
  cycle : DWord := 0
  active : List Bundle := []
  pending : List Bundle := []
  bins : List Bin := []
  callees : List Callee := []
  sq : List Store := []
  wt : List Store := []
  wc : List Store := []
  l1 : SMap L1Sector := []
  tlb : List TlbEntry := []
  icache : SMap (List Byte) := []
  lookup : List Lookup := []
  /-- Slices whose plain roster is known to hold the core's bit (R232). -/
  plainKnown : List Nat := []
  /-- Future-table slots in use, and the generation of every slot (R213). -/
  futures : List Nat := []
  gens : SMap Nat := []
  shares : List BShare := []
  /-- Inspect requests queued here, and the most queued, by partition (R271, R275). -/
  insq : List Nat := []
  insMax : SMap Nat := []
  /-- ISTAT counters 0 to 2, by 4 × partition + selector (R275). -/
  istat : SMap Nat := []
  /-- Lane accesses served at least partly from the L1 (R258). -/
  l1Reads : Nat := 0
  replays : Nat := 0
deriving DecidableEq, Repr

/-! ## Partitions, queues, ports and the device (R325 to R349) -/

/-- An error-log entry (R305). -/
structure LogEntry where
  core : Nat := 0
  cause : Nat := 0
  kind : Nat
  grid : Nat := 0
  block : Nat := 0
  count : Nat := 0
  addr : DWord := 0
  seq : DWord := 0
deriving DecidableEq, Repr

/-- A state-port command under way: whether it loads, and what it was given (R345). -/
structure PortCommand where
  load : Bool
  addr : DWord
  pen : Word
  part : Word
deriving DecidableEq, Repr

/-- A partition: its control block, its logs and its mailboxes (R276, R305, R340, R345). -/
structure Partition where
  ctl : Word := 0x00051400
  res : Word := 0
  ways : Word := 0x0000FFFF
  lqueues : DWord := 0
  privq : DWord := 0
  ptroot : DWord := 0
  faultring : DWord := 0
  handler : DWord := 0
  savearea : DWord := 0
  savesize : DWord := 0
  linktmo : Word := 100
  flags : Word := 0
  dbstat : Word := 0
  /-- Doorbell actions whose effect is there, their DBSTAT bits not yet clear (R341). -/
  dbdone : Word := 0
  qnum : Word := 0
  qlogcap : Word := 0
  qbase : DWord := 0
  qresult : Word := 0
  /-- Fault-ring slots in use and the slot last taken (R282). -/
  ring : List Nat := []
  ringLast : Nat := 4095
  /-- Lanes waiting for a ring slot, oldest first. -/
  ringWait : List (Nat × Nat) := []
  /-- Collectors, by stack: lanes oldest first (R289). -/
  collect : SMap (List (Nat × Nat)) := []
  handlerBad : Bool := false
  log : List LogEntry := []
  logSeq : DWord := 0
  samples : Nat := 0
  stale : SMap Nat := []
  /-- The debug mailbox (R345): pennants of halted lanes, oldest first. -/
  halted : List (Nat × Nat) := []
  hcode : Word := 0
  hpc : DWord := 0
  hgroup : Word := 0
  hflag : Bool := false
  dsaddr : DWord := 0
  dspen : Word := 0
  dspart : Word := 0
  dsresult : Word := 0
  /-- The state-port command under way (R345). -/
  dsbusy : Option PortCommand := none
  /-- HINSPECT (R276). -/
  hname : DWord := 0
  hcount : Word := 0
  hform : Word := 0
  hdone : DWord := 0
  /-- The inspect under way, none where its checks failed; its sequence; the result of its checks. -/
  hbusy : Option (Option Nat × Word × Nat) := none
  hlost : Bool := false
  hresult : Word := 0
  /-- Evicted by a time-slice switch (R301). -/
  slicedOut : Bool := false
deriving DecidableEq, Repr

/-- A launch queue's controls and its port's error word (R326, R328). -/
structure LQueue where
  chunk : Nat := 1
  aging : Nat := 32
  prio : Nat := 0
  cmask0 : DWord := 0xFFFFFFFFFFFFFFFF
  cmask1 : DWord := 0xFFFFFFFFFFFFFFFF
  errAddr : DWord := 0
  errValid : Bool := false
  errCount : Nat := 0
  errReason : Nat := 0
  /-- The records in the queue, oldest first. -/
  records : List Nat := []
deriving DecidableEq, Repr

/-- A region table entry (R342). -/
structure MemRegion where
  owners : BitVec 8 := 0
  base : BitVec 26 := 0
  secure : Bool := false
  valid : Bool := false
  size : Word := 0
deriving DecidableEq, Repr

/-- A posted receive buffer: its descriptor, where it lies and what it holds (R336). -/
structure RecvBuf where
  idx : Nat
  addr : DWord
  cap : Nat
deriving DecidableEq, Repr

/-- A request sent on a RoCE context: its descriptor, its first and last PSN, for an RDMA READ where its data go, their
length and how much has landed, and whether it is acknowledged or all there (R336, R338). -/
structure RoceReq where
  idx : Nat
  first : BitVec 24
  last : BitVec 24
  read : Bool := false
  addr : DWord := 0
  len : Nat := 0
  got : Nat := 0
  packets : Nat := 0
  acked : Bool := false
  /-- The STATUS of one that failed before it was sent and waits for its turn to complete (R336). -/
  fail : Option Nat := none
deriving DecidableEq, Repr

/-- What a RoCE context puts into the headers of its packets (R338): the remote queue pair, the UDP source port, traffic
class and hop limit, the next hop's MAC address, the destination's and the source's address. -/
structure RoceHeader where
  dqpn : BitVec 24 := 0
  sport : BitVec 16 := 0
  tclass : Byte := 0
  hoplimit : Byte := 0
  dmac : BitVec 48 := 0
  dgid : BitVec 128 := 0
  sgid : BitVec 128 := 0
deriving DecidableEq, Repr

/-- A RoCE context as the port holds it (R338). -/
structure RoceContext where
  state : Nat := 0
  header : RoceHeader := {}
  /-- The acknowledgement timeout is 4.096 µs × 2 to this power. -/
  timeout : Byte := 0
  spsn : BitVec 24 := 0
  retry : Nat := 0
  rpsn : BitVec 24 := 0
  tries : Nat := 0
  /-- Requests not yet completed, oldest first. -/
  out : List RoceReq := []
  /-- A SEND being received: its buffer and the bytes so far. -/
  recv : Option (RecvBuf × Nat) := none
deriving DecidableEq, Repr

/-- A Bowline frame that is not acknowledged: its sequence number, its descriptor, whether it is the last of its message,
how often it went out again (R337); or a message that failed before it was sent and waits for its turn to complete, with
its STATUS (R336). -/
structure BowlineSent where
  seq : Word
  idx : Nat
  last : Bool
  tries : Nat := 0
  fail : Option Nat := none
deriving DecidableEq, Repr

/-- The Bowline state towards one destination: the next sequence number, and what is not acknowledged, oldest first
(R337). -/
structure BowlineOut where
  next : Word := 0
  out : List BowlineSent := []
deriving DecidableEq, Repr

/-- What a frame that a port sends is: Bowline's four kinds (R337), or a RoCE packet (R338). -/
inductive FrameKind where
  | blWrite
  | blFlag
  | blAck
  | blNak
  | send
  | write
  | readRequest
  | readResponse
  | ack
  | rnrNak
  | accessNak
  | invalidNak
deriving DecidableEq, Repr

/-- A frame that a port has sent: what the wire carries of it. `dest` is the receiver's MAC address under Bowline, the
port's own context under RoCE; `seq` is the sequence number or PSN; `imm` is IMM, or the remote key. -/
structure TxFrame where
  port : Nat
  kind : FrameKind
  dest : Nat
  seq : Word
  addr : DWord := 0
  imm : Word := 0
  payload : List Byte := []
  /-- A RoCE packet's header fields. -/
  header : RoceHeader := {}
deriving DecidableEq, Repr

structure Port where
  mac : BitVec 48 := 0
  ctl : Word := 4096
  desclog : Nat := 6
  descbase : DWord := 0
  sendq : Nat := 0
  recvq : Nat := 0
  cq : Nat := 0
  qpbase : DWord := 0
  qpcount : Nat := 0
  keycount : Nat := 0
  keybase : DWord := 0
  rxbase : DWord := 0
  rxlen : DWord := 0
  bltmo : Word := 100
  range : Bool := false
  notq : Bool := false
  txframes : Nat := 0
  rxframes : Nat := 0
  rxdrops : Nat := 0
  resends : Nat := 0
  contexts : SMap RoceContext := []
  blOut : SMap BowlineOut := []
  blIn : SMap Word := []
  posted : List RecvBuf := []
  /-- Completions that wait for room on CQ, oldest first (R336). -/
  held : List Word := []
deriving DecidableEq, Repr

/-- What the schedule names as the machine's next moves: a bundle of a core, or an event of the opcode table. -/
inductive Move where
  | issue (core index : Nat)
  | event (i : Instr)
deriving DecidableEq, Repr

/-- What the device answers to the host's reads and to peers. -/
inductive Answer where
  | host (bytes : List Byte)
  | peer (device : Nat) (bytes : List Byte) (cause : Option Nat)
deriving DecidableEq, Repr

structure State where
  /-- Device memory and the system windows by physical address (R27, R332); unlisted bytes read zero. -/
  mem : SMap Byte := []
  /-- Poisoned 32-byte sectors of device memory (R360). -/
  poison : List Nat := []
  groups : SMap Group := []
  blocks : SMap Block := []
  launches : SMap Launch := []
  cores : SMap Core := []
  slices : SMap Slice := []
  /-- The slice TLBs of each stack (R220). -/
  stlb : SMap (List TlbEntry) := []
  squeues : SMap SQueue := []
  pends : SMap Pend := []
  net : List Req := []
  replies : List Reply := []
  copies : SMap Copy := []
  inspects : SMap Inspect := []
  parts : SMap Partition := []
  lqueues : SMap LQueue := []
  regions : SMap MemRegion := []
  ports : SMap Port := []
  /-- The arbiter's last grant at each priority of each stack: queue, order (R93). -/
  granted : SMap (Nat × Nat) := []
  winbase : DWord := 0
  winen : Bool := false
  bar2Size : Nat := 0x40000000
  domain : Nat := 0
  /-- The devices of the Veleel domain, by id. -/
  members : BitVec 64 := 0
  stepping : Nat := 0x40
  serial : Nat := 0
  /-- The ports' assigned MAC addresses, which a cold reset gives them (R335): the module's own, from manufacture. -/
  macs : SMap (BitVec 48) := []
  nonce : List Byte := []
  /-- A report is being built; a report is complete (R347). -/
  attesting : Bool := false
  attested : Bool := false
  report : List Byte := []
  bindings : List Binding := []
  firmware : List (BitVec 512) := []
  /-- Stopped by loss of cooling until cold reset; stacks with lowered clocks (R349). -/
  stopped : Bool := false
  slowed : List Nat := []
  /-- Attempts of non-secure host accesses on secure state (R343). -/
  secureLog : Nat := 0
  /-- MSI-X vectors raised, newest first (R325). -/
  msix : List Nat := []
  /-- Answers given, newest first (R325, R329, R333). -/
  answers : List Answer := []
  /-- Frames sent, newest first (R334). -/
  wire : List TxFrame := []
  /-- Residue mismatches that the next checked operation will meet (R302): the environment's. -/
  residue : Nat := 0
  /-- Corrected errors that the engines' next source sectors meet (R207): the environment's. -/
  corrected : Nat := 0
  /-- Lines that a copy has written, with the cores whose L1s may hold older bytes of them (FS-9 of R279). -/
  landed : List (List Nat × Mask) := []
  /-- Placement and pending-operation numbers, the model's own. -/
  placed : Nat := 0
  seq : Nat := 0
  /-- Which free value or choice the next use takes (Config). -/
  freeCtr : Nat := 0
  /-- The moves to come; when it is empty the default order applies. -/
  schedule : List Move := []
  /-- The turns that the default order has given (the model's own field). -/
  turn : Nat := 0
  /-- The bundle at issue and the bundle's core (R94). -/
  cur : Option (Nat × Bundle) := none
deriving DecidableEq, Repr

/-- A core's default bindings: front end n of each class drives its own slab (R16, R18). -/
def defaultBindings : List Binding :=
  (List.range 4).flatMap fun stack =>
    ((List.range 24).map fun n =>
      { stack := stack, latency := false, frontEnd := n, lowSlab := n, lowHi := false, highSlab := n, highHi := true })
    ++ ((List.range 8).map fun n =>
      { stack := stack, latency := true, frontEnd := n, lowSlab := n, lowHi := false, highSlab := n, highHi := true })

/-- The device after a cold reset with the default bindings (R16 to R18, R24, R76, R213, R229, R325, R328, R340, R348):
no partition, no launch, no block, every table empty, every counter zero. -/
def State.reset : State := { bindings := defaultBindings }

/-! Memory in its canonical form. -/

/-- The canonical form of memory: addresses strictly rising, no listed byte zero. -/
def Memory.wf (m : SMap Byte) : Bool := mapOk (0 : Byte) 0 m

end Sys2Proof.Machine
end

