-- ==== Sys2Proof/Machine/Memory.lean ====
section
/-! DEFINITION. Named access to the device's tables, the free choices, physical memory and its homes (R25 to R27), the
page tables (R218 to R220), memory quotas and worlds (R342, R343), and the error log (R305). -/

namespace Sys2Proof.Machine

/-! Free values and choices: each use takes the next element of Config's stream. -/

/-- One of n choices. -/
def State.pick (s : State) (n : Nat) : Nat × State :=
  (Config.choice s.freeCtr % n, { s with freeCtr := s.freeCtr + 1 })

/-- A free 64-bit value. -/
def State.free (s : State) : DWord × State :=
  (Config.freeWord s.freeCtr, { s with freeCtr := s.freeCtr + 1 })

/-- A number no operation in flight has. -/
def State.fresh (s : State) : Nat × State := (s.seq, { s with seq := s.seq + 1 })

/-! Tables. -/

def State.part (s : State) (p : Nat) : Partition := mapGet {} s.parts p
def State.setPart (s : State) (p : Nat) (f : Partition → Partition) : State :=
  { s with parts := mapPut {} p (f (s.part p)) s.parts }

def State.core (s : State) (c : Nat) : Core := mapGet {} s.cores c
def State.setCore (s : State) (c : Nat) (f : Core → Core) : State :=
  { s with cores := mapPut {} c (f (s.core c)) s.cores }

def State.slice (s : State) (k : Nat) : Slice := mapGet {} s.slices k
def State.setSlice (s : State) (k : Nat) (f : Slice → Slice) : State :=
  { s with slices := mapPut {} k (f (s.slice k)) s.slices }

def State.squeue (s : State) (n : Nat) : SQueue := mapGet {} s.squeues n
def State.setSQueue (s : State) (n : Nat) (f : SQueue → SQueue) : State :=
  { s with squeues := mapPut {} n (f (s.squeue n)) s.squeues }

def State.lqueue (s : State) (q : Nat) : LQueue := mapGet {} s.lqueues q
def State.setLQueue (s : State) (q : Nat) (f : LQueue → LQueue) : State :=
  { s with lqueues := mapPut {} q (f (s.lqueue q)) s.lqueues }

def State.port (s : State) (n : Nat) : Port := mapGet {} s.ports n
def State.setPort (s : State) (n : Nat) (f : Port → Port) : State :=
  { s with ports := mapPut {} n (f (s.port n)) s.ports }

def State.region (s : State) (n : Nat) : MemRegion := mapGet {} s.regions n
def State.setRegion (s : State) (n : Nat) (r : MemRegion) : State :=
  { s with regions := mapPut {} n r s.regions }

def State.group? (s : State) (g : Nat) : Option Group := mapFind g s.groups
def State.setGroup (s : State) (g : Nat) (f : Group → Group) : State := { s with groups := mapUpdate g f s.groups }

def State.block? (s : State) (b : Nat) : Option Block := mapFind b s.blocks
def State.setBlock (s : State) (b : Nat) (f : Block → Block) : State := { s with blocks := mapUpdate b f s.blocks }

def State.launch? (s : State) (r : Nat) : Option Launch := mapFind r s.launches
def State.setLaunch (s : State) (r : Nat) (f : Launch → Launch) : State :=
  { s with launches := mapUpdate r f s.launches }

def State.setCopy (s : State) (c : Nat) (f : Copy → Copy) : State := { s with copies := mapUpdate c f s.copies }
def State.setInspect (s : State) (n : Nat) (f : Inspect → Inspect) : State :=
  { s with inspects := mapUpdate n f s.inspects }
def State.setPend (s : State) (n : Nat) (f : Pend → Pend) : State := { s with pends := mapUpdate n f s.pends }

/-- Changes element i of a list. -/
def listUpdate {α : Type} (i : Nat) (f : α → α) : List α → List α
  | [] => []
  | x :: xs =>
    match i with
    | 0 => f x :: xs
    | i + 1 => x :: listUpdate i f xs

def Group.thread? (g : Group) (l : Nat) : Option Thread := g.threads[l]?

def Group.setThread (g : Group) (l : Nat) (f : Thread → Thread) : Group :=
  { g with threads := listUpdate l f g.threads }

def State.thread? (s : State) (g l : Nat) : Option Thread := (s.group? g).bind (·.thread? l)

def State.setThread (s : State) (g l : Nat) (f : Thread → Thread) : State := s.setGroup g (·.setThread l f)

/-- The launch of a group, none for a handler wave. -/
def State.launchOf (s : State) (g : Group) : Option (Nat × Launch) :=
  (s.block? g.bid).bind fun b => b.rid.bind fun r => (s.launch? r).map fun l => (r, l)

/-- sr.grid (R87, R290). -/
def State.gridOf (s : State) (g : Group) : Nat :=
  match s.launchOf g with
  | some (_, l) => l.grid
  | none => 0

/-- sr.depth (R87, R290). -/
def State.depthOf (s : State) (g : Group) : Nat :=
  match s.launchOf g with
  | some (_, l) => l.depth
  | none => 0

/-! Partition fields (R340). -/

def Partition.enabled (p : Partition) : Bool := p.ctl.getLsbD 0
def Partition.secure (p : Partition) : Bool := p.ctl.getLsbD 1
def Partition.dbgen (p : Partition) : Bool := p.ctl.getLsbD 2
def Partition.haltsib (p : Partition) : Bool := p.ctl.getLsbD 3
def Partition.forceilk (p : Partition) : Bool := p.ctl.getLsbD 4
def Partition.migpol (p : Partition) : Bool := p.ctl.getLsbD 5
def Partition.retrymax (p : Partition) : Nat := (p.ctl.extractLsb' 8 4).toNat
def Partition.relaunchmax (p : Partition) : Nat := (p.ctl.extractLsb' 12 3).toNat
def Partition.samplek (p : Partition) : Nat := (p.ctl.extractLsb' 15 5).toNat
def Partition.coresets (p : Partition) : BitVec 16 := p.res.extractLsb' 0 16
/-- The D-core width of the partition in a stack (R19). -/
def Partition.dwidth (p : Partition) (stack : Nat) : Nat := 32 * 2 ^ (p.res.extractLsb' (16 + 2 * stack) 2).toNat
def Partition.portset (p : Partition) : BitVec 8 := p.res.extractLsb' 24 8
def Partition.pinways (p : Partition) : Nat := (p.ways.extractLsb' 16 4).toNat

/-- The core set of a core (R339): set 4s + i. -/
def coreSet (c : Nat) : Nat := 4 * (c / 32) + c % 32 / 8

/-- A core is bound (R17). -/
def State.bound (s : State) (c : Nat) : Bool :=
  s.bindings.any fun b =>
    b.stack == c / 32 && b.latency == decide (24 ≤ c % 32)
      && ((s.bindings.filter fun d => d.stack == b.stack && d.latency == b.latency && d.frontEnd < b.frontEnd).length
        == (if c % 32 < 24 then c % 32 else c % 32 - 24))

/-- A core of a partition that fetches: its set is owned, it is bound, and under ganging it is the lead with every
member bound (R17 to R20). -/
def State.enabledCore (s : State) (p c : Nat) : Bool :=
  let part := s.part p
  let w := if c % 32 < 24 then part.dwidth (c / 32) / 32 else 1
  decide (c < 128) && part.enabled && part.coresets.getLsbD (coreSet c) && c % 32 % w == 0
    && (List.range w).all fun i => s.bound (c + i)

/-- The lanes of a core as the partition has it (R19, R23). -/
def State.lanes (s : State) (p c : Nat) : Nat := if c % 32 < 24 then (s.part p).dwidth (c / 32) else 16

def coreEnc (c : Nat) : Enc := if c % 32 < 24 then .d else .l

/-- The partition whose enabled core this is. -/
def State.corePart (s : State) (c : Nat) : Option Nat := (List.range 8).find? fun p => s.enabledCore p c

/-! Core SRAM (R14, R21, R192). -/

def roundUp (n k : Nat) : Nat := (n + k - 1) / k * k

/-- SRAM and tile store of a core of n lanes (R14, R21). -/
def coreSram (n : Nat) : Nat := 1536 * 1024 * max 1 (n / 32)
def coreTiles (n : Nat) : Nat := 256 * max 1 (n / 32)

/-- The positions of blocks on a core: block, position. Those of a partition that is switched out hold nothing there. -/
def State.positions (s : State) (c : Nat) : List (Nat × Block × Nat) :=
  s.blocks.flatMap fun (bid, b) =>
    if (s.part b.part).slicedOut then []
    else ((List.range b.cores.length).filter fun i => b.cores[i]? == some c).map fun i => (bid, b, i)

/-- Scratchpad bytes that regions hold on a core (R192). -/
def State.spadUsed (s : State) (c : Nat) : Nat :=
  ((s.positions c).map fun (_, b, _) => roundUp b.hdr.spad 4096).foldl (· + ·) 0

/-- The lines that a core's L1 has room for: what the scratchpad pool leaves of the SRAM (R192, R222). -/
def State.l1Lines (s : State) (c : Nat) : Nat :=
  let lanes := match s.corePart c with
    | some p => s.lanes p c
    | none => 32
  (coreSram lanes - roundUp (s.spadUsed c) 131072) / 128

/-! Physical memory (R27, R332, R360). -/

/-- What a physical address is (R27, R332). -/
inductive PaKind where
  | near (stack : Nat)
  | far
  | reserved
  | peer (device : Nat)
  | host
deriving DecidableEq, Repr

def paKind (pa : Nat) : PaKind :=
  if pa < 0x3000000000 then .near (pa / 0xC00000000)
  else if pa < 0x4000000000 then .reserved
  else if pa < 0xC000000000 then .far
  else if pa < 0x100000000000 then .reserved
  else if pa < 0x100000000000 + 64 * 0x10000000000 then .peer ((pa - 0x100000000000) / 0x10000000000)
  else if 0x80000000000000 ≤ pa && pa < 0x100000000000000 then .host
  else .reserved

def isPeer (pa : Nat) : Bool :=
  match paKind pa with
  | .peer _ => true
  | _ => false

/-- Near or far memory. -/
def inDevice (pa : Nat) : Bool :=
  match paKind pa with
  | .near _ => true
  | .far => true
  | _ => false

/-- Home (R26): a slice of the stack for near memory, any slice otherwise. The hash looks at bits [55:7]. -/
def homeOf (pa : Nat) : Nat :=
  match paKind pa with
  | .near k => 32 * k + Config.homeHash (pa / 128) % 32
  | _ => Config.homeHash (pa / 128) % 128

def State.byte (s : State) (pa : Nat) : Byte := mapGet 0 s.mem pa

/-- The n bytes from an address. -/
def State.bytes (s : State) (pa n : Nat) : List Byte := (List.range n).map fun i => s.byte (pa + i)

/-- A little-endian number of n bytes (R3). -/
def State.num (s : State) (pa n : Nat) : Nat := leNat (s.bytes pa n)

def memWrite (m : SMap Byte) (pa : Nat) : List Byte → SMap Byte
  | [] => m
  | b :: bs => memWrite (mapPut 0 pa b m) (pa + 1) bs

/-- Sectors wholly inside [pa, pa + n). -/
def wholeSectors (pa n : Nat) : List Nat :=
  let first := (pa + 31) / 32
  (List.range ((pa + n) / 32 - first)).map (first + ·)

/-- Writes bytes at their home: a sector whose 32 bytes are all replaced is good again (R360). -/
def State.write (s : State) (pa : Nat) (bs : List Byte) : State :=
  let whole := wholeSectors pa bs.length
  { s with mem := memWrite s.mem pa bs, poison := s.poison.filter fun k => !whole.contains k }

def State.writeNum (s : State) (pa n x : Nat) : State := s.write pa (leBytes n x)

def State.poisoned (s : State) (pa n : Nat) : Bool := s.poison.any fun k => pa < 32 * (k + 1) && 32 * k < pa + n

/-! Translation (R218 to R220). -/

/-- A table or page address from an entry: bits [55:8], aligned. -/
def entryAddr (e : Nat) (log : Nat) : Nat := e % 2 ^ 56 / 2 ^ log * 2 ^ log

def leafEntry (part va e phys span : Nat) : TlbEntry :=
  { part := part, page := va / 65536, phys := phys, r := e.testBit 2, w := e.testBit 3, x := e.testBit 4, span := span }

/-- The page walk of a 56-bit address; none where some level has V = 0. -/
def State.walk (s : State) (part va : Nat) : Option TlbEntry :=
  let e3 := s.num (entryAddr (s.part part).ptroot.toNat 16 + 8 * (va / 2 ^ 43)) 8
  if !e3.testBit 0 then none
  else
    let e2 := s.num (entryAddr e3 16 + 8 * (va / 2 ^ 30 % 8192)) 8
    if !e2.testBit 0 then none
    else if e2.testBit 1 then some (leafEntry part va e2 (entryAddr e2 30 + va % 2 ^ 30 / 65536 * 65536) 16384)
    else
      let e1 := s.num (entryAddr e2 12 + 8 * (va / 2 ^ 21 % 512)) 8
      if !e1.testBit 0 then none
      else if e1.testBit 1 then some (leafEntry part va e1 (entryAddr e1 21 + va % 2 ^ 21 / 65536 * 65536) 32)
      else
        let e0 := s.num (entryAddr e1 8 + 8 * (va / 65536 % 32)) 8
        if !e0.testBit 0 then none else some (leafEntry part va e0 (entryAddr e0 16) 1)

def tlbFind (part page : Nat) (t : List TlbEntry) : Option TlbEntry :=
  t.find? fun e => e.part == part && e.page == page

def tlbAdd (e : TlbEntry) (cap : Nat) (t : List TlbEntry) : List TlbEntry :=
  (e :: t.filter fun x => !(x.part == e.part && x.page == e.page)).take cap

/-- Enters a translation in the core's TLB and in its stack's slice TLBs (R220). -/
def State.tlbFill (s : State) (core : Nat) (e : TlbEntry) : State :=
  let s := s.setCore core fun c => { c with tlb := tlbAdd e 256 c.tlb }
  { s with stlb := mapPut [] (core / 32) (tlbAdd e (32 * 4096) (mapGet [] s.stlb (core / 32))) s.stlb }

/-- A translation as an access of a core sees it: a cached one may be used, or may have been replaced and walked afresh
(R220). -/
def State.translate (s : State) (core part va : Nat) : Option TlbEntry × State :=
  let page := va / 65536
  let walked := fun (s : State) =>
    match s.walk part va with
    | some e => (some e, s.tlbFill core e)
    | none => (none, s)
  match (tlbFind part page (s.core core).tlb).orElse fun _ => tlbFind part page (mapGet [] s.stlb (core / 32)) with
  | some e =>
    let (k, s) := s.pick 2
    if k == 0 then (some e, s.tlbFill core e) else walked s
  | none => walked s

def TlbEntry.pa (e : TlbEntry) (va : Nat) : Nat := e.phys + va % 65536

/-- The regions that hold a physical address (R342). -/
def MemRegion.holds (r : MemRegion) (pa : Nat) : Bool :=
  r.valid && r.base.toNat * 2 ^ 30 ≤ pa && pa < (r.base.toNat + r.size.toNat) * 2 ^ 30

/-- The partition's quota and world admit a page of device memory (R221 order 4, R342, R343). -/
def State.admits (s : State) (part pa : Nat) : Bool :=
  s.regions.any fun (_, r) => r.holds pa && r.owners.getLsbD part && (!r.secure || (s.part part).secure)

/-- The access of an engine or of the device itself in a partition's address space: translated, of the right kind and in
its memory. The cause otherwise. -/
def State.deviceAccess (s : State) (part va : Nat) (write : Bool) : Except Nat Nat :=
  if 2 ^ 56 ≤ va then .error 0x16
  else
    match s.walk part va with
    | none => .error 0x06
    | some e =>
      if (if write then !e.w else !e.r) then .error 0x07
      else if inDevice (e.pa va) then (if s.admits part (e.pa va) then .ok (e.pa va) else .error 0x07)
      else .error 0x16

/-- Bytes read by the device in a partition's address space, as strong loads. -/
def State.deviceRead (s : State) (part va : Nat) : Nat → Except Nat (List Byte)
  | 0 => .ok []
  | n + 1 =>
    match s.deviceAccess part va false with
    | .error c => .error c
    | .ok pa =>
      match State.deviceRead s part (va + 1) n with
      | .error c => .error c
      | .ok bs => .ok (s.byte pa :: bs)

/-- Bytes written by the device as strong stores at their homes; unchanged where a byte cannot be written. -/
def State.deviceWrite (s : State) (part va : Nat) (bs : List Byte) : Except Nat State :=
  match (List.range bs.length).mapM fun i => s.deviceAccess part (va + i) true with
  | .error c => .error c
  | .ok pas =>
    match pas, (List.range bs.length).all fun i => pas[i]? == pas.head?.map (· + i) with
    | pa :: _, true => .ok (s.write pa bs)
    | _, _ => .ok ((pas.zip bs).foldl (fun s (pa, b) => s.write pa [b]) s)

/-- The virtual addresses in [base, base + n) that a physical address is reached by in a partition's address space. -/
def State.vasOf (s : State) (part base n pa : Nat) : List Nat :=
  (List.range ((base + n + 65535) / 65536 - base / 65536)).filterMap fun i =>
    let page := base / 65536 + i
    match s.walk part (65536 * page) with
    | none => none
    | some e =>
      let va := 65536 * page + (pa - e.phys)
      if e.phys ≤ pa && pa < e.phys + 65536 && base ≤ va && va < base + n then some va else none

/-! The error log (R305) and the interrupts to the host (R325). -/

def State.logError (s : State) (part : Nat) (e : LogEntry) : State :=
  s.setPart part fun p =>
    let log := p.log ++ [{ e with seq := p.logSeq }]
    { p with log := if 256 < log.length then log.drop (log.length - 256) else log, logSeq := p.logSeq + 1 }

def State.raise (s : State) (vector : Nat) : State := { s with msix := vector :: s.msix }

end Sys2Proof.Machine
end

