-- ==== Sys2Proof/Machine/Ops.lean ====
section
/-! DEFINITION. The shared operations on threads: fragments (R110), wake-ups (R103), rejoin masks (R113), leaving (R102,
R256), the settling of launches (R90, R91, R101, R304), taking an exception and returning from one (R282 to R294), and
retiring an instruction. -/

namespace Sys2Proof.Machine

/-! Lane masks. -/

def maskHas (m : Mask) (l : Nat) : Bool := m.getLsbD l
def maskOf (ls : List Nat) : Mask := ls.foldl (fun m l => m ||| ((1 : Mask) <<< l)) 0
def maskDrop (m : Mask) (ls : List Nat) : Mask := m &&& ~~~(maskOf ls)

/-- One bit of a predicate file; bit 7 reads true and takes no write (R137, R156). -/
def getBit8 (p : BitVec 8) (i : Nat) : Bool := i == 7 || p.getLsbD i
def setBit8 (p : BitVec 8) (i : Nat) (b : Bool) : BitVec 8 :=
  if 7 ≤ i then p else BitVec.ofNat 8 (p.toNat - (if p.getLsbD i then 2 ^ i else 0) + (if b then 2 ^ i else 0))

/-! Threads and fragments. -/

def TState.issuable : TState → Bool
  | .ready => true
  | .running => true
  | _ => false

def TState.isExited : TState → Bool
  | .exited => true
  | _ => false

/-- What a thread in this state is parked on, through eviction and halts (R103). -/
def TState.parkedOn : TState → Option Park
  | .parked p => some p
  | .evicted w => w.parkedOn
  | .halted w => w.parkedOn
  | _ => none

/-- The state once the park's event has occurred: an evicted or halted thread records it (R103). -/
def TState.woken : TState → TState
  | .parked _ => .ready
  | .evicted w => .evicted w.woken
  | .halted w => .halted w.woken
  | t => t

def Group.lanesWhere (g : Group) (f : Thread → Bool) : List Nat :=
  (List.range g.threads.length).filter fun l =>
    match g.threads[l]? with
    | some t => f t
    | none => false

/-- The lanes of a fragment that can issue. -/
def Group.fragLanes (g : Group) (fid : Nat) : List Nat := g.lanesWhere fun t => t.st.issuable && t.frag == fid

def Group.live (g : Group) : List Nat := g.lanesWhere fun t => !t.st.isExited

def Group.fragInfo (g : Group) (fid : Nat) : Frag :=
  (g.frags.find? (·.id == fid)).getD { id := fid, parent := 0, sib := maskOf (List.range g.width) }

/-- The fragment of lanes that stand in one. -/
def Group.fragOf (g : Group) (lanes : List Nat) : Nat := ((lanes.head?.bind g.thread?).map (·.frag)).getD 0

/-- The PC of a fragment. -/
def Group.fragPc (g : Group) (fid : Nat) : DWord :=
  match g.fragLanes fid with
  | l :: _ => ((g.thread? l).map (·.pc)).getD 0
  | [] => 0

/-- The least id that no live thread's fragment has (R110; notes/assumptions/12). -/
def Group.freshFrag (g : Group) : Nat :=
  let used := g.live.filterMap fun l => (g.thread? l).map (·.frag)
  ((List.range 256).find? fun i => !used.contains i).getD 0

/-- Forgets the properties of fragments that no live thread has. -/
def Group.pruneFrags (g : Group) : Group :=
  let used := g.live.filterMap fun l => (g.thread? l).map (·.frag)
  { g with frags := g.frags.filter fun f => used.contains f.id }

/-- Gives lanes a fragment of their own. -/
def Group.putFrag (g : Group) (lanes : List Nat) (parent : Nat) (sib : Mask) : Group :=
  let fid := g.freshFrag
  let g := { g with frags := { id := fid, parent := parent, sib := sib } :: g.frags }
  lanes.foldl (fun g l => g.setThread l fun t => { t with frag := fid }) g

/-- Lanes that become issuable at one PC: they keep their fragment's id where no other thread still carries it
(notes/assumptions/12). -/
def Group.regroup (g : Group) (lanes : List Nat) : Group :=
  match lanes with
  | [] => g
  | l :: _ =>
    let fid := ((g.thread? l).map (·.frag)).getD 0
    let others := g.live.filter fun k => !lanes.contains k && ((g.thread? k).map (·.frag)).getD 0 == fid
    if others.isEmpty then g
    else
      let info := g.fragInfo fid
      (g.putFrag lanes info.parent info.sib).pruneFrags

/-- The lanes in classes of equal key, each class in ascending lane order, classes in order of their first lane. -/
def classes {κ : Type} [DecidableEq κ] (key : Nat → κ) : List Nat → List (κ × List Nat)
  | [] => []
  | l :: ls =>
    let rest := classes key ls
    match rest.find? fun c => c.1 == key l with
    | some c => (key l, l :: c.2) :: rest.filter fun d => !(d.1 == key l)
    | none => (key l, [l]) :: rest

/-- Lanes of one PC become one fragment: it keeps the id, parent and siblings of the part that holds the lowest lane
(R94, R110). -/
def Group.mergeLanes (g : Group) (lanes : List Nat) : Group :=
  match lanes with
  | [] => g
  | l :: _ =>
    let fid := ((g.thread? l).map (·.frag)).getD 0
    let info := g.fragInfo fid
    let g := if (g.live.filter fun k => !lanes.contains k && ((g.thread? k).map (·.frag)) == some fid).isEmpty then
        lanes.foldl (fun g l => g.setThread l fun t => { t with frag := fid }) g
      else g.putFrag lanes info.parent info.sib
    g.pruneFrags

/-- The issuable lanes at a PC. -/
def Group.lanesAt (g : Group) (pc : DWord) : List Nat := g.lanesWhere fun t => t.st.issuable && t.pc == pc

/-- Wakes parked lanes (R103), each class of one PC and fragment together. -/
def Group.wake (g : Group) (lanes : List Nat) : Group :=
  let g := lanes.foldl (fun g l => g.setThread l fun t => { t with st := t.st.woken }) g
  let key := fun l => match g.thread? l with
    | some t => (t.pc, t.frag)
    | none => (0, 0)
  (classes key lanes).foldl (fun g c => g.regroup c.2) g

/-! Operands read after issue (R131, R132). -/

/-- A lane's counter of operand reads (R132). -/
def Thread.count (t : Thread) (c : Counter) (f : Nat → Nat) : Thread :=
  match c with
  | .stores => { t with stores := f t.stores }
  | .copies => { t with copies := f t.copies }
  | .tiles => { t with tiles := f t.tiles }

/-- Operands have been read (R132). -/
def Group.closeLate (g : Group) (sel : Late → Bool) : Group :=
  if g.late.any sel then
    let g := (g.late.filter sel).foldl (fun g r => g.setThread r.lane (·.count r.counter (· - 1))) g
    let left := g.late.filter fun r => !sel r
    { g with late := left, products := g.products.filter fun p => left.any fun r => r.use == .product p.num }
  else g

/-! Rejoin masks (R113, R114). -/

/-- Check(j): releases the waiters once every member has arrived. -/
def Group.checkJoin (g : Group) (j : Nat) : Group :=
  let m := mapGet {} g.j j
  if m.members &&& ~~~m.arrived = 0 ∧ (m.members ≠ 0 ∨ m.arrived ≠ 0) then
    let g := { g with j := mapPut {} j {} g.j }
    g.wake (g.lanesWhere fun t => t.st.parkedOn == some (.join j))
  else g

/-- Takes a lane out of every mask (R113). -/
def Group.leaveJoins (g : Group) (lane : Nat) : Group :=
  (List.range 16).foldl (fun g j =>
    let m := mapGet {} g.j j
    if maskHas m.members lane || maskHas m.arrived lane then
      Group.checkJoin { g with j := mapPut {} j { members := maskDrop m.members [lane]
                                                  arrived := maskDrop m.arrived [lane] } g.j } j
    else g) g

/-! Launch records (R88 to R101): the launch unit's writes are strong stores at their homes (R89). -/

/-- A number stored in a partition's address space, where it can be written. -/
def State.deviceStore (s : State) (part va n x : Nat) : State :=
  match s.deviceWrite part va (leBytes n x) with
  | .ok s => s
  | .error _ => s

/-- The record's read-only fields as the launch unit has them: REASON once there is one, PARENT, DEPTH, then STATUS. What
software wrote there meanwhile is overwritten (R89). -/
def State.putFields (s : State) (r : Launch) : State :=
  let va := r.addr.toNat
  let s := if r.reason = 0 then s else s.deviceStore r.part (va + 0x54) 4 r.reason
  ((s.deviceStore r.part (va + 0x58) 8 r.parentAddr.toNat).deviceStore r.part (va + 0x60) 1 r.depth).deviceStore r.part
    (va + 0x50) 4 r.status

/-- Writes STATUS, where the record can be written. -/
def State.putStatus (s : State) (rid status : Nat) : State :=
  match s.launch? rid with
  | none => s
  | some r => (s.setLaunch rid fun r => { r with status := status }).putFields { r with status := status }

/-- The REASON of a refusal or a failure; it is written with the STATUS that follows. -/
def State.putReason (s : State) (rid reason : Nat) : State := s.setLaunch rid fun r => { r with reason := reason }

def finalStatus (n : Nat) : Bool := 5 ≤ n && n ≤ 7

/-- Takes a record out of its queue (R90). -/
def State.leaveQueue (s : State) (rid : Nat) : State :=
  match s.launch? rid with
  | none => s
  | some r =>
    let s := s.setLaunch rid fun r => { r with queued := false }
    s.setLQueue r.queue fun q => { q with records := q.records.filter (· != rid) }

/-- A final STATUS, and the queue's vector after it (R90, R327). -/
def State.finish (s : State) (rid status : Nat) : State :=
  match s.launch? rid with
  | none => s
  | some r => ((s.putStatus rid status).leaveQueue rid).raise r.queue

/-- Refuses a record (R91). -/
def State.refuse (s : State) (rid reason : Nat) : State := (s.putReason rid reason).finish rid 6

/-- The latest placed record at an address of a partition that some condition picks. Records stay after their final STATUS
(notes/assumptions/97). -/
def State.recordAt (s : State) (part : Nat) (addr : DWord) (sel : Launch → Bool) : Option (Nat × Launch) :=
  (s.launches.filter fun (_, r) => r.part == part && r.addr == addr && sel r).foldl
    (fun best x => match best with
      | none => some x
      | some b => if b.2.order < x.2.order then some x else some b) none

/-- The number of blocks of a launch (R92). -/
def Launch.blocks (r : Launch) : Nat := r.gridX * r.gridY * r.gridZ

def Launch.claimed (r : Launch) : Bool := r.blocks ≤ r.next && r.again.isEmpty

/-- The verdict on one AFTER reference (R91): met, not yet, or the REASON of a refusal. The launch unit tracks a record
until its STATUS is final (notes/assumptions/97); afterwards the STATUS in memory counts, and an unreadable record refused
with REASON 9 counts as REFUSED. -/
def State.afterRef (s : State) (r : Launch) (addr : DWord) : Except Nat Bool :=
  match s.recordAt r.part addr fun x => !finalStatus x.status with
  | some (_, x) => if r.order ≤ x.order then .error 7 else .ok false
  | none =>
    match s.deviceRead r.part (addr.toNat + 0x50) 4 with
    | .error _ => .error (if ((s.recordAt r.part addr fun _ => true).any fun x => x.2.reason == 9) then 6 else 7)
    | .ok bs =>
      let st := leNat bs
      if st = 5 then .ok true else if st = 6 ∨ st = 7 then .error 6 else .error 7

def State.afters (s : State) (r : Launch) : List DWord → Except Nat Bool
  | [] => .ok true
  | a :: rest =>
    if a = 0 then s.afters r rest
    else
      match s.afterRef r a, s.afters r rest with
      | .error d, .error e => .error (min d e)
      | .error d, .ok _ => .error d
      | .ok _, .error e => .error e
      | .ok b, .ok c => .ok (b && c)

/-- The least grid number from 1 that no grid alive has (R87). -/
def State.freshGrid (s : State) : Nat :=
  let used := (s.launches.filter fun (_, r) => 2 ≤ r.status && r.status ≤ 4).map (·.2.grid)
  ((List.range 65536).find? fun i => i != 0 && !used.contains i).getD 1

/-- Makes a waiting record ELIGIBLE, or refuses it, as its references stand (R91). -/
def State.review (s : State) (rid : Nat) : State :=
  match s.launch? rid with
  | none => s
  | some r =>
    if r.status ≠ 1 then s
    else
      match s.afters r r.after with
      | .error e => s.refuse rid e
      | .ok false => s
      | .ok true => (s.setLaunch rid fun r => { r with grid := s.freshGrid }).putStatus rid 2

/-- The grid retires when its blocks have exited and its children are final (R101, R304). -/
def State.settle (s : State) (rid : Nat) : State :=
  match s.launch? rid with
  | none => s
  | some r =>
    if (r.status = 3 ∨ r.status = 4) ∧ r.claimed ∧ r.live.isEmpty then
      if s.launches.any fun (_, c) => c.parent == some rid && !finalStatus c.status then
        if r.status = 4 then s else s.putStatus rid 4
      else
        match r.killCause with
        | some c => (s.putReason rid c).finish rid 7
        | none => s.finish rid 5
    else s

/-- Every consequence of records becoming final: parents retire, waiting records become ELIGIBLE or are refused. Each
round settles at least one record, so as many rounds as records suffice. -/
def State.settleAll (s : State) : State :=
  let round := fun (s : State) => (mapKeys s.launches).foldl (fun s rid => (s.settle rid).review rid) s
  (List.range (s.launches.length + 1)).foldl (fun s _ => round s) s

/-! Queues and futures that threads leave behind. -/

def QStage.open_ : QStage → Bool
  | .sent => true
  | .waits => true
  | _ => false

/-- The ENQ or DEQ of an operation comes to a stage. -/
def askAt (pend : Nat) (y : QStage) (x : Nat × QStage) : Nat × QStage :=
  if x.1 == pend && x.2.open_ then (pend, y) else x

/-- A DEQ lane that the closing of its queue wakes, its predicate false (R256). -/
def State.closeTaker (s : State) (w : Waiter) : State :=
  let dest := (mapFind w.pend s.pends).map (·.dest)
  let s := { s with pends := mapErase w.pend s.pends }
  s.setGroup w.gid fun g =>
    let g := g.setThread w.lane fun t =>
      match dest with
      | some (.entry _ reg pred) =>
        { t with
          p := if mapFind pred t.ptag == some w.pend then setBit8 t.p pred false else t.p
          ptag := if mapFind pred t.ptag == some w.pend then mapErase pred t.ptag else t.ptag
          vtag := if mapFind reg t.vtag == some w.pend then mapErase reg t.vtag else t.vtag
          loads := t.loads - 1
          asked := t.asked.map (askAt w.pend .served) }
      | _ => t
    match g.thread? w.lane with
    | some t =>
      match t.st.parkedOn with
      | some (.entry _ p) => if p = w.pend then g.wake [w.lane] else g
      | _ => g
    | none => g

/-- Closes a queue whose last producer retired (R256). -/
def State.checkClose (s : State) (n : Nat) : State :=
  let q := s.squeue n
  if q.prod = 0 ∧ q.armed then
    let s := s.setSQueue n fun q => { q with state := 2, armed := false, takers := [] }
    q.takers.foldl State.closeTaker s
  else s

/-- Retires a thread's registration on a queue (R256). -/
def State.retireProducer (s : State) (gid lane n : Nat) : State :=
  match s.group? gid with
  | none => s
  | some g =>
    match g.thread? lane with
    | none => s
    | some t =>
      if t.producer.contains n then
        let s := s.setGroup gid fun g =>
          let g := g.setThread lane fun t => { t with producer := setDel n t.producer }
          if g.threads.any fun t => t.producer.contains n then g
          else { g with producers := setDel n g.producers }
        (s.setSQueue n fun q => { q with prod := q.prod - 1 }).checkClose n
      else s

/-- Drops a thread's outstanding operations: their results are written nowhere. -/
def State.dropPends (s : State) (gid lane : Nat) : State :=
  { s with pends := s.pends.map fun (k, p) =>
      if p.gid == gid && p.lanes.contains lane then (k, { p with lanes := p.lanes.filter (· != lane) }) else (k, p) }

/-- A copy names a region of a block: as its source, or as the region of a receiver (R194, R208). -/
def Copy.names (c : Copy) (bid : Nat) : Bool :=
  (c.srcSpace == 1 && c.bid == bid) || (c.dstSpace != 0 && c.receivers.any fun r => r.bid == bid && !r.dropped)

/-- A region stays while a copy names it; afterwards an exited block is gone (R102, R208). -/
def State.reapBlock (s : State) (bid : Nat) : State :=
  match s.block? bid with
  | none => s
  | some b =>
    if b.exited && !(s.copies.any fun (_, c) => c.names bid) then
      { s with blocks := mapErase bid s.blocks }
    else s

/-- The block exits when its last group has (R102): its tiles go, and its region when nothing lands in it. -/
def State.checkBlock (s : State) (bid : Nat) : State :=
  match s.block? bid with
  | none => s
  | some b =>
    if b.groups.isEmpty && !b.exited then
      let s := s.setBlock bid fun b => { b with exited := true, tiles := b.tiles.map fun _ => [] }
      let s := match b.rid with
        | some rid => s.setLaunch rid fun r => { r with live := setDel bid r.live }
        | none => s
      (s.reapBlock bid).settleAll
    else s

/-- A core forgets a group: its places in shares and bundles (R102, R184). -/
def Core.dropGroup (c : Core) (gid : Nat) : Core :=
  let clear := fun (sh : BShare) =>
    { sh with quarters := sh.quarters.map fun q => if q.map (·.1) == some gid then none else q }
  let cut := fun (b : Bundle) => { b with frags := b.frags.filter (·.1 != gid) }
  { c with shares := (c.shares.map clear).filter (fun sh => sh.quarters.any (·.isSome))
           active := c.active.map cut
           pending := c.pending.map cut }

/-- A core forgets a thread: its entries in bins and callee queues. -/
def Core.dropThread (c : Core) (gid lane : Nat) : Core :=
  let keep := fun (x : Entry) => x.who != (gid, lane)
  { c with bins := (c.bins.map fun b => { b with entries := b.entries.filter keep }).filter (fun b => !b.entries.isEmpty)
           callees := (c.callees.map fun b => { b with entries := b.entries.filter keep }).filter
             (fun b => !b.entries.isEmpty) }

/-- Frees a group whose last thread has exited (R102, R184). -/
def State.checkGroup (s : State) (gid : Nat) : State :=
  match s.group? gid with
  | none => s
  | some g =>
    if g.live.isEmpty then
      let s := s.setCore g.core (·.dropGroup gid)
      let open_ := fun (o : ObjEntry) => if o.closing == some gid then { o with closing := none } else o
      let each := fun (k : Slice) => { k with objects := k.objects.map fun (i, o) => (i, open_ o) }
      let s := { s with groups := mapErase gid s.groups, slices := s.slices.map fun (k, x) => (k, each x) }
      (s.setBlock g.bid fun b => { b with groups := setDel gid b.groups }).checkBlock g.bid
    else s

/-- Frees a fault-ring slot; lanes that wait for one are recorded when the step ends (R282). -/
def State.freeSlot (s : State) (part slot : Nat) : State :=
  s.setPart part fun p => { p with ring := setDel slot p.ring }

/-- A thread exits (R102): its lane leaves the rejoin masks, its registrations retire, its futures are cancelled and
its outstanding results are dropped. -/
def State.exitThread (s : State) (gid lane : Nat) : State :=
  match s.group? gid with
  | none => s
  | some g =>
    match g.thread? lane with
    | none => s
    | some t =>
      if t.st.isExited then s
      else
        let s := match t.trap.bind (·.slot) with
          | some k => s.freeSlot g.part k
          | none => s
        let s := t.producer.foldl (fun s n => s.retireProducer gid lane n) s
        let s := s.dropPends gid lane
        let s := s.setPart g.part fun p =>
          { p with
            ringWait := p.ringWait.filter (· != (gid, lane))
            halted := p.halted.filter (· != (gid, lane))
            collect := p.collect.map fun (k, xs) => (k, xs.filter (· != (gid, lane))) }
        let s := s.setCore g.core (·.dropThread gid lane)
        let keep := fun (w : Waiter) => !(w.gid == gid && w.lane == lane)
        let drop := fun (q : SQueue) => { q with takers := q.takers.filter keep, givers := q.givers.filter keep }
        let s := { s with squeues := s.squeues.map fun (k, q) => (k, drop q) }
        let s := s.setGroup gid fun g =>
          (((g.closeLate (·.lane == lane)).setThread lane fun _ => { st := .exited, pc := t.pc, p := 0 }).leaveJoins
            lane).pruneFrags
        s.checkGroup gid

/-! Gang kill (R303, R304). -/

/-- The blocks of a block's gang. -/
def State.gangBlocks (s : State) (bid : Nat) : List Nat :=
  match s.block? bid with
  | none => []
  | some b =>
    (s.blocks.filter fun (_, x) =>
      x.rid == b.rid && x.life == b.life && (b.rid.isSome || x.groups == b.groups) && x.index / x.gangb == b.index / b.gangb).map (·.1)

/-- Settles the record after the kill: a relaunch, or a failure in time (R304). -/
def State.afterKill (s : State) (rid gang core cause : Nat) : State :=
  match s.launch? rid with
  | none => s
  | some r =>
    let n := mapGet 0 r.relaunches gang
    if r.relaunch && n < (s.part r.part).relaunchmax then
      let s := s.setLaunch rid fun r =>
        { r with again := r.again ++ [gang], relaunches := mapPut 0 gang (n + 1) r.relaunches }
      s.logError r.part { core := core, cause := cause, kind := 2, grid := r.grid, block := gang * r.gangb
                          count := n + 1 }
    else s.setLaunch rid fun r => { r with killCause := r.killCause.orElse fun _ => some cause }

/-- Kills the gang of a block. -/
def State.gangKill (s : State) (bid core cause : Nat) (addr : DWord) : State :=
  match s.block? bid with
  | none => s
  | some b =>
    let bids := s.gangBlocks bid
    let gids := (s.groups.filter fun (_, g) => bids.contains g.bid).map (·.1)
    let gang := b.index / b.gangb
    let rid := b.rid.getD 0
    let grid := ((s.launch? rid).map (·.grid)).getD 0
    let count := ((s.launch? rid).map fun r => mapGet 0 r.relaunches gang).getD 0
    let s := s.logError b.part { core := core, cause := cause, kind := 1, grid := grid, block := gang * b.gangb
                                 count := count, addr := if cause = 0x11 then 0 else addr }
    let s := match b.rid with
      | some r => s.afterKill r gang core cause
      | none => s
    let s := { s with cores := s.cores.map fun (k, c) =>
      (k, { c with sq := c.sq.filter fun e => !gids.contains e.gid, wc := c.wc.filter fun e => !gids.contains e.gid }) }
    gids.foldl (fun s gid =>
      match s.group? gid with
      | none => s
      | some g => (List.range g.threads.length).foldl (fun s l => s.exitThread gid l) s) s

/-! Taking an exception. -/

/-- The words of a fault record (R283). -/
def faultRecord (g : Group) (lane : Nat) (t : Thread) (i : TrapInfo) : List Byte :=
  let eqv := t.eq.isSome
  let (eqid, dpc, lpc) := t.eq.getD (0, 0xFFFFFFFF, 0xFFFFFFFF)
  let w0 := i.cause % 256 + (if g.enc == .l then 0x100 else 0) + (if eqv then 0x200 else 0)
    + (if g.region then 0x400 + t.path.toNat * 0x800 else 0) + i.code % 65536 * 0x10000
  let w1 := eqid % 65536 + i.frag % 256 * 0x10000 + i.parent % 256 * 0x1000000
  leBytes 4 w0 ++ leBytes 4 w1 ++ leBytes 8 i.pc.toNat ++ leBytes 8 i.repc.toNat ++ leBytes 4 i.rcount.toNat
    ++ leBytes 4 (g.core % 128 + lane % 128 * 0x200 + g.index % 65536 * 0x10000) ++ leBytes 8 i.addr.toNat
    ++ leBytes 4 dpc.toNat ++ leBytes 4 lpc.toNat ++ leBytes 16 i.sib.toNat

/-- A pennant (R284). -/
def pennantOf (core lane slot : Nat) : Word := BitVec.ofNat 32 (2 ^ 31 + core % 128 * 2 ^ 24 + lane % 128 * 2 ^ 12 + slot)

/-- The partition's next free ring slot after the one last taken (R282). -/
def Partition.nextSlot (p : Partition) : Option Nat :=
  ((List.range 4096).map fun i => (p.ringLast + 1 + i) % 4096).find? fun k => !p.ring.contains k

/-- With HALTSIB set every other thread of the group halts with its BKPT lane (R297). -/
def Group.haltOthers (g : Group) (lane : Nat) : Group :=
  (g.live.filter (· != lane)).foldl (fun g l => g.setThread l fun t =>
    match t.st with
    | .halted _ => t
    | .trapped => t
    | _ => { t with st := .halted t.st }) g

/-- The lane goes where its cause sends it (R288): the debugger, the stack's collector, or the end of its gang. -/
def State.sendTrapped (s : State) (gid lane : Nat) (g : Group) (i : TrapInfo) : State :=
  let p := s.part g.part
  let installed := p.handler != 0 && !p.handlerBad
  if i.cause = 0x12 ∧ p.dbgen then
    let s := s.setGroup gid fun g =>
      let g := g.setThread lane fun t => { t with st := .halted .trapped }
      if p.haltsib then g.haltOthers lane else g
    (s.setPart g.part fun p => { p with halted := p.halted ++ [(gid, lane)] }).raise (64 + g.part)
  else if i.cause = 0x11 ∨ !installed then s.gangKill g.bid g.core i.cause i.addr
  else
    s.setPart g.part fun p =>
      { p with collect := mapPut [] (g.core / 32) (mapGet [] p.collect (g.core / 32) ++ [(gid, lane)]) p.collect }

/-- Step 3 of R282: the record goes into the next free slot; a full ring makes the lane wait, a slot that cannot be
written kills its gang. -/
def State.recordTrap (s : State) (gid lane : Nat) : State :=
  match s.group? gid with
  | none => s
  | some g =>
    match g.thread? lane with
    | none => s
    | some t =>
      match t.trap with
      | none => s
      | some i =>
        let p := s.part g.part
        match p.nextSlot with
        | none => s.setPart g.part fun p => { p with ringWait := p.ringWait ++ [(gid, lane)] }
        | some slot =>
          let va := p.faultring.toNat + 64 * slot
          let unusable := (s.logError g.part { core := g.core, cause := i.cause, kind := 9, grid := s.gridOf g
                                               addr := BitVec.ofNat 64 va }).gangKill g.bid g.core i.cause i.addr
          if p.faultring = 0 then unusable
          else
            match s.deviceWrite g.part va (faultRecord g lane t i) with
            | .error _ => unusable
            | .ok s =>
              let s := s.setPart g.part fun p => { p with ring := setAdd slot p.ring, ringLast := slot }
              let s := s.setThread gid lane fun t =>
                { t with trap := some { i with slot := some slot }, pennant := pennantOf g.core lane slot }
              s.sendTrapped gid lane g i

/-- The state of a lane that traps; one whose group is evicted is TRAPPED when it comes back. -/
def TState.enterTrap : TState → TState
  | .evicted _ => .evicted .trapped
  | _ => .trapped

/-- The result of an operation is in flight: it is not one that a slice queue withholds. -/
def State.resultDue (s : State) (pend : Nat) : Bool :=
  match mapFind pend s.pends with
  | none => false
  | some p =>
    match p.dest with
    | .entry _ _ _ => false
    | _ => true

/-- A result of the lane is in flight: trap entry waits for it (R43, R131). -/
def State.inFlight (s : State) (t : Thread) : Bool := (mapVals t.vtag ++ mapVals t.ptag).any s.resultDue

/-- A lane that entered its trap with results in flight is recorded once they are there (R282). -/
def State.settleTrap (s : State) (gid lane : Nat) : State :=
  match s.group? gid with
  | none => s
  | some g =>
    let waits := (g.thread? lane).any fun t => (t.trap.any (·.slot.isNone)) && !s.inFlight t
    if waits && !(s.part g.part).ringWait.contains (gid, lane) then s.recordTrap gid lane else s

/-- A lane that traps at an ENQ or DEQ which the slice has not served takes it back. -/
def State.dropAsk (s : State) (gid lane : Nat) : State :=
  match (s.thread? gid lane).bind (·.asked) with
  | none => s
  | some (id, st) =>
    if !st.open_ then s.setThread gid lane fun t => { t with asked := none }
    else
      let keep := fun (w : Waiter) => w.pend != id
      let cut := fun (q : SQueue) => { q with takers := q.takers.filter keep, givers := q.givers.filter keep }
      let s := s.setThread gid lane fun t =>
        { t with
          asked := none, vtag := t.vtag.filter (·.2 != id), ptag := t.ptag.filter (·.2 != id)
          loads := if t.vtag.any (·.2 == id) then t.loads - 1 else t.loads }
      { s with pends := mapErase id s.pends, squeues := s.squeues.map fun (k, q) => (k, cut q) }

/-- Takes an exception in one lane (R282, R292): the lane is TRAPPED, and once its results are there its record is written
and it is sent on its way. A handler lane instead ends its origin's gang with the cause and exits. -/
def State.takeTrap (s : State) (gid lane : Nat) (i : TrapInfo) : State :=
  match s.group? gid with
  | none => s
  | some g =>
    if g.handler then
      let origin := (g.thread? lane).bind (·.origin)
      let s := s.logError g.part { core := g.core, cause := i.cause, kind := 4 }
      let s := match origin.bind fun o => s.group? o.1 with
        | some og => s.gangKill og.bid og.core i.cause i.addr
        | none => s
      s.exitThread gid lane
    else
      let s := s.dropAsk gid lane
      let flies := (g.thread? lane).any s.inFlight
      let s := s.setGroup gid fun g => (g.closeLate (·.lane == lane)).setThread lane fun t =>
        { t with st := t.st.enterTrap, trap := some i, vhaz := [], phaz := [], xhaz := [] }
      if flies then s else s.recordTrap gid lane

/-- Records the lanes that waited for a ring slot, while there are slots (R282). -/
def State.serveRing (s : State) (part : Nat) : State :=
  let waiting := (s.part part).ringWait
  let s := s.setPart part fun p => { p with ringWait := [] }
  waiting.foldl (fun s (gid, lane) => s.recordTrap gid lane) s

/-- Returns a trapped lane to READY at REPC (R293, R297): its region counter becomes RCOUNT, its ring slot is freed. -/
def State.returnTrap (s : State) (gid lane : Nat) : State :=
  match s.group? gid with
  | none => s
  | some g =>
    match (g.thread? lane).bind (·.trap) with
    | none => s
    | some i =>
      let rec back : TState → TState
        | .evicted w => .evicted (back w)
        | .halted w => back w
        | _ => .ready
      let s := s.setGroup gid fun g =>
        (g.setThread lane fun t =>
          { t with
            st := back t.st
            pc := i.repc
            rcount := i.rcount
            rentry := if i.cause = 0x12 ∨ i.cause = 0x13 then i.repc else t.rentry
            trap := none }).regroup [lane]
      match i.slot with
      | some k => (s.freeSlot g.part k).serveRing g.part
      | none => s

/-- A handler lane that exits without RTE ends its origin's gang with the origin's cause (R292). -/
def State.exitLane (s : State) (gid lane : Nat) : State :=
  match s.group? gid with
  | none => s
  | some g =>
    let origin := if g.handler then (g.thread? lane).bind (·.origin) else none
    let s := match origin with
      | none => s
      | some (og, ol) =>
        match s.group? og with
        | none => s
        | some o =>
          match (o.thread? ol).bind (·.trap) with
          | none => s
          | some i =>
            (s.logError g.part { core := g.core, cause := i.cause, kind := 4 }).gangKill o.bid o.core i.cause i.addr
    s.exitThread gid lane

/-! Retiring an instruction. -/

/-- A cause that a lane raises: the code of TRAP and BKPT, and ADDR. -/
structure Raise where
  cause : Nat
  addr : DWord := 0
  code : Nat := 0
  /-- REPC and RCOUNT where they are not the region entry and counter (R286, R294). -/
  repc : Option DWord := none
  bump : Bool := false
deriving DecidableEq, Repr

/-- How a lane leaves an instruction. `opens` says that a new region starts where it goes on (R285). -/
inductive Dispo where
  | next (opens : Bool)
  | jump (pc : DWord) (opens : Bool)
  | raise (r : Raise)
  | park (on : Park)
  | parkNext (on : Park) (opens : Bool)
  | callee (on : Park) (pc : DWord)
  | bin (pc : DWord)
  | migrate (pc : DWord)
  | exit
deriving DecidableEq, Repr

/-- The parts that a fragment divides into (R110). An exit divides nothing. -/
inductive PartKey where
  | next
  | jump (pc : DWord)
  | raise
  | park
  | callee (pc : DWord)
  | bin
  | exit
deriving DecidableEq, Repr

def Dispo.key : Dispo → PartKey
  | .next _ => .next
  | .jump pc _ => .jump pc
  | .raise _ => .raise
  | .park _ => .park
  | .parkNext _ _ => .park
  | .callee _ pc => .callee pc
  | .bin _ => .bin
  | .migrate _ => .next
  | .exit => .exit

/-- The thread after the instruction: where it stands and whether a region opens there (R285). -/
def Thread.goTo (t : Thread) (pc : DWord) (opens : Bool) : Thread :=
  { t with pc := pc, rentry := if opens then pc else t.rentry, rcount := if opens then t.rcount + 1 else t.rcount }

def Thread.leave (t : Thread) (len : DWord) : Dispo → Thread
  | .next o => t.goTo (t.pc + len) o
  | .jump pc o => t.goTo pc o
  | .raise _ => t
  | .park p => { t with st := .parked p }
  | .parkNext p o => { t.goTo (t.pc + len) o with st := .parked p }
  | .callee p pc => { t.goTo pc true with st := .parked p }
  | .bin pc => { t.goTo pc false with st := .binned }
  | .migrate pc => { t.goTo pc true with st := .migrating }
  | .exit => t

/-- Divides a fragment into its parts: with more than one, each takes a fresh id (R110). -/
def Group.divide (g : Group) (fid : Nat) (parts : List (PartKey × List Nat)) : Group :=
  let parts := parts.filter fun p => p.1 != .exit
  match parts with
  | [] => g
  | [_] => g
  | _ =>
    let sib := maskOf (parts.flatMap (·.2))
    parts.foldl (fun g p => g.putFrag p.2 fid sib) g

def trapInfoOf (g : Group) (fid : Nat) (t : Thread) (r : Raise) : TrapInfo :=
  let f := g.fragInfo fid
  { cause := r.cause, code := r.code, pc := t.pc, repc := r.repc.getD t.rentry
    rcount := if r.bump then t.rcount + 1 else t.rcount, addr := r.addr, frag := fid, parent := f.parent, sib := f.sib }

/-- The parts of a fragment as its lanes' dispositions make them. -/
def partsOf (ds : List (Nat × Dispo)) : List (PartKey × List Nat) :=
  classes (fun l => ((ds.find? (·.1 == l)).map (·.2.key)).getD .next) (ds.map (·.1))

/-- The lanes that trap, with what is recorded of each. -/
def trapsOf (g : Group) (fid : Nat) (ds : List (Nat × Dispo)) : List (Nat × TrapInfo) :=
  ds.filterMap fun (l, d) =>
    match d with
    | .raise r => (g.thread? l).map fun t => (l, trapInfoOf g fid t r)
    | _ => none

def exitsOf (ds : List (Nat × Dispo)) : List Nat := ds.filterMap fun (l, d) => if d == .exit then some l else none

def parksIn (ds : List (Nat × Dispo)) : Bool := ds.any fun (_, d) => d.key == .park

/-- Every lane goes where its disposition says. -/
def Group.leaveAll (g : Group) (len : DWord) (ds : List (Nat × Dispo)) : Group :=
  ds.foldl (fun g (l, d) => g.setThread l fun t => t.leave len d) g

/-- A group whose lanes park notes when. -/
def Group.notePark (g : Group) (parks : Bool) (n : Nat) : Group := if parks then { g with parkedAt := n } else g

/-- Inside a meld region the lanes that do not trap hold before the next instruction (R126). -/
def Group.noteHold (g : Group) (pc : DWord) (traps : List Nat) : Group :=
  if g.region && !traps.isEmpty then { g with holds := (pc, maskOf traps) :: g.holds } else g

/-- Lanes that trap inside a meld region when a reply returns: the others hold where they stand, before their next instruction,
until the trapped lanes have come there too or are gone (R126). -/
def Group.holdOthers (g : Group) (traps : List Nat) : Group :=
  if g.region then
    let others := g.live.filter fun l => !traps.contains l
    let pcs := (classes (fun l => ((g.thread? l).map (·.pc)).getD 0) others).map (·.1)
    { g with holds := pcs.foldl (fun hs p => (p, maskOf traps) :: hs) g.holds }
  else g

/-- The fragment that goes on, of the parts of a group. -/
def Group.keptFrag (g : Group) (parts : List (PartKey × List Nat)) : Option Nat :=
  (parts.find? fun p => match p.1 with
    | .next => true
    | .jump _ => true
    | _ => false).bind fun p => p.2.head?.bind fun l => (g.thread? l).map (·.frag)

/-- A fragment's place in a bundle goes to the part that goes on. -/
def Bundle.follow (b : Bundle) (f : Nat × Nat) (kept : Option Nat) : Bundle :=
  { b with frags := b.frags.filterMap fun x => if x == f then kept.map fun k => (f.1, k) else some x }

def Core.follow (c : Core) (f : Nat × Nat) (kept : Option Nat) : Core :=
  { c with active := c.active.map (·.follow f kept), pending := c.pending.map (·.follow f kept) }

/-- A thread that leaves for a bin or another core has read its operands (R131). -/
def Dispo.settles : Dispo → Bool
  | .bin _ => true
  | .migrate _ => true
  | _ => false

/-- A group after an instruction of one of its fragments. -/
def Group.retired (g : Group) (fid : Nat) (len : DWord) (ds : List (Nat × Dispo)) (n : Nat) : Group :=
  (((((g.leaveAll len ds).divide fid (partsOf ds)).pruneFrags).notePark (parksIn ds) n).noteHold
    (g.fragPc fid + len) ((trapsOf g fid ds).map (·.1))).closeLate fun r => ds.any fun (l, d) => l == r.lane && d.settles

/-- The model's order of events goes on. -/
def State.tick (s : State) (b : Bool) : State := if b then { s with seq := s.seq + 1 } else s

/-- Retires an instruction of a fragment: every lane goes where its disposition says, the fragment divides, trapped
lanes take their exceptions in ascending lane order, and inside a meld region the others hold (R126). -/
def State.retire (s : State) (gid fid : Nat) (len : DWord) (ds : List (Nat × Dispo)) : State :=
  match s.group? gid with
  | none => s
  | some g0 =>
    let g := g0.retired fid len ds s.seq
    let s := ((s.tick (parksIn ds)).setGroup gid fun _ => g).setCore g.core (·.follow (gid, fid) (g.keptFrag (partsOf ds)))
    let s := (trapsOf g0 fid ds).foldl (fun s (l, i) => s.takeTrap gid l i) s
    (exitsOf ds).foldl (fun s l => s.exitLane gid l) s

/-- A lane that resumed or exited may end a hold: a fragment at a held PC may issue once every trapped lane is back there
or gone (R126). -/
def Group.heldAt (g : Group) (pc : DWord) : Bool :=
  g.region && g.holds.any fun (p, m) =>
    p == pc && g.live.any fun l => maskHas m l &&
      (match g.thread? l with
       | some t => !(t.pc == pc && t.st.issuable)
       | none => false)

end Sys2Proof.Machine
end

