-- ==== Sys2Proof/Machine/Operands.lean ====
section
/-! DEFINITION. Operand forms: the PRED field and path masks (R42), meld translation and allotments (R40, R41), reads
under the scoreboard, the futures and the short STALL (R43, R130, R131, R214), effective addresses (R49), and the checks of
an access (R167, R193, R221, R233); and the frames in which lane-set and uniform-set instructions run (R7, R56, R94,
R157). -/

namespace Sys2Proof.Machine

/-- Why a lane does not complete an instruction at this issue: the whole bundle is held (R110), the lane parks, or it
raises a cause. -/
inductive Stop where
  | hold
  | park (on : Park)
  | raise (r : Raise)
deriving DecidableEq, Repr

def Stop.cause (c : Nat) : Stop := .raise { cause := c }
def Stop.causeAt (c : Nat) (addr : DWord) : Stop := .raise { cause := c, addr := addr }

/-! ## Register codes (R40, R41) -/

/-- The first meld code of an encoding. -/
def meldBase : Enc → Nat
  | .d => 240
  | .l => 1008

def isMeldCode (e : Enc) (code : Nat) : Bool := meldBase e ≤ code && code < meldBase e + 16

/-- The physical register of a code in a lane: translated through its path row in an open region, then held against the
allotment. -/
def physReg (g : Group) (t : Thread) (code : Nat) : Except Stop Nat :=
  let r := if g.region && isMeldCode g.enc code then
      ((g.meld.getD []).getD (16 * t.path.toNat + (code - meldBase g.enc)) 0).toNat
    else code
  if r < g.vregs then .ok r else .error (Stop.cause 2)

/-- The registers of a run (never translated: a meld code of a run is ILLOP before). -/
def physRun (g : Group) (t : Thread) (code n : Nat) : Except Stop (List Nat) :=
  if n ≤ 1 then (physReg g t code).map fun r => [r]
  else if code + n ≤ g.vregs then .ok ((List.range n).map (code + ·)) else .error (Stop.cause 2)

/-- A read of a physical register: it waits for a scoreboarded writer, parks on a pending future, raises FUTFAIL on a
faulted one (R130, R131, R214). -/
def readReg (g : Group) (t : Thread) (r : Nat) : Except Stop Word :=
  if g.ilk && (mapFind r t.vtag).isSome then .error .hold
  else
    match mapFind r t.fut with
    | some (.pending c k n) => .error (.park (.future c k n))
    | some .faulted => .error (Stop.cause 0x0C)
    | none => .ok (mapGet 0 t.v r)

def readVec (g : Group) (t : Thread) (code : Nat) : Except Stop Word :=
  match physReg g t code with
  | .ok r => readReg g t r
  | .error e => .error e

def readRun (g : Group) (t : Thread) (code n : Nat) : Except Stop (List Word) :=
  match physRun g t code n with
  | .ok rs => rs.mapM (readReg g t)
  | .error e => .error e

/-- An operand of 32 or 64 bits as a number (R3). -/
def readWide (g : Group) (t : Thread) (wide : Bool) (code : Nat) : Except Stop Nat :=
  if wide then (readRun g t code 2).map fun ws => (ws.getD 0 0).toNat + 2 ^ 32 * (ws.getD 1 0).toNat
  else (readVec g t code).map (·.toNat)

/-- A predicate operand (R137). -/
def readPred (g : Group) (t : Thread) (k : Nat) : Except Stop Bool :=
  if g.ilk && (mapFind k t.ptag).isSome then .error .hold else .ok (getBit8 t.p k)

/-! ## What a lane writes -/

/-- Register writes of one lane. -/
structure Writes where
  v : List (Nat × Word) := []
  p : List (Nat × Bool) := []
  x : List (Nat × Word) := []
deriving DecidableEq, Repr

/-- Writes to a vector register: the write is the register's last writer (R131, R214); `lat` is the latency a short
STALL leaves uncovered (R43), 0 for an interlocked result. -/
def Thread.putReg (t : Thread) (lat r : Nat) (x : Word) : Thread :=
  let haz := if lat = 0 then mapErase r t.vhaz
    else mapInsert r { olds := ((mapFind r t.vhaz).map (·.olds)).getD [] ++ [mapGet 0 t.v r], left := lat } t.vhaz
  { t with v := mapPut 0 r x t.v, vtag := mapErase r t.vtag, fut := mapErase r t.fut, vhaz := haz }

def bitWord (b : Bool) : Word := if b then 1 else 0

def Thread.putPred (t : Thread) (lat k : Nat) (b : Bool) : Thread :=
  let haz := if lat = 0 ∨ 7 ≤ k then mapErase k t.phaz
    else mapInsert k { olds := ((mapFind k t.phaz).map (·.olds)).getD [] ++ [bitWord (getBit8 t.p k)], left := lat } t.phaz
  { t with p := setBit8 t.p k b, ptag := mapErase k t.ptag, phaz := haz }

def Thread.putIndex (t : Thread) (lat k : Nat) (x : Word) : Thread :=
  let haz := if lat = 0 then mapErase k t.xhaz
    else mapInsert k { olds := ((mapFind k t.xhaz).map (·.olds)).getD [] ++ [mapGet 0 t.x k], left := lat } t.xhaz
  { t with x := mapPut 0 k x t.x, xhaz := haz }

def Thread.apply (t : Thread) (lat : Nat) (w : Writes) : Thread :=
  let t := w.v.foldl (fun t (r, x) => t.putReg lat r x) t
  let t := w.p.foldl (fun t (k, b) => t.putPred lat k b) t
  w.x.foldl (fun t (k, x) => t.putIndex lat k x) t

/-- A result of 32 or 64 bits into a register or pair. -/
def writeWide (g : Group) (t : Thread) (wide : Bool) (code x : Nat) : Except Stop Writes :=
  if wide then
    (physRun g t code 2).map fun rs =>
      { v := [(rs.getD 0 0, BitVec.ofNat 32 x), (rs.getD 1 0, BitVec.ofNat 32 (x / 2 ^ 32))] }
  else (physReg g t code).map fun r => { v := [(r, BitVec.ofNat 32 x)] }

/-! ## The short STALL (R43) -/

/-- What a reader sees: each result still in its latency is, per lane, one of the values before it or the new one. -/
def Thread.view (t : Thread) (s : State) : Thread × State :=
  let (t, s) := t.vhaz.foldl (fun (t, s) (r, h) =>
    let (k, s) := s.pick (h.olds.length + 1)
    ({ t with v := mapPut 0 r (h.olds.getD k (mapGet 0 t.v r)) t.v }, s)) (t, s)
  let (t, s) := t.xhaz.foldl (fun (t, s) (r, h) =>
    let (k, s) := s.pick (h.olds.length + 1)
    ({ t with x := mapPut 0 r (h.olds.getD k (mapGet 0 t.x r)) t.x }, s)) (t, s)
  t.phaz.foldl (fun (t, s) (r, h) =>
    let (k, s) := s.pick (h.olds.length + 1)
    ({ t with p := setBit8 t.p r ((h.olds.getD k (bitWord (getBit8 t.p r))) == 1) }, s)) (t, s)

/-- The views of lanes, in lane order. -/
def views (g : Group) (s : State) : List Nat → List (Nat × Thread) × State
  | [] => ([], s)
  | l :: ls =>
    match g.thread? l with
    | none => views g s ls
    | some t =>
      let (v, s) := t.view s
      let (vs, s) := views g s ls
      ((l, v) :: vs, s)

/-- Cycles pass: latencies run down. -/
def Thread.age (t : Thread) (n : Nat) : Thread :=
  if t.vhaz.isEmpty && t.phaz.isEmpty && t.xhaz.isEmpty then t
  else
    let run := fun (m : SMap Hazard) => (m.map fun (k, h) => (k, { h with left := h.left - n })).filter fun (_, h) => h.left != 0
    { t with vhaz := run t.vhaz, phaz := run t.phaz, xhaz := run t.xhaz }

/-! ## Predicates and guards (R42, R56) -/

/-- Lane l is active for the instruction: the predicate outside a region, the path mask inside one; an unpredicated
instruction acts on every lane. -/
def laneActive (g : Group) (unpred : Bool) (pred : BitVec 4) (t : Thread) : Bool :=
  if unpred then true
  else if g.region then pred.getLsbD t.path.toNat
  else getBit8 t.p (pred.toNat % 8) != pred.getLsbD 3

/-- The predicate is scoreboarded and not there yet. -/
def predHeld (g : Group) (unpred : Bool) (pred : BitVec 4) (t : Thread) : Bool :=
  !unpred && !g.region && g.ilk && (mapFind (pred.toNat % 8) t.ptag).isSome

/-- Row 2 and row 3 of R56 for a lane-set instruction, as far as they depend on the group: a PRED value the meld state
does not accept, a run whose first register is misaligned or a meld code in a region, and the instructions that no open
region permits. -/
def laneGuard (g : Group) (unpred : Bool) (pred : BitVec 4) (runs : List (Nat × Nat)) (forbidden : Bool) : Option Nat :=
  let badPred := !unpred && (if g.region then pred == 0 else pred == 15)
  let badRun := runs.any fun (code, n) => 1 < n && (code % n != 0 || (g.region && isMeldCode g.enc code))
  if badPred || badRun then some 1 else if forbidden && g.region then some 0x0F else none

/-! ## Physical lanes and generators (R76, R85) -/

/-- The physical lane of a thread on a core of c lanes. -/
def physLane (g : Group) (c l : Nat) : Nat := if c ≤ g.width then l % c else g.lane0 + l

/-- A lane's generator (R76): the seed of zero until it draws or is reseeded. The lead core of a gang keeps those of its upper
lanes under its own lane numbers, whatever its width becomes (notes/assumptions/103). -/
def Core.generator (c : Core) (lane : Nat) : Word := (mapFind lane c.rng).getD (srSeed 0 lane)

/-- n draws of a lane's generator. -/
def State.draw (s : State) (core lane n : Nat) : List Word × State :=
  if n = 0 then ([], s)
  else
    let (us, g) := srDraws n ((s.core core).generator lane)
    (us, s.setCore core fun c => { c with rng := mapInsert lane g c.rng })

/-! ## Residue replay (R302) -/

/-- A checked operation meets the mismatches that the environment holds for it: it is replayed, and past RETRYMAX it
raises PIPEERR. -/
def State.residueCheck (s : State) (g : Group) : Bool × State :=
  if s.residue = 0 then (true, s)
  else
    let max := (s.part g.part).retrymax
    let n := min s.residue max
    let ok := decide (s.residue ≤ max)
    let s := { s with residue := 0 }
    let s := s.setCore g.core fun c => { c with replays := c.replays + n }
    (ok, if ok then s else s.logError g.part { core := g.core, cause := 0x10, kind := 3, grid := s.gridOf g, count := n })

/-! ## The frame of a lane-set register instruction -/

/-- What a lane-set register instruction computes for one lane: from the active lanes' views, the lane's draws, its
number and its view. -/
abbrev LaneFn := Group → List (Nat × Thread) → List Word → Nat → Thread → Except Stop Writes

/-- The scheduling fields and shape of a lane-set instruction: its length, its PRED, whether it is unpredicated, the
register runs it names, its latency and what log2 of the width multiplies in it (R134), its STALL, and its draws per lane
under SR. -/
structure Shape where
  len : DWord := 8
  pred : BitVec 4 := 7
  unpred : Bool := false
  runs : List (Nat × Nat) := []
  forbidden : Bool := false
  lat : Nat := 0
  latLog : Nat := 0
  stall : Nat := 0
  draws : Nat := 0
deriving DecidableEq, Repr

/-- The part of a result's latency that STALL leaves uncovered, in native mode on a core of c lanes: a group wider than
the core issues in passes (R43, R134). -/
def Shape.uncovered (sh : Shape) (g : Group) (c : Nat) : Nat :=
  if g.ilk || sh.stall == 0 then 0 else sh.lat + sh.latLog * g.width.log2 + (g.width / c - 1) - sh.stall

/-- Every lane's disposition: inactive lanes go on; a lane that parks or raises does so, the others complete. None where
some lane is held. -/
def disposeAll (outs : List (Nat × Except Stop Writes)) (all : List Nat) : Option (List (Nat × Dispo)) :=
  if outs.any fun o => match o.2 with
    | .error .hold => true
    | _ => false then none
  else
    some (all.map fun l =>
      match outs.find? (·.1 == l) with
      | some (_, .error (.park p)) => (l, .park p)
      | some (_, .error (.raise r)) => (l, .raise r)
      | _ => (l, .next false))

/-- All lanes of a fragment raise a cause (R56, rows 1 to 3). -/
def State.raiseAll (s : State) (gid fid : Nat) (len : DWord) (r : Raise) : State :=
  match s.group? gid with
  | none => s
  | some g => s.retire gid fid len ((g.fragLanes fid).map fun l => (l, .raise r))

/-- Draws for each active lane in lane order, as many as each takes. -/
def drawAll (g : Group) (n : Nat × Thread → Nat) (s : State) : List (Nat × Thread) → List (List Word) × State
  | [] => ([], s)
  | (l, t) :: rest =>
    let (us, s) := s.draw g.core (physLane g (s.lanes g.part g.core) l) (n (l, t))
    let (more, s) := drawAll g n s rest
    (us :: more, s)

def Except.completes {ε α : Type} : Except ε α → Bool
  | .ok _ => true
  | .error _ => false

/-- A lane that would complete ends in PIPEERR (R302). -/
def residueStop : Except Stop Writes → Except Stop Writes
  | .ok _ => .error (Stop.cause 0x10)
  | .error e => .error e

/-- A lane-set register instruction for one fragment. None: held at issue. Its residue is checked where some lane
completes, and only lanes that complete draw (R75, R302). -/
def laneFragment (sh : Shape) (fn : LaneFn) (s : State) (gid fid : Nat) : Option State :=
  match s.group? gid with
  | none => some s
  | some g =>
    match laneGuard g sh.unpred sh.pred sh.runs sh.forbidden with
    | some c => some (s.raiseAll gid fid sh.len { cause := c })
    | none =>
      let all := g.fragLanes fid
      let (vs, s1) := views g s all
      if vs.any fun (_, t) => predHeld g sh.unpred sh.pred t then none
      else
        let act := vs.filter fun (_, t) => laneActive g sh.unpred sh.pred t
        let completes := fun (x : Nat × Thread) => Except.completes (fn g act [] x.1 x.2)
        let (ok, s2) := if act.any completes then s1.residueCheck g else (true, s1)
        let (us, s3) := drawAll g (fun x => if ok && completes x then sh.draws else 0) s2 act
        let outs := (act.zip us).map fun ((l, t), u) => (l, if ok then fn g act u l t else residueStop (fn g act [] l t))
        match disposeAll outs all with
        | none => none
        | some ds =>
          let n := sh.uncovered g (s.lanes g.part g.core)
          let s4 := s3.setGroup gid fun g =>
            let g := all.foldl (fun g l => g.setThread l fun t => t.age (max 1 sh.stall)) g
            outs.foldl (fun g (l, o) =>
              match o with
              | .ok w => g.setThread l fun t => t.apply n w
              | .error _ => g) g
          some (s4.retire gid fid sh.len ds)

/-- Every fragment of the bundle in turn; one that is held holds the bundle. -/
def forBundle (f : State → Nat → Nat → Option State) : List (Nat × Nat) → State → Option State
  | [], s => some s
  | (gid, fid) :: rest, s =>
    match f s gid fid with
    | none => none
    | some s => forBundle f rest s

/-- An instruction issues with its bundle; held, it leaves the state as it is. -/
def issue (f : State → Nat → Nat → Option State) (s : State) : Host.Outcome State Fault Refusal :=
  match s.cur with
  | none => .fault .noBundle
  | some (_, b) =>
    match forBundle f b.frags s with
    | some s => .next s
    | none => .next s

/-- A lane-set register instruction. -/
def laneInstr (sh : Shape) (fn : LaneFn) (s : State) : Host.Outcome State Fault Refusal :=
  issue (laneFragment sh fn) s

/-! ## Vector operands: every register is found before any is read (R56, row 4), every source is read before the
destination is written (R154) -/

/-- The number that registers spell, the first lowest (R3). -/
def wordsNat (ws : List Word) : Nat := packElems 32 (ws.map (·.toNat))

/-- A number as n registers. -/
def natWords (n x : Nat) : List Word := (List.range n).map fun i => BitVec.ofNat 32 (elem 32 i x)

/-- The physical registers of operands, each a code and a run length. -/
def physAll (g : Group) (t : Thread) : List (Nat × Nat) → Except Stop (List (List Nat))
  | [] => .ok []
  | (code, n) :: rest =>
    match physRun g t code n with
    | .error e => .error e
    | .ok rs =>
      match physAll g t rest with
      | .error e => .error e
      | .ok more => .ok (rs :: more)

def readAll (g : Group) (t : Thread) : List Nat → Except Stop (List Word)
  | [] => .ok []
  | r :: rs =>
    match readReg g t r with
    | .error e => .error e
    | .ok x =>
      match readAll g t rs with
      | .error e => .error e
      | .ok xs => .ok (x :: xs)

/-- The values of operands whose registers are known. -/
def readOps (g : Group) (t : Thread) : List (List Nat) → Except Stop (List Nat)
  | [] => .ok []
  | rs :: rest =>
    match readAll g t rs with
    | .error e => .error e
    | .ok ws =>
      match readOps g t rest with
      | .error e => .error e
      | .ok xs => .ok (wordsNat ws :: xs)

/-- The sources' values, all operands' registers being within the allotment; the destination's registers. -/
def operands (g : Group) (t : Thread) (dst : Nat × Nat) (srcs : List (Nat × Nat)) :
    Except Stop (List Nat × List Nat) :=
  match physAll g t (dst :: srcs) with
  | .error e => .error e
  | .ok [] => .ok ([], [])
  | .ok (d :: rs) => (readOps g t rs).map fun xs => (d, xs)

/-- A result in registers. -/
def writeRegs (d : List Nat) (x : Nat) : Writes := { v := d.zip (natWords d.length x) }

/-- An instruction that computes a vector result from vector sources. -/
def vecCalc (dst : Nat × Nat) (srcs : List (Nat × Nat)) (f : List Word → List Nat → Nat) : LaneFn :=
  fun g _ us _ t => (operands g t dst srcs).map fun (d, xs) => writeRegs d (f us xs)

def vec1 (dst a : Nat × Nat) (f : List Word → Nat → Nat) : LaneFn :=
  vecCalc dst [a] fun us xs => f us (xs.getD 0 0)

def vec2 (dst a b : Nat × Nat) (f : List Word → Nat → Nat → Nat) : LaneFn :=
  vecCalc dst [a, b] fun us xs => f us (xs.getD 0 0) (xs.getD 1 0)

def vec3 (dst a b c : Nat × Nat) (f : List Word → Nat → Nat → Nat → Nat) : LaneFn :=
  vecCalc dst [a, b, c] fun us xs => f us (xs.getD 0 0) (xs.getD 1 0) (xs.getD 2 0)

/-- The registers of an operand of a type: a pair under a 64-bit type. -/
def typed (ty : BitVec 5) (code : BitVec 10) : Nat × Nat := (code.toNat, if wideType ty then 2 else 1)

def single (code : BitVec 10) : Nat × Nat := (code.toNat, 1)

/-- The shape of a register form. -/
def regShape (f : RForm) (lat : Nat) (runs : List (Nat × Nat)) (draws : Nat := 0) : Shape :=
  { pred := f.pred, runs := runs, lat := lat, stall := f.stall.toNat, draws := draws }

/-- A compact form issues to every lane, whatever its path (R34, R42). -/
def compactShape : Shape := { len := 4, unpred := true }

/-! ## The frame of a lane-set instruction with effects outside the lane -/

/-- How one lane leaves it, and the state then. -/
inductive LaneOut where
  | hold
  | stop (d : Dispo)
  | done (s : State) (d : Dispo)

/-- Lanes in ascending order, each seeing what the lanes before it did. None: held. -/
def seqLanes (fn : State → Nat → Thread → LaneOut) : List (Nat × Thread) → State → Option (State × List (Nat × Dispo))
  | [], s => some (s, [])
  | (l, t) :: rest, s =>
    match fn s l t with
    | .hold => none
    | .stop d => (seqLanes fn rest s).map fun (s, ds) => (s, (l, d) :: ds)
    | .done s d => (seqLanes fn rest s).map fun (s, ds) => (s, (l, d) :: ds)

/-- What the lanes of a fragment do together once each has had its turn. -/
abbrev Together := Nat → State → List (Nat × Dispo) → State × List (Nat × Dispo)

/-- A fragment of such an instruction. None: held at issue. -/
def seqFragmentWith (sh : Shape) (fn : Nat → State → Nat → Thread → LaneOut) (fin : Together) (s : State)
    (gid fid : Nat) : Option State :=
  match s.group? gid with
  | none => some s
  | some g =>
    match laneGuard g sh.unpred sh.pred sh.runs sh.forbidden with
    | some c => some (s.raiseAll gid fid sh.len { cause := c })
    | none =>
      let all := g.fragLanes fid
      let (vs, s) := views g s all
      if vs.any fun (_, t) => predHeld g sh.unpred sh.pred t then none
      else
        let act := vs.filter fun (_, t) => laneActive g sh.unpred sh.pred t
        match seqLanes (fn gid) act s with
        | none => none
        | some (s, ds) =>
          let s := s.setGroup gid fun g =>
            all.foldl (fun g l => g.setThread l fun t => t.age (max 1 sh.stall)) g
          let (s, ds) := fin gid s ds
          some (s.retire gid fid sh.len (all.map fun l =>
            (ds.find? (·.1 == l)).getD (l, .next false)))

def seqFragment (sh : Shape) (fn : Nat → State → Nat → Thread → LaneOut) (s : State) (gid fid : Nat) : Option State :=
  seqFragmentWith sh fn (fun _ s ds => (s, ds)) s gid fid

/-- The lanes that would execute an instruction of a shape: none where the group or the scoreboard forbids it. -/
def State.willRun (s : State) (sh : Shape) (gid fid : Nat) : List Nat :=
  match s.group? gid with
  | none => []
  | some g =>
    if (laneGuard g sh.unpred sh.pred sh.runs sh.forbidden).isSome then []
    else (g.fragLanes fid).filter fun l => (g.thread? l).any (laneActive g sh.unpred sh.pred)

def seqInstr (sh : Shape) (fn : Nat → State → Nat → Thread → LaneOut) (s : State) :
    Host.Outcome State Fault Refusal :=
  issue (seqFragment sh fn) s

/-- What an instruction waits for at issue before any of its fragments executes: whether it may go on, and the state
that the waiting brings about. -/
abbrev Waits := State → Nat → Nat → Bool × State

def waitAll (w : Waits) : List (Nat × Nat) → State → Bool × State
  | [], s => (true, s)
  | (gid, fid) :: rest, s =>
    let (ok, s) := w s gid fid
    let (more, s) := waitAll w rest s
    (ok && more, s)

/-- An instruction that waits at issue for something it sets going itself, a drain or a push. -/
def issueAfter (w : Waits) (f : State → Nat → Nat → Option State) (s : State) : Host.Outcome State Fault Refusal :=
  match s.cur with
  | none => .fault .noBundle
  | some (_, b) =>
    let (ok, s) := waitAll w b.frags s
    if ok then
      match forBundle f b.frags s with
      | some s => .next s
      | none => .next s
    else .next s

/-! ## The frame of a uniform-set instruction (R157) -/

/-- How a group leaves it. -/
inductive UniOut where
  | hold
  | raise (r : Raise)
  | done (s : State) (d : Dispo)

/-- A read of a uniform register: scoreboarded on every core (R130). -/
def readS (g : Group) (k : Nat) : Except Stop Word :=
  if (mapFind k g.stag).isSome then .error .hold else .ok (mapGet 0 g.s k)

def readSWide (g : Group) (wide : Bool) (k : Nat) : Except Stop Nat :=
  match readS g k with
  | .error e => .error e
  | .ok lo => if wide then (readS g (k + 1)).map fun hi => lo.toNat + 2 ^ 32 * hi.toNat else .ok lo.toNat

/-- A read of an address register (an ALD may be outstanding). -/
def readA (g : Group) (k : Nat) : Except Stop AddrReg :=
  if (mapFind k g.atag).isSome then .error .hold else .ok (mapGet {} g.a k)

def Group.putS (g : Group) (k : Nat) (x : Word) : Group :=
  { g with s := mapPut 0 k x g.s, stag := mapErase k g.stag }

def Group.putSWide (g : Group) (wide : Bool) (k x : Nat) : Group :=
  let g := g.putS k (BitVec.ofNat 32 x)
  if wide then g.putS (k + 1) (BitVec.ofNat 32 (x / 2 ^ 32)) else g

def Group.putQ (g : Group) (k : Nat) (b : Bool) : Group := { g with q := setBit8 g.q k b }

def Group.putA (g : Group) (k : Nat) (x : AddrReg) : Group :=
  { g with a := mapPut {} k x g.a, atag := mapErase k g.atag }

/-- The group executes if q[PRED[2:0]] XOR PRED[3] holds. -/
def uniActive (g : Group) (pred : BitVec 4) : Bool := getBit8 g.q (pred.toNat % 8) != pred.getLsbD 3

/-- A uniform-set instruction for one group of the bundle. -/
def uniFragment (len : DWord) (pred : BitVec 4) (forbidden : Bool) (fn : State → Nat → Group → List Nat → UniOut)
    (s : State) (gid fid : Nat) : Option State :=
  match s.group? gid with
  | none => some s
  | some g =>
    if forbidden && g.region then some (s.raiseAll gid fid len { cause := 0x0F })
    else
      let all := g.fragLanes fid
      let aged := fun (s : State) => s.setGroup gid fun g => all.foldl (fun g l => g.setThread l (·.age 1)) g
      if uniActive g pred then
        match fn s gid g all with
        | .hold => none
        | .raise r => some (s.retire gid fid len (all.map fun l => (l, .raise r)))
        | .done s d => some ((aged s).retire gid fid len (all.map fun l => (l, d)))
      else some ((aged s).retire gid fid len (all.map fun l => (l, .next false)))

def uniInstr (len : DWord) (pred : BitVec 4) (forbidden : Bool) (fn : State → Nat → Group → List Nat → UniOut)
    (s : State) : Host.Outcome State Fault Refusal := issue (uniFragment len pred forbidden fn) s

/-- A uniform operation that completes: its residue is checked first (R172, R302). -/
def State.checked (s : State) (g : Group) (fn : State → UniOut) : UniOut :=
  let (ok, s) := s.residueCheck g
  if ok then fn s else .done s (.raise { cause := 0x10 })

/-- A uniform-set instruction that only computes on its group's registers. -/
def uniRegs (len : DWord) (pred : BitVec 4) (fn : Group → Except Stop Group) (s : State) :
    Host.Outcome State Fault Refusal :=
  uniInstr len pred false (fun s gid g _ =>
    match fn g with
    | .error .hold => .hold
    | .error (.park _) => .hold
    | .error (.raise r) => .raise r
    | .ok x => s.checked g fun s => .done (s.setGroup gid fun _ => x) (.next false)) s

/-- An unpredicated lane-set instruction that acts on its fragment as a whole. -/
def groupFragment (sh : Shape) (fn : State → Nat → Nat → Group → List Nat → UniOut) (s : State) (gid fid : Nat) :
    Option State :=
  match s.group? gid with
  | none => some s
  | some g =>
    match laneGuard g true sh.pred sh.runs sh.forbidden with
    | some c => some (s.raiseAll gid fid sh.len { cause := c })
    | none =>
      let all := g.fragLanes fid
      match fn s gid fid g all with
      | .hold => none
      | .raise r => some (s.retire gid fid sh.len (all.map fun l => (l, .raise r)))
      | .done s d =>
        let s := s.setGroup gid fun g => all.foldl (fun g l => g.setThread l fun t => t.age (max 1 sh.stall)) g
        some (s.retire gid fid sh.len (all.map fun l => (l, d)))

/-! ## Addresses (R49, R165, R167) -/

def AddrReg.space (a : AddrReg) : Nat := (a.attr.extractLsb' 8 4).toNat
def AddrReg.objid (a : AddrReg) : Word := a.attr.extractLsb' 32 32
def AddrReg.pcore (a : AddrReg) : Nat := (a.attr.extractLsb' 24 5).toNat
def AddrReg.gangpos (a : AddrReg) : Nat := (a.attr.extractLsb' 16 5).toNat
def AddrReg.canR (a : AddrReg) : Bool := a.attr.getLsbD 0
def AddrReg.canW (a : AddrReg) : Bool := a.attr.getLsbD 1
def AddrReg.canX (a : AddrReg) : Bool := a.attr.getLsbD 2

/-- ATTR without its reserved bits (R5, R165). -/
def attrMask : DWord := 0xFFFFFFFF1F1F0F07

/-- The effective address: never a fault. -/
def effAddr (a : AddrReg) (idx : Word) (scale : Nat) (off : DWord) : DWord :=
  a.pointer + idx.signExtend 64 * BitVec.ofNat 64 (2 ^ scale) + off

/-- What an access does. -/
inductive Access where
  | read
  | write
  | modify
  | fetch
deriving DecidableEq, Repr

def Access.reads : Access → Bool
  | .read => true
  | .modify => true
  | _ => false

def Access.writes : Access → Bool
  | .write => true
  | .modify => true
  | _ => false

/-- The gang of a group: its width in blocks, and the cores of a block. -/
def State.gangShape (s : State) (g : Group) : Nat × Nat :=
  match s.block? g.bid with
  | some b => (b.gangb, b.cores.length)
  | none => (1, 1)

/-- The checks of the address register on [ea, ea + n) (R167). -/
def State.checkReg (s : State) (g : Group) (a : AddrReg) (spaces : List Nat) (acc : Access) (ea : DWord) (n : Nat) :
    Option Nat :=
  let (gangb, bcores) := s.gangShape g
  if !spaces.contains a.space || (a.space == 2 && (gangb ≤ a.gangpos || bcores ≤ a.pcore)) then some 0x16
  else if ea.toNat < a.base.toNat || a.base.toNat + a.limit.toNat < ea.toNat + n then some 0x04
  else if (acc.reads && !a.canR) || (acc.writes && !a.canW) || (acc == .fetch && !a.canX) then some 0x05
  else none

/-! ## Scratchpad places (R193, R199, R361) -/

/-- The position of a group's core in its block. -/
def State.coreIndex (s : State) (g : Group) : Nat :=
  match s.block? g.bid with
  | some b => (b.cores.findIdx? (· == g.core)).getD 0
  | none => 0

/-- The block at a gang position, if it holds its region. -/
def State.gangMember (s : State) (g : Group) (pos : Nat) : Option (Nat × Block) :=
  (s.block? g.bid).bind fun b =>
    s.blocks.find? fun (_, x) =>
      x.rid == b.rid && x.rid.isSome && x.life == b.life && x.index == b.index / b.gangb * b.gangb + pos

/-- The scratchpad figure of a group's block. -/
def State.spadSize (s : State) (g : Group) : Nat := ((s.block? g.bid).map (·.hdr.spad)).getD 0

/-- An access in SPAD or PEER-SPAD: ARANGE outside [0, SP) (R193). A group that migrated reaches its block's scratchpad
on the core it came from (R107): position `home`. -/
def State.spadPlace (s : State) (g : Group) (a : AddrReg) (ea : DWord) (n : Nat) : Except Nat (Option Place) :=
  if s.spadSize g < ea.toNat + n then .error 0x04
  else if a.space = 2 then
    match s.gangMember g a.gangpos with
    | some (bid, _) => .ok (some (.spad bid a.pcore ea.toNat))
    | none => .ok none
  else .ok (some (.spad g.bid g.home ea.toNat))

/-- A scratchpad access that goes through a slice (R28): one in PEER-SPAD, and every one of a group that has migrated away
from its block's region (R107). -/
def State.viaSlice (s : State) (g : Group) (a : AddrReg) : Bool :=
  a.space == 2 || !((s.block? g.bid).any fun b => b.cores[g.home]? == some g.core)

/-! ## Objects (R229 to R235) -/

/-- The live object of an id. -/
def State.object? (s : State) (id : Word) : Option ObjEntry :=
  (mapFind (id.extractLsb' 13 12).toNat (s.slice (id.extractLsb' 25 7).toNat).objects).filter (·.id == id)

def State.setObject (s : State) (id : Word) (f : ObjEntry → ObjEntry) : State :=
  s.setSlice (id.extractLsb' 25 7).toNat fun k =>
    { k with objects := mapUpdate (id.extractLsb' 13 12).toNat f k.objects }

def ObjEntry.visible (o : ObjEntry) (part : Nat) : Bool := o.part == part || o.shared

def ObjEntry.covers (o : ObjEntry) (ea n : Nat) : Bool := o.base.toNat ≤ ea && ea + n ≤ o.base.toNat + o.extent.toNat

/-- The world and ownership of a peer's memory are judged at the peer; the window of the device's own id is no window
(R332). -/
def State.window (s : State) (pa : Nat) : Bool :=
  match paKind pa with
  | .peer d => d != s.domain
  | .host => true
  | _ => false

/-- Orders 2 to 5 of R221, after ALIGN: the physical address of a GLOBAL or SYS access that lies in one page. `deny` says
which physical addresses the instruction cannot act on (R246). -/
def State.checkPage (s : State) (g : Group) (a : AddrReg) (acc : Access) (ea : DWord) (n : Nat)
    (deny : Nat → Bool := fun _ => false) : Except Nat Nat × State :=
  if 2 ^ 56 ≤ ea.toNat then (.error 0x16, s)
  else
    match s.translate g.core g.part ea.toNat with
    | (none, s) => (.error 0x06, s)
    | (some e, s) =>
      let pa := e.pa ea.toNat
      let obj := s.object? a.objid
      let r : Except Nat Nat :=
        if (acc.reads && !e.r) || (acc.writes && !e.w) || (acc == .fetch && !e.x) then .error 0x07
        else if inDevice pa && !s.admits g.part pa then .error 0x07
        else if !inDevice pa && !s.window pa then .error 0x16
        else if (a.space == 0) != inDevice pa || deny pa then .error 0x16
        else if a.objid != 0 && !(obj.any fun o => o.visible g.part && o.covers ea.toNat n) then .error 0x16
        else .ok pa
      (r, s)

/-- Order 6 of R221: the access writes through a register that names a SEALED object. -/
def State.checkSealed (s : State) (a : AddrReg) (acc : Access) : Bool :=
  acc.writes && (s.object? a.objid).any (·.state == .sealed)

/-- Orders 2 to 6 of R221. -/
def State.checkGlobal (s : State) (g : Group) (a : AddrReg) (acc : Access) (ea : DWord) (n : Nat)
    (deny : Nat → Bool := fun _ => false) : Except Nat Nat × State :=
  match s.checkPage g a acc ea n deny with
  | (.error c, s) => (.error c, s)
  | (.ok pa, s) => (if s.checkSealed a acc then .error 0x09 else .ok pa, s)

/-- R221 in whole, ALIGN first. -/
def State.checkAccess (s : State) (g : Group) (a : AddrReg) (acc : Access) (ea : DWord) (n align : Nat)
    (deny : Nat → Bool := fun _ => false) : Except Nat Nat × State :=
  if ea.toNat % align ≠ 0 then (.error 0x08, s) else s.checkGlobal g a acc ea n deny

end Sys2Proof.Machine
end

