-- ==== Sys2Proof/Machine/Fetch.lean ====
section
/-! DEFINITION. The front end: instruction fetch (R31, R237), the bundle at issue (R94, R95), and what becomes of a bundle
once its instruction has issued. -/

namespace Sys2Proof.Machine

/-- A line enters an instruction cache of 512 lines; which one makes room is not stated (R237, notes/assumptions/11). -/
def Core.icacheFill (c : Core) (line : Nat) (bs : List Byte) : Core :=
  let others := mapErase line c.icache
  { c with icache := mapInsert line bs (others.drop (others.length - 511)) }

/-- The 32-byte sector of code at an address: from the instruction cache if its line is there and still used, else read
at its home as a strong load would, which fills the line (R237). The cause otherwise. A line with a poisoned sector, whose
bytes nothing may use, is not kept (R360). -/
def State.fetchSector (s : State) (core part va : Nat) : Except Nat (List Byte) × State :=
  let at_ := va / 32 * 32
  if 2 ^ 56 ≤ at_ then (.error 0x16, s)
  else
    match s.translate core part at_ with
    | (none, s) => (.error 0x06, s)
    | (some e, s) =>
      let pa := e.pa at_
      if !e.x then (.error 0x07, s)
      else if !inDevice pa then (.error 0x16, s)
      else if !s.admits part pa then (.error 0x07, s)
      else
        let refill := fun (s : State) =>
          if s.poisoned pa 32 then (.error 0x11, s)
          else
            let line := pa / 128 * 128
            (.ok (s.bytes pa 32),
              if s.poisoned line 128 then s else s.setCore core (·.icacheFill (pa / 128) (s.bytes line 128)))
        match mapFind (pa / 128) (s.core core).icache with
        | none => refill s
        | some line =>
          let (k, s) := s.pick 2
          if k == 0 then (.ok ((line.drop (pa % 128)).take 32), s) else refill s

/-- One code word of a group, from its fetched sectors where they hold it (R237). -/
def State.codeWord (s : State) (gid va : Nat) : Except (Nat × Nat) (List Byte) × State :=
  match s.group? gid with
  | none => (.error (0x06, va), s)
  | some g =>
    match mapFind (va / 32) g.fetched with
    | some bs => (.ok ((bs.drop (va % 32)).take 4), s)
    | none =>
      match s.fetchSector g.core g.part va with
      | (.error c, s) => (.error (c, va), s)
      | (.ok bs, s) =>
        (.ok ((bs.drop (va % 32)).take 4),
          s.setGroup gid fun g => { g with fetched := mapInsert (va / 32) bs g.fetched })

/-- A word 0 that a second word follows: X set in Sazil-D, every word in Sazil-L (R31, R33). -/
def twoWords (e : Enc) (w : List Byte) : Bool :=
  match e with
  | .l => true
  | .d => (w.getD 3 0).getLsbD 6

/-- The bytes of the instruction at an address, as a group fetches them. -/
def State.codeAt (s : State) (gid : Nat) (e : Enc) (pc : DWord) : Except (Nat × Nat) (List Byte) × State :=
  match s.codeWord gid pc.toNat with
  | (.error x, s) => (.error x, s)
  | (.ok w, s) =>
    if twoWords e w then
      match s.codeWord gid (pc + 4).toNat with
      | (.error x, s) => (.error x, s)
      | (.ok v, s) => (.ok (w ++ v), s)
    else (.ok w, s)

/-- A bundle's instruction bytes: those of its first fragment, and the fragments whose groups fetched the same. The
first fragment's fetch fault ends the attempt. -/
def State.gather (s : State) (e : Enc) (pc : DWord) :
    List (Nat × Nat) → Option (List Byte) → Except (Nat × Nat × Nat × Nat) (List Byte × List (Nat × Nat)) × State
  | [], got => (.ok (got.getD [], []), s)
  | (gid, fid) :: rest, got =>
    match s.codeAt gid e pc, got with
    | (.error (c, a), s), none => (.error (gid, fid, c, a), s)
    | (.error _, s), some bs => s.gather e pc rest (some bs)
    | (.ok bs, s), got =>
      if got = none ∨ got = some bs then
        match s.gather e pc rest (some bs) with
        | (.error x, s) => (.error x, s)
        | (.ok (b, fs), s) => (.ok (b, (gid, fid) :: fs), s)
      else s.gather e pc rest got

/-- What a bundle's turn at the front end comes to: nothing to execute, or an instruction. -/
inductive Front where
  | idle (s : State)
  | run (i : Instr) (s : State)

/-- Fragments of a bundle that can issue on the core. -/
def State.issuable (s : State) (c : Nat) (b : Bundle) : List (Nat × Nat) :=
  b.frags.filter fun (gid, fid) =>
    match s.group? gid with
    | some g => g.residence == .resident && g.core == c && !(g.fragLanes fid).isEmpty
    | none => false

/-- The fragments that stand with the bundle's first one: its PC and its encoding (R94). -/
def State.together (s : State) (pc : DWord) (e : Enc) (fs : List (Nat × Nat)) : List (Nat × Nat) :=
  fs.filter fun (gid, fid) =>
    match s.group? gid with
    | some g => g.fragPc fid == pc && g.enc == e
    | none => false

/-- Raises ILLOP for every fragment (R56, row 2). -/
def State.illegal (s : State) (len : DWord) : List (Nat × Nat) → State
  | [] => s
  | (gid, fid) :: rest => (s.raiseAll gid fid len { cause := 1 }).illegal len rest

/-- A held meld region goes on as one stream once its trapped lanes are back: the group's fragments at the PC merge and
the hold is over (R126). -/
def Group.releaseHold (pc : DWord) (g : Group) : Group :=
  if g.region && (g.holds.any fun (p, _) => p == pc) && !g.heldAt pc then
    { g.mergeLanes (g.lanesAt pc) with holds := g.holds.filter fun (p, _) => p != pc }
  else g

/-- The fragments of a list as they are after merging at their PC, each once. -/
def State.remerged (s : State) (pc : DWord) (fs : List (Nat × Nat)) : List (Nat × Nat) :=
  fs.foldl (fun acc (gid, fid) =>
    let x := match s.group? gid with
      | some g => if (g.fragLanes fid).isEmpty then
          (gid, (((g.lanesAt pc).head?.bind g.thread?).map (·.frag)).getD fid) else (gid, fid)
      | none => (gid, fid)
    if acc.contains x then acc else acc ++ [x]) []

/-- A bundle that has its turn is not stalled until its instruction says so (R95). -/
def State.unstall (s : State) (c : Nat) (b : Bundle) : State :=
  let clear := fun (x : Bundle) => if b.frags.any fun f => x.frags.contains f then { x with stalled := false } else x
  s.setCore c fun k => { k with active := k.active.map clear }

/-- A bundle's turn: fetch, then decode. A fetch fault is taken at the instruction whose words failed, the address in
ADDR; words that are no instruction raise ILLOP (R56, R286). -/
def State.front (s : State) (c : Nat) (b : Bundle) : Front :=
  match s.issuable c b with
  | [] => .idle s
  | (g0, f0) :: rest =>
    match s.group? g0 with
    | none => .idle s
    | some g =>
      let pc := g.fragPc f0
      let e := g.enc
      let at_ := s.together pc e ((g0, f0) :: rest)
      let s := at_.foldl (fun s (gid, _) => s.setGroup gid (·.releaseHold pc)) s
      let fs := (s.remerged pc at_).filter fun (gid, _) => (s.group? gid).any fun g => !g.heldAt pc
      match fs with
      | [] => .idle s
      | _ :: _ =>
        match s.gather e pc fs none with
        | (.error (gid, fid, cause, addr), s) =>
          .idle (s.raiseAll gid fid 0 { cause := cause, addr := BitVec.ofNat 64 addr, repc := some pc })
        | (.ok (bs, fs), s) =>
          match decodeBytes e bs with
          | .error _ => .idle (s.illegal (BitVec.ofNat 64 bs.length) fs)
          | .ok (i, _) => .run i { s.unstall c b with cur := some (c, { frags := fs }) }

/-- READY and RUNNING as the active set has them (R103). -/
def Group.mark (gid : Nat) (active : List (Nat × Nat)) (g : Group) : Group :=
  { g with threads := g.threads.map fun t =>
      if !t.st.issuable then t
      else if active.contains (gid, t.frag) then { t with st := .running, readyAt := none }
      else { t with st := .ready } }

def State.markCore (s : State) (c : Nat) : State :=
  let frags := (s.core c).active.flatMap (·.frags)
  { s with groups := s.groups.map fun (gid, g) => if g.core == c then (gid, g.mark gid frags) else (gid, g) }

/-- A bundle whose turn is over goes behind the others of the active set; fragments that cannot issue, or that no longer
stand at its PC, leave it (R94, R95). -/
def State.turnOver (s : State) (c : Nat) (b : Bundle) : State :=
  let old := (s.core c).active
  let keep := fun (x : Bundle) =>
    let fs := s.issuable c x
    match fs with
    | [] => { x with frags := [] }
    | (g0, f0) :: _ =>
      match s.group? g0 with
      | none => { x with frags := [] }
      | some g => { x with frags := s.together (g.fragPc f0) g.enc fs }
  let first := old.filter fun x => b.frags.any fun f => x.frags.contains f
  let others := old.filter fun x => !(b.frags.any fun f => x.frags.contains f)
  let s := s.setCore c fun k => { k with
    active := ((others ++ first).map keep).filter fun x => !x.frags.isEmpty }
  s.markCore c

/-- A group's threads stand where they stood. -/
def State.stands (before s : State) (gid : Nat) : Bool :=
  (before.group? gid).map (fun g => g.threads.map fun t => (t.st, t.pc))
    == (s.group? gid).map (fun g => g.threads.map fun t => (t.st, t.pc))

/-- The bundle that shares a fragment with one meets a stall, or yields: the results that its groups wait for. -/
def State.markStall (s : State) (c : Nat) (b : Bundle) (waits : List Nat) : State :=
  let mark := fun (x : Bundle) =>
    if b.frags.any fun f => x.frags.contains f then { x with stalled := true, waits := waits } else x
  s.setCore c fun k => { k with active := k.active.map mark }

/-- The operations of a bundle's groups whose results are outstanding. -/
def State.outstanding (s : State) (b : Bundle) : List Nat :=
  (s.pends.filter fun (_, p) => p.dest != .none && p.dest != .answer && b.frags.any fun f => f.1 == p.gid).map (·.1)

/-- A bundle whose instruction is held back has met a long-latency stall (R95). -/
def State.noteStall (before : State) (c : Nat) (b : Bundle) (s : State) : State :=
  if b.frags.all fun f => State.stands before s f.1 then s.markStall c b (s.outstanding b) else s

/-- The scheduling-field YIELD of an instruction (R43). -/
def yieldsOf (i : Instr) : Bool :=
  match i.row? with
  | some (_, .r f) => f.yld
  | _ => false

/-- The cycles that a uniform-set instruction's STALL adds to the one that every instruction takes (R43). -/
def stallOf (i : Instr) : Nat :=
  match i.row? with
  | some (r, .r f) => if r.uniform then f.stall.toNat - 1 else 0
  | _ => 0

/-- Cycles pass for the threads of a bundle's fragments. -/
def State.ageBundle (s : State) (b : Bundle) (n : Nat) : State :=
  if n = 0 then s
  else
    b.frags.foldl (fun s (gid, fid) => s.setGroup gid fun g =>
      { g with threads := g.threads.map fun t => if t.frag == fid then t.age n else t }) s

/-- A bundle in native mode that carries the scheduling-field YIELD gives way while another active bundle is eligible
(R43, R95). -/
def State.noteYield (s : State) (c : Nat) (b : Bundle) (yields : Bool) : State :=
  let native := b.frags.any fun f => (s.group? f.1).any fun g => !g.ilk
  let other := (s.core c).active.any fun x => !x.stalled && !(b.frags.any fun f => x.frags.contains f)
  if yields && native && other then s.markStall c b [] else s

/-- After the turn of a bundle for an instruction; `before` is the state in which it issued. -/
def State.afterTurn (before s : State) (i : Instr) : State :=
  match s.cur with
  | none => s
  | some (c, b) =>
    { (((State.noteStall before c b s).ageBundle b (stallOf i)).noteYield c b (yieldsOf i)).turnOver c b with cur := none }

/-- A READY thread that has not noted when it became so (R95). -/
def Thread.newlyReady (t : Thread) : Bool :=
  match t.st, t.readyAt with
  | .ready, none => true
  | _, _ => false

/-- The threads that a step has made READY note it. -/
def State.noteReady (s : State) : State :=
  if s.groups.any fun (_, g) => g.threads.any (·.newlyReady) then
    let note := fun (t : Thread) => if t.newlyReady then { t with readyAt := some s.seq } else t
    { s with groups := s.groups.map fun (gid, g) => (gid, { g with threads := g.threads.map note }), seq := s.seq + 1 }
  else s

/-- The instruction of numbered bits as the bytes of a fetched sector: the instruction at the sector's start, zeros
after it. -/
def sectorOf (w : Nat) : List Byte := leBytes 32 (w % 2 ^ 64)

/-- A group of sixteen threads that stands at address 0 of a Sazil-D text on core 0, with its code already fetched: what
a launch of one group would leave there (notes/assumptions/14). -/
def launchedGroup (bid w : Nat) : Group :=
  { bid := bid, index := 0, width := 16, part := 0, core := 0, rows := [0], lane0 := 0, enc := .d, ilk := true, c16 := false
    vregs := 240, privileged := false, handler := false
    threads := (List.range 16).map fun _ => {}
    frags := [{ id := 0, parent := 0, sib := 0xFFFF }]
    fetched := [(0, sectorOf w)] }

/-- The block of that group. -/
def launchedBlock (gid : Nat) : Block :=
  { rid := none, part := 0, index := 0, gangb := 1, hdr := { encD := true, vregsD := 240 }, cores := [0], groups := [gid]
    regions := [{ size := 0 }], tiles := [[]] }

/-- That group placed, its only fragment the bundle at issue. -/
def State.launched (s : State) (w : Nat) : State :=
  let gid := mapFresh s.groups
  let bid := mapFresh s.blocks
  let b : Bundle := { frags := [(gid, 0)] }
  let s := { s with groups := mapInsert gid (launchedGroup bid w) s.groups
                    blocks := mapInsert bid (launchedBlock gid) s.blocks
                    cur := some (0, b) }
  s.setCore 0 fun c => { c with active := c.active ++ [b] }

end Sys2Proof.Machine

/-- The rows that a device stopped by loss of cooling still answers: BAR reads, and the cold reset (R349). -/
def Sys2Proof.Instr.whileStopped (i : Sys2Proof.Instr) : Bool :=
  match i with
  | .coldReset _ => true
  | .bar2Read _ _ => true
  | .bar0IllegalAccess _ _ _ => true
  | _ => false
end

