-- ==== Sys2Proof/Machine/Stores.lean ====
section
/-! DEFINITION. The store path (R222, R223, R231, R232, R262, R263): private buffers, the L1, the requests a core sends
and the order they arrive in (R29), and a store's application at its home. -/

namespace Sys2Proof.Machine

/-! ## Places and sectors -/

def Place.add (p : Place) (n : Nat) : Place :=
  match p with
  | .mem pa => .mem (pa + n)
  | .spad b i o => .spad b i (o + n)

/-- The offset of a place in its 32-byte sector. -/
def Place.low (p : Place) : Nat :=
  match p with
  | .mem pa => pa % 32
  | .spad _ _ o => o % 32

/-- The first byte of a place's sector. -/
def Place.sector (p : Place) : Place :=
  match p with
  | .mem pa => .mem (pa / 32 * 32)
  | .spad b i o => .spad b i (o / 32 * 32)

/-- The first byte of a place's 128-byte line. -/
def Place.line (p : Place) : Place :=
  match p with
  | .mem pa => .mem (pa / 128 * 128)
  | .spad b i o => .spad b i (o / 128 * 128)

/-- The pieces of n bytes by sector: the sector, the offset in it, the index of the first byte, the length. -/
def piecesFrom : Nat → Place → Nat → Nat → List (Place × Nat × Nat × Nat)
  | 0, _, _, _ => []
  | fuel + 1, p, i, n =>
    if n = 0 then []
    else
      let k := min n (32 - p.low)
      (p.sector, p.low, i, k) :: piecesFrom fuel (p.add k) (i + k) (n - k)

def pieces (p : Place) (n : Nat) : List (Place × Nat × Nat × Nat) := piecesFrom (n + 1) p 0 n

/-- The slice that a request about a place goes to: the home, or the home of the scratchpad's gang-map entry (R26,
R28). Which slice holds a gang-map entry is not stated: one free choice for each block, the same for every core's region
(notes/assumptions/81). -/
def Place.slice (p : Place) : Nat :=
  match p with
  | .mem pa => homeOf pa
  | .spad b _ _ => Config.homeHash (2 ^ 50 + b) % 128

/-- A place in device memory, which the caches hold; scratchpad and system windows are not cached (R222). -/
def Place.cached (p : Place) : Bool :=
  match p with
  | .mem pa => inDevice pa
  | .spad _ _ _ => false

/-- The key of a sector in an L1. -/
def Place.key (p : Place) : Nat :=
  match p with
  | .mem pa => pa / 32
  | .spad _ _ _ => 0

/-! ## Scratchpad bytes (R193, R196, R361) -/

def Block.region? (b : Block) (idx : Nat) : Option Region := b.regions[idx]?

def State.region? (s : State) (bid idx : Nat) : Option Region := (s.block? bid).bind (·.region? idx)

def State.setSpad (s : State) (bid idx : Nat) (f : Region → Region) : State :=
  s.setBlock bid fun b => { b with regions := listUpdate idx f b.regions }

/-- The bytes at a place; zeros where a released region is named. -/
def State.placeBytes (s : State) (p : Place) (n : Nat) : List Byte :=
  match p with
  | .mem pa => s.bytes pa n
  | .spad bid idx off =>
    match s.region? bid idx with
    | some r => (List.range n).map fun i => mapGet 0 r.data (off + i)
    | none => List.replicate n 0

/-- Writes bytes at a place; a released region takes none. -/
def State.placeWrite (s : State) (p : Place) (bs : List Byte) : State :=
  match p with
  | .mem pa => s.write pa bs
  | .spad bid idx off =>
    s.setSpad bid idx fun r =>
      { r with
        data := memWrite r.data off bs
        poison := r.poison.filter fun k => !(wholeSectors off bs.length).contains k }

/-- Some byte lies in a poisoned sector. -/
def State.placePoisoned (s : State) (p : Place) (n : Nat) : Bool :=
  match p with
  | .mem pa => s.poisoned pa n
  | .spad bid idx off =>
    match s.region? bid idx with
    | some r => r.poison.any fun k => off < 32 * (k + 1) && 32 * k < off + n
    | none => false

/-- ADDR of a POISON cause: the physical address; an offset in scratchpad. -/
def Place.address (p : Place) : DWord :=
  match p with
  | .mem pa => BitVec.ofNat 64 pa
  | .spad _ _ o => BitVec.ofNat 64 o

/-- The lines of scratchpad bytes that are absent. -/
def State.absentLines (s : State) (bid idx off n : Nat) : List Nat :=
  match s.region? bid idx with
  | none => []
  | some r =>
    ((List.range ((off + n + 127) / 128 - off / 128)).map (off / 128 + ·)).filter fun k =>
      r.owed.any fun (line, _) => line == k

/-- A byte lies in an object that an engine owns (R206). -/
def State.inOwned (s : State) (pa : Nat) : Bool :=
  s.slices.any fun (_, k) => k.objects.any fun (_, o) =>
    o.state == .owned && !(s.vasOf o.part o.base.toNat o.extent.toNat pa).isEmpty

/-- An engine holds a line of the bytes, or their object, or a scratchpad line of them is absent: the access waits (R196,
R206). -/
def State.placeBlocked (s : State) (p : Place) (n : Nat) : Bool :=
  match p with
  | .mem pa =>
    (s.inOwned pa || s.inOwned (pa + n - 1))
      || (List.range ((pa + n + 127) / 128 - pa / 128)).any fun k =>
        let line := pa / 128 + k
        (s.slice (homeOf (128 * line))).owned.any fun (l, _) => l == line
  | .spad bid idx off => !(s.absentLines bid idx off n).isEmpty

/-! ## The request network (R29) -/

/-- The bytes a store touches, from its first to its last. -/
def Store.span (st : Store) : Place × Nat :=
  match st.bytes.head?, st.bytes.getLast? with
  | some (a, _), some (b, _) => (st.at_.add a, b - a + 1)
  | _, _ => (st.at_, 0)

/-- The bytes a request is about. -/
def ReqKind.extents (k : ReqKind) : List (Place × Nat) :=
  match k with
  | .load p n _ _ _ => [(p, n)]
  | .fill pa _ => [(.mem pa, 32)]
  | .store st => [st.span]
  | .atomic p n _ _ _ => [(p, n)]
  | .row segs _ _ _ _ _ => segs.map fun (pa, n) => (.mem pa, n)
  | .queue _ _ _ => []
  | .arrive p _ _ => [(p, 32)]
  | .sample _ _ => []
  | .inspect _ => []

def ReqKind.blockedIn (k : ReqKind) (s : State) : Bool := k.extents.any fun (p, n) => s.placeBlocked p n

/-- Two stretches of bytes share a sector. -/
def stretchesMeet : Place × Nat → Place × Nat → Bool
  | (.mem x, n), (.mem y, m) => x / 32 * 32 < y + m && y / 32 * 32 < x + n
  | (.spad b i x, n), (.spad c j y, m) => b == c && i == j && x / 32 * 32 < y + m && y / 32 * 32 < x + n
  | _, _ => false

/-- Two requests touch one sector. -/
def ReqKind.meets (a b : ReqKind) : Bool := a.extents.any fun x => b.extents.any fun y => stretchesMeet x y

/-- Sends a request to a slice, behind the core's earlier ones. -/
def State.post (s : State) (core slice gid part : Nat) (kind : ReqKind) : State :=
  let (id, s) := s.fresh
  { s with net := s.net ++ [{ id := id, core := core, slice := slice, gid := gid, part := part, kind := kind }] }

/-- One half of a packed addition has been applied: another atomic or load may be served before the other half
(R245). -/
def ReqKind.letsPass (x y : ReqKind) : Bool :=
  match x, y with
  | .atomic _ _ o _ _, .load _ _ _ _ _ => o.lowDone || o.highDone
  | .atomic _ _ o _ _, .atomic _ _ _ _ _ => o.lowDone || o.highDone
  | _, _ => false

/-- An atomic or a row operation leaves its core behind the stores of its lanes' groups to its bytes: those that are
older than its instruction have been applied (R199, R240, R251). -/
def State.behindOwn (s : State) (r : Req) : Bool :=
  let wait : List Nat × Nat := match r.kind with
    | .atomic _ _ o lanes _ => (lanes.map (·.pend), o.issue)
    | .row _ _ _ lanes _ n => (lanes.map (·.1), n)
    | _ => ([], 0)
  let gids := wait.1.filterMap fun p => (mapFind p s.pends).map (·.gid)
  (s.core r.core).sq.any (fun e => gids.contains e.gid && e.seq < wait.2 && r.kind.extents.any (stretchesMeet e.span))
    || ((s.core r.core).wt ++ (s.core r.core).wc).any fun e =>
      !e.applied && gids.contains e.gid && e.seq < wait.2 && r.kind.extents.any (stretchesMeet e.span)

/-- The request may be served: nothing holds its bytes, no store that it follows is still on its way, and every earlier
request of its core to its slice waits for bytes that it does not touch. -/
def State.servable (s : State) (r : Req) : Bool :=
  !r.kind.blockedIn s && !s.behindOwn r &&
    (s.net.takeWhile fun x => x.id != r.id).all fun x =>
      x.core != r.core || x.slice != r.slice || (x.kind.blockedIn s && !x.kind.meets r.kind) || x.kind.letsPass r.kind

/-- A request that may be served now, taken off the network. -/
def State.take (s : State) (id : Nat) : Option (Req × State) :=
  match s.net.find? (·.id == id) with
  | some r => if s.servable r then some (r, { s with net := s.net.filter (·.id != id) }) else none
  | none => none

/-! ## The L1 (R222, R223) -/

/-- Overwrites bytes of a list from a sparse map of offsets. -/
def patch (bytes : SMap Byte) (bs : List Byte) : List Byte :=
  (List.range bs.length).map fun i => (mapFind i bytes).getD (bs.getD i 0)

/-- A sector with bytes written: all 32 replaced clear its poison (R360). -/
def L1Sector.store (x : L1Sector) (bytes : SMap Byte) : L1Sector :=
  { bytes := patch bytes x.bytes, poison := x.poison && bytes.length < 32 }

def Core.l1Drop (c : Core) (key : Nat) : Core := { c with l1 := mapErase key c.l1 }

/-- Lines leave an L1 of n lines until the others fit (R192, R222): not one that holds a pushed sector in place (R268).
Which of the others leave is not stated (notes/assumptions/11). -/
def Core.l1Trim (c : Core) (n : Nat) : Core :=
  if c.l1.length ≤ n then c
  else
    let lines := (mapKeys c.l1).foldl (fun acc k => setAdd (k / 4) acc) []
    let pinned := fun (line : Nat) => (c.sq ++ c.wt).any fun e => e.pushed && e.at_.key / 4 == line
    let gone := (lines.filter fun l => !pinned l).take (lines.length - n)
    { c with l1 := c.l1.filter fun (k, _) => !gone.contains (k / 4) }

/-- The L1 gives up what the scratchpad pool has taken (R192). -/
def State.l1Shrink (s : State) (core : Nat) : State := s.setCore core (·.l1Trim (s.l1Lines core))

/-- An entry leaves the store queue: a weak store updates the sector if it is present, a strong one invalidates it. -/
def Core.l1Leave (c : Core) (e : Store) : Core :=
  if !e.at_.cached then c
  else if e.strong then c.l1Drop e.at_.key
  else { c with l1 := mapUpdate e.at_.key (·.store e.bytes) c.l1 }

/-! ## Leaving the buffers -/

def Store.same (a b : Store) : Bool := a.seq == b.seq && a.gid == b.gid && a.at_ == b.at_

def State.closeLate (s : State) (gid : Nat) (sel : Late → Bool) : State :=
  if (s.group? gid).any fun g => g.late.any sel then s.setGroup gid (·.closeLate sel) else s

/-- The operands that some entry's bytes await have been read. -/
def State.readOwners (s : State) (e : Store) : State :=
  s.closeLate e.gid fun r => e.owner.any fun (_, i, _) => i == r.id

/-- An operand that waits for a result: of a register that has one outstanding, or one that a later write has taken
(R131). -/
def State.lateWaits (s : State) (g : Group) (r : Late) : Bool :=
  r.owedBy.any s.resultDue
    || r.regs.any fun q => (g.thread? r.lane).any fun t => (mapFind q t.vtag).any s.resultDue

/-- Some byte of an entry waits for a result: the entry stays where it is. -/
def State.entryWaits (s : State) (e : Store) : Bool :=
  !e.owner.isEmpty && (s.group? e.gid).any fun g => g.late.any fun r =>
    (e.owner.any fun (_, i, _) => i == r.id) && s.lateWaits g r

/-- Operands of every group have been read. -/
def State.closeEvery (s : State) (sel : Group → Late → Bool) : State :=
  s.groups.foldl (fun s (gid, g) => s.closeLate gid (sel g)) s

/-- A record's bytes among bytes of a region. -/
def Late.inSpad (r : Late) (bid idx off n : Nat) : List Nat :=
  match r.use with
  | .spad c j q => if c == bid && j == idx then r.own.filter fun k => off ≤ q + k && q + k < off + n else []
  | _ => []

/-- Scratchpad bytes are read: the operands that they come from have been read (R131, R198). -/
def State.readSpad (s : State) (p : Place) (n : Nat) : State :=
  match p with
  | .mem _ => s
  | .spad b i o => s.closeEvery fun _ r => !(r.inSpad b i o n).isEmpty

/-- Bytes of a scratchpad place that are written again belong to the later store: no operand read after issue changes them
any more (R131). -/
def State.disown (s : State) (p : Place) (n : Nat) : State :=
  match p with
  | .mem _ => s
  | .spad b i o =>
    if s.groups.any fun (_, g) => g.late.any fun r => !(r.inSpad b i o n).isEmpty then
      let cut := fun (r : Late) => { r with own := r.own.filter fun k => !(r.inSpad b i o n).contains k }
      { s with groups := s.groups.map fun (k, g) => (k, { g with late := g.late.map cut }) }
    else s

/-- What an operation reads after issue. An operand with a result outstanding may be read at once, before the result is
there; an atomic's operand and a copy's offsets, which are checked at issue, always are (R131, notes/assumptions/7). -/
def State.readsLate (s : State) (t : Option Thread) (regs : List Nat) (use : LateUse) : LateUse × State :=
  let due := regs.any fun q => t.any fun t => (mapFind q t.vtag).any s.resultDue
  match due, use with
  | false, use => (use, s)
  | true, .counted => (use, s)
  | true, .copy _ _ _ _ => (.counted, s)
  | true, use =>
    let (k, s) := s.pick 2
    (if k == 0 then .counted else use, s)

/-- An operation counts a lane's registers that it reads after issue (R131, R132): in native mode, where a later write can
overtake it. Elsewhere such a write waits until they are read, which is as if they were read at issue. The record's
number, where its operands are still to be read. -/
def State.openLate (s : State) (gid : Nat) (g : Group) (lane : Nat) (c : Counter) (regs : List Nat) (size : Nat)
    (use : LateUse) : Option Nat × State :=
  if g.ilk then (none, s)
  else
    let (use, s) := s.readsLate (g.thread? lane) regs use
    let (id, s) := s.fresh
    let r : Late := { id := id, lane := lane, counter := c, regs := regs, size := size, use := use
                      own := List.range size }
    (if use = .counted then none else some id, s.setGroup gid fun g =>
      { g.setThread lane (·.count c (· + 1)) with late := g.late ++ [r] })

/-- The lane's counter is full: the instruction waits at issue (R132). -/
def Thread.full (t : Thread) (c : Counter) : Bool :=
  match c with
  | .stores => 63 ≤ t.stores
  | .copies => 63 ≤ t.copies
  | .tiles => 63 ≤ t.tiles

/-- One store-queue entry passes to the write-through queue and is sent. -/
def State.sendEntry (s : State) (core : Nat) (e : Store) : State :=
  let s := s.readOwners e
  let e' := { e with sent := true, owner := [] }
  let s := s.setCore core fun c =>
    ({ c with sq := c.sq.filter (fun x => !x.same e), wt := c.wt ++ [e'] }).l1Leave e
  s.post core e.at_.slice e.gid e.part (.store e')

/-- An entry may leave: no earlier one for its sector stands before it, the write-through queue has room, and its data
are there (R223). -/
def State.mayLeave (s : State) (core : Nat) (e : Store) : Bool :=
  let c := s.core core
  (c.sq.takeWhile fun x => !x.same e).all (fun x => x.at_ != e.at_) && c.wt.length < 128 && !s.entryWaits e

/-- Sends, of entries in their order, the selected ones and those that stand before a selected one for its sector, as far
as the write-through queue has room (R223). -/
def State.sendFrom (core : Nat) (sel : Store → Bool) : List Store → State → State
  | [], s => s
  | e :: rest, s =>
    let wanted := sel e || rest.any fun x => sel x && x.at_ == e.at_
    State.sendFrom core sel rest (if wanted && s.mayLeave core e then s.sendEntry core e else s)

def State.sendEntries (s : State) (core : Nat) (sel : Store → Bool) : State :=
  State.sendFrom core sel (s.core core).sq s

/-- Sends the selected write-combining lines whole. -/
def State.sendLines (s : State) (core : Nat) (sel : Store → Bool) : State :=
  ((s.core core).wc.filter fun e => sel e && !e.sent).foldl (fun s e =>
    if s.entryWaits e then s
    else
      let s := s.readOwners e
      let e' := { e with sent := true, owner := [] }
      let s := s.setCore core fun c => { c with wc := c.wc.map fun x => if x.same e && !x.sent then e' else x }
      s.post core e.at_.slice e.gid e.part (.store e')) s

/-- Starts a drain of the entries selected. -/
def State.startDrain (s : State) (core : Nat) (sel : Store → Bool) : State :=
  (s.sendEntries core sel).sendLines core sel

/-- The entries of a core's buffers. -/
def Core.entries (c : Core) : List Store := c.sq ++ c.wt ++ c.wc

/-- A group's stores are drained: at their homes and acknowledged (R268). -/
def State.drained (s : State) (core gid : Nat) : Bool := (s.core core).entries.all (·.gid != gid)

/-- A drain as an instruction or an eviction waits for it. -/
def State.drainGroup (s : State) (core gid : Nat) : Bool × State :=
  if s.drained core gid then (true, s) else (false, s.startDrain core (·.gid == gid))

/-! ## Entering the buffers -/

/-- What a store instruction says of each of its stores. -/
structure StoreTag where
  gid : Nat
  part : Nat
  core : Nat
  strong : Bool := false
  nt : Bool := false
  obj : Word := 0
  sys : Bool := false
  /-- The instruction's number. -/
  seq : Nat
  /-- The operand that the bytes come from, where it is read after issue, and which of its bytes is the first (R131). -/
  late : Option (Nat × Nat) := none
  /-- The operation that stands for the storing lanes, in a peer's window (R333). -/
  pend : Option Nat := none

/-- The bytes of one piece as offsets in its sector or line. -/
def offsets (off : Nat) (bs : List Byte) : SMap Byte := (List.range bs.length).map fun i => (off + i, bs.getD i 0)

def mergeBytes (new old : SMap Byte) : SMap Byte := new.foldl (fun m (k, b) => mapInsert k b m) old

/-- The operands that an entry's bytes await once n new bytes stand at an offset. -/
def mergeOwner (late : Option (Nat × Nat)) (off n : Nat) (old : SMap (Nat × Nat)) : SMap (Nat × Nat) :=
  (List.range n).foldl (fun m k => match late with
    | some (i, j) => mapInsert (off + k) (i, j + k) m
    | none => mapErase (off + k) m) old

/-- Weak and strong stores: an entry of this instruction and sector takes the bytes, or a new entry. None: no room. A
write-combining line of the group that holds bytes of the line is sent first (R263). -/
def State.enqueuePiece (s : State) (tag : StoreTag) (p : Place) (off : Nat) (bs : List Byte) : Option State :=
  let line := fun (e : Store) => e.gid == tag.gid && e.at_ == p.line
  let s := s.sendLines tag.core line
  let new := offsets off bs
  let e : Store := { seq := tag.seq, gid := tag.gid, part := tag.part, core := tag.core, at_ := p, bytes := new
                     strong := tag.strong, obj := tag.obj, sys := tag.sys
                     owner := mergeOwner tag.late off bs.length [], pends := tag.pend.toList }
  let q := (s.core tag.core).sq
  if (s.core tag.core).wc.any fun x => line x && !x.sent then none
  else if q.any (·.same e) then
    let take := fun (x : Store) =>
      if x.same e then
        { x with bytes := mergeBytes new x.bytes, owner := mergeOwner tag.late off bs.length x.owner
                 pends := x.pends ++ tag.pend.toList }
      else x
    some (s.setCore tag.core fun c => { c with sq := c.sq.map take })
  else if 256 ≤ q.length then none
  else some (s.setCore tag.core fun c => { c with sq := c.sq ++ [e] })

/-- The offset of a sector in its line. -/
def Place.inLine (p : Place) : Nat :=
  match p with
  | .mem a => a % 128 / 32 * 32
  | .spad _ _ a => a % 128 / 32 * 32

/-- Non-temporal stores: into the group's line of the object, or a new line. None: the buffer's sixteen lines are other
instructions' (R262). For a new line the oldest unsent one leaves, so that an instruction of many lines takes its room as
it goes (notes/assumptions/94). The group's earlier entries for the bytes are sent first (R263). -/
def State.combinePiece (s : State) (tag : StoreTag) (p : Place) (off : Nat) (bs : List Byte) : Option State :=
  let line := p.line
  let mine := fun (e : Store) => e.gid == tag.gid && e.at_ == line && !e.sent
  let other := fun (e : Store) => mine e && e.obj != tag.obj
  let queued := fun (e : Store) => e.gid == tag.gid && e.at_ == p
  let s := (s.sendEntries tag.core queued).sendLines tag.core other
  if (s.core tag.core).sq.any queued || (s.core tag.core).wc.any other then none
  else
    let new := offsets (p.inLine + off) bs
    let owner := mergeOwner tag.late (p.inLine + off) bs.length
    let s := if p.cached then s.setCore tag.core (·.l1Drop p.key) else s
    let flush := fun (s : State) => s.sendLines tag.core fun e => mine e && e.bytes.length == 128
    if (s.core tag.core).wc.any mine then
      let take := fun (x : Store) =>
        if mine x then
          { x with bytes := mergeBytes new x.bytes, seq := tag.seq, owner := owner x.owner
                   pends := x.pends ++ tag.pend.toList }
        else x
      some (flush (s.setCore tag.core fun c => { c with wc := c.wc.map take }))
    else if 16 ≤ ((s.core tag.core).wc.filter fun e => e.seq != tag.seq).length then none
    else
      let s := match (s.core tag.core).wc.find? fun e => !e.sent with
        | some e => if 16 ≤ (s.core tag.core).wc.length then s.sendLines tag.core (·.same e) else s
        | none => s
      let e : Store := { seq := tag.seq, gid := tag.gid, part := tag.part, core := tag.core, at_ := line
                         bytes := new, obj := tag.obj, sys := tag.sys, owner := owner [], pends := tag.pend.toList }
      some (flush (s.setCore tag.core fun c => { c with wc := c.wc ++ [e] }))

/-- All pieces of one store. -/
def State.enterPieces (s : State) (tag : StoreTag) (bs : List Byte) : List (Place × Nat × Nat × Nat) → Option State
  | [] => some s
  | (p, off, i, k) :: rest =>
    let part := (bs.drop i).take k
    let mine := { tag with late := tag.late.map fun (r, j) => (r, j + i) }
    match if tag.nt then s.combinePiece mine p off part else s.enqueuePiece mine p off part with
    | none => none
    | some s => s.enterPieces tag bs rest

def State.enterStore (s : State) (tag : StoreTag) (p : Place) (bs : List Byte) : Option State :=
  s.enterPieces tag bs (pieces p bs.length)

/-- A store instruction's number: its entries carry it. -/
def State.newStore (s : State) : State := { s with seq := s.seq + 1 }

/-! ## Writer rosters (R231, R232) -/

/-- A core's lookup holds an object: filled from its entry. -/
def State.lookupFill (s : State) (core : Nat) (id : Word) : State :=
  match s.object? id with
  | none => s
  | some o =>
    s.setCore core fun c =>
      let known := (c.lookup.find? (·.id == id)).any (·.known)
      let e : Lookup := { id := id, base := o.base, extent := o.extent, sealed := o.state == .sealed, known := known }
      { c with lookup := (e :: c.lookup.filter (·.id != id)).take 64 }

/-- The core's bit is set in an object's roster; refused while it closes or is sealed. -/
def State.rosterObject (s : State) (core : Nat) (id : Word) : Option State :=
  match s.object? id with
  | none => some s
  | some o =>
    if o.state = .sealed then none
    else
      let s := s.lookupFill core id
      if (s.core core).lookup.any fun e => e.id == id && e.known then some s
      else if o.closing.isSome then none
      else
        let s := s.setObject id fun o => { o with roster := o.roster ||| maskOf [core] }
        some (s.setCore core fun c =>
          { c with lookup := c.lookup.map fun e => if e.id == id then { e with known := true } else e })

/-- The core's bit is set in a slice's plain roster. -/
def State.rosterPlain (s : State) (core slice : Nat) : State :=
  let s := s.setSlice slice fun k => { k with roster := k.roster ||| maskOf [core] }
  s.setCore core fun c => { c with plainKnown := setAdd slice c.plainKnown }

/-- The roster bit of a store to device memory. None: refused, SEALW (R235). -/
def State.rosterStore (s : State) (core : Nat) (obj : Word) (pa : Nat) : Option State :=
  if obj ≠ 0 then s.rosterObject core obj else some (s.rosterPlain core (homeOf pa))

/-! ## At the home -/

/-- The lines of a slice's ownership directory: those of plain destinations. -/
def State.directory (s : State) (slice : Nat) : Nat :=
  ((s.slice slice).owned.filter fun (_, id) => (mapFind id s.copies).any (·.obj == 0)).length

/-- A physical line of a sealed object, and the object (R235). -/
def State.sealedLine (s : State) (pa : Nat) : Option ObjEntry :=
  (s.slices.flatMap fun (_, k) => mapVals k.objects).find? fun o => o.state == .sealed && o.lines.contains (pa / 128)

/-- Writes the bytes of a sparse map at a place, run by run. -/
def State.applyBytes (s : State) (p : Place) (bytes : SMap Byte) : State :=
  let whole := (List.range 4).filter fun k => (List.range 32).all fun i => (mapFind (32 * k + i) bytes).isSome
  let s := whole.foldl (fun s k =>
    s.placeWrite (p.add (32 * k)) ((List.range 32).map fun i => mapGet 0 bytes (32 * k + i))) s
  bytes.foldl (fun s (i, b) => if whole.contains (i / 32) then s else s.placeWrite (p.add i) [b]) s

/-- A store arrives: a plain store to a sealed object's line is discarded and logged (R235). -/
def State.applyStore (s : State) (st : Store) : State :=
  let discard := match st.at_ with
    | .mem pa => if st.obj = 0 then (s.sealedLine pa).map fun _ => pa else none
    | .spad _ _ _ => none
  match discard with
  | some pa => s.logError st.part { core := st.core, kind := 6, addr := BitVec.ofNat 64 pa }
  | none => s.applyBytes st.at_ st.bytes

/-- A store's entry waits for the acknowledgement alone, which its slice has sent now. -/
def State.markApplied (s : State) (core : Nat) (st : Store) : State :=
  let (now, s) := s.fresh
  let mark := fun (x : Store) => if x.same st then { x with applied := true, ackFrom := now } else x
  s.setCore core fun c => { c with wt := c.wt.map mark, wc := c.wc.map mark }

/-- A store request is applied, and its entry waits for the acknowledgement. -/
def State.serveStore (s : State) (core : Nat) (st : Store) : State :=
  ((s.disown st.span.1 st.span.2).applyStore st).markApplied core st

/-- A peer judges an access to its memory by owner masks that this device does not hold (R333): whether it refuses is free
(notes/assumptions/100). -/
def State.refused (s : State) (pa : Nat) : Bool × State :=
  if isPeer pa then
    let (k, s) := s.pick 2
    (k == 1, s)
  else (false, s)

/-- A store that a peer refuses: its lanes raise PROT once its entry is reclaimed (R333). -/
def State.refuseStore (s : State) (core : Nat) (st : Store) : State :=
  (st.pends.foldl (fun s p => s.setPend p fun q => { q with cause := some (7, q.ea) }) s).markApplied core st

/-- STORE_ARRIVAL_AT_HOME: a core's store request is applied at the home slice, or at its system window (R223). -/
def execStoreArrivalAtHome (req : Nat) (s : State) : Host.Outcome State Fault Refusal :=
  match s.take req with
  | some (r, t) =>
    match r.kind with
    | .store st =>
      match st.at_ with
      | .mem pa =>
        match t.refused pa with
        | (true, t) => .next (t.refuseStore r.core st)
        | (false, t) => .next (t.serveStore r.core st)
      | .spad _ _ _ => .next s
    | _ => .next s
  | none => .next s

/-- A write-combining line that goes without a drain: it is full, or it is the oldest unsent one and the sixteen lines
are taken (notes/assumptions/94). -/
def Core.lineGoes (c : Core) (e : Store) : Bool :=
  e.bytes.length == 128 || (16 ≤ c.wc.length && ((c.wc.find? fun x => !x.sent).map (·.same e)).getD false)

/-- STORE_DRAIN_SEND: an entry leaves a buffer of its own accord: a store-queue entry with no earlier entry for its
sector, or a write-combining line that is full or must make room (R223). -/
def execStoreDrainSend (core entry : Nat) (combining : Bool) (s : State) : Host.Outcome State Fault Refusal :=
  let c := s.core core
  if combining then
    match c.wc[entry]? with
    | some e => if c.lineGoes e then .next (s.sendLines core (·.same e)) else .next s
    | none => .next s
  else
    match c.sq[entry]? with
    | some e =>
      if s.mayLeave core e then .next (s.sendEntry core e) else .next s
    | none => .next s

/-! ## Acknowledging an inspect's push (R231, R270, R275) -/

/-- Counter k of a partition at a core: 0 issued, 1 served, 2 pushed; each stops at 2^64 - 1. -/
def Core.countIstat (c : Core) (part k n : Nat) : Core :=
  { c with istat := mapPut 0 (4 * part + k) (min (mapGet 0 c.istat (4 * part + k) + n) (2 ^ 64 - 1)) c.istat }

/-- The entry that an inspect waits for is gone from its core. -/
def State.awaitOver (s : State) (x : Nat × Nat × Nat × Place) : Bool :=
  let (core, seq, gid, p) := x
  !((s.core core).entries.any fun e => e.seq == seq && e.gid == gid && e.at_ == p)

/-- A TST under way at a core whose address register names an object (0: none): its sectors count as stores that the core
holds (R187, R231). -/
def State.storesTile (s : State) (core : Nat) (obj : Word) : Bool :=
  s.groups.any fun (_, g) => g.core == core && g.tst.any (·.obj == obj)

/-- A core that holds no store of an object leaves the object's roster. -/
def State.leaveObject (s : State) (core : Nat) (id : Word) : State :=
  if s.storesTile core id || (s.core core).entries.any (·.obj == id) then s
  else
    let forget := fun (e : Lookup) => if e.id == id then { e with known := false } else e
    (s.setObject id fun o => { o with roster := maskDrop o.roster [core] }).setCore core fun c =>
      { c with lookup := c.lookup.map forget }

/-- A core that holds no plain store for a slice's lines leaves its plain roster. -/
def State.leavePlain (s : State) (core slice : Nat) : State :=
  if s.storesTile core 0 || (s.core core).entries.any fun e => e.obj == 0 && e.at_.cached && e.at_.slice == slice then s
  else
    (s.setSlice slice fun k => { k with roster := maskDrop k.roster [core] }).setCore core fun c =>
      { c with plainKnown := setDel slice c.plainKnown }

/-- The live objects that hold an address and that a partition sees. -/
def State.objectsAt (s : State) (part va : Nat) : List ObjEntry :=
  s.slices.flatMap fun (_, k) => (mapVals k.objects).filter fun o => o.visible part && o.covers va 1

def Inspect.address (x : Inspect) : Nat := x.lo.toNat + 2 ^ 32 * x.hi.toNat

/-- A core acknowledges its push: it leaves the rosters it may leave. -/
def State.ackCore (s : State) (id : Nat) (x : Inspect) (core : Nat) : State :=
  let s := s.setInspect id fun x =>
    { x with pushing := setDel core x.pushing, awaits := x.awaits.filter fun a => a.1 != core }
  let s := s.setCore core fun c => { c with insq := c.insq.filter (· != id) }.countIstat x.part 1 1
  match x.form, x.slice with
  | 3, _ => s.leaveObject core x.lo
  | 4, _ => s.leaveObject core x.lo
  | 5, some k => (s.objectsAt x.part x.address).foldl (fun s o => s.leaveObject core o.id) (s.leavePlain core k)
  | _, _ => s

/-- Every inspect whose push at a core is acknowledged in whole. -/
def State.ackInspects (s : State) (core : Nat) : State :=
  s.inspects.foldl (fun s (id, x) =>
    if x.pushing.contains core && x.awaits.all fun a => a.1 != core || s.awaitOver a then s.ackCore id x core else s) s

/-- ROSTER_BIT_REQUEST: the entry or the slice sets a core's bit and answers (R231, R232). -/
def execRosterBitRequest (core : Nat) (objid : Word) (slice : Nat) (s : State) :
    Host.Outcome State Fault Refusal :=
  if core < 128 ∧ slice < 128 then
    if objid ≠ 0 then .next ((s.rosterObject core objid).getD s) else .next (s.rosterPlain core slice)
  else .next s

/-- OBJECT_LOOKUP_FILL: a miss in a core's object lookup is filled from the entry (R231). -/
def execObjectLookupFill (core : Nat) (objid : Word) (s : State) : Host.Outcome State Fault Refusal :=
  if core < 128 then .next (s.lookupFill core objid) else .next s

/-- PAGE_WALK: a walk for a partition's page fills the core's and the stack's TLBs; an absent translation fills nothing
(R220). -/
def execPageWalk (core part : Nat) (va : DWord) (s : State) : Host.Outcome State Fault Refusal :=
  if core < 128 ∧ va.toNat < 2 ^ 56 then
    match s.walk part va.toNat with
    | some e => .next (s.tlbFill core e)
    | none => .next s
  else .next s

end Sys2Proof.Machine
end

