-- ==== Sys2Proof/Machine/IntLane.lean ====
section
/-! DEFINITION. The meanings of the lane-set integer and bit instructions, classes IALU and BITS (R139 to R143), and of
their compact forms (R34). -/

namespace Sys2Proof.Machine

/-- An integer operation element by element, exact and then narrowed (R67, R140). -/
def intElems2 (ty : Nat) (sat : Bool) (f : Int → Int → Int) (x y : Nat) : Nat :=
  let w := tyWidth ty
  let v := fun n i => toInt (tySigned ty) w (elem w i n)
  mapElems ty fun i => narrow (tySigned ty) w sat (f (v x i) (v y i))

def intElems3 (ty : Nat) (sat : Bool) (f : Int → Int → Int → Int) (x y z : Nat) : Nat :=
  let w := tyWidth ty
  let v := fun n i => toInt (tySigned ty) w (elem w i n)
  mapElems ty fun i => narrow (tySigned ty) w sat (f (v x i) (v y i) (v z i))

def intElems1 (ty : Nat) (sat : Bool) (f : Int → Int) (x : Nat) : Nat := intElems2 ty sat (fun a _ => f a) x 0

/-- The high half of a product: floor(a × b / 2^w). -/
def mulHigh (w : Nat) (a b : Int) : Int := a * b / (2 ^ w : Nat)

/-- The typed runs of a form. -/
def typedRuns (f : RForm) : List (Nat × Nat) := [typed f.ty f.d, typed f.ty f.a, typed f.ty f.b]

/-- An integer instruction of two sources. -/
def intInstr2 (f : RForm) (lat : Nat) (sat : Bool) (op : Int → Int → Int) (s : State) :
    Host.Outcome State Fault Refusal :=
  laneInstr (regShape f lat (typedRuns f))
    (vec2 (typed f.ty f.d) (typed f.ty f.a) (typed f.ty f.b) fun _ => intElems2 f.ty.toNat sat op) s

def intInstr1 (f : RForm) (op : Int → Int) (s : State) : Host.Outcome State Fault Refusal :=
  laneInstr (regShape f 4 [typed f.ty f.d, typed f.ty f.a])
    (vec1 (typed f.ty f.d) (typed f.ty f.a) fun _ => intElems1 f.ty.toNat f.mx op) s

/-- The latency of a multiplication (R134). -/
def mulLat (ty : BitVec 5) : Nat := if wideType ty then 10 else 6

def execIadd (f : RForm) (s : State) : Host.Outcome State Fault Refusal := intInstr2 f 4 f.mx (· + ·) s
def execIsub (f : RForm) (s : State) : Host.Outcome State Fault Refusal := intInstr2 f 4 f.mx (· - ·) s
def execImul (f : RForm) (s : State) : Host.Outcome State Fault Refusal := intInstr2 f (mulLat f.ty) f.mx (· * ·) s
def execImulh (f : RForm) (s : State) : Host.Outcome State Fault Refusal :=
  intInstr2 f (mulLat f.ty) false (mulHigh (tyWidth f.ty.toNat)) s
def execImin (f : RForm) (s : State) : Host.Outcome State Fault Refusal := intInstr2 f 4 false min s
def execImax (f : RForm) (s : State) : Host.Outcome State Fault Refusal := intInstr2 f 4 false max s
def execIabs (f : RForm) (s : State) : Host.Outcome State Fault Refusal := intInstr1 f (fun a => (a.natAbs : Int)) s
def execIneg (f : RForm) (s : State) : Host.Outcome State Fault Refusal := intInstr1 f (fun a => -a) s

def execImad (f : RForm) (s : State) : Host.Outcome State Fault Refusal :=
  laneInstr (regShape f (mulLat f.ty) (typed f.ty f.c :: (typedRuns f)))
    (vec3 (typed f.ty f.d) (typed f.ty f.a) (typed f.ty f.b) (typed f.ty f.c) fun _ =>
      intElems3 f.ty.toNat f.mx fun a b c => a * b + c) s

/-- A comparison of two scalars into a predicate (R141). -/
def predCalc (d : Nat) (srcs : List (Nat × Nat)) (cmp : List Nat → Bool) : LaneFn := fun g _ _ _ t =>
  match physAll g t srcs with
  | .error e => .error e
  | .ok rs => (readOps g t rs).map fun xs => { p := [(d, cmp xs)] }

def execIcmp (f : RForm) (s : State) : Host.Outcome State Fault Refusal :=
  laneInstr (regShape f 4 [typed f.ty f.a, typed f.ty f.b])
    (predCalc f.d.toNat [typed f.ty f.a, typed f.ty f.b] fun xs =>
      let v := fun x => toInt (tySigned f.ty.toNat) (tyWidth f.ty.toNat) x
      intCmp f.c.toNat (v (xs.getD 0 0)) (v (xs.getD 1 0))) s

def execSel (f : RForm) (s : State) : Host.Outcome State Fault Refusal :=
  laneInstr (regShape f 4 [])
    (fun g _ _ _ t =>
      match operands g t (single f.d) [single f.a, single f.b], readPred g t f.c.toNat with
      | .error e, _ => .error e
      | _, .error e => .error e
      | .ok (d, xs), .ok p => .ok (writeRegs d (if p then xs.getD 0 0 else xs.getD 1 0))) s

/-! Bit operations (R142, R143). -/

/-- A bitwise operation on 32-bit registers. -/
def bitInstr2 (f : RForm) (op : Word → Word → Word) (s : State) : Host.Outcome State Fault Refusal :=
  laneInstr (regShape f 4 [])
    (vec2 (single f.d) (single f.a) (single f.b) fun _ x y => (op (BitVec.ofNat 32 x) (BitVec.ofNat 32 y)).toNat) s

def execAnd (f : RForm) (s : State) : Host.Outcome State Fault Refusal := bitInstr2 f (· &&& ·) s
def execOr (f : RForm) (s : State) : Host.Outcome State Fault Refusal := bitInstr2 f (· ||| ·) s
def execXor (f : RForm) (s : State) : Host.Outcome State Fault Refusal := bitInstr2 f (· ^^^ ·) s
def execAndn (f : RForm) (s : State) : Host.Outcome State Fault Refusal := bitInstr2 f (fun a b => a &&& ~~~b) s

def execNot (f : RForm) (s : State) : Host.Outcome State Fault Refusal :=
  laneInstr (regShape f 4 []) (vec1 (single f.d) (single f.a) fun _ x => (~~~(BitVec.ofNat 32 x)).toNat) s

/-- One element shifted by a count (R143). -/
def shlElem (w x n : Nat) : Nat := if w ≤ n then 0 else x * 2 ^ n % 2 ^ w
def shrElem (w x n : Nat) : Nat := if w ≤ n then 0 else x / 2 ^ n
def sarElem (w x n : Nat) : Nat := wrapTo w (toInt true w x / (2 ^ min n w : Nat))
def rotElem (w x n : Nat) : Nat := (x * 2 ^ (n % w) + x / 2 ^ (w - n % w)) % 2 ^ w

/-- A shift: element i of the count register is the count of element i (R143). -/
def shiftElems (ty : Nat) (op : Nat → Nat → Nat → Nat) (x n : Nat) : Nat :=
  let w := tyWidth ty
  mapElems ty fun i => op w (elem w i x) (elem w i n)

def shiftInstr (f : RForm) (op : Nat → Nat → Nat → Nat) (s : State) : Host.Outcome State Fault Refusal :=
  laneInstr (regShape f 4 [typed f.ty f.d, typed f.ty f.a])
    (vec2 (typed f.ty f.d) (typed f.ty f.a) (single f.b) fun _ => shiftElems f.ty.toNat op) s

def execShl (f : RForm) (s : State) : Host.Outcome State Fault Refusal := shiftInstr f shlElem s
def execShr (f : RForm) (s : State) : Host.Outcome State Fault Refusal := shiftInstr f shrElem s
def execSar (f : RForm) (s : State) : Host.Outcome State Fault Refusal := shiftInstr f sarElem s
def execRot (f : RForm) (s : State) : Host.Outcome State Fault Refusal := shiftInstr f rotElem s

/-- The ones of the low w bits. -/
def popElem (w x : Nat) : Nat := ((List.range w).filter fun i => x.testBit i).length

/-- The zeros above the highest one; w for zero. -/
def clzElem (w x : Nat) : Nat := if x = 0 then w else w - 1 - x.log2

def brevElem (w x : Nat) : Nat := (List.range w).foldl (fun r i => 2 * r + (if x.testBit i then 1 else 0)) 0

/-- A unary operation on the bits of each element. -/
def bitElems (ty : Nat) (op : Nat → Nat → Nat) (x : Nat) : Nat :=
  let w := tyWidth ty
  mapElems ty fun i => op w (elem w i x)

def execPopc (f : RForm) (s : State) : Host.Outcome State Fault Refusal :=
  laneInstr (regShape f 4 [typed f.ty f.a])
    (vec1 (single f.d) (typed f.ty f.a) fun _ => bitElems f.ty.toNat popElem) s

def execClz (f : RForm) (s : State) : Host.Outcome State Fault Refusal :=
  laneInstr (regShape f 4 [typed f.ty f.a])
    (vec1 (single f.d) (typed f.ty f.a) fun _ => bitElems f.ty.toNat clzElem) s

def execBrev (f : RForm) (s : State) : Host.Outcome State Fault Refusal :=
  laneInstr (regShape f 4 [typed f.ty f.d, typed f.ty f.a])
    (vec1 (typed f.ty f.d) (typed f.ty f.a) fun _ => bitElems f.ty.toNat brevElem) s

/-- The field extract of R143 on w bits, its specification in one word. -/
def bitField (w : Nat) (signed : Bool) (x spec : Nat) : Nat :=
  let pos := spec % 256
  let len := min (spec / 256 % 256) (w - pos)
  if w ≤ pos ∨ spec / 256 % 256 = 0 then 0
  else
    let r := x / 2 ^ pos % 2 ^ len
    if signed && r.testBit (len - 1) then wrapTo w ((r : Int) - (2 ^ len : Nat)) else r

/-- The field insert of R143: x into base. -/
def bitInsert (w : Nat) (x base spec : Nat) : Nat :=
  let pos := spec % 256
  let len := min (spec / 256 % 256) (w - pos)
  if w ≤ pos ∨ spec / 256 % 256 = 0 then base
  else base % 2 ^ pos + x % 2 ^ len * 2 ^ pos + base / 2 ^ (pos + len) * 2 ^ (pos + len)

def execBfx (f : RForm) (s : State) : Host.Outcome State Fault Refusal :=
  laneInstr (regShape f 4 [typed f.ty f.d, typed f.ty f.a])
    (vec2 (typed f.ty f.d) (typed f.ty f.a) (single f.c) fun _ => bitField (tyWidth f.ty.toNat) f.mx) s

def execBfi (f : RForm) (s : State) : Host.Outcome State Fault Refusal :=
  laneInstr (regShape f 4 (typedRuns f))
    (vec3 (typed f.ty f.d) (typed f.ty f.a) (typed f.ty f.b) (single f.c) fun _ => bitInsert (tyWidth f.ty.toNat)) s

/-! Compact forms (R34): the I32 aliases. -/

def reg8 (x : BitVec 8) : Nat × Nat := (x.toNat, 1)

def compact2 (f : CForm) (op : Nat → Nat → Nat) (s : State) : Host.Outcome State Fault Refusal :=
  laneInstr compactShape (vec2 (reg8 f.d) (reg8 f.a) (reg8 f.b) fun _ => op) s

/-- A form whose third source is its destination. -/
def compact3 (f : CForm) (op : Nat → Nat → Nat → Nat) (s : State) : Host.Outcome State Fault Refusal :=
  laneInstr compactShape (vec3 (reg8 f.d) (reg8 f.a) (reg8 f.b) (reg8 f.d) fun _ => op) s

def execIaddCompact (f : CForm) (s : State) : Host.Outcome State Fault Refusal :=
  compact2 f (intElems2 0 false (· + ·)) s
def execIsubCompact (f : CForm) (s : State) : Host.Outcome State Fault Refusal :=
  compact2 f (intElems2 0 false (· - ·)) s
def execImulCompact (f : CForm) (s : State) : Host.Outcome State Fault Refusal :=
  compact2 f (intElems2 0 false (· * ·)) s
def execIminCompact (f : CForm) (s : State) : Host.Outcome State Fault Refusal := compact2 f (intElems2 0 false min) s
def execImaxCompact (f : CForm) (s : State) : Host.Outcome State Fault Refusal := compact2 f (intElems2 0 false max) s
def execImadCompact (f : CForm) (s : State) : Host.Outcome State Fault Refusal :=
  compact3 f (intElems3 0 false fun a b c => a * b + c) s

def wordOp (op : Word → Word → Word) (x y : Nat) : Nat := (op (BitVec.ofNat 32 x) (BitVec.ofNat 32 y)).toNat

def execAndCompact (f : CForm) (s : State) : Host.Outcome State Fault Refusal := compact2 f (wordOp (· &&& ·)) s
def execOrCompact (f : CForm) (s : State) : Host.Outcome State Fault Refusal := compact2 f (wordOp (· ||| ·)) s
def execXorCompact (f : CForm) (s : State) : Host.Outcome State Fault Refusal := compact2 f (wordOp (· ^^^ ·)) s
def execShlCompact (f : CForm) (s : State) : Host.Outcome State Fault Refusal := compact2 f (shiftElems 0 shlElem) s
def execShrCompact (f : CForm) (s : State) : Host.Outcome State Fault Refusal := compact2 f (shiftElems 0 shrElem) s
def execSarCompact (f : CForm) (s : State) : Host.Outcome State Fault Refusal := compact2 f (shiftElems 0 sarElem) s

/-- OR of a register with itself (R34). -/
def execMovCompact (f : CForm) (s : State) : Host.Outcome State Fault Refusal :=
  laneInstr compactShape (vec1 (reg8 f.d) (reg8 f.a) fun _ x => x) s

end Sys2Proof.Machine
end

