-- ==== Sys2Proof/Machine/FloatLane.lean ====
section
/-! DEFINITION. The meanings of the lane-set floating-point instructions, classes FALU, FSPEC, DOT and CVT (R82 to R84,
R144 to R148), and of their compact forms (R34). -/

namespace Sys2Proof.Machine

/-- The float format of a type code. -/
def tyFmt (ty : Nat) : Fmt :=
  match tyKind ty with
  | .flt f => f
  | _ => .fp32

def floatElem (ty i x : Nat) : FV := (tyFmt ty).value (elem (tyWidth ty) i x)

/-- An operation on floats element by element, its exact result rounded once under a rounding code; under SR element i
takes draw i (R75, R144). -/
def floatElems2 (ty code : Nat) (us : List Word) (f : Bool → FV → FV → FV) (x y : Nat) : Nat :=
  mapElems ty fun i =>
    let mode := Rnd.ofCode code (us.getD i 0)
    (tyFmt ty).round mode false (f mode.isRd (floatElem ty i x) (floatElem ty i y))

/-- The draws per lane of a rounding code on n elements. -/
def drawsOf (code n : Nat) : Nat := if code = 5 then n else 0

def floatInstr2 (f : RForm) (lat : Nat) (op : Bool → FV → FV → FV) (s : State) :
    Host.Outcome State Fault Refusal :=
  laneInstr (regShape f lat [] (drawsOf f.c.toNat (tyElems f.ty.toNat)))
    (vec2 (single f.d) (single f.a) (single f.b) fun us => floatElems2 f.ty.toNat f.c.toNat us op) s

def fvAdd (rd : Bool) (a b : FV) : FV := FV.sum rd [a, b]
def fvSub (rd : Bool) (a b : FV) : FV := FV.sum rd [a, b.neg]
def fvMul (_ : Bool) (a b : FV) : FV := FV.mul a b
def fvDiv (_ : Bool) (a b : FV) : FV := FV.div a b

def execFadd (f : RForm) (s : State) : Host.Outcome State Fault Refusal := floatInstr2 f 5 fvAdd s
def execFsub (f : RForm) (s : State) : Host.Outcome State Fault Refusal := floatInstr2 f 5 fvSub s
def execFmul (f : RForm) (s : State) : Host.Outcome State Fault Refusal := floatInstr2 f 5 fvMul s
def execFdiv (f : RForm) (s : State) : Host.Outcome State Fault Refusal := floatInstr2 f 24 fvDiv s

/-- ±(a × b) + c, exact and rounded once (R78). -/
def ffmaElems (ty : Nat) (neg : Bool) (x y z : Nat) : Nat :=
  mapElems ty fun i =>
    let p := FV.mul (floatElem ty i x) (floatElem ty i y)
    (tyFmt ty).round .rne false (FV.sum false [if neg then p.neg else p, floatElem ty i z])

def execFfma (f : RForm) (s : State) : Host.Outcome State Fault Refusal :=
  laneInstr (regShape f 5 [])
    (vec3 (single f.d) (single f.a) (single f.b) (single f.c) fun _ => ffmaElems f.ty.toNat f.mx) s

def pickElems (ty : Nat) (wantMax : Bool) (x y : Nat) : Nat :=
  mapElems ty fun i => floatPick (tyFmt ty) wantMax (elem (tyWidth ty) i x) (elem (tyWidth ty) i y)

def execFmin (f : RForm) (s : State) : Host.Outcome State Fault Refusal :=
  laneInstr (regShape f 5 []) (vec2 (single f.d) (single f.a) (single f.b) fun _ => pickElems f.ty.toNat false) s

def execFmax (f : RForm) (s : State) : Host.Outcome State Fault Refusal :=
  laneInstr (regShape f 5 []) (vec2 (single f.d) (single f.a) (single f.b) fun _ => pickElems f.ty.toNat true) s

def execFcmp (f : RForm) (s : State) : Host.Outcome State Fault Refusal :=
  laneInstr (regShape f 5 [])
    (predCalc f.d.toNat [single f.a, single f.b] fun xs =>
      floatCmp f.c.toNat (floatElem f.ty.toNat 0 (xs.getD 0 0)) (floatElem f.ty.toNat 0 (xs.getD 1 0))) s

def execFclass (f : RForm) (s : State) : Host.Outcome State Fault Refusal :=
  laneInstr (regShape f 5 [])
    (predCalc f.d.toNat [single f.a] fun xs =>
      f.c.toNat.testBit (floatClass (tyFmt f.ty.toNat) (elem (tyWidth f.ty.toNat) 0 (xs.getD 0 0)))) s

/-! Special functions (R146). -/

/-- A function rounded once from its exact value, directly to the type. -/
def roundedFn (ty : Nat) (f : FV → FV) (x : Nat) : Nat := (tyFmt ty).round .rne false (f (floatElem ty 0 x))

/-- A function with an F32 result, rounded to the type. -/
def viaF32 (ty : Nat) (f : Word → Nat) (x : Nat) : Nat :=
  conv 8 ty .rne false (f (BitVec.ofNat 32 (conv ty 8 .rne false (elem (tyWidth ty) 0 x))))

def specialInstr (f : RForm) (fn : Nat → Nat) (s : State) : Host.Outcome State Fault Refusal :=
  laneInstr (regShape f 12 []) (vec1 (single f.d) (single f.a) fun _ => fn) s

def execFrcp (f : RForm) (s : State) : Host.Outcome State Fault Refusal :=
  specialInstr f (roundedFn f.ty.toNat (FV.div .one)) s
def execFsqrt (f : RForm) (s : State) : Host.Outcome State Fault Refusal :=
  specialInstr f (roundedFn f.ty.toNat FV.sqrt) s
def execFrsq (f : RForm) (s : State) : Host.Outcome State Fault Refusal := specialInstr f (viaF32 f.ty.toNat frsq32) s
def execFexp2 (f : RForm) (s : State) : Host.Outcome State Fault Refusal :=
  specialInstr f (viaF32 f.ty.toNat fexp2_32) s
def execFlog2 (f : RForm) (s : State) : Host.Outcome State Fault Refusal :=
  specialInstr f (viaF32 f.ty.toNat flog2_32) s
def execFsin (f : RForm) (s : State) : Host.Outcome State Fault Refusal := specialInstr f (viaF32 f.ty.toNat fsin32) s
def execFcos (f : RForm) (s : State) : Host.Outcome State Fault Refusal := specialInstr f (viaF32 f.ty.toNat fcos32) s

/-! Dot products and scaling (R148). -/

/-- The element type that a code names: the scalar code of the compact form stands for the packed one. -/
def dotTy (scalar packed ty : Nat) : Nat := if ty = scalar then packed else ty

/-- The sum of the element products and the accumulator. -/
def dotInt (ty : Nat) (sat : Bool) (x y c : Nat) : Nat :=
  let w := tyWidth ty
  let v := fun n i => toInt (tySigned ty) w (elem w i n)
  let acc := toInt (tySigned ty) 32 c
  narrow (tySigned ty) 32 sat ((List.range (tyElems ty)).foldl (fun r i => r + v x i * v y i) acc)

def dotBf16 (x y c : Nat) : Nat :=
  let p := fun i => FV.mul (floatElem 10 i x) (floatElem 10 i y)
  Fmt.fp32.round .rne false (FV.sum false [Fmt.fp32.value c, p 0, p 1])

def dotInstr (f : RForm) (op : Nat → Nat → Nat → Nat) (s : State) : Host.Outcome State Fault Refusal :=
  laneInstr (regShape f 5 []) (vec3 (single f.d) (single f.a) (single f.b) (single f.c) fun _ => op) s

def execDot4 (f : RForm) (s : State) : Host.Outcome State Fault Refusal :=
  dotInstr f (dotInt (dotTy 0 6 f.ty.toNat) f.mx) s
def execDot8 (f : RForm) (s : State) : Host.Outcome State Fault Refusal :=
  dotInstr f (dotInt (dotTy 0 16 f.ty.toNat) f.mx) s
def execDot2 (f : RForm) (s : State) : Host.Outcome State Fault Refusal := dotInstr f dotBf16 s

/-- a × 2^k rounded once: beyond ±1000 the result no longer depends on k. -/
def scaleTo (ty : Nat) (x k : Nat) : Nat :=
  let k := max (-1000) (min 1000 (toInt true 32 k))
  Fmt.fp32.round .rne false ((elemValue ty x).scale k)

def execFscl (f : RForm) (s : State) : Host.Outcome State Fault Refusal :=
  laneInstr (regShape f 5 []) (vec2 (single f.d) (single f.a) (single f.b) fun _ => scaleTo f.ty.toNat) s

/-! Conversions (R82 to R84). C holds the source type and the rounding code. -/

def srcTy (f : RForm) : Nat := f.c.toNat / 8
def rndOf (f : RForm) : Nat := f.c.toNat % 8

def scalarRun (ty : Nat) (code : BitVec 10) : Nat × Nat := (code.toNat, if tyWidth ty = 64 then 2 else 1)

/-- CVT. Under SR every conversion takes one draw, one from an integer to an integer too (notes/assumptions/105). -/
def execCvt (f : RForm) (s : State) : Host.Outcome State Fault Refusal :=
  let dst := scalarRun f.ty.toNat f.d
  let src := scalarRun (srcTy f) f.a
  laneInstr (regShape f 5 [dst, src] (drawsOf (rndOf f) 1))
    (vec1 dst src fun us x =>
      conv (srcTy f) f.ty.toNat (Rnd.ofCode (rndOf f) (us.getD 0 0)) f.mx (elem (tyWidth (srcTy f)) 0 x)) s

/-- Elements that a packed conversion handles, and the runs of its source and destination (R82). -/
def packedCount (src dst : Nat) : Nat := max (tyElems src) (tyElems dst)

/-- The elements of a run of registers as one number: element i of type ty. -/
def packedElems (src dst : Nat) (us : List Word) (rnd : Nat) (f : Rnd → FV → Nat) (x : Nat) : Nat :=
  packElems (tyWidth dst) ((List.range (packedCount src dst)).map fun i =>
    f (Rnd.ofCode rnd (us.getD i 0)) (elemValue src (elem (tyWidth src) i x)))

def execCvtp (f : RForm) (s : State) : Host.Outcome State Fault Refusal :=
  let dt := f.ty.toNat
  let n := packedCount (srcTy f) dt
  let dst := (f.d.toNat, n / tyElems dt)
  let src := (f.a.toNat, n / tyElems (srcTy f))
  laneInstr (regShape f 5 [dst, src] (drawsOf (rndOf f) n))
    (vec1 dst src fun us => packedElems (srcTy f) dt us (rndOf f) fun mode v => convTo (isIntTy (srcTy f)) dt mode f.mx v) s

/-- An element under its block scale (R84). -/
def scaled (src sc : Nat) (v : FV) : FV :=
  if sc = 0xFF then .nan else if src = 8 then v.scale (127 - (sc : Int)) else v.scale ((sc : Int) - 127)

def execCvtx (f : RForm) (s : State) : Host.Outcome State Fault Refusal :=
  let dt := f.ty.toNat
  let n := packedCount (srcTy f) dt
  let dst := (f.d.toNat, n / tyElems dt)
  let src := (f.a.toNat, n / tyElems (srcTy f))
  laneInstr (regShape f 5 [dst, src] (drawsOf (rndOf f) n))
    (vec2 dst src (single f.b) fun us x b =>
      packedElems (srcTy f) dt us (rndOf f) (fun mode v => convTo false dt mode f.mx (scaled (srcTy f) (b % 256) v)) x) s

/-! Compact forms (R34): the F32 aliases, rounded RNE. -/

def execFaddCompact (f : CForm) (s : State) : Host.Outcome State Fault Refusal :=
  compact2 f (floatElems2 8 0 [] fvAdd) s
def execFsubCompact (f : CForm) (s : State) : Host.Outcome State Fault Refusal :=
  compact2 f (floatElems2 8 0 [] fvSub) s
def execFmulCompact (f : CForm) (s : State) : Host.Outcome State Fault Refusal :=
  compact2 f (floatElems2 8 0 [] fvMul) s
def execFminCompact (f : CForm) (s : State) : Host.Outcome State Fault Refusal := compact2 f (pickElems 8 false) s
def execFmaxCompact (f : CForm) (s : State) : Host.Outcome State Fault Refusal := compact2 f (pickElems 8 true) s
def execFfmaCompact (f : CForm) (s : State) : Host.Outcome State Fault Refusal := compact3 f (ffmaElems 8 false) s
def execDot4Compact (f : CForm) (s : State) : Host.Outcome State Fault Refusal := compact3 f (dotInt 6 false) s
def execDot8Compact (f : CForm) (s : State) : Host.Outcome State Fault Refusal := compact3 f (dotInt 16 false) s
def execDot2Compact (f : CForm) (s : State) : Host.Outcome State Fault Refusal := compact3 f dotBf16 s

end Sys2Proof.Machine
end

