-- ==== Sys2Proof/Machine/CrossLane.lean ====
section
/-! DEFINITION. The meanings of the LANE, INDEX and PRED classes (R77, R135 to R138, R149 to R153, R318). -/

namespace Sys2Proof.Machine

def immShape (f : I16Form) : Shape := { pred := f.pred, lat := 4 }

def execMovi (f : I16Form) (s : State) : Host.Outcome State Fault Refusal :=
  laneInstr (immShape f) (vecCalc (single f.d) [] fun _ _ => (f.imm.signExtend 32).toNat) s

def execMovh (f : I16Form) (s : State) : Host.Outcome State Fault Refusal :=
  laneInstr (immShape f) (vec1 (single f.d) (single f.d) fun _ x => f.imm.toNat * 2 ^ 16 + x % 2 ^ 16) s

/-! Cross-lane operations (R151). A lane that raises a cause of its own, or parks, at one of its operands is not among
the lanes that take part (notes/assumptions/15). -/

/-- What each lane of P offers. -/
def offers {α : Type} (act : List (Nat × Thread)) (f : Thread → Except Stop α) : List (Nat × α) :=
  act.filterMap fun (l, t) =>
    match f t with
    | .ok x => some (l, x)
    | .error _ => none

def offerAt {α : Type} (xs : List (Nat × α)) (l : Nat) : Option α := (xs.find? (·.1 == l)).map (·.2)

/-- What a lane receives from a source lane: its own value where the source takes no part, 0 under C16 (R318). -/
def received (g : Group) (xs : List (Nat × Nat)) (src : Option Nat) (own : Nat) : Nat :=
  match src.bind (offerAt xs) with
  | some x => x
  | none => if g.c16 then 0 else own

/-- The registers of a destination and a source, and the source's value. -/
def destAndSource (g : Group) (t : Thread) (d a : Nat × Nat) : Except Stop (List Nat × Nat) :=
  (operands g t d [a]).map fun (d, xs) => (d, xs.getD 0 0)

def sourceOf (g : Group) (a : Nat × Nat) (t : Thread) : Except Stop Nat :=
  match physAll g t [a] with
  | .error e => .error e
  | .ok rs => (readOps g t rs).map fun xs => xs.getD 0 0

def execBcast (f : RForm) (s : State) : Host.Outcome State Fault Refusal :=
  laneInstr (regShape f 8 [])
    (fun g act _ _ t =>
      match destAndSource g t (single f.d) (single f.a), readS g f.b.toNat with
      | .error e, _ => .error e
      | _, .error e => .error e
      | .ok (d, own), .ok n =>
        .ok (writeRegs d (received g (offers act (sourceOf g (single f.a))) (some (n.toNat % g.width)) own))) s

/-- The source lane of SHFL (R151, R318): none outside the group. -/
def shuffleLane (g : Group) (mode l n : Nat) : Option Nat :=
  let w := g.width
  match mode with
  | 0 => some (n % w)
  | 1 => if g.c16 then some ((l + (w - n % w)) % w) else if n ≤ l then some (l - n) else none
  | 2 => if g.c16 then some ((l + n) % w) else if l + n < w then some (l + n) else none
  | _ => some (l ^^^ n % w)

def execShfl (f : RForm) (s : State) : Host.Outcome State Fault Refusal :=
  laneInstr (regShape f 8 [])
    (fun g act _ l t =>
      match operands g t (single f.d) [single f.a, single f.b] with
      | .error e => .error e
      | .ok (d, xs) =>
        .ok (writeRegs d (received g (offers act (sourceOf g (single f.a)))
          (shuffleLane g f.c.toNat l (xs.getD 1 0)) (xs.getD 0 0)))) s

/-- The vote of R152 over the lanes of P. -/
def voteOf (mode : Nat) (ps : List Bool) : Bool :=
  match mode with
  | 0 => ps.all id
  | 1 => ps.any id
  | _ => ps.all id || !(ps.any id)

def execVote (f : RForm) (s : State) : Host.Outcome State Fault Refusal :=
  laneInstr (regShape f 8 [])
    (fun g act _ _ t =>
      match readPred g t f.a.toNat with
      | .error e => .error e
      | .ok _ =>
        let ps := (offers act fun t => readPred g t f.a.toNat).map (·.2)
        .ok { p := [(f.d.toNat, voteOf f.c.toNat ps)] }) s

/-- The registers a ballot fills. -/
def ballotRun (width : Nat) : Nat := if width ≤ 32 then 1 else width / 32

/-- BALLOT's run depends on the group's width, so each fragment has its own shape. -/
def execBallot (f : RForm) (s : State) : Host.Outcome State Fault Refusal :=
  issue (fun s gid fid =>
    let n := ballotRun (((s.group? gid).map (·.width)).getD 16)
    laneFragment (regShape f 8 [(f.d.toNat, n)])
      (fun g act _ _ t =>
        match physAll g t [(f.d.toNat, n)], readPred g t f.a.toNat with
        | .error e, _ => .error e
        | _, .error e => .error e
        | .ok rs, .ok _ =>
          let ps := offers act fun t => readPred g t f.a.toNat
          .ok (writeRegs (rs.getD 0 []) (maskOf ((ps.filter (·.2)).map (·.1))).toNat)) s gid fid) s

/-! Reductions and scans over the tree of R77. -/

/-- One node's operation on encodings of a type (R153). -/
def reduceOp (ty op x y : Nat) : Nat :=
  if ty = 8 then
    match op with
    | 0 => Fmt.fp32.round .rne false (FV.sum false [Fmt.fp32.value x, Fmt.fp32.value y])
    | 1 => floatPick .fp32 false x y
    | _ => floatPick .fp32 true x y
  else
    let w := tyWidth ty
    let a := toInt (tySigned ty) w x
    let b := toInt (tySigned ty) w y
    match op with
    | 0 => wrapTo w (a + b)
    | 1 => wrapTo w (min a b)
    | 2 => wrapTo w (max a b)
    | 3 => x &&& y
    | 4 => x ||| y
    | _ => x ^^^ y

/-- The identity of R153's table. -/
def reduceIdentity (ty op : Nat) : Nat :=
  if ty = 8 then (match op with | 0 => 0 | 1 => 0x7F800000 | _ => 0xFF800000)
  else
    let w := tyWidth ty
    match op with
    | 1 => wrapTo w (intMax (tySigned ty) w)
    | 2 => wrapTo w (intMin (tySigned ty) w)
    | 3 => 2 ^ w - 1
    | _ => 0

def joinNodes (f : Nat → Nat → Nat) : Option Nat → Option Nat → Option Nat
  | some x, some y => some (f x y)
  | some x, none => some x
  | none, y => y

/-- The node at level k that covers lanes from lo on. -/
def treeNode (f : Nat → Nat → Nat) (leaf : Nat → Option Nat) : Nat → Nat → Option Nat
  | 0, lo => leaf lo
  | k + 1, lo => joinNodes f (treeNode f leaf k lo) (treeNode f leaf k (lo + 2 ^ k))

/-- The maximal aligned nodes that tile lanes lo to hi - 1, combined from the lowest upward (R77). -/
def treePrefix (f : Nat → Nat → Nat) (leaf : Nat → Option Nat) : Nat → Nat → Nat → Option Nat → Option Nat
  | 0, lo, hi, acc => if lo < hi then joinNodes f acc (leaf lo) else acc
  | k + 1, lo, hi, acc =>
    if lo + 2 ^ (k + 1) ≤ hi then joinNodes f acc (treeNode f leaf (k + 1) lo)
    else if lo + 2 ^ k ≤ hi then
      treePrefix f leaf k (lo + 2 ^ k) hi (joinNodes f acc (treeNode f leaf k lo))
    else treePrefix f leaf k lo hi acc

def execRedux (f : RForm) (s : State) : Host.Outcome State Fault Refusal :=
  laneInstr { regShape f 8 [typed f.ty f.d, typed f.ty f.a] with latLog := 2 }
    (fun g act _ _ t =>
      match destAndSource g t (typed f.ty f.d) (typed f.ty f.a) with
      | .error e => .error e
      | .ok (d, own) =>
        let xs := offers act (sourceOf g (typed f.ty f.a))
        let root := treeNode (reduceOp f.ty.toNat f.c.toNat) (offerAt xs) g.width.log2 0
        .ok (writeRegs d (root.getD own))) s

def execScan (f : RForm) (s : State) : Host.Outcome State Fault Refusal :=
  laneInstr { regShape f 8 [typed f.ty f.d, typed f.ty f.a] with latLog := 2 }
    (fun g act _ l t =>
      match destAndSource g t (typed f.ty f.d) (typed f.ty f.a) with
      | .error e => .error e
      | .ok (d, _) =>
        let xs := offers act (sourceOf g (typed f.ty f.a))
        let upTo := if f.mx then l else l + 1
        let r := treePrefix (reduceOp f.ty.toNat f.c.toNat) (offerAt xs) g.width.log2 0 upTo none
        .ok (writeRegs d (r.getD (reduceIdentity f.ty.toNat f.c.toNat)))) s

/-! Index registers (R135, R136). -/

def indexBase (x : Word) : Nat := (x.extractLsb' 20 10).toNat
def indexCount (x : Word) : Nat := (x.extractLsb' 10 10).toNat
def indexAt (x : Word) : Nat := (x.extractLsb' 0 10).toNat

def execXset (f : RForm) (s : State) : Host.Outcome State Fault Refusal :=
  laneInstr (regShape f 4 [])
    (fun g _ _ _ t => (sourceOf g (single f.a) t).map fun x =>
      { x := [(f.d.toNat, BitVec.ofNat 32 (x % 2 ^ 30))] }) s

def execXadd (f : I16Form) (s : State) : Host.Outcome State Fault Refusal :=
  laneInstr (immShape f)
    (fun _ _ _ _ t =>
      let x := (mapGet 0 t.x f.d.toNat).toNat
      let i := ((x % 1024 : Nat) + f.imm.toInt) % 1024
      .ok { x := [(f.d.toNat, BitVec.ofNat 32 (x / 1024 * 1024 + i.toNat))] }) s

/-- The register that an index register points at with an offset: ILLREG outside the allotment, then XBOUND (R136). -/
def indexed (g : Group) (x : Word) (imm : BitVec 16) : Except Stop Nat :=
  let e : Int := (indexAt x : Int) + imm.toInt
  let code : Int := (indexBase x : Int) + e
  if code < 0 ∨ (g.vregs : Int) ≤ code then .error (Stop.cause 2)
  else if e < 0 ∨ (indexCount x : Int) ≤ e then .error (Stop.cause 3)
  else .ok code.toNat

def execMovx (f : I16Form) (s : State) : Host.Outcome State Fault Refusal :=
  laneInstr (immShape f)
    (fun g _ _ _ t =>
      match physReg g t f.d.toNat with
      | .error e => .error e
      | .ok d =>
        match indexed g (mapGet 0 t.x f.a.toNat) f.imm with
        | .error e => .error e
        | .ok r => (readReg g t r).map fun x => { v := [(d, x)] }) s

def execStx (f : I16Form) (s : State) : Host.Outcome State Fault Refusal :=
  laneInstr (immShape f)
    (fun g _ _ _ t =>
      match physReg g t f.a.toNat with
      | .error e => .error e
      | .ok a =>
        match indexed g (mapGet 0 t.x f.d.toNat) f.imm with
        | .error e => .error e
        | .ok r => (readReg g t a).map fun x => { v := [(r, x)] }) s

/-! Predicates (R137, R138). -/

def execPlop (f : RForm) (s : State) : Host.Outcome State Fault Refusal :=
  laneInstr (regShape f 4 [])
    (fun g _ _ _ t =>
      match readPred g t f.a.toNat, readPred g t f.b.toNat with
      | .error e, _ => .error e
      | _, .error e => .error e
      | .ok a, .ok b =>
        .ok { p := [(f.d.toNat, f.c.toNat.testBit ((if a then 2 else 0) + (if b then 1 else 0)))] }) s

/-- p0–p6 as bits, all of them to be waited for. -/
def readPreds (g : Group) (t : Thread) : List Nat → Except Stop Nat
  | [] => .ok 0
  | k :: ks =>
    match readPred g t k, readPreds g t ks with
    | .error e, _ => .error e
    | _, .error e => .error e
    | .ok b, .ok n => .ok ((if b then 2 ^ k else 0) + n)

def execPmov (f : RForm) (s : State) : Host.Outcome State Fault Refusal :=
  laneInstr (regShape f 4 [])
    (fun g _ _ _ t =>
      if f.c = 0 then
        match physReg g t f.d.toNat with
        | .error e => .error e
        | .ok d => (readPreds g t (List.range 7)).map fun n => { v := [(d, BitVec.ofNat 32 (0x80 + n))] }
      else
        (sourceOf g (single f.a) t).map fun x => { p := (List.range 7).map fun i => (i, x.testBit i) }) s

end Sys2Proof.Machine
end

