-- ==== Sys2Proof/Machine/Uniform.lean ====
section
/-! DEFINITION. The meanings of the uniform-set register instructions, classes UALU, UBITS, UMOVE and ADDR, of CCOUNT
and of the compact uniform forms (R155 to R172). ALD is with the loads. -/

namespace Sys2Proof.Machine

/-- The values of uniform operands, each a code and whether it is a pair. -/
def readUnis (g : Group) : List (Nat × Bool) → Except Stop (List Nat)
  | [] => .ok []
  | (k, wide) :: rest =>
    match readSWide g wide k, readUnis g rest with
    | .error e, _ => .error e
    | _, .error e => .error e
    | .ok x, .ok xs => .ok (x :: xs)

/-- A uniform instruction that computes one register or pair. -/
def uniCalc (len : DWord) (pred : BitVec 4) (d : Nat) (wide : Bool) (srcs : List (Nat × Bool)) (f : List Nat → Nat)
    (s : State) : Host.Outcome State Fault Refusal :=
  uniRegs len pred (fun g => (readUnis g srcs).map fun xs => g.putSWide wide d (f xs)) s

def uniInt2 (f : RForm) (sat : Bool) (op : Int → Int → Int) (s : State) : Host.Outcome State Fault Refusal :=
  let w := wideType f.ty
  uniCalc 8 f.pred f.d.toNat w [(f.a.toNat, w), (f.b.toNat, w)]
    (fun xs => intElems2 f.ty.toNat sat op (xs.getD 0 0) (xs.getD 1 0)) s

def execUadd (f : RForm) (s : State) : Host.Outcome State Fault Refusal := uniInt2 f f.mx (· + ·) s
def execUsub (f : RForm) (s : State) : Host.Outcome State Fault Refusal := uniInt2 f f.mx (· - ·) s
def execUmul (f : RForm) (s : State) : Host.Outcome State Fault Refusal := uniInt2 f f.mx (· * ·) s
def execUmulh (f : RForm) (s : State) : Host.Outcome State Fault Refusal :=
  uniInt2 f false (mulHigh (tyWidth f.ty.toNat)) s
def execUmin (f : RForm) (s : State) : Host.Outcome State Fault Refusal := uniInt2 f false min s
def execUmax (f : RForm) (s : State) : Host.Outcome State Fault Refusal := uniInt2 f false max s

def execUmad (f : RForm) (s : State) : Host.Outcome State Fault Refusal :=
  let w := wideType f.ty
  uniCalc 8 f.pred f.d.toNat w [(f.a.toNat, w), (f.b.toNat, w), (f.c.toNat, w)]
    (fun xs => intElems3 f.ty.toNat f.mx (fun a b c => a * b + c) (xs.getD 0 0) (xs.getD 1 0) (xs.getD 2 0)) s

def execUcmp (f : RForm) (s : State) : Host.Outcome State Fault Refusal :=
  let w := wideType f.ty
  uniRegs 8 f.pred (fun g =>
    (readUnis g [(f.a.toNat, w), (f.b.toNat, w)]).map fun xs =>
      let v := fun x => toInt (tySigned f.ty.toNat) (tyWidth f.ty.toNat) x
      g.putQ f.d.toNat (intCmp f.c.toNat (v (xs.getD 0 0)) (v (xs.getD 1 0)))) s

def execUsel (f : RForm) (s : State) : Host.Outcome State Fault Refusal :=
  uniRegs 8 f.pred (fun g =>
    (readUnis g [(f.a.toNat, false), (f.b.toNat, false)]).map fun xs =>
      g.putSWide false f.d.toNat (if getBit8 g.q f.c.toNat then xs.getD 0 0 else xs.getD 1 0)) s

def uniBits2 (f : RForm) (op : Word → Word → Word) (s : State) : Host.Outcome State Fault Refusal :=
  uniCalc 8 f.pred f.d.toNat false [(f.a.toNat, false), (f.b.toNat, false)]
    (fun xs => wordOp op (xs.getD 0 0) (xs.getD 1 0)) s

def execUand (f : RForm) (s : State) : Host.Outcome State Fault Refusal := uniBits2 f (· &&& ·) s
def execUor (f : RForm) (s : State) : Host.Outcome State Fault Refusal := uniBits2 f (· ||| ·) s
def execUxor (f : RForm) (s : State) : Host.Outcome State Fault Refusal := uniBits2 f (· ^^^ ·) s

def execUnot (f : RForm) (s : State) : Host.Outcome State Fault Refusal :=
  uniCalc 8 f.pred f.d.toNat false [(f.a.toNat, false)]
    (fun xs => (~~~(BitVec.ofNat 32 (xs.getD 0 0))).toNat) s

def uniShift (f : RForm) (op : Nat → Nat → Nat → Nat) (s : State) : Host.Outcome State Fault Refusal :=
  let w := wideType f.ty
  uniCalc 8 f.pred f.d.toNat w [(f.a.toNat, w), (f.b.toNat, false)]
    (fun xs => shiftElems f.ty.toNat op (xs.getD 0 0) (xs.getD 1 0)) s

def execUshl (f : RForm) (s : State) : Host.Outcome State Fault Refusal := uniShift f shlElem s
def execUshr (f : RForm) (s : State) : Host.Outcome State Fault Refusal := uniShift f shrElem s
def execUsar (f : RForm) (s : State) : Host.Outcome State Fault Refusal := uniShift f sarElem s

def execUpopc (f : RForm) (s : State) : Host.Outcome State Fault Refusal :=
  uniCalc 8 f.pred f.d.toNat false [(f.a.toNat, wideType f.ty)]
    (fun xs => bitElems f.ty.toNat popElem (xs.getD 0 0)) s

def execUclz (f : RForm) (s : State) : Host.Outcome State Fault Refusal :=
  uniCalc 8 f.pred f.d.toNat false [(f.a.toNat, wideType f.ty)]
    (fun xs => bitElems f.ty.toNat clzElem (xs.getD 0 0)) s

/-! Compact uniform forms (R34). -/

def uniCompact2 (f : CForm) (op : Nat → Nat → Nat) (s : State) : Host.Outcome State Fault Refusal :=
  uniCalc 4 7 f.d.toNat false [(f.a.toNat, false), (f.b.toNat, false)] (fun xs => op (xs.getD 0 0) (xs.getD 1 0)) s

def execUaddCompact (f : CForm) (s : State) : Host.Outcome State Fault Refusal :=
  uniCompact2 f (intElems2 0 false (· + ·)) s
def execUsubCompact (f : CForm) (s : State) : Host.Outcome State Fault Refusal :=
  uniCompact2 f (intElems2 0 false (· - ·)) s
def execUmulCompact (f : CForm) (s : State) : Host.Outcome State Fault Refusal :=
  uniCompact2 f (intElems2 0 false (· * ·)) s
def execUminCompact (f : CForm) (s : State) : Host.Outcome State Fault Refusal :=
  uniCompact2 f (intElems2 0 false min) s
def execUmaxCompact (f : CForm) (s : State) : Host.Outcome State Fault Refusal :=
  uniCompact2 f (intElems2 0 false max) s
def execUandCompact (f : CForm) (s : State) : Host.Outcome State Fault Refusal := uniCompact2 f (wordOp (· &&& ·)) s
def execUorCompact (f : CForm) (s : State) : Host.Outcome State Fault Refusal := uniCompact2 f (wordOp (· ||| ·)) s
def execUxorCompact (f : CForm) (s : State) : Host.Outcome State Fault Refusal := uniCompact2 f (wordOp (· ^^^ ·)) s
def execUshlCompact (f : CForm) (s : State) : Host.Outcome State Fault Refusal :=
  uniCompact2 f (shiftElems 0 shlElem) s
def execUshrCompact (f : CForm) (s : State) : Host.Outcome State Fault Refusal :=
  uniCompact2 f (shiftElems 0 shrElem) s
def execUsarCompact (f : CForm) (s : State) : Host.Outcome State Fault Refusal :=
  uniCompact2 f (shiftElems 0 sarElem) s

def execUmovCompact (f : CForm) (s : State) : Host.Outcome State Fault Refusal :=
  uniCalc 4 7 f.d.toNat false [(f.a.toNat, false)] (fun xs => xs.getD 0 0) s

def execUmadCompact (f : CForm) (s : State) : Host.Outcome State Fault Refusal :=
  uniCalc 4 7 f.d.toNat false [(f.a.toNat, false), (f.b.toNat, false), (f.d.toNat, false)]
    (fun xs => intElems3 0 false (fun a b c => a * b + c) (xs.getD 0 0) (xs.getD 1 0) (xs.getD 2 0)) s

/-! Moves (R160, R161). -/

def execUmovi (f : I16Form) (s : State) : Host.Outcome State Fault Refusal :=
  uniCalc 8 f.pred f.d.toNat false [] (fun _ => (f.imm.signExtend 32).toNat) s

def execUmovh (f : I16Form) (s : State) : Host.Outcome State Fault Refusal :=
  uniCalc 8 f.pred f.d.toNat false [(f.d.toNat, false)] (fun xs => f.imm.toNat * 2 ^ 16 + xs.getD 0 0 % 2 ^ 16) s

def execUplop (f : RForm) (s : State) : Host.Outcome State Fault Refusal :=
  uniRegs 8 f.pred (fun g =>
    .ok (g.putQ f.d.toNat (f.c.toNat.testBit
      ((if getBit8 g.q f.a.toNat then 2 else 0) + (if getBit8 g.q f.b.toNat then 1 else 0))))) s

/-- A stop of a uniform instruction: all its lanes are held, park or raise together. -/
def uniStop (s : State) : Stop → UniOut
  | .hold => .hold
  | .park p => .done s (.park p)
  | .raise r => .raise r

def execUread (f : RForm) (s : State) : Host.Outcome State Fault Refusal :=
  uniInstr 8 f.pred false (fun s gid g lanes =>
    match readS g f.b.toNat with
    | .error e => uniStop s e
    | .ok n =>
      if g.vregs ≤ f.a.toNat then .raise { cause := 2 }
      else
        let l := n.toNat % g.width
        let got : Except Stop Word :=
          match g.thread? l with
          | none => .ok 0
          | some t =>
            if !lanes.contains l then .ok 0
            else if (mapFind f.a.toNat t.vtag).isSome then .error .hold
            else readReg g t f.a.toNat
        match got with
        | .error e => uniStop s e
        | .ok x => s.checked g fun s => .done (s.setGroup gid (·.putS f.d.toNat x)) (.next false)) s

/-! Special registers (R162). -/

/-- A special register of the group; the lane-varying ones are not among them. -/
def State.special (s : State) (g : Group) (n : Nat) : Word :=
  let b := (s.block? g.bid).map fun b => (b.index, b.gangb)
  let (index, gangb) := if g.handler then (0, 1) else b.getD (0, 1)
  let x : Nat :=
    match n with
    | 0x010 => g.index
    | 0x011 => index
    | 0x012 => index / gangb
    | 0x013 => index % gangb
    | 0x014 => s.gridOf g
    | 0x015 => s.depthOf g
    | 0x016 => g.width
    | 0x017 => if g.enc == .l then 1 else 0
    | 0x018 => g.core
    | 0x019 => g.part
    | 0x01A => s.stepping
    | 0x01B => if g.ilk then 1 else 0
    | _ => 0
  BitVec.ofNat 32 x

def execUrsr (f : I16Form) (s : State) : Host.Outcome State Fault Refusal :=
  uniInstr 8 f.pred false (fun s gid g lanes =>
    let n := f.imm.toNat
    let d := f.d.toNat
    if n ≤ 1 then
      if g.vregs ≤ d then .raise { cause := 2 }
      else
        let value := fun l => BitVec.ofNat 32 (if n = 0 then l else g.index * g.width + l)
        s.checked g fun s =>
          .done (s.setGroup gid fun g => lanes.foldl (fun g l => g.setThread l fun t => t.putReg 0 d (value l)) g)
            (.next false)
    else s.checked g fun s => .done (s.setGroup gid (·.putS d (s.special g n))) (.next false)) s

/-- Seeds every generator of a core (R76): the lanes' stored generators give way to the seed. -/
def Core.reseed (c : Core) (lanes : Nat) (v : Word) : Core :=
  { c with rng := (List.range lanes).map fun l => (l, srSeed v l) }

def execUwsr (f : I16Form) (s : State) : Host.Outcome State Fault Refusal :=
  uniInstr 8 f.pred false (fun s _ g _ =>
    match readS g f.a.toNat with
    | .error e => uniStop s e
    | .ok v => s.checked g fun s =>
      .done (s.setCore g.core (·.reseed (s.lanes g.part g.core) v)) (.next false)) s

/-- The counter runs on by an amount nothing here fixes (R24, notes/assumptions/5). -/
def execCcount (f : RForm) (s : State) : Host.Outcome State Fault Refusal :=
  uniInstr 8 f.pred false (fun s gid g _ => s.checked g fun s =>
    let (k, s) := s.free
    let s := s.setCore g.core fun c => { c with cycle := c.cycle + k >>> 1 }
    let now := (s.core g.core).cycle
    .done (s.setGroup gid (·.putSWide true f.d.toNat now.toNat)) (.next false)) s

/-! Address registers (R164 to R170). -/

/-- A uniform pair as 64 bits. -/
def readPair (g : Group) (k : Nat) : Except Stop DWord := (readSWide g true k).map (BitVec.ofNat 64)

/-- An address register and a pair, both read. -/
def readAPair (g : Group) (d a : Nat) : Except Stop (AddrReg × DWord) :=
  match readA g d, readPair g a with
  | .error e, _ => .error e
  | _, .error e => .error e
  | .ok r, .ok v => .ok (r, v)

def AddrReg.setField (r : AddrReg) (k : Nat) (v : DWord) : AddrReg :=
  match k with
  | 0 => { r with pointer := v }
  | 1 => { r with base := v }
  | 2 => { r with limit := v }
  | _ => { r with attr := v &&& attrMask }

def AddrReg.field (r : AddrReg) (k : Nat) : DWord :=
  match k with
  | 0 => r.pointer
  | 1 => r.base
  | 2 => r.limit
  | _ => r.attr

def execAset (f : RForm) (s : State) : Host.Outcome State Fault Refusal :=
  uniRegs 8 f.pred (fun g =>
    (readAPair g f.d.toNat f.a.toNat).map fun (r, v) => g.putA f.d.toNat (r.setField f.c.toNat v)) s

def execAget (f : RForm) (s : State) : Host.Outcome State Fault Refusal :=
  uniRegs 8 f.pred (fun g =>
    (readA g f.a.toNat).map fun r => g.putSWide true f.d.toNat (r.field f.c.toNat).toNat) s

/-- ADV's new register; ARANGE outside the range (R169). -/
def AddrReg.advance (r : AddrReg) (stride : Word) : Option AddrReg :=
  let np := r.pointer + stride.signExtend 64
  if np.toNat < r.base.toNat ∨ r.base.toNat + r.limit.toNat ≤ np.toNat then none else some { r with pointer := np }

def execAdv (f : RForm) (s : State) : Host.Outcome State Fault Refusal :=
  uniRegs 8 f.pred (fun g =>
    match readA g f.d.toNat, readS g f.a.toNat with
    | .error e, _ => .error e
    | _, .error e => .error e
    | .ok r, .ok x =>
      match r.advance x with
      | some r => .ok (g.putA f.d.toNat r)
      | none => .error (Stop.cause 4)) s

/-- ANARROW's new register; none where the requirement of R170 fails. -/
def AddrReg.narrowed (r : AddrReg) (k : Nat) (v : DWord) : Option AddrReg :=
  let top := r.base.toNat + r.limit.toNat
  match k with
  | 1 =>
    if r.base.toNat ≤ v.toNat ∧ v.toNat ≤ top then some { r with base := v, limit := r.limit - (v - r.base) } else none
  | 2 => if v.toNat ≤ r.limit.toNat then some { r with limit := v } else none
  | 3 => some { r with attr := r.attr &&& (v ||| 0xFFFFFFFFFFFFFFF8) }
  | _ =>
    if r.base.toNat ≤ r.pointer.toNat ∧ r.pointer.toNat + v.toNat ≤ top then some { r with base := r.pointer, limit := v }
    else none

def execAnarrow (f : RForm) (s : State) : Host.Outcome State Fault Refusal :=
  uniRegs 8 f.pred (fun g =>
    match readAPair g f.d.toNat f.a.toNat with
    | .error e => .error e
    | .ok (r, v) =>
      match r.narrowed f.c.toNat v with
      | some r => .ok (g.putA f.d.toNat r)
      | none => .error (Stop.cause 4)) s

end Sys2Proof.Machine
end

