-- ==== Sys2Proof/Machine/Loads.lean ====
section
/-! DEFINITION. The load path (R130, R131, R224, R258, R360): what a load takes from its core, the requests for the rest,
replies and late causes; and the meanings of the MEM class, of LDU, STU and ALD, and of the events that serve them. -/

namespace Sys2Proof.Machine

/-! ## Operands of a memory form -/

def Stop.lane : Stop → LaneOut
  | .hold => .hold
  | .park p => .stop (.park p)
  | .raise r => .stop (.raise r)

/-- The index operand: 0 where there is none (R49). -/
def readIndex (g : Group) (t : Thread) (idx : BitVec 10) : Except Stop Word :=
  if idx = noIndex then .ok 0 else readVec g t idx.toNat

def readUniIndex (g : Group) (idx : BitVec 10) : Except Stop Word :=
  if idx = noIndex then .ok 0 else readS g idx.toNat

/-- The address register and the effective address of a lane (R49). -/
def laneAddr (g : Group) (t : Thread) (areg : Nat) (idx : BitVec 10) (scale : Nat) (off : DWord) :
    Except Stop (AddrReg × DWord) :=
  match readA g areg, readIndex g t idx with
  | .error e, _ => .error e
  | _, .error e => .error e
  | .ok a, .ok i => .ok (a, effAddr a i scale off)

def uniAddr (g : Group) (areg : Nat) (idx : BitVec 10) (scale : Nat) (off : DWord) :
    Except Stop (AddrReg × DWord) :=
  match readA g areg, readUniIndex g idx with
  | .error e, _ => .error e
  | _, .error e => .error e
  | .ok a, .ok i => .ok (a, effAddr a i scale off)

def memLaneAddr (g : Group) (t : Thread) (f : MForm) : Except Stop (AddrReg × DWord) :=
  laneAddr g t f.areg.toNat f.idx f.scale.toNat (f.off.signExtend 64)

def memUniAddr (g : Group) (f : MForm) : Except Stop (AddrReg × DWord) :=
  uniAddr g f.areg.toNat f.idx f.scale.toNat (f.off.signExtend 64)

/-- Bytes of an access of a SIZE code (R46). -/
def sizeBytes (size : BitVec 4) : Nat := 2 ^ size.toNat

/-- The shape of a memory form. -/
def memShape (f : MForm) (runs : List (Nat × Nat)) : Shape := { pred := f.pred, runs := runs }

/-- Registers as little-endian bytes, the low n of them. -/
def wordsBytes (n : Nat) (ws : List Word) : List Byte := leBytes n (wordsNat ws)

/-! ## Pending operations -/

/-- Lane l waits for a result in vector registers: it is their last writer (R131). -/
def Thread.awaitRegs (t : Thread) (pend : Nat) (regs : List Nat) : Thread :=
  { t with
    vtag := regs.foldl (fun m r => mapInsert r pend m) t.vtag
    fut := regs.foldl (fun m r => mapErase r m) t.fut
    vhaz := regs.foldl (fun m r => mapErase r m) t.vhaz
    loads := t.loads + 1 }

def Thread.awaitPred (t : Thread) (pend k : Nat) : Thread :=
  { t with ptag := if k < 7 then mapInsert k pend t.ptag else t.ptag, phaz := mapErase k t.phaz }

/-- Delivers words to vector registers whose last writer is still the operation. -/
def Thread.deliver (t : Thread) (pend : Nat) (regs : List Nat) (ws : List Word) : Thread :=
  (regs.zip ws).foldl (fun t (r, x) =>
    if mapFind r t.vtag == some pend then { t with v := mapPut 0 r x t.v, vtag := mapErase r t.vtag } else t) t

def Thread.deliverPred (t : Thread) (pend k : Nat) (b : Bool) : Thread :=
  if mapFind k t.ptag == some pend then { t with p := setBit8 t.p k b, ptag := mapErase k t.ptag } else t

/-- Forgets an operation's tags. -/
def Thread.forget (t : Thread) (pend : Nat) : Thread :=
  { t with vtag := t.vtag.filter (·.2 != pend), ptag := t.ptag.filter (·.2 != pend) }

/-- A new pending operation of lanes of a group. -/
def State.openPend (s : State) (gid : Nat) (g : Group) (lanes : List Nat) (dest : Dest) (data : List (Option Byte))
    (wait : Nat) (ea : DWord) : Nat × State :=
  let (id, s) := s.fresh
  let ts := lanes.filterMap g.thread?
  let info := g.fragInfo (((ts.head?).map (·.frag)).getD 0)
  let p : Pend := { id := id, gid := gid, lanes := lanes, dest := dest, data := data, wait := wait, ea := ea
                    pc := ((ts.head?).map (·.pc)).getD 0, rentry := ts.map (·.rentry), rcount := ts.map (·.rcount)
                    frag := info.id, parent := info.parent, sib := info.sib }
  (id, { s with pends := mapInsert id p s.pends })

/-- A reply formed inside the core. -/
def State.replyLocal (s : State) (core pend : Nat) (cause : Option (Nat × DWord)) (got : Bool := true) : State :=
  let (id, s) := s.fresh
  let r : Reply := { id := id, core := core, slice := none, pend := pend, to_ := 0, bytes := [], cause := cause
                     got := got }
  { s with replies := s.replies ++ [r] }

/-- A slice's reply to a request. -/
def State.reply (s : State) (r : Req) (pend to_ : Nat) (bytes : List Byte) (cause : Option (Nat × DWord))
    (fill : Option (Nat × L1Sector)) (got : Bool := true) : State :=
  let (id, s) := s.fresh
  let x : Reply := { id := id, core := r.core, slice := some r.slice, pend := pend, to_ := to_, bytes := bytes
                     cause := cause, fill := fill, got := got }
  { s with replies := s.replies ++ [x] }

/-- A lane that traps when its reply returns: it stands at the instruction again, nothing of it committed (R221). -/
def State.lateTrap (s : State) (p : Pend) (cause : Nat) (addr : DWord) : State :=
  match s.group? p.gid with
  | none => s
  | some g =>
    let lanes := p.lanes.filter fun l => (g.thread? l).any fun t => !t.st.isExited && t.trap.isNone
    let fid := ((lanes.head?.bind g.thread?).map (·.frag)).getD 0
    let s := lanes.foldl (fun s l => s.setCore g.core (·.dropThread p.gid l)) s
    let s := s.setGroup p.gid fun g =>
      let g := lanes.foldl (fun g l =>
        let i := (p.lanes.findIdx? (· == l)).getD 0
        g.setThread l fun t =>
          { t with pc := p.pc, rentry := p.rentry.getD i t.rentry, rcount := p.rcount.getD i t.rcount }) g
      let others := g.live.filter fun l => !lanes.contains l && ((g.thread? l).map (·.frag)) == some fid
      (if others.isEmpty then g else (g.putFrag lanes fid (g.fragInfo fid).sib).pruneFrags).holdOthers lanes
    lanes.foldl (fun s l =>
      match s.thread? p.gid l with
      | none => s
      | some t =>
        s.takeTrap p.gid l
          { cause := cause, pc := p.pc, repc := t.rentry, rcount := t.rcount, addr := addr, frag := p.frag
            parent := p.parent, sib := p.sib }) s

/-- Bytes of an operation, absent ones as zero. -/
def Pend.bytes (p : Pend) : List Byte := p.data.map (·.getD 0)

/-- The words that bytes fill. -/
def bytesWords (n : Nat) (bs : List Byte) : List Word :=
  (List.range n).map fun i => BitVec.ofNat 32 (leNat ((bs.drop (4 * i)).take 4))

/-- Writes tile elements row by row from little-endian elements of the width given (R174). -/
def tileFrom (width : Nat) (bs : List Byte) : Tile :=
  (List.range 4096).foldl (fun t i => mapPut 0 i (BitVec.ofNat 32 (leNat ((bs.drop (width * i)).take width))) t) []

/-- Writes a whole tile of a block. -/
def State.setTile (s : State) (bid idx name : Nat) (f : Tile → Tile) : State :=
  s.setBlock bid fun b => { b with tiles := listUpdate idx (mapUpdate name f) b.tiles }

/-- Operands that were to have a result although a later write has taken its register now have it (R131). -/
def Late.pay (p : Pend) (regs : List Nat) (r : Late) : Late :=
  if r.owedBy == some p.id then
    let old := r.words.getD []
    let new := regs.zip (bytesWords regs.length p.bytes)
    let word := fun (i q : Nat) => ((new.find? (·.1 == q)).map (·.2)).getD (old.getD i 0)
    { r with words := some ((List.range r.regs.length).map fun i => word i (r.regs.getD i 0)) }
  else r

def State.owePaid (s : State) (p : Pend) : State :=
  match p.dest with
  | .vec _ regs =>
    if (s.group? p.gid).any fun g => g.late.any fun r => r.owedBy == some p.id then
      s.setGroup p.gid fun g => { g with late := g.late.map (·.pay p regs) }
    else s
  | _ => s

/-- The result of a pending operation goes where it belongs; `got` is the predicate of DEQ and QTRY. -/
def State.commit (s : State) (p : Pend) (got : Bool) : State :=
  let done := fun (t : Thread) => { t.forget p.id with loads := t.loads - 1 }
  match p.dest with
  | .none => s
  | .vec lane regs =>
    (s.setThread p.gid lane fun t => done (t.deliver p.id regs (bytesWords regs.length p.bytes))).owePaid p
  | .entry lane reg pred =>
    s.setThread p.gid lane fun t =>
      let t := if got then t.deliver p.id [reg] (bytesWords 1 p.bytes) else t
      done (t.deliverPred p.id pred got)
  | .pred lane k => s.setThread p.gid lane fun t => done (t.deliverPred p.id k got)
  | .uni regs =>
    s.setGroup p.gid fun g =>
      (regs.zip (bytesWords regs.length p.bytes)).foldl (fun g (k, x) =>
        if mapFind k g.stag == some p.id then g.putS k x else g) g
  | .addr k =>
    s.setGroup p.gid fun g =>
      if mapFind k g.atag == some p.id then
        let d := fun i => BitVec.ofNat 64 (leNat ((p.bytes.drop (8 * i)).take 8))
        g.putA k { pointer := d 0, base := d 1, limit := d 2, attr := d 3 &&& attrMask }
      else g
  | .tile t width =>
    match s.group? p.gid with
    | some g => s.setTile g.bid g.home t fun _ => tileFrom width p.bytes
    | none => s
  | .answer => s

/-- The tags of an operation that ends in a cause are dropped; nothing is written. -/
def State.abandon (s : State) (p : Pend) : State :=
  let s := s.setGroup p.gid fun g =>
    { g with stag := g.stag.filter (·.2 != p.id), atag := g.atag.filter (·.2 != p.id) }
  match p.dest with
  | .vec lane _ => s.setThread p.gid lane fun t => { t.forget p.id with loads := t.loads - 1 }
  | .entry lane _ _ => s.setThread p.gid lane fun t => { t.forget p.id with loads := t.loads - 1 }
  | .pred lane _ => s.setThread p.gid lane fun t => { t.forget p.id with loads := t.loads - 1 }
  | _ => s

/-- A park that an operation's answer ends. -/
def Park.waitsFor (id : Nat) : Park → Bool
  | .entry _ p => p == id
  | .space _ p => p == id
  | .answer p => p == id
  | _ => false

/-- Trapped lanes that waited for the operation are recorded (R282). -/
def State.settleTraps (s : State) (p : Pend) : State := p.lanes.foldl (fun s l => s.settleTrap p.gid l) s

/-- An operation all of whose replies are there: it commits, or its lanes take the cause. Lanes that have exited take
nothing. -/
def State.settlePend (s : State) (id : Nat) (got : Bool) : State :=
  match mapFind id s.pends with
  | none => s
  | some p =>
    if p.wait ≠ 0 then s
    else
      let s := { s with pends := mapErase id s.pends }
      if p.lanes.isEmpty then s
      else
        match p.cause with
        | some (c, a) => ((s.abandon p).lateTrap p c a).settleTraps p
        | none =>
          let s := s.commit p got
          (s.setGroup p.gid fun g => g.wake (p.lanes.filter fun l =>
            (g.thread? l).any fun t => (t.st.parkedOn.map (·.waitsFor p.id)).getD false)).settleTraps p

/-- The fills in flight to a core that an invalidation takes with it (R269). -/
def State.dropFills (s : State) (core : Nat) (sel : Nat → Bool) : State :=
  let cut := fun (r : Req) =>
    if r.core == core then
      match r.kind with
      | .load p n pend to_ fill => { r with kind := .load p n pend to_ (fill && !sel p.key) }
      | .fill pa l1 => { r with kind := .fill pa (l1 && !sel (pa / 32)) }
      | _ => r
    else r
  let drop := fun (r : Reply) =>
    if r.core == core then { r with fill := r.fill.filter fun (k, _) => !sel k } else r
  let s := { s with net := s.net.map cut, replies := s.replies.map drop }
  s.setCore core fun c => { c with l1 := c.l1.filter fun (k, _) => !sel k }

/-- A core's access has obtained bytes that a copy wrote: what its L1 still holds from before the copy is gone (FS-9 of
R279). -/
def State.learn (s : State) (core : Nat) (p : Place) (n : Nat) : State :=
  match p with
  | .spad _ _ _ => s
  | .mem pa =>
    let hit := fun (x : List Nat × Mask) =>
      maskHas x.2 core && x.1.any fun l => pa < 128 * (l + 1) && 128 * l < pa + n
    let lines := (s.landed.filter hit).flatMap (·.1)
    if lines.isEmpty then s
    else
      let known := fun (x : List Nat × Mask) => if hit x then (x.1, maskDrop x.2 [core]) else x
      { s.dropFills core (fun k => lines.contains (k / 4)) with
        landed := (s.landed.map known).filter fun x => x.2 != 0 }

/-! ## What a load takes inside its core (R224) -/

inductive Order where
  | weak
  | strong
  | nt
deriving DecidableEq, Repr

def Order.ofCode (n : Nat) : Order :=
  match n with
  | 0 => .weak
  | 1 => .strong
  | _ => .nt

/-- An entry's byte at a place. -/
def Store.byteAt (e : Store) (p : Place) : Option Byte :=
  match e.at_, p with
  | .mem a, .mem b => if a ≤ b then mapFind (b - a) e.bytes else none
  | .spad x i a, .spad y j b => if x = y ∧ i = j ∧ a ≤ b then mapFind (b - a) e.bytes else none
  | _, _ => none

/-- The youngest write to a byte that the load may see: its own group's, and for a weak load the .CORE-pushed entries of
any group. -/
def Core.forwarded (c : Core) (gid : Nat) (weak : Bool) (p : Place) : Option Byte :=
  (c.entries.foldl (fun (best : Option (Nat × Byte)) e =>
    if e.gid == gid || (weak && e.pushed) then
      match e.byteAt p with
      | some b =>
        match best with
        | some (n, x) => if n ≤ e.seq then some (e.seq, b) else some (n, x)
        | none => some (e.seq, b)
      | none => best
    else best) none).map (·.2)

/-- A pushed entry holds the sector in place. -/
def Core.pinnedSector (c : Core) (p : Place) : Bool := (c.sq ++ c.wt).any fun e => e.pushed && e.at_ == p

/-- The L1's sector as a weak load finds it: it may have been replaced meanwhile (R222). -/
def State.l1Sector (s : State) (core : Nat) (p : Place) : Option L1Sector × State :=
  if !p.cached then (none, s)
  else
    match mapFind p.key (s.core core).l1 with
    | none => (none, s)
    | some x =>
      if (s.core core).pinnedSector p then (some x, s)
      else
        let (k, s) := s.pick 2
        if k == 0 then (some x, s) else (none, s.setCore core (·.l1Drop p.key))

/-- What one piece of a load finds: the bytes, whether some are still to come, those that the L1 served, and whether
they were poisoned. -/
structure Found where
  data : List (Option Byte)
  missing : Bool
  fromL1 : List (Nat × Byte) := []
  bad : Bool := false

def State.findPiece (s : State) (core gid : Nat) (o : Order) (p : Place) (off n : Nat) : Found × State :=
  let own := (List.range n).map fun i => (s.core core).forwarded gid (o == .weak) (p.add (off + i))
  if own.all (·.isSome) then ({ data := own, missing := false }, s)
  else if o != .weak then ({ data := own, missing := true }, s)
  else
    match s.l1Sector core p with
    | (none, s) => ({ data := own, missing := true }, s)
    | (some x, s) =>
      let from_ := (List.range n).filter fun i => (own.getD i none).isNone
      ({ data := (List.range n).map fun i => (own.getD i none).orElse fun _ => x.bytes[off + i]?
         missing := false
         fromL1 := from_.map fun i => (32 * p.key + off + i, x.bytes.getD (off + i) 0)
         bad := x.poison }, s)

/-- All pieces of a load: its bytes, the requests it needs, what the L1 served, and a poisoned address. -/
def State.findAll (s : State) (core gid : Nat) (o : Order) :
    List (Place × Nat × Nat × Nat) → (List (Option Byte) × List (Place × Nat × Nat) × List (Nat × Byte) × Option DWord)
      × State
  | [] => (([], [], [], none), s)
  | (p, off, i, n) :: rest =>
    let (f, s) := s.findPiece core gid o p off n
    let ((ds, rs, l1, bad), s) := s.findAll core gid o rest
    let mine := if f.missing then [(p.add off, n, i)] else []
    ((f.data ++ ds, mine ++ rs, f.fromL1 ++ l1, if f.bad then some (p.add off).address else bad), s)

/-- Counts an access served partly from the L1, and samples every 2^k-th (R258). -/
def State.countL1 (s : State) (core gid part : Nat) (obj : Word) (l1 : List (Nat × Byte)) : State :=
  if l1.isEmpty then s
  else
    let s := s.setCore core fun c => { c with l1Reads := c.l1Reads + 1 }
    if (s.core core).l1Reads % 2 ^ (s.part part).samplek = 0 then
      s.post core (homeOf ((l1.head?.map (·.1)).getD 0)) gid part (.sample l1 obj)
    else s

/-- A load takes bytes of its group's own stores: their operands have been read (R131). -/
def State.readStored (s : State) (core gid : Nat) (ps : List (Place × Nat × Nat × Nat)) : State :=
  ((s.core core).entries.filter fun e =>
    !e.owner.isEmpty && e.gid == gid && ps.any fun (p, off, _, n) => stretchesMeet e.span (p.add off, n)).foldl
    State.readOwners s

/-- Starts a load of pieces. The operation's number. -/
def State.startPieces (s : State) (gid : Nat) (g : Group) (lanes : List Nat) (dest : Dest) (o : Order) (obj : Word)
    (ps : List (Place × Nat × Nat × Nat)) (ea : DWord) : Nat × State :=
  let ((ds, rs, l1, bad), s) := (s.readStored g.core gid ps).findAll g.core gid o ps
  let s := s.countL1 g.core gid g.part obj l1
  let (id, s) := s.openPend gid g lanes dest ds (max 1 rs.length) ea
  let s := rs.foldl (fun s (q, k, i) =>
    s.post g.core q.slice gid g.part (.load q k id i (o == .weak && q.cached))) s
  let s := if rs.isEmpty then s.replyLocal g.core id (bad.map fun a => (0x11, a)) else s
  let s := match bad with
    | some a => s.setPend id fun p => { p with cause := some (0x11, a) }
    | none => s
  (id, s)

/-- Starts a load of n bytes at a place. -/
def State.startLoad (s : State) (gid : Nat) (g : Group) (lanes : List Nat) (dest : Dest) (o : Order) (obj : Word)
    (p : Place) (n : Nat) (ea : DWord) : Nat × State :=
  s.startPieces gid g lanes dest o obj (pieces p n) ea

/-! ## The meanings of the MEM class (R226, R227) -/

/-- A load's register and address operands: registers of the destination run first. -/
def loadOperands (g : Group) (t : Thread) (d n : Nat) (idx : BitVec 10) (areg scale : Nat) (off : DWord) :
    Except Stop (List Nat × AddrReg × DWord) :=
  let regs := if idx = noIndex then [(d, n)] else [(d, n), (idx.toNat, 1)]
  match physAll g t regs with
  | .error e => .error e
  | .ok rs => (laneAddr g t areg idx scale off).map fun x => (rs.getD 0 [], x)

def loadLane (f : MForm) (gid : Nat) (s : State) (l : Nat) (t : Thread) : LaneOut :=
  match s.group? gid with
  | none => .stop (.next false)
  | some g =>
    match loadOperands g t f.d.toNat (sizeRun f.size.toNat) f.idx f.areg.toNat f.scale.toNat (f.off.signExtend 64) with
    | .error e => e.lane
    | .ok (regs, a, ea) =>
      if 63 ≤ t.loads then .hold
      else
        let n := sizeBytes f.size
        match s.checkReg g a [0, 3] .read ea n with
        | some c => .stop (.raise { cause := c, addr := ea })
        | none =>
          match s.checkAccess g a .read ea n n with
          | (.error c, s) => .done s (.raise { cause := c, addr := ea })
          | (.ok pa, s) =>
            let (id, s) := s.startLoad gid g [l] (.vec l regs) (Order.ofCode f.order.toNat) a.objid (.mem pa) n ea
            .done (s.setThread gid l (·.awaitRegs id regs)) (.next false)

def execLd (f : MForm) (s : State) : Host.Outcome State Fault Refusal :=
  seqInstr (memShape f [(f.d.toNat, sizeRun f.size.toNat)]) (loadLane f) s

/-- What store instruction n says of its stores. -/
def storeTag (gid : Nat) (g : Group) (o : Order) (a : AddrReg) (n : Nat) : StoreTag :=
  { gid := gid, part := g.part, core := g.core, strong := o == .strong, nt := o == .nt
    obj := if a.space == 0 then a.objid else 0, sys := a.space == 3, seq := n }

/-- A store's data registers, what they hold, and its address. -/
def storeOperands (g : Group) (t : Thread) (d n : Nat) (idx : BitVec 10) (areg scale : Nat) (off : DWord) :
    Except Stop (List Nat × List Word × AddrReg × DWord) :=
  match loadOperands g t d n idx areg scale off with
  | .error e => .error e
  | .ok (regs, x) => (readAll g t regs).map fun ws => (regs, ws, x)

/-- A store that passed its checks: its roster bit, then its entry. -/
def State.doStore (s : State) (tag : StoreTag) (pa : Nat) (bs : List Byte) : Except Stop State :=
  match if tag.sys then some s else s.rosterStore tag.core tag.obj pa with
  | none => .error (Stop.cause 9)
  | some s =>
    match s.enterStore tag (.mem pa) bs with
    | none => .error .hold
    | some s => .ok s

/-- In a peer's window an operation stands for the storing lanes until the peer answers (R333). -/
def State.awaitPeer (s : State) (gid : Nat) (g : Group) (lanes : List Nat) (pa : Nat) (ea : DWord) : Option Nat × State :=
  if isPeer pa then
    let (id, s) := s.openPend gid g lanes .none [] 1 ea
    (some id, s)
  else (none, s)

/-- A store whose data are read after issue in native mode (R131). -/
def storeLane (f : MForm) (issueNo gid : Nat) (s : State) (l : Nat) (t : Thread) : LaneOut :=
  match s.group? gid with
  | none => .stop (.next false)
  | some g =>
    match storeOperands g t f.d.toNat (sizeRun f.size.toNat) f.idx f.areg.toNat f.scale.toNat (f.off.signExtend 64) with
    | .error e => e.lane
    | .ok (regs, ws, a, ea) =>
      if t.full .stores then .hold
      else
        let n := sizeBytes f.size
        match s.checkReg g a [0, 3] .write ea n with
        | some c => .stop (.raise { cause := c, addr := ea })
        | none =>
          match s.checkAccess g a .write ea n n with
          | (.error c, s) => .done s (.raise { cause := c, addr := ea })
          | (.ok pa, s) =>
            let (late, t) := s.openLate gid g l .stores regs n .store
            let (pend, t) := t.awaitPeer gid g [l] pa ea
            let tag := { storeTag gid g (Order.ofCode f.order.toNat) a issueNo with
              late := late.map fun i => (i, 0), pend := pend }
            match t.doStore tag pa (wordsBytes n ws) with
            | .error .hold => .hold
            | .error _ => .done s (.raise { cause := 9, addr := ea })
            | .ok s => .done s (.next (a.space == 3))

/-- A store instruction takes a number of its own, which its entries carry. -/
def execSt (f : MForm) (s : State) : Host.Outcome State Fault Refusal :=
  issue (fun s gid fid =>
    seqFragment (memShape f [(f.d.toNat, sizeRun f.size.toNat)]) (storeLane f s.newStore.seq) s.newStore gid fid) s

/-- PREF: a lane whose checks fail does nothing (R227). A strong PREF moves lines between levels only. -/
def prefLane (f : MForm) (gid : Nat) (s : State) (_ : Nat) (t : Thread) : LaneOut :=
  match s.group? gid with
  | none => .stop (.next false)
  | some g =>
    match memLaneAddr g t f with
    | .error .hold => .hold
    | .error (.park p) => .stop (.park p)
    | .error (.raise _) => .stop (.next false)
    | .ok (a, ea) =>
      let n := sizeBytes f.size
      match s.checkReg g a [0, 3] .read ea n with
      | some _ => .stop (.next false)
      | none =>
        match s.checkAccess g a .read ea n n with
        | (.error _, s) => .done s (.next false)
        | (.ok pa, s) =>
          let want := (pieces (.mem pa) n).filter fun (q, _) =>
            q.cached && (mapFind q.key (s.core g.core).l1).isNone
          if f.order = 0 then
            .done (want.foldl (fun s (q, _) =>
              match q with
              | .mem a => s.post g.core q.slice gid g.part (.fill a true)
              | .spad _ _ _ => s) s) (.next false)
          else .done s (.next false)

def execPref (f : MForm) (s : State) : Host.Outcome State Fault Refusal := seqInstr (memShape f []) (prefLane f) s

/-! ## Uniform loads and stores (R226, R171) -/

/-- A uniform load of n bytes; `checks` says that its residue is checked, as an address register's load is (R172). -/
def uniLoad (f : MForm) (n : Nat) (dest : Dest) (checks : Bool) (await : Nat → Group → Group) (s : State) :
    Host.Outcome State Fault Refusal :=
  uniInstr 8 f.pred false (fun s gid g lanes =>
    match memUniAddr g f with
    | .error .hold => .hold
    | .error (.park p) => .done s (.park p)
    | .error (.raise r) => .raise r
    | .ok (a, ea) =>
      match s.checkReg g a [0, 3] .read ea n with
      | some c => .raise { cause := c, addr := ea }
      | none =>
        match s.checkAccess g a .read ea n n with
        | (.error c, s) => .done s (.raise { cause := c, addr := ea })
        | (.ok pa, s) =>
          let go := fun (s : State) =>
            let (id, s) := s.startLoad gid g lanes dest (Order.ofCode f.order.toNat) a.objid (.mem pa) n ea
            .done (s.setGroup gid (await id)) (.next false)
          if checks then s.checked g go else go s) s

def uniRun (d n : Nat) : List Nat := (List.range n).map (d + ·)

def execLdu (f : MForm) (s : State) : Host.Outcome State Fault Refusal :=
  let regs := uniRun f.d.toNat (sizeRun f.size.toNat)
  uniLoad f (sizeBytes f.size) (.uni regs) false
    (fun id g => { g with stag := regs.foldl (fun m r => mapInsert r id m) g.stag }) s

def execAld (f : MForm) (s : State) : Host.Outcome State Fault Refusal :=
  uniLoad f 32 (.addr f.d.toNat) true (fun id g => { g with atag := mapInsert f.d.toNat id g.atag }) s

def execStu (f : MForm) (s : State) : Host.Outcome State Fault Refusal :=
  let n := sizeBytes f.size
  let k := sizeRun f.size.toNat
  uniInstr 8 f.pred false (fun s gid g lanes =>
    match memUniAddr g f, readUnis g ((uniRun f.d.toNat k).map (·, false)) with
    | .error .hold, _ => .hold
    | .error (.park p), _ => .done s (.park p)
    | .error (.raise r), _ => .raise r
    | _, .error _ => .hold
    | .ok (a, ea), .ok xs =>
      match s.checkReg g a [0, 3] .write ea n with
      | some c => .raise { cause := c, addr := ea }
      | none =>
        match s.newStore.checkAccess g a .write ea n n with
        | (.error c, s) => .done s (.raise { cause := c, addr := ea })
        | (.ok pa, s) =>
          let bs := wordsBytes n (xs.map (BitVec.ofNat 32))
          let tag := storeTag gid g (Order.ofCode f.order.toNat) a s.seq
          let (pend, s) := s.awaitPeer gid g lanes pa ea
          match s.doStore { tag with pend := pend } pa bs with
          | .error .hold => .hold
          | .error _ => .raise { cause := 9, addr := ea }
          | .ok s => .done s (.next (a.space == 3))) s

/-! ## The events of the load path -/

/-- A sector as the home slice hands it to an L1 (R224, R360). -/
def State.homeSector (s : State) (p : Place) : Option (Nat × L1Sector) :=
  match p with
  | .mem pa => some (pa / 32, { bytes := s.bytes (pa / 32 * 32) 32, poison := s.poisoned (pa / 32 * 32) 32 })
  | .spad _ _ _ => none

/-- A load is answered with the bytes as they stand where they are served (R224); poisoned bytes answer with the cause
(R360). -/
def State.serveLoad (s : State) (r : Req) (p : Place) (n pend to_ : Nat) (fill : Bool) : State :=
  let cause := if s.placePoisoned p n then some (0x11, p.address) else none
  let s := s.learn r.core p n
  s.reply r pend to_ (s.placeBytes p n) cause (if fill then s.homeSector p else none)

/-- The peer has answered for a store: the lanes that it stands for are done, or raise the cause (R333). -/
def State.storeAnswered (s : State) (pend : Nat) : State :=
  (s.setPend pend fun p => { p with wait := p.wait - 1 }).settlePend pend true

/-- The slice has sent the core a reply, or an acknowledgement, before an entry's acknowledgement (R29). -/
def State.ackBehind (s : State) (core : Nat) (e : Store) : Bool :=
  let c := s.core core
  (s.replies.any fun r => r.core == core && r.slice == some e.at_.slice && r.id < e.ackFrom)
    || (c.wt ++ c.wc).any fun x => x.applied && x.at_.slice == e.at_.slice && x.ackFrom < e.ackFrom

/-- WRITE_THROUGH_ACK: the acknowledgement of an applied entry reclaims it, behind what the slice sent the core before
(R29); entries of the write-through queue come first, then write-combining lines (R262). -/
def execWriteThroughAck (core entry : Nat) (s : State) : Host.Outcome State Fault Refusal :=
  let c := s.core core
  match (c.wt ++ c.wc)[entry]? with
  | some e =>
    if e.applied && !s.ackBehind core e then
      let s := s.setCore core fun c =>
        { c with wt := c.wt.filter fun x => !(x.same e && x.applied), wc := c.wc.filter fun x => !(x.same e && x.applied) }
      .next ((e.pends.foldl State.storeAnswered s).ackInspects core)
    else .next s
  | none => .next s

def State.pendEa (s : State) (p : Nat) : DWord := ((mapFind p s.pends).map (·.ea)).getD 0

/-- LOAD_REQUEST_AT_HOME: the home slice answers a load, or hands a sector to an L1. -/
def execLoadRequestAtHome (req : Nat) (s : State) : Host.Outcome State Fault Refusal :=
  match s.take req with
  | some (r, t) =>
    match r.kind with
    | .load (.mem pa) n pend to_ fill =>
      match t.refused pa with
      | (true, t) => .next (t.reply r pend to_ [] (some (7, t.pendEa pend)) none)
      | (false, t) => .next (t.serveLoad r (.mem pa) n pend to_ fill)
    | .fill pa l1 =>
      let t := t.learn r.core (.mem pa) 32
      .next (t.reply r t.seq 0 [] none (if l1 then t.homeSector (.mem pa) else none))
    | _ => .next s
  | none => .next s

/-- The bytes of a reply fill those that the operation still lacks. -/
def fillFrom (to_ : Nat) (bs : List Byte) (data : List (Option Byte)) : List (Option Byte) :=
  (List.range data.length).map fun i =>
    (data.getD i none).orElse fun _ => if to_ ≤ i then bs[i - to_]? else none

/-- A filled sector enters the L1 with the bytes that the core's stores on their way hold for it; a sector with a
write-combining line over it is not entered (R223). -/
def Core.l1Fill (c : Core) (key : Nat) (x : L1Sector) : Core :=
  let p : Place := .mem (32 * key)
  if c.wc.any fun e => e.at_ == p.line && e.bytes.any fun (i, _) => i / 32 == key % 4 then c
  else
    let x := (c.wt.filter fun e => e.at_ == p).foldl (fun x e => x.store e.bytes) x
    { c with l1 := mapInsert key x c.l1 }

/-- A filled sector enters the L1, which keeps to its size (R192, R222). -/
def State.l1Put (s : State) (core key : Nat) (x : L1Sector) : State :=
  s.setCore core fun c => (c.l1Fill key x).l1Trim (s.l1Lines core)

/-- The acknowledgement of one of the core's stores left the reply's slice before the reply did, and has not reached the
core (R29, R223). -/
def State.ackAhead (s : State) (r : Reply) : Bool :=
  let c := s.core r.core
  (c.wt ++ c.wc).any fun e => e.applied && r.slice == some e.at_.slice && decide (e.ackFrom ≤ r.id)

/-- SLICE_REPLY: the oldest reply of a slice to a core, or one formed in the core, reaches its operation, which settles
with its last reply (R29, R130, R243). -/
def execSliceReply (reply : Nat) (s : State) : Host.Outcome State Fault Refusal :=
  match s.replies.find? (·.id == reply) with
  | none => .next s
  | some r =>
    let earlier := (s.replies.takeWhile fun x => x.id != reply).any fun x =>
      x.core == r.core && x.slice == r.slice && r.slice.isSome
    if earlier || s.ackAhead r then .next s
    else
      let s := { s with replies := s.replies.filter (·.id != reply) }
      let s := match r.fill with
        | some (k, x) => s.l1Put r.core k x
        | none => s
      let s := s.setPend r.pend fun p =>
        { p with data := fillFrom r.to_ r.bytes p.data, wait := p.wait - 1, cause := p.cause.orElse fun _ => r.cause }
      .next (s.settlePend r.pend r.got)

/-- STALE_READ_SAMPLE: a shadow read's bytes are compared with the home's (R258). -/
def staleCounter (obj : Word) : Nat :=
  let n := obj.toNat
  (n ^^^ n / 2 ^ 6 ^^^ n / 2 ^ 12 ^^^ n / 2 ^ 18 ^^^ n / 2 ^ 24 ^^^ n / 2 ^ 30) % 64

def saturate32 (n : Nat) : Nat := min n (2 ^ 32 - 1)

def execStaleReadSample (sample : Nat) (s : State) : Host.Outcome State Fault Refusal :=
  match s.take sample with
  | some (r, t) =>
    match r.kind with
    | .sample bytes obj =>
      let stale := bytes.any fun (pa, b) => t.byte pa != b
      let i := staleCounter obj
      .next (t.setPart r.part fun p =>
        { p with
          samples := saturate32 (p.samples + 1)
          stale := if stale then mapPut 0 i (saturate32 (mapGet 0 p.stale i + 1)) p.stale else p.stale })
    | _ => .next s
  | none => .next s

/-- POISON_WRITEBACK: a dirty line found uncorrectable that no context owns is written back as poison and logged (R304,
R360). -/
def execPoisonWriteback (part pa : Nat) (s : State) : Host.Outcome State Fault Refusal :=
  let line := pa / 128
  let owned := (s.slice (homeOf (128 * line))).owned.any fun (l, _) => l == line
  if inDevice pa && part < 8 && !owned then
    let s := { s with poison := (List.range 4).foldl (fun m i => setAdd (4 * line + i) m) s.poison }
    .next (s.logError part { kind := 5, addr := BitVec.ofNat 64 (128 * line) })
  else .next s

end Sys2Proof.Machine
end

