-- ==== Sys2Proof/Machine/Scratch.lean ====
section
/-! DEFINITION. Scratchpad (R193 to R201, R361) and barrier objects (R209 to R212): the SPAD class and the BO
instructions. -/

namespace Sys2Proof.Machine

/-- The checks of a scratchpad access: R167, R193, then ALIGN (R197). The place; none where a peer's region is gone. -/
def State.checkSpad (s : State) (g : Group) (a : AddrReg) (spaces : List Nat) (acc : Access) (ea : DWord)
    (n align : Nat) : Except Nat (Option Place) :=
  match s.checkReg g a spaces acc ea n with
  | some c => .error c
  | none =>
    match s.spadPlace g a ea n with
    | .error c => .error c
    | .ok p => if ea.toNat % align ≠ 0 then .error 8 else .ok p

/-- Absent lines under a place of the group's own scratchpad. -/
def State.lacking (s : State) (p : Place) (n : Nat) : Option Park :=
  match p with
  | .mem _ => none
  | .spad b i o =>
    match s.absentLines b i o n with
    | [] => none
    | ls => some (.lines b i ls)

/-- A load whose bytes are known at issue: they arrive with a reply formed in the core. -/
def State.loadNow (s : State) (gid : Nat) (g : Group) (lanes : List Nat) (dest : Dest) (bs : List Byte) (ea : DWord) :
    Nat × State :=
  let (id, s) := s.openPend gid g lanes dest (bs.map some) 1 ea
  (id, s.replyLocal g.core id none)

/-- What a load from the region beside the core has read stands in the registers when the next instruction reads them,
though the load is still counted: R217 leaves a read of the old value no room (notes/assumptions/96). -/
def Thread.hasRead (t : Thread) (regs : List Nat) (bs : List Byte) : Thread :=
  { t with v := (regs.zip (bytesWords regs.length bs)).foldl (fun m (r, x) => mapPut 0 r x m) t.v }

/-- LDS: at issue from the region beside the core, through a slice from any other (R198, R199). -/
def ldsLane (f : MForm) (gid : Nat) (s : State) (l : Nat) (t : Thread) : LaneOut :=
  match s.group? gid with
  | none => .stop (.next false)
  | some g =>
    match loadOperands g t f.d.toNat (sizeRun f.size.toNat) f.idx f.areg.toNat f.scale.toNat (f.off.signExtend 64) with
    | .error e => e.lane
    | .ok (regs, a, ea) =>
      if 63 ≤ t.loads then .hold
      else
        let n := sizeBytes f.size
        let await := fun (x : Nat × State) => LaneOut.done (x.2.setThread gid l (·.awaitRegs x.1 regs)) (.next false)
        match s.checkSpad g a [1, 2] .read ea n n with
        | .error c => .stop (.raise { cause := c, addr := ea })
        | .ok none => await (s.loadNow gid g [l] (.vec l regs) (List.replicate n 0) ea)
        | .ok (some p) =>
          if s.viaSlice g a then await (s.startLoad gid g [l] (.vec l regs) .strong 0 p n ea)
          else
            match s.lacking p n with
            | some on => .stop (.park on)
            | none =>
              if s.placePoisoned p n then .stop (.raise { cause := 0x11, addr := p.address })
              else
                let bs := s.placeBytes p n
                let (id, s) := (s.readSpad p n).loadNow gid g [l] (.vec l regs) bs ea
                .done (s.setThread gid l fun t => (t.awaitRegs id regs).hasRead regs bs) (.next false)

def execLds (f : MForm) (s : State) : Host.Outcome State Fault Refusal :=
  seqInstr (memShape f [(f.d.toNat, sizeRun f.size.toNat)]) (ldsLane f) s

/-- The bytes touch a barrier object of the region (R209). -/
def State.touchesBarrier (s : State) (p : Place) (n : Nat) : Bool :=
  match p with
  | .mem _ => false
  | .spad b i o => (s.region? b i).any fun r => r.barriers.any fun k => o < k + 32 && k < o + n

/-- A scratchpad store's bytes at their place; its operands may be read later (R131, R198). -/
def State.putSpad (s : State) (gid : Nat) (g : Group) (l : Nat) (regs : List Nat) (p : Place) (bs : List Byte) : State :=
  let s := (s.disown p bs.length).placeWrite p bs
  match p with
  | .mem _ => s
  | .spad b i o => (s.openLate gid g l .stores regs bs.length (.spad b i o)).2

def stsLane (f : MForm) (issueNo gid : Nat) (s : State) (l : Nat) (t : Thread) : LaneOut :=
  match s.group? gid with
  | none => .stop (.next false)
  | some g =>
    match storeOperands g t f.d.toNat (sizeRun f.size.toNat) f.idx f.areg.toNat f.scale.toNat (f.off.signExtend 64) with
    | .error e => e.lane
    | .ok (regs, ws, a, ea) =>
      if t.full .stores then .hold
      else
        let n := sizeBytes f.size
        match s.checkSpad g a [1, 2] .write ea n n with
        | .error c => .stop (.raise { cause := c, addr := ea })
        | .ok none => .stop (.next false)
        | .ok (some p) =>
          let opens := s.touchesBarrier p n
          if s.viaSlice g a then
            let (late, s) := s.openLate gid g l .stores regs n .store
            let tag := { storeTag gid g (Order.ofCode f.order.toNat) a issueNo with late := late.map fun i => (i, 0) }
            match s.enterStore tag p (wordsBytes n ws) with
            | none => .hold
            | some s => .done s (.next opens)
          else
            match s.lacking p n with
            | some on => .stop (.park on)
            | none => .done (s.putSpad gid g l regs p (wordsBytes n ws)) (.next opens)

/-- Poisoned scratchpad sectors that the lanes of one store wrote in whole are clear (R360). -/
def State.clearWritten (ps : List (Place × Nat)) (s : State) : State :=
  let whole := fun (b i k : Nat) => (List.range 32).all fun j => ps.any fun (p, n) => match p with
    | .spad c x o => c == b && x == i && o ≤ 32 * k + j && 32 * k + j < o + n
    | .mem _ => false
  (ps.filterMap fun (p, _) => match p with
    | .spad b i _ => some (b, i)
    | .mem _ => none).foldl (fun s (b, i) =>
      if (s.region? b i).any fun r => !r.poison.isEmpty then
        s.setSpad b i fun r => { r with poison := r.poison.filter fun k => !whole b i k }
      else s) s

/-- Where each lane of an STS stores beside its core, as its fragment reads the address. -/
def State.stsPlaces (s : State) (f : MForm) (gid fid : Nat) : List (Nat × Place) :=
  match s.group? gid with
  | none => []
  | some g =>
    (views g s (g.fragLanes fid)).1.filterMap fun (l, t) =>
      match memLaneAddr g t f with
      | .ok (a, ea) =>
        if s.viaSlice g a then none
        else
          match s.spadPlace g a ea (sizeBytes f.size) with
          | .ok (some p) => some (l, p)
          | _ => none
      | .error _ => none

/-- The stores of the lanes that complete, taken together. -/
def stsTogether (f : MForm) (ps : List (Nat × Place)) : Together := fun _ s ds =>
  (s.clearWritten ((ps.filter fun (l, _) => ds.any fun (k, d) => k == l && d.key == .next).map fun (_, p) =>
    (p, sizeBytes f.size)), ds)

def execSts (f : MForm) (s : State) : Host.Outcome State Fault Refusal :=
  issue (fun s gid fid =>
    seqFragmentWith (memShape f [(f.d.toNat, sizeRun f.size.toNat)]) (stsLane f s.newStore.seq)
      (stsTogether f (s.newStore.stsPlaces f gid fid)) s.newStore gid fid) s

/-! ## Atomic arithmetic (R200, R242) -/

/-- The sum of two operands as an atomic adds them; `flush` is the slice's BF16 adder (R70). -/
def atomAdd (ty : Nat) (flush : Bool) (o d : Nat) : Nat :=
  match tyKind ty with
  | .flt f =>
    mapElems ty fun i =>
      let r := f.round .rne false (FV.sum false [f.value (elem (tyWidth ty) i o), f.value (elem (tyWidth ty) i d)])
      if flush && ty == 10 then flushBf16 r else r
  | _ => (o + d) % 2 ^ tyWidth ty

/-- min and max as R67 and R72 order. -/
def atomPick (ty : Nat) (wantMax : Bool) (o d : Nat) : Nat :=
  if ty = 8 then floatPick .fp32 wantMax o d
  else
    let w := tyWidth ty
    let a := toInt (tySigned ty) w o
    let b := toInt (tySigned ty) w d
    if (if wantMax then b ≤ a else a ≤ b) then o else d

/-- New(o, d) (R200). -/
def atomNew (op ty : Nat) (flush : Bool) (o d : Nat) : Nat :=
  match op with
  | 0 => atomAdd ty flush o d
  | 1 => o &&& d
  | 2 => o ||| d
  | 3 => o ^^^ d
  | 4 => atomPick ty false o d
  | 5 => atomPick ty true o d
  | 6 => d
  | 7 => if d ≤ o then 0 else o + 1
  | _ => if o = 0 ∨ d < o then d else o - 1

/-- Bytes of an atomic's access. -/
def atomBytes (ty : Nat) : Nat := if tyWidth ty = 64 then 8 else 4

/-- The memory word of a register form (R48): the address register, the scale. -/
def memAreg (a : BitVec 10) : Nat := (a.extractLsb' 4 4).toNat
def memScale (a : BitVec 10) : Nat := (a.extractLsb' 2 2).toNat

/-- Stores of the group to the bytes are on their way (R107, R177). -/
def State.ownPending (s : State) (core gid : Nat) (p : Place) (n : Nat) : Bool :=
  (s.core core).entries.any fun e => e.gid == gid && !e.applied && stretchesMeet e.span (p, n)

/-- The group's own buffered stores to the bytes are sent at once; none where they find no room (R199, R240). -/
def State.pushOwn (s : State) (core gid : Nat) (p : Place) (n : Nat) : Option State :=
  let sel := fun (e : Store) => e.gid == gid && stretchesMeet e.span (p, n)
  let s := s.startDrain core sel
  if (s.core core).sq.any sel || (s.core core).wc.any (fun e => sel e && !e.sent) then none else some s

/-- Registers and address of an atomic: the data register, its value, the address. -/
def atomOperands (g : Group) (t : Thread) (d : Nat × Nat) (a b : BitVec 10) :
    Except Stop (List Nat × Nat × AddrReg × DWord) :=
  match loadOperands g t d.1 d.2 b (memAreg a) (memScale a) 0 with
  | .error e => .error e
  | .ok (regs, x) => (readAll g t regs).map fun ws => (regs, wordsNat ws, x)

def atomsLane (f : RForm) (issueNo gid : Nat) (s : State) (l : Nat) (t : Thread) : LaneOut :=
  match s.group? gid with
  | none => .stop (.next false)
  | some g =>
    match atomOperands g t (typed f.ty f.d) f.a f.b with
    | .error e => e.lane
    | .ok (regs, d, a, ea) =>
      if 63 ≤ t.loads || t.full .stores then .hold
      else
        let n := atomBytes f.ty.toNat
        let s := (s.openLate gid g l .stores regs n .counted).2
        let dest : Dest := if f.mx then .none else .vec l regs
        let await := fun (x : Nat × State) =>
          LaneOut.done (if f.mx then x.2 else x.2.setThread gid l (·.awaitRegs x.1 regs)) (.next true)
        match s.checkSpad g a [1, 2] .modify ea n n with
        | .error c => .stop (.raise { cause := c, addr := ea })
        | .ok none =>
          if f.mx then .stop (.next true) else await (s.loadNow gid g [l] dest (List.replicate n 0) ea)
        | .ok (some p) =>
          if s.viaSlice g a then
            match s.pushOwn g.core gid p n with
            | none => .hold
            | some s =>
              let (id, s) := s.openPend gid g [l] dest (List.replicate n none) 1 ea
              let op : AtomOp := { op := f.c.toNat, ty := f.ty.toNat, operand := d, issue := issueNo }
              await (id, s.post g.core p.slice gid g.part (.atomic p n op [{ pend := id, before := 0 }] 0))
          else
            match s.lacking p n with
            | some on => .stop (.park on)
            | none =>
              if s.placePoisoned p n then .stop (.raise { cause := 0x11, addr := p.address })
              else
                let o := leNat (s.placeBytes p n)
                let s := ((s.readSpad p n).disown p n).placeWrite p (leBytes n (atomNew f.c.toNat f.ty.toNat false o d))
                if f.mx then .done s (.next true) else await (s.loadNow gid g [l] dest (leBytes n o) ea)

def execAtoms (f : RForm) (s : State) : Host.Outcome State Fault Refusal :=
  seqInstr { pred := f.pred, runs := [typed f.ty f.d] } (atomsLane f s.seq) s.newStore

/-- PRESENT reads no data and never parks (R201). -/
def presentLane (f : MForm) (gid : Nat) (s : State) (l : Nat) (t : Thread) : LaneOut :=
  match s.group? gid with
  | none => .stop (.next false)
  | some g =>
    match memLaneAddr g t f with
    | .error e => e.lane
    | .ok (a, ea) =>
      if 63 ≤ t.loads then .hold
      else
        let n := sizeBytes f.size
        match s.checkSpad g a [1] .read ea n 1 with
        | .error c => .stop (.raise { cause := c, addr := ea })
        | .ok none => .stop (.next false)
        | .ok (some p) =>
          let k := f.d.toNat
          let (id, s) := s.openPend gid g [l] (.pred l k) [] 1 ea
          let s := s.replyLocal g.core id none (s.lacking p n).isNone
          .done (s.setThread gid l fun t => { t.awaitPred id k with loads := t.loads + 1 }) (.next false)

def execPresent (f : MForm) (s : State) : Host.Outcome State Fault Refusal :=
  seqInstr (memShape f []) (presentLane f) s

/-! ## Barrier objects (R209 to R212) -/

/-- The words of a barrier object. -/
structure Bar where
  phase : Bool
  init : Bool
  expect : Nat
  arrived : Nat
  expArr : Nat
  doneArr : Nat
  status : Word
deriving DecidableEq, Repr

def Bar.ofBytes (bs : List Byte) : Bar :=
  let w := fun i => leNat ((bs.drop (4 * i)).take 4)
  { phase := (w 0).testBit 0, init := (w 0).testBit 1, expect := w 1, arrived := w 2
    expArr := w 3 / 65536, doneArr := w 3 % 65536, status := BitVec.ofNat 32 (w 4) }

def Bar.word0 (b : Bar) : Nat := (if b.phase then 1 else 0) + (if b.init then 2 else 0)

def Bar.bytes (b : Bar) : List Byte :=
  leBytes 4 b.word0 ++ leBytes 4 b.expect ++ leBytes 4 b.arrived
    ++ leBytes 4 (b.expArr % 65536 * 65536 + b.doneArr % 65536) ++ leBytes 4 b.status.toNat

/-- The completed phase's status byte from the accumulator in [21:17] (R210, R211). -/
def Bar.complete (st : Word) : Word :=
  let acc := st.extractLsb' 17 5
  BitVec.ofNat 32 (acc.toNat * 2 + (if acc.extractLsb' 1 4 = 0 then 1 else 0))

/-- The check after every update (R211). -/
def Bar.check (b : Bar) : Bar :=
  if b.expect < b.arrived then { b with status := b.status ||| 0x100000 }
  else if b.arrived = b.expect ∧ b.doneArr = b.expArr then
    { b with status := Bar.complete b.status, arrived := 0, doneArr := 0, phase := !b.phase }
  else b

def State.barrier (s : State) (bid idx off : Nat) : Bar := Bar.ofBytes (s.placeBytes (.spad bid idx off) 20)

/-- Wakes the threads that wait for an object's PHASE to differ from what they gave (R212). -/
def State.wakeBarrier (s : State) (bid idx off : Nat) : State :=
  let phase := (s.barrier bid idx off).phase
  { s with groups := s.groups.map fun (k, g) =>
      (k, g.wake (g.lanesWhere fun t =>
        match t.st.parkedOn with
        | some (.barrier b i o was) => b == bid && i == idx && o == off && was != phase
        | _ => false)) }

/-- Stores a barrier object's words; the reserved bytes stay. -/
def State.putBarrier (s : State) (bid idx off : Nat) (x : Bar) : State :=
  ((s.disown (.spad bid idx off) 20).placeWrite (.spad bid idx off) x.bytes).wakeBarrier bid idx off

/-- Bytes land for a barrier object, with a copy's status bits (R211). -/
def State.barrierBytes (s : State) (bid idx off n : Nat) (bits : BitVec 6) : State :=
  let b := s.barrier bid idx off
  let acc : Word := (bits.setWidth 32) >>> 1 <<< 17
  s.putBarrier bid idx off
    { b with arrived := min (b.arrived + n) (2 ^ 32 - 1), status := b.status ||| acc }.check

/-- Arrivals at a barrier object (R212): none where they pass EXPARR. -/
def State.barrierArrive (s : State) (bid idx off k : Nat) : Option State :=
  let b := s.barrier bid idx off
  if b.expArr < b.doneArr + k then none
  else some (s.putBarrier bid idx off { b with doneArr := b.doneArr + k }.check)

/-- A BO instruction for one group: its checks, then its effect on the object at a place. -/
def barrierInstr (f : MForm) (spaces : List Nat) (acc : Access) (srcs : List (Nat × Bool))
    (fn : State → Nat → Group → List Nat → AddrReg → DWord → Option Place → List Nat → UniOut) (s : State) :
    Host.Outcome State Fault Refusal :=
  uniInstr 8 f.pred false (fun s gid g lanes =>
    match memUniAddr g f, readUnis g srcs with
    | .error e, _ => uniStop s e
    | _, .error e => uniStop s e
    | .ok (a, ea), .ok xs =>
      match s.checkSpad g a spaces acc ea 32 32 with
      | .error c => .raise { cause := c, addr := ea }
      | .ok p =>
        match if a.space = 1 then p.bind (s.lacking · 32) else none with
        | some on => .done s (.park on)
        | none =>
          if a.space = 1 && p.any (s.placePoisoned · 32) then .raise { cause := 0x11, addr := ea }
          else if a.space = 1 && p.any (s.ownPending g.core gid · 32) then .hold
          else fn (match p with
            | some q => if a.space = 1 then s.readSpad q 32 else s
            | none => s) gid g lanes a ea p xs) s

def execBoinit (f : MForm) (s : State) : Host.Outcome State Fault Refusal :=
  barrierInstr f [1] .modify [(f.d.toNat, false), (f.d.toNat + 1, false)] (fun s _ _ _ _ _ p xs =>
    match p with
    | some (.spad b i o) =>
      let bar : Bar := { phase := false, init := true, expect := xs.getD 0 0, arrived := 0
                         expArr := xs.getD 1 0 % 65536, doneArr := 0, status := 0 }
      let s := s.setSpad b i fun r => { r with barriers := setAdd o r.barriers }
      .done (s.putBarrier b i o bar) (.next true)
    | _ => .done s (.next true)) s

def execBoarrive (f : MForm) (s : State) : Host.Outcome State Fault Refusal :=
  barrierInstr f [1, 2] .modify [(f.d.toNat, false)] (fun s gid g lanes a ea p xs =>
    let k := xs.getD 0 0
    if k = 0 then .done s (.next true)
    else if 65535 < k then .raise { cause := 0x0D, addr := ea }
    else
      match p with
      | some (.spad b i o) =>
        if s.viaSlice g a then
          let (id, s) := s.openPend gid g lanes .answer [] 1 ea
          .done (s.post g.core (Place.spad b i o).slice gid g.part (.arrive (.spad b i o) k id))
            (.parkNext (.answer id) true)
        else
          match s.barrierArrive b i o k with
          | some s => .done s (.next true)
          | none => .raise { cause := 0x0D, addr := ea }
      | _ => .done s (.next true)) s

def execBoexpect (f : MForm) (s : State) : Host.Outcome State Fault Refusal :=
  barrierInstr f [1] .modify [(f.d.toNat, false)] (fun s _ _ _ _ _ p xs =>
    match p with
    | some (.spad b i o) =>
      .done (s.putBarrier b i o { s.barrier b i o with expect := xs.getD 0 0 }.check) (.next true)
    | _ => .done s (.next true)) s

def execBowait (f : MForm) (s : State) : Host.Outcome State Fault Refusal :=
  barrierInstr f [1] .read [(f.d.toNat, false)] (fun s _ _ _ _ ea p xs =>
    match p with
    | some (.spad b i o) =>
      let bar := s.barrier b i o
      let was := (xs.getD 0 0).testBit 0
      if bar.expect < bar.arrived then .raise { cause := 0x0D, addr := ea }
      else if bar.phase != was then .done s (.next false)
      else .done s (.parkNext (.barrier b i o was) false)
    | _ => .done s (.next false)) s

def execBotest (f : MForm) (s : State) : Host.Outcome State Fault Refusal :=
  barrierInstr f [1] .read [] (fun s gid _ _ _ ea p _ =>
    match p with
    | some (.spad b i o) =>
      let bar := s.barrier b i o
      if bar.expect < bar.arrived then .raise { cause := 0x0D, addr := ea }
      else
        let w0 := leNat (s.placeBytes (.spad b i o) 4)
        .done (s.setGroup gid (·.putS f.d.toNat (BitVec.ofNat 32 w0))) (.next false)
    | _ => .done s (.next false)) s

end Sys2Proof.Machine
end

