-- ==== Sys2Proof/Machine/Atomics.lean ====
section
/-! DEFINITION. Atomics at the home slice (R240 to R247), row atomics (R248 to R252), and the requests that reach another
core's scratchpad (R199, R212). -/

namespace Sys2Proof.Machine

/-! ## At issue (R240, R244) -/

/-- The L1 sectors of n bytes leave the issuing core's L1. -/
def State.l1Forget (s : State) (core : Nat) (p : Place) (n : Nat) : State :=
  (pieces p n).foldl (fun s (q, _) => if q.cached then s.setCore core (·.l1Drop q.key) else s) s

/-- The operation as it stands in one request with another lane's operand added (R244). -/
def AtomOp.join (o : AtomOp) (x : Nat) : AtomOp := { o with operand := atomAdd o.ty true o.operand x }

/-- The request of an earlier lane of the same issue, of the same addition at the same effective address. -/
def Req.joins (r : Req) (core : Nat) (op : AtomOp) : Bool :=
  match r.kind with
  | .atomic (.mem _) _ o _ _ => r.core == core && o.issue == op.issue && o.padd == op.padd && o.ea == op.ea
  | _ => false

/-- The request with one more lane. -/
def Req.joined (r : Req) (x pend : Nat) : Req :=
  match r.kind with
  | .atomic q n o lanes id =>
    { r with kind := .atomic q n (o.join x) (lanes ++ [{ pend := pend, before := o.operand }]) id }
  | _ => r

/-- One lane's atomic leaves the core, or joins the request of an earlier lane of its issue, which then leaves behind this
group's own stores too; the operation's number. A joined request goes under the first lane's object id
(notes/assumptions/25). None: the group's own stores to the bytes find no room to leave first. -/
def State.sendAtomic (s : State) (gid : Nat) (g : Group) (l : Nat) (a : AddrReg) (pa n : Nat) (ea : DWord) (op : AtomOp)
    (dest : Dest) : Option (Nat × State) :=
  match s.pushOwn g.core gid (.mem pa) n with
  | none => none
  | some s =>
    let s := s.l1Forget g.core (.mem pa) n
    let bytes : List (Option Byte) := if dest = .none then [] else List.replicate n none
    let (id, s) := s.openPend gid g [l] dest bytes 1 ea
    let adds := a.space == 0 && !op.cas && op.op == 0
    let op := { op with ea := ea }
    let same := fun (r : Req) => r.joins g.core op
    if adds && s.net.any same then
      let behind := s.net.filter fun r => !same r
      some (id, { s with net := behind ++ (s.net.filter same).map (·.joined op.operand id) })
    else
      some (id, s.post g.core (homeOf pa) gid g.part
        (.atomic (.mem pa) n op [{ pend := id, before := 0 }] (if a.space = 0 then a.objid else 0)))

/-- Operations that a PCI Express AtomicOp carries to host memory (R246). -/
def AtomOp.onHost (op : AtomOp) : Bool :=
  !op.padd && (op.cas || ((op.op == 0 || op.op == 6) && op.ty < 4))

def isHost (pa : Nat) : Bool :=
  match paKind pa with
  | .host => true
  | _ => false

/-- An atomic in one lane: its checks, then its request. -/
def State.atomicLane (s : State) (gid : Nat) (g : Group) (l : Nat) (a : AddrReg) (ea : DWord) (n : Nat) (op : AtomOp)
    (dest : Dest) (regs : List Nat) : LaneOut :=
  match s.checkReg g a [0, 3] .modify ea n with
  | some c => .stop (.raise { cause := c, addr := ea })
  | none =>
    match s.checkAccess g a .modify ea n n (fun pa => isHost pa && !op.onHost) with
    | (.error c, s) => .done s (.raise { cause := c, addr := ea })
    | (.ok pa, s) =>
      match s.sendAtomic gid g l a pa n ea op dest with
      | none => .hold
      | some (id, s) =>
        .done (if dest = .none then s else s.setThread gid l (·.awaitRegs id regs)) (.next true)

def atomLane (f : RForm) (issueNo gid : Nat) (s : State) (l : Nat) (t : Thread) : LaneOut :=
  match s.group? gid with
  | none => .stop (.next false)
  | some g =>
    match atomOperands g t (typed f.ty f.d) f.a f.b with
    | .error e => e.lane
    | .ok (regs, d, a, ea) =>
      if (63 ≤ t.loads && !f.mx) || t.full .stores then .hold
      else
        (s.openLate gid g l .stores regs (atomBytes f.ty.toNat) .counted).2.atomicLane gid g l a ea (atomBytes f.ty.toNat)
          { op := f.c.toNat, ty := f.ty.toNat, operand := d, issue := issueNo }
          (if f.mx then .none else .vec l regs) regs

def execAtom (f : RForm) (s : State) : Host.Outcome State Fault Refusal :=
  seqInstr { pred := f.pred, runs := [typed f.ty f.d] } (atomLane f s.seq) s.newStore

def casLane (f : RForm) (issueNo gid : Nat) (s : State) (l : Nat) (t : Thread) : LaneOut :=
  match s.group? gid with
  | none => .stop (.next false)
  | some g =>
    match physAll g t [typed f.ty f.d, typed f.ty f.c] with
    | .error e => e.lane
    | .ok rs =>
      match atomOperands g t (typed f.ty f.d) f.a f.b, readAll g t (rs.getD 1 []) with
      | .error e, _ => e.lane
      | _, .error e => e.lane
      | .ok (regs, d, a, ea), .ok cs =>
        if 63 ≤ t.loads || t.full .stores then .hold
        else
          (s.openLate gid g l .stores (regs ++ rs.getD 1 []) (atomBytes f.ty.toNat) .counted).2.atomicLane gid g l a ea
            (atomBytes f.ty.toNat)
            { op := 6, ty := f.ty.toNat, cas := true, operand := d, comparand := wordsNat cs, issue := issueNo }
            (.vec l regs) regs

def execCas (f : RForm) (s : State) : Host.Outcome State Fault Refusal :=
  seqInstr { pred := f.pred, runs := [typed f.ty f.d, typed f.ty f.c] } (casLane f s.seq) s.newStore

def padd2Lane (f : RForm) (issueNo gid : Nat) (s : State) (l : Nat) (t : Thread) : LaneOut :=
  match s.group? gid with
  | none => .stop (.next false)
  | some g =>
    match atomOperands g t (single f.d) f.a f.b with
    | .error e => e.lane
    | .ok (regs, d, a, ea) =>
      if t.full .stores then .hold
      else
        (s.openLate gid g l .stores regs 4 .counted).2.atomicLane gid g l a ea 4 { op := 0, ty := f.ty.toNat, padd := true, operand := d, issue := issueNo } .none []

def execPadd2 (f : RForm) (s : State) : Host.Outcome State Fault Refusal :=
  seqInstr { pred := f.pred } (padd2Lane f s.seq) s.newStore

/-! ## At the home slice -/

/-- The new value of the bytes. -/
def AtomOp.apply (op : AtomOp) (flush : Bool) (o : Nat) : Nat :=
  if op.cas then (if o = op.comparand then op.operand else o) else atomNew op.op op.ty flush o op.operand

/-- One half of a packed addition (R245). -/
def AtomOp.applyHalf (op : AtomOp) (high : Bool) (o : Nat) : Nat :=
  let n := atomAdd op.ty true o op.operand
  if high then elem 16 1 n * 2 ^ 16 + elem 16 0 o else elem 16 1 o * 2 ^ 16 + elem 16 0 n

/-- What lane k receives: the old value, or the old value with the sum before it (R244). -/
def laneOld (ty : Nat) (flush : Bool) (o : Nat) (lanes : List Share2) : List (Nat × Nat) :=
  match lanes with
  | [] => []
  | x :: rest => (x.pend, o) :: rest.map fun y => (y.pend, atomAdd ty flush o y.before)

/-- Every lane of a request gets its cause. -/
def State.replyCause (s : State) (r : Req) (pends : List Nat) (cause : Nat) (addr : Nat → DWord) : State :=
  pends.foldl (fun s p => s.reply r p 0 [] (some (cause, addr p)) none) s

/-- The home judges again (R243, R235): SEALW for a request that names a SEALED object; a plain atomic on a SEALED
object's line is not applied but logged. -/
inductive Verdict where
  | apply
  | sealw
  | discard
deriving DecidableEq, Repr

def State.judge (s : State) (p : Place) (obj : Word) : Verdict :=
  match p with
  | .spad _ _ _ => .apply
  | .mem pa =>
    if obj ≠ 0 then (if (s.object? obj).any (·.state == .sealed) then .sealw else .apply)
    else if (s.sealedLine pa).isSome then .discard else .apply

/-- A slice's cut through a request that is not yet complete: it keeps its place. -/
def State.keepReq (s : State) (r : Req) (old : List Req) : State :=
  { s with net := old.map fun x => if x.id == r.id then r else x }

/-- An atomic request at its place, served whole, or one half of a packed addition. -/
def State.serveAtomic (s : State) (r : Req) (old : List Req) (p : Place) (n : Nat) (op : AtomOp) (lanes : List Share2)
    (obj : Word) (high : Bool) : State :=
  let o := leNat (s.placeBytes p n)
  let flush := match p with
    | .mem _ => true
    | .spad _ _ _ => false
  let old := (({ s with net := old } : State).learn r.core p n).net
  let s := s.learn r.core p n
  let answer := fun (s : State) =>
    (laneOld op.ty flush o lanes).foldl (fun s (pend, x) => s.reply r pend 0 (leBytes n x) none none) s
  let pends := lanes.map (·.pend)
  match s.judge p obj with
  | .sealw => s.replyCause r pends 9 s.pendEa
  | .discard =>
    answer (s.logError r.part { core := r.core, kind := 6, addr := p.address })
  | .apply =>
    if s.placePoisoned p n then s.replyCause r pends 0x11 fun _ => p.address
    else if op.padd then
      if (if high then op.highDone else op.lowDone) then s.keepReq r old
      else
        let s := s.placeWrite p (leBytes n (op.applyHalf high o))
        if op.lowDone || op.highDone then answer s
        else
          let op := { op with lowDone := !high, highDone := high }
          s.keepReq { r with kind := .atomic p n op lanes obj } old
    else answer (s.placeWrite p (leBytes n (op.apply flush o)))

/-- One half of a peer's packed addition, or its end (R245, R246): a SEALED object's line keeps its bytes. -/
def State.servePeerHalf (s : State) (r : Req) (old : List Req) (pa : Nat) (op : AtomOp) (high : Bool) : State :=
  let answer := fun (s : State) (c : Option Nat) => { s with answers := .peer (r.core - 128) [] c :: s.answers }
  if s.poisoned pa 4 then answer s (some 0x11)
  else if (if high then op.highDone else op.lowDone) then s.keepReq r old
  else
    let s := match s.sealedLine pa with
      | some o => s.logError o.part { kind := 6, addr := BitVec.ofNat 64 pa }
      | none => s.write pa (leBytes 4 (op.applyHalf high (leNat (s.bytes pa 4))))
    if op.lowDone || op.highDone then answer s none
    else s.keepReq { r with kind := .atomic (.mem pa) 4 { op with lowDone := !high, highDone := high } [] 0 } old

/-- ATOMIC_REQUEST_AT_HOME: an atomic is applied at its home slice, or at its system window; `high` says which half of a
PADD2 (R240, R243, R245, R246). -/
def execAtomicRequestAtHome (req : Nat) (high : Bool) (s : State) : Host.Outcome State Fault Refusal :=
  match s.take req with
  | some (r, t) =>
    match r.kind with
    | .atomic (.mem pa) n op lanes obj =>
      if 128 ≤ r.core then .next (t.servePeerHalf r s.net pa op high)
      else
        match if op.lowDone || op.highDone then (false, t) else t.refused pa with
        | (true, t) => .next (t.replyCause r (lanes.map (·.pend)) 7 t.pendEa)
        | (false, t) => .next (t.serveAtomic r s.net (.mem pa) n op lanes obj high)
    | _ => .next s
  | none => .next s

/-- PEER_SPAD_REQUEST: a request for scratchpad bytes of another core or block of the gang arrives there (R199, R212). A
region that is gone takes nothing and reads zero. -/
def execPeerSpadRequest (req : Nat) (s : State) : Host.Outcome State Fault Refusal :=
  match s.take req with
  | some (r, t) =>
    match r.kind with
    | .load (.spad b i o) n pend to_ _ =>
      .next ((t.readSpad (.spad b i o) n).serveLoad r (.spad b i o) n pend to_ false)
    | .store st =>
      match st.at_ with
      | .spad _ _ _ => .next (t.serveStore r.core st)
      | .mem _ => .next s
    | .atomic (.spad b i o) n op lanes obj =>
      let p : Place := .spad b i o
      .next (((t.readSpad p n).disown p n).serveAtomic r s.net p n op lanes obj false)
    | .arrive (.spad b i o) k pend =>
      let t := t.readSpad (.spad b i o) 32
      if (t.region? b i).isNone then .next (t.reply r pend 0 [] none none)
      else if t.placePoisoned (.spad b i o) 32 then .next (t.replyCause r [pend] 0x11 t.pendEa)
      else
        match t.barrierArrive b i o k with
        | some t => .next (t.reply r pend 0 [] none none)
        | none => .next (t.replyCause r [pend] 0x0D t.pendEa)
    | _ => .next s
  | none => .next s

/-! ## Row atomics (R248 to R252) -/

/-- What a lane brings to its team: its registers, its chunk, its address. -/
structure RowLane where
  lane : Nat
  regs : List Nat
  chunk : List Byte
  a : AddrReg
  ea : DWord
deriving DecidableEq, Repr

/-- Bytes of an element under the row's type. -/
def rowElem (ty : Nat) : Nat := if ty = 8 then 4 else 2

/-- A row with another added, element by element, as the slice rounds (R250). -/
def rowAdd (ty : Nat) (row add : List Byte) : List Byte :=
  let w := rowElem ty
  let fmt := match tyKind ty with
    | .flt f => f
    | _ => .fp32
  (List.range (row.length / w)).flatMap fun i =>
    let x := leNat ((row.drop (w * i)).take w)
    let y := leNat ((add.drop (w * i)).take w)
    let r := fmt.round .rne false (FV.sum false [fmt.value x, fmt.value y])
    leBytes w (if ty = 12 then flushBf16 r else r)

/-- Orders 1 to 3 of R249: the object and the team size, or the cause. -/
def State.rowObject (s : State) (g : Group) (a : AddrReg) (c : Nat) : Except Nat (ObjEntry × Nat) :=
  if a.space ≠ 0 then .error 0x16
  else
    match if a.objid = 0 then none else (s.object? a.objid).filter fun o => o.rowAtomic && o.visible g.part with
    | none => .error 0x16
    | some o =>
      let t := o.rowLen / c
      if o.rowLen % c = 0 ∧ (List.range 8).any (fun k => 2 ^ k == t) ∧ t ≤ g.width then .ok (o, t) else .error 8

/-- The leader's address names a row that lies within the object. -/
def ObjEntry.rowAt (o : ObjEntry) (ea : Nat) : Bool :=
  o.covers ea o.rowLen && o.rowStride != 0 && (ea - o.base.toNat) % o.rowStride == 0

/-- Orders 2 to 6 of R221 over a row, each order over the whole row: its physical segments, one for each page. -/
def State.rowSegs (s : State) (g : Group) (a : AddrReg) (acc : Access) (ea n : Nat) :
    Except Nat (List (Nat × Nat)) × State :=
  let head := min n (65536 - ea % 65536)
  let finish := fun (segs : List (Nat × Nat)) (s : State) =>
    ((if s.checkSealed a acc then .error 9 else .ok segs : Except Nat (List (Nat × Nat))), s)
  match s.checkPage g a acc (BitVec.ofNat 64 ea) head with
  | (.error c, s) => (.error c, s)
  | (.ok pa, s) =>
    if head = n then finish [(pa, n)] s
    else
      match s.checkPage g a acc (BitVec.ofNat 64 (ea + head)) (n - head) with
      | (.error c, s) => (.error c, s)
      | (.ok pb, s) => finish [(pa, head), (pb, n - head)] s

/-- The group's own stores to the row leave first. -/
def State.pushSegs (s : State) (core gid : Nat) : List (Nat × Nat) → Option State
  | [] => some s
  | (pa, n) :: rest =>
    match s.pushOwn core gid (.mem pa) n with
    | none => none
    | some s => s.pushSegs core gid rest

/-- The row that a team carries: the chunks of its lanes, zeros for the others. -/
def teamRow (size c first : Nat) (team : List RowLane) : List Byte :=
  (List.range size).flatMap fun j =>
    match team.find? fun x => x.lane == first + j with
    | some x => x.chunk
    | none => List.replicate c 0

/-- ROWADD's request: joined with an earlier team of the same issue and row (R250). -/
def State.sendRow (s : State) (gid : Nat) (g : Group) (segs : List (Nat × Nat)) (ty : Nat) (row : List Byte) (pend : Nat)
    (obj : Word) (issueNo : Nat) : State :=
  let same := fun (r : Req) => match r.kind with
    | .row sg (some _) _ _ id n => r.core == g.core && sg == segs && id == obj && n == issueNo
    | _ => false
  let joined := fun (r : Req) => match r.kind with
    | .row sg t add lanes id n => { r with kind := .row sg t (rowAdd ty add row) (lanes ++ [(pend, 0, 0)]) id n }
    | _ => r
  if s.net.any same then
    { s with net := s.net.filter (fun r => !same r) ++ (s.net.filter same).map joined }
  else
    s.post g.core (homeOf ((segs.head?.map (·.1)).getD 0)) gid g.part (.row segs (some ty) row [(pend, 0, 0)] obj issueNo)

/-- One team's row operation; none: held. -/
def State.rowTeam (s : State) (gid : Nat) (g : Group) (ty : Option Nat) (c size issueNo : Nat) (o : ObjEntry)
    (team : List RowLane) : Option (State × List (Nat × Dispo)) :=
  match team with
  | [] => some (s, [])
  | leader :: _ =>
    let acc : Access := if ty.isSome then .modify else .read
    let all := fun (s : State) (d : Dispo) => some (s, team.map fun x => (x.lane, d))
    let ea := leader.ea
    match s.checkReg g leader.a [0] acc ea o.rowLen with
    | some k => all s (.raise { cause := k, addr := ea })
    | none =>
      if !o.rowAt ea.toNat then all s (.raise { cause := 8, addr := ea })
      else
        match s.rowSegs g leader.a acc ea.toNat o.rowLen with
        | (.error k, s) => all s (.raise { cause := k, addr := ea })
        | (.ok segs, s) =>
          match s.pushSegs g.core gid segs with
          | none => none
          | some s =>
            let first := leader.lane / size * size
            match ty with
            | some ty =>
              let s := segs.foldl (fun s (pa, n) => s.l1Forget g.core (.mem pa) n) s
              let s := team.foldl (fun s x => (s.openLate gid g x.lane .stores x.regs c .counted).2) s
              let (id, s) := s.openPend gid g (team.map (·.lane)) .none [] 1 ea
              all (s.sendRow gid g segs ty (teamRow size c first team) id leader.a.objid issueNo) (.next true)
            | none =>
              let (lanes, s) := team.foldl (fun (acc : List (Nat × Nat × Nat) × State) x =>
                let (id, s) := acc.2.openPend gid g [x.lane] (.vec x.lane x.regs) (List.replicate c none) 1 ea
                (acc.1 ++ [(id, (x.lane - first) * c, c)], s.setThread gid x.lane (·.awaitRegs id x.regs))) ([], s)
              all (s.post g.core (homeOf ((segs.head?.map (·.1)).getD 0)) gid g.part
                (.row segs none [] lanes leader.a.objid issueNo)) (.next false)

/-- Teams in ascending order. -/
def State.rowTeams (s : State) (gid : Nat) (g : Group) (ty : Option Nat) (c size issueNo : Nat) (o : ObjEntry) :
    List (Nat × List RowLane) → Option (State × List (Nat × Dispo))
  | [] => some (s, [])
  | (_, team) :: rest =>
    match s.rowTeam gid g ty c size issueNo o team with
    | none => none
    | some (s, ds) => (s.rowTeams gid g ty c size issueNo o rest).map fun (s, more) => (s, ds ++ more)

/-- A lane's part in a row operation. -/
def rowLane (g : Group) (l : Nat) (t : Thread) (d n c : Nat) (store : Bool) (idx : BitVec 10) (areg scale : Nat) :
    Except Stop RowLane :=
  match loadOperands g t d n idx areg scale 0 with
  | .error e => .error e
  | .ok (regs, a, ea) =>
    if store then if t.full .stores then .error .hold else (readAll g t regs).map fun ws => { lane := l, regs := regs, chunk := wordsBytes c ws, a := a, ea := ea }
    else if 63 ≤ t.loads then .error .hold
    else .ok { lane := l, regs := regs, chunk := [], a := a, ea := ea }

/-- Lanes grouped by team. -/
def rowGroups (size : Nat) (xs : List RowLane) : List (Nat × List RowLane) :=
  (List.range 128).filterMap fun k =>
    match xs.filter fun x => x.lane / size == k with
    | [] => none
    | team => some (k, team)

/-- A row operation for one fragment. None: held at issue. -/
def rowFragment (sh : Shape) (ty : Option Nat) (c issueNo : Nat) (part : Group → Nat → Thread → Except Stop RowLane)
    (s : State) (gid fid : Nat) : Option State :=
  match s.group? gid with
  | none => some s
  | some g =>
    match laneGuard g sh.unpred sh.pred sh.runs sh.forbidden with
    | some k => some (s.raiseAll gid fid sh.len { cause := k })
    | none =>
      let all := g.fragLanes fid
      let (vs, s) := views g s all
      if vs.any fun (_, t) => predHeld g sh.unpred sh.pred t then none
      else
        let act := vs.filter fun (_, t) => laneActive g sh.unpred sh.pred t
        let outs := act.map fun (l, t) => (l, part g l t)
        let held := outs.any fun o => match o.2 with
          | .error .hold => true
          | _ => false
        if held then none
        else
          let early : List (Nat × Dispo) := outs.filterMap fun (l, o) => match o with
            | .error (.park p) => some (l, .park p)
            | .error (.raise r) => some (l, .raise r)
            | _ => none
          let xs := outs.filterMap fun (_, o) => match o with
            | .ok x => some x
            | .error _ => none
          let done : Option (State × List (Nat × Dispo)) :=
            match xs with
            | [] => some (s, [])
            | x :: _ =>
              match s.rowObject g x.a c with
              | .error k => some (s, xs.map fun y => (y.lane, .raise { cause := k, addr := y.ea }))
              | .ok (o, size) => s.rowTeams gid g ty c size issueNo o (rowGroups size xs)
          match done with
          | none => none
          | some (s, ds) =>
            let s := s.setGroup gid fun g => all.foldl (fun g l => g.setThread l fun t => t.age (max 1 sh.stall)) g
            some (s.retire gid fid sh.len (all.map fun l => ((early ++ ds).find? (·.1 == l)).getD (l, .next false)))

def execRowadd (f : RForm) (s : State) : Host.Outcome State Fault Refusal :=
  let c := 2 ^ f.c.toNat
  let n := sizeRun f.c.toNat
  issue (rowFragment { pred := f.pred, runs := [(f.d.toNat, n)] } (some f.ty.toNat) c s.seq
    (fun g l t => rowLane g l t f.d.toNat n c true f.b (memAreg f.a) (memScale f.a))) s.newStore

def execRowld (f : MForm) (s : State) : Host.Outcome State Fault Refusal :=
  let c := sizeBytes f.size
  let n := sizeRun f.size.toNat
  issue (rowFragment (memShape f [(f.d.toNat, n)]) none c s.seq
    (fun g l t => rowLane g l t f.d.toNat n c false f.idx f.areg.toNat f.scale.toNat)) s.newStore

/-- The bytes of a row in its segments. -/
def State.rowBytes (s : State) (segs : List (Nat × Nat)) : List Byte := segs.flatMap fun (pa, n) => s.bytes pa n

def State.rowWrite (s : State) : List (Nat × Nat) → List Byte → State
  | [], _ => s
  | (pa, n) :: rest, bs => State.rowWrite (s.write pa (bs.take n)) rest (bs.drop n)

/-- The address of the first poisoned sector of a row. -/
def State.rowPoison (s : State) (segs : List (Nat × Nat)) : Option DWord :=
  (segs.findSome? fun (pa, n) => s.poison.find? fun k => pa < 32 * (k + 1) && 32 * k < pa + n).map fun k =>
    BitVec.ofNat 64 (32 * k)

/-- The lines of a row. -/
def rowLines (segs : List (Nat × Nat)) : List Nat :=
  segs.flatMap fun (pa, n) => (List.range ((pa + n + 127) / 128 - pa / 128)).map (pa / 128 + ·)

/-- A row operation takes its lines at other slices as an engine takes a destination: each slice's directory has room for
them (R206, R252, R260). -/
def State.rowRoom (s : State) (home : Nat) (segs : List (Nat × Nat)) : Bool :=
  let slices := (rowLines segs).map fun l => homeOf (128 * l)
  slices.all fun k => k == home || s.directory k + (slices.filter (· == k)).length ≤ 1024

/-- ROW_REQUEST_AT_HOME: a row is added to or read in one step at its home, every line of it held (R250 to R252). -/
def execRowRequestAtHome (req : Nat) (s : State) : Host.Outcome State Fault Refusal :=
  match s.take req with
  | some (r, t) =>
    match r.kind with
    | .row segs ty add lanes obj _ =>
      let pends := lanes.map (·.1)
      if !t.rowRoom r.slice segs then .next s
      else if ty.isSome && (t.object? obj).any (·.state == .sealed) then .next (t.replyCause r pends 9 t.pendEa)
      else
        match t.rowPoison segs with
        | some a => .next (t.replyCause r pends 0x11 fun _ => a)
        | none =>
          let row := t.rowBytes segs
          let t := segs.foldl (fun t (pa, n) => t.learn r.core (.mem pa) n) t
          let t := match ty with
            | some ty => t.rowWrite segs (rowAdd ty row add)
            | none => t
          .next (lanes.foldl (fun t (pend, off, n) => t.reply r pend 0 ((row.drop off).take n) none none) t)
    | _ => .next s
  | none => .next s

end Sys2Proof.Machine
end

