-- ==== Sys2Proof/Machine/Queues.lean ====
section
/-! DEFINITION. Slice queues (R253 to R257) and the stale-read sampler's register (R259). -/

namespace Sys2Proof.Machine

/-! ## At issue (R255) -/

/-- A lane of a queue instruction: it joins the request of its issue (R255). -/
def State.postQueue (s : State) (issueNo gid : Nat) (g : Group) (op n : Nat) (w : Waiter) : State :=
  let same := fun (r : Req) => r.gid == gid && issueNo ≤ r.id && (match r.kind with
    | .queue _ _ _ => true
    | _ => false)
  if s.net.any same then
    { s with net := s.net.map fun r =>
        if same r then
          match r.kind with
          | .queue o k ws => { r with kind := .queue o k (ws ++ [w]) }
          | _ => r
        else r }
  else s.post g.core (n / 64) gid g.part (.queue op n [w])

/-- The shape of a queue instruction. -/
def queueShape (f : I16Form) : Shape := { pred := f.pred }

/-- The register of a lane's ENQ (0), DEQ (1) or QTRY (2), and what ENQ appends. -/
def queueOperand (op : Nat) (f : I16Form) (g : Group) (t : Thread) : Except Stop (Nat × Word) :=
  match physReg g t (if op = 0 then f.a.toNat else f.d.toNat) with
  | .error e => .error e
  | .ok r =>
    if op = 0 then (if t.full .stores then .error .hold else (readReg g t r).map fun x => (r, x))
    else if 63 ≤ t.loads then .error .hold
    else .ok (r, 0)

/-- A lane's part of an ENQ's request leaves: its operation's number. -/
def State.giveQueue (s : State) (n issueNo gid : Nat) (g : Group) (l r : Nat) (x : Word) : Nat × State :=
  let (id, s) := (s.openLate gid g l .stores [r] 4 .counted).2.openPend gid g [l] .none [] 1 0
  (id, s.postQueue issueNo gid g 0 n { gid := gid, lane := l, pend := id, value := x })

/-- A lane's part of a DEQ's or QTRY's request leaves: the destination and the result predicate wait for the answer. -/
def State.takeQueue (s : State) (op n k issueNo gid : Nat) (g : Group) (l r : Nat) : Nat × State :=
  let (id, s) := s.openPend gid g [l] (.entry l r k) (List.replicate 4 none) 1 0
  let s := s.setThread gid l fun t => (t.awaitRegs id [r]).awaitPred id k
  (id, s.postQueue issueNo gid g op n { gid := gid, lane := l, pend := id })

def State.setAsk (s : State) (gid l : Nat) (x : Option (Nat × QStage)) : State :=
  s.setThread gid l fun t => { t with asked := x }

/-- A lane of an ENQ or DEQ that has no part in a request yet takes one. -/
def State.askQueue (s : State) (op : Nat) (f : I16Form) (issueNo gid : Nat) (g : Group) (x : Nat × Thread) : State :=
  let (l, t) := x
  let asks := match t.asked with
    | none => true
    | some (_, st) => st == .again
  if !asks then s
  else if t.asked.isNone && !laneActive g false f.pred t then s.setAsk gid l (some (0, .skip))
  else
    match queueOperand op f g t with
    | .error _ => s.setAsk gid l (some (0, .again))
    | .ok (r, v) =>
      let (id, s) := if op = 0 then s.giveQueue f.imm.toNat issueNo gid g l r v
        else s.takeQueue op f.imm.toNat (f.mod4.toNat % 8) issueNo gid g l r
      s.setAsk gid l (some (id, .sent))

def Thread.askStage (t : Thread) : Option QStage := t.asked.map (·.2)

/-- An operand holds the bundle back. -/
def queueHeld (op : Nat) (f : I16Form) (g : Group) (t : Thread) : Bool :=
  match queueOperand op f g t with
  | .error .hold => true
  | _ => false

/-- ENQ and DEQ wait at issue until the slice has found what each lane meets, so that a lane that must wait parks at the
instruction (R7, R255). -/
def queueWaits (op : Nat) (f : I16Form) : Waits := fun s gid fid =>
  match s.group? gid with
  | none => (true, s)
  | some g =>
    let all := g.fragLanes fid
    let stages := all.map fun l => (g.thread? l).bind (·.askStage)
    if (laneGuard g false f.pred [] false).isSome || stages.all fun x => x.isSome && x != some .again && x != some .sent then
      (true, s)
    else if stages.contains (some .sent) then (false, s)
    else
      let (vs, t) := views g s all
      let mine := vs.filter fun (_, v) => v.asked.isSome || laneActive g false f.pred v
      if vs.any (fun (_, v) => v.asked.isNone && predHeld g false f.pred v) || mine.any (fun (_, v) => queueHeld op f g v) then
        (true, s)
      else
        let t := vs.foldl (fun s x => s.askQueue op f t.seq gid g x) t.newStore
        (all.all fun l => ((t.thread? gid l).bind (·.askStage)) != some .sent, t)

/-- A lane of an ENQ or DEQ once the slice has answered: it goes on, or it parks where it stands. -/
def queueLane (op : Nat) (f : I16Form) (gid : Nat) (s : State) (l : Nat) (t : Thread) : LaneOut :=
  match t.asked with
  | some (_, .skip) => .done (s.setAsk gid l none) (.next false)
  | some (_, .served) => .done (s.setAsk gid l none) (.next true)
  | some (id, .waits) => .stop (.park (if op = 0 then .space f.imm.toNat id else .entry f.imm.toNat id))
  | some (_, .again) =>
    match (s.group? gid).map fun g => queueOperand op f g t with
    | some (.error (.park p)) => .done (s.setAsk gid l none) (.park p)
    | some (.error (.raise r)) => .done (s.setAsk gid l none) (.raise r)
    | _ => .hold
  | _ => .hold

/-- ENQ (0) and DEQ (1). -/
def queueInstr (op : Nat) (f : I16Form) (s : State) : Host.Outcome State Fault Refusal :=
  issueAfter (queueWaits op f) (fun s gid fid =>
    match s.group? gid with
    | none => some s
    | some g =>
      match laneGuard g false f.pred [] false with
      | some c => some (s.raiseAll gid fid 8 { cause := c })
      | none =>
        if (g.fragLanes fid).all fun l => (g.thread? l).any (·.asked.isSome) then
          seqFragment { unpred := true } (queueLane op f) s gid fid
        else none) s

def execEnq (f : I16Form) (s : State) : Host.Outcome State Fault Refusal := queueInstr 0 f s
def execDeq (f : I16Form) (s : State) : Host.Outcome State Fault Refusal := queueInstr 1 f s

/-- QTRY never waits at the slice: its lanes go on at once. -/
def qtryLane (f : I16Form) (issueNo gid : Nat) (s : State) (l : Nat) (t : Thread) : LaneOut :=
  match s.group? gid with
  | none => .stop (.next false)
  | some g =>
    match queueOperand 2 f g t with
    | .error e => e.lane
    | .ok (r, _) => .done (s.takeQueue 2 f.imm.toNat (f.mod4.toNat % 8) issueNo gid g l r).2 (.next true)

def execQtry (f : I16Form) (s : State) : Host.Outcome State Fault Refusal :=
  seqInstr (queueShape f) (qtryLane f s.seq) s.newStore

def qlenLane (f : I16Form) (issueNo gid : Nat) (s : State) (l : Nat) (t : Thread) : LaneOut :=
  match s.group? gid with
  | none => .stop (.next false)
  | some g =>
    match physReg g t f.d.toNat with
    | .error e => e.lane
    | .ok r =>
      if 63 ≤ t.loads then .hold
      else
        let (id, s) := s.openPend gid g [l] (.vec l [r]) (List.replicate 4 none) 1 0
        let s := s.setThread gid l (·.awaitRegs id [r])
        .done (s.postQueue issueNo gid g 3 f.imm.toNat { gid := gid, lane := l, pend := id }) (.next false)

def execQlen (f : I16Form) (s : State) : Host.Outcome State Fault Refusal :=
  seqInstr (queueShape f) (qlenLane f s.seq) s.newStore

/-- A queue that a partition may not use (R254). -/
def SQueue.barred (q : SQueue) (part : Nat) : Bool := q.state == 0 || q.part != part

/-- The group's earlier requests to a queue are still on their way: a registration behind them waits (R29). -/
def State.queueBusy (s : State) (gid n : Nat) : Bool :=
  s.net.any fun r => r.gid == gid && (match r.kind with
    | .queue _ k _ => k == n
    | _ => false)

/-- QOPEN: a registration once per thread and queue; the group's table has sixteen entries (R256). -/
def qopenLane (f : I16Form) (gid : Nat) (s : State) (l : Nat) (t : Thread) : LaneOut :=
  match s.group? gid with
  | none => .stop (.next false)
  | some g =>
    let n := f.imm.toNat
    if s.queueBusy gid n then .hold
    else if (s.squeue n).barred g.part then .stop (.raise { cause := 7 })
    else if t.producer.contains n then .stop (.next true)
    else if !g.producers.contains n && 16 ≤ g.producers.length then .stop (.park (.producer n))
    else
      let s := s.setGroup gid fun g =>
        { g with producers := setAdd n g.producers }.setThread l fun t => { t with producer := setAdd n t.producer }
      .done (s.setSQueue n fun q => { q with prod := q.prod + 1, armed := true, state := 1 }) (.next true)

def execQopen (f : I16Form) (s : State) : Host.Outcome State Fault Refusal := seqInstr (queueShape f) (qopenLane f) s

def qdoneLane (f : I16Form) (gid : Nat) (s : State) (l : Nat) (_ : Thread) : LaneOut :=
  match s.group? gid with
  | none => .stop (.next false)
  | some g =>
    let n := f.imm.toNat
    if s.queueBusy gid n then .hold
    else if (s.squeue n).barred g.part then .stop (.raise { cause := 7 })
    else .done (s.retireProducer gid l n) (.next true)

def execQdone (f : I16Form) (s : State) : Host.Outcome State Fault Refusal := seqInstr (queueShape f) (qdoneLane f) s

/-! ## At the slice (R255) -/

/-- The answer of queue n's slice to a lane; one that is no cause completes an ENQ or DEQ. -/
def State.answerLane (s : State) (n : Nat) (w : Waiter) (bytes : List Byte) (cause : Option (Nat × DWord)) (got : Bool) :
    State :=
  match s.group? w.gid with
  | none => s
  | some g =>
    let r : Req := { id := 0, core := g.core, slice := n / 64, gid := w.gid, part := g.part, kind := .queue 0 n [] }
    let s := if cause.isSome then s
      else s.setThread w.gid w.lane fun t => { t with asked := t.asked.map (askAt w.pend .served) }
    s.reply r w.pend 0 bytes cause none got

/-- Where entry i of a queue stands. -/
def SQueue.entry (q : SQueue) (i : Word) : Nat := q.base.toNat + 4 * (i.toNat % 2 ^ q.logcap)

def SQueue.count (q : SQueue) : Nat := (q.tail - q.head).toNat
def SQueue.full (q : SQueue) : Bool := 2 ^ q.logcap ≤ q.count

/-- Writes an entry; none where the ring cannot be written. -/
def State.putEntry (s : State) (n : Nat) (x : Word) : Option State :=
  let q := s.squeue n
  match s.deviceWrite q.part (q.entry q.tail) (leBytes 4 x.toNat) with
  | .error _ => none
  | .ok s => some (s.setSQueue n fun q => { q with tail := q.tail + 1 })

/-- Takes the oldest entry: its bytes, or the cause of a ring that cannot be read or of an uncorrectable entry, which is
consumed. -/
def State.getEntry (s : State) (n : Nat) : Except Nat (List Byte) × State :=
  let q := s.squeue n
  match s.deviceRead q.part (q.entry q.head) 4 with
  | .error _ => (.error 7, s)
  | .ok bs =>
    let bad := match s.deviceAccess q.part (q.entry q.head) false with
      | .ok pa => s.poisoned pa 4
      | .error _ => false
    let s := s.setSQueue n fun q => { q with head := q.head + 1 }
    (if bad then .error 0x11 else .ok bs, s)

/-- ADDR of a queue cause: the entry's physical address under POISON. -/
def State.entryAddr (s : State) (n cause : Nat) : DWord :=
  let q := s.squeue n
  if cause = 0x11 then
    match s.deviceAccess q.part (q.entry q.head) false with
    | .ok pa => BitVec.ofNat 64 pa
    | .error _ => 0
  else 0

/-- The oldest entry goes to a lane. -/
def State.giveEntry (s : State) (n : Nat) (w : Waiter) : State :=
  let addr := s.entryAddr n 0x11
  match s.getEntry n with
  | (.ok bs, s) => s.answerLane n w bs none true
  | (.error 0x11, s) => s.answerLane n w [] (some (0x11, addr)) false
  | (.error c, s) => s.answerLane n w [] (some (c, 0)) false

/-- An appended entry goes to the oldest waiting taker, if there is one. -/
def State.serveTakers (s : State) (n : Nat) : State :=
  let q := s.squeue n
  match q.takers with
  | [] => s
  | w :: rest => if q.count = 0 then s else (s.setSQueue n fun q => { q with takers := rest }).giveEntry n w

/-- Appends a lane's entry, or answers PROT. -/
def State.append (s : State) (n : Nat) (w : Waiter) : State :=
  match s.putEntry n w.value with
  | none => s.answerLane n w [] (some (7, 0)) true
  | some s => (s.answerLane n w [] none true).serveTakers n

/-- A closed queue discards a lane's entry. -/
def State.discard (s : State) (n : Nat) (w : Waiter) : State :=
  (s.setSQueue n fun q => { q with dropped := saturate32 (q.dropped + 1) }).answerLane n w [] none true

/-- Space frees: the oldest parked producer's entry is appended; parked producers of a queue that has closed since complete
as if they issued now (R7). -/
def State.serveGivers (s : State) (n : Nat) : State :=
  let q := s.squeue n
  match q.givers with
  | [] => s
  | w :: rest =>
    if q.full then s
    else if q.state = 2 then q.givers.foldl (fun s w => s.discard n w) (s.setSQueue n fun q => { q with givers := [] })
    else (s.setSQueue n fun q => { q with givers := rest }).append n w

/-- Space frees: the completions that a port holds back for its completion queue are appended first (R336). -/
def State.flushHeld (s : State) (n : Nat) : State :=
  match s.ports.find? fun (_, p) => p.cq == n && !p.held.isEmpty with
  | none => s
  | some (k, p) =>
    if (s.squeue n).full then s
    else
      match p.held with
      | [] => s
      | w :: rest =>
        match s.putEntry n w with
        | none => s
        | some t => (t.setPort k fun p => { p with held := rest }).serveTakers n

/-- The slice makes a lane wait. -/
def State.waitLane (s : State) (w : Waiter) : State :=
  s.setThread w.gid w.lane fun t => { t with asked := t.asked.map (askAt w.pend .waits) }

/-- One lane of a request. -/
def State.serveLane (s : State) (op n : Nat) (w : Waiter) : State :=
  let q := s.squeue n
  match op with
  | 0 =>
    if q.state = 2 then s.discard n w
    else if q.full || !q.givers.isEmpty then
      (s.setSQueue n fun q => { q with givers := q.givers ++ [w] }).waitLane w
    else s.append n w
  | 3 => s.answerLane n w (leBytes 4 q.count) none true
  | _ =>
    if q.count ≠ 0 then ((s.giveEntry n w).flushHeld n).serveGivers n
    else if q.state = 2 ∨ op = 2 then s.answerLane n w [] none false
    else (s.setSQueue n fun q => { q with takers := q.takers ++ [w] }).waitLane w

/-- An engine holds a line of the ring that the request may touch: the slice's strong accesses wait (R206). -/
def State.ringBlocked (s : State) (n k : Nat) : Bool :=
  let q := s.squeue n
  (List.range k).any fun i => [q.head, q.tail].any fun x =>
    match s.deviceAccess q.part (q.entry (x + BitVec.ofNat 32 i)) false with
    | .ok pa => s.placeBlocked (.mem pa) 4
    | .error _ => false

/-- QUEUE_REQUEST_AT_SLICE: the lanes of one queue instruction are served in ascending order (R254, R255). Lanes that
have exited meanwhile take and give nothing. -/
def execQueueRequestAtSlice (req : Nat) (s : State) : Host.Outcome State Fault Refusal :=
  match s.take req with
  | some (r, t) =>
    match r.kind with
    | .queue op n ws =>
      let live := ws.filter fun w => ((mapFind w.pend t.pends).any fun p => !p.lanes.isEmpty)
      if (t.squeue n).barred r.part then
        .next (live.foldl (fun t w => t.answerLane n w [] (some (7, 0)) false) t)
      else if t.ringBlocked n (ws.length + 1) then .next s
      else
        .next (live.foldl (fun t w => t.serveLane op n w) t)
    | _ => .next s
  | none => .next s

/-! ## The sampler's counters (R259) -/

def execSrstat (f : RForm) (s : State) : Host.Outcome State Fault Refusal :=
  uniInstr 8 f.pred false (fun s gid g _ =>
    match readS g f.a.toNat with
    | .error e => uniStop s e
    | .ok x =>
      let i := x.toNat % 64
      let p := s.part g.part
      let s := s.setGroup gid fun g =>
        (g.putS f.d.toNat (BitVec.ofNat 32 (mapGet 0 p.stale i))).putS (f.d.toNat + 1) (BitVec.ofNat 32 p.samples)
      if f.c = 1 then
        .done (s.setPart g.part fun p => { p with stale := mapErase i p.stale, samples := 0 }) (.next true)
      else .done s (.next false)) s

end Sys2Proof.Machine
end

