-- ==== Sys2Proof/Machine/Flow.lean ====
section
/-! DEFINITION. Control flow (R110 to R126): branches, rejoin masks, calls and callee queues, melding; filing into bins
(R97, R98); and leaving (R102). -/

namespace Sys2Proof.Machine

/-- Bytes of one unit of a branch offset (R38, R51). -/
def offsetUnit : Enc → DWord
  | .d => 4
  | .l => 8

/-- A transfer target is aligned for the encoding (R31). -/
def alignedFor (e : Enc) (pc : DWord) : Bool := pc.toNat % (offsetUnit e).toNat == 0

def branchTo (e : Enc) (pc : DWord) (off : DWord) : DWord := pc + offsetUnit e * off

/-! ## Branches (R112) -/

def brxLane (f : I16Form) (gid : Nat) (s : State) (_ : Nat) (t : Thread) : LaneOut :=
  match s.group? gid with
  | none => .stop (.next false)
  | some g => .stop (.jump (branchTo g.enc t.pc (f.imm.signExtend 64)) false)

def execBrx (f : I16Form) (s : State) : Host.Outcome State Fault Refusal :=
  seqInstr { pred := f.pred, forbidden := true } (brxLane f) s

def Group.pcOf (g : Group) (lanes : List Nat) : DWord := ((lanes.head?.bind g.thread?).map (·.pc)).getD 0

def execBra (f : I24Form) (s : State) : Host.Outcome State Fault Refusal :=
  uniInstr 8 (f.d.setWidth 4) true (fun s _ g lanes =>
    .done s (.jump (branchTo g.enc (g.pcOf lanes) (f.imm.signExtend 64)) false)) s

def execJmpi (f : RForm) (s : State) : Host.Outcome State Fault Refusal :=
  uniInstr 8 f.pred true (fun s _ g _ =>
    match readSWide g true f.a.toNat with
    | .error e => uniStop s e
    | .ok x =>
      let pc := BitVec.ofNat 64 x
      if alignedFor g.enc pc then .done s (.jump pc false) else .raise { cause := 8, addr := pc }) s

/-! ## Rejoin masks (R114) -/

def joinLane (k : Nat) (gid : Nat) (s : State) (l : Nat) (_ : Thread) : LaneOut :=
  let arm := fun (g : Group) =>
    let m := mapGet {} g.j k
    { g with j := mapPut {} k { m with members := m.members ||| maskOf [l] } g.j }
  .done (s.setGroup gid arm) (.next false)

def execJoin (f : RForm) (s : State) : Host.Outcome State Fault Refusal :=
  seqInstr { pred := f.pred, forbidden := true, stall := f.stall.toNat } (joinLane f.d.toNat) s

def waitjLane (k : Nat) (gid : Nat) (s : State) (l : Nat) (_ : Thread) : LaneOut :=
  match s.group? gid with
  | none => .stop (.next true)
  | some g =>
    let m := mapGet {} g.j k
    if m.members = 0 then .stop (.next true)
    else
      let arrive := fun (g : Group) => { g with j := mapPut {} k { m with arrived := m.arrived ||| maskOf [l] } g.j }
      .done (s.setGroup gid arrive) (.parkNext (.join k) true)

/-- The mask is checked once its lanes are parked. -/
def execWaitj (f : RForm) (s : State) : Host.Outcome State Fault Refusal :=
  issue (fun s gid fid =>
    (seqFragment { pred := f.pred, forbidden := true, stall := f.stall.toNat } (waitjLane f.d.toNat) s gid fid).map
      fun s => s.setGroup gid (·.checkJoin f.d.toNat)) s

/-! ## Calls (R117, R119) -/

def execCall (f : I24Form) (s : State) : Host.Outcome State Fault Refusal :=
  uniInstr 8 7 true (fun s gid g lanes =>
    if lanes.any fun l => (g.thread? l).any fun t => 32 ≤ t.rstk.length then .raise { cause := 0x0A }
    else
      let push := fun (g : Group) => lanes.foldl (fun g l =>
        g.setThread l fun t => { t with rstk := (t.pc + 8) :: t.rstk }) g
      .done (s.setGroup gid push) (.jump (branchTo g.enc (g.pcOf lanes) (f.imm.signExtend 64)) true)) s

def retLane (gid : Nat) (s : State) (l : Nat) (t : Thread) : LaneOut :=
  match t.rstk with
  | [] => .stop (.raise { cause := 0x0B })
  | pc :: rest => .done (s.setThread gid l fun t => { t with rstk := rest }) (.jump pc true)

def execRet (f : RForm) (s : State) : Host.Outcome State Fault Refusal :=
  seqInstr { pred := f.pred, forbidden := true, stall := f.stall.toNat } retLane s

def callqLane (f : RForm) (gid : Nat) (s : State) (l : Nat) (t : Thread) : LaneOut :=
  match s.group? gid with
  | none => .stop (.next false)
  | some g =>
    match readWide g t true f.a.toNat with
    | .error e => e.lane
    | .ok x =>
      let pc := BitVec.ofNat 64 x
      if !alignedFor g.enc pc then .stop (.raise { cause := 8, addr := pc })
      else if 32 ≤ t.rstk.length then .stop (.raise { cause := 0x0A })
      else .done (s.setThread gid l fun t => { t with rstk := (t.pc + 8) :: t.rstk }) (.jump pc true)

/-- Files lanes into the callee queue of (block, target), whole or not at all (R119). -/
def Core.fileCallee (c : Core) (bid : Nat) (target : DWord) (xs : List Entry) : Option Core :=
  match c.callees.find? fun q => q.bid == bid && q.target == target with
  | some q =>
    if q.entries.length + xs.length ≤ 256 then
      let add := fun (x : Callee) =>
        if x.bid == bid && x.target == target then { x with entries := x.entries ++ xs } else x
      some { c with callees := c.callees.map add }
    else none
  | none =>
    if c.callees.length < 16 then some { c with callees := c.callees ++ [{ bid := bid, target := target, entries := xs }] }
    else none

/-- The lanes that pushed, target by target: they file, or call directly. -/
def callqTogether : Together := fun gid s ds =>
  match s.group? gid with
  | none => (s, ds)
  | some g =>
    let pushed := ds.filterMap fun (l, d) => match d with
      | .jump pc _ => some (l, pc)
      | _ => none
    let target := fun l => ((pushed.find? (·.1 == l)).map (·.2)).getD 0
    (classes target (pushed.map (·.1))).foldl (fun (s, ds) (pc, ls) =>
      match (s.core g.core).fileCallee g.bid pc (ls.map fun l => { who := (gid, l), since := s.seq }) with
      | none => (s, ds)
      | some c =>
        ((s.setCore g.core fun _ => c).tick true,
          ds.map fun (l, d) => if ls.contains l then (l, .callee (.callee g.core pc.toNat) pc) else (l, d))) (s, ds)

def execCallq (f : RForm) (s : State) : Host.Outcome State Fault Refusal :=
  issue (seqFragmentWith
    { pred := f.pred, runs := [(f.a.toNat, 2)], forbidden := true, stall := f.stall.toNat }
    (callqLane f) callqTogether) s

/-! ## Melding (R123, R124) -/

/-- Entries of a rename table from its 128 bytes. -/
def meldTable (bs : List Byte) : List (BitVec 10) :=
  (List.range 64).map fun e => BitVec.ofNat 10 (leNat ((bs.drop (2 * e)).take 2))

/-- A read that completes at issue: the bytes as a load of the order would find them, or the cause. None: the bytes are
held by an engine. -/
def State.readNow (s : State) (gid : Nat) (g : Group) (o : Order) (p : Place) (n : Nat) :
    Option (Except (Nat × DWord) (List Byte) × State) :=
  let ((ds, rs, _, bad), s) := ((s.readSpad p n).readStored g.core gid (pieces p n)).findAll g.core gid o (pieces p n)
  if rs.any fun (q, k, _) => s.placeBlocked q k then none
  else
    let poisoned := (rs.find? fun (q, k, _) => s.placePoisoned q k).map fun (q, _, _) => q.address
    match bad.orElse fun _ => poisoned with
    | some a => some (.error (0x11, a), s)
    | none =>
      let all := rs.foldl (fun ds (q, k, i) => fillFrom i (s.placeBytes q k) ds) ds
      let s := rs.foldl (fun s (q, k, _) => s.learn g.core q k) s
      some (.ok (all.map (·.getD 0)), s)

def execMtbl (f : RForm) (s : State) : Host.Outcome State Fault Refusal :=
  let put := fun (t : List (BitVec 10)) (s : State) (gid : Nat) => s.setGroup gid fun g => { g with meld := some t }
  issue (groupFragment { pred := f.pred, forbidden := true, stall := f.stall.toNat } (fun s gid _ g _ =>
    if f.c = 0 then
      match readUnis g ((uniRun f.a.toNat 32).map (·, false)) with
      | .error e => uniStop s e
      | .ok ws => .done (put (meldTable (ws.flatMap (leBytes 4))) s gid) (.next true)
    else
      match readA g f.a.toNat with
      | .error e => uniStop s e
      | .ok a =>
        let ea := a.pointer
        match s.checkReg g a [0, 3] .read ea 128 with
        | some c => .raise { cause := c, addr := ea }
        | none =>
          match s.checkAccess g a .read ea 128 128 with
          | (.error c, s) => .done s (.raise { cause := c, addr := ea })
          | (.ok pa, s) =>
            match s.readNow gid g .weak (.mem pa) 128 with
            | none => .hold
            | some (.error (c, x), s) => .done s (.raise { cause := c, addr := x })
            | some (.ok bs, s) => .done (put (meldTable bs) s gid) (.next true))) s

def meldLane (f : RForm) (gid : Nat) (s : State) (l : Nat) (t : Thread) : LaneOut :=
  match s.group? gid with
  | none => .stop (.next true)
  | some g =>
    let path : Except Stop (BitVec 2) :=
      if f.mx then (readVec g t f.a.toNat).map (·.setWidth 2)
      else (readPred g t f.a.toNat).map fun b => if b then 0 else 1
    match path with
    | .error e => e.lane
    | .ok p => .done (s.setThread gid l fun t => { t with path := p }) (.next true)

/-- MELD acts for a whole group; its region opens once lanes have their paths. Where every lane raised a cause the
instruction has no effect (R8). -/
def meldFragment (f : RForm) (s : State) (gid fid : Nat) : Option State :=
  match s.group? gid with
  | none => some s
  | some g =>
    if g.region || g.meld.isNone || (g.fragLanes fid).length != g.live.length then
      some (s.raiseAll gid fid 8 { cause := 0x0F })
    else
      seqFragmentWith { unpred := true, stall := f.stall.toNat } (meldLane f)
        (fun gid s ds =>
          if ds.any fun (_, d) => match d with | .next _ => true | _ => false then
            (s.setGroup gid fun g => { g with region := true, holds := [] }, ds)
          else (s, ds)) s gid fid

def execMeld (f : RForm) (s : State) : Host.Outcome State Fault Refusal := issue (meldFragment f) s

def execEndmeld (f : RForm) (s : State) : Host.Outcome State Fault Refusal :=
  let close := fun (g : Group) =>
    if g.region then
      { g with region := false, holds := [], threads := g.threads.map fun t => { t with path := 0 } }
    else g
  issue (groupFragment { pred := f.pred, stall := f.stall.toNat } (fun s gid _ _ _ =>
    .done (s.setGroup gid close) (.next true))) s

/-- REGION (R287). -/
def execRegion (f : RForm) (s : State) : Host.Outcome State Fault Refusal :=
  issue (groupFragment { pred := f.pred, stall := f.stall.toNat } (fun s _ _ _ _ => .done s (.next true))) s

/-! ## Leaving (R102) -/

/-- No operation of the lanes is outstanding. -/
def State.quiet (s : State) (gid : Nat) (lanes : List Nat) : Bool :=
  !(s.pends.any fun (_, p) => p.gid == gid && p.lanes.any fun l => lanes.contains l)

/-- EXIT waits until the group's stores are at their homes and acknowledged (R268), and its lanes' results are there. -/
def exitWaits (sh : Shape) : Waits := fun s gid fid =>
  match s.willRun sh gid fid, s.group? gid with
  | [], _ => (true, s)
  | _, none => (true, s)
  | ls, some g =>
    let (ok, s) := s.drainGroup g.core gid
    (ok && s.quiet gid ls, s)

def execExit (f : RForm) (s : State) : Host.Outcome State Fault Refusal :=
  let sh : Shape := { pred := f.pred, stall := f.stall.toNat }
  issueAfter (exitWaits sh) (seqFragment sh (fun _ _ _ _ => .stop .exit)) s

/-! ## Bins (R96 to R98) -/

/-- Files threads into the bin of (block, PC), whole or not at all; for REORDER too, of which the manual states only that
no free bin makes it a no-op (notes/assumptions/95). -/
def Core.fileBin (c : Core) (bid : Nat) (pc : DWord) (sort : Bool) (xs : List Entry) : Option Core :=
  let is := fun (b : Bin) => b.bid == bid && b.pc == pc && b.sort == sort
  match c.bins.find? is with
  | some b =>
    if b.entries.length + xs.length ≤ 128 then
      let add := fun (b : Bin) => if is b then { b with entries := b.entries ++ xs } else b
      some { c with bins := c.bins.map add }
    else none
  | none =>
    if c.bins.length < 64 then
      let b : Bin := { bid := bid, pc := pc, entries := xs, sort := sort }
      some { c with bins := c.bins ++ [b] }
    else none

def reformTogether : Together := fun gid s ds =>
  match s.group? gid with
  | none => (s, ds)
  | some g =>
    let ls := ds.map (·.1)
    match ls with
    | [] => (s, ds)
    | _ :: _ =>
      let pc := g.pcOf ls + 8
      match (s.core g.core).fileBin g.bid pc false (ls.map fun l => { who := (gid, l), since := s.seq }) with
      | none => (s, ds)
      | some c => ((s.setCore g.core fun _ => c).tick true, ds.map fun (l, _) => (l, .bin pc))

def execReform (f : RForm) (s : State) : Host.Outcome State Fault Refusal :=
  issue (seqFragmentWith { pred := f.pred, forbidden := true, stall := f.stall.toNat }
    (fun _ _ _ _ => .stop (.next false)) reformTogether) s

/-- The registers a live mask names. -/
def liveRegs (ws : List Word) : List Nat :=
  (List.range (32 * ws.length)).filter fun i => (ws.getD (i / 32) 0).getLsbD (i % 32)

/-- The sort keys of a fragment's lanes, or what stops them all. -/
def reorderKeys (g : Group) (a : Nat) : List Nat → Except Stop (List Word)
  | [] => .ok []
  | l :: rest =>
    match g.thread? l with
    | none => reorderKeys g a rest
    | some t =>
      match readReg g t a with
      | .error e => .error e
      | .ok x => (reorderKeys g a rest).map fun xs => (x &&& 0xFFFF) :: xs

/-- REORDER files a fragment for sorting; its in-flight writes have settled. A key that is a future parks the fragment's
lanes together. -/
def execReorder (f : RForm) (s : State) : Host.Outcome State Fault Refusal :=
  let waits : Waits := fun s gid fid =>
    match s.group? gid with
    | none => (true, s)
    | some g => (g.region || s.quiet gid (g.fragLanes fid), s)
  issueAfter waits (groupFragment { pred := f.pred, forbidden := true, stall := f.stall.toNat } (fun s gid _ g lanes =>
    let n := match g.enc with
      | .d => 8
      | .l => 32
    match readUnis g ((uniRun f.b.toNat n).map (·, false)) with
    | .error e => uniStop s e
    | .ok ws =>
      let mask := ws.map (BitVec.ofNat 32)
      if g.vregs ≤ f.a.toNat || (liveRegs mask).any fun r => g.vregs ≤ r then .raise { cause := 2 }
      else
        match reorderKeys g f.a.toNat lanes with
        | .error e => uniStop s e
        | .ok keys =>
          let pc := g.pcOf lanes
          if g.j.any fun (_, m) => m.members != 0 then .done s (.next false)
          else
            let xs : List Entry := (lanes.zip keys).map fun (l, k) =>
              { who := (gid, l), since := s.seq, key := k, live := mask }
            match (s.core g.core).fileBin g.bid pc true xs with
            | none => .done s (.next false)
            | some c =>
              let settle := fun (g : Group) => lanes.foldl (fun g l =>
                g.setThread l fun t => { t with vhaz := [], phaz := [], xhaz := [] }) g
              .done (((s.setCore g.core fun _ => c).setGroup gid settle).tick true) (.bin (pc + 8)))) s

/-! ## Fetching ahead (R237, R323) -/

/-- A code word as a group has fetched it. -/
def Group.fetchedWord (g : Group) (va : DWord) : Option (List Byte) :=
  (mapFind (va.toNat / 32) g.fetched).map fun bs => (bs.drop (va.toNat % 32)).take 4

/-- The words of the instruction at an address, as far as a group has fetched them. -/
def Group.fetchedAt (g : Group) (pc : DWord) : List Byte :=
  match g.fetchedWord pc with
  | none => []
  | some w => if twoWords g.enc w then w ++ (g.fetchedWord (pc + 4)).getD [] else w

/-- Where a front end may fetch after an instruction: past it, at its offset's target, or at a target that the group's
registers or return stacks hold (R323). -/
def Group.successors (g : Group) (pc : DWord) (i : Instr) : List DWord :=
  match i with
  | .bra f => [branchTo g.enc pc (f.imm.signExtend 64)]
  | .call f => [branchTo g.enc pc (f.imm.signExtend 64)]
  | .brx f => [branchTo g.enc pc (f.imm.signExtend 64)]
  | .jmpi f => [(mapGet 0 g.s (f.a.toNat + 1)) ++ (mapGet 0 g.s f.a.toNat)]
  | .callq f => g.threads.map fun t => (mapGet 0 t.v (f.a.toNat + 1)) ++ (mapGet 0 t.v f.a.toNat)
  | .ret _ => g.threads.flatMap (·.rstk)
  | _ => []

/-- The addresses that follow one, so far as its words are fetched. -/
def Group.ahead (g : Group) (pc : DWord) : List DWord :=
  let bs := g.fetchedAt pc
  if bs.isEmpty then []
  else
    (pc + BitVec.ofNat 64 bs.length) :: (match decodeBytes g.enc bs with
      | .ok (i, _) => g.successors pc i
      | .error _ => [])

/-- A sector holds a word of an instruction that the front end may have reached from some PCs in so many instructions. -/
def Group.reaches (g : Group) (sector : Nat) : Nat → List DWord → Bool
  | 0, _ => false
  | n + 1, pcs =>
    (pcs.any fun pc => pc.toNat / 32 == sector || ((g.fetchedWord pc).any (twoWords g.enc) && (pc + 4).toNat / 32 == sector))
      || g.reaches sector n ((pcs.flatMap g.ahead).foldl (fun acc pc => if acc.contains pc then acc else pc :: acc) [])

/-- INSTRUCTION_FETCH: the front end of a group that stands on its core fetches a sector, afresh or up to 64 instructions
ahead of those at which its threads stand (R237). A fault met here is reported only where the instruction is reached. -/
def execInstructionFetch (gid : Nat) (va : DWord) (s : State) : Host.Outcome State Fault Refusal :=
  match s.group? gid with
  | none => .next s
  | some g =>
    if g.residence == .resident && g.reaches (va.toNat / 32) 65 (g.live.filterMap fun l => (g.thread? l).map (·.pc)) then
      match s.fetchSector g.core g.part va.toNat with
      | (.error _, s) => .next s
      | (.ok bs, s) => .next (s.setGroup gid fun g => { g with fetched := mapInsert (va.toNat / 32) bs g.fetched })
    else .next s

end Sys2Proof.Machine
end

