-- ==== Sys2Proof/Machine/Launch.lean ====
section
/-! DEFINITION. Kernel headers and launch records (R88 to R91, R313, R314), child grids (R99, R100), the launch ports
(R326), and placement on cores (R85 to R87, R192). -/

namespace Sys2Proof.Machine

/-! ## Kernel headers (R313, R314) -/

/-- A field of the bytes of a structure in memory. -/
def fieldNat (bs : List Byte) (off n : Nat) : Nat := leNat ((bs.drop off).take n)

def KHdr.ofBytes (bs : List Byte) : KHdr :=
  let w0 := fieldNat bs 0 4
  let w1 := fieldNat bs 4 4
  let v8 := w0 / 2 ^ 16 % 256
  let l8 := w1 / 2 ^ 24
  { width := 16 * 2 ^ (w0 % 16), c16 := w0.testBit 4, ilk := w0.testBit 5, encD := w0.testBit 6, encL := w0.testBit 7
    step := w0 / 2 ^ 8 % 256, relaunch := w0.testBit 24, gang := w0.testBit 25, vregsD := 8 * v8
    vregsL := 8 * (if l8 = 0 then v8 else l8), tiles := w1 % 512, spad := fieldNat bs 8 4, gangReq := fieldNat bs 0xC 1
    dtext := BitVec.ofNat 64 (fieldNat bs 0x10 8), ltext := BitVec.ofNat 64 (fieldNat bs 0x18 8)
    dentry := BitVec.ofNat 64 (fieldNat bs 0x20 4), lentry := BitVec.ofNat 64 (fieldNat bs 0x24 4)
    eqmap := BitVec.ofNat 64 (fieldNat bs 0x28 8), eqlen := fieldNat bs 0x30 4 }

/-- A text that ENC names. -/
def textOk (text entry : DWord) (unit : Nat) : Bool := text != 0 && text.toNat % 128 == 0 && entry.toNat % unit == 0

/-- Conditions 2 to 6 of R314. -/
def KHdr.valid (h : KHdr) : Bool :=
  h.width ≤ 128 && (!h.c16 || h.width == 16)
    && (h.encD || h.encL) && 0x30 ≤ h.step && h.step ≤ 0x4F && (0x40 ≤ h.step || (h.encD && !h.encL))
    && (!h.encD || (8 ≤ h.vregsD && h.vregsD ≤ 256)) && (!h.encL || (8 ≤ h.vregsL && h.vregsL ≤ 1024))
    && h.tiles ≤ 256
    && (!h.encD || textOk h.dtext h.dentry 4) && (!h.encL || textOk h.ltext h.lentry 8)
    && h.eqmap.toNat % 4 == 0

/-- Reads and checks a header (R314 but for the launch's own condition). -/
def State.readHdr (s : State) (part : Nat) (kentry : DWord) : Option KHdr :=
  if kentry.toNat % 256 ≠ 0 then none
  else
    match s.deviceRead part kentry.toNat 256 with
    | .error _ => none
    | .ok bs =>
      let h := KHdr.ofBytes bs
      if h.valid then some h else none

def KHdr.carries (h : KHdr) : Enc → Bool
  | .d => h.encD
  | .l => h.encL

def KHdr.vregs (h : KHdr) : Enc → Nat
  | .d => h.vregsD
  | .l => h.vregsL

def KHdr.text (h : KHdr) : Enc → DWord
  | .d => h.dtext
  | .l => h.ltext

def KHdr.entryAt (h : KHdr) : Enc → DWord
  | .d => h.dtext + h.dentry
  | .l => h.ltext + h.lentry

/-! ## Lane slots (R85, R86, R192) -/

/-- Slot rows and registers of a lane (R23, R85). -/
def coreRows (c : Nat) : Nat := if c % 32 < 24 then 64 else 8
def laneRegs (c : Nat) : Nat := if c % 32 < 24 then 16384 else 8192

/-- What a group takes on a core: the slots of its threads that have not exited (R102, R128). -/
structure Slot where
  rows : List Nat
  lane0 : Nat
  width : Nat
  vregs : Nat
  live : List Nat
deriving DecidableEq, Repr

def Group.slot (g : Group) : Slot :=
  { rows := g.rows, lane0 := g.lane0, width := g.width, vregs := g.vregs, live := g.live }

/-- The row and lane of a thread on a core of c lanes (R85). -/
def Slot.place (x : Slot) (c l : Nat) : Nat × Nat :=
  if c ≤ x.width then (x.rows.getD (l / c) 0, l % c) else (x.rows.headD 0, x.lane0 + l)

/-- The slots in use: row, lane, and the registers of the allotment. -/
def slotsUsed (c : Nat) (xs : List Slot) : List (Nat × Nat × Nat) :=
  xs.flatMap fun x => x.live.map fun l => let (r, k) := x.place c l; (r, k, x.vregs)

/-- Registers in use in a lane. -/
def laneUse (used : List (Nat × Nat × Nat)) (l : Nat) : Nat :=
  used.foldl (fun n (_, k, v) => if k = l then n + v else n) 0

/-- The slots of a group of width w and allotment v among those in use; none where they do not fit. -/
def findSlot (core c : Nat) (xs : List Slot) (w v : Nat) : Option Slot :=
  let cap := laneRegs core
  let rows := List.range (coreRows core)
  let used := slotsUsed c xs
  let live := List.range w
  if c ≤ w then
    let n := w / c
    let free := rows.filter fun r => !(used.any fun u => u.1 == r)
    if n ≤ free.length ∧ (List.range c).all fun l => laneUse used l + n * v ≤ cap then
      some { rows := free.take n, lane0 := 0, width := w, vregs := v, live := live }
    else none
  else
    (rows.flatMap fun r => (List.range (c / w)).map fun k => (r, k * w)).findSome? fun (r, o) =>
      let taken := used.any fun (q, l, _) => q == r && o ≤ l && l < o + w
      if !taken && (List.range w).all fun l => laneUse used (o + l) + v ≤ cap then
        some { rows := [r], lane0 := o, width := w, vregs := v, live := live }
      else none

/-- Slots for n groups. -/
def findSlots (core c : Nat) (xs : List Slot) (w v : Nat) : Nat → Option (List Slot)
  | 0 => some []
  | n + 1 =>
    match findSlot core c xs w v with
    | none => none
    | some x => (findSlots core c (x :: xs) w v n).map (x :: ·)

/-- The groups resident on a core. -/
def State.residents (s : State) (c : Nat) : List (Nat × Group) :=
  s.groups.filter fun (_, g) => g.core == c && g.residence == .resident

/-- The tiles of a block at a position are saved with its groups: some of its groups there are evicted and none is
resident (R175). Groups that have exited or migrated leave the tiles in the core's store (R173). -/
def State.tilesSaved (s : State) (bid i c : Nat) : Bool :=
  let here := s.groups.filter fun (_, g) => g.bid == bid && g.home == i && g.core == c
  (here.any fun (_, g) => g.residence == .evicted) && !(here.any fun (_, g) => g.residence == .resident)

/-- Tiles that stand in a core's store, until their blocks exit (R102, R173). -/
def State.tilesUsed (s : State) (c : Nat) : Nat :=
  ((s.positions c).map fun (bid, b, i) =>
    if s.tilesSaved bid i c then 0 else (b.tiles.getD i []).length).foldl (· + ·) 0

/-- Tiles that a group's return to a core brings back to its store (R175). -/
def State.savedTilesAt (s : State) (c : Nat) (g : Group) : Nat :=
  match s.block? g.bid with
  | none => 0
  | some b =>
    if b.cores[g.home]? == some c && s.tilesSaved g.bid g.home c then (b.tiles.getD g.home []).length else 0

/-- A pool of so many bytes leaves the L1 its 128 KiB. -/
def poolFits (lanes bytes : Nat) : Bool := roundUp bytes 131072 + 131072 ≤ coreSram lanes

/-- A share of n groups fits on a core beside what is there (R86). -/
def State.shareFits (s : State) (part c : Nat) (h : KHdr) (n : Nat) : Option (List Slot) :=
  let lanes := s.lanes part c
  let res := s.residents c
  if res.length + n ≤ 64 ∧ poolFits lanes (s.spadUsed c + roundUp h.spad 4096)
      ∧ s.tilesUsed c + h.tiles ≤ coreTiles lanes then
    findSlots c lanes (res.map (·.2.slot)) h.width (h.vregs (coreEnc c)) n
  else none

/-- A share fits on an empty core of n lanes. -/
def emptyFits (c lanes : Nat) (h : KHdr) (n : Nat) : Bool :=
  n ≤ 64 && poolFits lanes (roundUp h.spad 4096) && h.tiles ≤ coreTiles lanes
    && (findSlots c lanes [] h.width (h.vregs (coreEnc c)) n).isSome

/-! ## Placing groups (R87, R315) -/

/-- Interlocked mode, decided at placement. -/
def State.interlocked (s : State) (part c : Nat) (h : KHdr) : Bool :=
  coreEnc c == .l || h.ilk || h.step / 16 != s.stepping / 16 || s.stepping < h.step || (s.part part).forceilk

/-- A thread at its first instruction. -/
def newThread (pc : DWord) : Thread := { pc := pc, rentry := pc }

/-- The uniform and address registers at launch: s0 and s1 hold an address, a0 covers a range read-only. -/
def launchRegs (args : DWord) (len : Nat) : SMap Word × SMap AddrReg :=
  (mapPut 0 1 (args.extractLsb' 32 32) (mapPut 0 0 (args.extractLsb' 0 32) []),
    mapPut {} 0 { pointer := args, base := args, limit := BitVec.ofNat 64 len, attr := 1 } [])

/-- Group n of a block on a core. -/
def State.newGroup (s : State) (bid n home part c : Nat) (h : KHdr) (x : Slot) (privileged : Bool) (args : DWord)
    (len : Nat) : Group :=
  let e := coreEnc c
  let regs := launchRegs args len
  { bid := bid, index := n, width := h.width, part := part, core := c, rows := x.rows, lane0 := x.lane0, enc := e
    ilk := s.interlocked part c h, c16 := h.c16, vregs := h.vregs e, privileged := privileged, handler := false
    threads := (List.range h.width).map fun _ => newThread (h.entryAt e)
    frags := [{ id := 0, parent := 0, sib := maskOf (List.range h.width) }]
    s := regs.1, a := regs.2, home := home }

/-- The allotted tiles of a block on one core, every element zero (R173). -/
def newTiles (n : Nat) : SMap Tile := (List.range n).map fun i => (i, [])

def newRegion (h : KHdr) : Region := { size := h.spad }

/-- The share of core i of a block of n groups over k cores (R86). -/
def shareOf (n k i : Nat) : List Nat :=
  let m := (n + k - 1) / k
  (List.range (min ((i + 1) * m) n - i * m)).map (i * m + ·)

/-- Adds groups to a block. -/
def State.addGroups (s : State) (bid : Nat) (gs : List Group) : State :=
  gs.foldl (fun s g =>
    let gid := mapFresh s.groups
    let s := { s with groups := mapInsert gid g s.groups }
    s.setBlock bid fun b => { b with groups := setAdd gid b.groups }) s

/-- Places one core's share. -/
def State.placeShare (s : State) (bid part c home : Nat) (h : KHdr) (ns : List Nat) (privileged : Bool) (args : DWord)
    (len : Nat) : Option State :=
  match s.shareFits part c h ns.length with
  | none => none
  | some xs =>
    some (s.addGroups bid ((ns.zip xs).map fun (n, x) => s.newGroup bid n home part c h x privileged args len))

def State.placeShares (s : State) (bid part : Nat) (h : KHdr) (n k : Nat) (privileged : Bool) (args : DWord) (len : Nat) :
    List (Nat × Nat) → Option State
  | [] => some s
  | (i, c) :: rest =>
    match s.placeShare bid part c i h (shareOf n k i) privileged args len with
    | none => none
    | some s => s.placeShares bid part h n k privileged args len rest

/-- Places one block of a launch on its cores, whole or not at all. The shares are placed before the block's regions and
tiles count as its own. -/
def State.placeBlock (s : State) (rid : Nat) (r : Launch) (h : KHdr) (index : Nat) (cores : List Nat) : Option State :=
  let bid := mapFresh s.blocks
  let k := cores.length
  let b : Block :=
    { rid := some rid, part := r.part, index := index, gangb := r.gangb, hdr := h, cores := cores, groups := []
      regions := cores.map fun _ => newRegion h, tiles := cores.map fun _ => newTiles h.tiles
      life := mapGet 0 r.relaunches (index / r.gangb) }
  let hold := { b with cores := [], regions := [], tiles := [] }
  let s := { s with blocks := mapInsert bid hold s.blocks }
  match s.placeShares bid r.part h (r.bthreads / h.width) k ((s.part r.part).privq.getLsbD r.queue) r.kargs
      r.karglen.toNat ((List.range k).zip cores) with
  | none => none
  | some s =>
    let s := (s.setBlock bid fun x => { b with groups := x.groups }).setLaunch rid fun r =>
      { r with live := setAdd bid r.live }
    some (cores.foldl State.l1Shrink s)

/-! ## Launch queues (R89 to R91, R99, R326) -/

/-- The enabled partition that owns a launch queue. -/
def State.queueOwner (s : State) (q : Nat) : Option Nat :=
  (List.range 8).find? fun p => (s.part p).enabled && (s.part p).lqueues.getLsbD q

/-- The enabled partition that owns a port. -/
def State.portOwner (s : State) (n : Nat) : Option Nat :=
  (List.range 8).find? fun p => (s.part p).enabled && (s.part p).portset.getLsbD n

/-- The partition whose block a BAR0 offset lies in: its launch ports, error words and queue entries, its control block and
mailboxes, its Ethernet ports (R325). -/
def State.blockPart (s : State) (off : Nat) : Option Nat :=
  let of := fun (base stride n : Nat) => decide (base ≤ off ∧ off < base + stride * n)
  if of 0x100000 8 64 then s.queueOwner ((off - 0x100000) / 8)
  else if of 0x100200 16 64 then s.queueOwner ((off - 0x100200) / 16)
  else if of 0x110000 32 64 then s.queueOwner ((off - 0x110000) / 32)
  else if of 0x200000 0x1000 8 then some ((off - 0x200000) / 0x1000)
  else if of 0x300000 64 8 then some ((off - 0x300000) / 64)
  else if of 0x400000 64 8 then some ((off - 0x400000) / 64)
  else if of 0x500000 0x400 8 then s.portOwner ((off - 0x500000) / 0x400)
  else none

/-- The block belongs to a secure partition: the host reads zero there and writes nothing (R343). -/
def State.barred (s : State) (off : Nat) : Bool := (s.blockPart off).any fun p => (s.part p).secure

/-- An attempt of the host on secure state is counted (R343). -/
def State.countAttempt (s : State) : State := { s with secureLog := s.secureLog + 1 }

/-- A host's write of a register in BAR0: one that meets a secure partition's block is dropped and counted (R343). -/
def hostWrite (off : Nat) (s : State) (write : State → Host.Outcome State Fault Refusal) : Host.Outcome State Fault Refusal :=
  if s.barred off then .next s.countAttempt else write s

/-- Places a record in a queue. -/
def State.enqueueRecord (s : State) (part q : Nat) (addr : DWord) (parent : Option Nat) (parentAddr : DWord)
    (depth : Nat) : Nat × State :=
  let rid := mapFresh s.launches
  let r : Launch := { addr := addr, part := part, queue := q, order := s.placed, parent := parent
                      parentAddr := parentAddr, depth := depth }
  let s := { s with placed := s.placed + 1, launches := mapInsert rid r s.launches }
  (rid, (s.setLQueue q fun x => { x with records := x.records ++ [rid] }).putFields r)

/-- A launch port's error word and vector (R326). -/
def State.portRefusal (s : State) (q : Nat) (addr : DWord) (reason : Nat) : State :=
  (s.setLQueue q fun x =>
    { x with errAddr := addr, errValid := true, errCount := min (x.errCount + 1) 0x7FFF, errReason := reason }).raise q

/-- LAUNCH_PORT_WRITE: one 8-byte write of a record's address (R326). -/
def execLaunchPortWrite (port width : Nat) (value : BitVec 64) (s : State) : Host.Outcome State Fault Refusal :=
  if port < 64 ∧ width = 8 then
    hostWrite (0x100000 + 8 * port) s fun s =>
      match s.queueOwner port with
      | none => .next s
      | some p =>
        if value.toNat % 128 ≠ 0 then .next (s.portRefusal port value 9)
        else
          match s.deviceRead p value.toNat 128 with
          | .error _ => .next (s.portRefusal port value 9)
          | .ok _ =>
            if 256 ≤ (s.lqueue port).records.length then
              let s := s.deviceStore p (value.toNat + 0x50) 4 6
              let s := s.deviceStore p (value.toNat + 0x54) 4 8
              .next (s.portRefusal port value 8)
            else .next (s.enqueueRecord p port value none 0 0).2
  else .next s

/-- The longest run of consecutive enabled cores of a class that one stack holds (R91). -/
def State.longestRun (s : State) (p : Nat) (e : Enc) : Nat :=
  let run := fun (stack : Nat) =>
    let w := match e with
      | .d => (s.part p).dwidth stack / 32
      | .l => 1
    let cores := match e with
      | .d => (List.range (24 / w)).map fun i => 32 * stack + w * i
      | .l => (List.range 8).map fun i => 32 * stack + 24 + i
    (cores.foldl (fun (best, cur) c => if s.enabledCore p c then (max best (cur + 1), cur + 1) else (best, 0)) (0, 0)).1
  ((List.range 4).map run).foldl max 0

def classAdmits (cls : Nat) : Enc → Bool
  | .d => cls == 0 || cls == 2
  | .l => cls == 1 || cls == 2

def State.hasCore (s : State) (p : Nat) (e : Enc) : Bool :=
  (List.range 128).any fun c => coreEnc c == e && s.enabledCore p c

/-- The classes a record may run on (R91). -/
def State.permitted (s : State) (r : Launch) (h : KHdr) : List Enc :=
  [Enc.d, Enc.l].filter fun e => classAdmits r.cls e && h.carries e && s.hasCore r.part e

/-- The record with the fields of its 128 bytes (R88). -/
def Launch.fill (r : Launch) (bs : List Byte) : Launch :=
  { r with
    kargs := BitVec.ofNat 64 (fieldNat bs 8 8), karglen := BitVec.ofNat 32 (fieldNat bs 0x10 4)
    gridX := fieldNat bs 0x14 4, gridY := fieldNat bs 0x18 4, gridZ := fieldNat bs 0x1C 4
    bthreads := fieldNat bs 0x20 4, bcores := fieldNat bs 0x24 1, gangb := fieldNat bs 0x25 1, cls := fieldNat bs 0x26 1
    relaunch := (fieldNat bs 0x27 1).testBit 0
    after := (List.range 4).map fun i => BitVec.ofNat 64 (fieldNat bs (0x30 + 8 * i) 8) }

/-- An empty core of a class takes a block's share. -/
def State.emptyShare (s : State) (r : Launch) (h : KHdr) (e : Enc) : Bool :=
  let g := r.bthreads / h.width
  (List.range 128).any fun c => coreEnc c == e && s.enabledCore r.part c
    && emptyFits c (s.lanes r.part c) h ((g + r.bcores - 1) / r.bcores)

/-- The first of checks 1 to 5 of R91 that a record fails; its header. -/
def State.checkRecord (s : State) (r : Launch) (hdr : Option KHdr) : Except Nat KHdr :=
  match hdr with
  | none => .error 1
  | some h =>
    let n := r.gangb * r.bcores
    let ok := s.permitted r h
    if h.gangReq ≠ 0 ∧ h.gangReq ≠ r.gangb then .error 1
    else if r.bthreads % h.width ≠ 0 ∨ r.bthreads < 16 ∨ 65536 < r.bthreads then .error 2
    else if r.bcores = 0 ∨ 32 < r.bcores ∨ r.gangb = 0 ∨ 32 < r.gangb ∨ 32 < n
        ∨ (!ok.isEmpty && !(ok.any fun e => n ≤ s.longestRun r.part e && s.emptyShare r h e)) then .error 3
    else if r.gridX = 0 ∨ r.gridY = 0 ∨ r.gridZ = 0 ∨ 2 ^ 32 - 1 < r.blocks ∨ r.blocks % r.gangb ≠ 0
        ∨ (1 < r.gangb ∧ !h.gang) then .error 4
    else if 3 ≤ r.cls ∨ ok.isEmpty then .error 5
    else .ok h

/-- A queued record that cannot be read when its turn comes (R91). -/
def State.unreadable (s : State) (rid : Nat) (r : Launch) : State :=
  ((s.refuse rid 9).portRefusal r.queue r.addr 9).settleAll

/-- RECORD_RESOLUTION: the launch unit reads the record at the front of a queue's resolution (R89, R91). -/
def execRecordResolution (queue : Nat) (s : State) : Host.Outcome State Fault Refusal :=
  match (s.lqueue queue).records.find? fun rid => (s.launch? rid).any (·.status == 0) with
  | none => .next s
  | some rid =>
    match s.launch? rid with
    | none => .next s
    | some r =>
      match s.deviceRead r.part r.addr.toNat 128 with
      | .error _ => .next (s.unreadable rid r)
      | .ok bs =>
        let r := r.fill bs
        let hdr := s.readHdr r.part (BitVec.ofNat 64 (fieldNat bs 0 8))
        match s.checkRecord r hdr with
        | .error e => .next (((s.setLaunch rid fun _ => r).refuse rid e).settleAll)
        | .ok h =>
          let r := { r with hdr := some h, relaunch := r.relaunch || h.relaunch }
          .next ((((s.setLaunch rid fun _ => r).putStatus rid 1).review rid).settleAll)

/-! ## Child grids (R99, R100) -/

/-- One SPAWN of a record's address: the state with the child placed, or why not. -/
def State.spawn (s : State) (gid : Nat) (g : Group) (addr : DWord) : Except Stop State :=
  if addr.toNat % 128 ≠ 0 then .error (Stop.causeAt 8 addr)
  else if s.depthOf g = 16 then .error (Stop.causeAt 0x14 0)
  else
    let parent := s.launchOf g
    match s.walk g.part addr.toNat with
    | none => .error (Stop.causeAt 6 addr)
    | some e =>
      if 2 ^ 56 ≤ addr.toNat then .error (Stop.causeAt 6 addr)
      else if !e.w then .error (Stop.causeAt 7 addr)
      else if !inDevice (e.pa addr.toNat) then .error (Stop.causeAt 0x16 addr)
      else if !s.admits g.part (e.pa addr.toNat) then .error (Stop.causeAt 7 addr)
      else
        match s.deviceRead g.part (addr.toNat + 0x28) 1 with
        | .error _ => .error (Stop.causeAt 7 addr)
        | .ok bs =>
          let named := leNat bs
          let own := (parent.map (·.2.queue)).getD 64
          let q := if named = 255 then own else named
          if 64 ≤ q ∨ !(s.part g.part).lqueues.getLsbD q then .error (Stop.causeAt 7 addr)
          else if 256 ≤ (s.lqueue q).records.length then .error (.park (.launchSpace q))
          else
            let (rid, s) := s.enqueueRecord g.part q addr (parent.map (·.1)) ((parent.map (·.2.addr)).getD 0)
              (s.depthOf g + 1)
            .ok (s.setGroup gid fun g => { g with children := setAdd rid g.children })

def spawnLane (f : RForm) (gid : Nat) (s : State) (_ : Nat) (t : Thread) : LaneOut :=
  match s.group? gid with
  | none => .stop (.next false)
  | some g =>
    match readWide g t true f.a.toNat with
    | .error e => e.lane
    | .ok x =>
      match s.spawn gid g (BitVec.ofNat 64 x) with
      | .error e => e.lane
      | .ok s => .done s (.next true)

/-- The drain of the spawner's group comes first. -/
def drainFirst (sh : Shape) : Waits := fun s gid fid =>
  match s.willRun sh gid fid, s.group? gid with
  | [], _ => (true, s)
  | _, none => (true, s)
  | _, some g => s.drainGroup g.core gid

def execSpawn (f : RForm) (s : State) : Host.Outcome State Fault Refusal :=
  let sh : Shape := { pred := f.pred, runs := [(f.a.toNat, 2)], stall := f.stall.toNat }
  issueAfter (drainFirst sh) (seqFragment sh (spawnLane f)) s

def uniWaits (pred : BitVec 4) : Waits := fun s gid _ =>
  match s.group? gid with
  | none => (true, s)
  | some g => if uniActive g pred then s.drainGroup g.core gid else (true, s)

def execUspawn (f : RForm) (s : State) : Host.Outcome State Fault Refusal :=
  issueAfter (uniWaits f.pred) (uniFragment 8 f.pred false (fun s gid g _ =>
    match readSWide g true f.a.toNat with
    | .error e => uniStop s e
    | .ok x =>
      match s.spawn gid g (BitVec.ofNat 64 x) with
      | .error e => uniStop s e
      | .ok s => .done s (.next true))) s

/-- A child has a final STATUS. -/
def State.childFinal (s : State) (rid : Nat) : Bool := (s.launch? rid).all fun r => finalStatus r.status

def execGridwait (f : RForm) (s : State) : Host.Outcome State Fault Refusal :=
  uniInstr 8 f.pred false (fun s gid g _ =>
    let waiting := g.children.filter fun r => !s.childFinal r
    if waiting.isEmpty then .done (s.setGroup gid fun g => { g with children := [] }) (.next false)
    else .done s (.parkNext (.children g.children) false)) s

end Sys2Proof.Machine
end

