-- ==== Sys2Proof/Machine/Claim.lean ====
section
/-! DEFINITION. Claims (R92, R93), eviction and restoring (R194, R300), and handler waves (R289 to R291). -/

namespace Sys2Proof.Machine

/-! ## Eviction (R300) -/

/-- Inserts in order, behind its equals. -/
def insertBy {α : Type} (before : α → α → Bool) (x : α) : List α → List α
  | [] => [x]
  | y :: ys => if before x y then x :: y :: ys else y :: insertBy before x ys

def sortBy {α : Type} (before : α → α → Bool) (xs : List α) : List α :=
  xs.foldl (fun acc x => insertBy before x acc) []

/-- An operation that waits in a slice queue or for an inspect, which an evicted group keeps (R257, R274). -/
def State.queueWait (s : State) (pend : Nat) : Bool :=
  (s.squeues.any fun (_, q) => (q.takers ++ q.givers).any fun w => w.pend == pend)
    || s.inspects.any fun (_, x) => x.pends.contains pend

/-- Nothing of the group is in flight but what it may keep: its stores are drained, no TST is under way, and its writes are
settled. -/
def State.evictReady (s : State) (gid : Nat) (g : Group) : Bool :=
  g.tst.isNone && s.drained g.core gid && s.pends.all fun (id, p) => p.gid != gid || s.queueWait id

def TState.isHalted : TState → Bool
  | .halted _ => true
  | _ => false

/-- A group that eviction may choose. -/
def Group.victim (g : Group) : Bool :=
  g.residence == .resident && !g.handler && !(g.threads.any fun t => t.st.isHalted)

/-- A parked ENQ lane leaves the queue and stands at its ENQ again. -/
def State.recallGivers (s : State) (gid : Nat) : State :=
  let mine := s.squeues.flatMap fun (_, q) => q.givers.filter (·.gid == gid)
  let cut := fun (q : SQueue) => { q with givers := q.givers.filter (·.gid != gid) }
  let s := { s with squeues := s.squeues.map fun (k, q) => (k, cut q) }
  mine.foldl (fun s w =>
    match mapFind w.pend s.pends with
    | none => s
    | some p =>
      let s := { s with pends := mapErase w.pend s.pends }
      s.setThread gid w.lane fun t =>
        { t with
          st := match t.st.parkedOn with
            | some (.space _ _) => t.st.woken
            | _ => t.st
          asked := none
          pc := p.pc
          rentry := p.rentry.headD t.rentry
          rcount := p.rcount.headD t.rcount }) s

/-- EVICTED remembers the state a thread returns to; a thread in a callee queue returns READY at its target (R121). -/
def TState.evict : TState → TState
  | .ready => .evicted .ready
  | .running => .evicted .ready
  | .binned => .evicted .binned
  | .parked (.callee _ _) => .evicted .ready
  | .parked p => .evicted (.parked p)
  | t => t

/-- A bin's entries of one group, each as a bin of its own. -/
def Bin.entriesOf (b : Bin) (gid : Nat) : List Bin :=
  (b.entries.filter (·.who.1 == gid)).map fun x => { b with entries := [x] }

/-- A bin without a group's entries. -/
def Bin.without (b : Bin) (gid : Nat) : Bin :=
  { b with entries := b.entries.filter (·.who.1 != gid) }

/-- A core without a group's bundles, bin entries and callee-queue entries. -/
def Core.withdraw (c : Core) (gid : Nat) : Core :=
  let cut := fun (b : Bundle) => { b with frags := b.frags.filter (·.1 != gid) }
  let some_ := fun (b : Bundle) => !b.frags.isEmpty
  let drop := fun (q : Callee) => { q with entries := q.entries.filter (·.who.1 != gid) }
  { c with active := (c.active.map cut).filter some_
           pending := (c.pending.map cut).filter some_
           bins := (c.bins.map (·.without gid)).filter fun b => !b.entries.isEmpty
           callees := (c.callees.map drop).filter fun q => !q.entries.isEmpty }

/-- Evicts a group that is ready for it. -/
def State.evictGroup (s : State) (gid : Nat) : State :=
  let s := s.recallGivers gid
  match s.group? gid with
  | none => s
  | some g =>
    let bins := (s.core g.core).bins.flatMap (·.entriesOf gid)
    let s := s.setCore g.core (·.withdraw gid)
    let out := fun (t : Thread) => { t with st := t.st.evict, vhaz := [], phaz := [], xhaz := [] }
    s.setGroup gid fun g =>
      { g.closeLate (fun _ => true) with
        residence := .evicted, binned := bins, fetched := []
        threads := (g.closeLate fun _ => true).threads.map out }

/-- Groups that eviction would choose on a core, first to last: the lowest queue priority, the longest parked, the
highest (block, group). -/
def State.victims (s : State) (c : Nat) : List Nat :=
  let prio := fun (g : Group) => ((s.launchOf g).map fun x => (s.lqueue x.2.queue).prio).getD 0
  let parked := fun (g : Group) => g.live.all fun l => (g.thread? l).any fun t => t.st.parkedOn.isSome
  let block := fun (g : Group) => ((s.block? g.bid).map (·.index)).getD 0
  let before := fun (x y : Nat × Group) =>
    let (a, b) := (x.2, y.2)
    if prio a ≠ prio b then prio a < prio b
    else if parked a != parked b then parked a
    else if parked a && a.parkedAt ≠ b.parkedAt then a.parkedAt < b.parkedAt
    else if block a ≠ block b then block b < block a
    else b.index < a.index
  (sortBy before ((s.residents c).filter fun (_, g) => g.victim)).map (·.1)

/-- The groups that leave a core with some groups: the members of a complete share go together or not at all, and so do
those of the shares they in turn belong to (R185). -/
def State.shareMates (s : State) (c : Nat) (gids : List Nat) : List Nat :=
  let whole := (s.core c).shares.filter fun sh => sh.quarters.length == 4 && sh.quarters.all (·.isSome)
  let members := fun (sh : BShare) => sh.quarters.filterMap fun q => q.map (·.1)
  let grow := fun (gs : List Nat) => whole.foldl (fun gs sh =>
    if (members sh).any gs.contains then gs ++ ((members sh).eraseDups.filter fun m => !gs.contains m) else gs) gs
  whole.foldl (fun gs _ => grow gs) gids

def State.saveFits (s : State) (p : Nat) : Bool :=
  let n := (s.groups.filter fun (_, g) => g.part == p && g.residence == .evicted).length
  (s.part p).savesize != 0 && Config.saveAreaFits (s.part p).savesize.toNat n

/-- The fewest groups, in order, without which something fits on a core; none where no eviction makes it fit. -/
def State.roomPlan (s : State) (c : Nat) (fits : State → Bool) : Option (List Nat) :=
  let vs := s.victims c
  let without := fun (gone : List Nat) =>
    gone.foldl (fun s gid => s.setGroup gid fun g => { g with residence := .evicted }) s
  ((List.range (vs.length + 1)).findSome? fun k =>
    let gone := s.shareMates c (vs.take k)
    if fits (without gone) then some gone else none).filter fun gone =>
      gone.all fun gid => (s.group? gid).any fun g => vs.contains gid && s.saveFits g.part

/-- Makes room on a core until something fits. Whether it fits now, and the state; groups that are not drained yet begin to
drain. -/
def State.makeRoom (s : State) (c : Nat) (fits : State → Bool) : Bool × State :=
  if fits s then (true, s)
  else
    match s.roomPlan c fits with
    | none => (false, s)
    | some gone =>
      let ready := gone.all fun gid => (s.group? gid).any fun g => s.evictReady gid g
      if ready then
        let s := gone.foldl State.evictGroup s
        (fits s, s)
      else (false, gone.foldl (fun s gid => (s.drainGroup c gid).2) s)

/-! ## Claims (R92, R93) -/

/-- The partition is switched out, or being so: it places nothing (R301). -/
def Partition.switching (p : Partition) : Bool := p.slicedOut || p.dbstat.getLsbD 2


/-- n consecutive enabled cores of a partition from a core on, in its stack and class. -/
def State.run (s : State) (p c n : Nat) : Option (List Nat) :=
  let w := if c % 32 < 24 then (s.part p).dwidth (c / 32) / 32 else 1
  let cores := (List.range n).map fun i => c + w * i
  if cores.all fun x => x / 32 == c / 32 && coreEnc x == coreEnc c && s.enabledCore p x then some cores else none

/-- The queue's core mask admits the cores (R328). -/
def LQueue.admits (q : LQueue) (cores : List Nat) : Bool :=
  cores.all fun c => if c < 64 then q.cmask0.getLsbD c else q.cmask1.getLsbD (c - 64)

/-- A launch that may be granted to an offer through a core, as far as its queue, class and cores go. -/
def State.offered (s : State) (p c : Nat) (r : Launch) : Option (KHdr × List Nat) :=
  match r.hdr with
  | none => none
  | some h =>
    if r.part = p ∧ (r.status = 2 ∨ r.status = 3) ∧ !r.claimed ∧ classAdmits r.cls (coreEnc c) ∧ h.carries (coreEnc c) then
      match s.run p c (r.gangb * r.bcores) with
      | some cores => if (s.lqueue r.queue).admits cores then some (h, cores) else none
      | none => none
    else none

/-- The cores of each block of a gang. -/
def gangCores (r : Launch) (cores : List Nat) : List (Nat × List Nat) :=
  (List.range r.gangb).map fun j => (j, (cores.drop (j * r.bcores)).take r.bcores)

def State.placeGang (s : State) (rid : Nat) (r : Launch) (h : KHdr) (gang : Nat) : List (Nat × List Nat) → Option State
  | [] => some s
  | (j, cores) :: rest =>
    match s.placeBlock rid r h (gang * r.gangb + j) cores with
    | none => none
    | some s => s.placeGang rid r h gang rest

/-- Places the record's next gang: one to place again first (R304), else the next of its claim. -/
def State.takeGang (s : State) (rid : Nat) (cores : List Nat) : Option State :=
  match s.launch? rid with
  | none => none
  | some r =>
    match r.hdr, r.again with
    | none, _ => none
    | some h, k :: rest =>
      (s.placeGang rid r h k (gangCores r cores)).map fun s => s.setLaunch rid fun r => { r with again := rest }
    | some h, [] =>
      if r.claimed then none
      else
        (s.placeGang rid r h (r.next / r.gangb) (gangCores r cores)).map fun s =>
          s.setLaunch rid fun r => { r with next := r.next + r.gangb }

def State.takeGangs (s : State) (rid : Nat) (cores : List Nat) : Nat → State
  | 0 => s
  | n + 1 =>
    match s.takeGang rid cores with
    | none => s
    | some s => s.takeGangs rid cores n

def Launch.prio (q : LQueue) (r : Launch) : Nat := min 7 (q.prio + r.boost)

/-- The arbiter's choice (R93): the highest priority, and within it the candidate after the last one granted. -/
def State.arbitrate (s : State) (stack : Nat) (cands : List (Nat × Launch)) : Option (Nat × Launch) :=
  let prio := fun (x : Nat × Launch) => x.2.prio (s.lqueue x.2.queue)
  let best := (cands.map prio).foldl max 0
  let top := sortBy (fun x y => x.2.queue < y.2.queue || (x.2.queue == y.2.queue && x.2.order < y.2.order))
    (cands.filter fun x => prio x == best)
  let after := fun (x : Nat × Launch) => match mapFind (8 * stack + best) s.granted with
    | none => true
    | some (q, o) => q < x.2.queue || (q == x.2.queue && o < x.2.order)
  (top.find? after).orElse fun _ => top.head?

/-- A candidate that is passed over ages (R93). -/
def Launch.passed (aging : Nat) (r : Launch) : Launch :=
  if aging ≤ r.rounds + 1 then { r with rounds := 0, boost := r.boost + 1 } else { r with rounds := r.rounds + 1 }

/-- Grants an offer to a launch. -/
def State.grant (s : State) (c : Nat) (cands : List (Nat × Launch)) (rid : Nat) (r : Launch) (cores : List Nat) : State :=
  let chunk := (s.lqueue r.queue).chunk
  let n := if r.gangb = 1 then chunk else max 1 (chunk / r.gangb)
  let level := 8 * (c / 32) + r.prio (s.lqueue r.queue)
  let s := { s with granted := mapInsert level (r.queue, r.order) s.granted }
  let s := cands.foldl (fun s (k, _) =>
    if k = rid then s else s.setLaunch k fun x => x.passed (s.lqueue x.queue).aging) s
  let s := s.setLaunch rid fun x => { x with rounds := 0, boost := 0 }
  let s := s.takeGangs rid cores n
  let s := if r.status = 2 then s.putStatus rid 3 else s
  if (s.launch? rid).any (·.claimed) then s.leaveQueue rid else s

/-- The slots of a migrating group on a core. -/
def State.migrantFits (s : State) (p c : Nat) (g : Group) : Option Slot :=
  let res := s.residents c
  let lanes := s.lanes p c
  if res.length < 64 ∧ s.tilesUsed c + s.savedTilesAt c g ≤ coreTiles lanes then
    findSlot c lanes (res.map (·.2.slot)) g.width g.vregs
  else none

/-- A group in MIGRATING is placed (R107). The L1 it comes to holds nothing from before, so that its loads are never
older than its own stores or than what it has seen (R279; notes/assumptions/45). -/
def State.placeMigrant (s : State) (p c gid : Nat) (x : Slot) : State :=
  let h := fun (g : Group) => ((s.block? g.bid).map (·.hdr)).getD {}
  (s.dropFills c fun _ => true).setGroup gid fun g =>
    { g with
      core := c, rows := x.rows, lane0 := x.lane0, residence := .resident, ilk := s.interlocked p c (h g), fetched := []
      threads := g.threads.map fun t => if t.st == .migrating then { t with st := .ready } else t }

/-- The handler's header passes its checks for a stack (R291). -/
def State.handlerHdr (s : State) (part : Nat) (stackSet : List Nat) : Option KHdr :=
  match s.readHdr part (s.part part).handler with
  | none => none
  | some h =>
    let cores := (List.range 128).filter fun c =>
      stackSet.contains (c / 32) && s.enabledCore part c && h.carries (coreEnc c) && emptyFits c (s.lanes part c) h 1
    if cores.isEmpty then none else some h

/-- A wave's lanes wait in the collector of a core's stack, and the core's class is admitted: its offer goes to no migrating
group and to no launch (R289, R291). -/
def State.waveWaits (s : State) (part core : Nat) : Bool :=
  let stack := core / 32
  match mapGet [] (s.part part).collect stack with
  | [] => false
  | lanes => (s.handlerHdr part [stack]).any fun h => h.carries (coreEnc core) && h.width ≤ lanes.length

/-- A core's offer goes to the groups in MIGRATING of its stack and class: to the first that it can place, or, evicting,
to the first of all (R93, R107). -/
def State.offerMigrants (s : State) (p core : Nat) (evict : Bool) (ms : List (Nat × Group)) : State :=
  match ms.find? fun (_, g) => (s.migrantFits p core g).isSome, ms.head? with
  | some (gid, g), _ =>
    match s.migrantFits p core g with
    | some x => s.placeMigrant p core gid x
    | none => s
  | none, none => s
  | none, some (gid, g) =>
    if evict then
      let (_, s) := s.makeRoom core fun s => (s.migrantFits p core g).isSome
      match s.migrantFits p core g with
      | some x => s.placeMigrant p core gid x
      | none => s
    else s

/-- CLAIM: a core with room offers a claim: handler waves go first, then groups in MIGRATING, then the arbiter's choice
among the launches that fit. `evict` says that the core evicts for what does not fit (R300). While a wave or a migrating
group of its stack that it could take waits, a core grants nothing that comes after (notes/assumptions/98). -/
def execClaim (core : Nat) (evict : Bool) (s : State) : Host.Outcome State Fault Refusal :=
  match (s.corePart core).filter fun p => !(s.part p).switching with
  | none => .next s
  | some p =>
    if s.waveWaits p core then .next s
    else
    match s.groups.filter fun (_, g) =>
        g.residence == .migrating && g.part == p && g.enc == coreEnc core && g.core / 32 == core / 32 with
    | m :: ms => .next (s.offerMigrants p core evict (m :: ms))
    | [] =>
      let open_ := s.launches.filter fun (_, r) => (s.offered p core r).isSome
      let fits := fun (s : State) (x : Nat × Launch) => match s.offered p core x.2 with
        | some (_, cores) => (s.takeGang x.1 cores).isSome
        | none => false
      let s := if evict && !(open_.any (fits s)) then
          match s.arbitrate (core / 32) open_ with
          | none => s
          | some (_, r) =>
            match s.offered p core r with
            | none => s
            | some (h, cores) =>
              let n := r.bthreads / h.width
              ((List.range cores.length).zip cores).foldl (fun s (i, c) =>
                (s.makeRoom c fun s => (s.shareFits p c h (shareOf n r.bcores (i % r.bcores)).length).isSome).2) s
        else s
      let cands := open_.filter (fits s)
      match s.arbitrate (core / 32) cands with
      | none => .next s
      | some (rid, r) =>
        match s.offered p core r with
        | none => .next s
        | some (_, cores) => .next (s.grant core cands rid r cores)

/-! ## Restoring (R194, R300) -/

def TState.unevict : TState → TState
  | .evicted w => w
  | t => t

/-- A saved bin entry goes back to its bin; a thread that finds no room goes on. -/
def State.rebin (s : State) (gid c : Nat) (b : Bin) : State :=
  match (s.core c).fileBin b.bid b.pc b.sort b.entries with
  | some k => s.setCore c fun _ => k
  | none => b.entries.foldl (fun s x => s.setThread gid x.who.2 fun t =>
      if t.st == .binned then { t with st := .ready } else t) s

/-- An evicted group stands on a core again. -/
def State.restoreOn (s : State) (gid c : Nat) (x : Slot) : State :=
  match s.group? gid with
  | none => s
  | some g =>
    let h := ((s.block? g.bid).map (·.hdr)).getD {}
    let s := if c = g.core then s else s.dropFills c fun _ => true
    let s := s.setGroup gid fun g =>
      { g with
        core := c, rows := x.rows, lane0 := x.lane0, residence := .resident, ilk := s.interlocked g.part c h, binned := []
        fetched := []
        threads := g.threads.map fun t => { t with st := t.st.unevict } }
    g.binned.foldl (fun s b => s.rebin gid c b) s

/-- The slots of an evicted group on a core. -/
def State.returnFits (s : State) (g : Group) (c : Nat) : Option Slot :=
  let res := s.residents c
  let lanes := s.lanes g.part c
  if res.length < 64 ∧ s.tilesUsed c + s.savedTilesAt c g ≤ coreTiles lanes then
    findSlot c lanes (res.map (·.2.slot)) g.width g.vregs
  else none

/-- No copy is in flight to or from the regions of blocks. -/
def State.copiesLanded (s : State) (bids : List Nat) : Bool :=
  s.copies.all fun (_, c) => bids.all fun b => !c.names b

/-- The gang of a group is quiesced: every group of it evicted, no copy in flight. -/
def State.quiesced (s : State) (bids : List Nat) : Bool :=
  (s.groups.all fun (_, g) => !bids.contains g.bid || g.residence == .evicted) && s.copiesLanded bids

def State.restoreAll (s : State) : List Nat → Option State
  | [] => some s
  | gid :: rest =>
    match s.group? gid with
    | none => s.restoreAll rest
    | some g =>
      match s.returnFits g g.core with
      | none => none
      | some x => (s.restoreOn gid g.core x).restoreAll rest

/-- The share slots of a block go from one core to another (R184, R194). -/
def State.moveShares (s : State) (bid from_ to_ : Nat) : State :=
  let mine := (s.core from_).shares.filter fun sh => sh.bid == bid
  if mine.isEmpty || from_ == to_ then s
  else
    (s.setCore from_ fun c => { c with shares := c.shares.filter fun sh => sh.bid != bid }).setCore to_ fun c =>
      { c with shares := c.shares ++ mine }

/-- A quiesced gang moves to another run of cores of its stack and class, its map rewritten; regions, tiles and share slots
go with it. -/
def State.moveGang (s : State) (bids : List Nat) (p first : Nat) : Option State :=
  let blocks := sortBy (fun x y => x.2.index < y.2.index) (s.blocks.filter fun (bid, _) => bids.contains bid)
  let n := (blocks.map fun (_, b) => b.cores.length).foldl (· + ·) 0
  let left := (blocks.flatMap fun (_, b) => b.cores).headD first
  match (s.run p first n).filter fun _ => first / 32 == left / 32 && coreEnc first == coreEnc left with
  | none => none
  | some cores =>
    let (moved, _) := blocks.foldl (fun (acc : List (Nat × List Nat) × List Nat) (bid, b) =>
      (acc.1 ++ [(bid, acc.2.take b.cores.length)], acc.2.drop b.cores.length)) ([], cores)
    let away := moved.foldl (fun s (bid, _) => s.setBlock bid fun b => { b with cores := [] }) s
    let room := moved.all fun (bid, cs) => cs.all fun c =>
      match s.block? bid with
      | none => false
      | some b =>
        let theirs := (away.core c).shares.filter fun sh => !bids.contains sh.bid
        let mine := (b.cores.zip cs).flatMap fun (from_, to_) =>
          if to_ = c then (s.core from_).shares.filter fun sh => sh.bid == bid else []
        poolFits (s.lanes p c) (away.spadUsed c + roundUp b.hdr.spad 4096) && theirs.length + mine.length ≤ 16
    if !room then none
    else
      let s := moved.foldl (fun s (bid, cs) =>
        let old := ((s.block? bid).map (·.cores)).getD []
        let s := s.setBlock bid fun b => { b with cores := cs }
        { s with groups := s.groups.map fun (k, g) =>
            if g.bid == bid && old[g.home]? == some g.core then (k, { g with core := cs.getD g.home g.core }) else (k, g) }) s
      let s := blocks.foldl (fun s (bid, b) =>
        let cs := ((s.block? bid).map (·.cores)).getD []
        (b.cores.zip cs).foldl (fun s (from_, to_) => s.moveShares bid from_ to_) s) s
      let s := moved.foldl (fun s (_, cs) => cs.foldl (fun s c => (s.dropFills c fun _ => true).l1Shrink c) s) s
      s.restoreAll ((s.groups.filter fun (_, g) => bids.contains g.bid).map (·.1))

/-- GROUP_RESTORE: an evicted group returns to the core it left when that core can place it; a quiesced gang that cannot
return to its own cores moves to the run that begins with `core`. -/
def execGroupRestore (gid core : Nat) (s : State) : Host.Outcome State Fault Refusal :=
  match s.group? gid with
  | none => .next s
  | some g =>
    if g.residence != .evicted || (s.part g.part).switching then .next s
    else if core = g.core then
      match s.returnFits g core with
      | some x => .next (s.restoreOn gid core x)
      | none => .next s
    else
      let bids := s.gangBlocks g.bid
      let all := (s.groups.filter fun (_, x) => bids.contains x.bid).map (·.1)
      if s.quiesced bids && (s.restoreAll all).isNone then
        match s.moveGang bids g.part core with
        | some s => .next s
        | none => .next s
      else .next s

/-! ## Handler waves (R289 to R291) -/

/-- A handler is refused: the lanes of the partition's collectors end with their own causes. -/
def State.refuseHandler (s : State) (part : Nat) : State :=
  let p := s.part part
  let lanes := p.collect.flatMap (·.2)
  let s := s.setPart part fun p => { p with handlerBad := true, flags := p.flags ||| 4, collect := [] }
  let s := s.logError part { kind := 8, addr := p.handler }
  lanes.foldl (fun s (gid, l) =>
    match s.group? gid with
    | none => s
    | some g =>
      match (g.thread? l).bind (·.trap) with
      | none => s
      | some i => s.gangKill g.bid g.core i.cause i.addr) s

/-- The handler's group on a core (R290). -/
def State.waveGroup (s : State) (bid part c : Nat) (h : KHdr) (x : Slot) (origins : List (Nat × Nat × Word)) : Group :=
  let ring := (s.part part).faultring
  let g := s.newGroup bid 0 0 part c h x true ring 262144
  let lane := fun l (t : Thread) => match origins[l]? with
    | some (gid, k, pen) => { t with origin := some (gid, k), pennant := pen }
    | none => { st := .exited }
  { g with
    handler := true
    threads := (List.range h.width).map fun l => lane l (newThread (h.entryAt (coreEnc c)))
    s := mapPut 0 2 (BitVec.ofNat 32 origins.length) g.s }

/-- HANDLER_WAVE_FORM: a stack's collector forms a wave of a partition's handler when it holds a wave's lanes, or its
oldest lane has aged; the wave is placed on a core of the stack that its header admits, which evicts for it. -/
def execHandlerWaveForm (stack part : Nat) (aged : Bool) (s : State) : Host.Outcome State Fault Refusal :=
  let lanes := mapGet [] (s.part part).collect stack
  if lanes.isEmpty || (s.part part).slicedOut then .next s
  else
    match s.handlerHdr part [stack] with
    | none => .next (s.refuseHandler part)
    | some h =>
      if lanes.length < h.width && !aged then .next s
      else
        let cores := (List.range 32).map (32 * stack + ·) |>.filter fun c => s.enabledCore part c && h.carries (coreEnc c)
        let fits := fun (s : State) c => (s.shareFits part c h 1).isSome
        let target := (cores.find? (fits s)).orElse fun _ => cores.find? fun c => (s.roomPlan c (fits · c)).isSome
        match target with
        | none => .next s
        | some c =>
          let (ok, s) := s.makeRoom c fun s => fits s c
          match ok, s.shareFits part c h 1 with
          | true, some (x :: _) =>
            let taken := lanes.take h.width
            let origins := taken.map fun (gid, l) => (gid, l, ((s.thread? gid l).map (·.pennant)).getD 0)
            let bid := mapFresh s.blocks
            let gid := mapFresh s.groups
            let b : Block :=
              { rid := none, part := part, index := 0, gangb := 1, hdr := h, cores := [c], groups := [gid]
                regions := [newRegion h], tiles := [newTiles h.tiles] }
            let g := s.waveGroup bid part c h x origins
            let s := { s with blocks := mapInsert bid b s.blocks, groups := mapInsert gid g s.groups }
            let s := s.setPart part fun p => { p with collect := mapPut [] stack (lanes.drop h.width) p.collect }
            let ring := (s.part part).faultring
            let sectors := taken.flatMap fun (gid, l) =>
              match ((s.thread? gid l).bind (·.trap)).bind (·.slot) with
              | none => []
              | some k =>
                match s.walk part (ring.toNat + 64 * k) with
                | none => []
                | some e => let pa := e.pa (ring.toNat + 64 * k); [pa / 32, pa / 32 + 1]
            .next (s.dropFills c fun k => sectors.contains k)
          | _, _ => .next s

end Sys2Proof.Machine
end

