-- ==== Sys2Proof/Machine/Migrate.lean ====
section
/-! DEFINITION. Equivalence points and migration (R105 to R109, R316). -/

namespace Sys2Proof.Machine

/-- An equivalence-map record: offsets of its point in both texts, and its entries as kind, Sazil-L code, Sazil-D code
(R105). -/
structure EqRecord where
  dpc : Word
  lpc : Word
  entries : List (Nat × Nat × Nat)
deriving DecidableEq, Repr

/-- Bytes of a kernel's maps, read as strong loads; the cause and address of the first byte that fails, cause 0 where an
engine owns it and the load waits (R206, R316). -/
def State.mapBytes (s : State) (part va : Nat) : Nat → Except (Nat × Nat) (List Byte)
  | 0 => .ok []
  | n + 1 =>
    match s.deviceAccess part va false with
    | .error c => .error (if 2 ^ 56 ≤ va then 6 else c, va)
    | .ok pa =>
      if s.placeBlocked (.mem pa) 1 then .error (0, va)
      else if s.poisoned pa 1 then .error (0x11, pa)
      else
        match State.mapBytes s part (va + 1) n with
        | .error e => .error e
        | .ok bs => .ok (s.byte pa :: bs)

def eqEntry (w : Nat) : Nat × Nat × Nat := (w / 2 ^ 28, w / 2 ^ 10 % 1024, w % 1024)

/-- The first record of a point id, from an offset on; none where there is no whole record (R316). A record of more than
4096 entries is taken as it stands: the manual gives the range and no consequence (notes/assumptions/99). -/
def State.findRecord (s : State) (part base len id : Nat) : Nat → Nat → Except (Nat × Nat) (Option EqRecord)
  | 0, _ => .ok none
  | fuel + 1, off =>
    if len < off + 16 then .ok none
    else
      match s.mapBytes part (base + off) 16 with
      | .error e => .error e
      | .ok bs =>
        let size := 16 + 4 * fieldNat bs 0xA 2
        if fieldNat bs 8 2 = id then
          if len < off + size then .ok none
          else
            match s.mapBytes part (base + off + 16) (size - 16) with
            | .error e => .error e
            | .ok es =>
              .ok (some { dpc := BitVec.ofNat 32 (fieldNat bs 0 4), lpc := BitVec.ofNat 32 (fieldNat bs 4 4)
                          entries := (List.range (es.length / 4)).map fun i => eqEntry (fieldNat es (4 * i) 4) })
        else s.findRecord part base len id fuel (off + size)

/-- Codes of a kind as (source, destination) for a move out of an encoding. -/
def EqRecord.codes (r : EqRecord) (from_ : Enc) (kind : Nat) : List (Nat × Nat) :=
  (r.entries.filter (·.1 == kind)).map fun (_, l, d) => match from_ with
    | .d => (d, l)
    | .l => (l, d)

def mapped (cs : List (Nat × Nat)) (x : Nat) : Option Nat := (cs.find? (·.1 == x)).map (·.2)

def noRepeats : List Nat → Bool
  | [] => true
  | x :: xs => !xs.contains x && noRepeats xs

/-- The number of codes of a kind in an encoding (R40, R106). -/
def kindCodes (h : KHdr) (e : Enc) : Nat → Nat
  | 0 => h.vregs e
  | 1 => 256
  | 2 => 16
  | _ => 8


/-- An index register's run is mapped onto a consecutive run. -/
def runMapped (vecs : List (Nat × Nat)) (x : Word) : Bool :=
  let b := indexBase x
  match mapped vecs b with
  | none => indexCount x == 0
  | some m => (List.range (indexCount x)).all fun i => mapped vecs (b + i) == some (m + i)

def other : Enc → Enc
  | .d => .l
  | .l => .d

/-- R106. -/
def EqRecord.valid (r : EqRecord) (h : KHdr) (e : Enc) (threads : List Thread) : Bool :=
  let kinds := List.range 6
  r.entries.all (·.1 < 6)
    && (kinds.all fun k =>
      let cs := r.codes e k
      noRepeats (cs.map (·.1)) && noRepeats (cs.map (·.2))
        && cs.all fun (a, b) => a < kindCodes h e k && b < kindCodes h (other e) k)
    && threads.all fun t => (r.codes e 3).all fun (x, _) => runMapped (r.codes e 0) (mapGet 0 t.x x)

/-- A map of registers moved. -/
def moveMap {α : Type} [DecidableEq α] (dflt : α) (cs : List (Nat × Nat)) (m : SMap α) : SMap α :=
  cs.foldl (fun acc (a, b) => mapPut dflt b (mapGet dflt m a) acc) []

def moveBits (cs : List (Nat × Nat)) (p : BitVec 8) : BitVec 8 :=
  cs.foldl (fun acc (a, b) => setBit8 acc b (getBit8 p a)) 0

/-- An index register with its array's base moved. -/
def moveIndex (vecs : List (Nat × Nat)) (x : Word) : Word :=
  match indexCount x, mapped vecs (indexBase x) with
  | 0, _ => x
  | _, none => x
  | _, some m => (BitVec.ofNat 2 (x.toNat / 2 ^ 30) ++ BitVec.ofNat 10 m ++ x.extractLsb' 0 20 : BitVec 32)

def Thread.move (t : Thread) (r : EqRecord) (e : Enc) : Thread :=
  let vecs := r.codes e 0
  { t with
    v := moveMap 0 vecs t.v
    x := (moveMap 0 (r.codes e 3) t.x).map fun (k, x) => (k, moveIndex vecs x)
    p := moveBits (r.codes e 4) t.p
    fut := vecs.foldl (fun acc (a, b) => match mapFind a t.fut with
      | some f => mapInsert b f acc
      | none => acc) []
    vhaz := [], phaz := [], xhaz := [] }

/-- The group's registers in the other encoding (R107). -/
def Group.move (g : Group) (r : EqRecord) (h : KHdr) : Group :=
  let e := g.enc
  { g with
    enc := other e, vregs := h.vregs (other e), residence := .migrating, pendMig := none, meld := none, fetched := []
    s := moveMap 0 (r.codes e 1) g.s
    a := moveMap {} (r.codes e 2) g.a
    q := moveBits (r.codes e 5) g.q
    threads := g.threads.map fun t => if t.st.isExited then t else t.move r e }

def Group.armed (g : Group) : Bool := g.j.any fun (_, m) => m.members != 0

def Thread.futurePending (t : Thread) : Bool := t.fut.any fun (_, f) => match f with
  | .pending _ _ _ => true
  | .faulted => false

/-- The partition has an enabled core of a class in a stack. -/
def State.classCore (s : State) (p stack : Nat) (e : Enc) : Bool :=
  (List.range 32).any fun i => coreEnc (32 * stack + i) == e && s.enabledCore p (32 * stack + i)

/-- A migration waits for the group's stores and results. -/
def eqptWaits : Waits := fun s gid fid =>
  match s.group? gid with
  | none => (true, s)
  | some g =>
    let whole := (g.fragLanes fid).length == g.live.length
    if !g.region && whole && g.pendMig.isSome then
      let (ok, s) := s.drainGroup g.core gid
      (ok && s.quiet gid g.live, s)
    else (true, s)

/-- Under the migration policy the scheduler may ask for a migration at an equivalence point (R109). -/
def eqptPolicy : Waits := fun s gid _ =>
  match s.group? gid with
  | none => (true, s)
  | some g =>
    let both := (s.block? g.bid).any fun b => b.hdr.encD && b.hdr.encL
    if (s.part g.part).migpol && both && !g.region && g.pendMig.isNone then
      let (k, s) := s.pick 2
      (true, if k = 1 then s.setGroup gid fun g => { g with pendMig := some (other g.enc) } else s)
    else (true, s)

def eqptFragment (f : I16Form) : State → Nat → Nat → Option State :=
  groupFragment { pred := f.pred, forbidden := true } (fun s gid _ g lanes =>
    match s.block? g.bid with
    | none => .done s (.next true)
    | some b =>
      let h := b.hdr
      let point := fun (d l : Word) (s : State) => s.setGroup gid fun g =>
        lanes.foldl (fun g k => g.setThread k fun t => { t with eq := some (f.imm.toNat, d, l) }) g
      if !(h.encD && h.encL) then .done (point 0xFFFFFFFF 0xFFFFFFFF s) (.next true)
      else
        let off := g.pcOf lanes - h.text g.enc
        let maps := if h.eqmap = 0 then 0 else h.eqlen
        match s.findRecord g.part h.eqmap.toNat maps f.imm.toNat (maps / 16 + 1) 0 with
        | .error (0, _) => .hold
        | .error (c, a) => .raise { cause := c, addr := BitVec.ofNat 64 a }
        | .ok none => .raise { cause := 0x15 }
        | .ok (some r) =>
          let here := match g.enc with
            | .d => r.dpc
            | .l => r.lpc
          let there := match g.enc with
            | .d => r.lpc
            | .l => r.dpc
          let ts := lanes.filterMap g.thread?
          if here.setWidth 64 != off || !r.valid h g.enc ts || g.armed
              || ts.any fun t => t.futurePending || !t.rstk.isEmpty then .raise { cause := 0x15 }
          else
            let s := point r.dpc r.lpc s
            match g.pendMig with
            | none => .done s (.next true)
            | some e =>
              if lanes.length != g.live.length then .done s (.next true)
              else if e == g.enc || !s.classCore g.part (g.core / 32) e then
                .done (s.setGroup gid fun g => { g with pendMig := none }) (.next true)
              else if !alignedFor e (h.text e + there.setWidth 64 + 8) then
                .raise { cause := 8, addr := h.text e + there.setWidth 64 + 8 }
              else
                let s := s.setCore g.core (·.dropGroup gid)
                .done (s.setGroup gid (·.move r h)) (.migrate (h.text e + there.setWidth 64 + 8)))

def execEqpt (f : I16Form) (s : State) : Host.Outcome State Fault Refusal :=
  issueAfter (fun s gid fid => eqptWaits (eqptPolicy s gid fid).2 gid fid) (eqptFragment f) s

/-- MIGRATE (R108). -/
def execMigrate (f : RForm) (s : State) : Host.Outcome State Fault Refusal :=
  let target := if f.c = 0 then Enc.l else Enc.d
  issue (groupFragment { pred := f.pred, forbidden := true, stall := f.stall.toNat } (fun s gid _ g _ =>
    let both := (s.block? g.bid).any fun b => b.hdr.encD && b.hdr.encL
    if target = g.enc then .done (s.setGroup gid fun g => { g with pendMig := none }) (.next false)
    else if both then .done (s.setGroup gid fun g => { g with pendMig := some target }) (.next false)
    else .raise { cause := 0x15 })) s

end Sys2Proof.Machine
end

