-- ==== Sys2Proof/Machine/Bundles.lean ====
section
/-! DEFINITION. The front end's own events: bundle formation and wake-ups (R94, R95, R103), bin hoists (R96), sorting
(R98), and callee-queue drains (R120). -/

namespace Sys2Proof.Machine

/-! ## Wake-ups (R103) -/

/-- The thread's event has occurred, for the parks whose instruction then issues again or goes on. -/
def State.eventOf (s : State) (g : Group) (on : Park) : Bool :=
  match on with
  | .lines bid idx ls =>
    match s.region? bid idx with
    | none => true
    | some r => !(ls.any fun k => r.owed.any fun (line, _) => line == k)
  | .future c k n =>
    !((s.core c).futures.contains k && mapGet 0 (s.core c).gens k == n)
  | .launchSpace q => (s.lqueue q).records.length < 256
  | .engineSpace c => ((s.copies.filter fun (_, x) => x.core == c).length) < 32
  | .futureSpace c => (s.core c).futures.length < 512
  | .shareSlot c => (s.core c).shares.length < 16
  | .shareWhole c bid n =>
    ((s.core c).shares.find? fun sh => sh.bid == bid && sh.name == n).all fun sh =>
      sh.quarters.length == 4 && sh.quarters.all fun q => match q with
        | none => false
        | some (gid, _) => (s.group? gid).any (·.residence == .resident)
  | .producer n => g.producers.contains n || g.producers.length < 16
  | .children rs => rs.all s.childFinal
  | _ => false

/-- Wakes the threads of a core's groups whose events have occurred; a completed GRIDWAIT empties the child set of final
grids (R100). -/
def State.wakeGroup (s : State) (gid : Nat) : State :=
  match s.group? gid with
  | none => s
  | some g =>
    let due := g.lanesWhere fun t => match t.st.parkedOn with
      | some p => s.eventOf g p
      | none => false
    let done := due.flatMap fun l => match (g.thread? l).bind (·.st.parkedOn) with
      | some (.children rs) => rs
      | _ => []
    if due.isEmpty then s
    else s.setGroup gid fun g =>
      { g.wake due with children := g.children.filter fun r => !(done.contains r && s.childFinal r) }

def State.wakeCore (s : State) (c : Nat) : State :=
  (s.groups.filter fun (_, g) => g.core == c).foldl (fun s (gid, _) => s.wakeGroup gid) s

/-! ## Forming bundles (R94, R95) -/

/-- Fragments of one group that stand at one PC merge (R94, R110). -/
def Group.mergeAll (g : Group) : Group :=
  let ls := g.lanesWhere fun t => t.st.issuable
  let pc := fun l => ((g.thread? l).map (·.pc)).getD 0
  (classes pc ls).foldl (fun g c => g.mergeLanes c.2) g

/-- The issuable fragments of a core's resident groups, by group. -/
def State.fragments (s : State) (c : Nat) : List (Nat × Nat) :=
  (s.residents c).flatMap fun (gid, g) =>
    (classes (fun l => ((g.thread? l).map (·.frag)).getD 0) (g.lanesWhere fun t => t.st.issuable)).map fun x => (gid, x.1)

/-- Two groups may share a bundle: one launch, narrower than the core, neither with 16-lane semantics, on different
lanes (R94, R318). -/
def State.packs (s : State) (c : Nat) (x y : Nat × Nat) : Bool :=
  match s.group? x.1, s.group? y.1 with
  | some g, some h =>
    let n := s.lanes g.part c
    x.1 != y.1 && g.width < n && h.width < n && !g.c16 && !h.c16 && g.enc == h.enc
      && (s.launchOf g).map (·.1) == (s.launchOf h).map (·.1) && (s.launchOf g).isSome
      && g.fragPc x.2 == h.fragPc y.2 && g.lane0 != h.lane0
  | _, _ => false

/-- Ascending (block, group) order (R94). -/
def State.fragBefore (s : State) (x y : Nat × Nat) : Bool :=
  let key : Nat → Nat × Nat := fun gid => match s.group? gid with
    | some g => (((s.block? g.bid).map (·.index)).getD 0, g.index)
    | none => (0, 0)
  let (a, i) := key x.1
  let (b, j) := key y.1
  a < b || (a == b && i < j)

/-- Packs fragments into bundles, each in (block, group) order. -/
def State.pack (s : State) (c : Nat) (bs : List Bundle) (x : Nat × Nat) : List Bundle :=
  match bs.findIdx? fun b => !b.frags.isEmpty && b.frags.all fun y => s.packs c y x with
  | some i => listUpdate i (fun b => { b with frags := insertBy s.fragBefore x b.frags }) bs
  | none => bs ++ [{ frags := [x] }]

def Bundle.holds (b : Bundle) (x : Nat × Nat) : Bool := b.frags.contains x

/-- When a fragment became READY (R95). -/
def State.readyTime (s : State) (x : Nat × Nat) : Nat :=
  match s.group? x.1 with
  | none => 0
  | some g => ((g.fragLanes x.2).filterMap fun l => (g.thread? l).bind (·.readyAt)).foldl min s.seq

/-- A bundle of the pending set without an unresolved stall: it met none, or one of the results that its groups were
waiting for is there (R95; notes/assumptions/92). -/
def State.eligible (s : State) (b : Bundle) : Bool :=
  !b.stalled || b.waits.isEmpty || b.waits.any fun p => (mapFind p s.pends).isNone

/-- A bundle of the active set that has met a stall or yielded gives way to the oldest eligible one that is pending
(R95). -/
def Core.exchange (c : Core) (ok : Bundle → Bool) : Core :=
  match c.pending.find? ok, c.active.find? (·.stalled) with
  | some p, some b =>
    { c with active := c.active.filter (fun x => x != b) ++ [{ p with stalled := false, waits := [] }]
             pending := c.pending.filter (fun x => x != p) ++ [b] }
  | _, _ => c

/-- Eligible bundles of the pending set enter the active set while it has room. -/
def Core.promote (c : Core) (ok : Bundle → Bool) : Core :=
  let new := (c.pending.filter ok).take (8 - c.active.length)
  { c with active := c.active ++ new.map fun b => { b with stalled := false, waits := [] }
           pending := c.pending.filter fun b => !new.contains b }

/-- One pass of a core's front end over its fragments: those that no bundle holds enter the pending set in the order they
became READY. -/
def State.formBundles (s : State) (c : Nat) : State :=
  let s := s.wakeCore c
  let merge := fun (x : Nat × Group) =>
    if x.2.core == c && x.2.residence == .resident then (x.1, x.2.mergeAll) else x
  let s := { s with groups := s.groups.map merge }
  let live := s.fragments c
  let cut := fun (b : Bundle) => { b with frags := b.frags.filter live.contains }
  let full := fun (b : Bundle) => !b.frags.isEmpty
  let s := s.setCore c fun k =>
    { k with active := (k.active.map cut).filter full, pending := (k.pending.map cut).filter full }
  let k := s.core c
  let loose := live.filter fun x => !((k.active ++ k.pending).any (·.holds x))
  let new := (sortBy (fun x y => s.readyTime x < s.readyTime y) loose).foldl (s.pack c) []
  let s := s.setCore c fun k =>
    ((({ k with pending := k.pending ++ new.take (64 - k.pending.length) } : Core).exchange s.eligible).promote s.eligible)
  s.markCore c

/-- BUNDLE_FORMATION: a core's front end wakes, merges, packs and exchanges. -/
def execBundleFormation (core : Nat) (s : State) : Host.Outcome State Fault Refusal :=
  if core < 128 then .next (s.formBundles core) else .next s

/-! ## Draws from bins and callee queues (R96, R120) -/

/-- The lane a thread lives in. -/
def State.homeLane (s : State) (c : Nat) (x : Nat × Nat) : Nat :=
  match s.group? x.1 with
  | some g => physLane g (s.lanes g.part c) x.2
  | none => 0

/-- The entries that a draw may take: not those of HALTED threads, which stay filed until they resume (R103). -/
def State.drawable (s : State) (xs : List Entry) : List Entry :=
  xs.filter fun x => !(s.thread? x.who.1 x.who.2).any (·.st.isHalted)

/-- For each lane the oldest entry that lives in it; with 16-lane semantics those of one group alone (R96, R318). -/
def State.drawn (s : State) (c : Nat) (xs : List Entry) : List (Nat × Nat) :=
  let xs := sortBy (fun x y => x.since < y.since) xs
  let xs : List Entry := match xs with
    | [] => []
    | x :: _ => if (s.group? x.who.1).any (·.c16) then xs.filter (·.who.1 == x.who.1) else xs
  xs.foldl (fun acc x => if acc.any fun y => s.homeLane c y == s.homeLane c x.who then acc else acc ++ [x.who]) []

/-- Drawn threads become READY at their PC, one fragment of each group, in one bundle. -/
def State.drawBundle (s : State) (c : Nat) (xs : List (Nat × Nat)) : State :=
  let gids := (classes (fun gid => gid) (xs.map (·.1))).map (·.1)
  let ready := fun (t : Thread) => { t with st := match t.st with
    | .binned => .ready
    | st => st.woken }
  let s := gids.foldl (fun s gid => s.setGroup gid fun g =>
    let ls := (List.range g.threads.length).filter fun l => xs.contains (gid, l)
    (ls.foldl (fun g l => g.setThread l ready) g).mergeLanes ls) s
  let frags := gids.filterMap fun gid =>
    match s.group? gid, xs.find? (·.1 == gid) with
    | some g, some x => (g.thread? x.2).map fun t => (gid, t.frag)
    | _, _ => none
  let b : Bundle := { frags := sortBy s.fragBefore frags }
  s.setCore c fun k => if k.pending.length < 64 then { k with pending := k.pending ++ [b] } else k

/-- How many entries make a bin or a queue due: a core's lanes, or 16 where a thread has 16-lane semantics (R318). -/
def State.dueAt (s : State) (c : Nat) (xs : List Entry) : Nat :=
  match xs.head?.bind fun x => s.group? x.who.1 with
  | some g => if g.c16 then 16 else s.lanes g.part c
  | none => 16

/-- The arrival of the oldest of some entries. -/
def oldestOf (xs : List Entry) : Nat := (xs.map (·.since)).foldl min ((xs.head?.map (·.since)).getD 0)

/-- Which of several lists of drawable entries goes next (R96, R120): list k goes as an aged one if none is older, and as
a full one if it is due and none is fuller. -/
def State.goesNext (s : State) (c : Nat) (aged : Bool) (all : List (List Entry)) (xs : List Entry) : Bool :=
  let others := all.filter fun y => !y.isEmpty
  !xs.isEmpty
    && if aged then others.all fun y => oldestOf xs ≤ oldestOf y
      else s.dueAt c xs ≤ xs.length && others.all fun y => y.length ≤ xs.length || y.length < s.dueAt c y

/-- What a hoist may take from a bin: from a REORDER bin the threads that have been sorted (R98). -/
def State.hoistable (s : State) (b : Bin) : List Entry :=
  s.drawable (if b.sort then b.entries.filter (·.sorted) else b.entries)

/-- BIN_HOIST: a bundle is drawn from a bin: the oldest aged one first, then the fullest full one; sorted threads await
no other condition. -/
def execBinHoist (core bin : Nat) (aged : Bool) (s : State) : Host.Outcome State Fault Refusal :=
  let bins := (s.core core).bins
  match bins[bin]? with
  | none => .next s
  | some b =>
    let mine := s.hoistable b
    if !((b.sort && !mine.isEmpty) || s.goesNext core aged (bins.map s.hoistable) mine) then .next s
    else
      let xs := s.drawn core mine
      let left := { b with entries := b.entries.filter fun x => !xs.contains x.who }
      let s := s.setCore core fun k =>
        { k with bins := (listUpdate bin (fun _ => left) k.bins).filter fun b => !b.entries.isEmpty }
      .next (s.drawBundle core xs)

/-- CALLEE_QUEUE_DRAIN: as a bin's hoist, for a callee queue. -/
def execCalleeQueueDrain (core queue : Nat) (aged : Bool) (s : State) : Host.Outcome State Fault Refusal :=
  let queues := (s.core core).callees
  match queues[queue]? with
  | none => .next s
  | some q =>
    let mine := s.drawable q.entries
    if s.goesNext core aged (queues.map fun q => s.drawable q.entries) mine then
      let xs := s.drawn core mine
      let left := { q with entries := q.entries.filter fun x => !xs.contains x.who }
      let s := s.setCore core fun k =>
        { k with callees := (listUpdate queue (fun _ => left) k.callees).filter fun q => !q.entries.isEmpty }
      .next (s.drawBundle core xs)
    else .next s

/-! ## Sorting (R98) -/

/-- A thread's slot as (row, lane). -/
def State.slotOf (s : State) (c : Nat) (x : Nat × Nat) : Nat × Nat :=
  match s.group? x.1 with
  | none => (0, 0)
  | some g =>
    let n := s.lanes g.part c
    (g.rows.getD (if n ≤ g.width then x.2 / n else 0) 0, physLane g n x.2)

/-- A sorted thread as it stands in its new slot, BINNED until its hoist: registers outside its live mask read zero. -/
def Thread.sorted (t : Thread) (live : List Word) (at_ : Thread) : Thread :=
  let keep := liveRegs live
  { t with
    frag := at_.frag, path := 0
    v := t.v.filter fun (r, _) => keep.contains r
    fut := t.fut.filter fun (r, _) => keep.contains r }

/-- The queues on which a group's threads are registered. -/
def Group.registered (g : Group) : Group :=
  { g with producers := (g.threads.flatMap (·.producer)).foldl (fun acc n => setAdd n acc) [] }

/-- A sort moves threads: the thread that stands at each slot, with its entry, and its state there. -/
def State.sortMoves (s : State) (core : Nat) (xs : List Entry) : List (Entry × (Nat × Nat) × Thread) :=
  let before := fun (x y : Entry) =>
    let (r, l) := s.slotOf core x.who
    let (q, m) := s.slotOf core y.who
    r < q || (r == q && l < m)
  let slots := sortBy before xs
  let order := sortBy (fun x y => x.key.toNat < y.key.toNat) slots
  (slots.zip order).filterMap fun (to_, x) =>
    match s.thread? x.who.1 x.who.2, s.thread? to_.who.1 to_.who.2 with
    | some t, some at_ => some (x, to_.who, t.sorted x.live at_)
    | _, _ => none

/-- REORDER_SORT: a sort of the arrived threads of one block on a core, when all of them have arrived or the oldest has
aged. A HALTED thread keeps its slot and its entry until a later sort (R103; notes/assumptions/93). -/
def execReorderSort (core bin : Nat) (aged : Bool) (s : State) : Host.Outcome State Fault Refusal :=
  match (s.core core).bins[bin]? with
  | none => .next s
  | some b =>
    let all := (s.groups.filter fun (_, g) => g.bid == b.bid && g.core == core).flatMap fun (gid, g) =>
      g.live.map fun l => (gid, l)
    let ready := s.drawable (b.entries.filter fun x => !x.sorted)
    if !b.sort || ready.isEmpty || !(aged || all.all fun x => b.entries.any (·.who == x)) then .next s
    else
      let moved := s.sortMoves core ready
      let rest := b.entries.filter fun x => !ready.contains x
      let placed := moved.map fun (x, to_, _) => { x with who := to_, sorted := true }
      let s := moved.foldl (fun s (_, to_, t) => s.setThread to_.1 to_.2 fun _ => t) s
      let gids := (classes (fun gid => gid) (ready.map (·.who.1))).map (·.1)
      let s := gids.foldl (fun s gid => s.setGroup gid fun g => g.registered) s
      let b := { b with entries := rest ++ placed }
      .next (s.setCore core fun k => { k with bins := listUpdate bin (fun _ => b) k.bins })

end Sys2Proof.Machine
end

