-- ==== Sys2Proof/Machine/Tiles.lean ====
section
/-! DEFINITION. Tiles and matrix operations (R173 to R190): the TILE and UTILE classes. -/

namespace Sys2Proof.Machine

/-! ## Tiles of a group's block (R173, R174) -/

/-- A tile that the block has on the group's core: a migrated group names none. -/
def State.tile? (s : State) (g : Group) (n : Nat) : Option Tile :=
  match s.block? g.bid with
  | none => none
  | some b => if b.cores[g.home]? == some g.core then mapFind n (b.tiles.getD g.home []) else none

/-- An operation that writes the tile is still on its way. -/
def State.tileBusy (s : State) (g : Group) (n : Nat) : Bool :=
  s.pends.any fun (_, p) => match p.dest with
    | .tile t _ => t == n && (s.group? p.gid).any fun x => x.bid == g.bid && x.home == g.home
    | _ => false

def State.putTile (s : State) (g : Group) (n : Nat) (t : Tile) : State := s.setTile g.bid g.home n fun _ => t

def tileAt (t : Tile) (i j : Nat) : Nat := (mapGet 0 t (64 * i + j)).toNat
def tilePut (t : Tile) (i j x : Nat) : Tile := mapPut 0 (64 * i + j) (BitVec.ofNat 32 x) t

/-! ## Operands (R176, R177, R181, R182) -/

/-- Registers of an A-fragment, of a B quarter, of an A-scale run, and of a slice run, by group width. -/
def aRun (w : Nat) : Nat := if w ≤ 64 then 1024 / w else 8
def quarterRun (w : Nat) : Nat := if w ≤ 64 then 256 / w else 2
def rowRun (w : Nat) : Nat := if w ≤ 64 then 64 / w else 1

/-- What a lane brings to a product: its A registers and its A-scale registers. -/
structure MatLane where
  lane : Nat
  a : List Word
  scales : List Word
deriving DecidableEq, Repr

/-- A row of A: its index, its 512 bits, and its scale for each sub-block. -/
structure MatRow where
  index : Nat
  bits : Nat
  scales : List Nat
deriving DecidableEq, Repr

/-- Byte u of a scale register. -/
def scaleByte (w : Word) (u : Nat) : Nat := elem 8 u w.toNat

/-- The rows that the lanes hold. Half-rows of absent lanes are zero. -/
def rowsOf (w : Nat) (xs : List MatLane) : List MatRow :=
  if w ≤ 64 then
    xs.flatMap fun x => (List.range (64 / w)).map fun r =>
      { index := 64 / w * x.lane + r, bits := wordsNat ((x.a.drop (16 * r)).take 16)
        scales := (List.range 4).map (scaleByte (x.scales.getD r 0)) }
  else
    ((List.range 64).filter fun i => xs.any fun x => x.lane % 64 == i).map fun i =>
      let half := fun l => xs.find? fun x => x.lane == l
      let bits := fun l => ((half l).map fun x => wordsNat x.a).getD 0
      let scale := fun l u => ((half l).map fun x => scaleByte (x.scales.getD 0 0) u).getD 127
      { index := i, bits := bits i + 2 ^ 256 * bits (i + 64)
        scales := [scale i 0, scale i 1, scale (i + 64) 2, scale (i + 64) 3] }

/-- Scales of an 8-bit row of a 128-lane group: its second sub-block lies in the second half-row's lane. -/
def rowScale (w b : Nat) (xs : List MatLane) (r : MatRow) (u : Nat) : Nat :=
  if w ≤ 64 ∨ b = 4 then r.scales.getD u 127
  else
    match xs.find? fun x => x.lane == r.index + 64 * u with
    | some x => scaleByte (x.scales.getD 0 0) u
    | none => 127

/-- B: its 64 columns of 512 bits, with the scales of each column. -/
structure MatB where
  columns : List Nat
  scales : List Word := []
  /-- From a share: the issuing group's own quarters and their first registers. -/
  quarters : List (Nat × Nat) := []
deriving DecidableEq, Repr

def columnsOf (bs : List Byte) : List Nat := (List.range 64).map fun j => leNat ((bs.drop (64 * j)).take 64)

/-- A quarter as a member's lanes hold it: the words of each lane's run (R184). An exited lane reads zero. -/
def quarterWords (g : Group) (a : Nat) : List (Nat × List Word) :=
  (List.range g.width).map fun l =>
    (l, (List.range (quarterRun g.width)).map fun i => match g.thread? l with
      | some t => if t.st.isExited then 0 else mapGet 0 t.v (a + i)
      | none => 0)

/-- A quarter of column j, from the words of a w-lane member's lanes (R184). -/
def quarterColumn (w : Nat) (ls : List (Nat × List Word)) (j : Nat) : Nat :=
  let run := fun l i n => wordsNat ((((ls.find? (·.1 == l)).map (·.2)).getD []).drop i |>.take n)
  if w ≤ 64 then run (j % w) (4 * (j / w)) 4 else run j 0 2 + 2 ^ 64 * run (j + 64) 0 2

/-- B's columns with one quarter as the lanes of a w-lane member hold it. -/
def withQuarter (w q : Nat) (ls : List (Nat × List Word)) (cols : List Nat) : List Nat :=
  (List.range 64).map fun j =>
    let c := cols.getD j 0
    packElems 128 ((List.range 4).map fun k => if k = q then quarterColumn w ls j else elem 128 k c)

/-- A group's own writes to its quarter that a scoreboard makes the product wait for (R131, R185). -/
def Group.quarterDue (g : Group) (a : Nat) : Bool :=
  g.ilk && g.threads.any fun t => !t.st.isExited && t.vtag.any fun (r, _) => a ≤ r && r < a + quarterRun g.width

/-- The B operand of a product, or what stops every lane. -/
def State.matB (s : State) (gid : Nat) (g : Group) (b : Nat) (scaled : Bool) : Except Stop MatB :=
  if 0x80 ≤ b then
    let n := b - 0x80
    match (s.core g.core).shares.find? fun sh => sh.bid == g.bid && sh.name == n with
    | none => .error (Stop.cause 0x0E)
    | some sh =>
      let mine := (sh.quarters.zip [0, 1, 2, 3]).filterMap fun (x, q) =>
        (x.filter fun y => y.1 == gid).map fun y => (q, y.2)
      if mine.isEmpty then .error (Stop.cause 0x0E)
      else if mine.any fun (_, a) => g.quarterDue a then .error .hold
      else
        let whole := sh.quarters.mapM fun q => q.bind fun (gid, a) =>
          ((s.group? gid).filter fun x => x.residence == .resident).map fun x => (x, a)
        match whole with
        | none => .error (.park (.shareWhole g.core g.bid n))
        | some qs =>
          .ok { columns := (List.range 64).map fun j =>
                  packElems 128 (qs.map fun (x, a) => quarterColumn x.width (quarterWords x a) j)
                quarters := mine }
  else
    match readA g b with
    | .error e => .error e
    | .ok a =>
      let ea := a.pointer
      let n := if scaled then 4352 else 4096
      match s.checkSpad g a [1] .read ea n 128 with
      | .error c => .error (Stop.causeAt c ea)
      | .ok none => .ok { columns := [] }
      | .ok (some p) =>
        match s.lacking p n with
        | some on => .error (.park on)
        | none =>
          if s.placePoisoned p n then .error (Stop.causeAt 0x11 p.address)
          else if s.ownPending g.core gid p n then .error .hold
          else
            let bs := s.placeBytes p n
            .ok { columns := columnsOf bs, scales := if scaled then bytesWords 64 (bs.drop 4096) else [] }

/-- MMAO's outlier list: row, index and value of each entry, or what stops every lane. -/
def State.outliers (s : State) (g : Group) (c : Nat) : Except Stop (List (Nat × Nat × Nat)) :=
  match readUnis g [(c, false), (c + 1, false)] with
  | .error e => .error e
  | .ok xs =>
    let n := xs.getD 0 0
    let o := xs.getD 1 0
    let addr := BitVec.ofNat 64 o
    if 4096 < n ∨ s.spadSize g < o + 4 * n then .error (Stop.causeAt 4 addr)
    else if o % 4 ≠ 0 then .error (Stop.causeAt 8 addr)
    else
      let p : Place := .spad g.bid g.home o
      match s.lacking p (4 * n) with
      | some on => .error (.park on)
      | none =>
        if s.placePoisoned p (4 * n) then .error (Stop.causeAt 0x11 addr)
        else
          .ok ((bytesWords n (s.placeBytes p (4 * n))).map fun w =>
            (w.toNat / 2 ^ 26, w.toNat / 2 ^ 16 % 1024, w.toNat % 2 ^ 16))

/-! ## Products (R79, R80, R179, R181, R182) -/

/-- The k indices of a type. -/
def matK (ty : Nat) : Nat := 512 / tyWidth ty

/-- One element of the accumulator with its row and column. `sa` and `sb` are the scales of sub-block u. -/
def matElem (ty c row col : Nat) (scaled : Bool) (sa sb : Nat → Nat) : Nat :=
  let w := tyWidth ty
  let ks := List.range (matK ty)
  if isIntTy ty then
    let v := fun x q => toInt (tySigned ty) w (elem w q x)
    wrapTo 32 (ks.foldl (fun r q => r + v row q * v col q) (toInt true 32 c))
  else
    let prod := fun q =>
      let p := FV.mul (elemValue ty (elem w q row)) (elemValue ty (elem w q col))
      if scaled then
        let a := sa (q / 32)
        let b := sb (q / 32)
        if a = 255 ∨ b = 255 then .nan else p.scale ((a : Int) + (b : Int) - 254)
      else p
    Fmt.fp32.round .rne false (FV.sum false (Fmt.fp32.value c :: ks.map prod))

/-- One outlier entry into a row. -/
def outlierRow (ty : Nat) (b : MatB) (t : Tile) (e : Nat × Nat × Nat) : Tile :=
  let (i, k, h) := e
  (List.range 64).foldl (fun t j =>
    let p := FV.mul (Fmt.fp16.value h) (elemValue ty (elem (tyWidth ty) k (b.columns.getD j 0)))
    tilePut t i j (Fmt.fp32.round .rne false (FV.sum false [Fmt.fp32.value (tileAt t i j), p]))) t

/-- The tile after a product of the rows held, and after the entries of held rows. -/
def matTile (ty w : Nat) (xs : List MatLane) (b : MatB) (scaled : Bool) (es : List (Nat × Nat × Nat)) (t : Tile) : Tile :=
  let rows := rowsOf w xs
  let t := rows.foldl (fun t r =>
    (List.range 64).foldl (fun t j =>
      let sa := rowScale w (tyWidth ty) xs r
      let sb := fun u => scaleByte (b.scales.getD j 0) u
      tilePut t r.index j (matElem ty (tileAt t r.index j) r.bits (b.columns.getD j 0) scaled sa sb)) t) t
  (es.filter fun (i, k, _) => k < matK ty && rows.any (·.index == i)).foldl (outlierRow ty b) t

inductive MatOp where
  | plain
  | outlier
  | scaled
deriving DecidableEq, Repr

/-- The register runs that a product's lanes name: the A-fragment, and MMAS's A scales. -/
def matRuns (f : RForm) (op : MatOp) (w : Nat) : List (Nat × Nat) :=
  (f.a.toNat, aRun w) :: if op = .scaled then [(f.c.toNat, rowRun w)] else []

/-- A lane's registers for a product, its tile allotted or not (R56, R190). -/
def matLane (f : RForm) (op : MatOp) (g : Group) (tile : Bool) (l : Nat) (t : Thread) : Except Stop MatLane :=
  match physAll g t (matRuns f op g.width) with
  | .error e => .error e
  | .ok rs =>
    if !tile then .error (Stop.cause 0x0E)
    else
      match readAll g t (rs.getD 0 []), readAll g t (rs.getD 1 []) with
      | .error e, _ => .error e
      | _, .error e => .error e
      | .ok a, .ok c => .ok { lane := l, a := a, scales := c }

/-- A product as its lanes' registers stand: the tile that it writes (R131, R174). -/
def Product.tileNow (p : Product) (w : Nat) : Tile :=
  let xs := p.lanes.map fun (l, a, c) => { lane := l, a := a, scales := c : MatLane }
  let cols := p.quarters.foldl (fun cs (q, _, ls) => withQuarter w q ls cs) p.columns
  matTile p.ty w xs { columns := cols, scales := p.scales } p.scaled p.entries p.before

/-- The product for lanes whose registers are there, or what stops them all. -/
def State.matProduct (s : State) (gid : Nat) (g : Group) (f : RForm) (op : MatOp) (xs : List MatLane) :
    Except Stop Product :=
  match s.tile? g f.d.toNat with
  | none => .error (Stop.cause 0x0E)
  | some t =>
    if s.tileBusy g f.d.toNat then .error .hold
    else
      match s.matB gid g f.b.toNat (op == .scaled) with
      | .error e => .error e
      | .ok b =>
        match if op = .outlier then s.outliers g f.c.toNat else .ok [] with
        | .error e => .error e
        | .ok es =>
          .ok { num := 0, bid := g.bid, idx := g.home, tile := f.d.toNat, ty := f.ty.toNat, scaled := op == .scaled
                columns := b.columns, scales := b.scales, entries := es, before := t
                lanes := xs.map fun x => (x.lane, x.a, x.scales)
                quarters := b.quarters.map fun (q, a) => (q, a, quarterWords g a) }

/-- Operations on a tile of a block have read their operands: another one names the tile (R131, R174). -/
def State.tileRead (s : State) (bid idx tile : Nat) : State :=
  let hit := fun (g : Group) (r : Late) => match r.use with
    | .slice b i n _ _ => b == bid && i == idx && n == tile
    | .product k => g.products.any fun p => p.num == k && p.bid == bid && p.idx == idx && p.tile == tile
    | _ => false
  s.closeEvery hit

/-- The physical registers that a product reads of a lane: its runs, and the lane's part of the group's own quarters. -/
def matRegs (f : RForm) (op : MatOp) (g : Group) (p : Product) (t : Thread) : List Nat :=
  let own := p.quarters.flatMap fun (_, a, _) => (List.range (quarterRun g.width)).map (a + ·)
  match physAll g t (matRuns f op g.width) with
  | .ok rs => rs.flatten ++ own
  | .error _ => []

/-- A product is written to its tile; in native mode its registers are read later (R131, R174). -/
def State.multiply (s : State) (gid : Nat) (g : Group) (f : RForm) (op : MatOp) (p : Product) : State :=
  let s := (s.tileRead p.bid p.idx p.tile).putTile g p.tile (p.tileNow g.width)
  let s := match mapGet {} g.a f.b.toNat with
    | a => if f.b.toNat < 16 then s.readSpad (.spad g.bid g.home a.pointer.toNat) 4352 else s
  if g.ilk then s
  else
    let (num, s) := s.fresh
    let s := s.setGroup gid fun g => { g with products := g.products ++ [{ p with num := num }] }
    p.lanes.foldl (fun s (l, _) => match g.thread? l with
      | some t => (s.openLate gid g l .tiles (matRegs f op g p t) 0 (.product num)).2
      | none => s) s

def Stop.dispo? : Stop → Option Dispo
  | .hold => none
  | .park p => some (.park p)
  | .raise r => some (.raise r)

/-- A matrix instruction for one fragment. None: held at issue. -/
def matFragment (f : RForm) (op : MatOp) (s : State) (gid fid : Nat) : Option State :=
  match s.group? gid with
  | none => some s
  | some g =>
    let meldScales := op == .scaled && g.region && isMeldCode g.enc f.c.toNat
    match if meldScales then some 1 else laneGuard g false f.pred (matRuns f op g.width) false with
    | some k => some (s.raiseAll gid fid 8 { cause := k })
    | none =>
      let all := g.fragLanes fid
      let (vs, s) := views g s all
      if vs.any fun (_, t) => predHeld g false f.pred t || t.full .tiles then none
      else
        let act := vs.filter fun (_, t) => laneActive g false f.pred t
        let tile := (s.tile? g f.d.toNat).isSome
        let outs := act.map fun (l, t) => (l, matLane f op g tile l t)
        let xs := outs.filterMap fun (_, o) => match o with
          | .ok x => some x
          | .error _ => none
        let early : List (Nat × Option Dispo) := outs.filterMap fun (l, o) => match o with
          | .ok _ => none
          | .error e => some (l, e.dispo?)
        let done : Option (State × Dispo) :=
          match xs with
          | [] => some (s, .next false)
          | _ :: _ =>
            match s.matProduct gid g f op xs with
            | .ok p =>
              let (ok, s) := s.residueCheck g
              some (if ok then (s.multiply gid g f op p, .next true) else (s, .raise { cause := 0x10 }))
            | .error e => e.dispo?.map fun d => (s, d)
        match early.mapM fun (l, d) => d.map fun d => (l, d), done with
        | none, _ => none
        | _, none => none
        | some es, some (s, d) =>
          let s := s.setGroup gid fun g => all.foldl (fun g l => g.setThread l fun t => t.age (max 1 f.stall.toNat)) g
          some (s.retire gid fid 8 (all.map fun l =>
            (es.find? (·.1 == l)).getD (l, if xs.any (·.lane == l) then d else .next false)))

def execMma (f : RForm) (s : State) : Host.Outcome State Fault Refusal := issue (matFragment f .plain) s

/-- Fused or not, every row receives exactly MMA's update (R180). -/
def execMmaq (f : RForm) (s : State) : Host.Outcome State Fault Refusal := issue (matFragment f .plain) s
def execMmao (f : RForm) (s : State) : Host.Outcome State Fault Refusal := issue (matFragment f .outlier) s
def execMmas (f : RForm) (s : State) : Host.Outcome State Fault Refusal := issue (matFragment f .scaled) s

/-! ## B-shares (R184) -/

/-- Takes a group out of a share; a share without members frees its slot. -/
def Core.leaveShare (c : Core) (bid name gid : Nat) : Core :=
  let clear := fun (sh : BShare) =>
    if sh.bid == bid && sh.name == name then
      { sh with quarters := sh.quarters.map fun q => if q.map (·.1) == some gid then none else q }
    else sh
  { c with shares := (c.shares.map clear).filter fun sh => sh.quarters.any (·.isSome) }

def execBshare (f : RForm) (s : State) : Host.Outcome State Fault Refusal :=
  let name := f.d.toNat
  let q := f.c.toNat
  issue (fun s gid fid =>
    match s.group? gid with
    | none => some s
    | some g =>
      let n := quarterRun g.width
      let runs := if q = 4 then [] else [(f.a.toNat, n)]
      groupFragment { pred := f.pred, runs := runs, stall := f.stall.toNat } (fun s gid _ g lanes =>
        if lanes.any fun l => (g.thread? l).any (·.full .tiles) then .hold
        else if q = 4 then .done (s.setCore g.core (·.leaveShare g.bid name gid)) (.next false)
        else if g.vregs < f.a.toNat + n then .raise { cause := 2 }
        else
          let regs := (List.range n).map (f.a.toNat + ·)
          let s := lanes.foldl (fun s l => (s.openLate gid g l .tiles regs 0 .counted).2) s
          let c := s.core g.core
          let join := fun (sh : BShare) => { sh with quarters := listUpdate q (fun _ => some (gid, f.a.toNat)) sh.quarters }
          match c.shares.find? fun sh => sh.bid == g.bid && sh.name == name with
          | some sh =>
            if ((sh.quarters.getD q none).map (·.1)).any (· != gid) then .raise { cause := 0x0E }
            else
              .done (s.setCore g.core fun c => { c with shares := c.shares.map fun x => if x == sh then join x else x })
                (.next false)
          | none =>
            if 16 ≤ c.shares.length then .done s (.park (.shareSlot g.core))
            else
              let sh : BShare := join { bid := g.bid, name := name, quarters := [none, none, none, none] }
              .done (s.setCore g.core fun c => { c with shares := c.shares ++ [sh] }) (.next false)) s gid fid) s

/-! ## Rows and columns (R186) -/

/-- A slice instruction's tile and selector, or what stops every lane. -/
def State.sliceOf (s : State) (g : Group) (f : RForm) : Except Stop (Nat × Nat × Tile) :=
  match readUniIndex g f.b, readS g f.c.toNat with
  | .error e, _ => .error e
  | _, .error e => .error e
  | .ok b, .ok c =>
    let n := f.a.toNat + b.toNat
    if 255 < n then .error (Stop.cause 0x0E)
    else
      match s.tile? g n with
      | none => .error (Stop.cause 0x0E)
      | some t => if s.tileBusy g n then .error .hold else .ok (n, c.toNat % 64, t)

/-- Where element e of a slice stands. -/
def sliceCell (column : Bool) (sel e : Nat) : Nat × Nat := if column then (e, sel) else (sel, e)

/-- The elements that a lane carries. -/
def laneElems (w l : Nat) : List Nat := (List.range (rowRun w)).map fun r => l % 64 + w * r

def tslrLane (f : RForm) (gid : Nat) (s : State) (l : Nat) (t : Thread) : LaneOut :=
  match s.group? gid with
  | none => .stop (.next false)
  | some g =>
    match physRun g t f.d.toNat (rowRun g.width) with
    | .error e => e.lane
    | .ok regs =>
      match s.sliceOf g f with
      | .error e => e.lane
      | .ok (n, sel, tile) =>
        if 63 ≤ t.loads then .hold
        else
          let s := s.tileRead g.bid g.home n
          let bs := (laneElems g.width l).flatMap fun e =>
            let (i, j) := sliceCell f.mx sel e
            leBytes 4 (tileAt tile i j)
          let (id, s) := s.loadNow gid g [l] (.vec l regs) bs 0
          .done (s.setThread gid l (·.awaitRegs id regs)) (.next false)

/-- A tile with elements of one row or column replaced. -/
def putSlice (column : Bool) (sel : Nat) (es : List (Nat × Word)) (tile : Tile) : Tile :=
  es.foldl (fun t (e, w) =>
    let (i, j) := sliceCell column sel e
    tilePut t i j w.toNat) tile

/-- The cells of a tile that a lane of a group of w lanes writes by TSLW. -/
def sliceCells (w l : Nat) (column : Bool) (sel : Nat) : List (Nat × Nat) := (laneElems w l).map (sliceCell column sel)

/-- Operations on a tile whose operands have been read once a lane's slice of it is written: products on it, and slices
that share a cell (R131, R174). -/
def State.sliceRead (s : State) (bid idx tile : Nat) (cells : List (Nat × Nat)) : State :=
  s.closeEvery fun g r => match r.use with
    | .slice b i n c k => b == bid && i == idx && n == tile && (sliceCells g.width r.lane c k).any cells.contains
    | .product k => g.products.any fun p => p.num == k && p.bid == bid && p.idx == idx && p.tile == tile
    | _ => false

/-- TSLW: the lanes' registers are read once the tile is known to be allotted (R56); those of lanes past 63 are ignored. -/
def tslwLane (f : RForm) (gid : Nat) (s : State) (l : Nat) (t : Thread) : LaneOut :=
  match s.group? gid with
  | none => .stop (.next false)
  | some g =>
    match physRun g t f.d.toNat (rowRun g.width) with
    | .error e => e.lane
    | .ok regs =>
      match s.sliceOf g f with
      | .error e => e.lane
      | .ok (n, sel, tile) =>
        if 64 ≤ l then .stop (.next false)
        else if t.full .tiles then .hold
        else
          match readAll g t regs with
          | .error e => e.lane
          | .ok ws =>
            let s := (s.sliceRead g.bid g.home n (sliceCells g.width l f.mx sel)).putTile g n
              (putSlice f.mx sel ((laneElems g.width l).zip ws) tile)
            .done (s.openLate gid g l .tiles regs 0 (.slice g.bid g.home n f.mx sel)).2 (.next false)

/-- A lane that would complete ends in PIPEERR (R302). -/
def LaneOut.failed : LaneOut → LaneOut
  | .done _ (.next _) => .stop (.raise { cause := 0x10 })
  | out => out

def LaneOut.completes : LaneOut → Bool
  | .done _ (.next _) => true
  | _ => false

/-- A slice instruction: its run depends on the group's width. Where some lane would complete its residue is checked, and
a mismatch past the last replay ends it for every such lane. -/
def sliceInstr (f : RForm) (fn : Nat → State → Nat → Thread → LaneOut) (s : State) : Host.Outcome State Fault Refusal :=
  issue (fun s gid fid =>
    match s.group? gid with
    | none => some s
    | some g =>
      let sh : Shape := { pred := f.pred, runs := [(f.d.toNat, rowRun g.width)], stall := f.stall.toNat }
      let acts := (s.willRun sh gid fid).any fun l => (g.thread? l).any fun t => (fn gid s l t).completes
      let (ok, s) := if acts then s.residueCheck g else (true, s)
      seqFragment sh (if ok then fn else fun gid s l t => (fn gid s l t).failed) s gid fid) s

def execTslr (f : RForm) (s : State) : Host.Outcome State Fault Refusal := sliceInstr f (tslrLane f) s
def execTslw (f : RForm) (s : State) : Host.Outcome State Fault Refusal := sliceInstr f (tslwLane f) s

/-! ## Whole tiles (R187, R188) -/

/-- The operands of earlier operations on tiles of a group have been read. -/
def State.tilesRead (s : State) (g : Group) (names : List Nat) : State :=
  names.foldl (fun s n => s.tileRead g.bid g.home n) s

/-- A uniform tile instruction whose tiles are named by codes: each allotted, none on its way. -/
def tileInstr (pred : BitVec 4) (names : List Nat) (fn : State → Nat → Group → List Nat → UniOut) (s : State) :
    Host.Outcome State Fault Refusal :=
  uniInstr 8 pred false (fun s gid g lanes =>
    if names.any fun n => (s.tile? g n).isNone then .raise { cause := 0x0E }
    else if names.any (s.tileBusy g) then .hold
    else
      let (ok, s) := s.residueCheck g
      if ok then fn (s.tilesRead g names) gid g lanes else .done s (.raise { cause := 0x10 })) s

/-- The places of a whole-tile access: physical stretches, or scratchpad. None where a peer's region is gone. -/
def State.tilePlaces (s : State) (g : Group) (a : AddrReg) (acc : Access) (ea : DWord) (n : Nat) :
    Except Stop (Option (List (Place × Nat))) × State :=
  if a.space = 0 then
    match s.checkReg g a [0] acc ea n with
    | some c => (.error (Stop.causeAt c ea), s)
    | none =>
      if ea.toNat % 128 ≠ 0 then (.error (Stop.causeAt 8 ea), s)
      else
        match s.rowSegs g a acc ea.toNat n with
        | (.error c, s) => (.error (Stop.causeAt c ea), s)
        | (.ok segs, s) => (.ok (some (segs.map fun (pa, k) => (.mem pa, k))), s)
  else
    match s.checkSpad g a [1, 2] acc ea n 128 with
    | .error c => (.error (Stop.causeAt c ea), s)
    | .ok none => (.ok none, s)
    | .ok (some p) =>
      match if a.space = 1 then s.lacking p n else none with
      | some on => (.error (.park on), s)
      | none => (.ok (some [(p, n)]), s)

/-- The sector pieces of stretches, their bytes numbered on. -/
def segPieces : List (Place × Nat) → Nat → List (Place × Nat × Nat × Nat)
  | [], _ => []
  | (p, n) :: rest, i =>
    ((pieces p n).map fun (q, off, k, m) => (q, off, k + i, m)) ++ segPieces rest (i + n)

def execTld (f : MForm) (s : State) : Host.Outcome State Fault Refusal :=
  let width := 2 ^ f.size.toNat
  let n := 4096 * width
  tileInstr f.pred [f.d.toNat] (fun s gid g lanes =>
    match memUniAddr g f with
    | .error e => uniStop s e
    | .ok (a, ea) =>
      let dest : Dest := .tile f.d.toNat width
      match s.tilePlaces g a .read ea n with
      | (.error e, s) => uniStop s e
      | (.ok none, s) => .done (s.loadNow gid g lanes dest (List.replicate n 0) ea).2 (.next false)
      | (.ok (some segs), s) =>
        if a.space = 1 then
          if segs.any fun (p, k) => s.placePoisoned p k then .raise { cause := 0x11, addr := ea }
          else
            let bs := segs.flatMap fun (p, k) => s.placeBytes p k
            .done ((segs.foldl (fun s (p, k) => s.readSpad p k) s).loadNow gid g lanes dest bs ea).2 (.next false)
        else
          let o := if a.space = 2 then .strong else Order.ofCode f.order.toNat
          .done (s.startPieces gid g lanes dest o a.objid (segPieces segs 0) ea).2 (.next false)) s

/-- The bytes of a tile in elements of a width (R187). -/
def tileBytes (width : Nat) (t : Tile) : List Byte :=
  (List.range 4096).flatMap fun i => leBytes width (mapGet 0 t i).toNat

/-- The roster bit that a TST takes before its first sector: no inspect reaches the core until its last one has entered
(R231). None: refused, SEALW. -/
def State.tstRoster (s : State) (g : Group) (a : AddrReg) : Option State :=
  if a.space = 0 && a.objid != 0 then s.rosterObject g.core a.objid else some s

/-- Enters the sectors of a TST as far as the buffers have room; how many have entered, and the state. -/
def State.enterSectors (s : State) (tag : StoreTag) (space : Nat) (bs : List Byte) (next : Nat) :
    List (Place × Nat × Nat × Nat) → Nat × State
  | [] => (next, s)
  | (p, off, i, k) :: rest =>
    let s := match p with
      | .mem pa => if space = 0 then (s.rosterStore tag.core tag.obj pa).getD s else s
      | .spad _ _ _ => s
    match s.newStore.enterPieces { tag with seq := s.newStore.seq } bs [(p, off, i, k)] with
    | none => (next, s)
    | some s => s.enterSectors tag space bs (next + 1) rest

/-- TST under way: it is held until every sector has entered (R187, R223). -/
def tstWaits (f : MForm) : Waits := fun s gid fid =>
  match s.group? gid with
  | none => (true, s)
  | some g =>
    match g.tst with
    | none => (true, s)
    | some t =>
      if t.pc != g.fragPc fid then (false, s)
      else
        match memUniAddr g f with
        | .error _ => (false, s)
        | .ok (a, _) =>
          let ps := segPieces t.segs 0
          let (n, s) := s.enterSectors (storeTag gid g (Order.ofCode f.order.toNat) a 0) a.space t.bytes t.next (ps.drop t.next)
          (n = ps.length, s.setGroup gid fun g => { g with tst := some { t with next := n } })

/-- A TST under way was executed when it began, whatever its predicate has become since. -/
def tstPred (f : MForm) (s : State) (gid fid : Nat) : BitVec 4 :=
  if (s.group? gid).any fun g => g.tst.any (·.pc == g.fragPc fid) then 7 else f.pred

def execTst (f : MForm) (s : State) : Host.Outcome State Fault Refusal :=
  let width := 2 ^ f.size.toNat
  let n := 4096 * width
  let begin_ : Waits := fun s gid fid =>
    match s.group? gid with
    | none => (true, s)
    | some g =>
      if g.tst.isSome || !uniActive g f.pred then (true, s)
      else
        match s.tile? g f.d.toNat, memUniAddr g f with
        | some t, .ok (a, ea) =>
          if s.tileBusy g f.d.toNat || a.space = 1 then (true, s)
          else
            match s.tilePlaces g a .write ea n with
            | (.ok (some segs), s) =>
              match s.tstRoster g a with
              | none => (true, s)
              | some u =>
                let (ok, u) := u.residueCheck g
                if !ok then (true, s)
                else
                  (true, (u.tilesRead g [f.d.toNat]).setGroup gid fun g =>
                    { g with tst := some { pc := g.fragPc fid, segs := segs, bytes := tileBytes width t, obj := a.objid } })
            | _ => (true, s)
        | _, _ => (true, s)
  let act := fun (s : State) (gid fid : Nat) => uniFragment 8 (tstPred f s gid fid) false (fun s gid g _ =>
    match g.tst with
    | some _ => .done (s.setGroup gid fun g => { g with tst := none }) (.next false)
    | none =>
      match s.tile? g f.d.toNat, memUniAddr g f with
      | none, _ => .raise { cause := 0x0E }
      | _, .error e => uniStop s e
      | some t, .ok (a, ea) =>
        if s.tileBusy g f.d.toNat then .hold
        else
          match s.tilePlaces g a .write ea n with
          | (.error e, s) => uniStop s e
          | (.ok ps, s) =>
            if ps.isSome && (s.tstRoster g a).isNone then .raise { cause := 9, addr := ea }
            else
              let (ok, s) := s.residueCheck g
              if ok then
                .done ((ps.getD []).foldl (fun s (p, k) => (s.disown p k).placeWrite p (tileBytes width t))
                  (s.tilesRead g [f.d.toNat])) (.next false)
              else .done s (.raise { cause := 0x10 })) s gid fid
  issueAfter (fun s gid fid => tstWaits f (begin_ s gid fid).2 gid fid) act s

def execTzero (f : RForm) (s : State) : Host.Outcome State Fault Refusal :=
  tileInstr f.pred [f.d.toNat] (fun s _ g _ => .done (s.putTile g f.d.toNat []) (.next false)) s

def execTmov (f : RForm) (s : State) : Host.Outcome State Fault Refusal :=
  tileInstr f.pred [f.d.toNat, f.a.toNat] (fun s _ g _ =>
    .done (s.putTile g f.d.toNat ((s.tile? g f.a.toNat).getD [])) (.next false)) s

/-- Draws for a whole tile under SR: element (i, j) from lane j mod C in ascending i (R188). -/
def State.tileDraws (s : State) (core lanes : Nat) : List (List Word) × State :=
  (List.range (min lanes 64)).foldl (fun (acc : List (List Word) × State) l =>
    let (us, s) := acc.2.draw core l (64 * (64 / min lanes 64))
    (acc.1 ++ [us], s)) ([], s)

def execTcvt (f : RForm) (s : State) : Host.Outcome State Fault Refusal :=
  tileInstr f.pred [f.d.toNat, f.a.toNat] (fun s _ g _ =>
    let t := (s.tile? g f.a.toNat).getD []
    let c := s.lanes g.part g.core
    let (us, s) := if f.c = 5 then s.tileDraws g.core c else ([], s)
    let per := 64 / min c 64
    let u := fun i j => (us.getD (j % c) []).getD (per * i + j / c) 0
    let out := (List.range 64).foldl (fun o i =>
      (List.range 64).foldl (fun o j =>
        tilePut o i j (conv 8 f.ty.toNat (Rnd.ofCode f.c.toNat (u i j)) false (tileAt t i j))) o) []
    .done (s.putTile g f.d.toNat out) (.next true)) s

/-! ## Allotting and freeing (R189) -/

def State.tileNames (s : State) (g : Group) : Option (SMap Tile) :=
  match s.block? g.bid with
  | none => none
  | some b => if b.cores[g.home]? == some g.core then b.tiles[g.home]? else none

def State.freeTiles (s : State) (g : Group) : Nat := coreTiles (s.lanes g.part g.core) - s.tilesUsed g.core

def State.setTiles (s : State) (g : Group) (f : SMap Tile → SMap Tile) : State :=
  s.setBlock g.bid fun b => { b with tiles := listUpdate g.home f b.tiles }

def execTalloc (f : RForm) (s : State) : Host.Outcome State Fault Refusal :=
  uniInstr 8 f.pred false (fun s gid g _ =>
    match readS g f.a.toNat with
    | .error e => uniStop s e
    | .ok x =>
      let n := x.toNat
      let base := match s.tileNames g with
        | none => none
        | some ts =>
          if n = 0 ∨ 256 < n ∨ s.freeTiles g < n then none
          else (List.range (257 - n)).find? fun b => (List.range n).all fun i => (mapFind (b + i) ts).isNone
      let result := fun (b : Option Nat) (s : State) => s.setGroup gid fun g =>
        (g.putS f.d.toNat (match b with
          | some b => BitVec.ofNat 32 b
          | none => 0xFFFFFFFF)).putQ 0 b.isSome
      match base with
      | none => .done (result none s) (.next true)
      | some b =>
        let s := s.setTiles g fun ts => (List.range n).foldl (fun ts i => mapInsert (b + i) [] ts) ts
        .done (result (some b) s) (.next true)) s

def execTfree (f : RForm) (s : State) : Host.Outcome State Fault Refusal :=
  uniInstr 8 f.pred false (fun s _ g _ =>
    match readUnis g [(f.a.toNat, false), (f.b.toNat, false)] with
    | .error e => uniStop s e
    | .ok xs =>
      let b := xs.getD 0 0
      let n := xs.getD 1 0
      if n = 0 then .done s (.next true)
      else if 256 < b + n ∨ (List.range n).any fun i => (s.tile? g (b + i)).isNone then .raise { cause := 0x0E }
      else if (List.range n).any fun i => s.tileBusy g (b + i) then .hold
      else
        let s := s.tilesRead g ((List.range n).map (b + ·))
        .done (s.setTiles g fun ts => (List.range n).foldl (fun ts i => mapErase (b + i) ts) ts) (.next true)) s

def execTstat (f : RForm) (s : State) : Host.Outcome State Fault Refusal :=
  uniInstr 8 f.pred false (fun s gid g _ =>
    let shares := 16 - (s.core g.core).shares.length
    let allot := ((s.tileNames g).map (·.length)).getD 0
    let x := shares * 2 ^ 24 + allot * 2 ^ 12 + s.freeTiles g
    .done (s.setGroup gid (·.putS f.d.toNat (BitVec.ofNat 32 x))) (.next false)) s

end Sys2Proof.Machine
end

