-- ==== Sys2Proof/Machine/Engine.lean ====
section
/-! DEFINITION. Futures (R213 to R215) and the copy engines (R202 to R208). -/

namespace Sys2Proof.Machine

/-! ## Futures -/

/-- A handle (R213). -/
def handleOf (slot gen : Nat) : Word := BitVec.ofNat 32 (2 ^ 31 + slot % 512 * 2 ^ 22 + gen % 2 ^ 22)

/-- Allocates a free slot of a core's future table: slot and generation. None: the table is full. -/
def State.newFuture (s : State) (core : Nat) : Option ((Nat × Nat) × State) :=
  let free := (List.range 512).filter fun k => !(s.core core).futures.contains k
  if free.isEmpty then none
  else
    let (i, s) := s.pick free.length
    let k := free.getD i 0
    let gen := (mapGet 0 (s.core core).gens k + 1) % 2 ^ 22
    some ((k, gen), s.setCore core fun c => { c with futures := setAdd k c.futures, gens := mapPut 0 k gen c.gens })

/-- A register receives a handle and is tagged pending on it (R214). -/
def Thread.putHandle (t : Thread) (r core slot gen : Nat) : Thread :=
  let t := t.putReg 0 r (handleOf slot gen)
  { t with fut := mapInsert r (.pending core slot gen) t.fut }

/-- A thread's registers that still wait on a handle receive its result, or are tagged FAULTED (R214). -/
def Thread.resolve (t : Thread) (core slot gen : Nat) (res : Option Word) : Thread :=
  let mine := (t.fut.filter fun (_, f) => f == .pending core slot gen).map (·.1)
  match res with
  | some x => mine.foldl (fun t r => { t with v := mapPut 0 r x t.v, fut := mapErase r t.fut }) t
  | none => mine.foldl (fun t r => { t with fut := mapInsert r .faulted t.fut }) t

/-- An operation resolves: DONE with a result word, or FAULTED. Its slot is free again, since nothing waits on it. -/
def State.resolveFuture (s : State) (core slot gen : Nat) (res : Option Word) : State :=
  let each := fun (g : Group) => { g with threads := g.threads.map (·.resolve core slot gen res) }
  let s := { s with groups := s.groups.map fun (k, g) => (k, each g) }
  s.setCore core fun c => { c with futures := setDel slot c.futures }

/-- A register with its future tag, read without blocking on it (R214). -/
def peekReg (g : Group) (t : Thread) (code : Nat) : Except Stop (Nat × Word × Option FTag) :=
  match physReg g t code with
  | .error e => .error e
  | .ok r =>
    if g.ilk && (mapFind r t.vtag).isSome then .error .hold
    else .ok (r, mapGet 0 t.v r, mapFind r t.fut)

def FTag.isPending : FTag → Bool
  | .pending _ _ _ => true
  | .faulted => false

def execFtest (f : RForm) (s : State) : Host.Outcome State Fault Refusal :=
  laneInstr (regShape f 0 []) (fun g _ _ _ t =>
    (peekReg g t f.a.toNat).map fun (_, _, tag) => { p := [(f.d.toNat, !(tag.any (·.isPending)))] }) s

def execFwait (f : RForm) (s : State) : Host.Outcome State Fault Refusal :=
  laneInstr (regShape f 0 []) (fun g _ _ _ t => (readVec g t f.a.toNat).map fun _ => {}) s

/-- FCANCEL: VALID clears and the tag goes; the operation continues. -/
def fcancelLane (f : RForm) (gid : Nat) (s : State) (l : Nat) (t : Thread) : LaneOut :=
  match s.group? gid with
  | none => .stop (.next false)
  | some g =>
    match peekReg g t f.a.toNat with
    | .error e => e.lane
    | .ok (_, _, none) => .stop (.next false)
    | .ok (r, x, some _) => .done (s.setThread gid l (·.putReg 0 r (x &&& 0x7FFFFFFF))) (.next false)

def execFcancel (f : RForm) (s : State) : Host.Outcome State Fault Refusal :=
  seqInstr { pred := f.pred, stall := f.stall.toNat } (fcancelLane f) s

/-- FPASS: the register with its tag. -/
def fpassLane (f : RForm) (gid : Nat) (s : State) (l : Nat) (t : Thread) : LaneOut :=
  match s.group? gid with
  | none => .stop (.next false)
  | some g =>
    match physReg g t f.d.toNat, peekReg g t f.a.toNat with
    | .error e, _ => e.lane
    | _, .error e => e.lane
    | .ok d, .ok (_, x, tag) =>
      .done (s.setThread gid l fun t =>
        let t := t.putReg 0 d x
        match tag with
        | some m => { t with fut := mapInsert d m t.fut }
        | none => t) (.next false)

def execFpass (f : RForm) (s : State) : Host.Outcome State Fault Refusal :=
  seqInstr { pred := f.pred, stall := f.stall.toNat } (fpassLane f) s

/-! ## The walk of a copy (R202, R205) -/

def Copy.rows (c : Copy) : Nat := c.dim1 * c.dim2
def Copy.total (c : Copy) : Nat := c.dim0 * c.rows

/-- The address of the byte at a walk position: the plane, the row, the byte. -/
def walkAddr (dim0 dim1 : Nat) (base : DWord) (str1 str2 : Int) (i : Nat) : DWord :=
  let row := i / dim0
  base + BitVec.ofInt 64 (str2 * (row / dim1 : Nat) + str1 * (row % dim1 : Nat)) + BitVec.ofNat 64 (i % dim0)

def Copy.srcAt (c : Copy) (i : Nat) : DWord := walkAddr c.dim0 c.dim1 c.srcBase c.sstr1 c.sstr2 i
def Copy.dstAt (c : Copy) (i : Nat) : DWord := walkAddr c.dim0 c.dim1 c.dstBase c.dstr1 c.dstr2 i

/-- Bytes from a walk position that lie in one row and one 32-byte sector of an address. -/
def Copy.chunk (c : Copy) (i : Nat) (a : DWord) : Nat := min (c.dim0 - i % c.dim0) (32 - a.toNat % 32)

/-- The 128-byte lines that rows touch from a walk position on. -/
def Copy.linesFrom (c : Copy) (i : Nat) : List Nat :=
  ((List.range (c.rows - i / c.dim0)).flatMap fun k =>
    let first := if k = 0 then i else (i / c.dim0 + k) * c.dim0
    let a := (c.dstAt first).toNat
    let n := c.dim0 - first % c.dim0
    (List.range ((a + n + 127) / 128 - a / 128)).map (a / 128 + ·)).foldl (fun acc l => setAdd l acc) []

/-- A copy still owes bytes in a line from a walk position on. -/
def Copy.owes (c : Copy) (i line : Nat) : Bool :=
  (List.range (c.rows - i / c.dim0)).any fun k =>
    let first := if k = 0 then i else (i / c.dim0 + k) * c.dim0
    let a := (c.dstAt first).toNat
    let n := c.dim0 - first % c.dim0
    a < 128 * (line + 1) && 128 * line < a + n

/-! ## Issuing a copy (R202 to R204, R208) -/

/-- The descriptor's words. -/
structure CopyDesc where
  dim0 : Nat
  dim1 : Nat
  dim2 : Nat
  sstr1 : Int
  sstr2 : Int
  dstr1 : Int
  dstr2 : Int
  bar : Word
  mask : Word
  strong : Bool

def CopyDesc.ofWords (ws : List Nat) : CopyDesc :=
  let w := fun i => ws.getD i 0
  let i32 := fun i => (BitVec.ofNat 32 (w i)).toInt
  { dim0 := w 0, dim1 := w 1, dim2 := w 2, sstr1 := i32 3, sstr2 := i32 4, dstr1 := i32 5, dstr2 := i32 6
    bar := BitVec.ofNat 32 (w 7), mask := BitVec.ofNat 32 (w 8), strong := (w 9).testBit 0 }

def dimOk (n : Nat) : Bool := 1 ≤ n && n ≤ 65536

/-- The dimensions are in range. -/
def CopyDesc.ok (d : CopyDesc) : Bool :=
  dimOk d.dim0 && dimOk d.dim1 && dimOk d.dim2 && d.dim0 * d.dim1 * d.dim2 ≤ 2 ^ 24

/-- Which copy an instruction is: CPY, CPYM, CPYP. -/
inductive CopyKind where
  | plain
  | multi
  | peer
deriving DecidableEq, Repr

/-- The kinds as operand records name them. -/
def CopyKind.code : CopyKind → Nat
  | .plain => 0
  | .multi => 1
  | .peer => 2

def CopyKind.ofCode (n : Nat) : CopyKind :=
  match n with
  | 0 => .plain
  | 1 => .multi
  | _ => .peer

def CopyKind.sources : CopyKind → List Nat
  | .multi => [0]
  | _ => [0, 3, 1]

def CopyKind.targets : CopyKind → List Nat
  | .plain => [0, 1]
  | .multi => [1, 2]
  | .peer => [2]

/-- The checks of R167 over every row, then R193. -/
def State.checkRows (s : State) (g : Group) (a : AddrReg) (spaces : List Nat) (acc : Access) (rows : List DWord)
    (n : Nat) : Option (Nat × DWord) :=
  let reg := rows.findSome? fun ea => (s.checkReg g a spaces acc ea n).map fun c => (c, ea)
  reg.orElse fun _ =>
    if a.space = 1 ∨ a.space = 2 then
      (rows.find? fun ea => s.spadSize g < ea.toNat + n).map fun ea => (0x04, ea)
    else none

/-- The receivers of a copy into scratchpad: the gang positions and the core index there. Those whose block is gone are
dropped. -/
def State.receiversOf (s : State) (g : Group) (k : CopyKind) (a : AddrReg) (mask : Word) : List Receiver :=
  let pos : List Nat := match k with
    | .plain => []
    | .multi => (List.range 32).filter mask.getLsbD
    | .peer => [a.gangpos]
  let idx := if a.space = 2 then a.pcore else g.home
  match k with
  | .plain => [{ pos := 0, bid := g.bid, idx := idx, cleared := true }]
  | _ => pos.map fun p =>
    match s.gangMember g p with
    | some (bid, _) => { pos := p, bid := bid, idx := idx }
    | none => { pos := p, bid := 0, idx := idx, dropped := true }

/-- An address register as CPYM reads its destination: its GANGPOS is ignored (R208). -/
def AddrReg.anywhere (a : AddrReg) : AddrReg := { a with attr := a.attr &&& 0xFFFFFFFFFFE0FFFF }

/-- The checks of R204 and R208 on a descriptor and two registers, in order: cause and address. -/
def State.checkCopy (s : State) (g : Group) (k : CopyKind) (d : CopyDesc) (src dst : AddrReg) (c : Copy) :
    Option (Nat × DWord) :=
  let bar := d.bar.toNat
  let none_ := d.bar = 0xFFFFFFFF
  let to_ := if k = .multi then dst.anywhere else dst
  let (gangb, _) := s.gangShape g
  if !d.ok then some (4, 0)
  else if k = .plain ∧ dst.space = 0 ∧ dst.objid = 0 ∧ 131072 < c.total then some (4, 0)
  else
    let rows := (List.range c.rows).map (· * c.dim0)
    let srows := rows.map c.srcAt
    let drows := rows.map c.dstAt
    match s.checkRows g src k.sources .read srows d.dim0 with
    | some e => some e
    | none =>
      if (k = .multi ∧ (List.range 32).any fun p => d.mask.getLsbD p && gangb ≤ p) ∨ (dst.space = 0 ∧ !none_) then
        some (0x16, c.dstBase)
      else
        match s.checkRows g to_ k.targets .write drows d.dim0 with
        | some e => some e
        | none =>
          if none_ then none
          else if bar % 32 ≠ 0 then some (8, BitVec.ofNat 64 bar)
          else if s.spadSize g < bar + 32
              ∨ drows.any (fun ea => ea.toNat < bar + 32 && bar < ea.toNat + d.dim0) then some (4, BitVec.ofNat 64 bar)
          else none

/-- Clears the presence of a copy's destination lines at a receiver (R196). -/
def State.clearLines (s : State) (id : Nat) (c : Copy) (r : Receiver) : State :=
  s.setSpad r.bid r.idx fun x => { x with owed := x.owed ++ (c.linesFrom 0).map fun l => (l, id) }

/-- The copy that a lane describes. -/
def copyOf (g : Group) (k : CopyKind) (d : CopyDesc) (src dst : AddrReg) (so dof : DWord) (rs : List Receiver) : Copy :=
  { core := g.core, part := g.part, slot := 0, gen := 0, bid := g.bid, idx := g.home, srcSpace := src.space
    srcObj := src.objid, srcBase := src.pointer + so, dstSpace := dst.space, dstBase := dst.pointer + dof
    dim0 := d.dim0, dim1 := d.dim1, dim2 := d.dim2, sstr1 := d.sstr1, sstr2 := d.sstr2, dstr1 := d.dstr1
    dstr2 := d.dstr2, bar := if d.bar = 0xFFFFFFFF then none else some d.bar.toNat, strong := d.strong
    obj := dst.objid, multicast := k == .multi, receivers := rs
    status := if rs.any (·.dropped) then 8 else 0
    drops := rs.foldl (fun m r => if r.dropped then m ||| BitVec.ofNat 32 (2 ^ r.pos) else m) 0 }

/-- Passes a checked copy to the engine, or parks the lane; a CPYM to nobody resolves at once. The engine reads the offset
registers later (R131); `late` says so of the copy's number. -/
def State.acceptCopy (s : State) (gid : Nat) (g : Group) (l reg : Nat) (c : Copy) (late : Nat → State → State) : LaneOut :=
  if 32 ≤ (s.copies.filter fun (_, x) => x.core == g.core).length then .stop (.park (.engineSpace g.core))
  else
    match s.newFuture g.core with
    | none => .stop (.park (.futureSpace g.core))
    | some ((slot, gen), s) =>
      let s := s.setThread gid l (·.putHandle reg g.core slot gen)
      if c.receivers.isEmpty then .done (s.resolveFuture g.core slot gen (some 0)) (.next true)
      else
        let (id, s) := s.fresh
        let c := { c with slot := slot, gen := gen }
        let s := { s with copies := mapInsert id c s.copies }
        let mine := c.receivers.filter fun r => r.cleared && c.dstSpace == 1
        .done (late id (mine.foldl (fun s r => s.clearLines id c r) s)) (.next true)

def copyLane (f : RForm) (k : CopyKind) (gid : Nat) (s : State) (l : Nat) (t : Thread) : LaneOut :=
  match s.group? gid with
  | none => .stop (.next false)
  | some g =>
    let indexed := f.b != noIndex
    let runs := if indexed then [(f.d.toNat, 1), (f.b.toNat, 2)] else [(f.d.toNat, 1)]
    match physAll g t runs with
    | .error e => e.lane
    | .ok rs =>
      match readAll g t (rs.getD 1 []), readA g (f.a.extractLsb' 4 4).toNat, readA g (f.a.extractLsb' 0 4).toNat,
          readUnis g ((uniRun f.c.toNat 16).map (·, false)) with
      | .error e, _, _, _ => e.lane
      | _, .error e, _, _ => e.lane
      | _, _, .error e, _ => e.lane
      | _, _, _, .error e => e.lane
      | .ok offs, .ok src, .ok dst, .ok ws =>
        let d := CopyDesc.ofWords ws
        let off := fun i => ((offs.getD i 0).signExtend 64 : DWord)
        let c := copyOf g k d src dst (off 0) (off 1) (s.receiversOf g k dst d.mask)
        match s.checkCopy g k d src dst c with
        | some (cause, ea) => .stop (.raise { cause := cause, addr := ea })
        | none =>
          if t.full .copies then .hold
          else
            s.acceptCopy gid g l ((rs.getD 0 []).getD 0 0) c fun id s =>
              (s.openLate gid g l .copies (rs.getD 1 []) 0 (.copy id k.code src dst)).2

/-- The group's stores are drained once, before any lane's copy is accepted. -/
def copyInstr (k : CopyKind) (f : RForm) (s : State) : Host.Outcome State Fault Refusal :=
  let runs := if f.b = noIndex then [] else [(f.b.toNat, 2)]
  let sh : Shape := { pred := f.pred, runs := runs, stall := f.stall.toNat }
  issueAfter (drainFirst sh) (seqFragment sh (copyLane f k)) s

def execCpy (f : RForm) (s : State) : Host.Outcome State Fault Refusal := copyInstr .plain f s
def execCpym (f : RForm) (s : State) : Host.Outcome State Fault Refusal := copyInstr .multi f s
def execCpyp (f : RForm) (s : State) : Host.Outcome State Fault Refusal := copyInstr .peer f s

/-! ## Ownership (R206) -/

/-- An engine's access to GLOBAL or SYS bytes of one page: the physical address, or the cause (R207). -/
def State.engineAccess (s : State) (c : Copy) (space : Nat) (obj : Word) (va : DWord) (n : Nat) (write : Bool) :
    Except Nat Nat × State :=
  if 2 ^ 56 ≤ va.toNat then (.error 0x16, s)
  else
    match s.translate c.core c.part va.toNat with
    | (none, s) => (.error 0x06, s)
    | (some e, s) =>
      let pa := e.pa va.toNat
      let o := s.object? obj
      if (if write then !e.w else !e.r) || (inDevice pa && !s.admits c.part pa) then (.error 0x07, s)
      else if (!inDevice pa && !s.window pa) || (space == 0) != inDevice pa then (.error 0x16, s)
      else if obj != 0 && !(o.any fun o => o.visible c.part && o.covers va.toNat n) then (.error 0x16, s)
      else (.ok pa, s)

/-- Physical lines of a GLOBAL destination, as far as its pages are translated. -/
def State.destLines (s : State) (c : Copy) : List Nat → List Nat × State
  | [] => ([], s)
  | l :: ls =>
    match s.engineAccess c 0 0 (BitVec.ofNat 64 (128 * l)) 1 true with
    | (.error _, s) => s.destLines c ls
    | (.ok pa, s) =>
      let (more, s) := s.destLines c ls
      (setAdd (pa / 128) more, s)

def Slice.holds (k : Slice) (line copy : Nat) : Bool := k.owned.any fun (l, c) => l == line && c == copy

/-- A copy is given lines at their homes. -/
def State.giveLines (s : State) (id : Nat) (ls : List Nat) : State :=
  ls.foldl (fun s l => s.setSlice (homeOf (128 * l)) fun k =>
    if k.holds l id then k else { k with owned := k.owned ++ [(l, id)] }) s

/-- Lines that another copy holds. -/
def State.linesTaken (s : State) (id : Nat) (ls : List Nat) : Bool :=
  ls.any fun l => (s.slice (homeOf (128 * l))).owned.any fun (x, c) => x == l && c != id

/-- The next slice's lines, in ascending slice number; the slice may lack room or hold a line for another copy. -/
def State.acquirePlain (s : State) (id : Nat) (ls : List Nat) : State :=
  let missing := fun (k : Nat) => ls.filter fun l => homeOf (128 * l) == k && !(s.slice k).holds l id
  match (List.range 128).find? fun k => !(missing k).isEmpty with
  | none => s.setCopy id fun c => { c with owns := true }
  | some k =>
    let want := missing k
    if s.linesTaken id want || 1024 < s.directory k + want.length then s
    else
      let s := s.giveLines id want
      if (List.range 128).all fun j => j ≤ k || (missing j).isEmpty then s.setCopy id fun c => { c with owns := true }
      else s

/-- COPY_OWNERSHIP_ACQUIRE: a copy to an object takes it, or fails where it is sealed or not there; a plain copy asks the
next slice. -/
def execCopyOwnershipAcquire (copy : Nat) (s : State) : Host.Outcome State Fault Refusal :=
  match mapFind copy s.copies with
  | none => .next s
  | some c =>
    if c.dstSpace ≠ 0 ∨ c.owns then .next s
    else if c.obj = 0 then
      let (ls, s) := s.destLines c (c.linesFrom 0)
      .next (s.acquirePlain copy ls)
    else
      let fail := s.setCopy copy fun c => { c with owns := true, failed := true }
      match (s.object? c.obj).filter (·.visible c.part) with
      | none => .next fail
      | some o =>
        if o.state = .sealed then .next fail
        else if o.owner.isSome ∨ o.closing.isSome then .next s
        else
          let (ls, t) := s.destLines c (c.linesFrom 0)
          if t.linesTaken copy ls then .next s
          else
            let t := t.setObject c.obj fun o => { o with state := .owned, owner := some (copy, c.core) }
            .next ((t.giveLines copy ls).setCopy copy fun c => { c with owns := true })

/-! ## The transfer (R205, R207) -/

/-- PRESENCE_CLEAR_ARRIVAL: the forwarding slice's clear request reaches a receiver. -/
def execPresenceClearArrival (copy recv : Nat) (s : State) : Host.Outcome State Fault Refusal :=
  match mapFind copy s.copies with
  | none => .next s
  | some c =>
    match c.receivers[recv]? with
    | none => .next s
    | some r =>
      if r.cleared || r.dropped || c.dstSpace == 0 then .next s
      else
        .next ((s.clearLines copy c r).setCopy copy fun c =>
          { c with receivers := listUpdate recv (fun r => { r with cleared := true }) c.receivers })

/-- The engine reads the source bytes at its next walk position, as far as one source sector and one row reach. -/
def State.engineRead (s : State) (id : Nat) : State :=
  match mapFind id s.copies with
  | none => s
  | some c =>
    let i := c.readTo
    if c.total ≤ i then s
    else
      let a := c.srcAt i
      let n := c.chunk i a
      let put := fun (bs : List Byte) (bad : Bool) (s : State) =>
        let ecc := decide (0 < s.corrected)
        let at_ := (List.range n).map (i + ·)
        let s := { s with corrected := s.corrected - 1 }
        s.setCopy id fun c =>
          { c with
            readTo := i + n
            data := (at_.zip bs).foldl (fun m (k, b) => mapInsert k b m) c.data
            bad := if bad then c.bad ++ at_ else c.bad
            ecc := if ecc then c.ecc ++ at_ else c.ecc }
      if c.srcSpace = 1 then
        let p : Place := .spad c.bid c.idx a.toNat
        put (s.placeBytes p n) (s.placePoisoned p n) (s.readSpad p n)
      else
        match s.engineAccess c c.srcSpace c.srcObj a n false with
        | (.error _, s) => s.setCopy id fun c => { c with failed := true }
        | (.ok pa, s) =>
          let order := if c.strong then Order.strong else Order.weak
          let nobody := mapFresh s.groups
          let ((ds, rs, _, bad), s) := s.findAll c.core nobody order (pieces (.mem pa) n)
          let poisoned := rs.any fun (q, k, _) => s.placePoisoned q k
          let all := rs.foldl (fun ds (q, k, j) => fillFrom j (s.placeBytes q k) ds) ds
          put (all.map (·.getD 0)) (bad.isSome || poisoned) s

/-- Source bytes are there up to a walk position, or the copy has failed. -/
def State.engineReadTo (s : State) (id to_ : Nat) : Nat → State
  | 0 => s
  | fuel + 1 =>
    match mapFind id s.copies with
    | none => s
    | some c => if to_ ≤ c.readTo || c.failed then s else (s.engineRead id).engineReadTo id to_ fuel

/-- Lines of a receiver whose bytes are all there become present. -/
def State.showLines (s : State) (id : Nat) (c : Copy) (r : Receiver) (done : Nat) : State :=
  s.setSpad r.bid r.idx fun x => { x with owed := x.owed.filter fun (l, k) => k != id || c.owes done l }

/-- Landed bytes are counted at the receiver's barrier object; bytes beyond EXPECT set OVER (R207, R211). -/
def State.countBytes (s : State) (id : Nat) (c : Copy) (r : Receiver) (n : Nat) (bits : BitVec 6) : State :=
  match c.bar with
  | none => s
  | some off =>
    let b := s.barrier r.bid r.idx off
    let s := s.barrierBytes r.bid r.idx off n bits
    if b.expect < min (b.arrived + n) (2 ^ 32 - 1) then s.setCopy id fun c => { c with status := c.status ||| 16 } else s

/-- A receiver has its bytes up to a walk position. -/
def State.setDone (s : State) (id recv done : Nat) : State :=
  s.setCopy id fun c =>
    let rs := listUpdate recv (fun r => { r with done := done }) c.receivers
    let low := (rs.filter (!·.dropped)).foldl (fun m r => min m r.done) c.total
    { c with receivers := rs, data := c.data.filter fun (k, _) => low ≤ k, bad := c.bad.filter (low ≤ ·)
             ecc := c.ecc.filter (low ≤ ·) }

/-- The rest of a failed copy: not written, but present and counted as arrived (R207, R211). -/
def State.landRest (s : State) (id recv : Nat) (c : Copy) (r : Receiver) : State :=
  let n := c.total - r.done
  let s := s.setCopy id fun c => { c with status := c.status ||| 32 }
  let s := if c.dstSpace = 0 then s
    else (s.showLines id c r c.total).countBytes id c r n (32 ||| (c.status &&& 8))
  s.setDone id recv c.total

/-- Writes a destination sector's bytes; an uncorrectable source makes the sector poison. -/
def State.landBytes (s : State) (p : Place) (bs : List Byte) (bad : Bool) : State :=
  let s := (s.disown p bs.length).placeWrite p bs
  if !bad then s
  else
    match p with
    | .mem pa => { s with poison := setAdd (pa / 32) s.poison }
    | .spad b i o => s.setSpad b i fun r => { r with poison := setAdd (o / 32) r.poison }

/-- One sector at the place it belongs to. A plain copy's bytes in a line of a sealed object are discarded and logged, as a
store's are (R235). -/
def State.landAt (s : State) (id recv : Nat) (c : Copy) (r : Receiver) (p : Place) (n : Nat) : State :=
  let at_ := (List.range n).map (r.done + ·)
  let bad := at_.any c.bad.contains
  let bits : BitVec 6 := (if bad then 4 else 0) ||| (if at_.any c.ecc.contains then 2 else 0)
  let bs := at_.map fun k => mapGet 0 c.data k
  let s := match p with
    | .mem pa =>
      if c.obj = 0 ∧ (s.sealedLine pa).isSome then
        s.logError c.part { core := c.core, kind := 6, addr := BitVec.ofNat 64 pa }
      else s.landBytes p bs bad
    | .spad _ _ _ => s.landBytes p bs bad
  let s := s.setCopy id fun c => { c with status := c.status ||| bits }
  let s := if c.dstSpace = 0 then s
    else (s.showLines id c r (r.done + n)).countBytes id c r n (bits ||| (c.status &&& 8))
  s.setDone id recv (r.done + n)

/-- The next sector of a receiver lands. -/
def State.landSector (s : State) (id recv : Nat) : State :=
  match (mapFind id s.copies).bind fun c => c.receivers[recv]?.map fun r => (c, r) with
  | none => s
  | some (c, r) =>
    let a := c.dstAt r.done
    let n := c.chunk r.done a
    let s := s.engineReadTo id (r.done + n) (n + 1)
    match mapFind id s.copies with
    | none => s
    | some c =>
      if c.failed then s.landRest id recv c r
      else if c.dstSpace ≠ 0 then s.landAt id recv c r (.spad r.bid r.idx a.toNat) n
      else
        match s.engineAccess c 0 c.obj a n true with
        | (.error _, s) => (s.setCopy id fun c => { c with failed := true }).landRest id recv c r
        | (.ok pa, t) =>
          if t.linesTaken id [pa / 128] then s
          else (t.giveLines id [pa / 128]).landAt id recv c r (.mem pa) n

/-- COPY_SECTOR_LAND: the next sector of a receiver lands, or, `ahead`, the engine only reads more of its source. -/
def execCopySectorLand (copy recv : Nat) (ahead : Bool) (s : State) : Host.Outcome State Fault Refusal :=
  match mapFind copy s.copies with
  | none => .next s
  | some c =>
    if ahead then .next (if c.failed then s else s.engineRead copy)
    else
      match c.receivers[recv]? with
      | none => .next s
      | some r =>
        let ready := !r.dropped && r.done < c.total && (if c.dstSpace = 0 then c.owns else r.cleared)
        .next (if ready then s.landSector copy recv else s)

/-! ## Resolution (R206 to R208, R214) -/

/-- Cores whose L1, or whose fills on their way, hold sectors of lines. -/
def State.holders (s : State) (lines : List Nat) : Mask :=
  maskOf ((mapKeys s.cores).filter fun c =>
    ((s.core c).l1.any fun (k, _) => lines.contains (k / 4))
      || s.replies.any fun r => r.core == c && r.fill.any fun (k, _) => lines.contains (k / 4))

/-- A copy gives its lines back; what it wrote is remembered for the L1s that hold older bytes. -/
def State.release (s : State) (id : Nat) (c : Copy) : State :=
  let lines := (s.slices.flatMap fun (_, k) => (k.owned.filter (·.2 == id)).map (·.1)).foldl (fun m l => setAdd l m) []
  let s := { s with slices := s.slices.map fun (k, x) => (k, { x with owned := x.owned.filter (·.2 != id) }) }
  let s := if c.obj = 0 then s
    else s.setObject c.obj fun o =>
      if (o.owner.map (·.1)) == some id then { o with state := .idle, owner := none } else o
  let m := s.holders lines
  if m = 0 then s else { s with landed := s.landed ++ [(lines, m)] }

/-- The result word of a copy (R207, R208). -/
def Copy.result (c : Copy) : Option Word :=
  if c.failed then none else some (if c.multicast then c.drops else c.status.setWidth 32)

/-- COPY_RESOLVE: every receiver has the copy's bytes or is dropped; ownership is released and the future resolves. -/
def execCopyResolve (copy : Nat) (s : State) : Host.Outcome State Fault Refusal :=
  match mapFind copy s.copies with
  | none => .next s
  | some c =>
    if c.receivers.all fun r => r.dropped || c.total ≤ r.done then
      let s := { s with copies := mapErase copy s.copies }
      let s := if c.dstSpace = 0 then s.release copy c else s
      let s := s.resolveFuture c.core c.slot c.gen c.result
      let bids := (mapKeys s.blocks).filter fun b => c.names b
      .next (bids.foldl State.reapBlock s)
    else .next s

end Sys2Proof.Machine
end

