-- ==== Sys2Proof/Machine/Inspects.lean ====
section
/-! DEFINITION. Inspect (R264 to R274): its names and checks, the snapshot, the push at each core, completion; and its
counters (R275). -/

namespace Sys2Proof.Machine

/-! ## Names (R265, R266) -/

/-- What a lane asks for. -/
structure Ask where
  form : Nat
  scope : Nat
  lo : Word := 0
  hi : Word := 0
  count : Nat := 0
  peer : Option Nat := none
deriving DecidableEq, Repr

/-- The parts of a name that its form reads. -/
def Ask.plain (a : Ask) : Ask :=
  match a.form with
  | 2 => { a with lo := a.lo &&& 0xFFFF0000 }
  | 3 => { a with hi := 0 }
  | 6 => { a with lo := 0, hi := 0 }
  | _ => a

def Ask.address (a : Ask) : DWord := BitVec.ofNat 64 (a.lo.toNat + 2 ^ 32 * a.hi.toNat)

/-- The live groups that a .T, .G or .B name stands for in a partition; PROT where its grid is another's. -/
def State.named (s : State) (part : Nat) (a : Ask) : Except Nat (List Nat) :=
  let n := a.lo.toNat / 65536
  let i := a.lo.toNat % 65536
  match s.launches.find? fun (_, r) => n != 0 && r.grid == n && 2 ≤ r.status && r.status ≤ 4 with
  | none => .ok []
  | some (rid, r) =>
    if r.part ≠ part then .error 7
    else
      let bids := (s.blocks.filter fun (_, b) => b.rid == some rid && b.index == a.hi.toNat).map (·.1)
      let hit := fun (g : Group) => bids.contains g.bid && (match a.form with
        | 0 => g.index == i / g.width && (g.thread? (i % g.width)).any fun t => !t.st.isExited
        | 1 => g.index == i
        | _ => true)
      .ok ((s.groups.filter fun (_, g) => hit g).map (·.1))

/-- The named rows lie within the object. -/
def ObjEntry.rowsFit (o : ObjEntry) (first n : Nat) : Bool :=
  1 ≤ n && n ≤ 65536 && (first + n - 1) * o.rowStride + o.rowLen ≤ o.extent.toNat

/-- Where a request goes: the groups it names, or the slice that takes its snapshot. -/
structure Aim where
  groups : List Nat := []
  slice : Option Nat := none

/-- Orders 3 and 4 of R266. -/
def State.aimObject (s : State) (part : Nat) (a : Ask) : Except Nat Aim :=
  match (s.object? a.lo).filter (·.visible part) with
  | none => .error 0x16
  | some o =>
    if a.form = 4 ∧ o.cls ≠ 1 then .error 0x16
    else if a.form = 4 ∧ !o.rowsFit a.hi.toNat a.count then .error 4
    else .ok { slice := some (a.lo.extractLsb' 25 7).toNat }

/-- The checks of R266 for a group of this device: where the request goes, or the cause and its address. -/
def State.aim (s : State) (gid : Nat) (g : Group) (a : Ask) : Except (Nat × DWord) Aim × State :=
  match a.form with
  | 6 => (.ok { groups := [gid] }, s)
  | 5 =>
    match s.checkGlobal g {} .read a.address 1 with
    | (.error c, s) => (.error (c, a.address), s)
    | (.ok pa, s) => (.ok { slice := some (homeOf pa) }, s)
  | _ =>
    if 3 ≤ a.form then ((s.aimObject g.part a).mapError fun c => (c, 0), s)
    else
      match a.peer with
      | some d =>
        if s.members.getLsbD d then (.ok {}, s)
        else (((s.named g.part a).mapError fun c => (c, 0)).bind fun _ => .error (0x16, 0), s)
      | none => ((s.named g.part a).map (fun gs => { groups := gs }) |>.mapError fun c => (c, 0), s)

/-! ## Sending (R264, R267) -/

def Inspect.isAsk (x : Inspect) (gid : Nat) (a : Ask) : Bool :=
  x.gid == gid && x.core.isSome && x.form == a.form && x.scope == a.scope && x.lo == a.lo && x.hi == a.hi
    && x.count == a.count && x.peer == a.peer

/-- Cores that hold groups. -/
def State.coresOf (s : State) (gids : List Nat) : List Nat :=
  gids.foldl (fun acc gid =>
    match s.group? gid with
    | some g => if g.residence == .resident then setAdd g.core acc else acc
    | none => acc) []

/-- A new request. -/
def State.newInspect (s : State) (core : Option Nat) (gid part : Nat) (a : Ask) (w : Aim) : Nat × State :=
  let (id, s) := s.fresh
  let x : Inspect :=
    { core := core, gid := gid, part := part, form := a.form, scope := a.scope, lo := a.lo, hi := a.hi, count := a.count
      peer := a.peer, slice := w.slice, groups := w.groups, targets := s.coresOf w.groups }
  (id, { s with inspects := mapInsert id x s.inspects })

/-- A core's request travels to the slice that takes its snapshot, or to one that forwards it, which is not stated: a free
choice (R28, notes/assumptions/81). One that goes to a peer, or has no target, goes nowhere. -/
def State.routeInspect (s : State) (id core gid part : Nat) : State :=
  match mapFind id s.inspects with
  | none => s
  | some x =>
    if x.slice.isNone && x.targets.isEmpty then s
    else
      let (k, s) := match x.slice with
        | some k => (k, s)
        | none => s.pick 128
      (s.setInspect id fun x => { x with req := some s.seq }).post core k gid part (.inspect id)

/-- The slice takes the request up: those of the core that it stands behind have been served (R29). -/
def State.takeInspect (s : State) (id : Nat) (x : Inspect) : Option State :=
  match x.req with
  | none => some s
  | some r => (s.take r).map fun (_, s) => s.setInspect id fun x => { x with req := none }

/-- A lane's request: the one of its issue that is identical, or a new one. -/
def State.sendAsk (s : State) (issueNo gid : Nat) (g : Group) (a : Ask) (w : Aim) : Nat × State :=
  match s.inspects.find? fun (id, x) => issueNo ≤ id && x.isAsk gid a with
  | some (id, _) => (id, s)
  | none =>
    let (id, s) := s.newInspect (some g.core) gid g.part a w
    (id, (s.routeInspect id g.core gid g.part).setCore g.core (·.countIstat g.part 0 1))

/-- The operands of an inspect: the registers of the handle, and what it asks for. -/
def askOperands (s : State) (g : Group) (t : Thread) (f : RForm) (handle : Bool) : Except Stop (List Nat × Ask) :=
  let form := f.c.toNat % 8
  let scope := f.c.toNat / 8 % 4
  let d := if handle then [(f.d.toNat, 1)] else []
  let name := if form = 6 then [] else [(f.a.toNat, 2)]
  let reg := form = 4 ∨ (form < 3 ∧ f.b ≠ noIndex)
  let b := if reg then [(f.b.toNat, 1)] else []
  match physAll g t (d ++ name ++ b) with
  | .error e => .error e
  | .ok rs =>
    match readAll g t ((rs.drop d.length).flatMap fun r => r) with
    | .error e => .error e
    | .ok ws =>
      let x := ((ws.getD 2 0).toNat) % (if form = 4 then 2 ^ 32 else 64)
      let peer := if reg ∧ form < 3 ∧ x ≠ s.domain then some x else none
      .ok ((if handle then rs.getD 0 [] else []),
        { form := form, scope := scope, lo := ws.getD 0 0, hi := ws.getD 1 0, count := if form = 4 then x else 0
          peer := peer : Ask }.plain)

def inspectLane (f : RForm) (handle : Bool) (issueNo gid : Nat) (s : State) (l : Nat) (t : Thread) : LaneOut :=
  match s.group? gid with
  | none => .stop (.next false)
  | some g =>
    match askOperands s g t f handle with
    | .error e => e.lane
    | .ok (regs, a) =>
      match s.aim gid g a with
      | (.error (c, ea), s) => .done s (.raise { cause := c, addr := ea })
      | (.ok w, s) =>
        if handle then
          match s.newFuture g.core with
          | none => .stop (.park (.futureSpace g.core))
          | some ((slot, gen), s) =>
            let (id, s) := s.sendAsk issueNo gid g a w
            let s := s.setThread gid l (·.putHandle (regs.getD 0 0) g.core slot gen)
            .done (s.setInspect id fun x => { x with handles := x.handles ++ [(slot, gen)] }) (.next true)
        else
          let (id, s) := s.sendAsk issueNo gid g a w
          let (p, s) := s.openPend gid g [l] .answer [] 1 0
          .done (s.setInspect id fun x => { x with pends := x.pends ++ [p] }) (.parkNext (.answer p) true)

def inspectShape (f : RForm) : Shape :=
  { pred := f.pred, runs := if f.c.toNat % 8 = 6 then [] else [(f.a.toNat, 2)], stall := f.stall.toNat }

def execInspect (f : RForm) (s : State) : Host.Outcome State Fault Refusal :=
  seqInstr (inspectShape f) (inspectLane f false s.seq) s.newStore

def execInspectf (f : RForm) (s : State) : Host.Outcome State Fault Refusal :=
  seqInstr (inspectShape f) (inspectLane f true s.seq) s.newStore

/-! ## The snapshot (R270) -/

/-- The cores of a roster. -/
def rosterCores (m : Mask) : List Nat := (List.range 128).filter (maskHas m)

/-- INSPECT_SNAPSHOT: the slice takes its roster snapshot and forwards a drain to each core in it. -/
def execInspectSnapshot (insp : Nat) (s : State) : Host.Outcome State Fault Refusal :=
  match mapFind insp s.inspects with
  | none => .next s
  | some x =>
    match x.slice with
    | none => .next s
    | some k =>
      if x.snapped then .next s
      else
        match s.takeInspect insp x with
        | none => .next s
        | some s =>
          let m : Mask := if x.form = 5 then
              (s.objectsAt x.part x.address).foldl (fun m o => m ||| o.roster) (s.slice k).roster
            else ((s.object? x.lo).map (·.roster)).getD 0
          .next (s.setInspect insp fun x => { x with snapped := true, targets := rosterCores m })

/-! ## The push (R268, R270) -/

/-- A physical address lies in a row that a request names. -/
def State.inRows (s : State) (part : Nat) (o : ObjEntry) (first n pa : Nat) : Bool :=
  (s.vasOf part (o.base.toNat + first * o.rowStride) (n * o.rowStride) pa).any fun va =>
    (va - o.base.toNat) % o.rowStride < o.rowLen

/-- The physical bytes of an entry. -/
def Store.addresses (e : Store) : List Nat :=
  match e.at_ with
  | .mem pa => e.bytes.map fun (i, _) => pa + i
  | .spad _ _ _ => []

/-- The entries of a core that a request covers. -/
def State.covers (s : State) (x : Inspect) (e : Store) : Bool :=
  match x.form with
  | 3 => e.obj == x.lo
  | 4 => e.obj == x.lo && (match s.object? x.lo with
    | some o => e.addresses.any (s.inRows x.part o x.hi.toNat x.count)
    | none => false)
  | 5 => e.at_.cached && some e.at_.slice == x.slice
  | _ => x.groups.contains e.gid

/-- An entry's bytes are placed in the core's L1: an absent sector is filled from its home first. The younger entries for
the sector among those that follow it, where they have left the store queue, keep their bytes. -/
def State.pushEntry (s : State) (core : Nat) (e : Store) (after : List Store) : State :=
  let mark := fun (x : Store) => if x.same e then { x with pushed := true } else x
  let s := (s.readOwners e).setCore core fun c => { c with sq := c.sq.map mark, wt := c.wt.map mark }
  if !e.at_.cached then s
  else
    let s := if (mapFind e.at_.key (s.core core).l1).isSome || s.placeBlocked e.at_ 32 then s
      else match s.homeSector e.at_ with
        | some (k, x) => s.l1Put core k x
        | none => s
    let newer := fun (i : Nat) => after.any fun x => x.sent && x.at_ == e.at_ && (mapFind i x.bytes).isSome
    let put := fun (x : L1Sector) =>
      { x with bytes := patch (e.bytes.filter fun (i, _) => !newer i) x.bytes, poison := x.poison && e.bytes.length < 32 }
    s.setCore core fun c => { c with l1 := mapUpdate e.at_.key put c.l1 }

/-- Of entries in their order, the selected ones are placed in the L1. -/
def State.pushFrom (core : Nat) (sel : Store → Bool) : List Store → State → State
  | [], s => s
  | e :: rest, s => State.pushFrom core sel rest (if sel e then s.pushEntry core e rest else s)

def Store.label (core : Nat) (e : Store) : Nat × Nat × Nat × Place := (core, e.seq, e.gid, e.at_)

/-- The entries that a push sends: those it covers, at .DEV and .SYS what a .CORE push has shown before, and at .SYS the
stores to system windows (R268, R273). -/
def State.pushes (s : State) (x : Inspect) (e : Store) : Bool :=
  s.covers x e || (x.scope != 0 && e.pushed) || (x.scope == 2 && e.sys)

/-- The push of a request at a core; the entries whose acknowledgement it waits for (R268). -/
def State.push (s : State) (x : Inspect) (core : Nat) : List (Nat × Nat × Nat × Place) × State :=
  let sel := s.covers x
  let c := s.core core
  let n := (c.sq.filter sel).length + (c.wc.filter fun e => sel e && !e.sent).length
  let s := s.setCore core (·.countIstat x.part 2 n)
  if x.scope = 0 then
    let s := s.startDrain core sel
    let c := s.core core
    ((c.wc.filter sel).map (·.label core), State.pushFrom core sel (c.wt ++ c.sq) s)
  else
    let out := s.pushes x
    let s := s.startDrain core out
    let c := s.core core
    ((c.wt ++ (c.sq ++ c.wc).filter out).map (·.label core), s)

/-- The core is not ready for a request's push: a TST is between its sectors (R231), or an entry still waits for its data. -/
def State.unready (s : State) (x : Inspect) (core : Nat) : Bool :=
  (s.groups.any fun (_, g) => g.core == core && g.residence == .resident && g.tst.isSome)
    || ((s.core core).sq ++ (s.core core).wc).any fun e => s.pushes x e && s.entryWaits e

/-- INSPECT_ARRIVAL: a request, or a forwarded drain, is accepted at a target core while its queue of sixteen has room
(R271). -/
def execInspectArrival (insp core : Nat) (s : State) : Host.Outcome State Fault Refusal :=
  match mapFind insp s.inspects with
  | none => .next s
  | some x =>
    if !x.targets.contains core || 16 ≤ (s.core core).insq.length || s.unready x core then .next s
    else
      match s.takeInspect insp x with
      | none => .next s
      | some s =>
      let (waits, s) := s.push x core
      let s := s.setInspect insp fun x =>
        { x with targets := setDel core x.targets, pushing := setAdd core x.pushing, awaits := x.awaits ++ waits }
      let q := (s.core core).insq ++ [insp]
      let now := (q.filter fun i => (mapFind i s.inspects).any (·.part == x.part)).length
      let s := s.setCore core fun c =>
        { c with insq := q, insMax := mapPut 0 x.part (max now (mapGet 0 c.insMax x.part)) c.insMax }
      .next (s.ackInspects core)

/-! ## Completion (R267, R269) -/

/-- A sector of an observer's L1 that a completed request invalidates. -/
def State.stales (s : State) (x : Inspect) (k : Nat) : Bool :=
  let o := s.object? x.lo
  let line := (List.range 4).map fun i => 32 * (k / 4 * 4 + i)
  if x.scope = 0 then false
  else
    match x.form with
    | 3 => o.any fun o => !(s.vasOf x.part o.base.toNat o.extent.toNat (32 * k)).isEmpty
    | 4 => o.any fun o => line.any (s.inRows x.part o x.hi.toNat x.count)
    | 5 => some (homeOf (32 * k)) == x.slice
    | 6 => false
    | _ => true

/-- A request ends: its handles resolve, and its waiting lanes go on or raise a cause, FUTFAIL where it could not
complete. -/
def State.endInspect (s : State) (id : Nat) (x : Inspect) (res : Option Word) (cause : Nat := 0x0C) : State :=
  let s := { s with inspects := mapErase id s.inspects }
  let s := { s with cores := s.cores.map fun (k, c) => (k, { c with insq := c.insq.filter (· != id) }) }
  let s := x.handles.foldl (fun s (slot, gen) => s.resolveFuture (x.core.getD 0) slot gen res) s
  x.pends.foldl (fun s p =>
    let s := s.setPend p fun q =>
      { q with wait := q.wait - 1, cause := if res.isNone then some (cause, 0) else q.cause }
    s.settlePend p true) s

/-- Everything that a request waited for has been acknowledged. -/
def Inspect.pushedHome (x : Inspect) : Bool :=
  x.targets.isEmpty && x.pushing.isEmpty && (x.slice.isNone || x.snapped)

/-- The generation advances for the object forms; the result word. -/
def State.advance (s : State) (x : Inspect) : Word × State :=
  if x.form = 3 ∨ x.form = 4 then
    let s := s.setObject x.lo fun o => { o with gen := o.gen + 1 }
    ((((s.object? x.lo).map fun (o : ObjEntry) => o.gen).getD 0).setWidth 32, s)
  else (0, s)

/-- A peer answers PROT where the grid that a request names there is another partition's, which this device cannot know
(R266, R278): a free choice (notes/assumptions/100). -/
def State.peerRefuses (s : State) : Bool × State :=
  let (k, s) := s.pick 2
  (k == 1, s)

/-- INSPECT_COMPLETE: every push is acknowledged, and a peer has answered; the observer's L1 is invalidated and the
request completes. A peer's own request is answered. -/
def execInspectComplete (insp : Nat) (s : State) : Host.Outcome State Fault Refusal :=
  let s := match mapFind insp s.inspects with
    | some x => x.pushing.foldl State.ackInspects s
    | none => s
  match mapFind insp s.inspects with
  | none => .next s
  | some x =>
    let mailbox := s.parts.any fun (_, p) => p.hbusy.any fun b => b.1 == some insp
    if mailbox || !x.pushedHome then .next s
    else
      let (no, s) := if x.core.isSome && x.peer.isSome then s.peerRefuses else (false, s)
      if no then .next (s.endInspect insp x none 7)
      else
      let core := match x.core, s.group? x.gid with
        | some _, some g => some g.core
        | c, _ => c
      let s := match core with
        | some c => s.dropFills c (s.stales x)
        | none => s
      let (w, s) := s.advance x
      let s := s.endInspect insp x (some w)
      match x.core, x.peer with
      | none, some d => .next { s with answers := .peer d [] none :: s.answers }
      | _, _ => .next s

/-! ## Counters (R275) -/

def execIstat (f : RForm) (s : State) : Host.Outcome State Fault Refusal :=
  uniInstr 8 f.pred false (fun s gid g _ =>
    match readS g f.a.toNat with
    | .error e => uniStop s e
    | .ok x =>
      let k := x.toNat % 4
      let c := s.core g.core
      let now := (c.insq.filter fun i => (mapFind i s.inspects).any (·.part == g.part)).length
      let v := if k = 3 then now % 65536 + 65536 * (mapGet 0 c.insMax g.part % 65536)
        else mapGet 0 c.istat (4 * g.part + k)
      let s := s.setGroup gid (·.putSWide true f.d.toNat v)
      if f.c = 1 then
        let clear := fun (c : Core) => if k = 3 then { c with insMax := mapErase g.part c.insMax }
          else { c with istat := mapErase (4 * g.part + k) c.istat }
        .done (s.setCore g.core clear) (.next true)
      else .done s (.next false)) s

end Sys2Proof.Machine
end

