-- ==== Sys2Proof/Machine/Objects.lean ====
section
/-! DEFINITION. Coherence objects (R228 to R235), L2 pins (R236), and the instruction caches (R237, R238). -/

namespace Sys2Proof.Machine

/-- The result of an object or pin instruction in q0. -/
def State.answerQ (s : State) (gid : Nat) (b : Bool) : State := s.setGroup gid (·.putQ 0 b)

/-! ## Declaring (R228, R229, R235) -/

/-- A shape record. -/
structure ShapeRecord where
  base : Nat
  extent : Nat
  esize : Nat
  cls : Nat
  flags : Nat
  rowLen : Nat
  rowStride : Nat
  trows : Nat
  tcols : Nat

def ShapeRecord.ofBytes (bs : List Byte) : ShapeRecord :=
  { base := fieldNat bs 0 8, extent := fieldNat bs 8 8, esize := fieldNat bs 0x10 1, cls := fieldNat bs 0x11 1
    flags := fieldNat bs 0x12 1, rowLen := fieldNat bs 0x14 4, rowStride := fieldNat bs 0x18 4
    trows := fieldNat bs 0x1C 2, tcols := fieldNat bs 0x1E 2 }

def ShapeRecord.rowAtomic (r : ShapeRecord) : Bool := r.flags.testBit 0
def ShapeRecord.shared (r : ShapeRecord) : Bool := r.flags.testBit 1
def ShapeRecord.sealable (r : ShapeRecord) : Bool := r.flags.testBit 2

/-- The record keeps R228. -/
def ShapeRecord.ok (r : ShapeRecord) : Bool :=
  r.base % 128 == 0 && r.extent % 128 == 0 && 128 ≤ r.extent && r.base + r.extent ≤ 2 ^ 56 && r.esize ≤ 6 && r.cls ≤ 2
    && (!r.rowAtomic || r.cls == 1)
    && (r.cls != 1 || (r.rowLen % 32 == 0 && 32 ≤ r.rowLen && r.rowLen ≤ (if r.rowAtomic then 512 else 65536)
      && r.rowStride % 32 == 0 && r.rowLen ≤ r.rowStride))
    && (r.cls != 2 || (r.trows != 0 && r.tcols != 0 && r.trows * r.tcols * 2 ^ r.esize ≤ r.extent))

/-- An object id. -/
def objectId (slice entry seq : Nat) : Word := BitVec.ofNat 32 (slice % 128 * 2 ^ 25 + entry % 4096 * 2 ^ 13 + seq % 8192)

/-- Declares an object in a free entry of a slice: its id, or 0 where no entry is free. -/
def State.declare (s : State) (part slice : Nat) (r : ShapeRecord) : Word × State :=
  let k := s.slice slice
  let free := (List.range 4096).filter fun i => (mapFind i k.objects).isNone
  if free.isEmpty then (0, s)
  else
    let (n, s) := s.pick free.length
    let i := free.getD n 0
    let next := (mapGet 0 k.seqs i + 1) % 8192
    let seq := if next = 0 then 1 else next
    let id := objectId slice i seq
    let o : ObjEntry :=
      { id := id, base := BitVec.ofNat 64 r.base, extent := BitVec.ofNat 64 r.extent, cls := r.cls
        sealable := r.sealable, shared := r.shared, rowAtomic := r.rowAtomic, rowLen := r.rowLen
        rowStride := r.rowStride, part := part }
    (id, s.setSlice slice fun k => { k with objects := mapInsert i o k.objects, seqs := mapPut 0 i seq k.seqs })

/-- The result of ODECL: the id, the code, q0. -/
def State.odeclResult (s : State) (gid d : Nat) (id : Word) (code : Nat) : State :=
  (s.setGroup gid fun g => (g.putS d id).putS (d + 1) (BitVec.ofNat 32 code)).answerQ gid (code == 0)

def execOdecl (f : MForm) (s : State) : Host.Outcome State Fault Refusal :=
  uniInstr 8 f.pred false (fun s gid g _ =>
    match memUniAddr g f with
    | .error e => uniStop s e
    | .ok (a, ea) =>
      match s.checkReg g a [0] .read ea 64 with
      | some c => .raise { cause := c, addr := ea }
      | none =>
        match s.checkAccess g a .read ea 64 64 with
        | (.error c, s) => .done s (.raise { cause := c, addr := ea })
        | (.ok pa, s) =>
          match s.readNow gid g .strong (.mem pa) 64 with
          | none => .hold
          | some (.error (c, x), s) => .done s (.raise { cause := c, addr := x })
          | some (.ok bs, s) =>
            let r := ShapeRecord.ofBytes bs
            match s.checkGlobal g {} .read (BitVec.ofNat 64 r.base) 1 with
            | (.error c, s) => .done s (.raise { cause := c, addr := BitVec.ofNat 64 r.base })
            | (.ok at_, s) =>
              let d := f.d.toNat
              if !r.ok then .done (s.odeclResult gid d 0 2) (.next true)
              else
                let (id, s) := s.declare g.part (homeOf at_) r
                .done (s.odeclResult gid d id (if id = 0 then 1 else 0)) (.next true)) s

/-! ## Sealing and freeing (R235) -/

/-- A sector of an object's lines, as a partition's address space has them now. -/
def State.ofObject (s : State) (part : Nat) (o : ObjEntry) (k : Nat) : Bool :=
  !(s.vasOf part o.base.toNat o.extent.toNat (32 * k)).isEmpty

/-- Every L1 copy of an object's lines goes, device-wide. -/
def State.forgetObject (s : State) (part : Nat) (o : ObjEntry) : State :=
  (mapKeys s.cores).foldl (fun t c => t.dropFills c (s.ofObject part o)) s

/-- The physical lines of an object's range; pages without a translation are skipped. -/
def State.objectLines (s : State) (part : Nat) (o : ObjEntry) : List Nat :=
  ((List.range (o.extent.toNat / 128)).filterMap fun i =>
    let va := o.base.toNat + 128 * i
    (s.walk part va).map fun e => e.pa va / 128).foldl (fun acc l => setAdd l acc) []

/-- The entry closes to further rostering, and its cores' stores for the object leave, those of a TST under way among
them. Whether all are home. -/
def State.closeObject (s : State) (gid : Nat) (o : ObjEntry) : Bool × State :=
  let s := s.setObject o.id fun o => { o with closing := o.closing.orElse fun _ => some gid }
  let mine := fun (e : Store) => e.obj == o.id
  let cores := mapKeys s.cores
  let s := cores.foldl (fun s c => if (s.core c).entries.any mine then s.startDrain c mine else s) s
  (cores.all fun c => !s.storesTile c o.id && !((s.core c).entries.any mine), s)

/-- The object that an instruction of a group closes, if it may. -/
def State.closable (s : State) (g : Group) (id : Word) (sealing : Bool) : Option ObjEntry :=
  (s.object? id).filter fun o => o.part == g.part && (!sealing || (o.sealable && o.state != .sealed))

/-- SEAL and OFREE wait while an engine owns the object, and for the push. -/
def closeWaits (f : RForm) (sealing : Bool) : Waits := fun s gid _ =>
  match s.group? gid with
  | none => (true, s)
  | some g =>
    if !uniActive g f.pred then (true, s)
    else
      match readS g f.a.toNat with
      | .error _ => (true, s)
      | .ok id =>
        match s.closable g id sealing with
        | none => (true, s)
        | some o => if o.owner.isSome then (false, s) else s.closeObject gid o

/-- Cores' lookups of an object change, or drop it. -/
def State.setLookups (s : State) (id : Word) (f : Lookup → Option Lookup) : State :=
  let each := fun (c : Core) => { c with lookup := c.lookup.filterMap fun e => if e.id == id then f e else some e }
  { s with cores := s.cores.map fun (k, c) => (k, each c) }

/-- An instruction on the object that a uniform register names. -/
def objectInstr (f : RForm) (w : Waits) (opens : Bool) (fn : State → Nat → Group → Word → State) (s : State) :
    Host.Outcome State Fault Refusal :=
  issueAfter w (uniFragment 8 f.pred false (fun s gid g _ =>
    match readS g f.a.toNat with
    | .error e => uniStop s e
    | .ok id => .done (fn s gid g id) (.next opens))) s

def execSeal (f : RForm) (s : State) : Host.Outcome State Fault Refusal :=
  objectInstr f (closeWaits f true) true (fun s gid g id =>
    match (s.object? id).filter fun o => o.part == g.part && o.sealable with
    | none => s.answerQ gid false
    | some o =>
      if o.state = .sealed then s.answerQ gid true
      else
        let lines := s.objectLines g.part o
        let s := (s.forgetObject g.part o).setObject id fun o =>
          { o with state := .sealed, closing := none, roster := 0, gen := o.gen + 1, lines := lines }
        (s.setLookups id fun e => some { e with sealed := true, known := false }).answerQ gid true) s

def execUnseal (f : RForm) (s : State) : Host.Outcome State Fault Refusal :=
  objectInstr f (fun s _ _ => (true, s)) true (fun s gid g id =>
    match (s.object? id).filter fun o => o.part == g.part && o.state == .sealed with
    | none => s.answerQ gid false
    | some o =>
      let s := (s.forgetObject g.part o).setObject id fun o => { o with state := .idle, lines := [] }
      (s.setLookups id fun e => some { e with sealed := false }).answerQ gid true) s

def execOfree (f : RForm) (s : State) : Host.Outcome State Fault Refusal :=
  objectInstr f (closeWaits f false) true (fun s gid g id =>
    match (s.object? id).filter (·.part == g.part) with
    | none => s.answerQ gid false
    | some o =>
      let s := (s.forgetObject g.part o).setSlice (id.extractLsb' 25 7).toNat fun k =>
        { k with objects := mapErase (id.extractLsb' 13 12).toNat k.objects }
      (s.setLookups id fun _ => none).answerQ gid true) s

/-! ## The snapshot (R235) -/

def ObjEntry.stateCode (o : ObjEntry) : Nat :=
  match o.state with
  | .idle => 0
  | .owned => 1
  | .sealed => 2

/-- The eight words of OQUERY. -/
def ObjEntry.words (o : ObjEntry) : List Nat :=
  let bit := fun (b : Bool) n => if b then 2 ^ n else 0
  [o.gen.toNat * 65536 + o.cls % 4 * 32 + bit o.sealable 4 + bit o.shared 3 + bit o.rowAtomic 2 + o.stateCode,
    bit o.owner.isSome 15 + ((o.owner.map (·.2)).getD 0) % 128 * 256 + o.part % 8,
    o.base.toNat % 2 ^ 32, o.base.toNat / 2 ^ 32]
    ++ (List.range 4).map fun i => (o.roster.extractLsb' (32 * i) 32).toNat

def execOquery (f : RForm) (s : State) : Host.Outcome State Fault Refusal :=
  objectInstr f (fun s _ _ => (true, s)) false (fun s gid g id =>
    let o := (s.object? id).filter (·.visible g.part)
    let ws := (o.map (·.words)).getD [3, 0, 0, 0, 0, 0, 0, 0]
    let put := fun (g : Group) => ((List.range 8).zip ws).foldl (fun g (i, w) => g.putS (f.d.toNat + i) (BitVec.ofNat 32 w)) g
    (s.setGroup gid put).answerQ gid o.isSome) s

/-! ## Pins (R236) -/

/-- The physical stretches of a range, page by page, each checked by orders 2 to 5 of R221: cause and address of the first
that fails. -/
def State.rangeSegs (s : State) (g : Group) (a : AddrReg) (acc : Access) : Nat → Nat → Nat →
    Except (Nat × DWord) (List (Nat × Nat)) × State
  | 0, _, _ => (.ok [], s)
  | fuel + 1, ea, n =>
    if n = 0 then (.ok [], s)
    else
      let k := min n (65536 - ea % 65536)
      match s.checkPage g a acc (BitVec.ofNat 64 ea) k with
      | (.error c, s) => (.error (c, BitVec.ofNat 64 ea), s)
      | (.ok pa, s) =>
        match s.rangeSegs g a acc fuel (ea + k) (n - k) with
        | (.error e, s) => (.error e, s)
        | (.ok more, s) => (.ok ((pa, k) :: more), s)

/-- The lines that stretches touch. -/
def segLines (segs : List (Nat × Nat)) : List Nat :=
  (segs.flatMap fun (pa, n) => (List.range ((pa + n + 127) / 128 - pa / 128)).map (pa / 128 + ·)).foldl
    (fun acc l => setAdd l acc) []

def lineHome (l : Nat) : Nat := homeOf (128 * l)
def lineSet (l : Nat) : Nat := Config.l2Set l % 1536

/-- A partition's pins of a line. -/
def Slice.pinsOf (k : Slice) (part line : Nat) : Nat :=
  ((k.pins.find? fun p => p.line == line && p.part == part).map (·.count)).getD 0

def Slice.setPins (k : Slice) (part line n : Nat) : Slice :=
  let rest := k.pins.filter fun p => !(p.line == line && p.part == part)
  { k with pins := if n = 0 then rest else rest ++ [{ line := line, part := part, count := n }] }

/-- The pinned lines of a slice's set: of any partition, or of one. -/
def Slice.pinned (k : Slice) (set : Nat) (part : Option Nat) : List Nat :=
  (k.pins.filter fun p => lineSet p.line == set && part.all (· == p.part)).foldl (fun acc p => setAdd p.line acc) []

/-- Every line can be pinned once more. -/
def State.pinFits (s : State) (part : Nat) (ls : List Nat) : Bool :=
  ls.all fun l =>
    let k := s.slice (lineHome l)
    let mates := ls.filter fun m => lineHome m == lineHome l && lineSet m == lineSet l
    let after := fun (p : Option Nat) => (mates.foldl (fun acc m => setAdd m acc) (k.pinned (lineSet l) p)).length
    k.pinsOf part l < 255 && after none ≤ 12 && after (some part) ≤ (s.part part).pinways

/-- A pin instruction: its range, checked and translated; nothing of length 0. -/
def pinInstr (f : RForm) (fn : State → Nat → Nat → List Nat → State) (s : State) : Host.Outcome State Fault Refusal :=
  uniInstr 8 f.pred false (fun s gid g _ =>
    match readA g f.a.toNat, readS g f.b.toNat with
    | .error e, _ => uniStop s e
    | _, .error e => uniStop s e
    | .ok a, .ok len =>
      let ea := a.pointer
      let n := len.toNat
      if n = 0 then .done (s.answerQ gid true) (.next true)
      else
        match s.checkReg g a [0] .read ea n with
        | some c => .raise { cause := c, addr := ea }
        | none =>
          match s.rangeSegs g a .read (n / 65536 + 2) ea.toNat n with
          | (.error (c, x), s) => .done s (.raise { cause := c, addr := x })
          | (.ok segs, s) => .done (fn s gid g.part (segLines segs)) (.next true)) s

def execPin (f : RForm) (s : State) : Host.Outcome State Fault Refusal :=
  pinInstr f (fun s gid part ls =>
    if s.pinFits part ls then
      (ls.foldl (fun s l => s.setSlice (lineHome l) fun k => k.setPins part l (k.pinsOf part l + 1)) s).answerQ gid true
    else s.answerQ gid false) s

def execUnpin (f : RForm) (s : State) : Host.Outcome State Fault Refusal :=
  pinInstr f (fun s gid part ls =>
    (ls.foldl (fun s l => s.setSlice (lineHome l) fun k => k.setPins part l (k.pinsOf part l - 1)) s).answerQ gid true) s

/-! ## The instruction caches (R238) -/

/-- The cores of a partition's sets. -/
def State.partCores (s : State) (p : Nat) : List Nat :=
  (mapKeys s.cores).filter fun c => (s.part p).coresets.getLsbD (coreSet c)

/-- The lines of a range leave every instruction cache of a partition; pages without a translation are skipped. -/
def State.icacheForget (s : State) (part base n : Nat) : State :=
  let first := base / 128 * 128
  let hit := fun (l : Nat) => !(s.vasOf part first (base + n - first) (128 * l)).isEmpty
  (s.partCores part).foldl (fun t c => t.setCore c fun k => { k with icache := k.icache.filter fun (l, _) => !hit l }) s

/-- ICINV is a long-latency stall of its bundle (R95, R323). -/
def execIcinv (f : RForm) (s : State) : Host.Outcome State Fault Refusal :=
  uniInstr 8 f.pred false (fun s gid g lanes =>
    match readA g f.a.toNat, readS g f.b.toNat with
    | .error e, _ => uniStop s e
    | _, .error e => uniStop s e
    | .ok a, .ok len =>
      match s.checkReg g a [0] .fetch a.pointer len.toNat with
      | some c => .raise { cause := c, addr := a.pointer }
      | none =>
        let s := s.markStall g.core { frags := [(gid, g.fragOf lanes)] } []
        .done (if len = 0 then s else s.icacheForget g.part a.pointer.toNat len.toNat) (.next false)) s

def execFbar (f : RForm) (s : State) : Host.Outcome State Fault Refusal :=
  uniInstr 8 f.pred false (fun s gid _ _ => .done (s.setGroup gid fun g => { g with fetched := [] }) (.next false)) s

end Sys2Proof.Machine
end

