-- ==== Sys2Proof/Machine/System.lean ====
section
/-! DEFINITION. Scheduling, traps and privilege: NOP, WAIT and YIELD (R133); TRAP, BKPT, PEN and RTE (R293, R294); and
the PRIV class (R65, R295 to R299, R306, R307). -/

namespace Sys2Proof.Machine

/-! ## NOP, WAIT, YIELD (R133) -/

def execNop (f : RForm) (s : State) : Host.Outcome State Fault Refusal :=
  seqInstr { pred := f.pred, stall := f.stall.toNat } (fun _ _ _ _ => .stop (.next false)) s

/-- The thread's counters are at or below WAIT's fields. -/
def Thread.settled (t : Thread) (imm : BitVec 16) : Bool :=
  t.loads ≤ (imm.extractLsb' 12 4).toNat && t.stores ≤ (imm.extractLsb' 8 4).toNat
    && t.copies ≤ (imm.extractLsb' 4 4).toNat && t.tiles ≤ (imm.extractLsb' 0 4).toNat

def execWait (f : I16Form) (s : State) : Host.Outcome State Fault Refusal :=
  seqInstr { pred := f.pred } (fun _ _ _ t => if t.settled f.imm then .stop (.next false) else .hold) s

def execYield (f : RForm) (s : State) : Host.Outcome State Fault Refusal :=
  issue (fun s gid fid =>
    (seqFragment { pred := f.pred, stall := f.stall.toNat } (fun _ _ _ _ => .stop (.next false)) s gid fid).map fun t =>
      match s.group? gid with
      | some g => t.markStall g.core { frags := [(gid, fid)] } []
      | none => t) s

/-! ## TRAP and BKPT (R294), PEN and RTE (R293) -/

def raiseCode (cause : Nat) (f : I16Form) (s : State) : Host.Outcome State Fault Refusal :=
  seqInstr { pred := f.pred } (fun _ _ _ t =>
    .stop (.raise { cause := cause, code := f.imm.toNat, repc := some (t.pc + 8), bump := true })) s

def execTrap (f : I16Form) (s : State) : Host.Outcome State Fault Refusal := raiseCode 0x13 f s
def execBkpt (f : I16Form) (s : State) : Host.Outcome State Fault Refusal := raiseCode 0x12 f s

def execPen (f : RForm) (s : State) : Host.Outcome State Fault Refusal :=
  laneInstr (regShape f 4 []) (fun g _ _ _ t =>
    (physReg g t f.d.toNat).map fun r =>
      { v := [(r, if g.handler && t.origin.isSome then t.pennant else 0)] }) s

/-- RTE in one lane: its origin returns, and the lane has none any more. -/
def rteLane (gid : Nat) (s : State) (l : Nat) (t : Thread) : LaneOut :=
  let s := match t.origin with
    | some (og, ol) => s.returnTrap og ol
    | none => s
  .done (s.setThread gid l fun t => { t with origin := none }) .exit

/-- RTE outside a handler wave raises PROT; its lanes exit as EXIT's do (R102). -/
def execRte (f : RForm) (s : State) : Host.Outcome State Fault Refusal :=
  let sh : Shape := { unpred := true, stall := f.stall.toNat }
  let waits : Waits := fun s gid fid =>
    if (s.group? gid).any (·.handler) then exitWaits sh s gid fid else (true, s)
  issueAfter waits (fun s gid fid =>
    if (s.group? gid).any (·.handler) then seqFragment sh rteLane s gid fid
    else some (s.raiseAll gid fid 8 { cause := 7 })) s

/-! ## Privilege (R65) -/

/-- A PRIV instruction: in a group that is neither privileged nor a handler wave it raises PROT. -/
def privInstr (pred : BitVec 4) (fn : State → Nat → Group → List Nat → UniOut) (s : State) :
    Host.Outcome State Fault Refusal :=
  uniInstr 8 pred false (fun s gid g lanes =>
    if g.privileged || g.handler then fn s gid g lanes else .raise { cause := 7 }) s

/-- The whole page of a cached translation touches a range (R219, R307). -/
def TlbEntry.touches (e : TlbEntry) (base n : Nat) : Bool :=
  let first := e.page / e.span * e.span
  n != 0 && base < 65536 * (first + e.span) && 65536 * first < base + n

/-- Cached translations of a partition leave every TLB. -/
def State.tlbForget (s : State) (part : Nat) (sel : TlbEntry → Bool) : State :=
  let gone := fun (e : TlbEntry) => e.part == part && sel e
  { s with
    cores := s.cores.map fun (k, c) => (k, { c with tlb := c.tlb.filter fun e => !gone e })
    stlb := s.stlb.map fun (k, t) => (k, t.filter fun e => !gone e) }

def execTlbinv (f : RForm) (s : State) : Host.Outcome State Fault Refusal :=
  privInstr f.pred (fun s _ g _ =>
    match readA g f.a.toNat, readS g f.b.toNat with
    | .error e, _ => uniStop s e
    | _, .error e => uniStop s e
    | .ok a, .ok len => .done (s.tlbForget g.part (·.touches a.pointer.toNat len.toNat)) (.next false)) s

/-! ## Images of an origin (R295, R296) -/

/-- The thread image. -/
def threadImage (g : Group) (t : Thread) : List Byte :=
  [BitVec.ofNat 8 (t.p.toNat % 128 + 128), 0, 0, 0] ++ leBytes 4 g.vregs
    ++ (List.range 8).flatMap (fun i => leBytes 4 (mapGet 0 t.x i).toNat) ++ List.replicate 24 0
    ++ (List.range g.vregs).flatMap fun i => leBytes 4 (mapGet 0 t.v i).toNat

/-- The group image. -/
def groupImage (g : Group) : List Byte :=
  (List.range 256).flatMap (fun i => leBytes 4 (mapGet 0 g.s i).toNat)
    ++ [BitVec.ofNat 8 (g.q.toNat % 128 + 128)] ++ List.replicate 63 0
    ++ (List.range 16).flatMap fun k =>
      let a := mapGet {} g.a k
      leBytes 8 a.pointer.toNat ++ leBytes 8 a.base.toNat ++ leBytes 8 a.limit.toNat ++ leBytes 8 a.attr.toNat

/-- Words as registers from 0 on. -/
def imageRegs (n : Nat) (bs : List Byte) (off : Nat) : SMap Word :=
  (List.range n).foldl (fun m i => mapPut 0 i (BitVec.ofNat 32 (fieldNat bs (off + 4 * i) 4)) m) []

/-- The index registers of a thread image; their reserved bits are dropped (R5, R135). -/
def imageIndexes (bs : List Byte) : SMap Word :=
  (List.range 8).foldl (fun m i => mapPut 0 i (BitVec.ofNat 32 (fieldNat bs (8 + 4 * i) 4 % 2 ^ 30)) m) []

/-- A thread with its image loaded: every register written anew. -/
def Thread.load (t : Thread) (vregs : Nat) (bs : List Byte) : Thread :=
  { t with
    p := BitVec.ofNat 8 (fieldNat bs 0 1 % 128), x := imageIndexes bs, v := imageRegs vregs bs 0x40
    fut := [], vtag := [], ptag := [], vhaz := [], phaz := [], xhaz := [] }

/-- A group with its image loaded; ATTR's reserved bits are dropped. -/
def Group.load (g : Group) (bs : List Byte) : Group :=
  let areg := fun (k : Nat) =>
    let w := fun i => BitVec.ofNat 64 (fieldNat bs (0x440 + 32 * k + 8 * i) 8)
    ({ pointer := w 0, base := w 1, limit := w 2, attr := w 3 &&& attrMask } : AddrReg)
  { g with
    s := imageRegs 256 bs 0, q := BitVec.ofNat 8 (fieldNat bs 0x400 1 % 128)
    a := (List.range 16).foldl (fun m k => mapPut {} k (areg k) m) [], stag := [], atag := [] }

/-- A state is TRAPPED, through eviction (R300). -/
def TState.isTrapped : TState → Bool
  | .trapped => true
  | .evicted w => w.isTrapped
  | _ => false

/-- The lane of a partition whose record stands in the ring slot that a pennant names (R284). -/
def State.lanePen (s : State) (part : Nat) (pen : Word) : Option (Nat × Nat × Group × Thread) :=
  if !pen.getLsbD 31 then none
  else
    s.groups.findSome? fun (gid, g) =>
      if g.part != part then none
      else
        (List.range g.threads.length).findSome? fun l =>
          match g.thread? l with
          | some t =>
            if (t.trap.bind (·.slot)) == some (pen.toNat % 4096) then some (gid, l, g, t) else none
          | none => none

/-- Every result on its way to a lane or to the group's own registers is there (R43). -/
def State.stateSettled (s : State) (gid lane : Nat) (g : Group) : Bool :=
  s.quiet gid [lane] && g.stag.isEmpty && g.atag.isEmpty

def imageSize (g : Group) (part : Nat) : Nat := if part = 0 then 64 + 4 * g.vregs else 1600

/-- Where an image lies: its stretches with the index of each one's first byte; a peer's region is none of the spaces. -/
def State.imageSegs (s : State) (g : Group) (a : AddrReg) (acc : Access) (ea : DWord) (n : Nat) :
    Except Nat (List (Place × Nat)) × State :=
  match s.checkReg g a [0, 1] acc ea n with
  | some c => (.error c, s)
  | none =>
    if ea.toNat % 64 ≠ 0 then (.error 8, s)
    else if a.space = 1 then
      match s.spadPlace g a ea n with
      | .error c => (.error c, s)
      | .ok none => (.ok [], s)
      | .ok (some p) => (.ok [(p, n)], s)
    else
      match s.rangeSegs g a acc (n / 65536 + 2) ea.toNat n with
      | (.error (c, _), s) => (.error c, s)
      | (.ok segs, s) =>
        (if s.checkSealed a acc then .error 9 else .ok (segs.map fun (pa, k) => (.mem pa, k)), s)

/-- An image leaves as a uniform store's bytes do, sector by sector; none: no room. -/
def State.storeImage (s : State) (gid : Nat) (g : Group) (o : Order) (a : AddrReg) (bs : List Byte) :
    List (Place × Nat × Nat × Nat) → Except Stop State
  | [] => .ok s
  | (p, off, i, n) :: rest =>
    match p with
    | .spad _ _ _ => ((s.disown (p.add off) n).placeWrite (p.add off) ((bs.drop i).take n)).storeImage gid g o a bs rest
    | .mem pa =>
      match s.newStore.doStore (storeTag gid g o a s.newStore.seq) (pa + off) ((bs.drop i).take n) with
      | .error e => .error e
      | .ok s => s.storeImage gid g o a bs rest

/-- The pieces of stretches by sector. -/
def imagePieces : Nat → List (Place × Nat) → List (Place × Nat × Nat × Nat)
  | _, [] => []
  | i, (p, n) :: rest => (piecesFrom (n + 1) p i n) ++ imagePieces (i + n) rest

/-- Absent scratchpad lines of stretches. -/
def State.lackingAny (s : State) (segs : List (Place × Nat)) : Option Park := segs.findSome? fun (p, n) => s.lacking p n

/-- Reads stretches; none: an engine holds bytes of them. -/
def State.readImage (s : State) (gid : Nat) (g : Group) (o : Order) :
    List (Place × Nat) → Option (Except (Nat × DWord) (List Byte) × State)
  | [] => some (.ok [], s)
  | (p, n) :: rest =>
    match s.readNow gid g o p n with
    | none => none
    | some (.error e, s) => some (.error e, s)
    | some (.ok bs, s) =>
      match s.readImage gid g o rest with
      | none => none
      | some (.error e, s) => some (.error e, s)
      | some (.ok more, s) => some (.ok (bs ++ more), s)

/-- CSAVE or CLOAD as far as the checks: the origin, the part, and where its image lies. -/
def imageInstr (f : MForm) (acc : Access)
    (fn : State → Nat → Group → AddrReg → DWord → Nat × Nat × Group × Thread → Nat → List (Place × Nat) → UniOut)
    (s : State) :
    Host.Outcome State Fault Refusal :=
  privInstr f.pred (fun s gid g _ =>
    match memUniAddr g f, readUnis g [(f.d.toNat, false), (f.d.toNat + 1, false)] with
    | .error e, _ => uniStop s e
    | _, .error e => uniStop s e
    | .ok (a, ea), .ok xs =>
      let part := xs.getD 1 0
      if 2 ≤ part then .raise { cause := 1 }
      else
        match (s.lanePen g.part (BitVec.ofNat 32 (xs.getD 0 0))).filter fun (_, _, _, t) => t.st.isTrapped with
        | none => .done (s.answerQ gid false) (.next (acc == .read))
        | some o =>
          if !s.stateSettled o.1 o.2.1 o.2.2.1 then .hold
          else
            match s.imageSegs g a acc ea (imageSize o.2.2.1 part) with
            | (.error c, s) => .done s (.raise { cause := c, addr := ea })
            | (.ok segs, s) =>
              match s.lackingAny segs with
              | some on => .done s (.park on)
              | none => fn s gid g a ea o part segs) s

def execCsave (f : MForm) (s : State) : Host.Outcome State Fault Refusal :=
  imageInstr f .write (fun s gid g a ea (_, _, og, ot) part segs =>
    let bs := if part = 0 then threadImage og ot else groupImage og
    match s.storeImage gid g (Order.ofCode f.order.toNat) a bs (imagePieces 0 segs) with
    | .error .hold => .hold
    | .error _ => .done s (.raise { cause := 9, addr := ea })
    | .ok s => .done (s.answerQ gid true) (.next false)) s

/-- An image goes into the lane or the group. -/
def State.loadImage (s : State) (gid lane part : Nat) (bs : List Byte) : State :=
  if part = 0 then s.setGroup gid fun g => g.setThread lane fun t => t.load g.vregs bs
  else s.setGroup gid fun g => g.load bs

def execCload (f : MForm) (s : State) : Host.Outcome State Fault Refusal :=
  imageInstr f .read (fun s gid g _ _ (og, ol, _, _) part segs =>
    match s.readImage gid g (Order.ofCode f.order.toNat) segs with
    | none => .hold
    | some (.error (c, x), s) => .done s (.raise { cause := c, addr := x })
    | some (.ok bs, s) => .done ((s.loadImage og ol part bs).answerQ gid true) (.next true)) s

/-! ## HALT and ERRLOG (R299, R306) -/

/-- A thread halts, remembering its state. -/
def Thread.halt (t : Thread) : Thread :=
  { t with st := match t.st with
    | .halted w => .halted w
    | .exited => .exited
    | .trapped => .trapped
    | .running => .halted .ready
    | st => .halted st }

def execHalt (f : RForm) (s : State) : Host.Outcome State Fault Refusal :=
  privInstr f.pred (fun s gid g lanes =>
    match readS g f.a.toNat with
    | .error e => uniStop s e
    | .ok x =>
      let group := BitVec.ofNat 32 (s.gridOf g % 65536 * 65536 + g.index % 65536)
      let post := fun (p : Partition) => { p with hcode := x, hpc := g.pcOf lanes + 8, hgroup := group, hflag := true }
      let s := ((s.setPart g.part post).raise (64 + g.part)).setGroup gid fun g =>
        { g with threads := g.threads.map (·.halt) }
      .done s (.next false)) s

/-- The words of an error-log entry (R305). -/
def LogEntry.words (e : LogEntry) : List Nat :=
  [e.core % 128 * 2 ^ 17 + e.cause % 256 * 256 + e.kind % 256, e.grid % 65536, e.block, e.count
    , e.addr.toNat % 2 ^ 32, e.addr.toNat / 2 ^ 32, e.seq.toNat % 2 ^ 32, e.seq.toNat / 2 ^ 32]

def execErrlog (f : RForm) (s : State) : Host.Outcome State Fault Refusal :=
  privInstr f.pred (fun s gid g _ =>
    match (s.part g.part).log with
    | [] => .done (s.answerQ gid false) (.next true)
    | e :: rest =>
      let put := fun (g : Group) =>
        ((List.range 8).zip e.words).foldl (fun g (i, w) => g.putS (f.d.toNat + i) (BitVec.ofNat 32 w)) g
      let s := s.setPart g.part fun p => { p with log := rest }
      .done ((s.setGroup gid put).answerQ gid true) (.next true)) s

end Sys2Proof.Machine
end

