-- ==== Sys2Proof/Machine/Registers.lean ====
section
/-! DEFINITION. The host's registers in BAR0 (R4, R5, R325): a block as a list of fields, a write judged field by field
(R335, R341), and the blocks of the device, the launch queues, the regions and the partitions (R328, R330, R340 to R343).
-/

namespace Sys2Proof.Machine

/-! ## Fields (R4, R5) -/

/-- Access codes (R4). -/
inductive FieldAccess where
  | rw
  | ro
  | w1c
deriving DecidableEq, Repr

/-- A field of a block of registers: its first bit counted from the block's first byte, its width, how it is read and
stored, whether it is written only while the block's owner is quiet, and the values it takes. -/
structure Field (α : Type) where
  bit : Nat
  width : Nat
  get : α → Nat
  put : Nat → α → α
  access : FieldAccess := .rw
  quiet : Bool := false
  ok : α → Nat → Bool := fun _ _ => true

/-- A value with the bits of a write that fall on it: the field begins at `bit`, the write at byte `off`. -/
def mergeBits (bit w old off width value : Nat) : Nat :=
  let s := max bit (8 * off)
  let e := min (bit + w) (8 * (off + width))
  if e ≤ s then old
  else
    let n := e - s
    let new := value / 2 ^ (s - 8 * off) % 2 ^ n
    old / 2 ^ (e - bit) * 2 ^ (e - bit) + new * 2 ^ (s - bit) + old % 2 ^ (s - bit)

/-- What a write did to a block: the block, and whether a field kept its value because its owner was not quiet, or because
the value was out of range. -/
structure Judged (α : Type) where
  block : α
  notq : Bool := false
  range : Bool := false

/-- One field of a write (R341): a field left at its value is not written. -/
def Field.judge {α : Type} (f : Field α) (quiet : Bool) (off width value : Nat) (j : Judged α) : Judged α :=
  let old := f.get j.block
  let new := mergeBits f.bit f.width old off width value
  match f.access with
  | .ro => j
  | .w1c => { j with block := f.put (old - (old &&& mergeBits f.bit f.width 0 off width value)) j.block }
  | .rw =>
    if new = old then j
    else if f.quiet && !quiet then { j with notq := true }
    else if !f.ok j.block new then { j with range := true }
    else { j with block := f.put new j.block }

/-- A write of a block, field by field in the order given. -/
def judgeWrite {α : Type} (fs : List (Field α)) (quiet : Bool) (off width value : Nat) (a : α) : Judged α :=
  fs.foldl (fun j f => f.judge quiet off width value j) { block := a }

/-- A read of a block: reserved bits read as zero. -/
def readBlock {α : Type} (fs : List (Field α)) (off width : Nat) (a : α) : Nat :=
  (fs.map fun f =>
    let s := max f.bit (8 * off)
    let e := min (f.bit + f.width) (8 * (off + width))
    if e ≤ s then 0 else f.get a / 2 ^ (s - f.bit) % 2 ^ (e - s) * 2 ^ (s - 8 * off)).foldl (· + ·) 0

/-- BAR0 takes accesses of 4 and 8 bytes, naturally aligned (R325). -/
def bar0Ok (off width : Nat) : Bool := (width == 4 || width == 8) && off % width == 0

/-- Bits [lo + w - 1 : lo] of a word, and the word with them replaced. -/
def bitsAt {n : Nat} (x : BitVec n) (lo w : Nat) : Nat := x.toNat / 2 ^ lo % 2 ^ w
def withBits {n : Nat} (x : BitVec n) (lo w v : Nat) : BitVec n :=
  BitVec.ofNat n (x.toNat - bitsAt x lo w * 2 ^ lo + v % 2 ^ w * 2 ^ lo)

def flag (b : Bool) : Nat := if b then 1 else 0

/-! ## The device control block (R330) -/

def deviceFields : List (Field State) :=
  [{ bit := 30, width := 26, get := fun s => bitsAt s.winbase 30 26
     put := fun v s => { s with winbase := withBits s.winbase 30 26 v } },
   { bit := 64, width := 1, get := fun s => flag s.winen, put := fun v s => { s with winen := v == 1 } }]

/-! ## Launch queues (R326, R328) -/

def queueFields : List (Field LQueue) :=
  [{ bit := 16, width := 9, get := (·.chunk), put := fun v q => { q with chunk := v }
     ok := fun _ v => 1 ≤ v && v ≤ 256 },
   { bit := 8, width := 8, get := (·.aging), put := fun v q => { q with aging := v }, ok := fun _ v => 1 ≤ v },
   { bit := 0, width := 3, get := (·.prio), put := fun v q => { q with prio := v } },
   { bit := 64, width := 64, get := fun q => q.cmask0.toNat, put := fun v q => { q with cmask0 := BitVec.ofNat 64 v } },
   { bit := 128, width := 64, get := fun q => q.cmask1.toNat, put := fun v q => { q with cmask1 := BitVec.ofNat 64 v } }]

/-- A launch port's error word. -/
def errorFields : List (Field LQueue) :=
  [{ bit := 0, width := 64, get := fun q => q.errAddr.toNat, put := fun _ q => q, access := .ro },
   { bit := 95, width := 1, get := fun q => flag q.errValid, put := fun v q => { q with errValid := v == 1 }, access := .w1c },
   { bit := 80, width := 15, get := (·.errCount), put := fun _ q => q, access := .ro },
   { bit := 64, width := 16, get := (·.errReason), put := fun _ q => q, access := .ro }]

/-- RANGE and NOTQ in a partition's control block (R328, R341). -/
def Partition.flagged (p : Partition) (range notq : Bool) : Partition :=
  { p with flags := p.flags ||| (if range then 2 else 0) ||| (if notq then 1 else 0) }

/-- LAUNCH_QUEUE_CONTROL_WRITE (R328). -/
def execLaunchQueueControlWrite (queue off width : Nat) (value : DWord) (s : State) : Host.Outcome State Fault Refusal :=
  if queue < 64 && off < 32 && bar0Ok off width then
    hostWrite (0x110000 + 32 * queue) s fun s =>
      let j := judgeWrite queueFields true off width value.toNat (s.lqueue queue)
      let s := s.setLQueue queue fun _ => j.block
      match s.queueOwner queue with
      | some p => .next (s.setPart p (·.flagged j.range false))
      | none => .next s
  else .next s

/-! ## The region table (R342, R343) -/

def regionFields (secure : Bool) : List (Field MemRegion) :=
  [{ bit := 56, width := 8, get := fun r => r.owners.toNat, put := fun v r => { r with owners := BitVec.ofNat 8 v } },
   { bit := 30, width := 26, get := fun r => r.base.toNat, put := fun v r => { r with base := BitVec.ofNat 26 v } },
   { bit := 1, width := 1, get := fun r => flag r.secure
     put := fun v r => if secure then { r with secure := v == 1 } else r },
   { bit := 0, width := 1, get := fun r => flag r.valid, put := fun v r => { r with valid := v == 1 } },
   { bit := 64, width := 32, get := fun r => r.size.toNat, put := fun v r => { r with size := BitVec.ofNat 32 v } }]

/-- Two valid regions share a byte. -/
def MemRegion.meets (a b : MemRegion) : Bool :=
  a.valid && b.valid && a.base.toNat < b.base.toNat + b.size.toNat && b.base.toNat < a.base.toNat + a.size.toNat

/-- A host's write that would change a WORLD bit is counted (R343). -/
def State.countWorld (s : State) (secure old : Bool) (bit off width value : Nat) : State :=
  if !secure && mergeBits bit 1 (flag old) off width value != flag old then s.countAttempt else s

/-- REGION_TABLE_WRITE: a write that makes two regions overlap is ignored; the host does not write secure entries, nor
WORLD (R342, R343). -/
def execRegionTableWrite (index off width : Nat) (value : DWord) (secure : Bool) (s : State) :
    Host.Outcome State Fault Refusal :=
  if index < 64 && off < 16 && bar0Ok off width then
    let r := s.region index
    if r.secure && !secure then .next s.countAttempt
    else
      let s := s.countWorld secure r.secure 1 off width value.toNat
      let new := (judgeWrite (regionFields secure) true off width value.toNat r).block
      if s.regions.any fun (k, x) => k != index && new.meets x then .next s else .next (s.setRegion index new)
  else .next s

/-! ## Partition control blocks (R339 to R341, R343) -/

/-- No resident group, no engine operation, no launch RUNNING or DRAINING (R339). -/
def State.partQuiet (s : State) (p : Nat) : Bool :=
  (s.groups.all fun (_, g) => g.part != p || g.residence != .resident) && (s.copies.all fun (_, c) => c.part != p)
    && s.launches.all fun (_, r) => r.part != p || !(r.status == 3 || r.status == 4)

/-- Another enabled partition owns one of the resources. -/
def State.ownedElsewhere {n : Nat} (s : State) (p : Nat) (set : Partition → BitVec n) (v : Nat) : Bool :=
  (List.range 8).any fun q => q != p && (s.part q).enabled && decide (set (s.part q) &&& BitVec.ofNat n v ≠ 0)

/-- A field of one of the block's words. -/
def partField {n : Nat} (base lo width : Nat) (get : Partition → BitVec n) (set : Partition → BitVec n → Partition)
    (quiet : Bool := false) (ok : Partition → Nat → Bool := fun _ _ => true) (access : FieldAccess := .rw) :
    Field Partition :=
  { bit := base + lo, width := width, get := fun p => bitsAt (get p) lo width
    put := fun v p => set p (withBits (get p) lo width v), access := access, quiet := quiet, ok := ok }

/-- The setting of ENABLE would give no resource to two enabled partitions. -/
def State.mayEnable (s : State) (p : Nat) (x : Partition) : Bool :=
  !s.ownedElsewhere p (·.coresets) x.coresets.toNat && !s.ownedElsewhere p (·.lqueues) x.lqueues.toNat
    && !s.ownedElsewhere p (·.portset) x.portset.toNat

/-- The fields of a partition's control block but for the doorbell and QCMD; ENABLE is judged last. -/
def partFields (s : State) (p : Nat) (secure : Bool) : List (Field Partition) :=
  let free {n : Nat} (set : Partition → BitVec n) : Partition → Nat → Bool :=
    fun x v => !x.enabled || !s.ownedElsewhere p set v
  let ctl := fun lo w ok => partField 0 lo w (·.ctl) (fun x v => { x with ctl := v }) false ok
  let any := fun (_ : Partition) (_ : Nat) => true
  [ctl 15 5 fun _ v => 4 ≤ v && v ≤ 16, ctl 12 3 any, ctl 8 4 any, ctl 5 1 any, ctl 4 1 any, ctl 3 1 any, ctl 2 1 any,
   { partField 0 1 1 (·.ctl) (fun x v => if secure then { x with ctl := v } else x) true with
     ok := fun _ _ => true, quiet := secure },
   partField 32 24 8 (·.res) (fun x v => { x with res := v }) true (free (·.portset)),
   partField 32 16 8 (·.res) (fun x v => { x with res := v }) true
     (fun _ v => (List.range 4).all fun k => v / 4 ^ k % 4 != 3),
   partField 32 0 16 (·.res) (fun x v => { x with res := v }) true (free (·.coresets)),
   partField 64 16 4 (·.ways) (fun x v => { x with ways := v }) false (fun _ v => v ≤ 12),
   partField 64 0 16 (·.ways) (fun x v => { x with ways := v }) false (fun _ v => v != 0),
   partField 128 0 64 (·.lqueues) (fun x v => { x with lqueues := v }) true (free (·.lqueues)),
   partField 192 0 64 (·.privq) (fun x v => { x with privq := v }),
   partField 256 0 64 (·.ptroot) (fun x v => { x with ptroot := v }) true (fun _ v => v % 65536 == 0),
   partField 320 0 64 (·.faultring) (fun x v => { x with faultring := v }) true (fun _ v => v % 65536 == 0),
   partField 384 0 64 (·.handler) (fun x v => { x with handler := v, handlerBad := false }) true,
   partField 448 0 64 (·.savearea) (fun x v => { x with savearea := v }) true,
   partField 512 0 64 (·.savesize) (fun x v => { x with savesize := v }) true,
   partField 576 0 32 (·.linktmo) (fun x v => { x with linktmo := v }) false (fun _ v => 1 ≤ v && v ≤ 1000),
   partField 608 0 3 (·.flags) (fun x v => { x with flags := v }) false any .w1c,
   partField 672 0 32 (·.dbstat) (fun x _ => x) false any .ro,
   partField 768 0 32 (·.qnum) (fun x v => { x with qnum := v }) false (fun _ v => v ≤ 8191),
   partField 800 0 32 (·.qlogcap) (fun x v => { x with qlogcap := v }) false (fun _ v => 6 ≤ v && v ≤ 24),
   partField 832 0 64 (·.qbase) (fun x v => { x with qbase := v }) false (fun _ v => v % 128 == 0),
   partField 928 0 32 (·.qresult) (fun x _ => x) false any .ro,
   partField 0 0 1 (·.ctl) (fun x v => { x with ctl := v }) true (fun x v => v == 0 || s.mayEnable p x)]

/-- A partition is enabled: its handler is checked (R291), and its fault ring begins at slot 0 again (R282). -/
def State.partEnabled (s : State) (p : Nat) : State :=
  let s := s.setPart p fun x => { x with handlerBad := false, ringLast := 4095 }
  if (s.part p).handler != 0 && (s.handlerHdr p [0, 1, 2, 3]).isNone then s.refuseHandler p else s

/-- The bits of a write that fall on a 32-bit register at a byte offset. -/
def writtenWord (reg off width value : Nat) : Nat := mergeBits (8 * reg) 32 0 off width value

/-- A doorbell: the actions named are under way (R340, R341). -/
def Partition.ring_ (p : Partition) (bits : Nat) : Partition :=
  let b := BitVec.ofNat 32 (bits % 32)
  { p with dbstat := p.dbstat ||| b, dbdone := p.dbdone &&& ~~~b }

/-! ## Slice queues of the host (R253, R340) -/

def State.qresult (s : State) (p n : Nat) : State := s.setPart p fun x => { x with qresult := BitVec.ofNat 32 n }

/-- The queue that QNUM names. -/
def State.qnum (s : State) (p : Nat) : Nat := (s.part p).qnum.toNat

/-- Another partition uses the queue. -/
def SQueue.foreign (q : SQueue) (p : Nat) : Bool := q.state != 0 && q.part != p

/-- Creates the queue LIVE. A QLOGCAP that was never written is out of range. -/
def State.createQueue (s : State) (p : Nat) : State :=
  let x := s.part p
  let q := s.squeue (s.qnum p)
  if q.foreign p then s.qresult p 1
  else if q.state ≠ 0 then s.qresult p 2
  else if x.qlogcap.toNat < 6 then s.setPart p (·.flagged true false)
  else
    (s.setSQueue (s.qnum p) fun _ => { base := x.qbase, part := p, state := 1, logcap := x.qlogcap.toNat }).qresult p 0

/-- No thread is registered on a queue any more. -/
def State.forgetProducers (s : State) (n : Nat) : State :=
  let each := fun (g : Group) =>
    { g with producers := setDel n g.producers
             threads := g.threads.map fun t => { t with producer := setDel n t.producer } }
  { s with groups := s.groups.map fun (k, g) => (k, each g) }

/-- Empties the queue and makes it LIVE without registrations; a port's own registration stays. Producers parked on it
find room. -/
def State.resetQueue (s : State) (p : Nat) : State :=
  let n := s.qnum p
  let q := s.squeue n
  if q.foreign p then s.qresult p 1
  else if q.state = 0 then s.qresult p 0
  else
    let s := (s.forgetProducers n).setSQueue n fun q =>
      { q with head := 0, tail := 0, prod := 0, armed := false, state := 1 }
    ((List.range q.givers.length).foldl (fun s _ => s.serveGivers n) s).qresult p 0

/-- Deletes the queue unless lanes are parked on it. -/
def State.deleteQueue (s : State) (p : Nat) : State :=
  let n := s.qnum p
  let q := s.squeue n
  if q.foreign p then s.qresult p 1
  else if !q.takers.isEmpty || !q.givers.isEmpty then s.qresult p 3
  else ((s.forgetProducers n).setSQueue n fun _ => {}).qresult p 0

/-- QCMD. -/
def State.queueCommand (s : State) (p cmd : Nat) : State :=
  match cmd with
  | 1 => s.createQueue p
  | 2 => s.resetQueue p
  | 3 => s.deleteQueue p
  | _ => s

/-- Where a partition's QCMD lies. -/
def qcmdAt (part : Nat) : Nat := 0x200070 + 0x1000 * part

def execQcmdCreate (part : Nat) (s : State) : Host.Outcome State Fault Refusal :=
  if part < 8 then hostWrite (qcmdAt part) s fun s => .next (s.queueCommand part 1) else .next s

def execQcmdReset (part : Nat) (s : State) : Host.Outcome State Fault Refusal :=
  if part < 8 then hostWrite (qcmdAt part) s fun s => .next (s.queueCommand part 2) else .next s

def execQcmdDelete (part : Nat) (s : State) : Host.Outcome State Fault Refusal :=
  if part < 8 then hostWrite (qcmdAt part) s fun s => .next (s.queueCommand part 3) else .next s

/-- PARTITION_CONTROL_WRITE (R340, R341): the host writes nothing of a secure partition's block, nor WORLD (R343). -/
def execPartitionControlWrite (part off width : Nat) (value : DWord) (secure : Bool) (s : State) :
    Host.Outcome State Fault Refusal :=
  if part < 8 && off < 4096 && bar0Ok off width then
    if (s.part part).secure && !secure then .next s.countAttempt
    else
      let s := s.countWorld secure (s.part part).secure 1 off width value.toNat
      let was := (s.part part).enabled
      let j := judgeWrite (partFields s part secure) (s.partQuiet part) off width value.toNat (s.part part)
      let s := s.setPart part fun _ => (j.block.flagged j.range j.notq).ring_ (writtenWord 0x50 off width value.toNat)
      let s := if (s.part part).enabled && !was then s.partEnabled part else s
      .next (s.queueCommand part (writtenWord 0x70 off width value.toNat))
  else .next s

/-! ## Port fields (R335) -/

def Port.enabled (p : Port) : Bool := p.ctl.getLsbD 31
def Port.roce (p : Port) : Bool := p.ctl.getLsbD 30
def Port.bowline (p : Port) : Bool := p.ctl.getLsbD 29
def Port.mtu (p : Port) : Nat := bitsAt p.ctl 0 16

/-- The conditions of ENABLE. -/
def State.portReady (s : State) (n : Nat) (p : Port) : Bool :=
  match s.portOwner n with
  | none => false
  | some o =>
    p.descbase != 0 && p.descbase.toNat % 64 == 0
      && [p.sendq, p.recvq, p.cq].all fun q => (s.squeue q).state == 1 && (s.squeue q).part == o

def satAdd (x n : Nat) : Nat := min (x + n) (2 ^ 64 - 1)

/-- The fields of a port's control block but for QPLOAD; ENABLE is judged last. -/
def portFields (s : State) (n : Nat) : List (Field Port) :=
  let word := fun bit width (get : Port → DWord) (set : Port → DWord → Port) quiet ok =>
    ({ bit := bit, width := width, get := fun p => (get p).toNat, put := fun v p => set p (BitVec.ofNat 64 v)
       quiet := quiet, ok := fun _ v => ok v } : Field Port)
  let num := fun bit width (get : Port → Nat) (set : Port → Nat → Port) ok =>
    ({ bit := bit, width := width, get := get, put := fun v p => set p v, quiet := true, ok := fun _ v => ok v } : Field Port)
  let ctl := fun lo w ok =>
    ({ bit := 64 + lo, width := w, get := fun p => bitsAt p.ctl lo w
       put := fun v p => { p with ctl := withBits p.ctl lo w v }, quiet := true, ok := ok } : Field Port)
  let count := fun bit (get : Port → Nat) =>
    ({ bit := bit, width := 64, get := get, put := fun _ p => p, access := .ro } : Field Port)
  let any := fun (_ : Nat) => true
  [{ bit := 0, width := 48, get := fun p => p.mac.toNat, put := fun v p => { p with mac := BitVec.ofNat 48 v }
     quiet := true },
   ctl 30 1 fun _ _ => true, ctl 29 1 fun _ _ => true, ctl 0 16 fun _ v => [256, 512, 1024, 2048, 4096].contains v,
   num 96 5 (·.desclog) (fun p v => { p with desclog := v }) fun v => 6 ≤ v && v ≤ 16,
   word 128 64 (·.descbase) (fun p v => { p with descbase := v }) true any,
   num 192 16 (·.sendq) (fun p v => { p with sendq := v }) any, num 208 16 (·.recvq) (fun p v => { p with recvq := v }) any,
   num 224 16 (·.cq) (fun p v => { p with cq := v }) any,
   word 256 64 (·.qpbase) (fun p v => { p with qpbase := v }) true fun v => v % 128 == 0,
   num 320 16 (·.qpcount) (fun p v => { p with qpcount := v }) fun v => v ≤ 4096,
   num 336 16 (·.keycount) (fun p v => { p with keycount := v }) fun v => v ≤ 4096,
   word 384 64 (·.keybase) (fun p v => { p with keybase := v }) true fun v => v % 32 == 0,
   word 448 64 (·.rxbase) (fun p v => { p with rxbase := v }) true any,
   word 512 64 (·.rxlen) (fun p v => { p with rxlen := v }) true any,
   { bit := 576, width := 32, get := fun p => p.bltmo.toNat, put := fun v p => { p with bltmo := BitVec.ofNat 32 v }
     ok := fun _ v => 1 ≤ v && v ≤ 100000 },
   { bit := 609, width := 1, get := fun p => flag p.range, put := fun v p => { p with range := v == 1 }, access := .w1c },
   { bit := 608, width := 1, get := fun p => flag p.notq, put := fun v p => { p with notq := v == 1 }, access := .w1c },
   count 640 (·.txframes), count 704 (·.rxframes), count 768 (·.rxdrops), count 832 (·.resends),
   { ctl 31 1 (fun p v => v == 0 || s.portReady n p) with quiet := false }]

/-! ## Registers without a row of their own (R4) -/

/-- HINSPECT (R276). -/
def hinspectFields : List (Field Partition) :=
  [{ bit := 0, width := 64, get := fun p => p.hname.toNat, put := fun v p => { p with hname := BitVec.ofNat 64 v } },
   { bit := 64, width := 32, get := fun p => p.hcount.toNat, put := fun v p => { p with hcount := BitVec.ofNat 32 v } },
   { bit := 96, width := 5, get := fun p => bitsAt p.hform 0 5, put := fun v p => { p with hform := BitVec.ofNat 32 v } },
   { bit := 128, width := 64, get := fun p => p.hdone.toNat, put := fun v p => { p with hdone := BitVec.ofNat 64 v } },
   { bit := 255, width := 1, get := fun p => flag p.hbusy.isSome, put := fun _ p => p, access := .ro },
   { bit := 254, width := 1, get := fun p => flag p.hlost, put := fun v p => { p with hlost := v == 1 }, access := .w1c },
   { bit := 224, width := 4, get := fun p => bitsAt p.hresult 0 4, put := fun _ p => p, access := .ro }]

/-- The pennant that the debug mailbox shows. -/
def State.pennantShown (s : State) (p : Nat) : Word :=
  match (s.part p).halted with
  | [] => 0
  | (gid, l) :: _ => ((s.thread? gid l).map (·.pennant)).getD 0

/-- The debug mailbox (R345). -/
def debugFields (s : State) (n : Nat) : List (Field Partition) :=
  let ro := fun bit width (get : Partition → Nat) =>
    ({ bit := bit, width := width, get := get, put := fun _ p => p, access := .ro } : Field Partition)
  [ro 0 32 fun _ => (s.pennantShown n).toNat, ro 32 32 fun p => p.hcode.toNat, ro 64 64 fun p => p.hpc.toNat,
   ro 128 32 fun p => p.hgroup.toNat,
   { bit := 161, width := 1, get := fun p => flag p.hflag, put := fun v p => { p with hflag := v == 1 }, access := .w1c },
   ro 160 1 fun p => flag (!p.halted.isEmpty),
   { bit := 256, width := 64, get := fun p => p.dsaddr.toNat, put := fun v p => { p with dsaddr := BitVec.ofNat 64 v } },
   { bit := 320, width := 32, get := fun p => p.dspen.toNat, put := fun v p => { p with dspen := BitVec.ofNat 32 v } },
   { bit := 352, width := 2, get := fun p => bitsAt p.dspart 0 2, put := fun v p => { p with dspart := BitVec.ofNat 32 v } },
   ro 447 1 fun p => flag p.dsbusy.isSome, ro 416 4 fun p => bitsAt p.dsresult 0 4]

/-- A write of the nonce; one written while a report is built is ignored (R347). -/
def State.writeNonce (s : State) (at_ width value : Nat) : State :=
  if s.attesting then s
  else
    let old := (List.range 32).map fun i => s.nonce.getD i 0
    let new := leBytes width value
    { s with nonce := (List.range 32).map fun i =>
        if at_ ≤ i ∧ i < at_ + width then new.getD (i - at_) 0 else old.getD i 0 }

/-- BAR2's size is set: 1 GiB to 256 GiB, in powers of two, coded as the PCI Express capability codes them, 2 to the code
in MiB (R325); another code changes nothing (notes/assumptions/75). -/
def State.resizeBar2 (s : State) (code : Nat) : State :=
  if 10 ≤ code ∧ code ≤ 18 then { s with bar2Size := 2 ^ (20 + code) } else s

/-- Where REGISTER_WRITE places BAR2's size, which lies in the function's configuration space and not in BAR0: the first
offset past BAR0 (notes/assumptions/75). -/
def bar2SizeAt : Nat := 0x4000000

/-- REGISTER_WRITE: a write to a register without a row of its own: the nonce, the device control block, the launch ports'
error words, the mailboxes; and BAR2's size. -/
def execRegisterWrite (off width : Nat) (value : DWord) (s : State) : Host.Outcome State Fault Refusal :=
  let v := value.toNat
  if !bar0Ok off width then .next s
  else if off = bar2SizeAt then .next (s.resizeBar2 v)
  else
    hostWrite off s fun s =>
      if 0x40 ≤ off ∧ off < 0x60 then .next (s.writeNonce (off - 0x40) width v)
      else if 0x2000 ≤ off ∧ off < 0x3000 then .next (judgeWrite deviceFields true (off - 0x2000) width v s).block
      else if 0x100200 ≤ off ∧ off < 0x100600 then
        .next (s.setLQueue ((off - 0x100200) / 16) fun q => (judgeWrite errorFields true (off % 16) width v q).block)
      else if 0x300000 ≤ off ∧ off < 0x300200 then
        .next (s.setPart ((off - 0x300000) / 64) fun p => (judgeWrite hinspectFields true (off % 64) width v p).block)
      else if 0x400000 ≤ off ∧ off < 0x400200 then
        let n := (off - 0x400000) / 64
        .next (s.setPart n fun p => (judgeWrite (debugFields s n) true (off % 64) width v p).block)
      else .next s

end Sys2Proof.Machine
end

