-- ==== Sys2Proof/Machine/ReadSpace.lean ====
section
/-! DEFINITION. The management read space (R17, R253, R328, R344): what each of its words shows. The manual gives the blocks,
their bases and strides; where in its block a structure stands is not stated, so that Config.readPlace says which word of
which structure lies where, and Config.shown lays out a structure for which no chapter gives a field map
(notes/assumptions/76). -/

namespace Sys2Proof.Machine

open Sys2Proof.Config (ReadPart)

/-- The words of a number, least significant first. -/
def wordsOf (k n : Nat) : List Word := (List.range k).map fun i => BitVec.ofNat 32 (n / 2 ^ (32 * i))

/-- What a structure shows: words as its chapter lays them out, or its contents. -/
inductive Shown where
  | words (ws : List Word)
  | contents (ns : List Nat)

/-- Word i of what a structure shows: beyond its end, and where there is no such structure, zero (R5). -/
def Shown.word (x : Shown) (part : ReadPart) (i : Nat) : Word :=
  match x with
  | .words ws => ws.getD i 0
  | .contents [] => 0
  | .contents ns => Config.shown part ns i

/-- Numbers of a thread's state (R103). -/
def TState.number : TState → Nat
  | .ready => 0
  | .running => 1
  | .parked _ => 2
  | .binned => 3
  | .trapped => 4
  | .halted w => 8 + w.number
  | .evicted w => 1024 + w.number
  | .exited => 5
  | .migrating => 6

/-- Where an entry lives, in numbers. -/
def Place.numbers : Place → List Nat
  | .mem pa => [0, pa]
  | .spad b i o => [1, b, i, o]

def Store.contents (e : Store) : List Nat :=
  [e.seq, e.gid, flag e.strong, e.obj.toNat, flag e.sys] ++ e.at_.numbers ++ e.bytes.flatMap fun (k, b) => [k, b.toNat]

def Entry.contents (e : Entry) : List Nat := [e.who.1, e.who.2, e.since]

/-- A core's binding: none where the core is absent, which its word then marks (R17, R18). -/
def State.bindingOf (s : State) (c : Nat) : List Nat :=
  let local_ := if c % 32 < 24 then c % 32 else c % 32 - 24
  let mine := s.bindings.find? fun b => b.stack == c / 32 && b.latency == decide (24 ≤ c % 32)
    && (s.bindings.filter fun d => d.stack == b.stack && d.latency == b.latency && d.frontEnd < b.frontEnd).length == local_
  match mine with
  | none => [0]
  | some b => [1, b.frontEnd, b.lowSlab, flag b.lowHi, b.highSlab, flag b.highHi]

/-- A structure of a group of a core. -/
def State.shownGroup (s : State) (c k : Nat) (fn : Group → Shown) : Shown :=
  match (s.groups.filter fun (_, g) => g.core == c && g.residence == .resident)[k]? with
  | some (_, g) => fn g
  | none => .contents []

def State.shownThread (s : State) (c k l : Nat) (fn : Thread → Shown) : Shown :=
  s.shownGroup c k fun g => match g.thread? l with
    | some t => fn t
    | none => .contents []

/-- A structure of a core's block. -/
def State.shownCore (s : State) (c : Nat) : ReadPart → Shown
  | .group k => s.shownGroup c k fun g => .contents [g.bid, g.index, g.width, g.part, g.vregs]
  | .state k l => s.shownThread c k l fun t => .contents [t.st.number]
  | .pc k l => s.shownThread c k l fun t => .words (wordsOf 2 t.pc.toNat)
  | .reg k l r => s.shownThread c k l fun t => .words [mapGet 0 t.v r]
  | .pred k l => s.shownThread c k l fun t => .words [t.p.setWidth 32]
  | .index k l x => s.shownThread c k l fun t => .words [mapGet 0 t.x x]
  | .uniform k r => s.shownGroup c k fun g => .words [mapGet 0 g.s r]
  | .mask k j => s.shownGroup c k fun g =>
      let m := mapGet {} g.j j
      .contents [m.members.toNat, m.arrived.toNat]
  | .meld k e => s.shownGroup c k fun g => .words [((g.meld.getD []).getD e 0).setWidth 32]
  | .bin k => .contents (((s.core c).bins[k]?).elim [] fun b => [b.bid, b.pc.toNat, flag b.sort] ++ b.entries.flatMap (·.contents))
  | .callee k =>
      .contents (((s.core c).callees[k]?).elim [] fun q => [q.bid, q.target.toNat] ++ q.entries.flatMap (·.contents))
  | .future k => .contents [flag ((s.core c).futures.contains k), mapGet 0 (s.core c).gens k]
  | .storeQueue k => .contents (((s.core c).sq[k]?).elim [] (·.contents))
  | .writeThrough k => .contents (((s.core c).wt[k]?).elim [] (·.contents))
  | .combining k => .contents (((s.core c).wc[k]?).elim [] (·.contents))
  | .inspects k => .contents (((s.core c).insq[k]?).elim [] fun n => [n])
  | .replays => .words [BitVec.ofNat 32 (s.core c).replays]
  | .binding => .contents (s.bindingOf c)
  | _ => .contents []

/-- A slice queue's state as R253 lays it out. -/
def SQueue.words (q : SQueue) : List Word :=
  wordsOf 2 q.base.toNat ++ [q.head, q.tail,
    BitVec.ofNat 32 (q.part % 8 * 2 ^ 24 + q.state % 4 * 2 ^ 22 + flag q.armed * 2 ^ 21 + q.logcap % 32 * 2 ^ 16 + q.prod % 2 ^ 16),
    BitVec.ofNat 32 q.dropped]

def ObjState.number : ObjState → Nat
  | .idle => 0
  | .owned => 1
  | .sealed => 2

/-- The owner of a structure, and the structure; a secure owner's shows zero to the host (R343). -/
def State.shownSlice (s : State) (n : Nat) : ReadPart → Option Nat × Shown
  | .object k =>
    match ((s.slice n).objects[k]?) with
    | none => (none, .contents [])
    | some (_, o) => (some o.part, .contents [o.id.toNat, o.base.toNat, o.extent.toNat, o.cls, flag o.sealable, flag o.shared,
        flag o.rowAtomic, o.rowLen, o.rowStride, o.part, o.state.number, o.roster.toNat, o.gen.toNat])
  | .roster => (none, .words (wordsOf 4 (s.slice n).roster.toNat))
  | .owned k => (none, .contents (((s.slice n).owned[k]?).elim [] fun (l, c) => [l, c]))
  | .gangMap k =>
    match (s.blocks.filter fun (b, x) => !x.exited && (Place.spad b 0 0).slice == n)[k]? with
    | some (_, b) => (some b.part, .contents ([b.index, b.gangb] ++ b.cores))
    | none => (none, .contents [])
  | .queue k => let q := s.squeue (64 * n + k % 64); (some q.part, .words q.words)
  | .pins k =>
    match (s.slice n).pins[k]? with
    | some p => (some p.part, .contents [p.line, p.part, p.count])
    | none => (none, .contents [])
  | _ => (none, .contents [])

/-- A structure of a launch queue's block; the effective priority is PRIO as aging has raised it (R93, R328). -/
def State.shownQueue (s : State) (q : Nat) (part : ReadPart) : Shown :=
  let nth := fun (k : Nat) (fn : Launch → Shown) => match ((s.lqueue q).records[k]?).bind s.launch? with
    | some r => fn r
    | none => .contents []
  match part with
  | .record k => nth k fun r => .contents [r.addr.toNat, r.status, r.reason]
  | .claim k => nth k fun r => .contents [r.next]
  | .rounds k => nth k fun r => .contents [r.rounds]
  | .priority k => nth k fun r => .contents [min 7 ((s.lqueue q).prio + r.boost)]
  | _ => .contents []

/-- A structure of a partition's block. -/
def State.shownPart (s : State) (p : Nat) : ReadPart → Shown
  | .errorLog k => .words ((((s.part p).log[k]?).elim [] LogEntry.words).map (BitVec.ofNat 32))
  | .sampler i => .words [BitVec.ofNat 32 (mapGet 0 (s.part p).stale i)]
  | .samples => .words [BitVec.ofNat 32 (s.part p).samples]
  | .collector k l => .contents (((mapGet [] (s.part p).collect k)[l]?).elim [] fun (g, l) => [g, l])
  | .saveIndex k =>
    .contents (((s.groups.filter fun (_, g) => g.part == p && g.residence == .evicted)[k]?).elim [] fun (_, g) =>
      [g.bid, g.index])
  | _ => .contents []

/-- The enabled partition that owns a core (R339). -/
def State.coreOwner (s : State) (c : Nat) : Option Nat :=
  (List.range 8).find? fun p => (s.part p).enabled && (s.part p).coresets.getLsbD (coreSet c)

/-- The 32-bit word at an offset of the read space: every word of a secure block reads as zero (R343, R344). -/
def State.readWord (s : State) (off : Nat) : Word :=
  let hidden := fun (owner : Option Nat) => owner.any fun p => (s.part p).secure
  let word := fun (block o : Nat) (fn : ReadPart → Option Nat × Shown) =>
    match Config.readPlace block (o / 4) with
    | none => 0
    | some (part, i) =>
      let (owner, x) := fn part
      if hidden owner then 0 else x.word part i
  let at_ := fun (base stride n : Nat) => decide (base ≤ off ∧ off < base + stride * n)
  if at_ 0x1000000 0x40000 128 then
    let o := off - 0x1000000
    word 0 (o % 0x40000) fun part => (s.coreOwner (o / 0x40000), s.shownCore (o / 0x40000) part)
  else if at_ 0x3000000 0x2000 128 then
    let o := off - 0x3000000
    word 1 (o % 0x2000) fun part => s.shownSlice (o / 0x2000) part
  else if at_ 0x3100000 0x1000 64 then
    let o := off - 0x3100000
    word 2 (o % 0x1000) fun part => (s.queueOwner (o / 0x1000), s.shownQueue (o / 0x1000) part)
  else if at_ 0x3140000 0x10000 8 then
    let o := off - 0x3140000
    word 3 (o % 0x10000) fun part => (some (o / 0x10000), s.shownPart (o / 0x10000) part)
  else 0

/-- A read of the management read space: 4 bytes, or 8 as one snapshot. -/
def State.readSpace (s : State) (off width : Nat) : Nat :=
  (s.readWord off).toNat + (if width = 8 then (s.readWord (off + 4)).toNat * 2 ^ 32 else 0)

end Sys2Proof.Machine
end

