-- ==== Sys2Proof/Machine/Bars.lean ====
section
/-! DEFINITION. The host's side of the device: BAR0 and BAR2 accesses (R325, R329, R343), doorbells (R297, R301, R340), the
inspect and debug mailboxes (R276, R345), attestation (R347), resets and cooling (R348, R349). -/

namespace Sys2Proof.Machine

def State.answerHost (s : State) (bs : List Byte) : State := { s with answers := .host bs :: s.answers }

def ones (n : Nat) : List Byte := List.replicate n 0xFF

/-! ## BAR0 (R325) -/

/-- The identity block: the public key, the nonce, the state of the report, the report (R346, R347). -/
def State.identity (s : State) : List Byte :=
  leBytes 32 Config.publicKey.toNat ++ List.replicate 32 0 ++ (List.range 32).map (fun i => s.nonce.getD i 0)
    ++ List.replicate 152 0 ++ leBytes 8 (flag s.attested) ++ (List.range 232).map fun i => s.report.getD i 0

/-- What a BAR0 read of 4 or 8 bytes returns: a launch port, a doorbell and every other write-only or reserved place reads
as zero, and so does every register of a secure partition (R343); a device that has stopped answers with ones (R349). -/
def State.readBar0 (s : State) (off width : Nat) : Nat :=
  if s.stopped then 2 ^ (8 * width) - 1
  else if s.barred off then 0
  else if off < 0x1000 then leNat ((s.identity.drop off).take width)
  else if off < 0x1400 then
    let r := s.region ((off - 0x1000) / 16)
    if r.secure then 0 else readBlock (regionFields false) (off % 16) width r
  else if 0x2000 ≤ off ∧ off < 0x3000 then readBlock deviceFields (off - 0x2000) width s
  else if 0x100200 ≤ off ∧ off < 0x100600 then
    readBlock errorFields (off % 16) width (s.lqueue ((off - 0x100200) / 16))
  else if 0x110000 ≤ off ∧ off < 0x110800 then readBlock queueFields (off % 32) width (s.lqueue ((off - 0x110000) / 32))
  else if 0x200000 ≤ off ∧ off < 0x208000 then
    let p := (off - 0x200000) / 4096
    readBlock (partFields s p false) (off % 4096) width (s.part p)
  else if 0x300000 ≤ off ∧ off < 0x300200 then
    readBlock hinspectFields (off % 64) width (s.part ((off - 0x300000) / 64))
  else if 0x400000 ≤ off ∧ off < 0x400200 then
    let p := (off - 0x400000) / 64
    readBlock (debugFields s p) (off % 64) width (s.part p)
  else if 0x500000 ≤ off ∧ off < 0x502000 then
    let n := (off - 0x500000) / 0x400
    readBlock (portFields s n) (off % 0x400) width (s.port n)
  else s.readSpace off width

/-- A legal BAR0 read is answered; one that meets secure state counts (R343). -/
def State.hostRead (s : State) (off width : Nat) : State :=
  let secret := decide (0x1000 ≤ off ∧ off < 0x1400) && (s.region ((off - 0x1000) / 16)).secure
  (if s.barred off || secret then s.countAttempt else s).answerHost (leBytes width (s.readBar0 off width))

/-- BAR0_ILLEGAL_ACCESS: dropped; a read returns all ones. A read that is legal, for which the table has no row of its own,
is answered here with what the registers hold. -/
def execBar0IllegalAccess (off width : Nat) (isRead : Bool) (s : State) : Host.Outcome State Fault Refusal :=
  if !isRead then .next s
  else if bar0Ok off width then .next (s.hostRead off width)
  else .next (s.answerHost (ones width))

/-! ## BAR2 (R277, R329, R343) -/

/-- The physical address of a window offset: WINBASE without its bits below the window's size. -/
def State.windowPa (s : State) (o : Nat) : Nat := s.winbase.toNat / s.bar2Size * s.bar2Size + o

/-- Secure memory: the host reads zero there and writes nothing. -/
def State.securePa (s : State) (pa : Nat) : Bool := s.regions.any fun (_, r) => r.secure && r.holds pa

/-- A byte as the host reads it. -/
def State.hostByte (s : State) (pa : Nat) : Byte :=
  if !inDevice pa then 0xFF else if s.securePa pa then 0 else s.byte pa

/-- Bytes by 128-byte line. -/
def lineChunks : Nat → Nat → List Byte → List (Nat × List Byte)
  | 0, _, _ => []
  | fuel + 1, pa, bs =>
    if bs.isEmpty then []
    else
      let n := 128 - pa % 128
      (pa, bs.take n) :: lineChunks fuel (pa + n) (bs.drop n)

/-- Bytes written at their homes by the host, a peer or a port, line by line: what reaches a sealed object's line is
discarded there and logged (R235, R277). -/
def State.homeWrite (s : State) (pa : Nat) (bs : List Byte) : State :=
  (lineChunks (bs.length + 1) pa bs).foldl (fun s (a, b) =>
    match s.sealedLine a with
    | some o => s.logError o.part { kind := 6, addr := BitVec.ofNat 64 a }
    | none => s.write a b) s

def State.countSecure (s : State) (pa n : Nat) : State :=
  if (List.range n).any fun i => s.securePa (pa + i) then s.countAttempt else s

/-- BAR2_READ: all ones where the window is closed or lands outside device memory. -/
def execBar2Read (off count : Nat) (s : State) : Host.Outcome State Fault Refusal :=
  if s.bar2Size < off + count then .next s
  else if s.stopped || !s.winen then .next (s.answerHost (ones count))
  else
    let pa := s.windowPa off
    .next ((s.countSecure pa count).answerHost ((List.range count).map fun i => s.hostByte (pa + i)))

/-- BAR2_WRITE: applied at the home slices before any later request of the host. -/
def execBar2Write (off : Nat) (data : List Byte) (s : State) : Host.Outcome State Fault Refusal :=
  if s.bar2Size < off + data.length || s.stopped || !s.winen then .next s
  else
    let pa := s.windowPa off
    let open_ := (lineChunks (data.length + 1) pa data).filter fun (a, _) => inDevice a && !s.securePa a
    .next (open_.foldl (fun s (a, b) => s.homeWrite a b) (s.countSecure pa data.length))

/-! ## Doorbells (R340, R341) -/

/-- The action of a doorbell bit is under way and its effect is still to come. -/
def Partition.due (p : Partition) (bit : Nat) : Bool := p.dbstat.getLsbD bit && !p.dbdone.getLsbD bit

def State.doorbellDone (s : State) (part bit : Nat) : State :=
  s.setPart part fun p => { p with dbdone := p.dbdone ||| BitVec.ofNat 32 (2 ^ bit) }

/-- DOORBELL_ACTION_COMPLETE: the bit clears once the action is complete. -/
def execDoorbellActionComplete (part bit : Nat) (s : State) : Host.Outcome State Fault Refusal :=
  let p := s.part part
  if bit < 5 && p.dbstat.getLsbD bit && p.dbdone.getLsbD bit then
    let b := BitVec.ofNat 32 (2 ^ bit)
    .next (s.setPart part fun p => { p with dbstat := p.dbstat &&& ~~~b, dbdone := p.dbdone &&& ~~~b })
  else .next s

/-- DOORBELL_TLB_INVALIDATE: as TLBINV over every page (R307). -/
def execDoorbellTlbInvalidate (part : Nat) (s : State) : Host.Outcome State Fault Refusal :=
  if (s.part part).due 0 then .next ((s.tlbForget part fun _ => true).doorbellDone part 0) else .next s

/-- DOORBELL_ICACHE_INVALIDATE: as ICINV over every line (R238). -/
def execDoorbellIcacheInvalidate (part : Nat) (s : State) : Host.Outcome State Fault Refusal :=
  if (s.part part).due 1 then
    let s := (s.partCores part).foldl (fun t c => t.setCore c fun k => { k with icache := [] }) s
    .next (s.doorbellDone part 1)
  else .next s

/-- The groups of a partition where they stand. -/
def State.partGroups (s : State) (part : Nat) (r : Residence) : List (Nat × Group) :=
  s.groups.filter fun (_, g) => g.part == part && g.residence == r

/-- DOORBELL_TIME_SLICE_OUT: every group that is ready is evicted, the others begin to drain; groups that the debugger
halted wait for it, and handler waves finish first (R298, R301). -/
def execDoorbellTimeSliceOut (part : Nat) (s : State) : Host.Outcome State Fault Refusal :=
  if !(s.part part).due 2 then .next s
  else
    let out := fun (s : State) (x : Nat × Group) =>
      match s.group? x.1 with
      | none => s
      | some g =>
        if !g.victim then s
        else if s.evictReady x.1 g && s.saveFits part then s.evictGroup x.1
        else (s.drainGroup g.core x.1).2
    let s := (s.partGroups part .resident).foldl out s
    let bids := (s.blocks.filter fun (_, b) => b.part == part).map (·.1)
    if (s.partGroups part .resident).isEmpty && s.copiesLanded bids then
      .next ((s.setPart part fun p => { p with slicedOut := true }).doorbellDone part 2)
    else .next s

/-- DOORBELL_TIME_SLICE_IN: every group returns to its own core where that can place it; the others follow by
GROUP_RESTORE (R301). -/
def execDoorbellTimeSliceIn (part : Nat) (s : State) : Host.Outcome State Fault Refusal :=
  if !(s.part part).due 3 then .next s
  else
    let s := s.setPart part fun p => { p with slicedOut := false }
    let s := (mapKeys s.cores).foldl State.l1Shrink s
    let back := fun (s : State) (x : Nat × Group) =>
      match s.returnFits x.2 x.2.core with
      | some k => s.restoreOn x.1 x.2.core k
      | none => s
    .next (((s.partGroups part .evicted).foldl back s).doorbellDone part 3)

/-- A thread that the debugger lets go on. -/
def Thread.unhalt (t : Thread) : Thread :=
  { t with st := match t.st with
    | .halted w => w
    | st => st }

/-- A lane that halted at its BKPT with its record written (R297). -/
def Thread.atBreak (t : Thread) : Bool :=
  match t.st with
  | .halted .trapped => true
  | _ => false

/-- DOORBELL_RESUME_HALTED: breakpoint lanes return to REPC, every other halted thread goes on where it stood
(R297, R299). -/
def execDoorbellResumeHalted (part : Nat) (s : State) : Host.Outcome State Fault Refusal :=
  if !(s.part part).due 4 then .next s
  else
    let resume := fun (s : State) (x : Nat × Group) =>
      let lanes := x.2.lanesWhere Thread.atBreak
      let s := lanes.foldl (fun s l => s.returnTrap x.1 l) s
      s.setGroup x.1 fun g => { g with threads := g.threads.map (·.unhalt) }
    let s := (s.groups.filter fun (_, g) => g.part == part).foldl resume s
    .next ((s.setPart part fun p => { p with halted := [] }).doorbellDone part 4)

/-! ## The host's inspect mailbox (R276) -/

/-- The checks of R266 with a partition as the observer: where the request goes, or the mailbox's RESULT. -/
def State.aimHost (s : State) (part : Nat) (a : Ask) : Except Nat Aim :=
  if 5 ≤ a.form then .error 1
  else
    let r := if a.form < 3 then (s.named part a).map fun gs => { groups := gs : Aim } else s.aimObject part a
    r.mapError fun c => if c = 4 then 4 else 2

/-- HINSPECT_DOORBELL: an inspect at scope .SYS starts; one that arrives while another is under way is lost. -/
def execHinspectDoorbell (part : Nat) (seq : Word) (s : State) : Host.Outcome State Fault Refusal :=
  if 8 ≤ part then .next s
  else hostWrite (0x300000 + 64 * part) s fun s =>
    let p := s.part part
    if p.hbusy.isSome then .next (s.setPart part fun p => { p with hlost := true })
    else
      let a : Ask := ({ form := bitsAt p.hform 0 5, scope := 2, lo := p.hname.extractLsb' 0 32
                        hi := p.hname.extractLsb' 32 32, count := p.hcount.toNat : Ask })
      match s.aimHost part a with
      | .error r => .next (s.setPart part fun p => { p with hbusy := some (none, seq, r) })
      | .ok w =>
        let (id, s) := s.newInspect none 0 part a.plain w
        .next (s.setPart part fun p => { p with hbusy := some (some id, seq, 0) })

/-- The physical address of a host bus address; none where the completion word cannot go there. -/
def hostPlace (a : DWord) : Option Nat :=
  if a.toNat % 8 = 0 ∧ a.toNat < 2 ^ 55 then some (0x80000000000000 + a.toNat) else none

/-- The mailbox's inspect is over: the completion word is sent, then BUSY clears. -/
def State.hinspectOver (s : State) (part : Nat) (seq : Word) (result : Nat) (addressFault : Bool) : State :=
  match (hostPlace (s.part part).hdone).filter fun _ => !addressFault with
  | none => s.setPart part fun p => { p with hbusy := none, hresult := 3 }
  | some pa =>
    (s.write pa (leBytes 4 seq.toNat ++ leBytes 4 result)).setPart part fun p =>
      { p with hbusy := none, hresult := BitVec.ofNat 32 result }

/-- HOST_INSPECT_COMPLETE: every push is acknowledged, or the checks failed. -/
def execHostInspectComplete (part : Nat) (addressFault : Bool) (s : State) : Host.Outcome State Fault Refusal :=
  match (s.part part).hbusy with
  | none => .next s
  | some (none, seq, r) => .next (s.hinspectOver part seq r addressFault)
  | some (some id, seq, r) =>
    let t := match mapFind id s.inspects with
      | some x => x.pushing.foldl State.ackInspects s
      | none => s
    match mapFind id t.inspects with
    | none => .next (t.hinspectOver part seq r addressFault)
    | some x =>
      if !x.pushedHome then .next t
      else .next (((t.advance x).2.endInspect id x (some 0)).hinspectOver part seq r addressFault)

/-! ## The debug mailbox (R345) -/

/-- Where a partition's debug mailbox lies. -/
def mailboxAt (part : Nat) : Nat := 0x400000 + 64 * part

/-- DEBUG_NEXT. -/
def execDebugNext (part : Nat) (s : State) : Host.Outcome State Fault Refusal :=
  if part < 8 then
    hostWrite (mailboxAt part) s fun s => .next (s.setPart part fun p => { p with halted := p.halted.tail })
  else .next s

def State.dsResult (s : State) (part n : Nat) : State := s.setPart part fun p => { p with dsresult := BitVec.ofNat 32 n }

/-- What a state-port command acts on: the halted lane whose record is written, or the command's RESULT. -/
def State.dsTarget (s : State) (part : Nat) (c : PortCommand) : Except Nat (Nat × Nat × Group × Thread) :=
  match (s.lanePen part c.pen).filter fun (_, _, _, t) => t.atBreak with
  | none => .error 1
  | some o =>
    let n := imageSize o.2.2.1 c.part.toNat
    let pa := c.addr.toNat
    if 2 ≤ bitsAt c.part 0 2 then .error 2
    else if pa % 64 ≠ 0 ∨ !((List.range n).all fun i => inDevice (pa + i) && s.admits part (pa + i)) then .error 3
    else .ok o

/-- A state-port command: its RESULT at once where it names no lane, part or buffer; else it is under way (DSBUSY) until
every result on its way to the lane is there, and then the image is saved, or changes the lane or its whole group. -/
def State.dsServe (s : State) (part : Nat) (c : PortCommand) : State :=
  let over_ := fun (s : State) => s.setPart part fun p => { p with dsbusy := none }
  match s.dsTarget part c with
  | .error r => (over_ s).dsResult part r
  | .ok (gid, l, g, t) =>
    let n := imageSize g c.part.toNat
    if !s.stateSettled gid l g then s.setPart part fun p => { p with dsbusy := some c }
    else if !c.load then
      (over_ (s.homeWrite c.addr.toNat (if c.part = 0 then threadImage g t else groupImage g))).dsResult part 0
    else if s.poisoned c.addr.toNat n then (over_ s).dsResult part 4
    else (over_ (s.loadImage gid l c.part.toNat (s.bytes c.addr.toNat n))).dsResult part 0

/-- A write of DSCMD; one that comes while a command is under way is ignored (notes/assumptions/66). -/
def State.dsCommand (s : State) (part : Nat) (load : Bool) : State :=
  let p := s.part part
  if p.dsbusy.isSome then s
  else s.dsServe part { load := load, addr := p.dsaddr, pen := p.dspen, part := p.dspart }

def execDscmdSave (part : Nat) (s : State) : Host.Outcome State Fault Refusal :=
  if part < 8 then hostWrite (mailboxAt part) s fun s => .next (s.dsCommand part false) else .next s

def execDscmdLoad (part : Nat) (s : State) : Host.Outcome State Fault Refusal :=
  if part < 8 then hostWrite (mailboxAt part) s fun s => .next (s.dsCommand part true) else .next s

/-- State-port commands under way end once the results that they wait for are there. -/
def State.servePorts (s : State) : State :=
  s.parts.foldl (fun s (k, p) => match p.dsbusy with
    | some c => s.dsServe k c
    | none => s) s

/-! ## Attestation (R347) -/

/-- ATTESTATION_REQUEST: writing 1 to 0x0FC. -/
def execAttestationRequest (value : BitVec 32) (s : State) : Host.Outcome State Fault Refusal :=
  if value = 1 ∧ !s.attesting then .next { s with attesting := true, attested := false } else .next s

/-- The fields that a report measures: the region table, then WORLD, CORESETS and PORTS of every partition. -/
def State.measured (s : State) : List Nat :=
  (List.range 64).flatMap (fun n =>
    let r := s.region n
    [r.owners.toNat, r.base.toNat, flag r.secure, flag r.valid, r.size.toNat])
  ++ (List.range 8).flatMap fun p =>
    let x := s.part p
    [flag x.secure, x.coresets.toNat, x.portset.toNat]

/-- The report without its signature. -/
def State.reportBody (s : State) : List Byte :=
  leBytes 4 1 ++ leBytes 4 (s.stepping % 256 + s.domain % 64 * 256 + s.serial % 65536 * 65536)
    ++ leBytes 64 (Config.firmwareChain s.firmware).toNat ++ leBytes 64 (Config.measure s.measured).toNat
    ++ (List.range 32).map fun i => s.nonce.getD i 0

/-- ATTESTATION_REPORT_DONE. -/
def execAttestationReportDone (s : State) : Host.Outcome State Fault Refusal :=
  if s.attesting then
    let body := s.reportBody
    .next { s with attesting := false, attested := true
                   report := body ++ leBytes 64 (Config.signature body).toNat }
  else .next s

/-! ## Resets and cooling (R348, R349) -/

/-- A binding keeps to its front end's window and to two halves (R15, R16). -/
def bindingOk (b : Binding) : Bool :=
  let last := if b.latency then 8 else 25
  let lo := min (b.frontEnd - 1) (last - 2)
  b.stack < 4 && b.frontEnd ≤ last && [b.lowSlab, b.highSlab].all (fun n => lo ≤ n && n ≤ lo + 2)
    && !(b.lowSlab == b.highSlab && b.lowHi == b.highHi)

/-- Two bindings share a front end or a half. -/
def bindingsClash (a b : Binding) : Bool :=
  a.stack == b.stack && a.latency == b.latency
    && (a.frontEnd == b.frontEnd || [(a.lowSlab, a.lowHi), (a.highSlab, a.highHi)].any fun h =>
      h == (b.lowSlab, b.lowHi) || h == (b.highSlab, b.highHi))

/-- The bindings that can stand: each keeps its rules beside the earlier ones, at most 24 and 8 in a stack (R16, R17). -/
def goodBindings (bs : List Binding) : List Binding :=
  bs.foldl (fun acc b =>
    let mates := acc.filter fun a => a.stack == b.stack && a.latency == b.latency
    if bindingOk b && !(acc.any (bindingsClash b)) && mates.length < (if b.latency then 8 else 24) then acc ++ [b] else acc) []

/-- The images loaded: one that verifies replaces the one in its place (R346). -/
def loadFirmware (old : List (BitVec 512)) (imgs : List (BitVec 512 × Bool)) : List (BitVec 512) :=
  (List.range (max old.length imgs.length)).filterMap fun i =>
    match imgs[i]? with
    | some (h, true) => some h
    | _ => old[i]?

/-- A byte address of near memory. -/
def isNear (pa : Nat) : Bool :=
  match paKind pa with
  | .near _ => true
  | _ => false

/-- COLD_RESET: the repair bindings, the firmware, near memory zero, every table as after reset, the ports at their
assigned addresses (R335). What the fabric manager and the outside set stays, and so does far memory. -/
def execColdReset (repair : RepairRecord) (s : State) : Host.Outcome State Fault Refusal :=
  .next { State.reset with
    mem := s.mem.filter fun (a, _) => !isNear a
    poison := s.poison.filter fun k => !isNear (32 * k)
    bindings := goodBindings repair.bindings
    firmware := loadFirmware s.firmware repair.firmware
    domain := s.domain, members := s.members, stepping := s.stepping, serial := s.serial, answers := s.answers
    macs := s.macs, ports := (s.macs.map fun (k, m) => (k, ({ mac := m } : Port))).filter fun (_, p) => p != {}
    wire := s.wire, msix := s.msix, residue := s.residue, corrected := s.corrected, secureLog := s.secureLog
    placed := s.placed, seq := s.seq, freeCtr := s.freeCtr, schedule := s.schedule }

/-- Stores and atomics that have left their cores reach their homes (R303). -/
def State.flushNet (s : State) : State :=
  s.net.foldl (fun s r =>
    match r.kind with
    | .store st => s.applyStore st
    | .atomic p n op lanes obj => if op.padd then
        let s := if op.lowDone then s else s.placeWrite p (leBytes n (op.applyHalf false (leNat (s.placeBytes p n))))
        if op.highDone then s else s.placeWrite p (leBytes n (op.applyHalf true (leNat (s.placeBytes p n))))
      else match s.judge p obj with
        | .apply => if lanes.isEmpty || s.placePoisoned p n then s else
            s.placeWrite p (leBytes n (op.apply true (leNat (s.placeBytes p n))))
        | _ => s
    | _ => s) s

/-- A core as a function-level reset leaves it: its generators and its cycle counter run on. -/
def Core.cleared (c : Core) : Core := { rng := c.rng, cycle := c.cycle }

/-- FUNCTION_LEVEL_RESET: every gang ends without a record; partitions, queues and mailboxes are cleared, and so is every
register whose reset is not Held. Memory, bindings and the Held fields stay. -/
def execFunctionLevelReset (s : State) : Host.Outcome State Fault Refusal :=
  let s := s.flushNet
  .next { State.reset with
    mem := s.mem, poison := s.poison, bindings := s.bindings, firmware := s.firmware, domain := s.domain
    members := s.members, stepping := s.stepping, serial := s.serial, macs := s.macs, answers := s.answers, wire := s.wire
    msix := s.msix, residue := s.residue, corrected := s.corrected, secureLog := s.secureLog, placed := s.placed
    seq := s.seq, freeCtr := s.freeCtr, schedule := s.schedule, stopped := s.stopped, slowed := s.slowed
    cores := (s.cores.map fun (k, c) => (k, c.cleared)).filter fun (_, c) => c != {}
    ports := (s.ports.map fun (k, p) => (k, ({ mac := p.mac } : Port))).filter fun (_, p) => p != {} }

/-- THERMAL_THROTTLE: firmware lowers a stack's clocks; results are unchanged. -/
def execThermalThrottle (stack : Nat) (s : State) : Host.Outcome State Fault Refusal :=
  if stack < 4 then .next { s with slowed := setAdd stack s.slowed } else .next s

/-- COOLING_SHUTDOWN: every stack stops until cold reset. -/
def execCoolingShutdown (s : State) : Host.Outcome State Fault Refusal := .next { s with stopped := true }

end Sys2Proof.Machine
end

