-- ==== Sys2Proof/Machine/Ports.lean ====
section
/-! DEFINITION. The Ethernet ports (R334 to R338): their control blocks, descriptors and completions, Bowline, and RoCE. -/

namespace Sys2Proof.Machine

/-! ## Memory as a port's engine reaches it -/

/-- The physical stretches of a range of the owning partition; none where a page does not translate or is not permitted. -/
def State.deviceSegs (s : State) (part : Nat) (write : Bool) : Nat → Nat → Nat → Option (List (Nat × Nat))
  | 0, _, _ => some []
  | fuel + 1, va, n =>
    if n = 0 then some []
    else
      let k := min n (65536 - va % 65536)
      match s.deviceAccess part va write with
      | .error _ => none
      | .ok pa => (s.deviceSegs part write fuel (va + k) (n - k)).map ((pa, k) :: ·)

/-- Bytes read at their homes, or the STATUS of a completion: 3 a local fault, 5 uncorrectable data (R336). -/
def State.portRead (s : State) (part va n : Nat) : Except Nat (List Byte) :=
  match s.deviceSegs part false (n / 65536 + 2) va n with
  | none => .error 3
  | some segs =>
    if segs.any fun (pa, k) => s.poisoned pa k then .error 5 else .ok (segs.flatMap fun (pa, k) => s.bytes pa k)

/-- What a write of the port's engine comes to: it waits for lines that another engine owns, it faults, or the bytes are
at their homes (R206, R334). -/
inductive PortWrite where
  | waits
  | fault
  | done (s : State)

def State.putSegs (s : State) : List (Nat × Nat) → List Byte → State
  | [], _ => s
  | (pa, k) :: rest, bs => (s.homeWrite pa (bs.take k)).putSegs rest (bs.drop k)

def State.portWrite (s : State) (part va : Nat) (bs : List Byte) : PortWrite :=
  match s.deviceSegs part true (bs.length / 65536 + 2) va bs.length with
  | none => .fault
  | some segs => if segs.any fun (pa, k) => s.placeBlocked (.mem pa) k then .waits else .done (s.putSegs segs bs)

/-! ## Frames and completions (R336) -/

/-- A port sends a frame. -/
def State.sendFrame (s : State) (f : TxFrame) : State :=
  { s.setPort f.port (fun p => { p with txframes := satAdd p.txframes 1 }) with wire := f :: s.wire }

/-- A frame again. -/
def State.resendFrame (s : State) (f : TxFrame) : State :=
  (s.sendFrame f).setPort f.port fun p => { p with resends := satAdd p.resends 1 }

/-- The frame that the wire has carried. -/
def State.sentFrame (s : State) (n : Nat) (kinds : List FrameKind) (dest : Nat) (seq : Word) : Option TxFrame :=
  s.wire.find? fun f => f.port == n && kinds.contains f.kind && f.dest == dest && f.seq == seq

def State.drop (s : State) (n : Nat) : State := s.setPort n fun p => { p with rxdrops := satAdd p.rxdrops 1 }
def State.received (s : State) (n : Nat) : State := s.setPort n fun p => { p with rxframes := satAdd p.rxframes 1 }

/-- The completion queue takes one more entry at once. -/
def State.cqRoom (s : State) (n : Nat) : Bool := (s.port n).held.isEmpty && !(s.squeue (s.port n).cq).full

/-- Enqueues a completion, behind those that wait for room. -/
def State.complete (s : State) (n kind status tag : Nat) : State :=
  let w := BitVec.ofNat 32 (kind * 2 ^ 28 + status * 2 ^ 24 + tag % 2 ^ 24)
  let q := (s.port n).cq
  let hold := s.setPort n fun p => { p with held := p.held ++ [w] }
  if s.cqRoom n then
    match s.putEntry q w with
    | none => hold
    | some s => s.serveTakers q
  else hold

def State.failed (s : State) (n status tag : Nat) : State := s.complete n 15 status tag

/-! ## Contexts (R338) -/

def State.setContext (s : State) (n i : Nat) (f : RoceContext → RoceContext) : State :=
  s.setPort n fun p => { p with contexts := mapUpdate i f p.contexts }

/-- A context from its bytes. Of a RETRY above 7 and of a TIMEOUT above 31, which the manual gives no meaning, the low three
and five bits count (notes/assumptions/70). -/
def RoceContext.ofBytes (bs : List Byte) : RoceContext :=
  let st := fieldNat bs 0 1
  let bits := fun {n : Nat} (i : Nat) => BitVec.ofNat n (fieldNat bs i ((n + 7) / 8))
  { state := if st ≤ 1 then st else 2, spsn := bits 4, retry := fieldNat bs 7 1 % 8, rpsn := bits 8
    timeout := BitVec.ofNat 8 (fieldNat bs 11 1 % 32)
    header := { dqpn := bits 1, sport := bits 0x0C, tclass := bits 0x0E, hoplimit := bits 0x0F, dmac := bits 0x10
                dgid := bits 0x18, sgid := bits 0x28 } }

/-- The port reads a context afresh; one that cannot be read is in ERROR. What the port holds of requests under way stays
(notes/assumptions/70). -/
def State.readContext (s : State) (part n i : Nat) : State :=
  let old := mapGet ({} : RoceContext) (s.port n).contexts i
  let c : RoceContext := match s.portRead part ((s.port n).qpbase.toNat + 128 * i) 128 with
    | .ok bs => RoceContext.ofBytes bs
    | .error _ => { state := 2 }
  s.setPort n fun p => { p with contexts := mapInsert i { c with out := old.out, recv := old.recv } p.contexts }

/-- The header fields of a packet of a context. -/
def State.headerOf (s : State) (n i : Nat) : RoceHeader := (mapGet ({} : RoceContext) (s.port n).contexts i).header

/-- STATE, SPSN and RPSN go back to the table. -/
def State.writeContext (s : State) (part n i : Nat) : State :=
  match mapFind i (s.port n).contexts with
  | none => s
  | some c =>
    let base := (s.port n).qpbase.toNat + 128 * i
    [(0, 1, c.state), (4, 3, c.spsn.toNat), (8, 3, c.rpsn.toNat)].foldl (fun s (off, k, x) =>
      match s.portWrite part (base + off) (leBytes k x) with
      | .done s => s
      | _ => s) s

/-- A request completes: it failed before it was sent, or it is done, or it ends with the STATUS given. -/
def State.completeReq (s : State) (n status : Nat) (r : RoceReq) : State :=
  match r.fail with
  | some e => s.failed n e r.idx
  | none => if r.acked then s.complete n (if r.read then 2 else 1) 0 r.idx else s.failed n status r.idx

/-- Requests that are done complete in the order they were sent (R336). -/
def State.settleContext (s : State) (n i : Nat) : List RoceReq → State
  | [] => s.setContext n i fun c => { c with out := [] }
  | r :: rest =>
    if r.acked || r.fail.isSome then (s.completeReq n 0 r).settleContext n i rest
    else s.setContext n i fun c => { c with out := r :: rest }

/-- A context fails: its requests complete with a STATUS, its fields go back to the table. -/
def State.failContext (s : State) (part n i status : Nat) : State :=
  match mapFind i (s.port n).contexts with
  | none => s
  | some c =>
    let s := c.out.foldl (·.completeReq n status ·) s
    let s := match c.recv with
      | some (b, _) => s.failed n status b.idx
      | none => s
    (s.setContext n i fun c => { c with state := 2, out := [], recv := none, tries := 0 }).writeContext part n i

/-! ## Starting and stopping (R335) -/

/-- A port starts: it reads its contexts and holds a registration on CQ. -/
def State.startPort (s : State) (n : Nat) : State :=
  match s.portOwner n with
  | none => s
  | some o =>
    let p := s.port n
    let s := s.setSQueue p.cq fun q => { q with prod := q.prod + 1 }
    (List.range p.qpcount).foldl (fun s i => s.readContext o n i) s

/-- A port stops: every request taken and every buffer posted completes with STATUS 6. -/
def State.stopPort (s : State) (n : Nat) : State :=
  let p := s.port n
  let s := p.contexts.foldl (fun s (_, c) =>
    let s := c.out.foldl (fun s r => s.failed n 6 r.idx) s
    match c.recv with
    | some (b, _) => s.failed n 6 b.idx
    | none => s) s
  let sent := p.blOut.flatMap fun (_, b) => (b.out.map (·.idx)).eraseDups
  let s := sent.foldl (fun s i => s.failed n 6 i) s
  let s := p.posted.foldl (fun s b => s.failed n 6 b.idx) s
  let s := match s.portOwner n with
    | some o => (mapKeys p.contexts).foldl (fun (s : State) (i : Nat) => s.writeContext o n i) s
    | none => s
  let s := (s.setSQueue p.cq fun q => { q with prod := q.prod - 1 }).checkClose p.cq
  s.setPort n fun p => { p with contexts := [], blOut := [], blIn := [], posted := [] }

/-- QPLOAD. -/
def State.loadContext (s : State) (n i : Nat) : State :=
  match s.portOwner n with
  | some o => if (s.port n).enabled && i < (s.port n).qpcount then s.readContext o n i else s
  | none => s

/-- What follows a write of ENABLE. -/
def State.enableEffect (s : State) (n : Nat) (was : Bool) : State :=
  match was, (s.port n).enabled with
  | false, true => s.startPort n
  | true, false => s.stopPort n
  | _, _ => s

/-- Where a port's control block lies. -/
def portAt (port : Nat) : Nat := 0x500000 + 0x400 * port

/-- PORT_CONTROL_WRITE. -/
def execPortControlWrite (port off width : Nat) (value : DWord) (s : State) : Host.Outcome State Fault Refusal :=
  if port < 8 && off < 1024 && bar0Ok off width then
    hostWrite (portAt port) s fun s =>
      let was := (s.port port).enabled
      let j := judgeWrite (portFields s port) (!was) off width value.toNat (s.port port)
      let s := s.setPort port fun _ =>
        { j.block with range := j.block.range || j.range, notq := j.block.notq || j.notq }
      let s := s.enableEffect port was
      if off ≤ 0x70 ∧ 0x70 < off + width then .next (s.loadContext port (writtenWord 0x70 off width value.toNat))
      else .next s
  else .next s

/-- PORT_ENABLE: a write that sets ENABLE and changes nothing else. -/
def execPortEnable (port : Nat) (s : State) : Host.Outcome State Fault Refusal :=
  let p := s.port port
  if 8 ≤ port || p.enabled then .next s
  else
    hostWrite (portAt port) s fun s =>
      if s.portReady port p then .next ((s.setPort port fun p => { p with ctl := withBits p.ctl 31 1 1 }).startPort port)
      else .next (s.setPort port fun p => { p with range := true })

/-- PORT_DISABLE: a write that clears ENABLE and changes nothing else. -/
def execPortDisable (port : Nat) (s : State) : Host.Outcome State Fault Refusal :=
  if port < 8 && (s.port port).enabled then
    hostWrite (portAt port) s fun s =>
      .next ((s.setPort port fun p => { p with ctl := withBits p.ctl 31 1 0 }).stopPort port)
  else .next s

def execQpload (port context : Nat) (s : State) : Host.Outcome State Fault Refusal :=
  if port < 8 then hostWrite (portAt port) s fun s => .next (s.loadContext port context) else .next s

/-! ## Requests (R336) -/

/-- A descriptor. -/
structure Desc where
  op : Nat
  qp : Nat
  len : Nat
  laddr : Nat
  raddr : DWord
  rkey : Word
  imm : Word
  dmac : Nat

def Desc.ofBytes (bs : List Byte) : Desc :=
  { op := fieldNat bs 0 1, qp := fieldNat bs 2 2, len := fieldNat bs 4 4, laddr := fieldNat bs 8 8
    raddr := BitVec.ofNat 64 (fieldNat bs 0x10 8), rkey := BitVec.ofNat 32 (fieldNat bs 0x18 4)
    imm := BitVec.ofNat 32 (fieldNat bs 0x1C 4), dmac := fieldNat bs 0x20 6 }

/-- The descriptor of an entry, or the STATUS it completes with. -/
def State.readDesc (s : State) (part n : Nat) (w : Word) : Except Nat Desc :=
  let p := s.port n
  if 2 ^ p.desclog ≤ w.toNat then .error 7
  else (s.portRead part (p.descbase.toNat + 64 * w.toNat) 64).map Desc.ofBytes

/-- A message in frames of at most m bytes: offset and bytes. -/
def messageFrames (m : Nat) (bs : List Byte) : List (Nat × List Byte) :=
  (List.range ((bs.length + m - 1) / m)).map fun i => (m * i, (bs.drop (m * i)).take m)

/-- A Bowline message completes: it failed before it was sent, or its last frame is acknowledged. -/
def State.completeSent (s : State) (n : Nat) (x : BowlineSent) : State :=
  match x.fail with
  | some e => s.failed n e x.idx
  | none => if x.last then s.complete n 1 0 x.idx else s

/-- What stands at the head of a destination and has failed completes: nothing before it is under way (R336). -/
def State.settleBowline (s : State) (n mac : Nat) : List BowlineSent → State
  | [] => s.setPort n fun p => { p with blOut := mapUpdate mac (fun b => { b with out := [] }) p.blOut }
  | x :: rest =>
    if x.fail.isSome then (s.completeSent n x).settleBowline n mac rest
    else s.setPort n fun p => { p with blOut := mapUpdate mac (fun b => { b with out := x :: rest }) p.blOut }

/-- A Bowline request that cannot be sent completes in its turn. -/
def State.failBowline (s : State) (n idx mac status : Nat) : State :=
  let b := mapGet {} (s.port n).blOut mac
  let out := b.out ++ [{ seq := b.next, idx := idx, last := true, fail := some status }]
  (s.setPort n fun p => { p with blOut := mapInsert mac b p.blOut }).settleBowline n mac out

/-- A request on a context that cannot be sent completes in its turn. -/
def State.failRoce (s : State) (n idx i status : Nat) : State :=
  match mapFind i (s.port n).contexts with
  | none => s.failed n status idx
  | some c => s.settleContext n i (c.out ++ [{ idx := idx, first := c.spsn, last := c.spsn, fail := some status }])

/-- Starts a Bowline message (R337). -/
def State.startBowline (s : State) (part n idx : Nat) (d : Desc) : State :=
  match s.portRead part d.laddr d.len with
  | .error e => s.failBowline n idx d.dmac e
  | .ok bs =>
    let b := mapGet {} (s.port n).blOut d.dmac
    let fs := messageFrames (s.port n).mtu bs
    let frames := (List.range fs.length).zip fs |>.map fun (i, off, bytes) =>
      let last := i + 1 == fs.length
      ({ port := n, kind := if last && d.op == 9 then .blFlag else .blWrite, dest := d.dmac
         seq := b.next + BitVec.ofNat 32 i, addr := d.raddr + BitVec.ofNat 64 off
         imm := if last && d.op == 9 then d.imm &&& 0xFFFFFF else 0, payload := bytes : TxFrame }, last)
    let s := frames.foldl (fun s (f, _) => s.sendFrame f) s
    let sent := frames.map fun (f, l) => ({ seq := f.seq, idx := idx, last := l } : BowlineSent)
    let b := { b with next := b.next + BitVec.ofNat 32 fs.length, out := b.out ++ sent }
    s.setPort n fun p => { p with blOut := mapInsert d.dmac b p.blOut }

/-- Starts a RoCE request (R338). -/
def State.startRoce (s : State) (part n idx : Nat) (d : Desc) : State :=
  match mapFind d.qp (s.port n).contexts with
  | none => s.failed n 7 idx
  | some c =>
    if c.state ≠ 1 then s.failRoce n idx d.qp 7
    else
      let m := (s.port n).mtu
      let k := (d.len + m - 1) / m
      let r : RoceReq := { idx := idx, first := c.spsn, last := c.spsn + BitVec.ofNat 24 (k - 1) }
      let sent := fun (s : State) (r : RoceReq) =>
        s.setContext n d.qp fun c => { c with spsn := c.spsn + BitVec.ofNat 24 k, out := c.out ++ [r] }
      if d.op = 3 then
        let f : TxFrame := { port := n, kind := .readRequest, dest := d.qp, seq := c.spsn.setWidth 32, addr := d.raddr
                             imm := d.rkey, payload := leBytes 4 d.len, header := c.header }
        sent (s.sendFrame f) { r with read := true, addr := BitVec.ofNat 64 d.laddr, len := d.len }
      else
        match s.portRead part d.laddr d.len with
        | .error e => s.failRoce n idx d.qp e
        | .ok bs =>
          let frames := ((List.range k).zip (messageFrames m bs)).map fun (i, off, bytes) =>
            ({ port := n, kind := if d.op == 1 then .send else .write, dest := d.qp
               seq := (c.spsn + BitVec.ofNat 24 i).setWidth 32
               addr := if d.op = 2 then d.raddr + BitVec.ofNat 64 off else 0
               imm := if d.op = 2 then d.rkey else 0, payload := bytes, header := c.header } : TxFrame)
          sent (frames.foldl State.sendFrame s) r

/-- A send request that the port has taken. -/
def State.startRequest (s : State) (part n : Nat) (w : Word) : State :=
  let p := s.port n
  let idx := w.toNat % 65536
  match s.readDesc part n w with
  | .error e => s.failed n e idx
  | .ok d =>
    let long := decide (d.len = 0 ∨ 2 ^ 24 < d.len)
    if (d.op = 8 ∨ d.op = 9) ∧ p.bowline then
      if long then s.failBowline n idx d.dmac 7 else s.startBowline part n idx d
    else if 1 ≤ d.op ∧ d.op ≤ 3 ∧ p.roce ∧ d.qp < p.qpcount then
      if long then s.failRoce n idx d.qp 7 else s.startRoce part n idx d
    else s.failed n 7 idx

/-- The next entry of one of the port's queues, its slot free again; none: there is none now. -/
def State.takeEntry (s : State) (q : Nat) : Option (Option Word × State) :=
  if (s.squeue q).count = 0 || s.ringBlocked q 1 then none
  else
    match s.getEntry q with
    | (.ok bs, s) => some (some (BitVec.ofNat 32 (leNat bs)), s.serveGivers q)
    | (.error 0x11, s) => some (none, s.serveGivers q)
    | (.error _, _) => none

/-- A port that runs and may take requests: no completion waits for room. -/
def State.portTakes (s : State) (n : Nat) : Option Nat :=
  if n < 8 && (s.port n).enabled && (s.port n).held.isEmpty then s.portOwner n else none

/-- PORT_SEND_REQUEST. -/
def execPortSendRequest (port : Nat) (s : State) : Host.Outcome State Fault Refusal :=
  match s.portTakes port, s.takeEntry (s.port port).sendq with
  | some o, some (some w, s) => .next (s.startRequest o port w)
  | some _, some (none, s) => .next (s.failed port 5 0)
  | _, _ => .next s

/-- PORT_RECV_POST: a posted receive buffer. -/
def execPortRecvPost (port : Nat) (s : State) : Host.Outcome State Fault Refusal :=
  match s.portTakes port, s.takeEntry (s.port port).recvq with
  | some o, some (some w, s) =>
    let idx := w.toNat % 65536
    match s.readDesc o port w with
    | .error e => .next (s.failed port e idx)
    | .ok d =>
      if d.op ≠ 4 ∨ d.len = 0 ∨ 2 ^ 24 < d.len then .next (s.failed port 7 idx)
      else
        let b : RecvBuf := { idx := idx, addr := BitVec.ofNat 64 d.laddr, cap := d.len }
        .next (s.setPort port fun p => { p with posted := p.posted ++ [b] })
  | some _, some (none, s) => .next (s.failed port 5 0)
  | _, _ => .next s

/-! ## Bowline (R337) -/

/-- A port that runs a transport, and its partition. -/
def State.rxPort (s : State) (n : Nat) (on : Port → Bool) : Option Nat :=
  if n < 8 && (s.port n).enabled && on (s.port n) then s.portOwner n else none

def State.answerBowline (s : State) (n : Nat) (mac : Nat) (kind : FrameKind) (seq : Word) : State :=
  s.sendFrame { port := n, kind := kind, dest := mac, seq := seq }

/-- BOWLINE_DATA_FRAME_RX: only the next frame of its sender is accepted; one outside the window, or that the partition
may not write, is refused. A frame whose completion finds no room is not acknowledged. -/
def execBowlineDataFrameRx (port : Nat) (f : BowlineFrame) (s : State) : Host.Outcome State Fault Refusal :=
  match s.rxPort port Port.bowline with
  | none => .next s
  | some o =>
    let p := s.port port
    let mac := f.smac.toNat
    let want := mapGet 0 p.blIn mac
    let n := f.len.toNat
    if f.ver ≠ 1 ∨ !(f.opc == 1 || f.opc == 2) ∨ f.payload.length ≠ n ∨ p.mtu < n then .next (s.drop port)
    else if f.seq ≠ want then .next ((s.drop port).answerBowline port mac .blAck (want - 1))
    else if f.addr.toNat < p.rxbase.toNat ∨ p.rxbase.toNat + p.rxlen.toNat < f.addr.toNat + n ∨ p.rxlen = 0 then
      .next ((s.drop port).answerBowline port mac .blNak f.seq)
    else if f.opc = 2 && !s.cqRoom port then .next s
    else
      match s.portWrite o f.addr.toNat f.payload with
      | .waits => .next s
      | .fault => .next ((s.drop port).answerBowline port mac .blNak f.seq)
      | .done s =>
        let s := (s.received port).setPort port fun p => { p with blIn := mapPut 0 mac (want + 1) p.blIn }
        let s := s.answerBowline port mac .blAck f.seq
        .next (if f.opc = 2 then s.complete port 4 0 (f.imm.toNat % 2 ^ 24) else s)

/-- The position of the unacknowledged frame that a sequence number answers. -/
def BowlineOut.at_ (b : BowlineOut) (seq : Word) : Option Nat := b.out.findIdx? fun x => x.fail.isNone && x.seq == seq

/-- An answer to a frame of this port: it is received where it names a frame that waits, and dropped otherwise. -/
def bowlineAnswer (port : Nat) (mac : BitVec 48) (seq : Word) (s : State) (fn : State → BowlineOut → Nat → State) :
    Host.Outcome State Fault Refusal :=
  match s.rxPort port Port.bowline with
  | none => .next s
  | some _ =>
    let b := mapGet {} (s.port port).blOut mac.toNat
    match b.at_ seq with
    | none => .next (s.drop port)
    | some i => .next (fn (s.received port) b i)

/-- BOWLINE_ACK_RX: the frames up to the one acknowledged leave, and complete their messages. -/
def execBowlineAckRx (port : Nat) (mac : BitVec 48) (seq : Word) (s : State) : Host.Outcome State Fault Refusal :=
  bowlineAnswer port mac seq s fun s b i =>
    ((b.out.take (i + 1)).foldl (·.completeSent port ·) s).settleBowline port mac.toNat (b.out.drop (i + 1))

/-- The message that holds the unacknowledged frame at a position ends with a STATUS: none of its later frames is sent, and
the frames of later messages go out under the numbers that follow the last one accepted, each as a new frame
(notes/assumptions/69). -/
def State.endMessage (s : State) (n mac i status : Nat) : State :=
  let b := mapGet {} (s.port n).blOut mac
  match b.out[i]? with
  | none => s
  | some x =>
    let rest := (b.out.drop i).filter fun y => y.idx != x.idx || y.fail.isSome
    let (out, next, s) := rest.foldl (fun (out, next, s) y =>
      if y.fail.isSome then (out ++ [y], next, s)
      else match s.sentFrame n [.blWrite, .blFlag] mac y.seq with
        | none => (out, next, s)
        | some f => (out ++ [{ y with seq := next, tries := 0 }], next + 1, State.resendFrame s { f with seq := next }))
      ([], x.seq, s)
    let s := s.setPort n fun p => { p with blOut := mapInsert mac { next := next, out := out } p.blOut }
    (((b.out.take i).foldl (·.completeSent n ·) s).failed n status x.idx).settleBowline n mac out

/-- BOWLINE_NAK_RX. -/
def execBowlineNakRx (port : Nat) (mac : BitVec 48) (seq : Word) (s : State) : Host.Outcome State Fault Refusal :=
  bowlineAnswer port mac seq s fun s _ i => s.endMessage port mac.toNat i 1

/-- BOWLINE_RESEND_TIMEOUT: the unacknowledged frames go out again; a frame that went out again eight times ends its
message. -/
def execBowlineResendTimeout (port : Nat) (mac : BitVec 48) (s : State) : Host.Outcome State Fault Refusal :=
  match s.rxPort port Port.bowline with
  | none => .next s
  | some _ =>
    let b := mapGet {} (s.port port).blOut mac.toNat
    match b.out.findIdx? fun x => x.fail.isNone && decide (8 ≤ x.tries) with
    | some i => .next (s.endMessage port mac.toNat i 2)
    | none =>
      let s := (b.out.filterMap fun x => if x.fail.isSome then none
        else s.sentFrame port [.blWrite, .blFlag] mac.toNat x.seq).foldl State.resendFrame s
      let again := { b with out := b.out.map fun x => { x with tries := x.tries + 1 } }
      .next (s.setPort port fun p =>
        { p with blOut := if b.out.isEmpty then p.blOut else mapInsert mac.toNat again p.blOut })

/-! ## RoCE (R338) -/

/-- The context that a packet belongs to, if it runs. -/
def State.rxContext (s : State) (n i : Nat) : Option (Nat × RoceContext) :=
  match s.rxPort n Port.roce, mapFind i (s.port n).contexts with
  | some o, some c => if i < (s.port n).qpcount ∧ c.state = 1 then some (o, c) else none
  | _, _ => none

def State.answerRoce (s : State) (n i : Nat) (kind : FrameKind) (psn : BitVec 24) (bs : List Byte := []) : State :=
  s.sendFrame { port := n, kind := kind, dest := i, seq := psn.setWidth 32, payload := bs, header := s.headerOf n i }

/-- A packet of a port that runs RoCE: one of an unknown context is dropped. -/
def rxRoce (port context : Nat) (s : State) (fn : Nat → RoceContext → State) : Host.Outcome State Fault Refusal :=
  match s.rxPort port Port.roce with
  | none => .next s
  | some _ =>
    match s.rxContext port context with
    | none => .next (s.drop port)
    | some (o, c) => .next (fn o c)

/-- A PSN that lies before the one expected (PSNs wrap): the packet is there already. -/
def RoceContext.had (c : RoceContext) (psn : BitVec 24) : Bool := decide (psn ≠ c.rpsn ∧ (c.rpsn - psn).toNat ≤ 2 ^ 23)

/-- A request packet is served where its PSN is the one expected. One that is there already is answered again, as the
InfiniBand specification has it (notes/assumptions/70); every other one is dropped. -/
def rxRequest (port : Nat) (pkt : RocePacket) (s : State) (again : State → Nat → RoceContext → State)
    (fn : Nat → RoceContext → State) : Host.Outcome State Fault Refusal :=
  rxRoce port pkt.context s fun o c =>
    if pkt.psn = c.rpsn then fn o c
    else if c.had pkt.psn then again (s.drop port) o c
    else s.drop port

/-- A SEND or RDMA WRITE that is there already is acknowledged again, up to the last packet accepted. -/
def ackAgain (port : Nat) (pkt : RocePacket) (s : State) (_ : Nat) (c : RoceContext) : State :=
  s.answerRoce port pkt.context .ack (c.rpsn - 1)

/-- A packet is accepted: k PSNs are used up. -/
def State.accept (s : State) (n i k : Nat) : State :=
  (s.received n).setContext n i fun c => { c with rpsn := c.rpsn + BitVec.ofNat 24 k }

/-- The key table admits an operation: bit 0 reads, bit 1 writes. -/
def State.keyAdmits (s : State) (part n : Nat) (key : Word) (addr len bit : Nat) : Bool :=
  let p := s.port n
  let i := key.toNat % 4096
  decide (i < p.keycount) &&
    match s.portRead part (p.keybase.toNat + 32 * i) 32 with
    | .error _ => false
    | .ok bs =>
      let base := fieldNat bs 8 8
      fieldNat bs 0 4 == key.toNat && (fieldNat bs 4 4).testBit bit && base ≤ addr
        && addr + len ≤ base + fieldNat bs 0x10 8

/-- ROCE_RDMA_WRITE_RX. -/
def execRoceRdmaWriteRx (port : Nat) (pkt : RocePacket) (s : State) : Host.Outcome State Fault Refusal :=
  rxRequest port pkt s (ackAgain port pkt) (fun o _ =>
    let nak := s.answerRoce port pkt.context .accessNak pkt.psn
    if !s.keyAdmits o port pkt.key pkt.addr.toNat (max pkt.len.toNat pkt.payload.length) 1 then nak
    else
      match s.portWrite o pkt.addr.toNat pkt.payload with
      | .waits => s
      | .fault => nak
      | .done s => (s.accept port pkt.context 1).answerRoce port pkt.context .ack pkt.psn)

/-- The answer to an RDMA READ: the response in packets of the MTU, one PSN each, or a NAK. -/
def State.answerRead (s : State) (o port : Nat) (pkt : RocePacket) (accepted : State → Nat → State) : State :=
  let nak := s.answerRoce port pkt.context .accessNak pkt.psn
  if !s.keyAdmits o port pkt.key pkt.addr.toNat pkt.len.toNat 0 then nak
  else
    match s.portRead o pkt.addr.toNat pkt.len.toNat with
    | .error _ => nak
    | .ok bs =>
      let fs := messageFrames (s.port port).mtu bs
      ((List.range fs.length).zip fs).foldl (fun s (i, _, b) =>
        s.answerRoce port pkt.context .readResponse (pkt.psn + BitVec.ofNat 24 i) b) (accepted s (max 1 fs.length))

/-- ROCE_RDMA_READ_RX. -/
def execRoceRdmaReadRx (port : Nat) (pkt : RocePacket) (s : State) : Host.Outcome State Fault Refusal :=
  rxRequest port pkt s (fun s o _ => s.answerRead o port pkt fun s _ => s)
    (fun o _ => s.answerRead o port pkt fun s k => s.accept port pkt.context k)

/-- The buffer that an incoming SEND fills: the one in progress, or the oldest posted. -/
def State.recvBuffer (s : State) (n : Nat) (c : RoceContext) : Option (RecvBuf × Nat × State) :=
  match c.recv, (s.port n).posted with
  | some (b, got), _ => some (b, got, s)
  | none, b :: rest => some (b, 0, s.setPort n fun p => { p with posted := rest })
  | none, [] => none

/-- A SEND is whole: the descriptor's LEN becomes the length received, then the completion is enqueued. -/
def State.recvDone (s : State) (part n : Nat) (b : RecvBuf) (total : Nat) : State :=
  let s := match s.portWrite part ((s.port n).descbase.toNat + 64 * b.idx + 4) (leBytes 4 (min total b.cap)) with
    | .done s => s
    | _ => s
  s.complete n 3 (if b.cap < total then 4 else 0) b.idx

/-- ROCE_SEND_RX. -/
def execRoceSendRx (port : Nat) (pkt : RocePacket) (s : State) : Host.Outcome State Fault Refusal :=
  rxRequest port pkt s (ackAgain port pkt) (fun o c =>
    match s.recvBuffer port c with
    | none => s.answerRoce port pkt.context .rnrNak pkt.psn
    | some (b, got, t) =>
      if pkt.last && !s.cqRoom port then s
      else
        match t.portWrite o (b.addr.toNat + got) (pkt.payload.take (b.cap - got)) with
        | .waits => s
        | .fault =>
          ((t.setContext port pkt.context fun c => { c with recv := none }).failed port 3 b.idx).answerRoce port pkt.context
            .accessNak pkt.psn
        | .done t =>
          let total := got + pkt.payload.length
          let t := t.accept port pkt.context 1
          let t := t.setContext port pkt.context fun c =>
            { c with recv := if pkt.last then none else some (b, total) }
          let t := t.answerRoce port pkt.context .ack pkt.psn
          if pkt.last then t.recvDone o port b total else t)

/-- ROCE_ACK_RX: an acknowledgement covers every earlier packet (PSNs wrap). -/
def execRoceAckRx (port context : Nat) (psn : BitVec 24) (s : State) : Host.Outcome State Fault Refusal :=
  rxRoce port context s fun _ c =>
    let out := c.out.map fun r =>
      if !r.read && r.fail.isNone && (psn - r.last).toNat < 2 ^ 23 then { r with acked := true } else r
    ((s.received port).setContext port context fun c => { c with tries := 0 }).settleContext port context out

/-- The frames of the requests that wait for an answer. -/
def State.waitingFrames (s : State) (n i : Nat) (c : RoceContext) : List TxFrame :=
  (c.out.filter fun r => !r.acked && r.fail.isNone).flatMap fun r =>
    if r.read then (s.sentFrame n [.readRequest] i (r.first.setWidth 32)).toList
    else (List.range ((r.last - r.first).toNat + 1)).filterMap fun k =>
      s.sentFrame n [.send, .write] i ((r.first + BitVec.ofNat 24 k).setWidth 32)

/-- The packets that wait go out again; after RETRY times the context fails. -/
def State.retryContext (s : State) (part n i : Nat) (c : RoceContext) : State :=
  if (c.out.filter fun r => !r.acked).isEmpty then s
  else if c.retry ≤ c.tries then s.failContext part n i 2
  else
    ((s.waitingFrames n i c).foldl State.resendFrame s).setContext n i fun c => { c with tries := c.tries + 1 }

/-- ROCE_NAK_RX: a NAK fails the context; a receiver-not-ready one asks for the packets again (notes/assumptions/70). -/
def execRoceNakRx (port : Nat) (context : RoceNak) (s : State) : Host.Outcome State Fault Refusal :=
  rxRoce port context.context s fun o c =>
    if context.notReady then (s.received port).retryContext o port context.context c
    else (s.received port).failContext o port context.context 1

/-- ROCE_ACK_TIMEOUT. -/
def execRoceAckTimeout (port context : Nat) (s : State) : Host.Outcome State Fault Refusal :=
  match s.rxContext port context with
  | none => .next s
  | some (o, c) => .next (s.retryContext o port context c)

/-- RDMA_READ_RESPONSE_RX: the next response of the oldest read that waits lands in its buffer. -/
def execRdmaReadResponseRx (port : Nat) (pkt : RocePacket) (s : State) : Host.Outcome State Fault Refusal :=
  match s.rxPort port Port.roce with
  | none => .next s
  | some _ =>
    match s.rxContext port pkt.context with
    | none => .next (s.drop port)
    | some (o, c) =>
      match c.out.find? fun r => r.read && !r.acked && r.fail.isNone with
      | none => .next (s.drop port)
      | some r =>
        if pkt.psn ≠ r.first + BitVec.ofNat 24 r.packets then .next (s.drop port)
        else
          match s.portWrite o (r.addr.toNat + r.got) (pkt.payload.take (r.len - r.got)) with
          | .waits => .next s
          | .fault => .next ((s.received port).failContext o port pkt.context 3)
          | .done s =>
            let got := min r.len (r.got + pkt.payload.length)
            let out := c.out.map fun x =>
              if x == r then { r with got := got, packets := r.packets + 1, acked := got == r.len } else x
            .next (((s.received port).setContext port pkt.context fun c => { c with tries := 0 }).settleContext port pkt.context out)

/-- ROCE_ATOMIC_REQUEST_RX. -/
def execRoceAtomicRequestRx (port : Nat) (pkt : RocePacket) (s : State) : Host.Outcome State Fault Refusal :=
  match s.rxPort port Port.roce with
  | none => .next s
  | some _ => .next (s.answerRoce port pkt.context .invalidNak pkt.psn)

/-- FRAME_DROPPED. -/
def execFrameDropped (port : Nat) (s : State) : Host.Outcome State Fault Refusal :=
  if port < 8 && (s.port port).enabled then .next (s.drop port) else .next s

end Sys2Proof.Machine
end

