-- ==== Sys2Proof/Machine/Links.lean ====
section
/-! DEFINITION. The Veleel Link (R246, R278, R332, R333): what peers ask of the device, flit errors, timeouts. -/

namespace Sys2Proof.Machine

def State.answerPeer (s : State) (device : Nat) (bs : List Byte) (cause : Option Nat) : State :=
  { s with answers := .peer device bs cause :: s.answers }

/-- A peer's atomic (R246): a SEALED object's line keeps its bytes. -/
def State.peerAtomic (s : State) (r : PeerRequest) (n : Nat) (op : AtomOp) : State :=
  let o := leNat (s.bytes r.pa n)
  if s.poisoned r.pa n then s.answerPeer r.device [] (some 0x11)
  else (s.homeWrite r.pa (leBytes n (op.apply true o))).answerPeer r.device (leBytes n o) none

/-- How many bytes a peer's request touches. -/
def PeerRequest.size (r : PeerRequest) : Nat :=
  match r.kind with
  | .load n => n
  | .store bs => bs.length
  | .atomic _ ty _ => atomBytes ty
  | .cas ty _ _ => atomBytes ty
  | .padd2 _ _ => 4
  | .inspect _ _ _ _ => 0

/-- A peer's inspect of a thread, group or block of this device (R278). -/
def State.peerInspect (s : State) (r : PeerRequest) (a : Ask) : State :=
  if 3 ≤ a.form then s.answerPeer r.device [] (some 0x16)
  else
    match s.named r.part a with
    | .error c => s.answerPeer r.device [] (some c)
    | .ok gs => (s.newInspect none 0 r.part { a with peer := some r.device } { groups := gs }).2

/-- PEER_REQUEST_ARRIVAL: a request from a device of the domain is served at the home slice where the region admits the
partition it names, and answered with PROT otherwise. The halves of a packed addition are applied one by one (R245). -/
def execPeerRequestArrival (r : PeerRequest) (s : State) : Host.Outcome State Fault Refusal :=
  if !s.members.getLsbD r.device || r.device == s.domain || s.stopped then .next s
  else
    match r.kind with
    | .inspect form lo hi count =>
      .next (s.peerInspect r ({ form := form, scope := 2, lo := lo, hi := hi, count := count : Ask }).plain)
    | kind =>
      let n := PeerRequest.size r
      if !(List.range n).all fun i => inDevice (r.pa + i) && s.admits r.part (r.pa + i) then
        .next (s.answerPeer r.device [] (some 7))
      else if s.placeBlocked (.mem r.pa) n then .next s
      else
        match kind with
        | .load n =>
          if s.poisoned r.pa n then .next (s.answerPeer r.device [] (some 0x11))
          else .next (s.answerPeer r.device (s.bytes r.pa n) none)
        | .store bs => .next ((s.homeWrite r.pa bs).answerPeer r.device [] none)
        | .atomic op ty x => .next (s.peerAtomic r n { op := op, ty := ty, operand := x.toNat })
        | .cas ty x c =>
          let op : AtomOp := { op := 6, ty := ty, cas := true, operand := x.toNat, comparand := c.toNat % 2 ^ (8 * n) }
          .next (s.peerAtomic r n op)
        | .padd2 ty x =>
          .next (s.post (128 + r.device) (homeOf r.pa) 0 r.part
            (.atomic (.mem r.pa) 4 { op := 0, ty := ty, padd := true, operand := x.toNat } [] 0))
        | .inspect _ _ _ _ => .next s

/-- LINK_FLIT_ERROR: the link sends the flit again; programs see it in timing only. -/
def execLinkFlitError (_link : Nat) (s : State) : Host.Outcome State Fault Refusal := .next s

/-- A request to a peer's window. -/
def ReqKind.remote (k : ReqKind) : Bool :=
  k.extents.any fun (p, _) => match p with
    | .mem pa => isPeer pa
    | .spad _ _ _ => false

/-- A store that is given up leaves its buffer as if it had been acknowledged. -/
def State.dropRemote (s : State) (core : Nat) (st : Store) : State :=
  (s.markApplied core st).logError st.part { core := core, cause := 0x11, kind := 7, addr := st.span.1.address }

/-- LINK_TIMEOUT: LINKTMO expires for a request on the link, or for an inspect that a peer has not answered (R333). -/
def execLinkTimeout (req : Nat) (s : State) : Host.Outcome State Fault Refusal :=
  match s.net.find? fun r => r.id == req && r.kind.remote with
  | some r =>
    let t := { s with net := s.net.filter (·.id != req) }
    match r.kind with
    | .load p _ pend _ _ => .next (t.replyCause r [pend] 0x11 fun _ => p.address)
    | .atomic p _ _ lanes _ => .next (t.replyCause r (lanes.map (·.pend)) 0x11 fun _ => p.address)
    | .store st => .next (t.dropRemote r.core st)
    | _ => .next s
  | none =>
    match mapFind req s.inspects with
    | some x => if x.core.isSome && x.peer.isSome then .next (s.endInspect req x none) else .next s
    | none => .next s

end Sys2Proof.Machine
end

