-- ==== Sys2Proof/Machine/Dispatch.lean ====
section
/-! DEFINITION. The dispatcher: one arm per instruction, each one call of its meaning. -/

namespace Sys2Proof.Machine

def exec (i : Instr) (s : State) : Host.Outcome State Fault Refusal :=
  match i with
  | .iaddCompact f => Sys2Proof.Machine.execIaddCompact f s
  | .isubCompact f => Sys2Proof.Machine.execIsubCompact f s
  | .imulCompact f => Sys2Proof.Machine.execImulCompact f s
  | .andCompact f => Sys2Proof.Machine.execAndCompact f s
  | .orCompact f => Sys2Proof.Machine.execOrCompact f s
  | .xorCompact f => Sys2Proof.Machine.execXorCompact f s
  | .shlCompact f => Sys2Proof.Machine.execShlCompact f s
  | .shrCompact f => Sys2Proof.Machine.execShrCompact f s
  | .sarCompact f => Sys2Proof.Machine.execSarCompact f s
  | .iminCompact f => Sys2Proof.Machine.execIminCompact f s
  | .imaxCompact f => Sys2Proof.Machine.execImaxCompact f s
  | .faddCompact f => Sys2Proof.Machine.execFaddCompact f s
  | .fsubCompact f => Sys2Proof.Machine.execFsubCompact f s
  | .fmulCompact f => Sys2Proof.Machine.execFmulCompact f s
  | .fminCompact f => Sys2Proof.Machine.execFminCompact f s
  | .fmaxCompact f => Sys2Proof.Machine.execFmaxCompact f s
  | .movCompact f => Sys2Proof.Machine.execMovCompact f s
  | .ffmaCompact f => Sys2Proof.Machine.execFfmaCompact f s
  | .imadCompact f => Sys2Proof.Machine.execImadCompact f s
  | .dot4Compact f => Sys2Proof.Machine.execDot4Compact f s
  | .dot8Compact f => Sys2Proof.Machine.execDot8Compact f s
  | .dot2Compact f => Sys2Proof.Machine.execDot2Compact f s
  | .uaddCompact f => Sys2Proof.Machine.execUaddCompact f s
  | .usubCompact f => Sys2Proof.Machine.execUsubCompact f s
  | .umulCompact f => Sys2Proof.Machine.execUmulCompact f s
  | .uandCompact f => Sys2Proof.Machine.execUandCompact f s
  | .uorCompact f => Sys2Proof.Machine.execUorCompact f s
  | .uxorCompact f => Sys2Proof.Machine.execUxorCompact f s
  | .ushlCompact f => Sys2Proof.Machine.execUshlCompact f s
  | .ushrCompact f => Sys2Proof.Machine.execUshrCompact f s
  | .usarCompact f => Sys2Proof.Machine.execUsarCompact f s
  | .uminCompact f => Sys2Proof.Machine.execUminCompact f s
  | .umaxCompact f => Sys2Proof.Machine.execUmaxCompact f s
  | .umovCompact f => Sys2Proof.Machine.execUmovCompact f s
  | .umadCompact f => Sys2Proof.Machine.execUmadCompact f s
  | .iadd f => Sys2Proof.Machine.execIadd f s
  | .isub f => Sys2Proof.Machine.execIsub f s
  | .imul f => Sys2Proof.Machine.execImul f s
  | .imulh f => Sys2Proof.Machine.execImulh f s
  | .imad f => Sys2Proof.Machine.execImad f s
  | .imin f => Sys2Proof.Machine.execImin f s
  | .imax f => Sys2Proof.Machine.execImax f s
  | .iabs f => Sys2Proof.Machine.execIabs f s
  | .ineg f => Sys2Proof.Machine.execIneg f s
  | .icmp f => Sys2Proof.Machine.execIcmp f s
  | .sel f => Sys2Proof.Machine.execSel f s
  | .and f => Sys2Proof.Machine.execAnd f s
  | .or f => Sys2Proof.Machine.execOr f s
  | .xor f => Sys2Proof.Machine.execXor f s
  | .andn f => Sys2Proof.Machine.execAndn f s
  | .not f => Sys2Proof.Machine.execNot f s
  | .shl f => Sys2Proof.Machine.execShl f s
  | .shr f => Sys2Proof.Machine.execShr f s
  | .sar f => Sys2Proof.Machine.execSar f s
  | .rot f => Sys2Proof.Machine.execRot f s
  | .popc f => Sys2Proof.Machine.execPopc f s
  | .clz f => Sys2Proof.Machine.execClz f s
  | .brev f => Sys2Proof.Machine.execBrev f s
  | .bfx f => Sys2Proof.Machine.execBfx f s
  | .bfi f => Sys2Proof.Machine.execBfi f s
  | .fadd f => Sys2Proof.Machine.execFadd f s
  | .fsub f => Sys2Proof.Machine.execFsub f s
  | .fmul f => Sys2Proof.Machine.execFmul f s
  | .ffma f => Sys2Proof.Machine.execFfma f s
  | .fmin f => Sys2Proof.Machine.execFmin f s
  | .fmax f => Sys2Proof.Machine.execFmax f s
  | .fcmp f => Sys2Proof.Machine.execFcmp f s
  | .fclass f => Sys2Proof.Machine.execFclass f s
  | .frcp f => Sys2Proof.Machine.execFrcp f s
  | .frsq f => Sys2Proof.Machine.execFrsq f s
  | .fsqrt f => Sys2Proof.Machine.execFsqrt f s
  | .fexp2 f => Sys2Proof.Machine.execFexp2 f s
  | .flog2 f => Sys2Proof.Machine.execFlog2 f s
  | .fsin f => Sys2Proof.Machine.execFsin f s
  | .fcos f => Sys2Proof.Machine.execFcos f s
  | .fdiv f => Sys2Proof.Machine.execFdiv f s
  | .dot4 f => Sys2Proof.Machine.execDot4 f s
  | .dot8 f => Sys2Proof.Machine.execDot8 f s
  | .dot2 f => Sys2Proof.Machine.execDot2 f s
  | .fscl f => Sys2Proof.Machine.execFscl f s
  | .cvt f => Sys2Proof.Machine.execCvt f s
  | .cvtp f => Sys2Proof.Machine.execCvtp f s
  | .cvtx f => Sys2Proof.Machine.execCvtx f s
  | .movi f => Sys2Proof.Machine.execMovi f s
  | .movh f => Sys2Proof.Machine.execMovh f s
  | .bcast f => Sys2Proof.Machine.execBcast f s
  | .shfl f => Sys2Proof.Machine.execShfl f s
  | .vote f => Sys2Proof.Machine.execVote f s
  | .ballot f => Sys2Proof.Machine.execBallot f s
  | .redux f => Sys2Proof.Machine.execRedux f s
  | .scan f => Sys2Proof.Machine.execScan f s
  | .xset f => Sys2Proof.Machine.execXset f s
  | .xadd f => Sys2Proof.Machine.execXadd f s
  | .movx f => Sys2Proof.Machine.execMovx f s
  | .stx f => Sys2Proof.Machine.execStx f s
  | .plop f => Sys2Proof.Machine.execPlop f s
  | .pmov f => Sys2Proof.Machine.execPmov f s
  | .ld f => Sys2Proof.Machine.execLd f s
  | .st f => Sys2Proof.Machine.execSt f s
  | .pref f => Sys2Proof.Machine.execPref f s
  | .rowld f => Sys2Proof.Machine.execRowld f s
  | .lds f => Sys2Proof.Machine.execLds f s
  | .sts f => Sys2Proof.Machine.execSts f s
  | .atoms f => Sys2Proof.Machine.execAtoms f s
  | .present f => Sys2Proof.Machine.execPresent f s
  | .atom f => Sys2Proof.Machine.execAtom f s
  | .cas f => Sys2Proof.Machine.execCas f s
  | .padd2 f => Sys2Proof.Machine.execPadd2 f s
  | .rowadd f => Sys2Proof.Machine.execRowadd f s
  | .enq f => Sys2Proof.Machine.execEnq f s
  | .deq f => Sys2Proof.Machine.execDeq f s
  | .qtry f => Sys2Proof.Machine.execQtry f s
  | .qlen f => Sys2Proof.Machine.execQlen f s
  | .qopen f => Sys2Proof.Machine.execQopen f s
  | .qdone f => Sys2Proof.Machine.execQdone f s
  | .brx f => Sys2Proof.Machine.execBrx f s
  | .callq f => Sys2Proof.Machine.execCallq f s
  | .ret f => Sys2Proof.Machine.execRet f s
  | .join f => Sys2Proof.Machine.execJoin f s
  | .waitj f => Sys2Proof.Machine.execWaitj f s
  | .exit f => Sys2Proof.Machine.execExit f s
  | .reform f => Sys2Proof.Machine.execReform f s
  | .reorder f => Sys2Proof.Machine.execReorder f s
  | .spawn f => Sys2Proof.Machine.execSpawn f s
  | .migrate f => Sys2Proof.Machine.execMigrate f s
  | .eqpt f => Sys2Proof.Machine.execEqpt f s
  | .region f => Sys2Proof.Machine.execRegion f s
  | .meld f => Sys2Proof.Machine.execMeld f s
  | .endmeld f => Sys2Proof.Machine.execEndmeld f s
  | .mtbl f => Sys2Proof.Machine.execMtbl f s
  | .mma f => Sys2Proof.Machine.execMma f s
  | .mmaq f => Sys2Proof.Machine.execMmaq f s
  | .mmao f => Sys2Proof.Machine.execMmao f s
  | .mmas f => Sys2Proof.Machine.execMmas f s
  | .tslr f => Sys2Proof.Machine.execTslr f s
  | .tslw f => Sys2Proof.Machine.execTslw f s
  | .bshare f => Sys2Proof.Machine.execBshare f s
  | .cpy f => Sys2Proof.Machine.execCpy f s
  | .cpym f => Sys2Proof.Machine.execCpym f s
  | .cpyp f => Sys2Proof.Machine.execCpyp f s
  | .inspect f => Sys2Proof.Machine.execInspect f s
  | .inspectf f => Sys2Proof.Machine.execInspectf f s
  | .ftest f => Sys2Proof.Machine.execFtest f s
  | .fwait f => Sys2Proof.Machine.execFwait f s
  | .fcancel f => Sys2Proof.Machine.execFcancel f s
  | .fpass f => Sys2Proof.Machine.execFpass f s
  | .nop f => Sys2Proof.Machine.execNop f s
  | .wait f => Sys2Proof.Machine.execWait f s
  | .yield f => Sys2Proof.Machine.execYield f s
  | .trap f => Sys2Proof.Machine.execTrap f s
  | .bkpt f => Sys2Proof.Machine.execBkpt f s
  | .rte f => Sys2Proof.Machine.execRte f s
  | .pen f => Sys2Proof.Machine.execPen f s
  | .uadd f => Sys2Proof.Machine.execUadd f s
  | .usub f => Sys2Proof.Machine.execUsub f s
  | .umul f => Sys2Proof.Machine.execUmul f s
  | .umulh f => Sys2Proof.Machine.execUmulh f s
  | .umad f => Sys2Proof.Machine.execUmad f s
  | .umin f => Sys2Proof.Machine.execUmin f s
  | .umax f => Sys2Proof.Machine.execUmax f s
  | .ucmp f => Sys2Proof.Machine.execUcmp f s
  | .usel f => Sys2Proof.Machine.execUsel f s
  | .uand f => Sys2Proof.Machine.execUand f s
  | .uor f => Sys2Proof.Machine.execUor f s
  | .uxor f => Sys2Proof.Machine.execUxor f s
  | .unot f => Sys2Proof.Machine.execUnot f s
  | .ushl f => Sys2Proof.Machine.execUshl f s
  | .ushr f => Sys2Proof.Machine.execUshr f s
  | .usar f => Sys2Proof.Machine.execUsar f s
  | .upopc f => Sys2Proof.Machine.execUpopc f s
  | .uclz f => Sys2Proof.Machine.execUclz f s
  | .umovi f => Sys2Proof.Machine.execUmovi f s
  | .umovh f => Sys2Proof.Machine.execUmovh f s
  | .ursr f => Sys2Proof.Machine.execUrsr f s
  | .uwsr f => Sys2Proof.Machine.execUwsr f s
  | .uplop f => Sys2Proof.Machine.execUplop f s
  | .uread f => Sys2Proof.Machine.execUread f s
  | .aset f => Sys2Proof.Machine.execAset f s
  | .aget f => Sys2Proof.Machine.execAget f s
  | .adv f => Sys2Proof.Machine.execAdv f s
  | .anarrow f => Sys2Proof.Machine.execAnarrow f s
  | .ald f => Sys2Proof.Machine.execAld f s
  | .ldu f => Sys2Proof.Machine.execLdu f s
  | .stu f => Sys2Proof.Machine.execStu f s
  | .icinv f => Sys2Proof.Machine.execIcinv f s
  | .fbar f => Sys2Proof.Machine.execFbar f s
  | .pin f => Sys2Proof.Machine.execPin f s
  | .unpin f => Sys2Proof.Machine.execUnpin f s
  | .odecl f => Sys2Proof.Machine.execOdecl f s
  | .ofree f => Sys2Proof.Machine.execOfree f s
  | .seal f => Sys2Proof.Machine.execSeal f s
  | .unseal f => Sys2Proof.Machine.execUnseal f s
  | .oquery f => Sys2Proof.Machine.execOquery f s
  | .bra f => Sys2Proof.Machine.execBra f s
  | .jmpi f => Sys2Proof.Machine.execJmpi f s
  | .call f => Sys2Proof.Machine.execCall f s
  | .uspawn f => Sys2Proof.Machine.execUspawn f s
  | .gridwait f => Sys2Proof.Machine.execGridwait f s
  | .tld f => Sys2Proof.Machine.execTld f s
  | .tst f => Sys2Proof.Machine.execTst f s
  | .tzero f => Sys2Proof.Machine.execTzero f s
  | .tmov f => Sys2Proof.Machine.execTmov f s
  | .tcvt f => Sys2Proof.Machine.execTcvt f s
  | .talloc f => Sys2Proof.Machine.execTalloc f s
  | .tfree f => Sys2Proof.Machine.execTfree f s
  | .tstat f => Sys2Proof.Machine.execTstat f s
  | .boinit f => Sys2Proof.Machine.execBoinit f s
  | .boarrive f => Sys2Proof.Machine.execBoarrive f s
  | .boexpect f => Sys2Proof.Machine.execBoexpect f s
  | .bowait f => Sys2Proof.Machine.execBowait f s
  | .botest f => Sys2Proof.Machine.execBotest f s
  | .srstat f => Sys2Proof.Machine.execSrstat f s
  | .istat f => Sys2Proof.Machine.execIstat f s
  | .ccount f => Sys2Proof.Machine.execCcount f s
  | .tlbinv f => Sys2Proof.Machine.execTlbinv f s
  | .csave f => Sys2Proof.Machine.execCsave f s
  | .cload f => Sys2Proof.Machine.execCload f s
  | .halt f => Sys2Proof.Machine.execHalt f s
  | .errlog f => Sys2Proof.Machine.execErrlog f s
  | .handlerWaveForm stack part aged => Sys2Proof.Machine.execHandlerWaveForm stack part aged s
  | .bundleFormation core => Sys2Proof.Machine.execBundleFormation core s
  | .binHoist core bin aged => Sys2Proof.Machine.execBinHoist core bin aged s
  | .reorderSort core bin aged => Sys2Proof.Machine.execReorderSort core bin aged s
  | .calleeQueueDrain core queue aged => Sys2Proof.Machine.execCalleeQueueDrain core queue aged s
  | .launchPortWrite port width value => Sys2Proof.Machine.execLaunchPortWrite port width value s
  | .recordResolution queue => Sys2Proof.Machine.execRecordResolution queue s
  | .claim core evict => Sys2Proof.Machine.execClaim core evict s
  | .groupRestore gid core => Sys2Proof.Machine.execGroupRestore gid core s
  | .storeDrainSend core entry combining => Sys2Proof.Machine.execStoreDrainSend core entry combining s
  | .storeArrivalAtHome req => Sys2Proof.Machine.execStoreArrivalAtHome req s
  | .writeThroughAck core entry => Sys2Proof.Machine.execWriteThroughAck core entry s
  | .loadRequestAtHome req => Sys2Proof.Machine.execLoadRequestAtHome req s
  | .sliceReply reply => Sys2Proof.Machine.execSliceReply reply s
  | .atomicRequestAtHome req high => Sys2Proof.Machine.execAtomicRequestAtHome req high s
  | .rowRequestAtHome req => Sys2Proof.Machine.execRowRequestAtHome req s
  | .queueRequestAtSlice req => Sys2Proof.Machine.execQueueRequestAtSlice req s
  | .peerSpadRequest req => Sys2Proof.Machine.execPeerSpadRequest req s
  | .rosterBitRequest core objid slice => Sys2Proof.Machine.execRosterBitRequest core objid slice s
  | .objectLookupFill core objid => Sys2Proof.Machine.execObjectLookupFill core objid s
  | .pageWalk core part va => Sys2Proof.Machine.execPageWalk core part va s
  | .instructionFetch gid va => Sys2Proof.Machine.execInstructionFetch gid va s
  | .copyOwnershipAcquire copy => Sys2Proof.Machine.execCopyOwnershipAcquire copy s
  | .presenceClearArrival copy recv => Sys2Proof.Machine.execPresenceClearArrival copy recv s
  | .copySectorLand copy recv ahead => Sys2Proof.Machine.execCopySectorLand copy recv ahead s
  | .copyResolve copy => Sys2Proof.Machine.execCopyResolve copy s
  | .inspectSnapshot insp => Sys2Proof.Machine.execInspectSnapshot insp s
  | .inspectArrival insp core => Sys2Proof.Machine.execInspectArrival insp core s
  | .inspectComplete insp => Sys2Proof.Machine.execInspectComplete insp s
  | .staleReadSample sample => Sys2Proof.Machine.execStaleReadSample sample s
  | .poisonWriteback part pa => Sys2Proof.Machine.execPoisonWriteback part pa s
  | .bar0IllegalAccess off width isRead => Sys2Proof.Machine.execBar0IllegalAccess off width isRead s
  | .bar2Read off count => Sys2Proof.Machine.execBar2Read off count s
  | .bar2Write off data => Sys2Proof.Machine.execBar2Write off data s
  | .launchQueueControlWrite queue off width value => Sys2Proof.Machine.execLaunchQueueControlWrite queue off width value s
  | .partitionControlWrite part off width value secure => Sys2Proof.Machine.execPartitionControlWrite part off width value secure s
  | .doorbellTlbInvalidate part => Sys2Proof.Machine.execDoorbellTlbInvalidate part s
  | .doorbellIcacheInvalidate part => Sys2Proof.Machine.execDoorbellIcacheInvalidate part s
  | .doorbellTimeSliceOut part => Sys2Proof.Machine.execDoorbellTimeSliceOut part s
  | .doorbellTimeSliceIn part => Sys2Proof.Machine.execDoorbellTimeSliceIn part s
  | .doorbellResumeHalted part => Sys2Proof.Machine.execDoorbellResumeHalted part s
  | .doorbellActionComplete part bit => Sys2Proof.Machine.execDoorbellActionComplete part bit s
  | .qcmdCreate part => Sys2Proof.Machine.execQcmdCreate part s
  | .qcmdReset part => Sys2Proof.Machine.execQcmdReset part s
  | .qcmdDelete part => Sys2Proof.Machine.execQcmdDelete part s
  | .regionTableWrite index off width value secure => Sys2Proof.Machine.execRegionTableWrite index off width value secure s
  | .hinspectDoorbell part seq => Sys2Proof.Machine.execHinspectDoorbell part seq s
  | .hostInspectComplete part addressFault => Sys2Proof.Machine.execHostInspectComplete part addressFault s
  | .debugNext part => Sys2Proof.Machine.execDebugNext part s
  | .dscmdSave part => Sys2Proof.Machine.execDscmdSave part s
  | .dscmdLoad part => Sys2Proof.Machine.execDscmdLoad part s
  | .attestationRequest value => Sys2Proof.Machine.execAttestationRequest value s
  | .attestationReportDone => Sys2Proof.Machine.execAttestationReportDone s
  | .portControlWrite port off width value => Sys2Proof.Machine.execPortControlWrite port off width value s
  | .portEnable port => Sys2Proof.Machine.execPortEnable port s
  | .portDisable port => Sys2Proof.Machine.execPortDisable port s
  | .qpload port context => Sys2Proof.Machine.execQpload port context s
  | .portSendRequest port => Sys2Proof.Machine.execPortSendRequest port s
  | .portRecvPost port => Sys2Proof.Machine.execPortRecvPost port s
  | .bowlineDataFrameRx port frame => Sys2Proof.Machine.execBowlineDataFrameRx port frame s
  | .bowlineAckRx port mac seq => Sys2Proof.Machine.execBowlineAckRx port mac seq s
  | .bowlineNakRx port mac seq => Sys2Proof.Machine.execBowlineNakRx port mac seq s
  | .bowlineResendTimeout port mac => Sys2Proof.Machine.execBowlineResendTimeout port mac s
  | .roceRdmaWriteRx port pkt => Sys2Proof.Machine.execRoceRdmaWriteRx port pkt s
  | .roceRdmaReadRx port pkt => Sys2Proof.Machine.execRoceRdmaReadRx port pkt s
  | .roceSendRx port pkt => Sys2Proof.Machine.execRoceSendRx port pkt s
  | .roceAckRx port context psn => Sys2Proof.Machine.execRoceAckRx port context psn s
  | .roceNakRx port context => Sys2Proof.Machine.execRoceNakRx port context s
  | .roceAckTimeout port context => Sys2Proof.Machine.execRoceAckTimeout port context s
  | .peerRequestArrival req => Sys2Proof.Machine.execPeerRequestArrival req s
  | .linkFlitError link => Sys2Proof.Machine.execLinkFlitError link s
  | .linkTimeout req => Sys2Proof.Machine.execLinkTimeout req s
  | .coldReset repair => Sys2Proof.Machine.execColdReset repair s
  | .functionLevelReset => Sys2Proof.Machine.execFunctionLevelReset s
  | .thermalThrottle stack => Sys2Proof.Machine.execThermalThrottle stack s
  | .coolingShutdown => Sys2Proof.Machine.execCoolingShutdown s
  | .registerWrite off width value => Sys2Proof.Machine.execRegisterWrite off width value s
  | .frameDropped port => Sys2Proof.Machine.execFrameDropped port s
  | .rdmaReadResponseRx port pkt => Sys2Proof.Machine.execRdmaReadResponseRx port pkt s
  | .roceAtomicRequestRx port pkt => Sys2Proof.Machine.execRoceAtomicRequestRx port pkt s

end Sys2Proof.Machine
end

