-- ==== Sys2Proof/Machine/Late.lean ====
section
/-! DEFINITION. Operands that are read after issue (R131): in native mode a later write to such a register may overtake
the read, and a result that was outstanding at issue arrives before it. What an operation has done stands as if it had read
its operands already; a record of them (Late) lets what happens to the registers change it, until they are read. -/

namespace Sys2Proof.Machine

/-! ## What a step did to an operand's registers -/

inductive LateChange where
  | none
  | arrived
  | written
deriving DecidableEq, Repr

/-- A register's state of a lane as an operand sees it: its value, its last writer, its future. -/
def Thread.regState (t : Thread) (q : Nat) : Word × Option Nat × Option FTag :=
  (mapGet 0 t.v q, mapFind q t.vtag, mapFind q t.fut)

/-- An outstanding result came, and nothing else. -/
def State.cameIn (s : State) (before after : Thread) (q : Nat) : Bool :=
  (mapFind q before.vtag).any (fun p => (mapFind p s.pends).isNone) && (mapFind q after.vtag).isNone
    && (mapFind q after.fut).isNone

def Late.change (r : Late) (s : State) (before after : Thread) : LateChange :=
  let moved := r.regs.filter fun q => before.regState q != after.regState q
  if moved.isEmpty then .none else if moved.all (s.cameIn before after) then .arrived else .written

/-- The words of an operand as its lane has them. -/
def Late.now (r : Late) (t : Thread) : List Word := r.regs.map (mapGet 0 t.v)

/-! ## What an operation makes of its operands -/

/-- The bytes of a buffered entry that come from an operand. -/
def Store.repatch (e : Store) (id : Nat) (bs : List Byte) : Store :=
  if e.sent then e
  else { e with bytes := e.owner.foldl (fun m (k, i, j) => if i == id then mapInsert k (bs.getD j 0) m else m) e.bytes }

/-- A product with the registers of one lane as they now are. -/
def Product.repatch (p : Product) (w lane : Nat) (ws : List Word) : Product :=
  let (a, c) := ((p.lanes.find? (·.1 == lane)).map (·.2)).getD ([], [])
  let own := ws.drop (a.length + c.length)
  let part := fun (i : Nat) => (own.drop (i * quarterRun w)).take (quarterRun w)
  { p with
    lanes := p.lanes.map fun x => if x.1 == lane then (lane, ws.take a.length, (ws.drop a.length).take c.length) else x
    quarters := (p.quarters.zip (List.range p.quarters.length)).map fun ((q, r, ls), i) =>
      (q, r, ls.map fun x => if x.1 == lane then (lane, part i) else x) }

/-- A copy that its engine has not begun, with other offsets; it stays as it is where they would not have passed its
checks. -/
def State.recopy (s : State) (g : Group) (id kind : Nat) (src dst : AddrReg) (ws : List Word) : State :=
  match mapFind id s.copies with
  | none => s
  | some c =>
    let off := fun i => ((ws.getD i 0).signExtend 64 : DWord)
    let c' := { c with srcBase := src.pointer + off 0, dstBase := dst.pointer + off 1 }
    let d : CopyDesc :=
      { dim0 := c.dim0, dim1 := c.dim1, dim2 := c.dim2, sstr1 := c.sstr1, sstr2 := c.sstr2, dstr1 := c.dstr1
        dstr2 := c.dstr2, bar := (c.bar.map (BitVec.ofNat 32)).getD 0xFFFFFFFF, mask := 0, strong := c.strong }
    if ws.length < 2 || (s.checkCopy g (.ofCode kind) d src dst c').isSome then s
    else
      let s := { s with copies := mapInsert id c' s.copies }
      let mine := c.receivers.filter fun r => r.cleared && c.dstSpace == 1
      mine.foldl (fun s r =>
        (s.setSpad r.bid r.idx fun x => { x with owed := x.owed.filter (·.2 != id) }).clearLines id c' r) s

/-- What an operation has done, done again with other operands. -/
def State.repatch (s : State) (gid : Nat) (g : Group) (r : Late) (ws : List Word) : State :=
  let bs := leBytes r.size (wordsNat ws)
  match r.use with
  | .counted => s
  | .store =>
    s.setCore g.core fun c => { c with sq := c.sq.map (·.repatch r.id bs), wc := c.wc.map (·.repatch r.id bs) }
  | .spad b i o =>
    s.setSpad b i fun x => { x with data := r.own.foldl (fun m k => mapPut 0 (o + k) (bs.getD k 0) m) x.data }
  | .slice b i n column sel => s.setTile b i n (putSlice column sel ((laneElems g.width r.lane).zip ws))
  | .product num =>
    match g.products.find? (·.num == num) with
    | none => s
    | some p =>
      let p := p.repatch g.width r.lane ws
      (s.setGroup gid fun g => { g with products := g.products.map fun x => if x.num == num then p else x }).setTile p.bid
        p.idx p.tile fun _ => p.tileNow g.width
  | .copy id kind src dst => s.recopy g id kind src dst ws

/-! ## After a step -/

/-- An operand whose register a later instruction has written: it was read before, with the value it held; or it is still
to be read, if the register holds no future; or it was to have the result that was outstanding. -/
inductive LateChoice where
  | read
  | follow
  | owe (pend : Nat)
deriving DecidableEq, Repr

def Late.choices (r : Late) (s : State) (before after : Thread) : List LateChoice :=
  let moved := r.regs.filter fun q => before.regState q != after.regState q
  .read :: (if r.regs.all fun q => (mapFind q after.fut).isNone then [.follow] else [])
    ++ ((moved.filterMap fun q => mapFind q before.vtag).filter s.resultDue).map .owe

/-- An operand's record after a step. -/
def State.lateStep (before s : State) (gid : Nat) (r : Late) : State :=
  match s.group? gid, before.thread? gid r.lane, s.thread? gid r.lane with
  | some g, some b, some t =>
    let close := fun (s : State) => s.closeLate gid (·.id == r.id)
    let begun := match r.use with
      | .copy id _ _ _ => mapFind id before.copies != mapFind id s.copies
      | _ => false
    if begun then close s
    else
      match r.owedBy with
      | some p => if (mapFind p s.pends).isSome then s else close (s.repatch gid g r (r.words.getD (r.now t)))
      | none =>
        match r.change s b t with
        | .none => s
        | .arrived => s.repatch gid g r (r.now t)
        | .written =>
          if r.use = .counted then close s
          else
            let cs := r.choices s b t
            let (k, s) := s.pick cs.length
            match cs.getD k .read with
            | .read => close s
            | .follow => s.repatch gid g r (r.now t)
            | .owe p =>
              s.setGroup gid fun g => { g with late := g.late.map fun x =>
                if x.id == r.id then { x with owedBy := some p, words := some (r.now b) } else x }
  | _, _, _ => s

/-- The records that were there before a step, after it (R131). -/
def State.lateWrites (before s : State) : State :=
  before.groups.foldl (fun s (gid, g) => g.late.foldl (fun s r =>
    match (s.group? gid).bind fun g => g.late.find? (·.id == r.id) with
    | some r => State.lateStep before s gid r
    | none => s) s) s

/-- A bundle that is held back issues nothing until its groups' operands have been read, except those that wait for a
result. -/
def State.readHeld (s : State) (b : Bundle) : State :=
  b.frags.foldl (fun s (gid, _) =>
    match s.group? gid with
    | none => s
    | some g => s.closeLate gid fun r => !s.lateWaits g r) s

/-- After the turn of a bundle for an instruction. -/
def State.endTurn (before s : State) (i : Instr) : State :=
  match s.cur with
  | none => s
  | some (_, b) =>
    before.afterTurn (if b.frags.all fun f => State.stands before s f.1 then s.readHeld b else s) i

/-- Threads that wait at a barrier object whose PHASE differs from what they gave are woken, whatever wrote it (R212). -/
def State.wakeBarriers (s : State) : State :=
  let on := s.groups.flatMap fun (_, g) => g.threads.filterMap fun t => match t.st.parkedOn with
    | some (.barrier b i o _) => some (b, i, o)
    | _ => none
  on.foldl (fun s (b, i, o) => s.wakeBarrier b i o) s

/-- Lanes that wait for a ring slot take one that is free, whatever freed it (R282). -/
def State.serveRings (s : State) : State :=
  (mapKeys s.parts).foldl (fun s p =>
    if (s.part p).ringWait.isEmpty || (s.part p).nextSlot.isNone then s else s.serveRing p) s

/-- What follows every step: operands read after issue meet what it wrote, its waiters are woken, state-port
commands that waited end, and the threads that it made READY note it (R95, R131, R212, R282, R345). -/
def State.afterStep (before s : State) : State := ((before.lateWrites s).wakeBarriers.serveRings.servePorts).noteReady

end Sys2Proof.Machine
end

