-- ==== Sys2Proof/Machine/Schedule.lean ====
section
/-! DEFINITION. Which move the machine makes next when its schedule names none: one order among the many that the manual
allows (notes/assumptions/13). Everything that the device owes is done first; then the cores' front ends take turns;
bins, queues and collectors that are not full are taken as aged when nothing else can move. -/

namespace Sys2Proof.Machine

/-- An event of the opcode table with what it needs to know: its meaning. -/
abbrev Event := State → Host.Outcome State Fault Refusal

/-- The events that serve a request. -/
def Req.events (r : Req) : List Event :=
  match r.kind with
  | .load (.mem _) _ _ _ _ => [execLoadRequestAtHome r.id]
  | .load (.spad _ _ _) _ _ _ _ => [execPeerSpadRequest r.id]
  | .fill _ _ => [execLoadRequestAtHome r.id]
  | .store st => [match st.at_ with
    | .mem _ => execStoreArrivalAtHome r.id
    | .spad _ _ _ => execPeerSpadRequest r.id]
  | .atomic (.mem _) _ _ _ _ => [execAtomicRequestAtHome r.id false, execAtomicRequestAtHome r.id true]
  | .atomic (.spad _ _ _) _ _ _ _ => [execPeerSpadRequest r.id]
  | .row _ _ _ _ _ _ => [execRowRequestAtHome r.id]
  | .queue _ _ _ => [execQueueRequestAtSlice r.id]
  | .arrive _ _ _ => [execPeerSpadRequest r.id]
  | .sample _ _ => [execStaleReadSample r.id]
  | .inspect _ => []

/-- What the memory system owes: replies, requests, drains and acknowledgements. -/
def State.memoryMoves (s : State) : List Event :=
  s.replies.map (fun r => execSliceReply r.id) ++ s.net.flatMap Req.events
    ++ s.cores.flatMap fun (c, k) =>
      (List.range (k.wt.length + k.wc.length)).map (execWriteThroughAck c ·)
        ++ (List.range k.sq.length).map (execStoreDrainSend c · false) ++ (List.range k.wc.length).map (execStoreDrainSend c · true)

/-- What the engines owe: copies and inspects. -/
def State.engineMoves (s : State) : List Event :=
  (s.copies.flatMap fun (id, c) =>
    let rs := List.range c.receivers.length
    [execCopyOwnershipAcquire id] ++ rs.map (execPresenceClearArrival id ·) ++ rs.map (execCopySectorLand id · false)
      ++ [execCopyResolve id])
  ++ s.inspects.flatMap fun (id, x) =>
    [execInspectSnapshot id] ++ x.targets.map (execInspectArrival id ·) ++ [execInspectComplete id]

/-- What the launch unit, the ports and the partitions' mailboxes owe. -/
def State.deviceMoves (s : State) : List Event :=
  (mapKeys s.lqueues).map (execRecordResolution ·)
    ++ s.parts.flatMap (fun (p, x) =>
      [execDoorbellTlbInvalidate p, execDoorbellIcacheInvalidate p, execDoorbellTimeSliceOut p, execDoorbellTimeSliceIn p,
        execDoorbellResumeHalted p, execHostInspectComplete p false]
      ++ (List.range 5).map (execDoorbellActionComplete p ·) ++ x.collect.map fun (k, _) => execHandlerWaveForm k p false)
    ++ (mapKeys s.ports).flatMap (fun n => [execPortSendRequest n, execPortRecvPost n])
    ++ (if s.attesting then [execAttestationReportDone] else [])

/-- A core may have something to claim. -/
def State.wanted (s : State) : Bool :=
  (s.launches.any fun (_, r) => (r.status == 2 || r.status == 3) && !r.claimed)
    || s.groups.any fun (_, g) => g.residence == .migrating

def State.placeMoves (s : State) (evict : Bool) : List Event :=
  ((s.groups.filter fun (_, g) => g.residence == .evicted).map fun (gid, g) => execGroupRestore gid g.core)
    ++ if s.wanted then (List.range 128).map (execClaim · evict) else []

/-- A front end has fragments to gather, or nothing but stalled bundles while others wait. -/
def State.gathers (s : State) (c : Nat) : Bool :=
  let k := s.core c
  let live := s.fragments c
  let wakes := (s.residents c).any fun (gid, _) => s.wakeGroup gid != s
  let loose := live.any fun x => !((k.active ++ k.pending).any (·.holds x))
  wakes || (loose && k.pending.length < 64)
    || ((k.active.length < 8 || k.active.any (·.stalled)) && k.pending.any s.eligible)

def State.formMoves (s : State) : List Event :=
  let cores := (s.groups.map fun (_, g) => g.core).foldl (fun acc c => setAdd c acc) (mapKeys s.cores)
  (cores.filter s.gathers).map (execBundleFormation ·)

/-- The bins and queues of the cores. -/
def State.gatherMoves (s : State) (aged : Bool) : List Event :=
  s.cores.flatMap fun (c, k) =>
    (List.range k.bins.length).map (execBinHoist c · aged) ++ (List.range k.bins.length).map (execReorderSort c · aged)
      ++ (List.range k.callees.length).map (execCalleeQueueDrain c · aged)

def State.agedMoves (s : State) : List Event :=
  s.gatherMoves true ++ s.parts.flatMap (fun (p, x) => x.collect.map fun (k, _) => execHandlerWaveForm k p true)
    ++ s.placeMoves true

/-- The first event that changes something. -/
def State.firstOf (s : State) : List Event → Option State
  | [] => none
  | e :: rest =>
    match e s with
    | .next t => if t ≠ s then some t else s.firstOf rest
    | _ => s.firstOf rest

/-- The next core in turn that has an active bundle: the bundle at the head of its queue. -/
def State.nextTurn (s : State) : Option (Nat × Nat) :=
  let cores := mapKeys s.cores
  let n := s.turn % (cores.length + 1)
  (cores.drop n ++ cores.take n).findSome? fun c => if (s.core c).active.isEmpty then none else some (c, 0)

/-- Every active bundle has met a stall. -/
def State.allStalled (s : State) : Bool := s.cores.all fun (_, k) => k.active.all (·.stalled)

/-- What the machine does when its schedule names nothing: an event, a turn of a core's front end, or nothing. -/
inductive Auto where
  | event (s : State)
  | turn (core index : Nat)
  | rest

/-- What the device owes, aged bins, queues and collectors, full ones, and bundles to form, in this order; those that
have aged once in 64 turns. -/
def State.firstDue (s : State) : Option State :=
  (s.firstOf s.memoryMoves).orElse fun _ => (s.firstOf s.engineMoves).orElse fun _ =>
    (s.firstOf s.deviceMoves).orElse fun _ => (s.firstOf (s.placeMoves false)).orElse fun _ =>
      ((if s.turn % 64 == 63 then s.firstOf s.agedMoves else none).map fun t => { t with turn := t.turn + 1 }).orElse
        fun _ => (s.firstOf (s.gatherMoves false)).orElse fun _ => s.firstOf s.formMoves

/-- What has waited long enough because every bundle is stalled. -/
def State.firstAged (s : State) : Option State := if s.allStalled then s.firstOf s.agedMoves else none

def State.auto (s : State) : Auto :=
  match s.firstDue with
  | some t => .event t
  | none =>
    match s.firstAged, s.nextTurn with
    | some t, _ => .event { t with turn := t.turn + 1 }
    | none, some (c, k) => .turn c k
    | none, none => .rest

end Sys2Proof.Machine
end

