-- ==== Sys2Proof/Machine/Step.lean ====
section
/-! DEFINITION. One step of the device: the bundle at issue executes its instruction, or the next move of the schedule
is made (R94, R103, and the events of the opcode table). -/

namespace Sys2Proof.Machine

/-- What follows an instruction: the turn of its bundle is over. -/
def closeTurn (before : State) (i : Instr) : Host.Outcome State Fault Refusal → Host.Outcome State Fault Refusal
  | .next s => .next (before.endTurn s i)
  | .fault f => .fault f
  | .refused r => .refused r

/-- A bundle's turn at the front end. -/
def issueTurn (c : Nat) (b : Bundle) (s : State) : Host.Outcome State Fault Refusal :=
  match s.front c b with
  | .idle t => .next { (State.noteStall s c b t).turnOver c b with cur := none }
  | .run i s => closeTurn s i (exec i s)

/-- A move of the schedule. A device that has stopped for want of cooling makes none but those it answers (R349). -/
def makeMove (m : Move) (s : State) : Host.Outcome State Fault Refusal :=
  match m with
  | .event i => if s.stopped && !i.whileStopped then .next s else exec i s
  | .issue c k =>
    match (s.core c).active[k]?, s.stopped with
    | some b, false => issueTurn c b s
    | _, _ => .next s

/-- What follows every step. -/
def closeStep (before : State) : Host.Outcome State Fault Refusal → Host.Outcome State Fault Refusal
  | .next s => .next (before.afterStep s)
  | .fault f => .fault f
  | .refused r => .refused r

/-- The machine's next move: the bundle at issue executes, else the schedule's next move is made, else the default one. -/
def move (s : State) : Host.Outcome State Fault Refusal :=
  match s.cur, s.stopped with
  | some (c, b), false => issueTurn c b s
  | _, stopped =>
    match s.schedule with
    | m :: rest => makeMove m { s with schedule := rest }
    | [] =>
      if stopped then .next s
      else
        match s.auto with
        | .event t => .next t
        | .turn c k => makeMove (.issue c k) { s with turn := s.turn + 1 }
        | .rest => .next s

/-- One step. -/
def step (s : State) : Host.Outcome State Fault Refusal := closeStep s (move s)

/-- The state with a group at issue whose fetched code is the instruction of the given bits (notes/assumptions/14): it
stands for a launch of that program. -/
def State.withFetchWord (s : State) (_nbits w : Nat) : State := s.launched w

end Sys2Proof.Machine
end

