-- ==== Sys2Proof/Safety.lean ====
section
/-! DEFINITION. What counts as a safe run, and the terms that claims are stated in: the state at issue, and what a step
leaves as it was. -/

namespace Sys2Proof.Machine

/-- A step that goes on. -/
def State.goesOn (s : State) : Prop := ∃ t, step s = .next t

/-- The memory of the device is in its canonical form. -/
def State.memOk (s : State) : Prop := Memory.wf s.mem = true

/-- A state from which the next k steps all go on and keep memory canonical. -/
def State.safeFor : Nat → State → Prop
  | 0, s => s.memOk
  | k + 1, s => s.memOk ∧ ∃ t, step s = .next t ∧ t.safeFor k

/-! ## The state at issue -/

/-- A thread none of whose registers has a result outstanding, a future, or a latency still to run. -/
structure Thread.Settled (t : Thread) : Prop where
  vtag : t.vtag = []
  ptag : t.ptag = []
  fut : t.fut = []
  vhaz : t.vhaz = []
  phaz : t.phaz = []
  xhaz : t.xhaz = []

/-- The bundle at issue is one fragment of the group `g`, its threads settled, and no residue mismatch is to come. -/
structure Calm (s : State) (gid fid : Nat) (g : Group) : Prop where
  atIssue : ∃ c b, s.cur = some (c, b) ∧ b.frags = [(gid, fid)]
  group : s.group? gid = some g
  lanes : g.fragLanes fid ≠ []
  settled : ∀ l ∈ g.fragLanes fid, ∀ t, g.thread? l = some t → t.Settled
  sound : s.residue = 0

/-- The same, but that registers may hold handles with their future tags (R214). -/
structure Futures (s : State) (gid fid : Nat) (g : Group) : Prop where
  atIssue : ∃ c b, s.cur = some (c, b) ∧ b.frags = [(gid, fid)]
  group : s.group? gid = some g
  lanes : g.fragLanes fid ≠ []
  settled : ∀ l ∈ g.fragLanes fid, ∀ t, g.thread? l = some t → ({ t with fut := [] } : Thread).Settled
  sound : s.residue = 0

/-! ## What a step leaves as it was -/

/-- Everything but groups and cores, every core's contents, every other group. -/
structure OnlyGroup (s t : State) (gid : Nat) : Prop where
  rest : t = { s with groups := t.groups, cores := t.cores }
  cores : ∀ k, t.core k = s.core k
  others : ∀ k, k ≠ gid → t.group? k = s.group? k

/-- Everything but the cores' random generators. -/
structure OnlyDraws (s t : State) : Prop where
  rest : t = { s with cores := t.cores }
  cores : ∀ k, t.core k = { s.core k with rng := (t.core k).rng }

/-- A thread, and a group, but for what is noted of operands that are read after issue (R131, R132): the records, and the
counts of stores, copies and tile operations whose operands are unread. -/
def Thread.asRead (t : Thread) : Thread := { t with stores := 0, copies := 0, tiles := 0 }
def Group.asRead (g : Group) : Group := { g with late := [], products := [], threads := g.threads.map Thread.asRead }

/-- Every group is as it was, but for what is noted of operands that are read after issue. -/
def SameGroups (s m : State) : Prop := ∀ k, (m.group? k).map Group.asRead = (s.group? k).map Group.asRead

/-- Operands that were to be read after issue may have been read, and nothing else has changed. -/
def OnlyRead (s m : State) : Prop := m = { s with groups := m.groups } ∧ SameGroups s m

/-- No operand of a fragment's lanes is still to be read. -/
def Unread (g : Group) (fid : Nat) : Prop := ∀ r ∈ g.late, r.lane ∉ g.fragLanes fid

/-- Two groups that differ in their threads and fragments at most. -/
def OnlyThreads (g h : Group) : Prop := h = { g with threads := h.threads, frags := h.frags }

/-- The lanes of a list after an update of each, the others as they were. -/
def LanesAfter (ls : List Nat) (f : Nat → Thread → Thread) (g h : Group) : Prop :=
  ∀ l, h.thread? l = if l ∈ ls then (g.thread? l).map (f l) else g.thread? l

/-- Everything but one group, the places of its fragments in bundles, and the model's own order of events. -/
structure OnlyPlaces (s t : State) (gid : Nat) : Prop where
  rest : t = { s with groups := t.groups, cores := t.cores, seq := t.seq }
  cores : ∀ k, t.core k = { s.core k with active := (t.core k).active, pending := (t.core k).pending }
  others : ∀ k, k ≠ gid → t.group? k = s.group? k

/-- The instruction completes from `m`, in which the group is `g1`: each lane of the fragment goes where `move` says,
whatever the fragments are numbered (R110), and the group's other lanes and everything else are as they were. -/
def Leaves (i : Instr) (s m : State) (gid fid : Nat) (move : Nat → Thread → Thread) (g1 : Group) : Prop :=
  ∃ (t : State) (h : Group), exec i s = .next t ∧ OnlyPlaces m t gid ∧ t.group? gid = some h ∧
    h = { g1 with threads := h.threads, frags := h.frags, parkedAt := h.parkedAt } ∧
    (∀ l, l ∉ g1.fragLanes fid → h.thread? l = g1.thread? l) ∧
    ∀ l ∈ g1.fragLanes fid, ∀ th, g1.thread? l = some th → ∃ f, h.thread? l = some { move l th with frag := f }

/-! ## Operands as a settled thread holds them (R40, R41) -/

/-- Every operand's registers are within the allotment. -/
def Within (g : Group) (t : Thread) (ops : List (Nat × Nat)) : Prop :=
  ∀ op ∈ ops, ∃ rs, physRun g t op.1 op.2 = .ok rs

/-- The physical registers of an operand. -/
def regsOf (g : Group) (t : Thread) (op : Nat × Nat) : List Nat :=
  match physRun g t op.1 op.2 with
  | .ok rs => rs
  | .error _ => []

/-- The number that an operand's registers spell. -/
def valueOf (g : Group) (t : Thread) (op : Nat × Nat) : Nat := wordsNat ((regsOf g t op).map (mapGet 0 t.v ·))

/-! ## What an instruction of the lanes does -/

/-- The lanes of a fragment that execute an instruction of a predicate, in lane order, with their threads. -/
def executing (g : Group) (fid : Nat) (unpred : Bool) (pred : BitVec 4) : List (Nat × Thread) :=
  ((g.fragLanes fid).filterMap fun l => (g.thread? l).map fun t => (l, t)).filter fun (_, t) =>
    laneActive g unpred pred t

/-- A thread after register writes: the registers written hold what was written, it stands at `pc`, and nothing else of
it changed but what is noted of latencies. -/
structure Wrote (t t' : Thread) (w : Writes) (pc : DWord) : Prop where
  v : t'.v = w.v.foldl (fun m x => mapPut 0 x.1 x.2 m) t.v
  p : t'.p = w.p.foldl (fun p x => setBit8 p x.1 x.2) t.p
  x : t'.x = w.x.foldl (fun m x => mapPut 0 x.1 x.2 m) t.x
  rest : t' = { t with v := t'.v, p := t'.p, x := t'.x, pc := pc, vhaz := t'.vhaz, phaz := t'.phaz, xhaz := t'.xhaz }

/-- The instruction completes: every lane of the fragment that executes it has its writes, every lane stands at the next
instruction, and nothing else changes but the generators that the draws are taken from. -/
def LaneEffect (i : Instr) (s : State) (gid fid : Nat) (g : Group) (len : DWord) (unpred : Bool) (pred : BitVec 4)
    (draws : Nat) (w : List Word → Nat → Thread → Writes) : Prop :=
  ∃ (us : Nat → List Word) (m t : State) (h : Group),
    exec i s = .next t ∧ (∀ x ∈ executing g fid unpred pred, (us x.1).length = draws) ∧
    OnlyDraws s m ∧ (draws = 0 → m = s) ∧ OnlyGroup m t gid ∧ t.group? gid = some h ∧ OnlyThreads g h ∧
    (∀ l, l ∉ g.fragLanes fid → h.thread? l = g.thread? l) ∧
    ∀ l ∈ g.fragLanes fid, ∀ th, g.thread? l = some th → ∃ th', h.thread? l = some th' ∧
      Wrote th th' (if laneActive g unpred pred th then w (us l) l th else {}) (th.pc + len)

/-- From every calm state in which the group may issue the instruction and its executing lanes are ready, it completes
with the writes given. -/
def LaneCompletes (i : Instr) (len : DWord) (unpred : Bool) (pred : BitVec 4) (runs : List (Nat × Nat)) (draws : Nat)
    (ready : Group → Thread → Prop) (w : Group → List (Nat × Thread) → List Word → Nat → Thread → Writes) : Prop :=
  ∀ s gid fid g, Calm s gid fid g → laneGuard g unpred pred runs false = none →
    (∀ l t, (l, t) ∈ executing g fid unpred pred → ready g t) →
    LaneEffect i s gid fid g len unpred pred draws (w g (executing g fid unpred pred))

/-- An instruction that computes a vector result from vector sources. -/
def VecCompletes (i : Instr) (len : DWord) (unpred : Bool) (pred : BitVec 4) (runs : List (Nat × Nat)) (draws : Nat)
    (dst : Nat × Nat) (srcs : List (Nat × Nat)) (f : List Word → List Nat → Nat) : Prop :=
  LaneCompletes i len unpred pred runs draws (fun g t => Within g t (dst :: srcs)) fun g _ us _ t =>
    writeRegs (regsOf g t dst) (f us (srcs.map (valueOf g t)))

/-! ## Accesses (R167, R220, R221) -/

/-- The translations cached for a core and a partition are the page tables'. -/
def Coherent (s : State) (core part : Nat) : Prop :=
  ∀ e, e ∈ (s.core core).tlb ∨ e ∈ mapGet [] s.stlb (core / 32) → e.part = part → s.walk part (65536 * e.page) = some e

/-- The device with no translation cached. -/
def State.uncached (s : State) : State :=
  { s with stlb := [], cores := s.cores.map fun (k, c) => (k, { c with tlb := [] }) }

/-- The access passes every check, as the page tables have it, and reaches `pa`. -/
def Granted (s : State) (g : Group) (a : AddrReg) (acc : Access) (ea : DWord) (n pa : Nat) : Prop :=
  s.checkReg g a [0, 3] acc ea n = none ∧ (s.uncached.checkAccess g a acc ea n n).1 = .ok pa

/-- The address registers of a memory form as a settled lane has them: the register and the effective address. -/
def memAddr (g : Group) (t : Thread) (areg : Nat) (idx : BitVec 10) (scale : Nat) (off : DWord) : AddrReg × DWord :=
  let a := mapGet {} g.a areg
  (a, effAddr a (if idx = noIndex then 0 else BitVec.ofNat 32 (valueOf g t (single idx))) scale off)

/-- The registers a memory form names are within the allotment and its address register is there. -/
def MemReady (g : Group) (t : Thread) (regs : List (Nat × Nat)) (areg : Nat) (idx : BitVec 10) : Prop :=
  mapFind areg g.atag = none ∧ Within g t (if idx = noIndex then regs else regs ++ [single idx])

/-- Only caches of translations have changed, and free choices been taken. -/
structure OnlyTlb (s t : State) : Prop where
  rest : t = { s with cores := t.cores, stlb := t.stlb, freeCtr := t.freeCtr }
  cores : ∀ k, t.core k = { s.core k with tlb := (t.core k).tlb }

/-- The instruction completes and the group, now `g1`, changes in its threads at most, as every other group in nothing:
an executing lane becomes what `upd` says and goes on, a region opening there or not, another lane goes on; `after` says
what else holds. Groups are as this says in what `seen` shows of them. -/
def LanesGoBut (seen : Group → Group) (i : Instr) (s : State) (gid fid : Nat) (g : Group) (pred : BitVec 4) (g1 : Group)
    (upd : Nat → Thread → Thread) (opens : Nat → Thread → Bool) (after : State → Prop) : Prop :=
  ∃ (t : State) (h0 h : Group), exec i s = .next t ∧
    (∀ k, k ≠ gid → (t.group? k).map seen = (s.group? k).map seen) ∧ t.group? gid = some h0 ∧ seen h0 = seen h ∧
    OnlyThreads g1 h ∧ (∀ l, l ∉ g.fragLanes fid → h.thread? l = g.thread? l) ∧
    (∀ l ∈ g.fragLanes fid, ∀ th, g.thread? l = some th → h.thread? l = some
      (if laneActive g false pred th then (upd l th).goTo (th.pc + 8) (opens l th) else th.goTo (th.pc + 8) false)) ∧
    after t

/-- With nothing left out; and but for what is noted of operands that are read after issue. -/
def LanesGo := LanesGoBut id
def LanesStore := LanesGoBut Group.asRead

/-- An operation in flight of one lane. -/
def Asked (t : State) (id gid l : Nat) (th : Thread) (dest : Dest) (data : List (Option Byte)) (ea : DWord) : Prop :=
  ∃ p, mapFind id t.pends = some p ∧ p.id = id ∧ p.gid = gid ∧ p.lanes = [l] ∧ p.dest = dest ∧ p.data = data ∧
    p.ea = ea ∧ p.pc = th.pc ∧ p.cause = none ∧ p.wait = 1

/-- Each executing lane waits, as `await` says, for an operation of its own, of which `asks` holds afterwards; memory is
as it was, and groups but for what is noted of operands that are read after issue. -/
def LanesAwait (i : Instr) (s : State) (gid fid : Nat) (g : Group) (pred : BitVec 4) (opens : Bool)
    (await : Nat → Nat → Thread → Thread) (asks : State → Nat → Nat → Thread → Prop) : Prop :=
  ∃ ids : Nat → Nat, LanesStore i s gid fid g pred g (fun l th => await (ids l) l th) (fun _ _ => opens) fun t =>
    t.mem = s.mem ∧ ∀ l th, (l, th) ∈ executing g fid false pred → asks t (ids l) l th ∧
      ∀ k th', (k, th') ∈ executing g fid false pred → ids k = ids l → k = l

/-! ## What an instruction of the uniform set does -/

/-- The number in a uniform register or pair. -/
def uniValue (g : Group) (op : Nat × Bool) : Nat :=
  (mapGet 0 g.s op.1).toNat + (if op.2 then 2 ^ 32 * (mapGet 0 g.s (op.1 + 1)).toNat else 0)

/-- No result for a uniform or address register of the group is outstanding. -/
structure Group.Quiet (g : Group) : Prop where
  stag : g.stag = []
  atag : g.atag = []

/-- The instruction completes: the group has become `g1`, its fragment stands at the next instruction, a region opening
there or not, and nothing changed since `m`. -/
def GroupEffect (i : Instr) (s m : State) (gid fid : Nat) (len : DWord) (opens : Bool) (g1 : Group) : Prop :=
  ∃ (t : State) (h : Group), exec i s = .next t ∧ OnlyGroup m t gid ∧ t.group? gid = some h ∧ OnlyThreads g1 h ∧
    LanesAfter (g1.fragLanes fid) (fun _ th => th.goTo (th.pc + len) opens) g1 h

/-- The same, but for what is noted of operands that are read after issue. -/
def GroupStores (i : Instr) (s m : State) (gid fid : Nat) (len : DWord) (opens : Bool) (g : Group) : Prop :=
  ∃ g1, g1.asRead = g.asRead ∧ GroupEffect i s m gid fid len opens g1

/-- The instruction completes as `Leaves` says, but for what is noted of operands that are read after issue. -/
def LeavesRead (i : Instr) (s m : State) (gid fid : Nat) (move : Nat → Thread → Thread) (g : Group) : Prop :=
  ∃ g1, g1.asRead = g.asRead ∧ Leaves i s m gid fid move g1

/-- From every calm state whose group is ready, a uniform-set instruction completes: the group is updated where its
predicate holds, and as it was where not. -/
def UniCompletes (i : Instr) (len : DWord) (pred : BitVec 4) (ready : Group → Prop) (upd : Group → Group) : Prop :=
  ∀ s gid fid g, Calm s gid fid g → (uniActive g pred = true → ready g) →
    GroupEffect i s s gid fid len false (if uniActive g pred then upd g else g)

end Sys2Proof.Machine
end

