-- ==== Sys2Proof/Certificates/Slice0/Obligations.lean ====
section
/-! DEFINITION. What is claimed of the model, for the provers: encodings, the results and frames of the instructions, the
events of the device, and what every step keeps. -/

namespace Sys2Proof.Machine

/-! ## Forms of results -/

/-- A result of one, two or three operands. -/
def one (f : Nat → Nat) : List Word → List Nat → Nat := fun _ xs => f (xs.getD 0 0)
def two (f : Nat → Nat → Nat) : List Word → List Nat → Nat := fun _ xs => f (xs.getD 0 0) (xs.getD 1 0)
def three (f : Nat → Nat → Nat → Nat) : List Word → List Nat → Nat :=
  fun _ xs => f (xs.getD 0 0) (xs.getD 1 0) (xs.getD 2 0)

/-- A register form of one, two or three sources, and a compact form, whose third source is its destination. -/
def RegCompletes (i : Instr) (f : RForm) (runs : List (Nat × Nat)) (dst : Nat × Nat) (srcs : List (Nat × Nat))
    (r : List Word → List Nat → Nat) : Prop := VecCompletes i 8 false f.pred runs 0 dst srcs r

def CompactCompletes (i : Instr) (f : CForm) (r : Nat → Nat → Nat) : Prop :=
  VecCompletes i 4 true 7 [] 0 (reg8 f.d) [reg8 f.a, reg8 f.b] (two r)

def CompactCompletes3 (i : Instr) (f : CForm) (r : Nat → Nat → Nat → Nat) : Prop :=
  VecCompletes i 4 true 7 [] 0 (reg8 f.d) [reg8 f.a, reg8 f.b, reg8 f.d] (three r)

/-- A register form that writes one predicate from vector operands. -/
def PredCompletes (i : Instr) (f : RForm) (runs : List (Nat × Nat)) (srcs : List (Nat × Nat)) (r : List Nat → Bool) :
    Prop :=
  LaneCompletes i 8 false f.pred runs 0 (fun g t => Within g t srcs) fun g _ _ _ t =>
    { p := [(f.d.toNat, r (srcs.map (valueOf g t)))] }

end Sys2Proof.Machine

open Sys2Proof Sys2Proof.Machine

/-! ## The lane-set arithmetic -/

/-- R140, with R67 and R68 for the narrowing: every executing lane's destination holds the exact element results,
narrowed; a lane that does not execute keeps its registers; every lane goes on by 8, and nothing else changes.
R141: ICMP and FCMP write their predicate as the comparison says; FCLASS tests the bit of its operand's class
(R145). -/
def Obligations.IntegerResults : Prop :=
  (∀ f : RForm,
  let dab := [typed f.ty f.d, typed f.ty f.a, typed f.ty f.b]
  let d := typed f.ty f.d
  let ab := [typed f.ty f.a, typed f.ty f.b]
  let ty := f.ty.toNat
  RegCompletes (.iadd f) f dab d ab (two (intElems2 ty f.mx (· + ·))) ∧
  RegCompletes (.isub f) f dab d ab (two (intElems2 ty f.mx (· - ·))) ∧
  RegCompletes (.imul f) f dab d ab (two (intElems2 ty f.mx (· * ·))) ∧
  RegCompletes (.imulh f) f dab d ab (two (intElems2 ty false fun a b => a * b / (2 ^ tyWidth ty : Nat))) ∧
  RegCompletes (.imin f) f dab d ab (two (intElems2 ty false min)) ∧
  RegCompletes (.imax f) f dab d ab (two (intElems2 ty false max)) ∧
  RegCompletes (.iabs f) f [typed f.ty f.d, typed f.ty f.a] d [typed f.ty f.a]
    (one (intElems1 ty f.mx fun a => (a.natAbs : Int))) ∧
  RegCompletes (.ineg f) f [typed f.ty f.d, typed f.ty f.a] d [typed f.ty f.a] (one (intElems1 ty f.mx fun a => -a)) ∧
  RegCompletes (.imad f) f (typed f.ty f.c :: dab) d (ab ++ [typed f.ty f.c])
    (three (intElems3 ty f.mx fun a b c => a * b + c))) ∧
  (∀ f : RForm,
  let ty := f.ty.toNat
  let int := toInt (tySigned ty) (tyWidth ty)
  PredCompletes (.icmp f) f [typed f.ty f.a, typed f.ty f.b] [typed f.ty f.a, typed f.ty f.b]
    (fun xs => intCmp f.c.toNat (int (xs.getD 0 0)) (int (xs.getD 1 0))) ∧
  PredCompletes (.fcmp f) f [] [single f.a, single f.b]
    (fun xs => floatCmp f.c.toNat (floatElem ty 0 (xs.getD 0 0)) (floatElem ty 0 (xs.getD 1 0))) ∧
  PredCompletes (.fclass f) f [] [single f.a]
    (fun xs => f.c.toNat.testBit (floatClass (tyFmt ty) (elem (tyWidth ty) 0 (xs.getD 0 0)))))

/-- R142 and R143: bit operations, shifts, counts and fields; SEL chooses by its predicate (R140). -/
def Obligations.BitResults : Prop := ∀ f : RForm,
  let ty := f.ty.toNat
  let d := typed f.ty f.d
  let a := typed f.ty f.a
  let bits := fun op : Word → Word → Word => two fun x y => (op (BitVec.ofNat 32 x) (BitVec.ofNat 32 y)).toNat
  let shift := fun op : Nat → Nat → Nat → Nat =>
    two fun x n => mapElems ty fun i => op (tyWidth ty) (elem (tyWidth ty) i x) (elem (tyWidth ty) i n)
  let unary := fun op : Nat → Nat → Nat => one fun x => mapElems ty fun i => op (tyWidth ty) (elem (tyWidth ty) i x)
  RegCompletes (.and f) f [] (single f.d) [single f.a, single f.b] (bits (· &&& ·)) ∧
  RegCompletes (.or f) f [] (single f.d) [single f.a, single f.b] (bits (· ||| ·)) ∧
  RegCompletes (.xor f) f [] (single f.d) [single f.a, single f.b] (bits (· ^^^ ·)) ∧
  RegCompletes (.andn f) f [] (single f.d) [single f.a, single f.b] (bits fun x y => x &&& ~~~y) ∧
  RegCompletes (.not f) f [] (single f.d) [single f.a] (one fun x => (~~~(BitVec.ofNat 32 x)).toNat) ∧
  RegCompletes (.shl f) f [d, a] d [a, single f.b] (shift shlElem) ∧
  RegCompletes (.shr f) f [d, a] d [a, single f.b] (shift shrElem) ∧
  RegCompletes (.sar f) f [d, a] d [a, single f.b] (shift sarElem) ∧
  RegCompletes (.rot f) f [d, a] d [a, single f.b] (shift rotElem) ∧
  RegCompletes (.popc f) f [a] (single f.d) [a] (unary popElem) ∧
  RegCompletes (.clz f) f [a] (single f.d) [a] (unary clzElem) ∧
  RegCompletes (.brev f) f [d, a] d [a] (unary brevElem) ∧
  RegCompletes (.bfx f) f [d, a] d [a, single f.c] (two (bitField (tyWidth ty) f.mx)) ∧
  RegCompletes (.bfi f) f [d, a, typed f.ty f.b] d [a, typed f.ty f.b, single f.c] (three (bitInsert (tyWidth ty))) ∧
  LaneCompletes (.sel f) 8 false f.pred [] 0 (fun g t => Within g t [single f.d, single f.a, single f.b])
    fun g _ _ _ t => writeRegs (regsOf g t (single f.d))
      (if getBit8 t.p f.c.toNat then valueOf g t (single f.a) else valueOf g t (single f.b))

/-- R34: a compact form has the result of its I32, N32 or F32 full form, in every lane of the fragment, and goes on
by 4. -/
def Obligations.CompactResults : Prop := ∀ f : CForm,
  let bits := fun (op : Word → Word → Word) (x y : Nat) => (op (BitVec.ofNat 32 x) (BitVec.ofNat 32 y)).toNat
  CompactCompletes (.iaddCompact f) f (intElems2 0 false (· + ·)) ∧
  CompactCompletes (.isubCompact f) f (intElems2 0 false (· - ·)) ∧
  CompactCompletes (.imulCompact f) f (intElems2 0 false (· * ·)) ∧
  CompactCompletes (.iminCompact f) f (intElems2 0 false min) ∧
  CompactCompletes (.imaxCompact f) f (intElems2 0 false max) ∧
  CompactCompletes3 (.imadCompact f) f (intElems3 0 false fun a b c => a * b + c) ∧
  CompactCompletes (.andCompact f) f (bits (· &&& ·)) ∧
  CompactCompletes (.orCompact f) f (bits (· ||| ·)) ∧
  CompactCompletes (.xorCompact f) f (bits (· ^^^ ·)) ∧
  CompactCompletes (.shlCompact f) f (shiftElems 0 shlElem) ∧
  CompactCompletes (.shrCompact f) f (shiftElems 0 shrElem) ∧
  CompactCompletes (.sarCompact f) f (shiftElems 0 sarElem) ∧
  VecCompletes (.movCompact f) 4 true 7 [] 0 (reg8 f.d) [reg8 f.a] (one id) ∧
  CompactCompletes (.faddCompact f) f (floatElems2 8 0 [] fvAdd) ∧
  CompactCompletes (.fsubCompact f) f (floatElems2 8 0 [] fvSub) ∧
  CompactCompletes (.fmulCompact f) f (floatElems2 8 0 [] fvMul) ∧
  CompactCompletes (.fminCompact f) f (pickElems 8 false) ∧
  CompactCompletes (.fmaxCompact f) f (pickElems 8 true) ∧
  CompactCompletes3 (.ffmaCompact f) f (ffmaElems 8 false) ∧
  CompactCompletes3 (.dot4Compact f) f (dotInt 6 false) ∧
  CompactCompletes3 (.dot8Compact f) f (dotInt 16 false) ∧
  CompactCompletes3 (.dot2Compact f) f dotBf16

/-- R144 with R75 and R76: sums, differences, products and quotients rounded once, under SR with one draw for each
element of each lane; FFMA rounded once (R78); FMIN and FMAX as R72 says. R146: FRCP and FSQRT rounded once from
the exact value; FRSQ, FEXP2, FLOG2, FSIN and FCOS as one function of the operand, whose values the manual bounds
and does not state (notes/assumptions/3). R148: DOT4, DOT8 and DOT2 add the element products to C; FSCL scales by a
power of two. -/
def Obligations.FloatResults : Prop :=
  ((∀ f : RForm,
  let ty := f.ty.toNat
  let code := f.c.toNat
  let draws := if code = 5 then tyElems ty else 0
  let ab := [single f.a, single f.b]
  let rounded := fun (op : Bool → FV → FV → FV) (us : List Word) (xs : List Nat) =>
    floatElems2 ty code us op (xs.getD 0 0) (xs.getD 1 0)
  VecCompletes (.fadd f) 8 false f.pred [] draws (single f.d) ab (rounded fun rd a b => FV.sum rd [a, b]) ∧
  VecCompletes (.fsub f) 8 false f.pred [] draws (single f.d) ab (rounded fun rd a b => FV.sum rd [a, b.neg]) ∧
  VecCompletes (.fmul f) 8 false f.pred [] draws (single f.d) ab (rounded fun _ a b => FV.mul a b) ∧
  VecCompletes (.fdiv f) 8 false f.pred [] draws (single f.d) ab (rounded fun _ a b => FV.div a b) ∧
  RegCompletes (.ffma f) f [] (single f.d) (ab ++ [single f.c]) (three (ffmaElems ty f.mx)) ∧
  RegCompletes (.fmin f) f [] (single f.d) ab (two (pickElems ty false)) ∧
  RegCompletes (.fmax f) f [] (single f.d) ab (two (pickElems ty true))) ∧
  (∀ f : RForm,
  let ty := f.ty.toNat
  let special := fun (i : Instr) (r : Nat → Nat) => RegCompletes i f [] (single f.d) [single f.a] (one r)
  special (.frcp f) (roundedFn ty (FV.div .one)) ∧ special (.fsqrt f) (roundedFn ty FV.sqrt) ∧
  special (.frsq f) (viaF32 ty frsq32) ∧ special (.fexp2 f) (viaF32 ty fexp2_32) ∧
  special (.flog2 f) (viaF32 ty flog2_32) ∧ special (.fsin f) (viaF32 ty fsin32) ∧ special (.fcos f) (viaF32 ty fcos32))) ∧
  (∀ f : RForm,
  let abc := [single f.a, single f.b, single f.c]
  RegCompletes (.dot4 f) f [] (single f.d) abc (three (dotInt (dotTy 0 6 f.ty.toNat) f.mx)) ∧
  RegCompletes (.dot8 f) f [] (single f.d) abc (three (dotInt (dotTy 0 16 f.ty.toNat) f.mx)) ∧
  RegCompletes (.dot2 f) f [] (single f.d) abc (three dotBf16) ∧
  RegCompletes (.fscl f) f [] (single f.d) [single f.a, single f.b] (two (scaleTo f.ty.toNat)))

/-- R82 to R84: CVT converts one element, CVTP a packed run, CVTX a packed run under a block scale; the source type is
C[7:3], the rounding code C[2:0], and SR draws once for each element. -/
def Obligations.ConversionResults : Prop := ∀ f : RForm,
  let dt := f.ty.toNat
  let st := f.c.toNat / 8
  let rnd := f.c.toNat % 8
  let n := packedCount st dt
  let sr := fun k => if rnd = 5 then k else 0
  let pd := (f.d.toNat, n / tyElems dt)
  let ps := (f.a.toNat, n / tyElems st)
  VecCompletes (.cvt f) 8 false f.pred [scalarRun dt f.d, scalarRun st f.a] (sr 1) (scalarRun dt f.d) [scalarRun st f.a]
    (fun us xs => conv st dt (Rnd.ofCode rnd (us.getD 0 0)) f.mx (elem (tyWidth st) 0 (xs.getD 0 0))) ∧
  VecCompletes (.cvtp f) 8 false f.pred [pd, ps] (sr n) pd [ps]
    (fun us xs => packedElems st dt us rnd (fun mode v => convTo (isIntTy st) dt mode f.mx v) (xs.getD 0 0)) ∧
  VecCompletes (.cvtx f) 8 false f.pred [pd, ps] (sr n) pd [ps, single f.b]
    (fun us xs => packedElems st dt us rnd
      (fun mode v => convTo false dt mode f.mx (scaled st (xs.getD 1 0 % 256) v)) (xs.getD 0 0))

/-! ## Lanes, indices and predicates -/

/-- R151 to R153: a lane of P receives the value of the lane it names, its own (0 under C16) where that lane is not of
P; VOTE and BALLOT over P; REDUX and SCAN over the tree of R77. -/
def Obligations.CrossLaneResults : Prop := ∀ f : RForm,
  let d := single f.d
  let a := single f.a
  let td := typed f.ty f.d
  let ta := typed f.ty f.a
  let given := fun (g : Group) (op : Nat × Nat) (act : List (Nat × Thread)) => act.map fun x => (x.1, valueOf g x.2 op)
  let op := reduceOp f.ty.toNat f.c.toNat
  LaneCompletes (.bcast f) 8 false f.pred [] 0
    (fun g t => Within g t [d, a] ∧ mapFind f.b.toNat g.stag = none)
    (fun g act _ _ t => writeRegs (regsOf g t d)
      (received g (given g a act) (some ((mapGet 0 g.s f.b.toNat).toNat % g.width)) (valueOf g t a))) ∧
  LaneCompletes (.shfl f) 8 false f.pred [] 0 (fun g t => Within g t [d, a, single f.b])
    (fun g act _ l t => writeRegs (regsOf g t d)
      (received g (given g a act) (shuffleLane g f.c.toNat l (valueOf g t (single f.b))) (valueOf g t a))) ∧
  LaneCompletes (.vote f) 8 false f.pred [] 0 (fun _ _ => True)
    (fun _ act _ _ _ => { p := [(f.d.toNat, voteOf f.c.toNat (act.map fun x => getBit8 x.2.p f.a.toNat))] }) ∧
  LaneCompletes (.redux f) 8 false f.pred [td, ta] 0 (fun g t => Within g t [td, ta])
    (fun g act _ _ t => writeRegs (regsOf g t td)
      ((treeNode op (offerAt (given g ta act)) g.width.log2 0).getD (valueOf g t ta))) ∧
  LaneCompletes (.scan f) 8 false f.pred [td, ta] 0 (fun g t => Within g t [td, ta])
    (fun g act _ l t => writeRegs (regsOf g t td)
      ((treePrefix op (offerAt (given g ta act)) g.width.log2 0 (if f.mx then l else l + 1) none).getD
        (reduceIdentity f.ty.toNat f.c.toNat))) ∧
  ∀ s gid fid g, Calm s gid fid g →
    let n := ballotRun g.width
    laneGuard g false f.pred [(f.d.toNat, n)] false = none →
    (∀ l t, (l, t) ∈ executing g fid false f.pred → Within g t [(f.d.toNat, n)]) →
    LaneEffect (.ballot f) s gid fid g 8 false f.pred 0 fun _ _ t => writeRegs (regsOf g t (f.d.toNat, n))
      (maskOf (((executing g fid false f.pred).filter fun x => getBit8 x.2.p f.a.toNat).map (·.1))).toNat

/-- R149: MOVI writes the sign-extended immediate, MOVH the upper half; R137, R138: PLOP takes the bit of its truth
table that its two predicates select, PMOV moves p0 to p6 out of a register or, with bit 7 set, into one; R293: PEN
reads the origin's pennant, 0 outside a handler lane. R135 and R136: XSET and XADD write index registers; MOVX
reads and STX writes the register an index register points at, which is within the allotment and within the window. -/
def Obligations.MoveResults : Prop :=
  ((∀ f : I16Form,
    VecCompletes (.movi f) 8 false f.pred [] 0 (single f.d) [] (fun _ _ => (f.imm.signExtend 32).toNat) ∧
    VecCompletes (.movh f) 8 false f.pred [] 0 (single f.d) [single f.d]
      (one fun x => f.imm.toNat * 2 ^ 16 + x % 2 ^ 16)) ∧
  ∀ f : RForm,
    LaneCompletes (.plop f) 8 false f.pred [] 0 (fun _ _ => True) (fun _ _ _ _ t =>
      { p := [(f.d.toNat, f.c.toNat.testBit
        ((if getBit8 t.p f.a.toNat then 2 else 0) + (if getBit8 t.p f.b.toNat then 1 else 0)))] }) ∧
    (f.c = 0 → LaneCompletes (.pmov f) 8 false f.pred [] 0 (fun g t => Within g t [single f.d]) fun g _ _ _ t =>
      { v := (regsOf g t (single f.d)).map fun r =>
          (r, BitVec.ofNat 32 (0x80 + ((List.range 7).map fun k => if getBit8 t.p k then 2 ^ k else 0).sum)) }) ∧
    (f.c ≠ 0 → LaneCompletes (.pmov f) 8 false f.pred [] 0 (fun g t => Within g t [single f.a]) fun g _ _ _ t =>
      { p := (List.range 7).map fun k => (k, (valueOf g t (single f.a)).testBit k) }) ∧
    LaneCompletes (.pen f) 8 false f.pred [] 0 (fun g t => Within g t [single f.d]) fun g _ _ _ t =>
      { v := (regsOf g t (single f.d)).map fun r => (r, if g.handler && t.origin.isSome then t.pennant else 0) }) ∧
  ((∀ f : RForm, LaneCompletes (.xset f) 8 false f.pred [] 0 (fun g t => Within g t [single f.a]) fun g _ _ _ t =>
    { x := [(f.d.toNat, BitVec.ofNat 32 (valueOf g t (single f.a) % 2 ^ 30))] }) ∧
  ∀ f : I16Form,
    let base := fun (t : Thread) (k : Nat) => ((indexBase (mapGet 0 t.x k) : Int) + indexAt (mapGet 0 t.x k) + f.imm.toInt)
    let inside := fun (g : Group) (t : Thread) (k : Nat) =>
      0 ≤ (indexAt (mapGet 0 t.x k) : Int) + f.imm.toInt ∧
      (indexAt (mapGet 0 t.x k) : Int) + f.imm.toInt < indexCount (mapGet 0 t.x k) ∧ base t k < g.vregs
    LaneCompletes (.xadd f) 8 false f.pred [] 0 (fun _ _ => True) (fun _ _ _ _ t =>
      let x := (mapGet 0 t.x f.d.toNat).toNat
      { x := [(f.d.toNat, BitVec.ofNat 32 (x / 1024 * 1024 + (((x % 1024 : Nat) + f.imm.toInt) % 1024).toNat))] }) ∧
    LaneCompletes (.movx f) 8 false f.pred [] 0
      (fun g t => Within g t [single f.d] ∧ inside g t f.a.toNat)
      (fun g _ _ _ t => { v := (regsOf g t (single f.d)).map fun r => (r, mapGet 0 t.v (base t f.a.toNat).toNat) }) ∧
    LaneCompletes (.stx f) 8 false f.pred [] 0
      (fun g t => Within g t [single f.a] ∧ inside g t f.d.toNat)
      (fun g _ _ _ t =>
        { v := (regsOf g t (single f.a)).map fun r => ((base t f.d.toNat).toNat, mapGet 0 t.v r) }))

/-! ## The uniform set -/

namespace Sys2Proof.Machine

/-- A uniform register form that computes a register or pair. -/
def UniCalc (i : Instr) (len : DWord) (pred : BitVec 4) (d : Nat) (wide : Bool) (srcs : List (Nat × Bool))
    (r : List Nat → Nat) : Prop :=
  UniCompletes i len pred Group.Quiet fun g => g.putSWide wide d (r (srcs.map (uniValue g)))

def UniCompactCompletes (i : Instr) (f : CForm) (r : Nat → Nat → Nat) : Prop :=
  UniCalc i 4 7 f.d.toNat false [(f.a.toNat, false), (f.b.toNat, false)] fun xs => r (xs.getD 0 0) (xs.getD 1 0)

end Sys2Proof.Machine

/-- R158 and R159: the uniform arithmetic has the results of the lane set's (R140, R143) in the group's s registers,
UCMP in its q predicates; a group that does not execute keeps its registers; the fragment goes on by 8. R34: a
compact uniform form has the result of its 32-bit full form, unpredicated, and goes on by 4. -/
def Obligations.UniformResults : Prop :=
  (∀ f : RForm,
  let w := wideType f.ty
  let ty := f.ty.toNat
  let d := f.d.toNat
  let ab := [(f.a.toNat, w), (f.b.toNat, w)]
  let n := [(f.a.toNat, false), (f.b.toNat, false)]
  let r2 := fun (r : Nat → Nat → Nat) (xs : List Nat) => r (xs.getD 0 0) (xs.getD 1 0)
  let int := toInt (tySigned ty) (tyWidth ty)
  let bits := fun op : Word → Word → Word => r2 fun x y => (op (BitVec.ofNat 32 x) (BitVec.ofNat 32 y)).toNat
  let shift := fun op : Nat → Nat → Nat → Nat => r2 (shiftElems ty op)
  UniCalc (.uadd f) 8 f.pred d w ab (r2 (intElems2 ty f.mx (· + ·))) ∧
  UniCalc (.usub f) 8 f.pred d w ab (r2 (intElems2 ty f.mx (· - ·))) ∧
  UniCalc (.umul f) 8 f.pred d w ab (r2 (intElems2 ty f.mx (· * ·))) ∧
  UniCalc (.umulh f) 8 f.pred d w ab (r2 (intElems2 ty false fun a b => a * b / (2 ^ tyWidth ty : Nat))) ∧
  UniCalc (.umin f) 8 f.pred d w ab (r2 (intElems2 ty false min)) ∧
  UniCalc (.umax f) 8 f.pred d w ab (r2 (intElems2 ty false max)) ∧
  UniCalc (.umad f) 8 f.pred d w (ab ++ [(f.c.toNat, w)])
    (fun xs => intElems3 ty f.mx (fun a b c => a * b + c) (xs.getD 0 0) (xs.getD 1 0) (xs.getD 2 0)) ∧
  UniCompletes (.ucmp f) 8 f.pred Group.Quiet (fun g =>
    g.putQ d (intCmp f.c.toNat (int (uniValue g (f.a.toNat, w))) (int (uniValue g (f.b.toNat, w))))) ∧
  UniCompletes (.usel f) 8 f.pred Group.Quiet (fun g =>
    g.putS d (mapGet 0 g.s (if getBit8 g.q f.c.toNat then f.a.toNat else f.b.toNat))) ∧
  UniCalc (.uand f) 8 f.pred d false n (bits (· &&& ·)) ∧
  UniCalc (.uor f) 8 f.pred d false n (bits (· ||| ·)) ∧
  UniCalc (.uxor f) 8 f.pred d false n (bits (· ^^^ ·)) ∧
  UniCompletes (.unot f) 8 f.pred Group.Quiet (fun g => g.putS d (~~~(mapGet 0 g.s f.a.toNat))) ∧
  UniCalc (.ushl f) 8 f.pred d w [(f.a.toNat, w), (f.b.toNat, false)] (shift shlElem) ∧
  UniCalc (.ushr f) 8 f.pred d w [(f.a.toNat, w), (f.b.toNat, false)] (shift shrElem) ∧
  UniCalc (.usar f) 8 f.pred d w [(f.a.toNat, w), (f.b.toNat, false)] (shift sarElem) ∧
  UniCalc (.upopc f) 8 f.pred d false [(f.a.toNat, w)] (fun xs => bitElems ty popElem (xs.getD 0 0)) ∧
  UniCalc (.uclz f) 8 f.pred d false [(f.a.toNat, w)] (fun xs => bitElems ty clzElem (xs.getD 0 0))) ∧
  (∀ f : CForm,
  let bits := fun (op : Word → Word → Word) (x y : Nat) => (op (BitVec.ofNat 32 x) (BitVec.ofNat 32 y)).toNat
  UniCompactCompletes (.uaddCompact f) f (intElems2 0 false (· + ·)) ∧
  UniCompactCompletes (.usubCompact f) f (intElems2 0 false (· - ·)) ∧
  UniCompactCompletes (.umulCompact f) f (intElems2 0 false (· * ·)) ∧
  UniCompactCompletes (.uminCompact f) f (intElems2 0 false min) ∧
  UniCompactCompletes (.umaxCompact f) f (intElems2 0 false max) ∧
  UniCompactCompletes (.uandCompact f) f (bits (· &&& ·)) ∧
  UniCompactCompletes (.uorCompact f) f (bits (· ||| ·)) ∧
  UniCompactCompletes (.uxorCompact f) f (bits (· ^^^ ·)) ∧
  UniCompactCompletes (.ushlCompact f) f (shiftElems 0 shlElem) ∧
  UniCompactCompletes (.ushrCompact f) f (shiftElems 0 shrElem) ∧
  UniCompactCompletes (.usarCompact f) f (shiftElems 0 sarElem) ∧
  UniCompletes (.umovCompact f) 4 7 Group.Quiet (fun g => g.putS f.d.toNat (mapGet 0 g.s f.a.toNat)) ∧
  UniCalc (.umadCompact f) 4 7 f.d.toNat false [(f.a.toNat, false), (f.b.toNat, false), (f.d.toNat, false)]
    (fun xs => intElems3 0 false (fun a b c => a * b + c) (xs.getD 0 0) (xs.getD 1 0) (xs.getD 2 0)))

/-- R160 to R163: uniform moves and predicates; UREAD reads a lane's register (R163); URSR reads a special register
into an s register, sr.lane and sr.thread into a register of every lane; UWSR seeds every generator of the core
(R76); CCOUNT reads the core's cycle counter, which has run on by an amount nothing here fixes
(notes/assumptions/5). R168 to R170: ASET and AGET reach the fields of an address register, ATTR without its
reserved bits; ADV moves the pointer where it stays in the range; ANARROW only narrows. R170: what ANARROW leaves
lies within what there was: the range only shrinks and no permission is added. -/
def Obligations.UniformMoves : Prop :=
  (((∀ f : I16Form,
    UniCompletes (.umovi f) 8 f.pred (fun _ => True) (fun g => g.putS f.d.toNat (f.imm.signExtend 32)) ∧
    UniCompletes (.umovh f) 8 f.pred Group.Quiet (fun g =>
      g.putS f.d.toNat (f.imm ++ (mapGet 0 g.s f.d.toNat).extractLsb' 0 16)) ∧
    (1 < f.imm.toNat → ∀ s gid fid g, Calm s gid fid g →
      GroupEffect (.ursr f) s s gid fid 8 false
        (if uniActive g f.pred then g.putS f.d.toNat (s.special g f.imm.toNat) else g)) ∧
    (f.imm.toNat ≤ 1 → ∀ s gid fid g, Calm s gid fid g → uniActive g f.pred = true → f.d.toNat < g.vregs →
      LaneEffect (.ursr f) s gid fid g 8 true 7 0 fun _ l _ =>
        { v := [(f.d.toNat, BitVec.ofNat 32 (if f.imm.toNat = 0 then l else g.index * g.width + l))] }) ∧
    (∀ s gid fid g, Calm s gid fid g → g.Quiet → uniActive g f.pred = true →
      GroupEffect (.uwsr f) s
        (s.setCore g.core fun c =>
          { c with rng := (List.range (s.lanes g.part g.core)).map fun l => (l, srSeed (mapGet 0 g.s f.a.toNat) l) })
        gid fid 8 false g)) ∧
  ∀ f : RForm,
    UniCompletes (.uplop f) 8 f.pred (fun _ => True) (fun g => g.putQ f.d.toNat (f.c.toNat.testBit
      ((if getBit8 g.q f.a.toNat then 2 else 0) + (if getBit8 g.q f.b.toNat then 1 else 0)))) ∧
    (∀ s gid fid g, Calm s gid fid g → g.Quiet → uniActive g f.pred = true → f.a.toNat < g.vregs →
      let l := (mapGet 0 g.s f.b.toNat).toNat % g.width
      GroupEffect (.uread f) s s gid fid 8 false (g.putS f.d.toNat
        (if l ∈ g.fragLanes fid then ((g.thread? l).map fun t => mapGet 0 t.v f.a.toNat).getD 0 else 0))) ∧
    (∀ s gid fid g, Calm s gid fid g → uniActive g f.pred = true → ∃ n,
      GroupEffect (.ccount f) s
        ({ s with freeCtr := s.freeCtr + 1 }.setCore g.core fun c => { c with cycle := n }) gid fid 8 false
        (g.putSWide true f.d.toNat n.toNat))) ∧
  (∀ f : RForm,
  let pair := fun g : Group => BitVec.ofNat 64 (uniValue g (f.a.toNat, true))
  let reg := fun g : Group => mapGet {} g.a f.d.toNat
  UniCompletes (.aset f) 8 f.pred Group.Quiet (fun g => g.putA f.d.toNat ((reg g).setField f.c.toNat (pair g))) ∧
  UniCompletes (.aget f) 8 f.pred Group.Quiet (fun g =>
    g.putSWide true f.d.toNat ((mapGet {} g.a f.a.toNat).field f.c.toNat).toNat) ∧
  UniCompletes (.adv f) 8 f.pred
    (fun g => g.Quiet ∧
      let p := (reg g).pointer + (mapGet 0 g.s f.a.toNat).signExtend 64
      (reg g).base.toNat ≤ p.toNat ∧ p.toNat < (reg g).base.toNat + (reg g).limit.toNat)
    (fun g => g.putA f.d.toNat
      { reg g with pointer := (reg g).pointer + (mapGet 0 g.s f.a.toNat).signExtend 64 }) ∧
  UniCompletes (.anarrow f) 8 f.pred
    (fun g => g.Quiet ∧ ((reg g).narrowed f.c.toNat (pair g)).isSome = true)
    (fun g => g.putA f.d.toNat (((reg g).narrowed f.c.toNat (pair g)).getD {})))) ∧
  (∀ (r q : AddrReg) (k : Nat) (v : DWord),
  r.base.toNat + r.limit.toNat < 2 ^ 64 → r.narrowed k v = some q →
    r.base.toNat ≤ q.base.toNat ∧ q.base.toNat + q.limit.toNat ≤ r.base.toNat + r.limit.toNat ∧
    ∀ b < 3, q.attr.getLsbD b = true → r.attr.getLsbD b = true)

/-! ## Control flow -/

namespace Sys2Proof.Machine

/-- A lane that goes on to the next full instruction. -/
def Thread.onward (t : Thread) (opens : Bool := false) : Thread := t.goTo (t.pc + 8) opens

/-- The lanes that execute an instruction of a predicate. -/
def execLanes (g : Group) (fid : Nat) (pred : BitVec 4) : List Nat := (executing g fid false pred).map (·.1)

/-- The group may issue a lane-set instruction that no open region permits. -/
def mayBranch (g : Group) (pred : BitVec 4) : Prop := laneGuard g false pred [] true = none

/-- Threads as they enter a bin or a callee queue: each with the moment of its arrival (R96, R118). -/
def filed (s : State) (gid : Nat) (ls : List Nat) : List Entry := ls.map fun l => { who := (gid, l), since := s.seq }

/-- Two sets of rejoin masks that differ in mask k at most, which is then `m`. -/
def MaskBecomes (j j' : SMap JoinMask) (k : Nat) (m : JoinMask) : Prop :=
  mapGet {} j' k = m ∧ ∀ n, n ≠ k → mapGet {} j' n = mapGet {} j n

end Sys2Proof.Machine

/-- R114: JOIN adds its lanes to a mask's members. WAITJ on an empty mask goes on; else its lanes arrive and park, and
once every member has arrived the mask is empty and nobody is parked on it. R119: lanes that call one target
together file into its callee queue, pushed and parked there; where the queue or the set of queues is full they
call directly. -/
def Obligations.RejoinResults : Prop :=
  (∀ (f : RForm) s gid fid g, Calm s gid fid g → mayBranch g f.pred →
  let k := f.d.toNat
  let m := mapGet {} g.j k
  let ls := execLanes g fid f.pred
  let arrived := m.arrived ||| maskOf ls
  (∃ j, MaskBecomes g.j j k { m with members := m.members ||| maskOf ls } ∧
    Leaves (.join f) s s gid fid (fun _ t => t.onward) { g with j := j }) ∧
  (m = {} → Leaves (.waitj f) s s gid fid (fun _ t => t.onward (laneActive g false f.pred t)) g) ∧
  (m.members &&& ~~~arrived ≠ 0 → ∃ j, MaskBecomes g.j j k { m with arrived := arrived } ∧
    Leaves (.waitj f) s s gid fid (fun _ t =>
      if laneActive g false f.pred t then { t.onward true with st := .parked (.join k) } else t.onward) { g with j := j }) ∧
  (m.members ≠ 0 → m.members &&& ~~~arrived = 0 → ∃ t h, exec (.waitj f) s = .next t ∧ t.group? gid = some h ∧
    t.mem = s.mem ∧ mapGet {} h.j k = {} ∧
    ∀ l th, h.thread? l = some th → th.st.parkedOn ≠ some (.join k) ∧ ∃ st fr, some th = (g.thread? l).map fun x =>
      { (if l ∈ g.fragLanes fid then x.onward (laneActive g false f.pred x) else x) with st := st, frag := fr })) ∧
  (∀ (f : RForm) s gid fid g target, Calm s gid fid g →
  laneGuard g false f.pred [(f.a.toNat, 2)] true = none →
  executing g fid false f.pred ≠ [] → alignedFor g.enc target = true →
  (∀ l t, (l, t) ∈ executing g fid false f.pred → Within g t [(f.a.toNat, 2)] ∧ t.rstk.length < 32 ∧
    BitVec.ofNat 64 (valueOf g t (f.a.toNat, 2)) = target) →
  let pushed := fun (t : Thread) => { t.goTo target true with rstk := (t.pc + 8) :: t.rstk }
  match (s.core g.core).fileCallee g.bid target (filed s gid (execLanes g fid f.pred)) with
  | none => Leaves (.callq f) s s gid fid (fun _ t => if laneActive g false f.pred t then pushed t else t.onward) g
  | some c => Leaves (.callq f) s (s.setCore g.core fun _ => c) gid fid (fun _ t =>
      if laneActive g false f.pred t then { pushed t with st := .parked (.callee g.core target.toNat) } else t.onward) g)

/-- R38, R112, R117: BRX takes the lanes it executes in to its target and the others on; BRA, JMPI and CALL take the
fragment as a whole; CALL pushes the next address and RET pops one. Nothing else changes. R102: once the group's
stores are home and its lanes' results are there EXIT ends its lanes; the group goes with its last. -/
def Obligations.BranchResults : Prop :=
  ((∀ (f : I16Form) s gid fid g, Calm s gid fid g → mayBranch g f.pred →
    Leaves (.brx f) s s gid fid (fun _ t =>
      if laneActive g false f.pred t then t.goTo (branchTo g.enc t.pc (f.imm.signExtend 64)) false else t.onward) g) ∧
  (∀ (f : I24Form) s gid fid g, Calm s gid fid g → g.region = false →
    let target := branchTo g.enc (g.pcOf (g.fragLanes fid)) (f.imm.signExtend 64)
    Leaves (.bra f) s s gid fid (fun _ t =>
      if uniActive g (f.d.setWidth 4) then t.goTo target false else t.onward) g ∧
    ((∀ l ∈ g.fragLanes fid, ∀ t, g.thread? l = some t → t.rstk.length < 32) →
      Leaves (.call f) s s gid fid (fun _ t => { t.goTo target true with rstk := (t.pc + 8) :: t.rstk }) g)) ∧
  (∀ (f : RForm) s gid fid g, Calm s gid fid g → g.region = false → g.Quiet →
    let target := BitVec.ofNat 64 (uniValue g (f.a.toNat, true))
    alignedFor g.enc target = true →
    Leaves (.jmpi f) s s gid fid (fun _ t => if uniActive g f.pred then t.goTo target false else t.onward) g) ∧
  ∀ (f : RForm) s gid fid g, Calm s gid fid g → mayBranch g f.pred →
    (∀ l t, (l, t) ∈ executing g fid false f.pred → t.rstk ≠ []) →
    Leaves (.ret f) s s gid fid (fun _ t =>
      if laneActive g false f.pred t then { t.goTo (t.rstk.headD 0) true with rstk := t.rstk.tail } else t.onward) g) ∧
  (∀ (f : RForm) s gid fid g, Calm s gid fid g →
  laneGuard g false f.pred [] false = none → s.drained g.core gid = true →
  s.quiet gid (execLanes g fid f.pred) = true → g.handler = false → ∃ t, exec (.exit f) s = .next t ∧
    (∀ l ∈ execLanes g fid f.pred, ∀ h, t.group? gid = some h → (h.thread? l).map (·.st) = some .exited) ∧
    ((∀ l ∈ g.live, l ∈ execLanes g fid f.pred) → t.group? gid = none))

/-- R123, R124: MTBL loads the rename table from 32 uniform registers or 128 bytes; MELD gives every lane of the whole
group its path and opens the region; ENDMELD closes it and clears the paths; REGION opens a region of replay only
(R287). R97, R98: REFORM files its lanes into the bin of the next instruction, REORDER a whole fragment into a sort
bin with keys and live mask; where the bin has no room, or for REORDER a rejoin mask has members, they go on. -/
def Obligations.MeldAndBinResults : Prop :=
  (∀ (f : RForm) s gid fid g, Calm s gid fid g →
  (laneGuard g true f.pred [] true = none → f.c = 0 → g.Quiet →
    Leaves (.mtbl f) s s gid fid (fun _ t => t.onward true)
      { g with meld := some (meldTable (((uniRun f.a.toNat 32).map fun k => mapGet 0 g.s k).flatMap
          fun x => leBytes 4 x.toNat)) }) ∧
  (laneGuard g true f.pred [] true = none → f.c ≠ 0 → g.Quiet →
    let a := mapGet {} g.a f.a.toNat
    ∀ pa s1 bs s2, s.checkReg g a [0, 3] .read a.pointer 128 = none →
      s.checkAccess g a .read a.pointer 128 128 = (.ok pa, s1) →
      s1.readNow gid g .weak (.mem pa) 128 = some (.ok bs, s2) → s2.group? gid = some g →
      Leaves (.mtbl f) s s2 gid fid (fun _ t => t.onward true) { g with meld := some (meldTable bs) }) ∧
  (g.region = false → g.meld.isSome = true → (g.fragLanes fid).length = g.live.length →
    (f.mx = true → ∀ l ∈ g.fragLanes fid, ∀ t, g.thread? l = some t → Within g t [single f.a]) →
    Leaves (.meld f) s s gid fid (fun _ t => { t.onward true with path :=
        if f.mx then (BitVec.ofNat 2 (valueOf g t (single f.a))) else if getBit8 t.p f.a.toNat then 0 else 1 })
      { g with region := true, holds := [] }) ∧
  (g.region = true → Leaves (.endmeld f) s s gid fid (fun _ t => t.onward true)
    { g with region := false, holds := [], threads := g.threads.map fun t => { t with path := 0 } }) ∧
  (g.region = false → Leaves (.endmeld f) s s gid fid (fun _ t => t.onward true) g) ∧
  Leaves (.region f) s s gid fid (fun _ t => t.onward true) g) ∧
  (∀ (f : RForm) s gid fid g, Calm s gid fid g →
  (mayBranch g f.pred → executing g fid false f.pred ≠ [] →
    let ls := execLanes g fid f.pred
    let pc := g.pcOf ls + 8
    match (s.core g.core).fileBin g.bid pc false (filed s gid ls) with
    | none => Leaves (.reform f) s s gid fid (fun _ t => t.onward) g
    | some c => Unread g fid → Leaves (.reform f) s (s.setCore g.core fun _ => c) gid fid (fun _ t =>
        if laneActive g false f.pred t then { t.goTo pc false with st := .binned } else t.onward) g) ∧
  (laneGuard g true f.pred [] true = none → g.Quiet → s.quiet gid (g.fragLanes fid) = true →
    let ls := g.fragLanes fid
    let mask := (uniRun f.b.toNat (if g.enc = .d then 8 else 32)).map fun k => mapGet 0 g.s k
    let pc := g.pcOf ls
    let keys := ls.map fun l => ((g.thread? l).map fun t => mapGet 0 t.v f.a.toNat).getD 0 &&& 0xFFFF
    f.a.toNat < g.vregs → (∀ r ∈ liveRegs mask, r < g.vregs) →
    if (g.j.any fun x => x.2.members != 0) = true then Leaves (.reorder f) s s gid fid (fun _ t => t.onward) g
    else match (s.core g.core).fileBin g.bid pc true ((ls.zip keys).map fun x =>
        { who := (gid, x.1), since := s.seq, key := x.2, live := mask }) with
    | none => Leaves (.reorder f) s s gid fid (fun _ t => t.onward) g
    | some c => Unread g fid → Leaves (.reorder f) s (s.setCore g.core fun _ => c) gid fid (fun _ t =>
        { t.goTo (pc + 8) false with st := .binned }) g))

/-! ## Loads and stores -/

namespace Sys2Proof

/-- The register and address of a memory form in a lane. -/
def MForm.at_ (f : MForm) (g : Group) (t : Thread) : AddrReg × DWord :=
  memAddr g t f.areg.toNat f.idx f.scale.toNat (f.off.signExtend 64)

/-- The same for a uniform memory form. -/
def MForm.uniAt (f : MForm) (g : Group) : AddrReg × DWord :=
  let a := mapGet {} g.a f.areg.toNat
  (a, effAddr a (if f.idx = noIndex then 0 else mapGet 0 g.s f.idx.toNat) f.scale.toNat (f.off.signExtend 64))

/-- A lane is ready for a memory form that names a run of registers: they are there and it may have one more load. -/
def MForm.ready (f : MForm) (g : Group) (t : Thread) (regs : List (Nat × Nat)) : Prop :=
  MemReady g t regs f.areg.toNat f.idx ∧ t.loads < 63

/-- The bytes that a form of a size moves, and the run of registers they fill. -/
def MForm.bytes (f : MForm) : Nat := sizeBytes f.size
def MForm.data (f : MForm) : Nat × Nat := (f.d.toNat, sizeRun f.size.toNat)

end Sys2Proof

namespace Sys2Proof.Machine

/-- An operation in flight has the bytes of the group's own stores on their way, or of stores pushed in place (R224). -/
def HasOwn (s : State) (core gid : Nat) (weak : Bool) (p : Pend) (pa n : Nat) : Prop :=
  p.data.length = n ∧ ∀ i < n, ∀ b, (s.core core).forwarded gid weak (.mem (pa + i)) = some b → p.data[i]? = some (some b)

/-- Some entry of the core's buffers holds the byte for the group. -/
def Buffered (t : State) (core gid : Nat) (p : Place) (b : Byte) : Prop :=
  ∃ e ∈ (t.core core).entries, e.gid = gid ∧ e.byteAt p = some b

/-- The object of a store takes the core into its roster. -/
def RosterOpen (s : State) (a : AddrReg) : Prop := a.space = 0 → ∀ o, s.object? a.objid = some o → o.closing = none

end Sys2Proof.Machine

/-- R222, R223, R226: a granted ST or STU leaves its bytes in the core's buffers, where no later lane overwrites them;
memory is as it was until they leave. A region opens after one to SYS (R285). R131, R132: in native mode a lane's store
is counted, with a record of its data registers, until they are read. That the buffers hold the registers' values as they
stand at issue, which a later write changes while the record is open, is how the model renders a read after issue
(notes/assumptions/7, a DESIGN CHOICE). -/
def Obligations.StoreResults : Prop := ∀ (f : MForm) s gid fid g, Calm s gid fid g → Coherent s g.core g.part →
  (s.core g.core).sq = [] → (s.core g.core).wc = [] →
  (laneGuard g false f.pred [f.data] false = none → ∀ pa : Nat → Nat,
    (executing g fid false f.pred).length * (f.bytes / 32 + 1) ≤ 256 →
    (∀ l t, (l, t) ∈ executing g fid false f.pred → MemReady g t [f.data] f.areg.toNat f.idx ∧ t.stores < 63 ∧
      RosterOpen s (f.at_ g t).1 ∧ Granted s g (f.at_ g t).1 .write (f.at_ g t).2 f.bytes (pa l)) →
    LanesStore (.st f) s gid fid g f.pred g (fun _ t => t) (fun _ t => (f.at_ g t).1.space == 3) (fun t =>
      t.mem = s.mem ∧ ∀ l th, (l, th) ∈ executing g fid false f.pred → ∀ i < f.bytes,
        (∀ k th', (k, th') ∈ executing g fid false f.pred → l < k → ¬ (pa k ≤ pa l + i ∧ pa l + i < pa k + f.bytes)) →
        Buffered t g.core gid (.mem (pa l + i))
          ((wordsBytes f.bytes ((regsOf g th f.data).map (mapGet 0 th.v ·))).getD i 0)) ∧
    (f.order = 0 ∨ f.order = 1 → ∃ t h, exec (.st f) s = .next t ∧ t.group? gid = some h ∧
      (g.ilk = true → h.late = g.late) ∧
      (g.ilk = false → ∀ l th, (l, th) ∈ executing g fid false f.pred →
        (h.thread? l).map (·.stores) = some (th.stores + 1) ∧
        ∃ r ∈ h.late, r.lane = l ∧ r.counter = .stores ∧ r.regs = regsOf g th f.data ∧ r.use = .store))) ∧
  (g.Quiet → uniActive g f.pred = true → ∀ pa, f.bytes ≤ 2 ^ 12 → RosterOpen s (f.uniAt g).1 →
    Granted s g (f.uniAt g).1 .write (f.uniAt g).2 f.bytes pa →
    ∃ m, m.mem = s.mem ∧ (∀ k, m.group? k = s.group? k) ∧
      GroupEffect (.stu f) s m gid fid 8 ((f.uniAt g).1.space == 3) g ∧ ∀ i < f.bytes,
        Buffered m g.core gid (.mem (pa + i)) ((wordsBytes f.bytes ((uniRun f.d.toNat (sizeRun f.size.toNat)).map
          (mapGet 0 g.s ·))).getD i 0)) ∧
  (uniActive g f.pred = false → GroupEffect (.stu f) s s gid fid 8 false g)

/-- R130, R224, R226: a granted LD leaves its registers waiting for an operation of the lane's own, which already has
the bytes of the group's own stores, whose operands have then been read (R131); LDU and ALD do so for uniform and address
registers. R227: PREF never traps:
every lane goes on, no register and no byte changes, and what it asks of the home slices is sectors for the L1. -/
def Obligations.LoadResults : Prop :=
  (∀ (f : MForm) s gid fid g, Calm s gid fid g → Coherent s g.core g.part →
  let weak := f.order = 0
  (laneGuard g false f.pred [f.data] false = none → ∀ pa : Nat → Nat,
    (∀ l t, (l, t) ∈ executing g fid false f.pred → f.ready g t [f.data] ∧
      Granted s g (f.at_ g t).1 .read (f.at_ g t).2 f.bytes (pa l)) →
    LanesAwait (.ld f) s gid fid g f.pred false (fun id _ t => t.awaitRegs id (regsOf g t f.data)) fun t id l th =>
      ∃ p, mapFind id t.pends = some p ∧ p.id = id ∧ p.gid = gid ∧ p.lanes = [l] ∧ p.dest = .vec l (regsOf g th f.data) ∧
        p.ea = (f.at_ g th).2 ∧ p.pc = th.pc ∧ 1 ≤ p.wait ∧ HasOwn s g.core gid weak p (pa l) f.bytes) ∧
  (g.Quiet → uniActive g f.pred = true → ∀ (i : Instr) (n pa : Nat) (dest : Dest) (await : Nat → Group → Group),
    (i = .ldu f ∧ n = f.bytes ∧ dest = .uni (uniRun f.d.toNat (sizeRun f.size.toNat)) ∧ await = (fun id g =>
        { g with stag := (uniRun f.d.toNat (sizeRun f.size.toNat)).foldl (fun m r => mapInsert r id m) g.stag })) ∨
      (i = .ald f ∧ n = 32 ∧ dest = .addr f.d.toNat ∧ await = fun id g => { g with atag := mapInsert f.d.toNat id g.atag }) →
    Granted s g (f.uniAt g).1 .read (f.uniAt g).2 n pa →
    ∃ id m, m.mem = s.mem ∧ (∀ k, k ≠ gid → m.group? k = s.group? k) ∧
      GroupStores i s m gid fid 8 false (await id g) ∧
      ∃ p, mapFind id m.pends = some p ∧ p.id = id ∧ p.gid = gid ∧ p.lanes = g.fragLanes fid ∧ p.dest = dest ∧
        p.ea = (f.uniAt g).2 ∧ 1 ≤ p.wait ∧ HasOwn s g.core gid weak p pa n) ∧
  (uniActive g f.pred = false → GroupEffect (.ldu f) s s gid fid 8 false g ∧ GroupEffect (.ald f) s s gid fid 8 false g)) ∧
  (∀ (f : MForm) s gid fid g, Calm s gid fid g →
  laneGuard g false f.pred [] false = none → mapFind f.areg.toNat g.atag = none →
  LanesGo (.pref f) s gid fid g f.pred g (fun _ t => t) (fun _ _ => false) fun t =>
    t.mem = s.mem ∧ ∃ rs, t.net = s.net ++ rs ∧ ∀ r ∈ rs, r.core = g.core ∧ ∃ pa, r.kind = .fill pa true)

/-- R29, R224, R360: the home slice answers a load with the bytes as they stand there, POISON where one is poisoned; a
peer may refuse it, PROT (R333, notes/assumptions/100); the last reply of an operation delivers its words to the registers it is still the last writer of; a dirty line
found uncorrectable is poisoned and logged (R304); a sample counts, and counts as stale where the home differs
(R258). R237, R220: a fetch reads a sector of code where the page tables say, if it is executable memory of the
partition and not poisoned, and the group then holds its bytes, a sector at which a thread of the group stands on its
core; it reads nothing that lies further ahead than the front end may reach; a page walk fills the core's translations. -/
def Obligations.LoadEvents : Prop :=
  ((∀ s req r t pa n pend k fill, s.take req = some (r, t) → r.kind = .load (.mem pa) n pend k fill →
    ∃ u, exec (.loadRequestAtHome req) s = .next u ∧ u.mem = s.mem ∧ u.groups = s.groups ∧
      u.net.map (·.id) = (s.net.map (·.id)).filter (· != req) ∧
      ∃ x ∈ u.replies, x.core = r.core ∧ x.slice = some r.slice ∧ x.pend = pend ∧ x.to_ = k ∧
        ((x.bytes = s.bytes pa n ∧ x.cause = if s.poisoned pa n then some (0x11, BitVec.ofNat 64 pa) else none) ∨
          (isPeer pa = true ∧ x.bytes = [] ∧ x.cause = some (7, s.pendEa pend)))) ∧
  (∀ s req r t pa, s.take req = some (r, t) → r.kind = .fill pa true →
    ∃ u, exec (.loadRequestAtHome req) s = .next u ∧ u.mem = s.mem ∧ u.groups = s.groups ∧
      ∃ x ∈ u.replies, x.core = r.core ∧ x.fill = some (pa / 32,
        { bytes := s.bytes (pa / 32 * 32) 32, poison := s.poisoned (pa / 32 * 32) 32 })) ∧
  (∀ s reply r p l regs th, s.replies.find? (·.id == reply) = some r →
    (∀ x ∈ s.replies.takeWhile (fun x => x.id != reply), x.core = r.core → x.slice = r.slice → x.slice = none) →
    s.ackAhead r = false → mapFind r.pend s.pends = some p → p.id = r.pend → p.wait = 1 → p.cause = none → r.cause = none → p.lanes = [l] →
    p.dest = .vec l regs → regs.Nodup → s.thread? p.gid l = some th → th.trap = none → (∀ k ∈ regs, mapFind k th.vtag = some p.id) →
    ∃ u th', exec (.sliceReply reply) s = .next u ∧ u.mem = s.mem ∧ u.thread? p.gid l = some th' ∧
      mapFind r.pend u.pends = none ∧ th'.pc = th.pc ∧ th'.p = th.p ∧ th'.loads = th.loads - 1 ∧
      (∀ k, k < regs.length → mapGet 0 th'.v (regs.getD k 0) = BitVec.ofNat 32
        (leNat ((((fillFrom r.to_ r.bytes p.data).map (·.getD 0)).drop (4 * k)).take 4))) ∧
      (∀ k, k ∉ regs → mapGet 0 th'.v k = mapGet 0 th.v k)) ∧
  (∀ s part pa, inDevice pa = true → part < 8 →
    ((s.slice (homeOf (128 * (pa / 128)))).owned.any fun x => x.1 == pa / 128) = false →
    ∃ u, exec (.poisonWriteback part pa) s = .next u ∧ u.mem = s.mem ∧ u.groups = s.groups ∧
      (∀ k, k ∈ u.poison ↔ k ∈ s.poison ∨ k / 4 = pa / 128) ∧
      ((u.part part).log.getLast?.map fun e => (e.kind, e.addr)) = some (5, BitVec.ofNat 64 (128 * (pa / 128)))) ∧
  ∀ s req r t bytes obj, s.take req = some (r, t) → r.kind = .sample bytes obj →
    ∃ u, exec (.staleReadSample req) s = .next u ∧ u.mem = s.mem ∧ u.groups = s.groups ∧
      (u.part r.part).samples = min ((s.part r.part).samples + 1) (2 ^ 32 - 1) ∧
      mapGet 0 (u.part r.part).stale (staleCounter obj) =
        if bytes.any fun x => s.byte x.1 != x.2 then
          min (mapGet 0 (s.part r.part).stale (staleCounter obj) + 1) (2 ^ 32 - 1)
        else mapGet 0 (s.part r.part).stale (staleCounter obj)) ∧
  ((∀ s gid va g e, s.group? gid = some g → g.residence = .resident → Coherent s g.core g.part → va.toNat < 2 ^ 56 →
    (∃ l ∈ g.live, ∃ th, g.thread? l = some th ∧ th.pc.toNat / 32 = va.toNat / 32) →
    s.walk g.part (va.toNat / 32 * 32) = some e → e.x = true → inDevice (e.pa (va.toNat / 32 * 32)) = true →
    s.admits g.part (e.pa (va.toNat / 32 * 32)) = true → s.poisoned (e.pa (va.toNat / 32 * 32)) 32 = false →
    mapFind (e.pa (va.toNat / 32 * 32) / 128) (s.core g.core).icache = none →
    ∃ u h, exec (.instructionFetch gid va) s = .next u ∧ u.mem = s.mem ∧ u.group? gid = some h ∧
      h = { g with fetched := h.fetched } ∧
      mapFind (va.toNat / 32) h.fetched = some (s.bytes (e.pa (va.toNat / 32 * 32)) 32)) ∧
  (∀ s gid va g, s.group? gid = some g →
    g.residence ≠ .resident ∨
      g.reaches (va.toNat / 32) 65 (g.live.filterMap fun l => (g.thread? l).map (·.pc)) = false →
    exec (.instructionFetch gid va) s = .next s) ∧
  ∀ s core part va e, core < 128 → va.toNat < 2 ^ 56 → s.walk part va.toNat = some e →
    ∃ u, exec (.pageWalk core part va) s = .next u ∧ u.mem = s.mem ∧ u.groups = s.groups ∧
      e ∈ (u.core core).tlb ∧ ∀ k, k ≠ core → u.core k = s.core k)

/-- R223, R29: a store-queue entry with no earlier one for its sector passes to the write-through queue and is sent, a
write-combining line that is full or must make room is sent from where it stands (R262), neither before the results are
there that its operands wait for (R131); at its home a store's bytes are memory's and no other byte changes, but that a
plain store to a sealed object's line is discarded and logged (R235) and a peer may refuse one (R333,
notes/assumptions/100); its acknowledgement reclaims it, and the inspects that waited for no other entry of the core have
the core's acknowledgement (R270). -/
def Obligations.StoreEvents : Prop :=
  (∀ s core k e, (s.core core).sq[k]? = some e →
    ((s.core core).sq.takeWhile fun x => !x.same e).all (fun x => x.at_ != e.at_) = true →
    (s.core core).wt.length < 128 → s.entryWaits e = false →
    let e' := { e with sent := true, owner := [] }
    ∃ u, exec (.storeDrainSend core k false) s = .next u ∧ u.mem = s.mem ∧ SameGroups s u ∧
      (u.core core).sq = (s.core core).sq.filter (fun x => !x.same e) ∧
      (u.core core).wt = (s.core core).wt ++ [e'] ∧
      ∃ r ∈ u.net, r.core = core ∧ r.slice = e.at_.slice ∧ r.kind = .store e') ∧
  (∀ s core k e, (s.core core).wc[k]? = some e → e.sent = false → (s.core core).lineGoes e = true →
    s.entryWaits e = false →
    ∃ u, exec (.storeDrainSend core k true) s = .next u ∧ u.mem = s.mem ∧ SameGroups s u ∧
      (u.core core).wc.length = (s.core core).wc.length ∧ (∀ z ∈ (u.core core).wc, z.same e = true → z.sent = true) ∧
      (u.core core).sq = (s.core core).sq ∧ (u.core core).wt = (s.core core).wt ∧
      ∃ r ∈ u.net, r.core = core ∧ r.slice = e.at_.slice ∧ r.kind = .store { e with sent := true, owner := [] }) ∧
  (∀ s req r t st pa, s.take req = some (r, t) → r.kind = .store st → st.at_ = .mem pa →
    (st.bytes.map (·.1)).Nodup →
    ∃ u, exec (.storeArrivalAtHome req) s = .next u ∧ u.groups = s.groups ∧
      (∀ e ∈ (u.core r.core).wt ++ (u.core r.core).wc, e.same st = true → e.applied = true) ∧
      (((st.obj ≠ 0 ∨ s.sealedLine pa = none) ∧
          ∀ a, u.byte a = if pa ≤ a then (mapFind (a - pa) st.bytes).getD (s.byte a) else s.byte a) ∨
        (st.obj = 0 ∧ s.sealedLine pa ≠ none ∧ u.mem = s.mem ∧
          ((u.part st.part).log.getLast?.map fun e => (e.kind, e.addr)) = some (6, BitVec.ofNat 64 pa)) ∨
        (isPeer pa = true ∧ u.mem = s.mem ∧
          ∀ p ∈ st.pends, ∀ q, mapFind p s.pends = some q → ∃ q', mapFind p u.pends = some q' ∧
            q'.cause = some (7, q.ea)))) ∧
  (∀ s core k e, ((s.core core).wt ++ (s.core core).wc)[k]? = some e → e.applied = true → e.pends = [] →
    s.ackBehind core e = false → (mapKeys s.inspects).Nodup →
    ∃ u, exec (.writeThroughAck core k) s = .next u ∧ u.mem = s.mem ∧ u.groups = s.groups ∧
      (∀ x ∈ (u.core core).wt ++ (u.core core).wc, x.applied = true → x.same e = false) ∧
      (u.core core).sq = (s.core core).sq ∧
      ∀ id x, mapFind id s.inspects = some x → core ∈ x.pushing →
        let owed := fun (u : State) (a : Nat × Nat × Nat × Place) =>
          (u.core core).entries.any fun z => z.seq == a.2.1 && z.gid == a.2.2.1 && z.at_ == a.2.2.2
        ((∀ a ∈ x.awaits, a.1 = core → owed u a = false) →
          ∃ y, mapFind id u.inspects = some y ∧ core ∉ y.pushing) ∧
        ((∃ a ∈ x.awaits, a.1 = core ∧ owed u a = true) → mapFind id u.inspects = some x)) ∧
  (∀ s core slice, core < 128 → slice < 128 →
    ∃ u, exec (.rosterBitRequest core 0 slice) s = .next u ∧ u.mem = s.mem ∧
      maskHas (u.slice slice).roster core = true ∧ slice ∈ (u.core core).plainKnown) ∧
  (∀ s core id o, core < 128 → s.object? id = some o → id ≠ 0 → o.state ≠ .sealed → o.closing = none →
    (∀ e ∈ (s.core core).lookup, e.id = id → e.known = false) →
    ∃ u q, exec (.rosterBitRequest core id 0) s = .next u ∧ u.mem = s.mem ∧ u.object? id = some q ∧
      maskHas q.roster core = true) ∧
  ∀ s core id o, core < 128 → s.object? id = some o →
    ∃ u, exec (.objectLookupFill core id) s = .next u ∧ u.mem = s.mem ∧ u.groups = s.groups ∧
      ∃ e ∈ (u.core core).lookup, e.id = id ∧ e.base = o.base ∧ e.extent = o.extent ∧ e.sealed = (o.state == .sealed)

/-! ## Scratchpad and barrier objects -/

namespace Sys2Proof.Machine

/-- A byte of a scratchpad region. -/
def State.spadByte (s : State) (bid idx off : Nat) : Byte := (s.placeBytes (.spad bid idx off) 1).headD 0

/-- Bytes of the group's own scratchpad that an access of a memory form may have at once. -/
def SpadHere (s : State) (g : Group) (a : AddrReg) (acc : Access) (ea : DWord) (n align off : Nat) : Prop :=
  a.space = 1 ∧ s.viaSlice g a = false ∧ s.checkSpad g a [1, 2] acc ea n align = .ok (some (.spad g.bid g.home off)) ∧
  s.lacking (.spad g.bid g.home off) n = none ∧ (s.region? g.bid g.home).isSome = true

/-- Some byte of the group's scratchpad is poisoned. -/
def SpadBad (s : State) (g : Group) (off n : Nat) : Prop := s.placePoisoned (.spad g.bid g.home off) n = true

/-- Only threads parked on what `on` says have changed, but for what is noted of operands read after issue: they are awake,
whatever their fragments are numbered. -/
def OnlyWoken (s m : State) (on : Park → Bool) : Prop :=
  ∀ k, match s.group? k, m.group? k with
    | some g, some h => h.asRead = { g.asRead with threads := h.asRead.threads, frags := h.frags } ∧
        ∀ l, match g.thread? l with
          | some t => if (t.st.parkedOn.map on).getD false then
              ∃ fr, (h.thread? l).map Thread.asRead = some { t.asRead with st := t.st.woken, frag := fr }
            else (h.thread? l).map Thread.asRead = some t.asRead
          | none => h.thread? l = none
    | none, none => True
    | _, _ => False

/-- A park on a barrier object whose PHASE is to differ from what it is. -/
def Park.atBarrier (bid idx off : Nat) (phase : Bool) : Park → Bool
  | .barrier b i o was => b == bid && i == idx && o == off && was != phase
  | _ => false

/-- The scratchpad of a group after writes: a written byte holds the last lane's, every other byte is as it was. -/
def SpadWrote (s t : State) (g : Group) (ws : List (Nat × List Byte)) : Prop :=
  ∀ x, t.spadByte g.bid g.home x =
    ((ws.reverse.find? fun w => w.1 ≤ x && x < w.1 + w.2.length).map fun w => w.2.getD (x - w.1) 0).getD
      (s.spadByte g.bid g.home x)

end Sys2Proof.Machine

namespace Sys2Proof.Machine

/-- The address register, address, registers and operand of an atomic's lane (R48, R242). -/
def atomAt (f : RForm) (g : Group) (t : Thread) : AddrReg × DWord := memAddr g t (memAreg f.a) f.b (memScale f.a) 0
def atomReady (f : RForm) (g : Group) (t : Thread) (regs : List (Nat × Nat)) : Prop :=
  MemReady g t regs (memAreg f.a) f.b ∧ t.loads < 63 ∧ t.stores < 63

/-- A request that carries an atomic operation to its home for a lane, whose operation is `id`, behind operands that add up
to `before`. -/
def Carries (t : State) (core id pa n : Nat) (obj : Word) (op : AtomOp) (before : Nat) : Prop :=
  ∃ r ∈ t.net, r.core = core ∧ r.slice = homeOf pa ∧ ∃ lanes, r.kind = .atomic (.mem pa) n op lanes obj ∧
    { pend := id, before := before } ∈ lanes

/-- Operands added up from the first, as the slice adds (R244); 0 for none. -/
def addUp (ty : Nat) : List Nat → Nat
  | [] => 0
  | x :: rest => rest.foldl (atomAdd ty true) x

end Sys2Proof.Machine

/-- R193, R197 to R199: LDS takes its bytes from the group's scratchpad at issue, and its registers, which already hold
them, are counted until its answer; from another region it sends for them; STS writes the scratchpad in lane order, and a
store to another region leaves its bytes in the buffers. Opens where a barrier object is touched (R285). That a next
instruction reads the loaded value is read from R217 (notes/assumptions/96, DEDUCED). That STS stores its registers as
they stand at issue, which a later write changes while the record is open, is how the model renders a read after issue
(notes/assumptions/7, a DESIGN CHOICE). R200: ATOMS reads, computes and writes each executing lane's bytes of the group's
scratchpad in one step, and returns the old ones unless told not to; PRESENT answers whether every line of its bytes is
there, and never parks (R201). -/
def Obligations.ScratchpadResults : Prop :=
  (∀ (f : MForm) s gid fid g, Calm s gid fid g →
  laneGuard g false f.pred [f.data] false = none → ∀ off : Nat → Nat,
  ((∀ l t, (l, t) ∈ executing g fid false f.pred → f.ready g t [f.data] ∧
      SpadHere s g (f.at_ g t).1 .read (f.at_ g t).2 f.bytes f.bytes (off l) ∧ ¬ SpadBad s g (off l) f.bytes) →
    LanesAwait (.lds f) s gid fid g f.pred false (fun id l t => (t.awaitRegs id (regsOf g t f.data)).hasRead
      (regsOf g t f.data) (s.placeBytes (.spad g.bid g.home (off l)) f.bytes)) fun t id l th =>
      Asked t id gid l th (.vec l (regsOf g th f.data)) ((s.placeBytes (.spad g.bid g.home (off l)) f.bytes).map some)
        (f.at_ g th).2 ∧
      ∃ r ∈ t.replies, r.pend = id ∧ r.core = g.core ∧ r.slice = none ∧ r.cause = none) ∧
  ((∀ l t, (l, t) ∈ executing g fid false f.pred → f.ready g t [f.data] ∧ s.viaSlice g (f.at_ g t).1 = true ∧
      ∃ b i, s.checkSpad g (f.at_ g t).1 [1, 2] .read (f.at_ g t).2 f.bytes f.bytes = .ok (some (.spad b i (off l)))) →
    LanesAwait (.lds f) s gid fid g f.pred false (fun id _ t => t.awaitRegs id (regsOf g t f.data)) fun t id l th =>
      ∃ p, mapFind id t.pends = some p ∧ p.id = id ∧ p.gid = gid ∧ p.lanes = [l] ∧
        p.dest = .vec l (regsOf g th f.data) ∧ p.ea = (f.at_ g th).2 ∧ p.data.length = f.bytes ∧ 1 ≤ p.wait) ∧
  ((∀ l t, (l, t) ∈ executing g fid false f.pred → MemReady g t [f.data] f.areg.toNat f.idx ∧ t.stores < 63 ∧
      SpadHere s g (f.at_ g t).1 .write (f.at_ g t).2 f.bytes f.bytes (off l)) →
    LanesStore (.sts f) s gid fid g f.pred g (fun _ t => t)
      (fun l _ => s.touchesBarrier (.spad g.bid g.home (off l)) f.bytes) fun t =>
        t.mem = s.mem ∧ SpadWrote s t g ((executing g fid false f.pred).map fun x =>
          (off x.1, wordsBytes f.bytes ((regsOf g x.2 f.data).map (mapGet 0 x.2.v ·))))) ∧
  ((s.core g.core).sq = [] → (s.core g.core).wc = [] →
    (executing g fid false f.pred).length * (f.bytes / 32 + 1) ≤ 256 →
    ∀ b i, (∀ l t, (l, t) ∈ executing g fid false f.pred → MemReady g t [f.data] f.areg.toNat f.idx ∧ t.stores < 63 ∧
      s.viaSlice g (f.at_ g t).1 = true ∧
      s.checkSpad g (f.at_ g t).1 [1, 2] .write (f.at_ g t).2 f.bytes f.bytes = .ok (some (.spad b i (off l)))) →
    LanesStore (.sts f) s gid fid g f.pred g (fun _ t => t) (fun l _ => s.touchesBarrier (.spad b i (off l)) f.bytes)
      fun t => t.mem = s.mem ∧ t.blocks = s.blocks ∧ ∀ l th, (l, th) ∈ executing g fid false f.pred → ∀ k < f.bytes,
        (∀ l' th', (l', th') ∈ executing g fid false f.pred → l < l' →
          ¬ (off l' ≤ off l + k ∧ off l + k < off l' + f.bytes)) →
        Buffered t g.core gid (.spad b i (off l + k))
          ((wordsBytes f.bytes ((regsOf g th f.data).map (mapGet 0 th.v ·))).getD k 0))) ∧
  ((∀ (f : RForm) s gid fid g, Calm s gid fid g → laneGuard g false f.pred [typed f.ty f.d] false = none →
    ∀ off : Nat → Nat,
    let n := atomBytes f.ty.toNat
    let d := typed f.ty f.d
    let old := fun l => s.placeBytes (.spad g.bid g.home (off l)) n
    let new := fun l (t : Thread) => leBytes n (atomNew f.c.toNat f.ty.toNat false (leNat (old l)) (valueOf g t d))
    let wrote := fun t => SpadWrote s t g ((executing g fid false f.pred).map fun x => (off x.1, new x.1 x.2))
    (∀ l t, (l, t) ∈ executing g fid false f.pred → atomReady f g t [d] ∧
      SpadHere s g (atomAt f g t).1 .modify (atomAt f g t).2 n n (off l) ∧ ¬ SpadBad s g (off l) n ∧
      ∀ k t', (k, t') ∈ executing g fid false f.pred → k ≠ l → off k + n ≤ off l ∨ off l + n ≤ off k) →
    (f.mx = false → LanesAwait (.atoms f) s gid fid g f.pred true (fun id _ t => t.awaitRegs id (regsOf g t d))
      fun t id l th => wrote t ∧
        Asked t id gid l th (.vec l (regsOf g th d)) ((old l).map some) (atomAt f g th).2) ∧
    (f.mx = true → LanesStore (.atoms f) s gid fid g f.pred g (fun _ t => t) (fun _ _ => true) fun t =>
      t.mem = s.mem ∧ wrote t)) ∧
  ∀ (f : MForm) s gid fid g, Calm s gid fid g → laneGuard g false f.pred [] false = none → ∀ off : Nat → Nat,
    (∀ l t, (l, t) ∈ executing g fid false f.pred → f.ready g t [] ∧
      s.checkSpad g (f.at_ g t).1 [1] .read (f.at_ g t).2 f.bytes 1 = .ok (some (.spad g.bid g.home (off l)))) →
    LanesAwait (.present f) s gid fid g f.pred false
      (fun id _ t => { t.awaitPred id f.d.toNat with loads := t.loads + 1 }) fun t id l th =>
        Asked t id gid l th (.pred l f.d.toNat) [] (f.at_ g th).2 ∧
        ∃ r ∈ t.replies, r.pend = id ∧ r.slice = none ∧ r.cause = none ∧
          r.got = (s.lacking (.spad g.bid g.home (off l)) f.bytes).isNone)

/-- R209 to R212: the barrier instructions on an object of the group's own scratchpad. BOINIT sets it up, BOARRIVE and
BOEXPECT update it and check it, and whatever leaves PHASE other than what a waiter gave wakes it; BOWAIT goes on where
PHASE differs and else parks; BOTEST reads word 0. No byte outside the object changes. At a region that the group reaches
through a slice (R28) BOARRIVE sends its arrivals and waits for the answer. -/
def Obligations.BarrierResults : Prop := ∀ (f : MForm) s gid fid g off, Calm s gid fid g → g.Quiet →
  uniActive g f.pred = true →
  let a := (f.uniAt g).1
  let ea := (f.uniAt g).2
  let bid := g.bid
  let idx := g.home
  let x := mapGet 0 g.s f.d.toNat
  let y := mapGet 0 g.s (f.d.toNat + 1)
  let b := s.barrier bid idx off
  let elsewhere := fun t : State => t.mem = s.mem ∧ ∀ k, (k < off ∨ off + 20 ≤ k) → t.spadByte bid idx k = s.spadByte bid idx k
  let puts := fun (i : Instr) (r : Bar) => ∃ m g1, elsewhere m ∧ m.barrier bid idx off = r ∧ m.group? gid = some g1 ∧
    OnlyWoken s m (Park.atBarrier bid idx off r.phase) ∧ GroupEffect i s m gid fid 8 true g1
  let goes := fun (i : Instr) (opens : Bool) (h : Group) => ∃ m, OnlyRead s m ∧ GroupStores i s m gid fid 8 opens h
  (s.lacking (.spad bid idx off) 32 = none → s.placePoisoned (.spad bid idx off) 32 = false →
  s.ownPending g.core gid (.spad bid idx off) 32 = false →
  (s.region? bid idx).isSome = true → g.threads.length ≤ 128 → a.space = 1 →
  (s.checkSpad g a [1] .modify ea 32 32 = .ok (some (.spad bid idx off)) →
    puts (.boinit f) ⟨false, true, x.toNat, 0, y.toNat % 65536, 0, 0⟩ ∧
    puts (.boexpect f) { b with expect := x.toNat }.check) ∧
  (s.checkSpad g a [1, 2] .modify ea 32 32 = .ok (some (.spad bid idx off)) → s.viaSlice g a = false →
    (x = 0 → goes (.boarrive f) true g) ∧
    (x ≠ 0 → x.toNat ≤ 65535 → b.doneArr + x.toNat ≤ b.expArr →
      puts (.boarrive f) { b with doneArr := b.doneArr + x.toNat }.check)) ∧
  (s.checkSpad g a [1] .read ea 32 32 = .ok (some (.spad bid idx off)) → b.arrived ≤ b.expect →
    (b.phase ≠ x.getLsbD 0 → goes (.bowait f) false g) ∧
    (b.phase = x.getLsbD 0 → ∃ m, OnlyRead s m ∧ LeavesRead (.bowait f) s m gid fid
      (fun _ t => { t.onward with st := .parked (.barrier bid idx off (x.getLsbD 0)) }) g) ∧
    goes (.botest f) false (g.putS f.d.toNat (BitVec.ofNat 32 (leNat (s.placeBytes (.spad bid idx off) 4)))))) ∧
  ∀ c i, a.space = 2 → s.checkSpad g a [1, 2] .modify ea 32 32 = .ok (some (.spad c i off)) →
    (x = 0 → GroupEffect (.boarrive f) s s gid fid 8 true g) ∧
    (x ≠ 0 → x.toNat ≤ 65535 → ∃ id m, m.mem = s.mem ∧ m.groups = s.groups ∧ m.blocks = s.blocks ∧
      (∃ p, mapFind id m.pends = some p ∧ p.gid = gid ∧ p.lanes = g.fragLanes fid ∧ p.dest = .answer ∧ p.wait = 1) ∧
      (∃ r ∈ m.net, r.core = g.core ∧ r.kind = .arrive (.spad c i off) x.toNat id) ∧
      Leaves (.boarrive f) s m gid fid (fun _ t => { t.onward true with st := .parked (.answer id) }) g)

/-! ## Atomics at the home slice -/

/-- R240, R242 to R246: a granted ATOM, CAS or PADD2 leaves for its home with its lane's registers as operand, the bytes'
sectors gone from the issuing core's L1; additions of one issue at one effective address leave in one request, which
carries the sum of their operands and, for each lane, the sum of those before its own (R244); the registers wait for the
old value, if the operation returns one. -/
def Obligations.AtomicResults : Prop := ∀ (f : RForm) s gid fid g, Calm s gid fid g → Coherent s g.core g.part →
  (∀ e ∈ (s.core g.core).sq ++ (s.core g.core).wc, e.gid ≠ gid) →
  (∀ r ∈ s.net, ∀ p k op ls obj, r.kind = .atomic p k op ls obj → op.issue ≠ s.seq) → ∀ pa : Nat → Nat,
  let ty := f.ty.toNat
  let n := atomBytes ty
  let d := typed f.ty f.d
  let c := typed f.ty f.c
  let lanes := executing g fid false f.pred
  let a := mapGet {} g.a (memAreg f.a)
  let ea := fun t : Thread => (atomAt f g t).2
  let granted := fun k : Nat => ∀ l t, (l, t) ∈ lanes → Granted s g a .modify (ea t) k (pa l)
  let carries := fun (t : State) (id l : Nat) (th : Thread) (m : Nat) (adds : Bool) (op : AtomOp) (x : Thread → Nat) =>
    let mates := if adds && a.space == 0 then lanes.filter fun y => ea y.2 == ea th else [(l, th)]
    Carries t g.core id (pa l) m (if a.space = 0 then a.objid else 0)
      { op with operand := addUp ty (mates.map fun y => x y.2), issue := s.seq, ea := ea th }
      (addUp ty ((mates.filter (·.1 < l)).map fun y => x y.2)) ∧
    (inDevice (pa l) = true → mapFind (pa l / 32) (t.core g.core).l1 = none)
  let onward := fun (i : Instr) (m : Nat) (adds : Bool) (op : AtomOp) (x : Thread → Nat) =>
    LanesStore i s gid fid g f.pred g (fun _ t => t) (fun _ _ => true) fun t => t.mem = s.mem ∧
      ∀ l th, (l, th) ∈ lanes → ∃ id, Asked t id gid l th .none [] (ea th) ∧ carries t id l th m adds op x
  let awaits := fun (i : Instr) (adds : Bool) (op : AtomOp) (x : Thread → Nat) =>
    LanesAwait i s gid fid g f.pred true (fun id _ t => t.awaitRegs id (regsOf g t d)) fun t id l th =>
      Asked t id gid l th (.vec l (regsOf g th d)) (List.replicate n none) (ea th) ∧ carries t id l th n adds op x
  (laneGuard g false f.pred [d] false = none → granted n → (∀ l t, (l, t) ∈ lanes → atomReady f g t [d] ∧
      (isHost (pa l) = true → ty < 4 ∧ (f.c = 0 ∨ f.c = 6))) →
    let op : AtomOp := { op := f.c.toNat, ty := ty, operand := 0 }
    (f.mx = false → awaits (.atom f) (f.c == 0) op fun t => valueOf g t d) ∧
    (f.mx = true → onward (.atom f) n (f.c == 0) op fun t => valueOf g t d)) ∧
  (laneGuard g false f.pred [d, c] false = none → granted n → (∀ l t, (l, t) ∈ lanes → atomReady f g t [d] ∧
      Within g t [c]) →
    LanesAwait (.cas f) s gid fid g f.pred true (fun id _ t => t.awaitRegs id (regsOf g t d)) fun t id l th =>
      Asked t id gid l th (.vec l (regsOf g th d)) (List.replicate n none) (ea th) ∧
      carries t id l th n false { op := 6, ty := ty, cas := true, operand := 0, comparand := valueOf g th c }
        fun t => valueOf g t d) ∧
  (laneGuard g false f.pred [] false = none → granted 4 → (∀ l t, (l, t) ∈ lanes →
      atomReady f g t [single f.d] ∧ isHost (pa l) = false) →
    onward (.padd2 f) 4 true { op := 0, ty := ty, padd := true, operand := 0 } fun t => valueOf g t (single f.d))

namespace Sys2Proof.Machine

/-- Rows that teams reach: every lane reaches its team's, whose leader's access is granted, page by page. -/
def RowGranted (s : State) (g : Group) (lanes : List (Nat × Thread)) (ea : Thread → DWord) (a : AddrReg) (acc : Access)
    (o : ObjEntry) (size : Nat) (segs : Nat → List (Nat × Nat)) : Prop :=
  ∀ l t, (l, t) ∈ lanes → l < 128 ∧ ((∀ k t', (k, t') ∈ lanes → k / size = l / size → l ≤ k) →
    s.checkReg g a [0] acc (ea t) o.rowLen = none ∧ o.rowAt (ea t).toNat = true ∧
    (s.uncached.rowSegs g a acc (ea t).toNat o.rowLen).1 = .ok (segs (l / size)))

/-- The row that team k carries: each executing lane's chunk of c bytes at its place in the team, zeros for the others
(R250). -/
def teamBytes (g : Group) (lanes : List (Nat × Thread)) (data : Nat × Nat) (c size k : Nat) : List Byte :=
  (List.range size).flatMap fun j =>
    match lanes.find? fun x => x.1 == k * size + j with
    | some x => wordsBytes c ((regsOf g x.2 data).map (mapGet 0 x.2.v ·))
    | none => List.replicate c 0

/-- Rows added up from the first, as the slice adds. -/
def rowsUp (ty : Nat) : List (List Byte) → List Byte
  | [] => []
  | x :: rest => rest.foldl (rowAdd ty) x

end Sys2Proof.Machine

/-- R248 to R251: the lanes of a team reach one row together: ROWLD's registers each wait for their chunk of it; ROWADD
leaves with its lanes' chunks at their offsets and zeros between, with the rows of the issue's other teams that reach the
same row added, and the row's sectors gone from the L1; its lanes go on. -/
def Obligations.RowResults : Prop := ∀ s gid fid g (segs : Nat → List (Nat × Nat)) o size, Calm s gid fid g →
  Coherent s g.core g.part → (∀ e ∈ (s.core g.core).sq ++ (s.core g.core).wc, e.gid ≠ gid) →
  (∀ r ∈ s.net, ∀ sg ty add ls obj k, r.kind = .row sg ty add ls obj k → k ≠ s.seq) →
  (∀ f : MForm, laneGuard g false f.pred [f.data] false = none →
    let lanes := executing g fid false f.pred
    (∀ l t, (l, t) ∈ lanes → f.ready g t [f.data]) →
    let a := mapGet {} g.a f.areg.toNat
    let ea := fun t : Thread => (memAddr g t f.areg.toNat f.idx f.scale.toNat 0).2
    s.rowObject g a f.bytes = .ok (o, size) → RowGranted s g lanes ea a .read o size segs →
    LanesAwait (.rowld f) s gid fid g f.pred false (fun id _ t => t.awaitRegs id (regsOf g t f.data)) fun t id l th =>
      Asked t id gid l th (.vec l (regsOf g th f.data)) (List.replicate f.bytes none) (ea th) ∧
      ∃ r ∈ t.net, r.core = g.core ∧ r.slice = homeOf (((segs (l / size)).head?.map (·.1)).getD 0) ∧
        ∃ ls, r.kind = .row (segs (l / size)) none [] ls a.objid s.seq ∧
          (id, (l - l / size * size) * f.bytes, f.bytes) ∈ ls) ∧
  ∀ f : RForm, let data := (f.d.toNat, sizeRun f.c.toNat)
    laneGuard g false f.pred [data] false = none →
    let lanes := executing g fid false f.pred
    (∀ l t, (l, t) ∈ lanes → MemReady g t [data] (memAreg f.a) f.b ∧ t.stores < 63) →
    let a := mapGet {} g.a (memAreg f.a)
    let c := 2 ^ f.c.toNat
    let teams := fun k => (List.range 128).filter fun j => segs j == segs k && lanes.any fun x => x.1 / size == j
    s.rowObject g a c = .ok (o, size) → RowGranted s g lanes (fun t => (atomAt f g t).2) a .modify o size segs →
    LanesStore (.rowadd f) s gid fid g f.pred g (fun _ t => t) (fun _ _ => true) fun t => t.mem = s.mem ∧
      ∀ l th, (l, th) ∈ lanes →
        (∀ x ∈ segs (l / size), ∀ i < x.2, inDevice (x.1 + i) = true → mapFind ((x.1 + i) / 32) (t.core g.core).l1 = none) ∧
        ∃ r ∈ t.net, r.core = g.core ∧ r.slice = homeOf (((segs (l / size)).head?.map (·.1)).getD 0) ∧
        ∃ ls, r.kind = .row (segs (l / size)) (some f.ty.toNat)
            (rowsUp f.ty.toNat ((teams (l / size)).map (teamBytes g lanes data c size))) ls a.objid s.seq ∧
          ∃ id p, (id, 0, 0) ∈ ls ∧ mapFind id t.pends = some p ∧ p.gid = gid ∧ p.dest = .none ∧ p.wait = 1 ∧
            p.lanes = (lanes.filter fun x => x.1 / size == l / size).map (·.1)

/-- R200, R242, R243, R245: at its home an atomic replaces its bytes by the new value in one step, PADD2 in two halves
in either order; each lane's answer is the old value, with the sum of the lanes before it under an addition (R244); a peer
may refuse one to its memory, PROT (R333, notes/assumptions/100).
R199, R212, R250: at its home a row is read, or replaced by its sum, in one step, once the ownership directories have room
for its lines (R252); at another core's scratchpad a load reads, a store writes and an arrival arrives. -/
def Obligations.AtomicEvents : Prop :=
  (∀ s req (high : Bool) r t pa n op lanes obj, s.take req = some (r, t) → r.core < 128 →
  r.kind = .atomic (.mem pa) n op lanes obj → s.judge (.mem pa) obj = .apply → s.poisoned pa n = false →
  let old := leNat (s.bytes pa n)
  let others := fun u : State => u.groups = s.groups ∧ ∀ a, a < pa ∨ pa + n ≤ a → u.byte a = s.byte a
  let answered := fun u : State => (∀ x ∈ u.net, x.id ≠ req) ∧ ∀ x ∈ laneOld op.ty true old lanes,
    ∃ y ∈ u.replies, y.core = r.core ∧ y.slice = some r.slice ∧ y.pend = x.1 ∧ y.bytes = leBytes n x.2 ∧ y.cause = none
  let serves := fun (f : State → Prop) => ∃ u, exec (.atomicRequestAtHome req high) s = .next u ∧ others u ∧
    (f u ∨ (isPeer pa = true ∧ op.lowDone = false ∧ op.highDone = false ∧ u.mem = s.mem ∧ ∀ x ∈ lanes,
      ∃ y ∈ u.replies, y.core = r.core ∧ y.pend = x.pend ∧ y.cause = some (7, s.pendEa x.pend)))
  (op.padd = false → serves fun u => answered u ∧ u.bytes pa n = leBytes n (op.apply true old)) ∧
  (op.padd = true → op.lowDone = false → op.highDone = false → n = 4 →
    serves fun u => u.bytes pa n = leBytes n (op.applyHalf high old) ∧
      ∃ x ∈ u.net, x.id = req ∧ x.kind = .atomic (.mem pa) n { op with lowDone := !high, highDone := high } lanes obj) ∧
  (op.padd = true → op.lowDone = high → op.highDone = !high → n = 4 →
    serves fun u => answered u ∧ u.bytes pa n = leBytes n (op.applyHalf high old))) ∧
  (∀ s req r t, s.take req = some (r, t) →
  let answers := fun (u : State) (pend : Nat) (bs : List Byte) =>
    ∃ y ∈ u.replies, y.core = r.core ∧ y.slice = some r.slice ∧ y.pend = pend ∧ y.bytes = bs ∧ y.cause = none
  (∀ segs ty add ls obj k, r.kind = .row segs ty add ls obj k →
    (s.rowRoom r.slice segs = false → exec (.rowRequestAtHome req) s = .next s) ∧
    (s.rowRoom r.slice segs = true → (s.object? obj).any (·.state == .sealed) = false →
    (∀ x ∈ segs, s.poisoned x.1 x.2 = false) → segs.Pairwise (fun x y => x.1 + x.2 ≤ y.1 ∨ y.1 + y.2 ≤ x.1) →
    (∀ x, ty = some x → (segs.map (·.2)).sum % rowElem x = 0) →
    ∃ u, exec (.rowRequestAtHome req) s = .next u ∧ u.groups = s.groups ∧
      (∀ a, (∀ x ∈ segs, a < x.1 ∨ x.1 + x.2 ≤ a) → u.byte a = s.byte a) ∧
      u.rowBytes segs = (match ty with
        | some x => rowAdd x (s.rowBytes segs) add
        | none => s.rowBytes segs) ∧
      ∀ x ∈ ls, answers u x.1 (((s.rowBytes segs).drop x.2.1).take x.2.2))) ∧
  (∀ b i o n pend k fill, r.kind = .load (.spad b i o) n pend k fill → s.placePoisoned (.spad b i o) n = false →
    ∃ u, exec (.peerSpadRequest req) s = .next u ∧ u.mem = s.mem ∧ SameGroups s u ∧ u.blocks = s.blocks ∧
      answers u pend (s.placeBytes (.spad b i o) n)) ∧
  (∀ st b i o, r.kind = .store st → st.at_ = .spad b i o → (s.region? b i).isSome = true → (st.bytes.map (·.1)).Nodup →
    ∃ u, exec (.peerSpadRequest req) s = .next u ∧ u.mem = s.mem ∧ SameGroups s u ∧
      ∀ x, u.spadByte b i x = if o ≤ x then (mapFind (x - o) st.bytes).getD (s.spadByte b i x) else s.spadByte b i x) ∧
  (∀ b i o k pend, r.kind = .arrive (.spad b i o) k pend → (s.region? b i).isSome = true →
    s.placePoisoned (.spad b i o) 32 = false → (s.barrier b i o).doneArr + k ≤ (s.barrier b i o).expArr →
    let x := { s.barrier b i o with doneArr := (s.barrier b i o).doneArr + k }.check
    ∃ u, exec (.peerSpadRequest req) s = .next u ∧ u.mem = s.mem ∧ u.barrier b i o = x ∧ answers u pend [] ∧
      OnlyWoken s u (Park.atBarrier b i o x.phase)) ∧
  ∀ b i o n op ls obj, r.kind = .atomic (.spad b i o) n op ls obj → op.padd = false → (s.region? b i).isSome = true →
    s.placePoisoned (.spad b i o) n = false →
    let old := leNat (s.placeBytes (.spad b i o) n)
    ∃ u, exec (.peerSpadRequest req) s = .next u ∧ u.mem = s.mem ∧ SameGroups s u ∧
      u.placeBytes (.spad b i o) n = leBytes n (op.apply false old) ∧
      ∀ x ∈ laneOld op.ty false old ls, answers u x.1 (leBytes n x.2))

/-! ## Slice queues -/

namespace Sys2Proof.Machine

/-- The one request that carries a queue instruction's lanes, in lane order, to the queue's slice (R255). -/
def QueueAsked (s t : State) (core gid op n : Nat) (lanes : List (Nat × Word)) (dest : Nat → Dest) : Prop :=
  lanes ≠ [] → ∃ r ws, t.net = s.net ++ [r] ∧ r.core = core ∧ r.slice = n / 64 ∧ r.kind = .queue op n ws ∧
    ws.map (fun w => (w.lane, w.value)) = lanes ∧ ∀ w ∈ ws, w.gid = gid ∧
      ∃ p, mapFind w.pend t.pends = some p ∧ p.gid = gid ∧ p.lanes = [w.lane] ∧ p.dest = dest w.lane ∧ p.wait = 1

/-- An ENQ or DEQ is at issue whose slice has answered, for each lane of the fragment that takes part, that it is served or
that it waits. -/
structure Answered (s : State) (gid fid : Nat) (g : Group) : Prop where
  atIssue : ∃ c b, s.cur = some (c, b) ∧ b.frags = [(gid, fid)]
  group : s.group? gid = some g
  lanes : g.fragLanes fid ≠ []
  plain : ∀ l ∈ g.fragLanes fid, ∀ t, g.thread? l = some t → t.vhaz = [] ∧ t.phaz = [] ∧ t.xhaz = [] ∧
    ∃ id st, t.asked = some (id, st) ∧ (st = .skip ∨ st = .served ∨ st = .waits)
  sound : s.residue = 0

/-- An ENQ or DEQ sends its lanes to the slice and stays at issue: each executing lane notes its operation, which it waits
for as `await` says, each other lane that it has no part. -/
def QueueSends (i : Instr) (s : State) (gid fid : Nat) (g : Group) (pred : BitVec 4) (await : Nat → Thread → Thread)
    (after : State → Prop) : Prop :=
  ∃ (t : State) (h0 h : Group) (ids : Nat → Nat), exec i s = .next t ∧ t.mem = s.mem ∧ t.cur = s.cur ∧
    (∀ k, k ≠ gid → t.group? k = s.group? k) ∧ t.group? gid = some h0 ∧ h0.asRead = h.asRead ∧ OnlyThreads g h ∧
    (∀ l, l ∉ g.fragLanes fid → h.thread? l = g.thread? l) ∧
    (∀ l ∈ g.fragLanes fid, ∀ th, g.thread? l = some th → h.thread? l = some
      (if laneActive g false pred th then { await (ids l) th with asked := some (ids l, .sent) }
       else { th with asked := some (0, .skip) })) ∧ after t

end Sys2Proof.Machine

/-- R253 to R256: ENQ, DEQ, QTRY and QLEN send their lanes to the queue's slice in one request, the registers and the
result predicate waiting for the answer. QTRY and QLEN go on at once. ENQ and DEQ stay at issue until the slice has found
what each lane meets (notes/assumptions/29, a DESIGN CHOICE): then the lanes that it has served go on, and those that must
wait park at the instruction (R7). QOPEN registers its lanes as producers and QDONE retires them, the queue closing with
its last; that both act at issue is the model's choice (notes/assumptions/28). -/
def Obligations.QueueResults : Prop := ∀ (f : I16Form) s gid fid g,
  let n := f.imm.toNat
  let lanes := executing g fid false f.pred
  let d := fun t => regsOf g t (single f.d)
  let k := f.mod4.toNat % 8
  let canTake := ∀ l t, (l, t) ∈ lanes → Within g t [single f.d] ∧ t.loads < 63
  let zero := lanes.map fun x => (x.1, (0 : Word))
  let regOf := fun l => ((g.thread? l).map fun t => (d t).headD 0).getD 0
  (Calm s gid fid g → laneGuard g false f.pred [] false = none → (∀ r ∈ s.net, r.id < s.seq) →
  ((∀ l ∈ g.fragLanes fid, ∀ t, g.thread? l = some t → t.asked = none) →
    (lanes = [] → LanesGo (.enq f) s gid fid g f.pred g (fun _ t => t) (fun _ _ => false) (fun t => t.mem = s.mem) ∧
      LanesGo (.deq f) s gid fid g f.pred g (fun _ t => t) (fun _ _ => false) (fun t => t.mem = s.mem)) ∧
    (lanes ≠ [] → (∀ l t, (l, t) ∈ lanes → Within g t [single f.a] ∧ t.stores < 63) →
      QueueSends (.enq f) s gid fid g f.pred (fun _ t => t) fun t => QueueAsked s t g.core gid 0 n
        (lanes.map fun x => (x.1, BitVec.ofNat 32 (valueOf g x.2 (single f.a)))) fun _ => .none) ∧
    (lanes ≠ [] → canTake →
      QueueSends (.deq f) s gid fid g f.pred (fun id t => (t.awaitRegs id (d t)).awaitPred id k) fun t =>
        QueueAsked s t g.core gid 1 n zero fun l => .entry l (regOf l) k)) ∧
  (canTake → LanesAwait (.qtry f) s gid fid g f.pred true (fun id _ t => (t.awaitRegs id (d t)).awaitPred id k)
    fun t id l th => Asked t id gid l th (.entry l ((d th).headD 0) k) (List.replicate 4 none) 0 ∧
      QueueAsked s t g.core gid 2 n zero fun l => .entry l (regOf l) k) ∧
  (canTake → LanesAwait (.qlen f) s gid fid g f.pred false (fun id _ t => t.awaitRegs id (d t)) fun t id l th =>
      Asked t id gid l th (.vec l (d th)) (List.replicate 4 none) 0 ∧
      QueueAsked s t g.core gid 3 n zero fun l => .vec l [regOf l]) ∧
  (s.queueBusy gid n = false → (s.squeue n).barred g.part = false → lanes ≠ [] →
    (g.producers.contains n = true ∨ g.producers.length < 16) → (∀ l t, (l, t) ∈ lanes → n ∉ t.producer) →
    LanesGo (.qopen f) s gid fid g f.pred { g with producers := setAdd n g.producers }
      (fun _ t => { t with producer := setAdd n t.producer }) (fun _ _ => true) fun t => t.mem = s.mem ∧
        t.squeue n = { s.squeue n with prod := (s.squeue n).prod + lanes.length, armed := true, state := 1 }) ∧
  (s.queueBusy gid n = false → (s.squeue n).barred g.part = false →
    let left := (s.squeue n).prod - (lanes.filter fun x => x.2.producer.contains n).length
    let closes := (lanes.any fun x => x.2.producer.contains n) && left == 0 && (s.squeue n).armed
    ∃ t h, exec (.qdone f) s = .next t ∧ t.mem = s.mem ∧ t.group? gid = some h ∧ (t.squeue n).prod = left ∧
      (t.squeue n).state = (if closes then 2 else (s.squeue n).state) ∧ (closes = true → (t.squeue n).takers = []) ∧
      ∀ l th, (l, th) ∈ lanes → ∃ th', h.thread? l = some th' ∧ n ∉ th'.producer ∧ th'.pc = th.pc + 8 ∧ th'.v = th.v)) ∧
  (Answered s gid fid g → laneGuard g false f.pred [] false = none →
    let ends := fun (i : Instr) (on : Nat → Park) => Leaves i s s gid fid (fun _ t =>
      match t.asked with
      | some (id, .waits) => { t with st := .parked (on id) }
      | x => { t.onward (x.map (·.2) == some .served) with asked := none }) g
    ends (.enq f) (.space n) ∧ ends (.deq f) (.entry n))

/-- R253 to R256: at the slice an entry is appended at the tail or taken at the head, and its lane is served; a full or an
empty queue makes the lane wait; a closed queue discards an entry and counts it; a closed and empty one answers false,
and QLEN answers the count; other lines of memory stay. That an ENQ's or DEQ's lane notes at issue what the slice found is
the model's (notes/assumptions/29). -/
def Obligations.QueueEvents : Prop := ∀ s req r t op n w g p, s.take req = some (r, t) → r.kind = .queue op n [w] →
  w.gid = r.gid → s.group? w.gid = some g → mapFind w.pend s.pends = some p → p.lanes = [w.lane] →
  let q := s.squeue n
  q.barred r.part = false → t.ringBlocked n 2 = false →
  let noted := fun (u : State) (st : QStage) => ∀ th, g.thread? w.lane = some th → th.asked = some (w.pend, .sent) →
    u.thread? w.gid w.lane = some { th with asked := some (w.pend, st) }
  let answered := fun (u : State) (bs : List Byte) (got : Bool) =>
    (∃ y ∈ u.replies, y.pend = w.pend ∧ y.core = g.core ∧ y.bytes = bs ∧ y.cause = none ∧ y.got = got) ∧ noted u .served
  ∃ u, exec (.queueRequestAtSlice req) s = .next u ∧
    (op = 0 → q.state = 1 → q.full = false → q.givers = [] → q.takers = [] →
      ∀ s1, s.deviceWrite q.part (q.entry q.tail) (leBytes 4 w.value.toNat) = .ok s1 →
        u.mem = s1.mem ∧ u.squeue n = { q with tail := q.tail + 1 } ∧ answered u [] true) ∧
    (op = 0 → q.state = 1 → q.full = true → u.mem = s.mem ∧ u.squeue n = { q with givers := q.givers ++ [w] } ∧
      noted u .waits) ∧
    (op = 0 → q.state = 2 → u.mem = s.mem ∧ u.squeue n = { q with dropped := min (q.dropped + 1) (2 ^ 32 - 1) } ∧
      answered u [] true) ∧
    (op = 1 ∨ op = 2 → q.count ≠ 0 → q.givers = [] → (∀ k x, (k, x) ∈ s.ports → x.held = []) → ∀ bs pa,
      s.deviceRead q.part (q.entry q.head) 4 = .ok bs → s.deviceAccess q.part (q.entry q.head) false = .ok pa →
      s.poisoned pa 4 = false → u.mem = s.mem ∧ u.squeue n = { q with head := q.head + 1 } ∧ answered u bs true) ∧
    (op = 2 ∨ (op = 1 ∧ q.state = 2) → q.count = 0 → u.mem = s.mem ∧ u.squeue n = q ∧ answered u [] false) ∧
    (op = 1 → q.state = 1 → q.count = 0 → u.mem = s.mem ∧ u.squeue n = { q with takers := q.takers ++ [w] } ∧
      noted u .waits) ∧
    (op = 3 → u.mem = s.mem ∧ u.squeue n = q ∧ answered u (leBytes 4 q.count) true)

/-! ## Tiles and matrices -/

namespace Sys2Proof.Machine

/-- One tile of the group's block has become `x`; its other tiles and memory are as they were, and every group but for what
is noted of operands read after issue. -/
def TileBecomes (s m : State) (g : Group) (n : Nat) (x : Tile) : Prop :=
  m.tile? g n = some x ∧ (∀ k, k ≠ n → m.tile? g k = s.tile? g k) ∧ m.mem = s.mem ∧ SameGroups s m ∧ (∀ b, b ≠ g.bid → m.block? b = s.block? b) ∧
  ∀ k, m.core k = { s.core k with rng := (m.core k).rng }

/-- What the executing lanes bring to a product. -/
def bring (g : Group) (lanes : List (Nat × Thread)) (a c : Nat × Nat) (scaled : Bool) : List MatLane :=
  lanes.map fun x => { lane := x.1, a := (regsOf g x.2 a).map (mapGet 0 x.2.v ·)
                       scales := if scaled then (regsOf g x.2 c).map (mapGet 0 x.2.v ·) else [] }

end Sys2Proof.Machine

/-- R179 to R182: a product accumulates into its tile, for the rows that the executing lanes hold: MMA and MMAQ alike, MMAO
with its outliers, MMAS under its scales. A region opens where a lane executes (R285). That the tile stands as if the
lanes' registers, and the quarters of a B-share, had been read at issue, which a later write of a lane's own registers
changes while its record is open, is how the model renders a read after issue (notes/assumptions/7, a DESIGN CHOICE). -/
def Obligations.MatrixResults : Prop := ∀ (f : RForm) s gid fid g tile b, Calm s gid fid g →
  let lanes := executing g fid false f.pred
  let a := (f.a.toNat, aRun g.width)
  let c := (f.c.toNat, rowRun g.width)
  let d := f.d.toNat
  lanes ≠ [] → s.tile? g d = some tile → s.tileBusy g d = false →
  (∀ l ∈ g.fragLanes fid, ∀ t, g.thread? l = some t → t.tiles < 63) →
  let product := fun (i : Instr) (x : Tile) => ∃ m, TileBecomes s m g d x ∧
    LeavesRead i s m gid fid (fun _ t => t.onward (laneActive g false f.pred t)) g
  let x := fun (scaled : Bool) es => matTile f.ty.toNat g.width (bring g lanes a c scaled) b scaled es tile
  (laneGuard g false f.pred [a] false = none → (∀ l t, (l, t) ∈ lanes → Within g t [a]) →
    s.matB gid g f.b.toNat false = .ok b →
    product (.mma f) (x false []) ∧ product (.mmaq f) (x false []) ∧
    ∀ es, s.outliers g f.c.toNat = .ok es → product (.mmao f) (x false es)) ∧
  (laneGuard g false f.pred [a, c] false = none → (g.region && isMeldCode g.enc f.c.toNat) = false →
    (∀ l t, (l, t) ∈ lanes → Within g t [a, c]) → s.matB gid g f.b.toNat true = .ok b → product (.mmas f) (x true []))

/-- R186: TSLR sends a lane its elements of a row or column, TSLW writes them; elements lie at lane mod 64 and on. R187,
R188: TZERO, TMOV and TCVT write a tile at once, TLD has its bytes on their way to it, TST writes the group's scratchpad
or leaves a tile's bytes in the buffers. That TCVT's next instruction is a region entry whatever its tiles
(notes/assumptions/38), and that a TST enters its sectors as there is room and, once begun, completes (39), are the
model's choices. That TSLW's elements are its registers as they stand at issue, which a later write changes while the
record is open, is how the model renders a read after issue (notes/assumptions/7, a DESIGN CHOICE). -/
def Obligations.TileResults : Prop :=
  (∀ (f : RForm) s gid fid g n sel tile, Calm s gid fid g →
  s.sliceOf g f = .ok (n, sel, tile) → laneGuard g false f.pred [(f.d.toNat, rowRun g.width)] false = none →
  (∀ l t, (l, t) ∈ executing g fid false f.pred → Within g t [(f.d.toNat, rowRun g.width)] ∧ t.loads < 63 ∧
    t.tiles < 63) →
  let regs := fun t => regsOf g t (f.d.toNat, rowRun g.width)
  let cell := fun e => sliceCell f.mx sel e
  LanesAwait (.tslr f) s gid fid g f.pred false (fun id _ t => t.awaitRegs id (regs t)) (fun t id l th =>
    Asked t id gid l th (.vec l (regs th)) (((laneElems g.width l).flatMap fun e =>
      leBytes 4 (tileAt tile (cell e).1 (cell e).2)).map some) 0) ∧
  LanesStore (.tslw f) s gid fid g f.pred g (fun _ t => t) (fun _ _ => false) fun t =>
    t.mem = s.mem ∧ (∀ k, k ≠ n → t.tile? g k = s.tile? g k) ∧
    t.tile? g n = some (((executing g fid false f.pred).filter fun x => x.1 < 64).foldl (fun y x =>
      ((laneElems g.width x.1).zip ((regs x.2).map (mapGet 0 x.2.v ·))).foldl (fun y z =>
        tilePut y (cell z.1).1 (cell z.1).2 z.2.toNat) y) tile)) ∧
  ((∀ (f : RForm) s gid fid g, Calm s gid fid g → uniActive g f.pred = true →
    let d := f.d.toNat
    let a := f.a.toNat
    (s.tile? g d).isSome = true → s.tileBusy g d = false →
    (∃ m, TileBecomes s m g d [] ∧ GroupStores (.tzero f) s m gid fid 8 false g) ∧
    ∀ x, s.tile? g a = some x → s.tileBusy g a = false →
      (∃ m, TileBecomes s m g d x ∧ GroupStores (.tmov f) s m gid fid 8 false g) ∧
      ∃ (u : Nat → Nat → Word) (m : State), TileBecomes s m g d ((List.range 64).foldl (fun o i =>
          (List.range 64).foldl (fun o j =>
            tilePut o i j (conv 8 f.ty.toNat (Rnd.ofCode f.c.toNat (u i j)) false (tileAt x i j))) o) []) ∧
        GroupStores (.tcvt f) s m gid fid 8 true g) ∧
  ∀ (f : MForm) s gid fid g tile, Calm s gid fid g → g.Quiet → uniActive g f.pred = true →
    let width := 2 ^ f.size.toNat
    let n := 4096 * width
    let a := (f.uniAt g).1
    let ea := (f.uniAt g).2
    s.tile? g f.d.toNat = some tile → s.tileBusy g f.d.toNat = false →
    (∀ segs s1, s.tilePlaces g a .read ea n = (.ok (some segs), s1) →
      (a.space = 1 → ∀ x ∈ segs, s.placePoisoned x.1 x.2 = false) →
      ∃ id m p, m.mem = s.mem ∧ SameGroups s m ∧ mapFind id m.pends = some p ∧ p.gid = gid ∧
        p.dest = .tile f.d.toNat width ∧ p.data.length = (segs.map (·.2)).sum ∧ 1 ≤ p.wait ∧
        (a.space = 1 → p.data = (segs.flatMap fun x => s.placeBytes x.1 x.2).map some) ∧
        GroupStores (.tld f) s m gid fid 8 false g) ∧
    (g.tst = none → a.space = 1 → ∀ off, s.checkSpad g a [1, 2] .write ea n 128 = .ok (some (.spad g.bid g.home off)) →
      s.lacking (.spad g.bid g.home off) n = none → (s.region? g.bid g.home).isSome = true →
      ∃ m, m.mem = s.mem ∧ SameGroups s m ∧ SpadWrote s m g [(off, tileBytes width tile)] ∧
        GroupStores (.tst f) s m gid fid 8 false g) ∧
    (g.tst = none → a.space = 0 → a.objid = 0 → f.order ≠ 2 → f.order ≠ 3 → (s.core g.core).sq = [] → (s.core g.core).wc = [] →
      ∀ segs s1, s.tilePlaces g a .write ea n = (.ok (some segs), s1) → (segPieces segs 0).length ≤ 256 →
      ∃ m, m.mem = s.mem ∧ SameGroups s m ∧ GroupStores (.tst f) s m gid fid 8 false g ∧
        ∀ x ∈ segPieces segs 0, ∀ j < x.2.2.2, Buffered m g.core gid (x.1.add (x.2.1 + j))
          ((tileBytes width tile).getD (x.2.2.1 + j) 0)) ∧
    (∀ t : TileStore, g.tst = some t → t.pc = g.fragPc fid → t.next = (segPieces t.segs 0).length →
      GroupEffect (.tst f) s s gid fid 8 false { g with tst := none }))

/-- R184: BSHARE contributes a quarter to a share of the core, taking a slot where there is one, or leaves the share; that
it counts among the tile operations whose operands are unread, until they are read, is the model's choice
(notes/assumptions/7). R189, R190: TALLOC takes the lowest free run of names, zeroed, or says that there is none; TFREE
gives names back; TSTAT counts. -/
def Obligations.TileAllotment : Prop :=
  (∀ (f : RForm) s gid fid g, Calm s gid fid g →
  let q := f.c.toNat
  let core := s.core g.core
  let completes := fun (m : State) => m.mem = s.mem ∧ SameGroups s m ∧
    (∀ k, m.core k = { s.core k with shares := (m.core k).shares }) ∧
    LeavesRead (.bshare f) s m gid fid (fun _ t => t.onward) g
  (∀ l ∈ g.fragLanes fid, ∀ t, g.thread? l = some t → t.tiles < 63) →
  (q = 4 → ∃ m, completes m ∧ ∀ sh ∈ (m.core g.core).shares, sh.bid = g.bid → sh.name = f.d.toNat →
    ∀ x ∈ sh.quarters, x.map (·.1) ≠ some gid) ∧
  (q < 4 → laneGuard g true f.pred [(f.a.toNat, quarterRun g.width)] false = none →
    f.a.toNat + quarterRun g.width ≤ g.vregs →
    (match core.shares.find? fun sh => sh.bid == g.bid && sh.name == f.d.toNat with
      | some sh => q < sh.quarters.length ∧ ∀ x, sh.quarters.getD q none = some x → x.1 = gid
      | none => core.shares.length < 16) →
    ∃ m, completes m ∧ ∃ sh ∈ (m.core g.core).shares, sh.bid = g.bid ∧ sh.name = f.d.toNat ∧
      sh.quarters.getD q none = some (gid, f.a.toNat))) ∧
  (∀ (f : RForm) s gid fid g ts, Calm s gid fid g → g.Quiet →
  uniActive g f.pred = true → s.tileNames g = some ts →
  let n := (mapGet 0 g.s f.a.toNat).toNat
  let run := fun b : Nat => b + n ≤ 256 ∧ ∀ i < n, mapFind (b + i) ts = none
  let named := fun (m : State) (p : Nat → Prop) (x : Option Tile) => m.mem = s.mem ∧ SameGroups s m ∧
    ∀ k, (p k → m.tile? g k = x) ∧ (¬ p k → m.tile? g k = s.tile? g k)
  (∀ b, 1 ≤ n → n ≤ s.freeTiles g → run b → (∀ b' < b, ¬ run b') →
    ∃ m, m.mem = s.mem ∧ (∀ k, k ≠ gid → m.group? k = s.group? k) ∧
      (∀ k, m.tile? g k = if b ≤ k ∧ k < b + n then some [] else s.tile? g k) ∧
      GroupEffect (.talloc f) s m gid fid 8 true ((g.putS f.d.toNat (BitVec.ofNat 32 b)).putQ 0 true)) ∧
  ((n = 0 ∨ s.freeTiles g < n ∨ ∀ b, ¬ run b) →
    GroupEffect (.talloc f) s s gid fid 8 true ((g.putS f.d.toNat 0xFFFFFFFF).putQ 0 false)) ∧
  (let m := (mapGet 0 g.s f.b.toNat).toNat
   n + m ≤ 256 → (∀ i < m, (s.tile? g (n + i)).isSome = true ∧ s.tileBusy g (n + i) = false) →
    ∃ t, named t (fun k => n ≤ k ∧ k < n + m) none ∧ GroupStores (.tfree f) s t gid fid 8 true g) ∧
  GroupEffect (.tstat f) s s gid fid 8 false (g.putS f.d.toNat (BitVec.ofNat 32
    ((16 - (s.core g.core).shares.length) * 2 ^ 24 + ts.length * 2 ^ 12 + s.freeTiles g))))

/-! ## Futures and copies -/

namespace Sys2Proof.Machine

/-- The register of a vector operand, and its future tag (R214). -/
def regOf (g : Group) (t : Thread) (code : BitVec 10) : Nat := (regsOf g t (single code)).headD 0
def tagOf (g : Group) (t : Thread) (code : BitVec 10) : Option FTag := mapFind (regOf g t code) t.fut

end Sys2Proof.Machine

/-- R214, R215: FTEST answers whether its register waits on no handle, without parking; FWAIT goes on where there is no
tag and parks where one is pending; FCANCEL takes VALID and the tag away; FPASS copies the register with its tag. -/
def Obligations.FutureResults : Prop := ∀ (f : RForm) s gid fid g, Futures s gid fid g →
  laneGuard g false f.pred [] false = none →
  let lanes := executing g fid false f.pred
  let a := fun t => regOf g t f.a
  let tag := fun t => tagOf g t f.a
  (∀ l t, (l, t) ∈ lanes → Within g t [single f.a]) →
  LaneEffect (.ftest f) s gid fid g 8 false f.pred 0
    (fun _ _ t => { p := [(f.d.toNat, !((tag t).any (·.isPending)))] }) ∧
  ((∀ l t, (l, t) ∈ lanes → tag t = none) → LaneEffect (.fwait f) s gid fid g 8 false f.pred 0 (fun _ _ _ => {})) ∧
  ((∀ l t, (l, t) ∈ lanes → tag t ≠ some .faulted) → Leaves (.fwait f) s s gid fid (fun _ t =>
    match (if laneActive g false f.pred t then tag t else none) with
    | some (.pending c k n) => { t with st := .parked (.future c k n) }
    | _ => t.onward) g) ∧
  LanesGo (.fcancel f) s gid fid g f.pred g (fun _ t => if (tag t).isSome then
      { t with v := mapPut 0 (a t) (mapGet 0 t.v (a t) &&& 0x7FFFFFFF) t.v, fut := mapErase (a t) t.fut } else t)
    (fun _ _ => false) (fun t => t.mem = s.mem ∧ t.copies = s.copies) ∧
  ((∀ l t, (l, t) ∈ lanes → Within g t [single f.d]) →
    LanesGo (.fpass f) s gid fid g f.pred g (fun _ t =>
      let d := regOf g t f.d
      let fut := mapErase d t.fut
      { t with v := mapPut 0 d (mapGet 0 t.v (a t)) t.v, fut := ((tag t).map fun m => mapInsert d m fut).getD fut })
    (fun _ _ => false) (fun t => t.mem = s.mem ∧ t.copies = s.copies))

namespace Sys2Proof.Machine

/-- The descriptor, the two address registers and the copy of a lane of CPY, CPYM or CPYP (R202, R203). -/
def laneCopy (f : RForm) (k : CopyKind) (s : State) (g : Group) (t : Thread) :
    CopyDesc × AddrReg × AddrReg × Copy :=
  let d := CopyDesc.ofWords ((uniRun f.c.toNat 16).map fun r => uniValue g (r, false))
  let src := mapGet {} g.a (f.a.extractLsb' 4 4).toNat
  let dst := mapGet {} g.a (f.a.extractLsb' 0 4).toNat
  let off := fun i => if f.b = noIndex then (0 : DWord)
    else (mapGet 0 t.v ((regsOf g t (f.b.toNat, 2)).getD i 0)).signExtend 64
  (d, src, dst, copyOf g k d src dst (off 0) (off 1) (s.receiversOf g k dst d.mask))

/-- The copy's engine and future table have room for the lanes' copies. -/
def CopyRoom (s : State) (core n : Nat) : Prop :=
  (s.copies.filter fun x => x.2.core == core).length + n ≤ 32 ∧
  n ≤ ((List.range 512).filter fun k => !(s.core core).futures.contains k).length

end Sys2Proof.Machine

/-- R202 to R204, R208, R213: a checked CPY, CPYM or CPYP passes each executing lane's copy to the engine and gives the
lane's register a handle on a free slot of the future table, tagged pending, and the lines of a destination that needs no
request are absent (R196); a CPYM to no position resolves at once, to 0. Opens a region. That the copy runs from the offset
registers as they stand at issue, which a later write changes while the record is open, is how the model renders a read
after issue (R131; notes/assumptions/7, a DESIGN CHOICE). -/
def Obligations.CopyResults : Prop := ∀ (f : RForm) s gid fid g, Calm s gid fid g → g.Quiet →
  s.drained g.core gid = true →
  let runs := if f.b = noIndex then [] else [(f.b.toNat, 2)]
  let lanes := executing g fid false f.pred
  laneGuard g false f.pred runs false = none → (∀ l t, (l, t) ∈ lanes → Within g t (single f.d :: runs) ∧ t.copies < 63) →
  CopyRoom s g.core lanes.length →
  ∀ (i : Instr) (k : CopyKind), (i = .cpy f ∧ k = .plain) ∨ (i = .cpym f ∧ k = .multi) ∨ (i = .cpyp f ∧ k = .peer) →
  (∀ l t, (l, t) ∈ lanes →
    s.checkCopy g k (laneCopy f k s g t).1 (laneCopy f k s g t).2.1 (laneCopy f k s g t).2.2.1
      (laneCopy f k s g t).2.2.2 = none) →
  ((∀ l t, (l, t) ∈ lanes → (laneCopy f k s g t).2.2.2.receivers ≠ []) →
    ∃ slot gen : Nat → Nat, LanesStore i s gid fid g f.pred g
      (fun l t => t.putHandle (regOf g t f.d) g.core (slot l) (gen l))
      (fun _ _ => true) fun t => t.mem = s.mem ∧ ∀ l th, (l, th) ∈ lanes →
        let c := (laneCopy f k s g th).2.2.2
        slot l < 512 ∧ slot l ∉ (s.core g.core).futures ∧ slot l ∈ (t.core g.core).futures ∧
        (∀ l' th', (l', th') ∈ lanes → slot l' = slot l → l' = l) ∧
        ∃ id, mapFind id t.copies = some { c with slot := slot l, gen := gen l } ∧
          ∀ r ∈ c.receivers, r.cleared = true → c.dstSpace = 1 → ∀ x, t.region? r.bid r.idx = some x →
            ∀ n ∈ c.linesFrom 0, (n, id) ∈ x.owed) ∧
  ((∀ l t, (l, t) ∈ lanes → (laneCopy f k s g t).2.2.2.receivers = []) →
    (∀ j h, s.group? j = some h → ∀ t ∈ h.threads, t.fut = []) →
    ∃ slot gen : Nat → Nat, LanesGo i s gid fid g f.pred g
      (fun l t => (t.putHandle (regOf g t f.d) g.core (slot l) (gen l)).resolve g.core (slot l) (gen l) (some 0))
      (fun _ _ => true) fun t => t.mem = s.mem ∧ t.copies = s.copies)

namespace Sys2Proof.Machine

/-- What the copy events change of one copy. -/
def CopyBecomes (s u : State) (id : Nat) (f : Copy → Copy) : Prop :=
  u.mem = s.mem ∧ u.groups = s.groups ∧ mapFind id u.copies = (mapFind id s.copies).map f ∧
  ∀ k, k ≠ id → mapFind k u.copies = mapFind k s.copies

end Sys2Proof.Machine

/-- R196, R205 to R208: a copy takes its destination's object or, slice by slice, its lines; a receiver's lines become
absent; a sector's bytes land and are counted at the receiver's barrier object (R211); and a copy whose receivers have all
their bytes resolves: the registers that wait on its handle get the result, its slot is free. -/
def Obligations.CopyEvents : Prop := ∀ s id c, mapFind id s.copies = some c →
  (c.dstSpace = 0 → c.owns = false → c.obj ≠ 0 → ∀ o, s.object? c.obj = some o → o.visible c.part = true →
    (o.state = .sealed → ∃ u, exec (.copyOwnershipAcquire id) s = .next u ∧
      CopyBecomes s u id fun c => { c with owns := true, failed := true }) ∧
    (o.state = .idle → o.owner = none → o.closing = none →
      (s.destLines c (c.linesFrom 0)).2.linesTaken id (s.destLines c (c.linesFrom 0)).1 = false →
      ∃ u, exec (.copyOwnershipAcquire id) s = .next u ∧ CopyBecomes s u id (fun c => { c with owns := true }) ∧
        u.object? c.obj = some { o with state := .owned, owner := some (id, c.core) } ∧
        ∀ l ∈ (s.destLines c (c.linesFrom 0)).1, (u.slice (homeOf (128 * l))).holds l id = true)) ∧
  (c.dstSpace = 0 → c.owns = false → c.obj = 0 →
    let ls := (s.destLines c (c.linesFrom 0)).1
    let missing := fun k => ls.filter fun l => homeOf (128 * l) == k && !(s.slice k).holds l id
    ((∀ k, missing k = []) → ∃ u, exec (.copyOwnershipAcquire id) s = .next u ∧
      CopyBecomes s u id fun c => { c with owns := true }) ∧
    ∀ k, k < 128 → missing k ≠ [] → (∀ j < k, missing j = []) →
      (s.destLines c (c.linesFrom 0)).2.linesTaken id (missing k) = false → s.directory k + (missing k).length ≤ 1024 →
      ∃ u, exec (.copyOwnershipAcquire id) s = .next u ∧ u.mem = s.mem ∧ u.groups = s.groups ∧
        ∀ l ∈ missing k, (u.slice k).holds l id = true) ∧
  (∀ n r, c.receivers[n]? = some r → c.dstSpace ≠ 0 → r.cleared = false → r.dropped = false →
    ∃ u, exec (.presenceClearArrival id n) s = .next u ∧
      CopyBecomes s u id (fun c => { c with receivers := listUpdate n (fun r => { r with cleared := true }) c.receivers }) ∧
      ∀ x, s.region? r.bid r.idx = some x →
        u.region? r.bid r.idx = some { x with owed := x.owed ++ (c.linesFrom 0).map fun l => (l, id) }) ∧
  (∀ n, c.srcSpace = 1 → c.failed = false → c.readTo < c.total → s.corrected = 0 →
    let k := c.chunk c.readTo (c.srcAt c.readTo)
    ∃ u d, exec (.copySectorLand id n true) s = .next u ∧ u.mem = s.mem ∧ SameGroups s u ∧
      mapFind id u.copies = some d ∧ d.readTo = c.readTo + k ∧ ∀ i < k, mapGet 0 d.data (c.readTo + i) =
        (s.placeBytes (.spad c.bid c.idx (c.srcAt c.readTo).toNat) k).getD i 0) ∧
  (∀ n r, c.receivers[n]? = some r → r.dropped = false → r.done < c.total → c.failed = false → c.bad = [] → c.ecc = [] →
    let a := c.dstAt r.done
    let k := c.chunk r.done a
    let bs := (List.range k).map fun i => mapGet 0 c.data (r.done + i)
    r.done + k ≤ c.readTo →
    let landed := fun u : State => ∃ d r', mapFind id u.copies = some d ∧ d.receivers[n]? = some r' ∧ r'.done = r.done + k
    let bytesLand := fun (u : State) (x : Nat) => u.spadByte r.bid r.idx x =
      if a.toNat ≤ x ∧ x < a.toNat + k then bs.getD (x - a.toNat) 0 else s.spadByte r.bid r.idx x
    (c.dstSpace ≠ 0 → r.cleared = true → (s.region? r.bid r.idx).isSome = true →
      ∃ u, exec (.copySectorLand id n false) s = .next u ∧ landed u ∧ u.mem = s.mem ∧
        (c.bar = none → SameGroups s u ∧ ∀ x, bytesLand u x) ∧
        ∀ off, c.bar = some off → c.status = 0 → off + 20 ≤ a.toNat ∨ a.toNat + k ≤ off →
          let b := s.barrier r.bid r.idx off
          let b' := { b with arrived := min (b.arrived + k) (2 ^ 32 - 1) }.check
          u.barrier r.bid r.idx off = b' ∧ OnlyWoken s u (Park.atBarrier r.bid r.idx off b'.phase) ∧
          ∀ x, x < off ∨ off + 20 ≤ x → bytesLand u x) ∧
    (c.dstSpace = 0 → c.owns = true → ∀ pa, (s.engineAccess c 0 c.obj a k true).1 = .ok pa →
      s.linesTaken id [pa / 128] = false → (c.obj = 0 → s.sealedLine pa = none) →
      ∃ u, exec (.copySectorLand id n false) s = .next u ∧ landed u ∧ u.groups = s.groups ∧
        ∀ x, u.byte x = if pa ≤ x ∧ x < pa + k then bs.getD (x - pa) 0 else s.byte x)) ∧
  ((c.receivers.all fun r => r.dropped || c.total ≤ r.done) = true →
    ∃ u, exec (.copyResolve id) s = .next u ∧ u.mem = s.mem ∧ mapFind id u.copies = none ∧
      c.slot ∉ (u.core c.core).futures ∧
      (∀ k, u.group? k = (s.group? k).map fun g =>
        { g with threads := g.threads.map (·.resolve c.core c.slot c.gen c.result) }) ∧
      ∀ l, (u.slice (homeOf (128 * l))).holds l id = true → c.dstSpace ≠ 0)

/-! ## Inspect -/

/-- R264 to R267: an INSPECT whose name is in order waits, its region open, for the request of its issue that asks the same;
INSPECTF gives the lane's register a handle on it; identical lanes share one request, which is under way to the slice that
takes its snapshot, or to one that forwards it (R28). -/
def Obligations.InspectResults : Prop := ∀ (f : RForm) s gid fid g (ask : Nat → Ask) (w : Nat → Aim), Calm s gid fid g →
  Coherent s g.core g.part → (∀ id x, mapFind id s.inspects = some x → id < s.seq) →
  laneGuard g false f.pred (inspectShape f).runs false = none →
  let lanes := executing g fid false f.pred
  let asked := fun (m : State) (l : Nat) (p : Inspect → Prop) => ∃ id x, mapFind id m.inspects = some x ∧
    mapFind id s.inspects = none ∧ x.isAsk gid (ask l) = true ∧ x.core = some g.core ∧ x.part = g.part ∧
    x.groups = (w l).groups ∧ x.slice = (w l).slice ∧ x.snapped = false ∧
    (x.slice ≠ none ∨ x.targets ≠ [] → ∃ q ∈ m.net, x.req = some q.id ∧ q.core = g.core ∧ q.kind = .inspect id ∧
      ∀ k, x.slice = some k → q.slice = k) ∧ p x
  let shared := fun (m : State) => ∀ i j x y, mapFind i m.inspects = some x → mapFind j m.inspects = some y → s.seq ≤ i →
    s.seq ≤ j → ∀ a, x.isAsk gid a = true → y.isAsk gid a = true → i = j
  (∀ l t, (l, t) ∈ lanes → (s.uncached.aim gid g (ask l)).1 = .ok (w l)) →
  ((∀ l t, (l, t) ∈ lanes → askOperands s g t f false = .ok ([], ask l)) →
    ∃ (p : Nat → Nat) (m : State), m.mem = s.mem ∧ (∀ k, m.group? k = s.group? k) ∧ shared m ∧
      (∀ l t, (l, t) ∈ lanes → asked m l (fun x => p l ∈ x.pends) ∧
        ∃ q, mapFind (p l) m.pends = some q ∧ q.gid = gid ∧ q.lanes = [l] ∧ q.dest = .answer ∧ q.wait = 1) ∧
      Leaves (.inspect f) s m gid fid (fun l t => if laneActive g false f.pred t then
        { t.onward true with st := .parked (.answer (p l)) } else t.onward) g) ∧
  ((∀ l t, (l, t) ∈ lanes → askOperands s g t f true = .ok ([regOf g t f.d], ask l)) →
    lanes.length ≤ ((List.range 512).filter fun k => !(s.core g.core).futures.contains k).length →
    ∃ slot gen : Nat → Nat, LanesGo (.inspectf f) s gid fid g f.pred g
      (fun l t => t.putHandle (regOf g t f.d) g.core (slot l) (gen l)) (fun _ _ => true) fun t => t.mem = s.mem ∧ shared t ∧
        ∀ l th, (l, th) ∈ lanes → slot l ∈ (t.core g.core).futures ∧ slot l ∉ (s.core g.core).futures ∧
          asked t l fun x => (slot l, gen l) ∈ x.handles)

/-- R268 to R270: the slice takes its roster and sends to each core in it. A core sends, under .DEV and .SYS, every
store-queue entry the request covers, and under every scope the write-combining lines it covers; under .CORE it marks the
other entries, which serve every group from then on (R224), and their bytes are in its L1; it waits for the
acknowledgements that the scope asks for. When all is acknowledged the observer's L1 has lost the sectors in the form's
reach, the generation advances, the handles resolve and the waiting lanes go on. -/
def Obligations.InspectEvents : Prop := ∀ s id x, mapFind id s.inspects = some x →
  (∀ k m, x.slice = some k → x.snapped = false → s.takeInspect id x = some m →
    let roster : Mask := if x.form = 5 then
        (s.objectsAt x.part x.address).foldl (fun m o => m ||| o.roster) (s.slice k).roster
      else ((s.object? x.lo).map (·.roster)).getD 0
    ∃ u, exec (.inspectSnapshot id) s = .next u ∧ u.mem = s.mem ∧ u.groups = s.groups ∧ u.cores = s.cores ∧
      mapFind id u.inspects = some { x with req := none, snapped := true, targets := rosterCores roster }) ∧
  (∀ core m, core ∈ x.targets → (s.core core).insq.length < 16 → s.takeInspect id x = some m →
    (s.unready x core = true → exec (.inspectArrival id core) s = .next s) ∧
    (s.unready x core = false →
    let c := s.core core
    ∃ u y, exec (.inspectArrival id core) s = .next u ∧ u.mem = s.mem ∧ SameGroups s u ∧
      mapFind id u.inspects = some y ∧ core ∉ y.targets ∧
      (∀ e ∈ c.wc, s.pushes x e = true → e.sent = false →
        ∃ r ∈ u.net, r.core = core ∧ r.slice = e.at_.slice ∧ r.kind = .store { e with sent := true, owner := [] }) ∧
      (∀ z ∈ (u.core core).wc, s.pushes x z = true → z.sent = true) ∧
      (x.scope ≠ 0 → c.wt.length + c.sq.length ≤ 128 → (∀ e ∈ c.sq, s.entryWaits e = false) →
        ∀ e ∈ c.sq, s.pushes x e = true → (∀ z ∈ (u.core core).sq, z.same e = false) ∧
          ∃ e0 ∈ c.sq, e0.same e = true ∧ { e0 with sent := true, owner := [] } ∈ (u.core core).wt) ∧
      (x.scope = 0 → ∀ pre e post, (u.core core).wt ++ (u.core core).sq = pre ++ e :: post → s.covers x e = true →
        e.pushed = true ∧ (e.at_.cached = true → s.placeBlocked e.at_ 32 = false → (∀ z ∈ c.wc, z.at_ ≠ e.at_.line) →
          ∃ sector, mapFind e.at_.key (u.core core).l1 = some sector ∧ ∀ i b, mapFind i e.bytes = some b →
            (∀ z ∈ post, z.at_.key = e.at_.key → mapFind i z.bytes = none) → i < sector.bytes.length →
              sector.bytes[i]? = some b)) ∧
      ((mapKeys s.inspects).Nodup →
        let owed := fun z : Store => if x.scope = 0 then z ∈ (u.core core).wc ∧ s.covers x z = true
          else z ∈ (u.core core).wt ∨ (z ∈ (u.core core).sq ++ (u.core core).wc ∧ s.pushes x z = true)
        (∃ z, owed z) → core ∈ y.pushing))) ∧
  (∀ core, x.core = some core → x.targets = [] → x.pushing = [] → (x.slice = none ∨ x.snapped = true) → x.peer = none →
    (∀ k p, (k, p) ∈ s.parts → ∀ b, p.hbusy = some b → b.1 ≠ some id) →
    let at_ := ((s.group? x.gid).map (·.core)).getD core
    ∃ u, exec (.inspectComplete id) s = .next u ∧ u.mem = s.mem ∧ mapFind id u.inspects = none ∧
      (∀ k, mapFind k (u.core at_).l1 = if s.stales x k then none else mapFind k (s.core at_).l1) ∧
      (∀ r ∈ u.replies, r.core = at_ → ∀ k z, r.fill = some (k, z) → s.stales x k = false) ∧
      (∀ r ∈ u.net, r.core = at_ → ∀ pa, r.kind = .fill pa true → s.stales x (pa / 32) = false) ∧
      (∀ o, (x.form = 3 ∨ x.form = 4) → s.object? x.lo = some o → u.object? x.lo = some { o with gen := o.gen + 1 }) ∧
      (x.pends = [] →
        let gen := ((s.object? x.lo).map fun (o : ObjEntry) => o.gen + 1).getD 0
        let w : Word := if x.form = 3 ∨ x.form = 4 then gen.setWidth 32 else 0
        ∀ j l, u.thread? j l = (s.thread? j l).map fun t => x.handles.foldl (fun t h => t.resolve core h.1 h.2 (some w)) t) ∧
      ∀ p q l th, x.pends = [p] → x.handles = [] → mapFind p s.pends = some q → q.id = p → q.wait = 1 → q.cause = none →
        q.dest = .answer → q.lanes = [l] → s.thread? q.gid l = some th → th.trap = none → th.st.parkedOn = some (.answer p) →
        ∃ fr, u.thread? q.gid l = some { th with st := th.st.woken, frag := fr })

/-- R259: SRSTAT reads a counter of the sampler and the number of samples, and with its C field set clears both. R275:
ISTAT reads a counter of its partition at the core, or the requests queued there now and at most, and with its C
field set clears it. -/
def Obligations.CounterResults : Prop :=
  (∀ (f : RForm) s gid fid g, Calm s gid fid g → g.Quiet →
  uniActive g f.pred = true →
  let k := (mapGet 0 g.s f.a.toNat).toNat % 64
  let p := s.part g.part
  let g1 := (g.putS f.d.toNat (BitVec.ofNat 32 (mapGet 0 p.stale k))).putS (f.d.toNat + 1) (BitVec.ofNat 32 p.samples)
  (f.c ≠ 1 → GroupEffect (.srstat f) s s gid fid 8 false g1) ∧
  (f.c = 1 → ∃ m, m.mem = s.mem ∧ m.part g.part = { p with stale := mapErase k p.stale, samples := 0 } ∧
    (∀ j, j ≠ gid → m.group? j = s.group? j) ∧ GroupEffect (.srstat f) s m gid fid 8 true g1)) ∧
  (∀ (f : RForm) s gid fid g, Calm s gid fid g → g.Quiet →
  uniActive g f.pred = true →
  let k := (mapGet 0 g.s f.a.toNat).toNat % 4
  let c := s.core g.core
  let now := (c.insq.filter fun i => (mapFind i s.inspects).any (·.part == g.part)).length
  let v := if k = 3 then now % 65536 + 65536 * (mapGet 0 c.insMax g.part % 65536) else mapGet 0 c.istat (4 * g.part + k)
  (f.c ≠ 1 → GroupEffect (.istat f) s s gid fid 8 false (g.putSWide true f.d.toNat v)) ∧
  (f.c = 1 → ∃ m, m.mem = s.mem ∧ (∀ j, j ≠ gid → m.group? j = s.group? j) ∧
    mapGet 0 (m.core g.core).istat (4 * g.part + k) = (if k = 3 then mapGet 0 c.istat (4 * g.part + k) else 0) ∧
    mapGet 0 (m.core g.core).insMax g.part = (if k = 3 then 0 else mapGet 0 c.insMax g.part) ∧
    GroupEffect (.istat f) s m gid fid 8 true (g.putSWide true f.d.toNat v)))

/-! ## Objects, pins and the instruction caches -/

namespace Sys2Proof.Machine

/-- Objects, pins and caches may have changed, but memory and the other groups have not. -/
def Elsewhere (s m : State) (gid : Nat) : Prop := m.mem = s.mem ∧ ∀ k, k ≠ gid → m.group? k = s.group? k

/-- No core holds a store for the object. -/
def Homed (s : State) (id : Word) : Prop := ∀ c, ∀ e ∈ (s.core c).entries, e.obj ≠ id

end Sys2Proof.Machine

/-- R228, R229: ODECL reads a shape record and answers with the id of a new object, 1 where its slice has no entry
left, 2 for a record that breaks the rules. R235: SEAL and UNSEAL change an own object's state, OFREE ends it, once
no core holds a store for it and no engine owns it; q0 answers whether it was there. OQUERY reads an object's
words. -/
def Obligations.ObjectResults : Prop :=
  (∀ (f : MForm) s gid fid g pa bs s2 at_, Calm s gid fid g → g.Quiet →
  uniActive g f.pred = true →
  let a := (f.uniAt g).1
  let ea := (f.uniAt g).2
  let d := f.d.toNat
  let r := ShapeRecord.ofBytes bs
  let answer := fun (id : Word) (code : Nat) => ((g.putS d id).putS (d + 1) (BitVec.ofNat 32 code)).putQ 0 (code == 0)
  let ends := fun (m : State) (id : Word) (code : Nat) => Elsewhere s m gid ∧
    GroupEffect (.odecl f) s m gid fid 8 true (answer id code)
  let free := ((List.range 4096).filter fun i => (mapFind i (s.slice (homeOf at_)).objects).isNone)
  s.checkReg g a [0] .read ea 64 = none → (s.checkAccess g a .read ea 64 64).1 = .ok pa →
  (s.checkAccess g a .read ea 64 64).2.readNow gid g .strong (.mem pa) 64 = some (.ok bs, s2) →
  (s2.checkGlobal g {} .read (BitVec.ofNat 64 r.base) 1).1 = .ok at_ →
  (r.ok = false → ∃ m, ends m 0 2) ∧
  (r.ok = true → free = [] → ∃ m, ends m 0 1) ∧
  (r.ok = true → free ≠ [] → ∃ m id o, ends m id 0 ∧ id ≠ 0 ∧ s.object? id = none ∧ m.object? id = some o ∧
    o.base = BitVec.ofNat 64 r.base ∧ o.extent = BitVec.ofNat 64 r.extent ∧ o.part = g.part ∧ o.state = .idle ∧
    o.roster = 0 ∧ o.gen = 0 ∧ o.cls = r.cls ∧ o.sealable = r.sealable ∧ o.shared = r.shared)) ∧
  (∀ (f : RForm) s gid fid g, Calm s gid fid g → g.Quiet →
  uniActive g f.pred = true →
  let id := mapGet 0 g.s f.a.toNat
  let own := (s.object? id).filter (·.part == g.part)
  let answers := fun (i : Instr) (b : Bool) => GroupEffect i s s gid fid 8 true (g.putQ 0 b)
  let becomes := fun (i : Instr) (o : Option ObjEntry) => ∃ m, Elsewhere s m gid ∧ m.object? id = o ∧
    GroupEffect i s m gid fid 8 true (g.putQ 0 true)
  (own.filter (·.sealable) = none → answers (.seal f) false) ∧
  (own.filter (·.state == .sealed) = none → answers (.unseal f) false) ∧ (own = none → answers (.ofree f) false) ∧
  (∀ o, own = some o →
    (o.sealable = true → o.state = .sealed → answers (.seal f) true) ∧
    (o.sealable = true → o.state ≠ .sealed → o.owner = none → Homed s id → becomes (.seal f) (some
      { o with state := .sealed, closing := none, roster := 0, gen := o.gen + 1, lines := s.objectLines g.part o })) ∧
    (o.state = .sealed → becomes (.unseal f) (some { o with state := .idle, lines := [] })) ∧
    (o.owner = none → Homed s id → becomes (.ofree f) none)) ∧
  let seen := (s.object? id).filter (·.visible g.part)
  GroupEffect (.oquery f) s s gid fid 8 false ((((List.range 8).zip ((seen.map (·.words)).getD [3, 0, 0, 0, 0, 0, 0, 0])).foldl
    (fun g x => g.putS (f.d.toNat + x.1) (BitVec.ofNat 32 x.2)) g).putQ 0 seen.isSome))

/-- R236: PIN pins every line of its range once more, or where some line may not be none, q0 saying which; UNPIN takes
one pin of each away; a range of no bytes is nothing. R237, R238: ICINV takes a range's lines out of the instruction
caches, FBAR the group's fetched code. -/
def Obligations.PinAndCodeResults : Prop := ∀ (f : RForm) s gid fid g, Calm s gid fid g → g.Quiet →
  uniActive g f.pred = true →
  let a := mapGet {} g.a f.a.toNat
  let n := (mapGet 0 g.s f.b.toNat).toNat
  let pins := fun (m : State) l => (m.slice (lineHome l)).pinsOf g.part l
  (n = 0 → GroupEffect (.pin f) s s gid fid 8 true (g.putQ 0 true) ∧
    GroupEffect (.unpin f) s s gid fid 8 true (g.putQ 0 true)) ∧
  (n ≠ 0 → s.checkReg g a [0] .read a.pointer n = none →
    ∀ segs, (s.rangeSegs g a .read (n / 65536 + 2) a.pointer.toNat n).1 = .ok segs →
    let ls := segLines segs
    (s.pinFits g.part ls = true → ∃ m, Elsewhere s m gid ∧ GroupEffect (.pin f) s m gid fid 8 true (g.putQ 0 true) ∧
      ∀ l, pins m l = pins s l + if l ∈ ls then 1 else 0) ∧
    (s.pinFits g.part ls = false → ∃ m, Elsewhere s m gid ∧ m.slices = s.slices ∧
      GroupEffect (.pin f) s m gid fid 8 true (g.putQ 0 false)) ∧
    ∃ m, Elsewhere s m gid ∧ GroupEffect (.unpin f) s m gid fid 8 true (g.putQ 0 true) ∧
      ∀ l, pins m l = pins s l - if l ∈ ls then 1 else 0) ∧
  (s.checkReg g a [0] .fetch a.pointer n = none → ∃ m, Elsewhere s m gid ∧ GroupEffect (.icinv f) s m gid fid 8 false g ∧
    (n = 0 → m = s) ∧ (n ≠ 0 → ∀ c ∈ s.partCores g.part, ∀ x ∈ (m.core c).icache,
      let first := a.pointer.toNat / 128 * 128
      s.vasOf g.part first (a.pointer.toNat + n - first) (128 * x.1) = [])) ∧
  GroupEffect (.fbar f) s s gid fid 8 false { g with fetched := [] }

/-! ## Launches -/

namespace Sys2Proof.Machine

/-- The launch unit's stores on placing a record (R89, R99). -/
def placedMem (s : State) (part : Nat) (addr parentAddr : DWord) (depth : Nat) : SMap Byte :=
  (((s.deviceStore part (addr.toNat + 0x58) 8 parentAddr.toNat).deviceStore part (addr.toNat + 0x60) 1 depth).deviceStore
    part (addr.toNat + 0x50) 4 0).mem

/-- A record has been placed at the end of a queue, not yet read. -/
def RecordPlaced (s m : State) (part q : Nat) (addr parentAddr : DWord) (parent : Option Nat) (depth rid : Nat) : Prop :=
  m.mem = placedMem s part addr parentAddr depth ∧ (m.lqueue q).records = (s.lqueue q).records ++ [rid] ∧
  ∃ r, m.launch? rid = some r ∧ r.addr = addr ∧ r.part = part ∧ r.queue = q ∧ r.status = 0 ∧ r.order = s.placed ∧
    r.parent = parent ∧ r.parentAddr = parentAddr ∧ r.depth = depth

end Sys2Proof.Machine

/-- R99, R100: a SPAWN that may, places its record at depth one more and remembers the child; SPAWN does so for each
executing lane in turn, USPAWN once, both with the group's stores drained. GRIDWAIT goes on, its child set empty, where
every child is final, and else parks behind it. -/
def Obligations.SpawnResults : Prop := ∀ (f : RForm) s gid fid g, Calm s gid fid g → g.Quiet →
  s.drained g.core gid = true →
  let lanes := executing g fid false f.pred
  let parent := s.launchOf g
  let family := fun (m : State) => m.cores = s.cores ∧ m.blocks = s.blocks ∧ (∀ k, k ≠ gid → m.group? k = s.group? k) ∧
    ∃ cs, m.group? gid = some { g with children := cs }
  (∀ addr pa named, addr.toNat % 128 = 0 → s.depthOf g ≠ 16 → s.deviceAccess g.part addr.toNat true = .ok pa →
    s.deviceRead g.part (addr.toNat + 0x28) 1 = .ok [named] →
    let q := if named = 255 then (parent.map (·.2.queue)).getD 64 else named.toNat
    q < 64 → (s.part g.part).lqueues.getLsbD q = true → (s.lqueue q).records.length < 256 →
    ∃ m rid, s.spawn gid g addr = .ok m ∧ family m ∧ m.group? gid = some { g with children := setAdd rid g.children } ∧
      RecordPlaced s m g.part q addr ((parent.map (·.2.addr)).getD 0) (parent.map (·.1)) (s.depthOf g + 1) rid) ∧
  (laneGuard g false f.pred [(f.a.toNat, 2)] false = none → (∀ l t, (l, t) ∈ lanes → Within g t [(f.a.toNat, 2)]) →
    ∀ m, lanes.foldlM (fun m x => m.spawn gid g (BitVec.ofNat 64 (valueOf g x.2 (f.a.toNat, 2)))) s = .ok m →
      ∃ cs, m.group? gid = some { g with children := cs } ∧ Leaves (.spawn f) s m gid fid
        (fun _ t => t.onward (laneActive g false f.pred t)) { g with children := cs }) ∧
  (uniActive g f.pred = true → ∀ m, s.spawn gid g (BitVec.ofNat 64 (uniValue g (f.a.toNat, true))) = .ok m →
    ∃ cs, GroupEffect (.uspawn f) s m gid fid 8 true { g with children := cs }) ∧
  (uniActive g f.pred = true →
    ((∀ r ∈ g.children, s.childFinal r = true) → GroupEffect (.gridwait f) s s gid fid 8 false { g with children := [] }) ∧
    ((∃ r ∈ g.children, s.childFinal r = false) → Leaves (.gridwait f) s s gid fid
      (fun _ t => { t.onward with st := .parked (.children g.children) }) g))

namespace Sys2Proof.Machine

/-- What an AFTER reference of a record comes to (R91), as the launch unit tracks records that are not final, and memory
holds the STATUS of the others: met, to wait for, refused or failed, never to be met. -/
def AfterMet (m : State) (r : Launch) (a : DWord) : Prop :=
  m.recordAt r.part a (fun x => !finalStatus x.status) = none ∧
    ∃ w, m.deviceRead r.part (a.toNat + 0x50) 4 = .ok w ∧ leNat w = 5
def AfterWaits (m : State) (r : Launch) (a : DWord) : Prop :=
  ∃ y, m.recordAt r.part a (fun x => !finalStatus x.status) = some y ∧ y.2.order < r.order
def AfterLost (m : State) (r : Launch) (a : DWord) : Prop :=
  m.recordAt r.part a (fun x => !finalStatus x.status) = none ∧
    ((∃ w, m.deviceRead r.part (a.toNat + 0x50) 4 = .ok w ∧ (leNat w = 6 ∨ leNat w = 7)) ∨
      ((∃ e, m.deviceRead r.part (a.toNat + 0x50) 4 = .error e) ∧
        ∃ y, m.recordAt r.part a (fun _ => true) = some y ∧ y.2.reason = 9))
def AfterNever (m : State) (r : Launch) (a : DWord) : Prop :=
  (∃ y, m.recordAt r.part a (fun x => !finalStatus x.status) = some y ∧ r.order ≤ y.2.order) ∨
    (m.recordAt r.part a (fun x => !finalStatus x.status) = none ∧
      ∃ w, m.deviceRead r.part (a.toNat + 0x50) 4 = .ok w ∧ leNat w ≠ 5 ∧ leNat w ≠ 6 ∧ leNat w ≠ 7)

end Sys2Proof.Machine

/-- R326, R89 to R91: a write to a launch port places its record or is refused, and is dropped and counted where the block
is a secure partition's (R343); a record read in its turn becomes ELIGIBLE with a grid number that no grid alive has (R87)
once every AFTER reference is met, waits while some record referred to is not final, or is refused with the reason of the
first check it fails. How long a record stays tracked is the model's choice (notes/assumptions/97). -/
def Obligations.LaunchEvents : Prop :=
  (∀ s port p value, port < 64 → s.queueOwner port = some p →
    (s.barred (0x100000 + 8 * port) = true → exec (.launchPortWrite port 8 value) s = .next s.countAttempt) ∧
    (s.barred (0x100000 + 8 * port) = false →
    let refused := fun (r : Nat) => ∃ u, exec (.launchPortWrite port 8 value) s = .next u ∧ u.groups = s.groups ∧
      u.launches = s.launches ∧ (u.lqueue port).errAddr = value ∧ (u.lqueue port).errValid = true ∧
      (u.lqueue port).errReason = r ∧ (u.lqueue port).errCount = min ((s.lqueue port).errCount + 1) 0x7FFF ∧
      u.msix = port :: s.msix
    (value.toNat % 128 ≠ 0 → refused 9) ∧
    ∀ bs, value.toNat % 128 = 0 → s.deviceRead p value.toNat 128 = .ok bs →
      (256 ≤ (s.lqueue port).records.length → refused 8) ∧
      ((s.lqueue port).records.length < 256 → ∃ u rid, exec (.launchPortWrite port 8 value) s = .next u ∧
        u.groups = s.groups ∧ RecordPlaced s u p port value 0 none 0 rid))) ∧
  ∀ s q rid r, ((s.lqueue q).records.find? fun k => (s.launch? k).any (·.status == 0)) = some rid →
    s.launch? rid = some r →
    let becomes := fun (st : Nat) (p : State → Launch → Prop) => ∃ u r', exec (.recordResolution q) s = .next u ∧
      u.groups = s.groups ∧ u.launch? rid = some r' ∧ r'.status = st ∧ p u r'
    let refused := fun (e : Nat) => becomes 6 fun u r' => r'.reason = e ∧ r.queue ∈ u.msix
    (∀ e, s.deviceRead r.part r.addr.toNat 128 = .error e → refused 9) ∧
    ∀ bs, s.deviceRead r.part r.addr.toNat 128 = .ok bs →
      let x := r.fill bs
      let hdr := s.readHdr r.part (BitVec.ofNat 64 (fieldNat bs 0 8))
      (∀ e, s.checkRecord x hdr = .error e → refused e) ∧
      ∀ h, s.checkRecord x hdr = .ok h →
        let y := { x with hdr := some h, relaunch := x.relaunch || h.relaunch }
        let m := (s.setLaunch rid fun _ => y).putStatus rid 1
        ((∀ a ∈ x.after, a ≠ 0 → AfterMet m y a) → becomes 2 fun u r' =>
          r' = { y with status := 2, grid := r'.grid } ∧ (s.launches.length < 65535 →
            1 ≤ r'.grid ∧ r'.grid ≤ 65535 ∧ ∀ k z, k ≠ rid → u.launch? k = some z → 2 ≤ z.status → z.status ≤ 4 →
              z.grid ≠ r'.grid)) ∧
        ((∀ a ∈ x.after, a ≠ 0 → AfterMet m y a ∨ AfterWaits m y a) → (∃ a ∈ x.after, a ≠ 0 ∧ AfterWaits m y a) →
          m.settleAll = m → becomes 1 fun _ r' => r' = { y with status := 1 }) ∧
        ((∃ a ∈ x.after, a ≠ 0 ∧ AfterLost m y a) → refused 6) ∧
        ((∀ a ∈ x.after, a ≠ 0 → ¬ AfterLost m y a) → (∃ a ∈ x.after, a ≠ 0 ∧ AfterNever m y a) → refused 7)

namespace Sys2Proof.Machine

/-- The tables' next numbers are new. -/
def Numbered (s : State) : Prop :=
  (∀ k, s.block? k ≠ none → k < mapFresh s.blocks) ∧ ∀ k, s.group? k ≠ none → k < mapFresh s.groups

/-- A group as it is placed for a kernel: every thread at the entry, s0 and s1 the arguments' address (R87). -/
def PlacedGroup (g : Group) (h : KHdr) (args : DWord) (len : Nat) : Prop :=
  g.width = h.width ∧ g.enc = coreEnc g.core ∧ g.vregs = h.vregs g.enc ∧ g.s = (launchRegs args len).1 ∧
  g.a = (launchRegs args len).2 ∧ g.threads = (List.range h.width).map fun _ => newThread (h.entryAt g.enc)

end Sys2Proof.Machine

/-- R92, R93, R107: a core that offers a claim takes nothing while a handler wave waits, and else a migrating group that
fits, else, while no such group waits, the next block of the arbiter's choice, whose record becomes RUNNING (that what waits
keeps later ones back is the model's choice, notes/assumptions/98); R300: an evicted group returns to its core with its threads as they were; R289 to R291: a
stack's collector forms a handler wave of its oldest lanes, or a refused handler sets the partition's flag. -/
def Obligations.ClaimEvents : Prop := ∀ s, Numbered s →
  (∀ core p, s.corePart core = some p → s.waveWaits p core = true → exec (.claim core false) s = .next s) ∧
  (∀ core p gid g x, s.corePart core = some p → (s.part p).switching = false → s.waveWaits p core = false →
    (s.groups.find? fun y => y.2.residence == .migrating && y.2.part == p && y.2.enc == coreEnc core &&
      y.2.core / 32 == core / 32 && (s.migrantFits p core y.2).isSome) = some (gid, g) → s.group? gid = some g →
    s.migrantFits p core g = some x →
    ∃ u, exec (.claim core false) s = .next u ∧ u.mem = s.mem ∧ (∀ k, k ≠ gid → u.group? k = s.group? k) ∧
      u.group? gid = some { g with
        core := core, rows := x.rows, lane0 := x.lane0, residence := .resident, fetched := []
        ilk := s.interlocked p core (((s.block? g.bid).map (·.hdr)).getD {})
        threads := g.threads.map fun t => if t.st == .migrating then { t with st := .ready } else t }) ∧
  (∀ core p rid r h cores m, s.corePart core = some p → (s.part p).switching = false → s.waveWaits p core = false →
    (∀ y ∈ s.groups, y.2.residence ≠ .migrating) → s.launch? rid = some r → r.gangb = 1 → 1 ≤ r.bcores → r.again = [] →
    (s.lqueue r.queue).chunk = 1 → s.offered p core r = some (h, cores) → s.takeGang rid cores = some m →
    s.arbitrate (core / 32) ((s.launches.filter fun y => (s.offered p core y.2).isSome).filter fun y =>
      match s.offered p core y.2 with
      | some (_, cs) => (s.takeGang y.1 cs).isSome
      | none => false) = some (rid, r) →
    ∃ u b r', exec (.claim core false) s = .next u ∧ (∀ k, s.group? k ≠ none → u.group? k = s.group? k) ∧
      u.launch? rid = some r' ∧ r'.status = 3 ∧ r'.next = r.next + 1 ∧ u.block? (mapFresh s.blocks) = some b ∧
      b.rid = some rid ∧ b.index = r.next ∧ b.cores = cores ∧ b.hdr = h ∧ b.groups.length = r.bthreads / h.width ∧
      ∀ gid ∈ b.groups, ∃ g, u.group? gid = some g ∧ g.bid = mapFresh s.blocks ∧ g.core ∈ cores ∧
        PlacedGroup g h r.kargs r.karglen.toNat) ∧
  (∀ gid g x, s.group? gid = some g → g.residence = .evicted → (s.part g.part).switching = false →
    s.returnFits g g.core = some x → g.binned = [] →
    ∃ u, exec (.groupRestore gid g.core) s = .next u ∧ u.mem = s.mem ∧ (∀ k, k ≠ gid → u.group? k = s.group? k) ∧
      u.group? gid = some { g with
        rows := x.rows, lane0 := x.lane0, residence := .resident, fetched := []
        ilk := s.interlocked g.part g.core (((s.block? g.bid).map (·.hdr)).getD {})
        threads := g.threads.map fun t => { t with st := t.st.unevict } }) ∧
  ∀ stack part aged, (s.part part).slicedOut = false →
    let lanes := mapGet [] (s.part part).collect stack
    lanes ≠ [] →
    (s.handlerHdr part [stack] = none → ∃ u, exec (.handlerWaveForm stack part aged) s = .next u ∧
      (u.part part).handlerBad = true ∧ (u.part part).flags.getLsbD 2 = true) ∧
    ∀ h, s.handlerHdr part [stack] = some h → (aged = true ∨ h.width ≤ lanes.length) →
      (∀ i, i < 32 → s.enabledCore part (32 * stack + i) = true → h.carries (coreEnc (32 * stack + i)) = true →
        (s.shareFits part (32 * stack + i) h 1).isSome = true) →
      (∃ i, i < 32 ∧ s.enabledCore part (32 * stack + i) = true ∧ h.carries (coreEnc (32 * stack + i)) = true) →
      ∃ u g, exec (.handlerWaveForm stack part aged) s = .next u ∧ u.mem = s.mem ∧
        (∀ k, s.group? k ≠ none → u.group? k = s.group? k) ∧ mapGet [] (u.part part).collect stack = lanes.drop h.width ∧
        u.group? (mapFresh s.groups) = some g ∧ g.handler = true ∧ g.privileged = true ∧ g.width = h.width ∧
        ∀ l < h.width, ∃ t, g.thread? l = some t ∧ (match lanes[l]? with
          | some o => t.st = .ready ∧ t.origin = some o ∧ t.pc = h.entryAt g.enc
          | none => t.st = .exited)

/-! ## Migration -/

/-- R105 to R109: MIGRATE notes the class asked for; EQPT notes its point and, where a migration is asked for and the whole
group stands there with nothing in flight, moves the registers that the map names into the other encoding. -/
def Obligations.MigrationResults : Prop := ∀ s gid fid g, Calm s gid fid g →
  let hdr := ((s.block? g.bid).map (·.hdr)).getD {}
  let lanes := g.fragLanes fid
  (∀ f : RForm, laneGuard g true f.pred [] true = none →
    let target := if f.c = 0 then Enc.l else Enc.d
    (target = g.enc → GroupEffect (.migrate f) s s gid fid 8 false { g with pendMig := none }) ∧
    (target ≠ g.enc → hdr.encD = true → hdr.encL = true →
      GroupEffect (.migrate f) s s gid fid 8 false { g with pendMig := some target })) ∧
  (∀ f : I16Form, laneGuard g true f.pred [] true = none → (s.block? g.bid).isSome = true → g.pendMig = none →
    (hdr.encD && hdr.encL) = false →
    GroupEffect (.eqpt f) s s gid fid 8 true { g with threads := (lanes.foldl (fun (g : Group) k =>
      g.setThread k fun t => { t with eq := some (f.imm.toNat, 0xFFFFFFFF, 0xFFFFFFFF) }) g).threads }) ∧
  ∀ (f : I16Form) r, laneGuard g true f.pred [] true = none → (s.block? g.bid).isSome = true → hdr.encD = true →
    hdr.encL = true → hdr.eqmap ≠ 0 → (s.part g.part).migpol = false →
    s.findRecord g.part hdr.eqmap.toNat hdr.eqlen f.imm.toNat (hdr.eqlen / 16 + 1) 0 = .ok (some r) →
    let here := if g.enc = .d then r.dpc else r.lpc
    let there := if g.enc = .d then r.lpc else r.dpc
    here.setWidth 64 = g.pcOf lanes - hdr.text g.enc → r.valid hdr g.enc (lanes.filterMap g.thread?) = true →
    g.armed = false → (∀ l ∈ lanes, ∀ t, g.thread? l = some t → t.rstk = []) →
    (g.pendMig = none → GroupEffect (.eqpt f) s s gid fid 8 true { g with threads := (lanes.foldl (fun (g : Group) k =>
      g.setThread k fun t => { t with eq := some (f.imm.toNat, r.dpc, r.lpc) }) g).threads }) ∧
    (g.pendMig = some (other g.enc) → lanes = g.live → s.drained g.core gid = true → s.quiet gid g.live = true →
      s.classCore g.part (g.core / 32) (other g.enc) = true →
      alignedFor (other g.enc) (hdr.text (other g.enc) + there.setWidth 64 + 8) = true → Unread g fid →
      ∃ t h, exec (.eqpt f) s = .next t ∧ t.mem = s.mem ∧ (∀ k, k ≠ gid → t.group? k = s.group? k) ∧
        t.group? gid = some h ∧ h.enc = other g.enc ∧ h.residence = .migrating ∧ h.pendMig = none ∧
        h.vregs = hdr.vregs (other g.enc) ∧ h.s = moveMap 0 (r.codes g.enc 1) g.s ∧
        h.a = moveMap {} (r.codes g.enc 2) g.a ∧ h.q = moveBits (r.codes g.enc 5) g.q ∧
        ∀ l ∈ g.live, ∀ th, g.thread? l = some th → ∃ th', h.thread? l = some th' ∧ th'.st = .migrating ∧
          th'.pc = hdr.text (other g.enc) + there.setWidth 64 + 8 ∧ th'.v = moveMap 0 (r.codes g.enc 0) th.v ∧
          th'.p = moveBits (r.codes g.enc 4) th.p)

/-! ## Scheduling, traps and privilege -/

/-- R133: NOP does nothing; WAIT goes on where every counter of each active lane is at or below its field, and else holds
its fragment; YIELD has its fragment give way to others. -/
def Obligations.SchedulingResults : Prop := ∀ s gid fid g, Calm s gid fid g →
  (∀ f : RForm, laneGuard g false f.pred [] false = none →
    LanesGo (.nop f) s gid fid g f.pred g (fun _ t => t) (fun _ _ => false) (fun t => t.mem = s.mem) ∧
    LanesGo (.yield f) s gid fid g f.pred g (fun _ t => t) (fun _ _ => false) (fun t => t.mem = s.mem ∧
      ∀ b ∈ (t.core g.core).active, (gid, fid) ∈ b.frags → b.stalled = true)) ∧
  ∀ f : I16Form, laneGuard g false f.pred [] false = none →
    let passes := fun t : Thread => t.loads ≤ f.imm.toNat / 4096 ∧ t.stores ≤ f.imm.toNat / 256 % 16 ∧
      t.copies ≤ f.imm.toNat / 16 % 16 ∧ t.tiles ≤ f.imm.toNat % 16
    ((∀ l t, (l, t) ∈ executing g fid false f.pred → passes t) →
      LanesGo (.wait f) s gid fid g f.pred g (fun _ t => t) (fun _ _ => false) (fun t => t.mem = s.mem)) ∧
    ((∃ l t, (l, t) ∈ executing g fid false f.pred ∧ ¬ passes t) → exec (.wait f) s = .next s)

namespace Sys2Proof.Machine

/-- A lane that raised a cause at an instruction: TRAPPED, with nothing else of what it holds changed (R8); the operands
that it had still to read have been read, and an ENQ or DEQ that its slice has not served is taken back. -/
def RaisedIn (th th' : Thread) (cause : Nat) : Prop :=
  (th'.st = .trapped ∨ th'.st = .halted .trapped) ∧ th'.trap.map (·.cause) = some cause ∧
    th'.trap.map (·.pc) = some th.pc ∧
    th' = { th with
      st := th'.st, trap := th'.trap, pennant := th'.pennant, frag := th'.frag, asked := th'.asked
      stores := th'.stores, copies := th'.copies, tiles := th'.tiles
      vhaz := th'.vhaz, phaz := th'.phaz, xhaz := th'.xhaz }

/-- Every slot of a partition's fault ring can be written, whatever records go there. -/
def RingWritable (s : State) (part : Nat) : Prop :=
  (s.part part).faultring ≠ 0 ∧ ∀ ws : List (Nat × List Byte), (∀ w ∈ ws, w.1 < 4096 ∧ w.2.length = 64) →
    ∃ t, ws.foldlM (fun s w => s.deviceWrite part ((s.part part).faultring.toNat + 64 * w.1) w.2) s = .ok t

/-- The states in which a cause ends a gang: POISON (R303), no handler, or a refused one (R288, R291), a ring that cannot be
written (R282), and a handler wave, whose lane ends (R292). -/
def Kills (s : State) (g : Group) (cause : Nat) : Prop :=
  let p := s.part g.part
  g.handler = true ∨ cause = 0x11 ∨ p.handler = 0 ∨ p.handlerBad = true ∨ ¬ RingWritable s g.part

/-- What has become of a lane that does not complete an instruction, which commits no effect: it is TRAPPED with the
cause, its group as it was, or, where the cause ends a gang, it may have exited. -/
def Trapped (s : State) (g h : Group) (th th' : Thread) (cause : Nat) : Prop :=
  (Kills s g cause ∧ th'.st = .exited) ∨ (RaisedIn th th' cause ∧
    h = { g with threads := h.threads, frags := h.frags, holds := h.holds, late := h.late, products := h.products })

/-- No lane of a list completes the instruction; where its group still stands, each has trapped, and the group is gone only
where the cause ends a gang. -/
def LanesTrap (i : Instr) (s : State) (gid : Nat) (g : Group) (lanes : List Nat) (cause : Nat) : Prop :=
  ∃ t, exec i s = .next t ∧ (Kills s g cause ∨ (t.group? gid).isSome = true) ∧
    ∀ l ∈ lanes, ∀ th, g.thread? l = some th → ∀ h, t.group? gid = some h →
      ∃ th', h.thread? l = some th' ∧ Trapped s g h th th' cause

/-- What is recorded of a lane that raises a cause (R282, R283). -/
def trapOf (g : Group) (fid : Nat) (t : Thread) (cause code : Nat) (repc : DWord) (rcount : Word) (addr : DWord) :
    TrapInfo :=
  { cause := cause, code := code, pc := t.pc, repc := repc, rcount := rcount, addr := addr, frag := fid
    parent := (g.fragInfo fid).parent, sib := (g.fragInfo fid).sib }

/-- The records of lanes, in their order: each goes into the next free slot of the partition's fault ring after the one
last taken (R282). The slots that the lanes take, and the state with the records written. -/
def ringRecords (g : Group) (info : Thread → TrapInfo) : List (Nat × Thread) → State →
    Except Nat (List (Nat × Nat) × State)
  | [], s => .ok ([], s)
  | (l, th) :: rest, s =>
    match (s.part g.part).nextSlot with
    | none => .error 0
    | some k =>
      match s.deviceWrite g.part ((s.part g.part).faultring.toNat + 64 * k) (faultRecord g l th (info th)) with
      | .error e => .error e
      | .ok m =>
        (ringRecords g info rest (m.setPart g.part fun p => { p with ring := setAdd k p.ring, ringLast := k })).map
          fun x => ((l, k) :: x.1, x.2)

/-- Lanes that take an exception where each finds a slot of its partition's fault ring that can be written: their records
are there, each lane keeps its registers, and `goes` and `after` say where they wait. -/
def TakesTrap (i : Instr) (s : State) (gid : Nat) (g : Group) (lanes : List (Nat × Thread)) (info : Thread → TrapInfo)
    (goes : Nat → Nat → State → Thread → Prop) (after : State → Prop) : Prop :=
  ∀ ks m, (s.part g.part).faultring ≠ 0 → ringRecords g info lanes s = .ok (ks, m) →
    ∃ t, exec i s = .next t ∧ t.mem = m.mem ∧ (∀ j, j ≠ gid → t.group? j = s.group? j) ∧
      (t.part g.part).ring = (m.part g.part).ring ∧ (t.part g.part).ringLast = (m.part g.part).ringLast ∧ after t ∧
      ∀ l k th, (l, k) ∈ ks → (l, th) ∈ lanes → ∃ th', t.thread? gid l = some th' ∧
        th'.trap = some { info th with slot := some k } ∧ th'.v = th.v ∧ th'.p = th.p ∧ th'.pc = th.pc ∧ goes l k t th'

end Sys2Proof.Machine

/-- R282, R283, R294: TRAP and BKPT take their exception, with their code, the next instruction as REPC and the region
counter one more; the lanes go to the collector in lane order, or, at BKPT with the debugger enabled, halt. -/
def Obligations.TrapResults : Prop := ∀ (f : I16Form) s gid fid g, Calm s gid fid g →
  laneGuard g false f.pred [] false = none → g.handler = false →
  let p := s.part g.part
  let lanes := executing g fid false f.pred
  let info := fun (c : Nat) (th : Thread) => trapOf g fid th c f.imm.toNat (th.pc + 8) (th.rcount + 1) 0
  let stack := g.core / 32
  let collected := fun (i : Instr) (c : Nat) => TakesTrap i s gid g lanes (info c)
    (fun l k _ th => th.st = .trapped ∧ th.pennant = pennantOf g.core l k)
    fun t => mapGet [] (t.part g.part).collect stack = mapGet [] p.collect stack ++ lanes.map fun x => (gid, x.1)
  LanesTrap (.trap f) s gid g (lanes.map (·.1)) 0x13 ∧ LanesTrap (.bkpt f) s gid g (lanes.map (·.1)) 0x12 ∧
  (p.handler ≠ 0 → p.handlerBad = false → collected (.trap f) 0x13) ∧
  (p.handler ≠ 0 → p.handlerBad = false → p.dbgen = false → collected (.bkpt f) 0x12) ∧
  (p.dbgen = true → TakesTrap (.bkpt f) s gid g lanes (info 0x12)
    (fun l k t th => th.st = .halted .trapped ∧ th.pennant = pennantOf g.core l k ∧ (gid, l) ∈ (t.part g.part).halted)
    fun t => lanes ≠ [] → (64 + g.part) ∈ t.msix)

/-- R293: RTE in a handler wave returns its lane's origin to READY at REPC with RCOUNT, frees the ring slot and exits; in
any other group it raises PROT. -/
def Obligations.ReturnResults : Prop := ∀ (f : RForm) s gid fid g, Calm s gid fid g →
  (g.handler = false → LanesTrap (.rte f) s gid g (g.fragLanes fid) 7) ∧
  ∀ l th og ol o ot i k, g.handler = true → g.fragLanes fid = [l] → g.thread? l = some th → th.origin = some (og, ol) →
    th.producer = [] → s.drained g.core gid = true → s.quiet gid [l] = true → og ≠ gid → s.group? og = some o →
    o.thread? ol = some ot → ot.st = .trapped → ot.trap = some i → i.slot = some k → (s.part o.part).ringWait = [] →
    ∃ u fr, exec (.rte f) s = .next u ∧ k ∉ (u.part o.part).ring ∧
      (∀ h, u.group? gid = some h → (h.thread? l).map (·.st) = some .exited) ∧
      u.thread? og ol = some { ot with
        st := .ready, pc := i.repc, rcount := i.rcount, trap := none, frag := fr
        rentry := if i.cause = 0x12 ∨ i.cause = 0x13 then i.repc else ot.rentry }

namespace Sys2Proof.Machine

/-- The origin that a pennant names, and that its image may be saved or loaded (R295, R296). -/
def Origin (s : State) (part : Nat) (pen : Word) (o : Nat × Nat × Group × Thread) : Prop :=
  s.lanePen part pen = some o ∧ o.2.2.2.st.isTrapped = true ∧ s.stateSettled o.1 o.2.1 o.2.2.1 = true

end Sys2Proof.Machine

/-- R65: a PRIV instruction raises PROT in a group that is neither privileged nor a handler wave. -/
def Obligations.PrivilegeRule : Prop := ∀ (f : RForm) (m : MForm) s gid fid g, Calm s gid fid g →
  g.privileged = false → g.handler = false →
  (uniActive g f.pred = true → LanesTrap (.tlbinv f) s gid g (g.fragLanes fid) 7 ∧
    LanesTrap (.halt f) s gid g (g.fragLanes fid) 7 ∧ LanesTrap (.errlog f) s gid g (g.fragLanes fid) 7) ∧
  (uniActive g m.pred = true → LanesTrap (.csave m) s gid g (g.fragLanes fid) 7 ∧
    LanesTrap (.cload m) s gid g (g.fragLanes fid) 7)

/-- R299, R306, R307: TLBINV takes away every translation of a page that touches a range, HALT halts its group and posts to the debugger, ERRLOG takes
the oldest entry of the partition's log; in a privileged group or a handler wave. -/
def Obligations.PrivilegedResults : Prop := ∀ (f : RForm) s gid fid g, Calm s gid fid g → g.Quiet →
  uniActive g f.pred = true → (g.privileged || g.handler) = true →
  let p := s.part g.part
  (let base := (mapGet {} g.a f.a.toNat).pointer.toNat
   let n := (mapGet 0 g.s f.b.toNat).toNat
   let gone := fun e : TlbEntry =>
    let first := e.page / e.span * e.span
    e.part = g.part ∧ n ≠ 0 ∧ base < 65536 * (first + e.span) ∧ 65536 * first < base + n
   ∃ m, Elsewhere s m gid ∧ GroupEffect (.tlbinv f) s m gid fid 8 false g ∧
    (∀ k e, e ∈ (m.core k).tlb ↔ e ∈ (s.core k).tlb ∧ ¬ gone e) ∧
    ∀ k e, e ∈ mapGet [] m.stlb k ↔ e ∈ mapGet [] s.stlb k ∧ ¬ gone e) ∧
  (∃ t h, exec (.halt f) s = .next t ∧ Elsewhere s t gid ∧ t.group? gid = some h ∧
    (t.part g.part).hcode = mapGet 0 g.s f.a.toNat ∧ (t.part g.part).hpc = g.pcOf (g.fragLanes fid) + 8 ∧
    (t.part g.part).hgroup = BitVec.ofNat 32 (s.gridOf g % 65536 * 65536 + g.index % 65536) ∧
    (t.part g.part).hflag = true ∧ t.msix = (64 + g.part) :: s.msix ∧
    ∀ l th, g.thread? l = some th → h.thread? l = some
      (if l ∈ g.fragLanes fid then th.halt.goTo (th.pc + 8) false else th.halt)) ∧
  (p.log = [] → GroupEffect (.errlog f) s s gid fid 8 true (g.putQ 0 false)) ∧
  ∀ e rest, p.log = e :: rest → ∃ m, Elsewhere s m gid ∧ m.part g.part = { p with log := rest } ∧
    GroupEffect (.errlog f) s m gid fid 8 true ((((List.range 8).zip e.words).foldl
      (fun g x => g.putS (f.d.toNat + x.1) (BitVec.ofNat 32 x.2)) g).putQ 0 true)

/-- R295, R296: CSAVE writes the image of a trapped lane, or of its group, that a pennant names; CLOAD loads one; where the
pennant names none q0 is false. -/
def Obligations.ImageResults : Prop := ∀ (f : MForm) s gid fid g, Calm s gid fid g → g.Quiet →
  uniActive g f.pred = true → (g.privileged || g.handler) = true →
  let pen := mapGet 0 g.s f.d.toNat
  let part := (mapGet 0 g.s (f.d.toNat + 1)).toNat
  let a := (f.uniAt g).1
  let ea := (f.uniAt g).2
  part < 2 →
  ((∀ o, ¬ (s.lanePen g.part pen = some o ∧ o.2.2.2.st.isTrapped = true)) →
    GroupEffect (.csave f) s s gid fid 8 false (g.putQ 0 false) ∧
    GroupEffect (.cload f) s s gid fid 8 true (g.putQ 0 false)) ∧
  ∀ og ol o ot segs, Origin s g.part pen (og, ol, o, ot) →
    let n := imageSize o part
    let bs := if part = 0 then threadImage o ot else groupImage o
    ((s.imageSegs g a .write ea n).1 = .ok segs → s.lackingAny segs = none →
      (a.space = 1 → (s.region? g.bid g.home).isSome = true →
        ∃ m, m.mem = s.mem ∧ SameGroups s m ∧ SpadWrote s m g [(ea.toNat, bs)] ∧
          GroupStores (.csave f) s m gid fid 8 false (g.putQ 0 true)) ∧
      (a.space = 0 → a.objid = 0 → (f.order = 0 ∨ f.order = 1) → (s.core g.core).sq = [] → (s.core g.core).wc = [] →
        (imagePieces 0 segs).length ≤ 256 → ∃ m, m.mem = s.mem ∧ SameGroups s m ∧
          GroupStores (.csave f) s m gid fid 8 false (g.putQ 0 true) ∧
          ∀ x ∈ imagePieces 0 segs, ∀ j < x.2.2.2,
            Buffered m g.core gid (x.1.add (x.2.1 + j)) (bs.getD (x.2.2.1 + j) 0))) ∧
    ((s.imageSegs g a .read ea n).1 = .ok segs → s.lackingAny segs = none → a.space = 1 → og ≠ gid →
      s.placePoisoned (.spad g.bid g.home ea.toNat) n = false →
      (∀ e ∈ (s.core g.core).entries, ∀ k, e.byteAt (.spad g.bid g.home k) = none) →
      let bytes := s.placeBytes (.spad g.bid g.home ea.toNat) n
      ∃ m, m.mem = s.mem ∧ (∀ k, k ≠ og → (m.group? k).map Group.asRead = (s.group? k).map Group.asRead) ∧
        (m.group? og).map Group.asRead =
          some (if part = 0 then o.setThread ol (·.load o.vregs bytes) else o.load bytes).asRead ∧
        GroupStores (.cload f) s m gid fid 8 true (g.putQ 0 true))

/-! ## The front end's own events -/

namespace Sys2Proof.Machine

/-- Drawn threads are READY in one bundle at the end of the pending set; others stand as they did. -/
def Drawn (s u : State) (core : Nat) (xs : List (Nat × Nat)) : Prop :=
  u.mem = s.mem ∧
  (∀ g l th, (g, l) ∈ xs → s.thread? g l = some th → ∃ fr, u.thread? g l = some
    { th with st := if th.st = .binned then .ready else th.st.woken, frag := fr }) ∧
  (∀ g l, (g, l) ∉ xs → u.thread? g l = s.thread? g l) ∧
  ((s.core core).pending.length < 64 → ∃ b, (u.core core).pending = (s.core core).pending ++ [b] ∧
    ∀ g l th, (g, l) ∈ xs → u.thread? g l = some th → (g, th.frag) ∈ b.frags)

/-- Of the lists of filed threads of a core's bins, or of its callee queues, one goes next (R96, R120): as an aged one where
none has an older entry, as a full one where none that is full holds more. -/
def InTurn (s : State) (core : Nat) (aged : Bool) (all : List (List Entry)) (xs : List Entry) : Prop :=
  xs ≠ [] ∧ if aged = true then ∀ y ∈ all, y ≠ [] → oldestOf xs ≤ oldestOf y
    else s.dueAt core xs ≤ xs.length ∧ ∀ y ∈ all, y ≠ [] → y.length ≤ xs.length ∨ y.length < s.dueAt core y

end Sys2Proof.Machine

/-- R94 to R96, R98, R120: a core's front end merges fragments at one PC and bundles all that can issue; the bin or callee
queue whose turn it is, and no other, gives up the oldest thread of each lane, READY in one bundle, and keeps the rest; a
HALTED thread stays (R103). A sort of threads that have all arrived, or have aged, deals them to their slots in the order of
their keys, BINNED until the bin's hoist; threads that have been sorted wait for nothing else. -/
def Obligations.BundleEvents : Prop :=
  (∀ s core, core < 128 → (s.core core).pending = [] → ∃ u, exec (.bundleFormation core) s = .next u ∧ u.mem = s.mem ∧
    (u.core core).active.length ≤ max 8 (s.core core).active.length ∧
    ((u.fragments core).length ≤ 64 → ∀ x ∈ u.fragments core,
      ∃ b ∈ (u.core core).active ++ (u.core core).pending, x ∈ b.frags) ∧
    ∀ gid g, (gid, g) ∈ u.groups → g.core = core → g.residence = .resident → ∀ l k t t', g.thread? l = some t →
      g.thread? k = some t' → t.st.issuable = true → t'.st.issuable = true → t.pc = t'.pc → t.frag = t'.frag) ∧
  (∀ s core bin (aged : Bool) b, (s.core core).bins[bin]? = some b →
    let mine := s.hoistable b
    let turn := InTurn s core aged ((s.core core).bins.map s.hoistable) mine
    ((b.sort = true ∧ mine ≠ []) ∨ turn → (∀ x ∈ mine, s.thread? x.who.1 x.who.2 ≠ none) →
      ∃ u, exec (.binHoist core bin aged) s = .next u ∧ Drawn s u core (s.drawn core mine) ∧
        ∀ x ∈ b.entries, x.who ∉ s.drawn core mine →
          ∃ c ∈ (u.core core).bins, c.bid = b.bid ∧ c.pc = b.pc ∧ c.sort = b.sort ∧ x ∈ c.entries) ∧
    (b.sort = false → ¬ turn → exec (.binHoist core bin aged) s = .next s)) ∧
  (∀ s core q (aged : Bool) c, (s.core core).callees[q]? = some c →
    let mine := s.drawable c.entries
    let turn := InTurn s core aged ((s.core core).callees.map fun c => s.drawable c.entries) mine
    (turn → (∀ x ∈ mine, s.thread? x.who.1 x.who.2 ≠ none) →
      ∃ u, exec (.calleeQueueDrain core q aged) s = .next u ∧ Drawn s u core (s.drawn core mine) ∧
        ∀ x ∈ c.entries, x.who ∉ s.drawn core mine →
          ∃ d ∈ (u.core core).callees, d.bid = c.bid ∧ d.target = c.target ∧ x ∈ d.entries) ∧
    (¬ turn → exec (.calleeQueueDrain core q aged) s = .next s)) ∧
  ∀ (s : State) (core bin : Nat) (b : Bin), (s.core core).bins[bin]? = some b → b.sort = true →
    let ready := s.drawable (b.entries.filter fun x => !x.sorted)
    let slotBefore := fun (x y : Entry) => decide ((s.slotOf core x.who).1 < (s.slotOf core y.who).1) ||
      ((s.slotOf core x.who).1 == (s.slotOf core y.who).1 && decide ((s.slotOf core x.who).2 < (s.slotOf core y.who).2))
    let slots := sortBy slotBefore ready
    let order := sortBy (fun (x y : Entry) => decide (x.key.toNat < y.key.toNat)) slots
    ((∃ gid g l, (gid, g) ∈ s.groups ∧ g.bid = b.bid ∧ g.core = core ∧ l ∈ g.live ∧ ∀ x ∈ b.entries, x.who ≠ (gid, l)) →
      exec (.reorderSort core bin false) s = .next s) ∧
    (ready ≠ [] → (ready.map (·.who)).Nodup →
      ∃ u : State, exec (.reorderSort core bin true) s = .next u ∧ u.mem = s.mem ∧
        (∀ g l, (g, l) ∉ ready.map (·.who) → u.thread? g l = s.thread? g l) ∧
        ∀ (k : Nat) (slot x : Entry) (t here : Thread), slots[k]? = some slot → order[k]? = some x →
          s.thread? x.who.1 x.who.2 = some t → s.thread? slot.who.1 slot.who.2 = some here →
          u.thread? slot.who.1 slot.who.2 = some (t.sorted x.live here) ∧
            ∃ c ∈ (u.core core).bins, c.bid = b.bid ∧ c.pc = b.pc ∧ c.sort = true ∧
              { x with who := slot.who, sorted := true } ∈ c.entries)

/-! ## The host -/

/-- R328, R340 to R343: a launch queue's controls, the region table, a partition's page-table root and doorbell, and the
slice queues a partition commands, as the host writes them; a value out of range sets RANGE and one that the partition is
too busy for NOTQ. R325, R326, R330: the window, the error words and the other plain registers. What the host writes to a
secure partition's blocks is dropped and counted (R343). Choices of the model: the alignment of PTROOT is a range
(notes/assumptions/60), which blocks and attempts the WORLD rule covers (61), and what QCMD answers where the queue or
QLOGCAP is as after reset (63). -/
def Obligations.RegisterEvents : Prop :=
  (∀ s (v : DWord), (∀ off w, bar0Ok off w = true → s.barred off = true →
      exec (.registerWrite off w v) s = .next s.countAttempt) ∧
    (∀ q off, q < 64 → off < 32 → bar0Ok off 4 = true → s.barred (0x110000 + 32 * q) = true →
      exec (.launchQueueControlWrite q off 4 v) s = .next s.countAttempt) ∧
    ∀ p off, p < 8 → (s.part p).secure = true →
      (off < 4096 → bar0Ok off 4 = true → exec (.partitionControlWrite p off 4 v false) s = .next s.countAttempt) ∧
      exec (.qcmdCreate p) s = .next s.countAttempt ∧ exec (.qcmdReset p) s = .next s.countAttempt ∧
      exec (.qcmdDelete p) s = .next s.countAttempt) ∧
  (∀ s q (v : DWord), q < 64 → s.barred (0x110000 + 32 * q) = false → (s.lqueue q).chunk < 512 → (s.lqueue q).aging < 256 → (s.lqueue q).prio < 8 →
    let chunk := v.toNat / 2 ^ 16 % 512
    let aging := v.toNat / 256 % 256
    (1 ≤ chunk → chunk ≤ 256 → 1 ≤ aging → ∃ u, exec (.launchQueueControlWrite q 0 4 v) s = .next u ∧ u.mem = s.mem ∧
      u.lqueue q = { s.lqueue q with chunk := chunk, aging := aging, prio := v.toNat % 8 }) ∧
    (∀ p, (256 < chunk ∨ chunk = 0) → chunk ≠ (s.lqueue q).chunk → s.queueOwner q = some p →
      ∃ u, exec (.launchQueueControlWrite q 0 4 v) s = .next u ∧ (u.lqueue q).chunk = (s.lqueue q).chunk ∧
        (u.part p).flags.getLsbD 1 = true) ∧
    ∃ u, exec (.launchQueueControlWrite q 8 8 v) s = .next u ∧ u.lqueue q = { s.lqueue q with cmask0 := v }) ∧
  (∀ s n (v : DWord) (secure : Bool), n < 64 →
    let r := s.region n
    let x := { r with
      owners := v.extractLsb' 56 8, base := v.extractLsb' 30 26, valid := v.getLsbD 0
      secure := if secure then v.getLsbD 1 else r.secure }
    (r.secure = true → secure = false → exec (.regionTableWrite n 0 8 v secure) s = .next s.countAttempt) ∧
    ((r.secure = true → secure = true) →
      let m := if secure = false ∧ v.getLsbD 1 ≠ r.secure then s.countAttempt else s
      ((s.regions.any fun y => y.1 != n && x.meets y.2) = true → exec (.regionTableWrite n 0 8 v secure) s = .next m) ∧
      ((s.regions.any fun y => y.1 != n && x.meets y.2) = false → ∃ u, exec (.regionTableWrite n 0 8 v secure) s = .next u ∧
        u.mem = s.mem ∧ u.secureLog = m.secureLog ∧ u.region n = x ∧ ∀ k, k ≠ n → u.region k = s.region k))) ∧
  (∀ s p, p < 8 → (s.part p).secure = false →
    let x := s.part p
    let n := x.qnum.toNat
    let q := s.squeue n
    let ends := fun (i : Instr) (code : Nat) (q' : SQueue) => ∃ u, exec i s = .next u ∧ u.mem = s.mem ∧
      u.squeue n = q' ∧ (u.part p).qresult = BitVec.ofNat 32 code
    (q.foreign p = true → ends (.qcmdCreate p) 1 q ∧ ends (.qcmdReset p) 1 q ∧ ends (.qcmdDelete p) 1 q) ∧
    (q.foreign p = false →
      (q.state ≠ 0 → ends (.qcmdCreate p) 2 q) ∧
      (q.state = 0 → 6 ≤ x.qlogcap.toNat → ends (.qcmdCreate p) 0
        { base := x.qbase, part := p, state := 1, logcap := x.qlogcap.toNat }) ∧
      (q.state ≠ 0 → q.givers = [] → ends (.qcmdReset p) 0
        { q with head := 0, tail := 0, prod := 0, armed := false, state := 1 }) ∧
      (q.takers = [] → q.givers = [] → ends (.qcmdDelete p) 0 {}) ∧
      (q.takers ≠ [] ∨ q.givers ≠ [] → ends (.qcmdDelete p) 3 q))) ∧
  (∀ s p (v : DWord) secure, p < 8 → ((s.part p).secure = true → secure = true) →
    let x := s.part p
    (v.toNat % 65536 = 0 → s.partQuiet p = true → ∃ u, exec (.partitionControlWrite p 32 8 v secure) s = .next u ∧
      u.mem = s.mem ∧ u.part p = { x with ptroot := v }) ∧
    (v ≠ x.ptroot → s.partQuiet p = false → ∃ u, exec (.partitionControlWrite p 32 8 v secure) s = .next u ∧
      u.mem = s.mem ∧ u.part p = { x with flags := x.flags ||| 1 }) ∧
    (v ≠ x.ptroot → v.toNat % 65536 ≠ 0 → s.partQuiet p = true →
      ∃ u, exec (.partitionControlWrite p 32 8 v secure) s = .next u ∧ u.mem = s.mem ∧
        u.part p = { x with flags := x.flags ||| 2 }) ∧
    ∃ u, exec (.partitionControlWrite p 0x50 4 v secure) s = .next u ∧ u.mem = s.mem ∧
      (u.part p).dbstat = x.dbstat ||| BitVec.ofNat 32 (v.toNat % 32)) ∧
  ∀ s (v : DWord),
    (∃ u, exec (.registerWrite 0x2000 8 v) s = .next u ∧ u.mem = s.mem ∧
      u.winbase.extractLsb' 30 26 = v.extractLsb' 30 26) ∧
    (∃ u, exec (.registerWrite 0x2008 4 v) s = .next u ∧ u.mem = s.mem ∧ u.winen = v.getLsbD 0) ∧
    ∀ q, q < 64 → s.barred (0x100200 + 16 * q + 8) = false → v.getLsbD 31 = true →
      ∃ u, exec (.registerWrite (0x100200 + 16 * q + 8) 4 v) s = .next u ∧ u.lqueue q = { s.lqueue q with errValid := false }

namespace Sys2Proof.Machine

/-- The action of a doorbell bit is under way, its effect still to come, and afterwards done. -/
def Doorbell (i : Instr) (s : State) (part bit : Nat) (effect : State → Prop) : Prop :=
  (s.part part).due bit = true → ∃ u, exec i s = .next u ∧ u.mem = s.mem ∧ (u.part part).dbdone.getLsbD bit = true ∧ effect u

end Sys2Proof.Machine

/-- R325, R329, R343: an access that BAR0 does not take reads all ones; a read that it takes shows the register there, zero
of a secure partition's, which counts, and ones once the device has stopped (R349); the window reads and writes device
memory, all ones where it is closed, nothing of secure memory. R297, R301, R340: the effects of the doorbells, and the bits
that clear after them. Choices of the model: what a time slice waits for (notes/assumptions/65), how BAR2's size is coded
(75), and where the read space's words stand, by a function without a body (76). -/
def Obligations.HostEvents : Prop :=
  (∀ s off width, bar0Ok off width = false →
    exec (.bar0IllegalAccess off width true) s = .next { s with answers := .host (List.replicate width 0xFF) :: s.answers } ∧
    exec (.bar0IllegalAccess off width false) s = .next s) ∧
  (∀ s off width, bar0Ok off width = true → ∃ bs : List Byte,
    exec (.bar0IllegalAccess off width true) s = .next
      { (if s.barred off = true ∨ (0x1000 ≤ off ∧ off < 0x1400 ∧ (s.region ((off - 0x1000) / 16)).secure = true)
          then s.countAttempt else s) with answers := .host bs :: s.answers } ∧
    (s.stopped = true → bs = List.replicate width 0xFF) ∧
    (s.stopped = false →
      (s.barred off = true → bs = List.replicate width 0) ∧
      (∀ n, n < 64 → off = 0x1000 + 16 * n → width = 8 → bs = leBytes 8 (if (s.region n).secure = true then 0 else
        (s.region n).owners.toNat * 2 ^ 56 + (s.region n).base.toNat * 2 ^ 30 + (if (s.region n).valid = true then 1 else 0))) ∧
      (∀ q, q < 64 → s.barred off = false → off = 0x110000 + 32 * q → width = 4 →
        bs = leBytes 4 ((s.lqueue q).chunk % 512 * 2 ^ 16 + (s.lqueue q).aging % 256 * 256 + (s.lqueue q).prio % 8)) ∧
      (∀ n, n < 8 → s.barred off = false → width = 8 →
        (off = 0x500000 + 0x400 * n → bs = leBytes 8 (s.port n).mac.toNat) ∧
        (off = 0x500058 + 0x400 * n → bs = leBytes 8 ((s.port n).rxframes % 2 ^ 64))) ∧
      (∀ core o, core < 128 → o < 0x40000 → off = 0x1000000 + 0x40000 * core + o → width = 4 →
        bs = leBytes 4 (match Config.readPlace 0 (o / 4) with
          | some (part, i) => if (s.coreOwner core).any (fun p => (s.part p).secure) = true then 0
            else ((s.shownCore core part).word part i).toNat
          | none => 0)) ∧
      (∀ k o, k < 128 → o < 0x2000 → off = 0x3000000 + 0x2000 * k + o → width = 4 →
        bs = leBytes 4 (match Config.readPlace 1 (o / 4) with
          | some (part, i) => if (s.shownSlice k part).1.any (fun p => (s.part p).secure) = true then 0
            else ((s.shownSlice k part).2.word part i).toNat
          | none => 0)))) ∧
  (∀ s off n, off + n ≤ s.bar2Size →
    (s.stopped = true ∨ s.winen = false → exec (.bar2Read off n) s =
      .next { s with answers := .host (List.replicate n 0xFF) :: s.answers }) ∧
    (s.stopped = false → s.winen = true → ∃ u, exec (.bar2Read off n) s = .next u ∧ u.mem = s.mem ∧
      ((∃ i < n, s.securePa (s.windowPa off + i) = true) → u.secureLog = s.secureLog + 1) ∧
      u.answers = .host ((List.range n).map fun i => if inDevice (s.windowPa off + i) = false then 0xFF
        else if s.securePa (s.windowPa off + i) = true then 0 else s.byte (s.windowPa off + i)) :: s.answers)) ∧
  (∀ s off data, off + data.length ≤ s.bar2Size → s.stopped = false → s.winen = true →
    let pa := s.windowPa off
    ((∀ i < data.length, inDevice (pa + i) = true ∧ s.securePa (pa + i) = false ∧ s.sealedLine (pa + i) = none) →
      ∃ u, exec (.bar2Write off data) s = .next u ∧ u.groups = s.groups ∧
        ∀ a, u.byte a = if pa ≤ a ∧ a < pa + data.length then data.getD (a - pa) 0 else s.byte a) ∧
    (data ≠ [] → (∀ i < data.length, s.securePa (pa + i) = true) → exec (.bar2Write off data) s = .next s.countAttempt)) ∧
  (∀ s code, 10 ≤ code → code ≤ 18 →
    exec (.registerWrite bar2SizeAt 4 (BitVec.ofNat 64 code)) s = .next { s with bar2Size := 2 ^ (20 + code) }) ∧
  (∀ s part bit, bit < 5 → (s.part part).dbstat.getLsbD bit = true → (s.part part).dbdone.getLsbD bit = true →
    ∃ u, exec (.doorbellActionComplete part bit) s = .next u ∧ u.mem = s.mem ∧ u.groups = s.groups ∧
      (u.part part).dbstat = (s.part part).dbstat &&& ~~~(BitVec.ofNat 32 (2 ^ bit))) ∧
  ∀ s part,
    Doorbell (.doorbellTlbInvalidate part) s part 0 (fun u => u.groups = s.groups ∧
      ∀ k e, e ∈ (u.core k).tlb ∨ e ∈ mapGet [] u.stlb k → e.part ≠ part) ∧
    Doorbell (.doorbellIcacheInvalidate part) s part 1 (fun u => u.groups = s.groups ∧
      ∀ c ∈ s.partCores part, (u.core c).icache = []) ∧
    ((s.partGroups part .resident = [] ∧ (∀ b, b ∈ s.blocks → ∀ c, c ∈ s.copies → b.2.part = part → c.2.names b.1 = false)) →
      Doorbell (.doorbellTimeSliceOut part) s part 2 (fun u => u.groups = s.groups ∧ (u.part part).slicedOut = true)) ∧
    ((s.part part).due 2 = true →
      let mine := s.partGroups part .resident
      ((∀ x ∈ mine, s.group? x.1 = some x.2 ∧ x.2.victim = true ∧ s.evictReady x.1 x.2 = true ∧ x.2.late = [] ∧
          ∀ k q, (k, q) ∈ s.squeues → ∀ w ∈ q.givers, w.gid ≠ x.1) →
        ∃ u, exec (.doorbellTimeSliceOut part) s = .next u ∧ ((s.part part).savesize ≠ 0 →
          (∀ n, n ≤ s.groups.length → Config.saveAreaFits (s.part part).savesize.toNat n = true) → u.mem = s.mem ∧
          (∀ k, (∀ g, (k, g) ∉ mine) → u.group? k = s.group? k) ∧
          (∀ k g, (k, g) ∈ mine → ∃ h, u.group? k = some h ∧ h = { g with
            residence := .evicted, binned := h.binned, fetched := []
            threads := g.threads.map fun t => { t with st := t.st.evict, vhaz := [], phaz := [], xhaz := [] } }) ∧
          (u.partGroups part .resident = [] →
            (∀ b, b ∈ s.blocks → ∀ c, c ∈ s.copies → b.2.part = part → c.2.names b.1 = false) →
            (u.part part).slicedOut = true ∧ (u.part part).dbdone.getLsbD 2 = true))) ∧
      ((∀ x ∈ mine, x.2.victim = false ∧ s.group? x.1 = some x.2) → mine ≠ [] →
        exec (.doorbellTimeSliceOut part) s = .next s) ∧
      ∀ gid g, mine = [(gid, g)] → s.group? gid = some g → g.victim = true →
        s.evictReady gid g = false ∨ s.saveFits part = false →
        exec (.doorbellTimeSliceOut part) s = .next (s.drainGroup g.core gid).2) ∧
    (s.partGroups part .evicted = [] →
      Doorbell (.doorbellTimeSliceIn part) s part 3 (fun u => u.groups = s.groups ∧ (u.part part).slicedOut = false)) ∧
    (∀ gid g, s.partGroups part .evicted = [(gid, g)] → s.group? gid = some g → g.binned = [] →
      Doorbell (.doorbellTimeSliceIn part) s part 3 (fun u => (u.part part).slicedOut = false ∧
        (∀ k, k ≠ gid → u.group? k = s.group? k) ∧
        (s.returnFits g g.core = none → u.group? gid = some g) ∧
        ∀ x, s.returnFits g g.core = some x → u.group? gid = some { g with
          rows := x.rows, lane0 := x.lane0, residence := .resident, fetched := []
          ilk := s.interlocked g.part g.core (((s.block? g.bid).map (·.hdr)).getD {})
          threads := g.threads.map fun t => { t with st := t.st.unevict } })) ∧
    ((mapKeys s.groups).Nodup → (∀ k g, (k, g) ∈ s.groups → g.part = part → ∀ t ∈ g.threads, t.atBreak = false) →
      Doorbell (.doorbellResumeHalted part) s part 4 (fun u => (u.part part).halted = [] ∧
        ∀ k l, u.thread? k l = (s.thread? k l).map fun t =>
          if (s.group? k).map (·.part) = some part then t.unhalt else t))

/-- R276, R345, R347 to R349: the inspect and debug mailboxes, attestation, throttling and cooling, and what a cold reset
and a function-level reset keep and clear. Choices of the model: a command written while one is under way is ignored
(notes/assumptions/66), what a cold reset keeps (72), what becomes of stores on their way at a function-level reset (73),
signatures and hashes are functions without a body (74), and the addresses that the ports are assigned are a field of the
device (1). -/
def Obligations.MailboxAndResetEvents : Prop :=
  (∀ s part seq, part < 8 →
    (s.barred (0x300000 + 64 * part) = true → exec (.hinspectDoorbell part seq) s = .next s.countAttempt) ∧
    (s.barred (mailboxAt part) = true → exec (.debugNext part) s = .next s.countAttempt ∧
      exec (.dscmdSave part) s = .next s.countAttempt ∧ exec (.dscmdLoad part) s = .next s.countAttempt)) ∧
  (∀ s part seq, part < 8 → (s.part part).secure = false →
    let p := s.part part
    let a : Ask := { form := bitsAt p.hform 0 5, scope := 2, lo := p.hname.extractLsb' 0 32
                     hi := p.hname.extractLsb' 32 32, count := p.hcount.toNat }
    (p.hbusy ≠ none → ∃ u, exec (.hinspectDoorbell part seq) s = .next u ∧ u.part part = { p with hlost := true }) ∧
    (∀ r, p.hbusy = none → s.aimHost part a = .error r → ∃ u, exec (.hinspectDoorbell part seq) s = .next u ∧
      u.part part = { p with hbusy := some (none, seq, r) }) ∧
    (∀ w, p.hbusy = none → s.aimHost part a = .ok w → ∃ u id x, exec (.hinspectDoorbell part seq) s = .next u ∧
      u.part part = { p with hbusy := some (some id, seq, 0) } ∧ mapFind id u.inspects = some x ∧ x.core = none ∧
      x.form = a.plain.form ∧ x.lo = a.plain.lo ∧ x.hi = a.plain.hi ∧ x.groups = w.groups ∧ x.slice = w.slice) ∧
    (∀ r, p.hbusy = some (none, seq, r) → p.hdone.toNat % 8 = 0 → p.hdone.toNat < 2 ^ 55 →
      ∃ u, exec (.hostInspectComplete part false) s = .next u ∧
        u.part part = { p with hbusy := none, hresult := BitVec.ofNat 32 r } ∧
        u.bytes (2 ^ 55 + p.hdone.toNat) 8 = leBytes 4 seq.toNat ++ leBytes 4 r) ∧
    (∃ u, exec (.debugNext part) s = .next u ∧ u.mem = s.mem ∧ u.part part = { p with halted := p.halted.tail }) ∧
    (p.dsbusy ≠ none → exec (.dscmdSave part) s = .next s ∧ exec (.dscmdLoad part) s = .next s) ∧
    ∀ (load : Bool) (cmd : Instr), (load = false ∧ cmd = .dscmdSave part) ∨ (load = true ∧ cmd = .dscmdLoad part) →
      let c : PortCommand := { load := load, addr := p.dsaddr, pen := p.dspen, part := p.dspart }
      p.dsbusy = none →
      (∀ r, s.dsTarget part c = .error r → ∃ u, exec cmd s = .next u ∧ u.mem = s.mem ∧ u.groups = s.groups ∧
        (u.part part).dsresult = BitVec.ofNat 32 r ∧ (u.part part).dsbusy = none) ∧
      ∀ gid l g t, s.dsTarget part c = .ok (gid, l, g, t) →
        (s.stateSettled gid l g = false → ∃ u, exec cmd s = .next u ∧ u.mem = s.mem ∧ u.groups = s.groups ∧
          u.part part = { p with dsbusy := some c }) ∧
        (s.stateSettled gid l g = true → p.dspart = 0 ∨ p.dspart = 1 →
          let n := imageSize g p.dspart.toNat
          let pa := p.dsaddr.toNat
          let bs := if p.dspart = 0 then threadImage g t else groupImage g
          (load = false → (∀ i < n, s.sealedLine (pa + i) = none) → ∃ u, exec cmd s = .next u ∧ u.groups = s.groups ∧
            (u.part part).dsresult = 0 ∧ (u.part part).dsbusy = none ∧
            ∀ a, u.byte a = if pa ≤ a ∧ a < pa + n then bs.getD (a - pa) 0 else s.byte a) ∧
          (load = true → s.poisoned pa n = true → ∃ u, exec cmd s = .next u ∧ u.mem = s.mem ∧ u.groups = s.groups ∧
            (u.part part).dsresult = 4) ∧
          (load = true → s.poisoned pa n = false → s.group? gid = some g → ∃ u, exec cmd s = .next u ∧ u.mem = s.mem ∧
            (u.part part).dsresult = 0 ∧ u.group? gid = some (if p.dspart = 0 then
              g.setThread l (·.load g.vregs (s.bytes pa n)) else g.load (s.bytes pa n))))) ∧
  (∀ s, (s.attesting = false → exec (.attestationRequest 1) s = .next { s with attesting := true, attested := false }) ∧
    (s.attesting = true → ∃ u, exec .attestationReportDone s = .next u ∧ u.attesting = false ∧ u.attested = true ∧
      u.report.take 4 = leBytes 4 1 ∧ u.report.drop 168 = leBytes 64 (Config.signature s.reportBody).toNat ∧
      (u.report.drop 136).take 32 = (List.range 32).map fun i => s.nonce.getD i 0) ∧
    (∀ stack, stack < 4 → exec (.thermalThrottle stack) s = .next { s with slowed := setAdd stack s.slowed }) ∧
    exec .coolingShutdown s = .next { s with stopped := true }) ∧
  (∀ s r, ∃ u, exec (.coldReset r) s = .next u ∧ u.groups = [] ∧ u.launches = [] ∧ u.parts = [] ∧ u.cores = [] ∧
    u.stopped = false ∧ u.bindings = goodBindings r.bindings ∧ u.members = s.members ∧ u.domain = s.domain ∧
    ((mapKeys s.macs).Nodup → ∀ k, u.port k = { mac := mapGet 0 s.macs k }) ∧
    ∀ a, u.byte a = if isNear a = true then 0 else s.byte a) ∧
  ∀ s, s.net = [] → (mapKeys s.cores).Nodup → (mapKeys s.ports).Nodup → ∃ u, exec .functionLevelReset s = .next u ∧ u.mem = s.mem ∧ u.poison = s.poison ∧ u.groups = [] ∧
    u.launches = [] ∧ u.blocks = [] ∧ u.parts = [] ∧ u.squeues = [] ∧ u.bindings = s.bindings ∧ u.domain = s.domain ∧
    u.members = s.members ∧ u.firmware = s.firmware ∧ ∀ k, (u.core k).rng = (s.core k).rng ∧
      (u.core k).cycle = (s.core k).cycle ∧ (u.port k).mac = (s.port k).mac

/-! ## The Ethernet ports and the Veleel Link -/

namespace Sys2Proof.Machine

/-- A completion of a port: behind those that wait where its queue has no room, else the queue's next entry (R336). -/
def Completes (s u : State) (n kind status tag : Nat) : Prop :=
  let w := BitVec.ofNat 32 (kind * 2 ^ 28 + status * 2 ^ 24 + tag % 2 ^ 24)
  let k := (s.port n).cq
  let q := s.squeue k
  (s.cqRoom n = false → (u.port n).held = (s.port n).held ++ [w] ∧ u.mem = s.mem) ∧
  (s.cqRoom n = true → q.takers = [] → ∀ m, s.deviceWrite q.part (q.entry q.tail) (leBytes 4 w.toNat) = .ok m →
    u.mem = m.mem ∧ u.squeue k = { q with tail := q.tail + 1 })

/-- A frame has gone out since. -/
def Sent (s u : State) (f : TxFrame) : Prop := u.wire = f :: s.wire

/-- The descriptors of the requests that a port has under way, in the order in which it gives them up. -/
def Port.taken (p : Port) : List Nat :=
  (p.contexts.flatMap fun x => x.2.out.map (·.idx) ++ (x.2.recv.map (·.1.idx)).toList)
    ++ (p.blOut.flatMap fun x => (x.2.out.map (·.idx)).eraseDups) ++ p.posted.map (·.idx)

end Sys2Proof.Machine

/-- R335, R336, R338: a port's control block is written while the port is disabled; ENABLE, where its conditions hold, has
it read its contexts and register on its completion queue, DISABLE completes with STATUS 6 what is under way and forgets
it; a send request becomes frames or completes with what is wrong, behind the requests before it; a receive request posts
its buffer. Choices of the model: a disabled port forgets its Bowline sequences (notes/assumptions/69), a registration does
not arm CQ (71), and what a port holds of requests under way outlasts QPLOAD (70). -/
def Obligations.PortEvents : Prop := ∀ s n, n < 8 →
  let p := s.port n
  (s.barred (portAt n) = true → ∀ v : DWord, exec (.portControlWrite n 0 8 v) s = .next s.countAttempt ∧
    (p.enabled = false → exec (.portEnable n) s = .next s.countAttempt) ∧
    (p.enabled = true → exec (.portDisable n) s = .next s.countAttempt) ∧ ∀ i, exec (.qpload n i) s = .next s.countAttempt) ∧
  (s.barred (portAt n) = false →
    (∀ v : DWord,
      (p.enabled = false → ∃ u, exec (.portControlWrite n 0 8 v) s = .next u ∧ u.mem = s.mem ∧
        u.port n = { p with mac := v.setWidth 48 }) ∧
      (p.enabled = true → v.setWidth 48 ≠ p.mac → ∃ u, exec (.portControlWrite n 0 8 v) s = .next u ∧ u.mem = s.mem ∧
        u.port n = { p with notq := true })) ∧
    (p.enabled = false → s.portReady n p = false → ∃ u, exec (.portEnable n) s = .next u ∧ u.mem = s.mem ∧
      u.port n = { p with range := true }) ∧
    (∀ o, p.enabled = false → s.portReady n p = true → s.portOwner n = some o → ∃ u, exec (.portEnable n) s = .next u ∧
      u.mem = s.mem ∧ (u.port n).enabled = true ∧ u.squeue p.cq = { s.squeue p.cq with prod := (s.squeue p.cq).prod + 1 } ∧
      ∀ i < p.qpcount, ∀ bs, s.portRead o (p.qpbase.toNat + 128 * i) 128 = .ok bs →
        let old := mapGet {} p.contexts i
        mapFind i (u.port n).contexts = some { RoceContext.ofBytes bs with out := old.out, recv := old.recv }) ∧
    (p.enabled = true → ∃ u, exec (.portDisable n) s = .next u ∧ (u.port n).enabled = false ∧ (u.port n).contexts = [] ∧
      (u.port n).posted = [] ∧ (u.port n).blOut = [] ∧ (u.port n).blIn = [] ∧
      (p.taken = [] ∨ (s.squeue p.cq).takers = [] → (u.squeue p.cq).prod = (s.squeue p.cq).prod - 1) ∧
      (s.cqRoom n = false → (u.port n).held = p.held ++
        p.taken.map fun i => BitVec.ofNat 32 (15 * 2 ^ 28 + 6 * 2 ^ 24 + i % 2 ^ 24)) ∧
      ∀ i m, p.taken = [i] → p.contexts = [] → s.cqRoom n = true → (s.squeue p.cq).takers = [] →
        s.deviceWrite (s.squeue p.cq).part ((s.squeue p.cq).entry (s.squeue p.cq).tail)
          (leBytes 4 (15 * 2 ^ 28 + 6 * 2 ^ 24 + i % 2 ^ 24)) = .ok m →
        u.mem = m.mem ∧ (u.squeue p.cq).tail = (s.squeue p.cq).tail + 1) ∧
    (∀ o i bs, p.enabled = true → s.portOwner n = some o → i < p.qpcount →
      s.portRead o (p.qpbase.toNat + 128 * i) 128 = .ok bs → ∃ u, exec (.qpload n i) s = .next u ∧ u.mem = s.mem ∧
        let old := mapGet {} p.contexts i
        mapFind i (u.port n).contexts = some { RoceContext.ofBytes bs with out := old.out, recv := old.recv })) ∧
  ∀ o w t, s.portTakes n = some o →
    (s.takeEntry p.recvq = some (some w, t) → ∀ d, t.readDesc o n w = .ok d → d.op = 4 → 0 < d.len → d.len ≤ 2 ^ 24 →
      ∃ u, exec (.portRecvPost n) s = .next u ∧ u.mem = t.mem ∧ (u.port n).posted = (t.port n).posted ++
        [⟨w.toNat % 65536, BitVec.ofNat 64 d.laddr, d.len⟩]) ∧
    (s.takeEntry p.sendq = some (some w, t) →
      let idx := w.toNat % 65536
      (∀ e, t.readDesc o n w = .error e → ∃ u, exec (.portSendRequest n) s = .next u ∧ Completes t u n 15 e idx) ∧
      (∀ d, t.readDesc o n w = .ok d → d.op = 0 ∨ (4 ≤ d.op ∧ d.op ≤ 7) ∨ 9 < d.op → ∃ u, exec (.portSendRequest n) s = .next u ∧
        Completes t u n 15 7 idx) ∧
      (∀ d e, t.readDesc o n w = .ok d → 0 < d.len → d.len ≤ 2 ^ 24 → t.portRead o d.laddr d.len = .error e →
        (d.op = 8 ∨ d.op = 9 → (t.port n).bowline = true →
          let b := mapGet {} (t.port n).blOut d.dmac
          (b.out = [] → ∃ u, exec (.portSendRequest n) s = .next u ∧ u.wire = t.wire ∧ Completes t u n 15 e idx) ∧
          ∀ x rest, b.out = x :: rest → x.fail = none → ∃ u, exec (.portSendRequest n) s = .next u ∧ u.mem = t.mem ∧
            u.wire = t.wire ∧ (mapGet {} (u.port n).blOut d.dmac).out =
              b.out ++ [{ seq := b.next, idx := idx, last := true, fail := some e }]) ∧
        ∀ c, d.op = 1 ∨ d.op = 2 → (t.port n).roce = true → d.qp < (t.port n).qpcount →
          mapFind d.qp (t.port n).contexts = some c → c.state = 1 →
          (c.out = [] → ∃ u, exec (.portSendRequest n) s = .next u ∧ u.wire = t.wire ∧ Completes t u n 15 e idx) ∧
          ∀ x rest, c.out = x :: rest → x.fail = none → x.acked = false → ∃ u, exec (.portSendRequest n) s = .next u ∧
            u.mem = t.mem ∧ u.wire = t.wire ∧ mapFind d.qp (u.port n).contexts =
              some { c with out := c.out ++ [{ idx := idx, first := c.spsn, last := c.spsn, fail := some e }] }) ∧
      ∀ d bs, t.readDesc o n w = .ok d → 0 < d.len → d.len ≤ 2 ^ 24 → d.len ≤ (t.port n).mtu →
        (d.op = 3 ∨ t.portRead o d.laddr d.len = .ok bs) → bs.length = d.len →
        (d.op = 8 ∨ d.op = 9 → (t.port n).bowline = true →
          let b := mapGet {} (t.port n).blOut d.dmac
          ∃ u, exec (.portSendRequest n) s = .next u ∧ u.mem = t.mem ∧
            Sent t u { port := n, kind := if d.op = 9 then .blFlag else .blWrite, dest := d.dmac, seq := b.next
                       addr := d.raddr, imm := if d.op = 9 then d.imm &&& 0xFFFFFF else 0, payload := bs } ∧
            mapGet {} (u.port n).blOut d.dmac =
              { next := b.next + 1, out := b.out ++ [{ seq := b.next, idx := idx, last := true }] }) ∧
        ∀ c, 1 ≤ d.op → d.op ≤ 3 → (t.port n).roce = true → d.qp < (t.port n).qpcount →
          mapFind d.qp (t.port n).contexts = some c → c.state = 1 →
          ∃ u, exec (.portSendRequest n) s = .next u ∧ u.mem = t.mem ∧
            Sent t u { port := n, kind := if d.op = 1 then .send else if d.op = 2 then .write else .readRequest
                       dest := d.qp, seq := c.spsn.setWidth 32, addr := if d.op = 1 then 0 else d.raddr
                       imm := if d.op = 1 then 0 else d.rkey, header := c.header
                       payload := if d.op = 3 then leBytes 4 d.len else bs } ∧
            mapFind d.qp (u.port n).contexts = some { c with
              spsn := c.spsn + 1
              out := c.out ++ [if d.op = 3 then { idx := idx, first := c.spsn, last := c.spsn, read := true
                                                  addr := BitVec.ofNat 64 d.laddr, len := d.len }
                else { idx := idx, first := c.spsn, last := c.spsn }] })

/-- R337: Bowline accepts only the next frame of its sender, in the window, and acknowledges it; an acknowledgement takes
frames away up to the one it names, a refusal ends that frame's message, and so does a timeout once a frame has gone out
again eight times; other timeouts send again what is not acknowledged. Sequences that start at 0, the numbers of what
follows a message that ended, and answers that name no frame under way are the model's choice (notes/assumptions/69). -/
def Obligations.BowlineEvents : Prop := ∀ s n o, s.rxPort n Port.bowline = some o →
  let p := s.port n
  (∀ f : BowlineFrame,
    let mac := f.smac.toNat
    let want := mapGet 0 p.blIn mac
    let inWindow := p.rxbase.toNat ≤ f.addr.toNat ∧ f.addr.toNat + f.len.toNat ≤ p.rxbase.toNat + p.rxlen.toNat ∧ p.rxlen ≠ 0
    let reply := fun k q => ({ port := n, kind := k, dest := mac, seq := q } : TxFrame)
    f.ver = 1 → (f.opc = 1 ∨ f.opc = 2) → f.payload.length = f.len.toNat → f.len.toNat ≤ p.mtu →
    (f.seq ≠ want → ∃ u, exec (.bowlineDataFrameRx n f) s = .next u ∧ u.mem = s.mem ∧ Sent s u (reply .blAck (want - 1)) ∧
      (u.port n).rxdrops = satAdd p.rxdrops 1) ∧
    (f.seq = want → ¬ inWindow → ∃ u, exec (.bowlineDataFrameRx n f) s = .next u ∧ u.mem = s.mem ∧
      Sent s u (reply .blNak want) ∧ (u.port n).rxdrops = satAdd p.rxdrops 1) ∧
    ∀ m, f.seq = want → inWindow → s.portWrite o f.addr.toNat f.payload = .done m →
      (f.opc = 1 → ∃ u, exec (.bowlineDataFrameRx n f) s = .next u ∧ u.mem = m.mem ∧ Sent s u (reply .blAck want) ∧
        mapGet 0 (u.port n).blIn mac = want + 1 ∧ (u.port n).rxframes = satAdd p.rxframes 1) ∧
      (f.opc = 2 → s.cqRoom n = true → ∃ u, exec (.bowlineDataFrameRx n f) s = .next u ∧ Sent s u (reply .blAck want) ∧
        mapGet 0 (u.port n).blIn mac = want + 1 ∧ Completes m u n 4 0 (f.imm.toNat % 2 ^ 24))) ∧
  ∀ mac : BitVec 48,
    let b := mapGet {} p.blOut mac.toNat
    let out := fun (u : State) => mapGet {} (u.port n).blOut mac.toNat
    (∀ seq, (∀ y ∈ b.out, y.fail ≠ none ∨ y.seq ≠ seq) → ∀ e, (e = .bowlineAckRx n mac seq ∨ e = .bowlineNakRx n mac seq) →
      ∃ u, exec e s = .next u ∧ u.mem = s.mem ∧ u.wire = s.wire ∧ out u = b ∧ (u.port n).rxdrops = satAdd p.rxdrops 1) ∧
    (∀ x y, b.out = [x, y] → x.last = false → x.fail = none → y.last = true → y.fail = none → x.seq ≠ y.seq →
      (∃ u, exec (.bowlineAckRx n mac x.seq) s = .next u ∧ u.mem = s.mem ∧ out u = { b with out := [y] }) ∧
      ∃ u, exec (.bowlineAckRx n mac y.seq) s = .next u ∧ out u = { b with out := [] } ∧ Completes s u n 1 0 y.idx) ∧
    (∀ x y f, b.out = [x, y] → x.fail = none → y.fail = none → y.idx ≠ x.idx →
      s.sentFrame n [.blWrite, .blFlag] mac.toNat y.seq = some f → ∃ u, exec (.bowlineNakRx n mac x.seq) s = .next u ∧
        Sent s u { f with seq := x.seq } ∧
        out u = { next := x.seq + 1, out := [{ y with seq := x.seq, tries := 0 }] } ∧ Completes s u n 15 1 x.idx) ∧
    ∀ x, b.out = [x] → x.last = true → x.fail = none →
      (∃ u, exec (.bowlineAckRx n mac x.seq) s = .next u ∧ out u = { b with out := [] } ∧ Completes s u n 1 0 x.idx ∧
        (u.port n).rxframes = satAdd p.rxframes 1) ∧
      (∃ u, exec (.bowlineNakRx n mac x.seq) s = .next u ∧ out u = { next := x.seq, out := [] } ∧ Completes s u n 15 1 x.idx ∧
        (u.port n).rxframes = satAdd p.rxframes 1) ∧
      (8 ≤ x.tries → ∃ u, exec (.bowlineResendTimeout n mac) s = .next u ∧ out u = { next := x.seq, out := [] } ∧
        Completes s u n 15 2 x.idx) ∧
      ∀ f, x.tries < 8 → s.sentFrame n [.blWrite, .blFlag] mac.toNat x.seq = some f → ∃ u,
        exec (.bowlineResendTimeout n mac) s = .next u ∧ u.mem = s.mem ∧ Sent s u f ∧
        out u = { b with out := [{ x with tries := x.tries + 1 }] } ∧ (u.port n).resends = satAdd p.resends 1

/-- R338: a RoCE request packet with the PSN expected writes or reads where its key admits it, or fills a posted buffer; one
that is there already is answered again, any other is dropped; answers complete requests in order; a receiver that is not
ready and a timeout have packets sent again, and at last fail the context, as another NAK does at once. What R338 leaves to
the InfiniBand specification (duplicates, receiver-not-ready) is the model's choice (notes/assumptions/70). -/
def Obligations.RoceEvents : Prop := ∀ s n o i c, s.rxContext n i = some (o, c) → n < 8 →
  let p := s.port n
  let frame := fun k (psn : BitVec 24) bs =>
    ({ port := n, kind := k, dest := i, seq := psn.setWidth 32, payload := bs, header := c.header } : TxFrame)
  let ctx := fun (u : State) (f : RoceContext → RoceContext) => mapFind i (u.port n).contexts = some (f c)
  let failed := fun (u : State) => ctx u fun c => { c with state := 2, out := [], recv := none, tries := 0 }
  (∀ k : RocePacket, k.context = i →
    let had := k.psn ≠ c.rpsn ∧ (c.rpsn - k.psn).toNat ≤ 2 ^ 23
    let dropped := fun (u : State) => u.mem = s.mem ∧ (u.port n).rxdrops = satAdd p.rxdrops 1 ∧ ctx u id
    (k.psn ≠ c.rpsn → ¬ had → ∀ e, (e = .roceRdmaWriteRx n k ∨ e = .roceRdmaReadRx n k ∨ e = .roceSendRx n k) →
      ∃ u, exec e s = .next u ∧ u.wire = s.wire ∧ dropped u) ∧
    (had →
      (∀ e, (e = .roceRdmaWriteRx n k ∨ e = .roceSendRx n k) →
        ∃ u, exec e s = .next u ∧ dropped u ∧ Sent s u (frame .ack (c.rpsn - 1) [])) ∧
      ∀ bs, s.keyAdmits o n k.key k.addr.toNat k.len.toNat 0 = true → s.portRead o k.addr.toNat k.len.toNat = .ok bs →
        0 < bs.length → bs.length ≤ p.mtu → ∃ u, exec (.roceRdmaReadRx n k) s = .next u ∧ dropped u ∧
          Sent s u (frame .readResponse k.psn bs)) ∧
    (k.psn = c.rpsn →
      let size := max k.len.toNat k.payload.length
      (s.keyAdmits o n k.key k.addr.toNat size 1 = false → ∃ u, exec (.roceRdmaWriteRx n k) s = .next u ∧ u.mem = s.mem ∧
        Sent s u (frame .accessNak k.psn [])) ∧
      (∀ m, s.keyAdmits o n k.key k.addr.toNat size 1 = true → s.portWrite o k.addr.toNat k.payload = .done m →
        ∃ u, exec (.roceRdmaWriteRx n k) s = .next u ∧ u.mem = m.mem ∧ Sent s u (frame .ack k.psn []) ∧
          ctx u fun c => { c with rpsn := c.rpsn + 1 }) ∧
      (∀ bs, s.keyAdmits o n k.key k.addr.toNat k.len.toNat 0 = true → s.portRead o k.addr.toNat k.len.toNat = .ok bs →
        0 < bs.length → bs.length ≤ p.mtu → ∃ u, exec (.roceRdmaReadRx n k) s = .next u ∧ u.mem = s.mem ∧
          Sent s u (frame .readResponse k.psn bs) ∧ ctx u fun c => { c with rpsn := c.rpsn + 1 }) ∧
      (c.recv = none → p.posted = [] → ∃ u, exec (.roceSendRx n k) s = .next u ∧ u.mem = s.mem ∧
        Sent s u (frame .rnrNak k.psn [])) ∧
      ∀ b got m, c.recv = some (b, got) ∨ (c.recv = none ∧ got = 0 ∧ p.posted.head? = some b) → k.last = false →
        s.portWrite o (b.addr.toNat + got) (k.payload.take (b.cap - got)) = .done m →
        ∃ u, exec (.roceSendRx n k) s = .next u ∧ u.mem = m.mem ∧ Sent s u (frame .ack k.psn []) ∧
          ctx u fun c => { c with rpsn := c.rpsn + 1, recv := some (b, got + k.payload.length) }) ∧
    (∃ u, exec (.roceAtomicRequestRx n k) s = .next u ∧ u.mem = s.mem ∧ Sent s u (frame .invalidNak k.psn [])) ∧
    ∀ r m, c.out = [r] → r.read = true → r.acked = false → r.fail = none → k.psn = r.first + BitVec.ofNat 24 r.packets →
      r.got + k.payload.length < r.len →
      s.portWrite o (r.addr.toNat + r.got) (k.payload.take (r.len - r.got)) = .done m →
      ∃ u, exec (.rdmaReadResponseRx n k) s = .next u ∧ u.mem = m.mem ∧ ctx u fun c =>
        { c with tries := 0, out := [{ r with got := r.got + k.payload.length, packets := r.packets + 1 }] }) ∧
  (∀ r psn, c.out = [r] → r.read = false → r.fail = none → (psn - r.last).toNat < 2 ^ 23 →
    ∃ u, exec (.roceAckRx n i psn) s = .next u ∧ (ctx u fun c => { c with tries := 0, out := [] }) ∧
      Completes s u n 1 0 r.idx) ∧
  (∃ u, exec (.roceNakRx n { context := i }) s = .next u ∧ failed u) ∧
  ((c.out.filter fun r => !r.acked) ≠ [] → ∀ e, (e = .roceAckTimeout n i ∨ e = .roceNakRx n { context := i, notReady := true }) →
    (c.retry ≤ c.tries → ∃ u, exec e s = .next u ∧ failed u) ∧
    (c.tries < c.retry → ∃ u, exec e s = .next u ∧ u.mem = s.mem ∧
      u.wire = (s.waitingFrames n i c).reverse ++ s.wire ∧ ctx u fun c => { c with tries := c.tries + 1 })) ∧
  ∃ u, exec (.frameDropped n) s = .next u ∧ u.mem = s.mem ∧ (u.port n).rxdrops = satAdd p.rxdrops 1

/-- R246, R278, R332, R333: a peer's load, store or atomic is served at its home where the region admits the partition that
it names (in this device's own table, notes/assumptions/67), and answered PROT elsewhere; the halves of a packed addition
are requests of their own (R245); a peer's inspect is begun; a flit error changes nothing; a timeout answers POISON, gives a
store up, or has an INSPECT's handles and lanes see FAULTED (R267). -/
def Obligations.LinkEvents : Prop :=
  (∀ s dev part pa, s.members.getLsbD dev = true → dev ≠ s.domain → s.stopped = false →
    let arrives := fun k => exec (.peerRequestArrival ⟨dev, part, pa, k⟩) s
    let may := fun n => (∀ i < n, inDevice (pa + i) = true ∧ s.admits part (pa + i) = true) ∧ s.placeBlocked (.mem pa) n = false
    (s.admits part pa = false →
      let no := Host.Outcome.next (s.answerPeer dev [] (some 7))
      (∀ n, 0 < n → arrives (.load n) = no) ∧ (∀ bs, bs ≠ [] → arrives (.store bs) = no) ∧
      (∀ op ty x, ty < 5 → arrives (.atomic op ty x) = no) ∧ (∀ ty x y, ty < 5 → arrives (.cas ty x y) = no) ∧
      ∀ ty x, arrives (.padd2 ty x) = no) ∧
    (∀ n bs, (may n → s.poisoned pa n = false → arrives (.load n) = .next (s.answerPeer dev (s.bytes pa n) none)) ∧
      (may bs.length → (∀ i < bs.length, s.sealedLine (pa + i) = none) → ∃ u, arrives (.store bs) = .next u ∧
        u.answers = .peer dev [] none :: s.answers ∧ u.groups = s.groups ∧
        ∀ a, u.byte a = if pa ≤ a ∧ a < pa + bs.length then bs.getD (a - pa) 0 else s.byte a)) ∧
    (∀ op ty x, let n := atomBytes ty
      may n → s.poisoned pa n = false → pa % n = 0 → s.sealedLine pa = none →
      let old := leNat (s.bytes pa n)
      ∃ u, arrives (.atomic op ty x) = .next u ∧ u.answers = .peer dev (leBytes n old) none :: s.answers ∧
        u.bytes pa n = leBytes n (({ op := op, ty := ty, operand := x.toNat } : AtomOp).apply true old)) ∧
    (∀ ty x y, let n := atomBytes ty
      may n → s.poisoned pa n = false → pa % n = 0 → s.sealedLine pa = none →
      let old := leNat (s.bytes pa n)
      ∃ u, arrives (.cas ty x y) = .next u ∧ u.answers = .peer dev (leBytes n old) none :: s.answers ∧ u.bytes pa n =
        leBytes n (if old = y.toNat % 2 ^ (8 * n) then x.toNat else old)) ∧
    (∀ ty x, may 4 → ∃ u, arrives (.padd2 ty x) = .next u ∧ u.mem = s.mem ∧ ∃ r, u.net = s.net ++ [r] ∧
      r.core = 128 + dev ∧ r.slice = homeOf pa ∧ r.part = part ∧
      r.kind = .atomic (.mem pa) 4 { op := 0, ty := ty, padd := true, operand := x.toNat } [] 0) ∧
    ∀ form lo hi count gs, form < 3 →
      let a := ({ form := form, scope := 2, lo := lo, hi := hi, count := count } : Ask).plain
      s.named part a = .ok gs → ∃ u id x, arrives (.inspect form lo hi count) = .next u ∧ u.mem = s.mem ∧
        mapFind id u.inspects = some x ∧ x.peer = some dev ∧ x.groups = gs ∧ x.part = part ∧ x.core = none) ∧
  (∀ s link, exec (.linkFlitError link) s = .next s) ∧
  (∀ s id x core dev, (s.net.find? fun r => r.id == id && r.kind.remote) = none → mapFind id s.inspects = some x →
    x.core = some core → x.peer = some dev → ∃ u, exec (.linkTimeout id) s = .next u ∧ u.mem = s.mem ∧
      mapFind id u.inspects = none ∧
      (x.pends = [] → ∀ j l, u.thread? j l = (s.thread? j l).map fun t =>
        x.handles.foldl (fun t h => t.resolve core h.1 h.2 none) t) ∧
      ∀ p q l g th, x.pends = [p] → x.handles = [] → mapFind p s.pends = some q → q.id = p → q.wait = 1 →
        q.dest = .answer → q.lanes = [l] → s.group? q.gid = some g → g.thread? l = some th → th.trap = none →
        th.st = .parked (.answer p) →
        Kills s g 0x0C ∨ ∃ h th', u.group? q.gid = some h ∧ h.thread? l = some th' ∧ th'.pc = q.pc ∧
          (th'.st = .trapped ∨ th'.st = .halted .trapped) ∧ th'.trap.map (fun i => (i.cause, i.pc)) = some (0x0C, q.pc)) ∧
  ∀ s req r, (s.net.find? fun r => r.id == req && r.kind.remote) = some r →
    let gone := fun (u : State) => u.mem = s.mem ∧ ∀ x ∈ u.net, x.id ≠ req
    (∀ p n pend k fill, r.kind = .load p n pend k fill → ∃ u, exec (.linkTimeout req) s = .next u ∧ gone u ∧
      ∃ y ∈ u.replies, y.core = r.core ∧ y.pend = pend ∧ y.cause = some (0x11, p.address)) ∧
    (∀ p n op lanes obj, r.kind = .atomic p n op lanes obj → ∃ u, exec (.linkTimeout req) s = .next u ∧ gone u ∧
      ∀ x ∈ lanes, ∃ y ∈ u.replies, y.core = r.core ∧ y.pend = x.pend ∧ y.cause = some (0x11, p.address)) ∧
    ∀ st, r.kind = .store st → ∃ u, exec (.linkTimeout req) s = .next u ∧ gone u ∧
      (∀ e ∈ (u.core r.core).wt ++ (u.core r.core).wc, e.same st = true → e.applied = true) ∧
      ∃ e ∈ (u.part st.part).log, e.kind = 7 ∧ e.cause = 0x11 ∧ e.core = r.core

/-- R125: inside an open meld region the control-flow, rejoin, meld, regrouping and migration instructions raise MELDERR
for every lane of the fragment, whatever their predicates, and commit no effect. -/
def Obligations.MeldRule : Prop := ∀ (f : RForm) (b : I24Form) (e : I16Form) s gid fid g, Calm s gid fid g → g.region = true →
  let all := fun i : Instr => LanesTrap i s gid g (g.fragLanes fid) 0x0F
  (laneGuard g false e.pred [] false = none → all (.brx e)) ∧
  (laneGuard g false f.pred [] false = none →
    all (.ret f) ∧ all (.join f) ∧ all (.waitj f) ∧ all (.reform f)) ∧
  (laneGuard g false f.pred [(f.a.toNat, 2)] false = none → all (.callq f)) ∧
  all (.bra b) ∧ all (.jmpi f) ∧ all (.call b) ∧ all (.meld f) ∧ all (.mtbl f) ∧ all (.reorder f) ∧ all (.eqpt e) ∧
  all (.migrate f)

/-- R42, R157: a uniform-set instruction whose uniform predicate is false does nothing but go on, and opens no region;
that a privileged one then checks no privilege is the model's reading (notes/assumptions/40, DEDUCED). -/
def Obligations.UniformSkips : Prop := ∀ (f : RForm) (m : MForm) (x : I16Form) (b : I24Form) s gid fid g, Calm s gid fid g →
  let goes := fun i : Instr => GroupEffect i s s gid fid 8 false g
  (uniActive g x.pred = false → goes (.umovi x) ∧ goes (.umovh x) ∧ goes (.ursr x) ∧ goes (.uwsr x)) ∧
  (uniActive g (b.d.setWidth 4) = false → g.region = false → goes (.bra b)) ∧
  (uniActive g m.pred = false →
    goes (.ald m) ∧ goes (.ldu m) ∧ goes (.stu m) ∧ goes (.odecl m) ∧ goes (.tld m) ∧ (g.tst = none → goes (.tst m)) ∧
    goes (.boinit m) ∧ goes (.boarrive m) ∧ goes (.boexpect m) ∧ goes (.bowait m) ∧ goes (.botest m) ∧ goes (.csave m) ∧
    goes (.cload m)) ∧
  (uniActive g f.pred = false →
    goes (.uadd f) ∧ goes (.usub f) ∧ goes (.umul f) ∧ goes (.umulh f) ∧ goes (.umad f) ∧ goes (.umin f) ∧ goes (.umax f) ∧
    goes (.ucmp f) ∧ goes (.usel f) ∧ goes (.uand f) ∧ goes (.uor f) ∧ goes (.uxor f) ∧ goes (.unot f) ∧ goes (.ushl f) ∧
    goes (.ushr f) ∧ goes (.usar f) ∧ goes (.upopc f) ∧ goes (.uclz f) ∧ goes (.uplop f) ∧ goes (.uread f) ∧
    goes (.aset f) ∧ goes (.aget f) ∧ goes (.adv f) ∧ goes (.anarrow f) ∧ goes (.icinv f) ∧ goes (.fbar f) ∧
    goes (.pin f) ∧ goes (.unpin f) ∧ goes (.ofree f) ∧ goes (.seal f) ∧ goes (.unseal f) ∧ goes (.oquery f) ∧
    (g.region = false → goes (.jmpi f)) ∧ goes (.uspawn f) ∧ goes (.gridwait f) ∧ goes (.tzero f) ∧ goes (.tmov f) ∧
    goes (.tcvt f) ∧ goes (.talloc f) ∧ goes (.tfree f) ∧ goes (.tstat f) ∧ goes (.srstat f) ∧ goes (.istat f) ∧
    goes (.ccount f) ∧ goes (.tlbinv f) ∧ goes (.halt f) ∧ goes (.errlog f))

/-! ## Checks of an access -/

namespace Sys2Proof.Machine

/-- The first check of R167 and R221 that an access of LD or ST fails, as the page tables and the object tables have it:
POISON apart, which is judged where the bytes are served. -/
def accessCause (s : State) (g : Group) (a : AddrReg) (store : Bool) (ea n : Nat) : Option Nat :=
  let obj := s.object? a.objid
  if a.space ≠ 0 ∧ a.space ≠ 3 then some 0x16
  else if ea < a.base.toNat ∨ a.base.toNat + a.limit.toNat < ea + n then some 0x04
  else if (if store then a.canW else a.canR) = false then some 0x05
  else if ea % n ≠ 0 then some 0x08
  else if 2 ^ 56 ≤ ea then some 0x16
  else
    match s.walk g.part ea with
    | none => some 0x06
    | some e =>
      let pa := e.pa ea
      if (if store then e.w else e.r) = false then some 0x07
      else if inDevice pa = true ∧ s.admits g.part pa = false then some 0x07
      else if inDevice pa = false ∧ s.window pa = false then some 0x16
      else if (a.space = 0 ∧ inDevice pa = false) ∨ (a.space = 3 ∧ inDevice pa = true) then some 0x16
      else if a.objid ≠ 0 ∧ (∀ o, obj = some o → o.visible g.part = false ∨ o.covers ea n = false) then some 0x16
      else if store = true ∧ (∃ o, obj = some o ∧ o.state = .sealed) then some 0x09
      else none

end Sys2Proof.Machine

/-- R167, R221: an access of LD or ST that fails a check traps its lane with the cause of the first check it fails, the
effective address in its record, and nothing is loaded or stored for the lane; the lane is gone only where a cause ends its
gang. -/
def Obligations.AccessFaults : Prop := ∀ (f : MForm) s gid fid g, Calm s gid fid g → Coherent s g.core g.part →
  laneGuard g false f.pred [f.data] false = none →
  ∀ (i : Instr) (store : Bool), (i = .ld f ∧ store = false) ∨ (i = .st f ∧ store = true) →
  let lanes := executing g fid false f.pred
  let cause := fun t : Thread => accessCause s g (f.at_ g t).1 store (f.at_ g t).2.toNat f.bytes
  (∀ l t, (l, t) ∈ lanes → f.ready g t [f.data] ∧ cause t ≠ none) →
  ∃ t, exec i s = .next t ∧
    (¬ Kills s g 0 → (t.group? gid).isSome = true ∧ t.pends = s.pends ∧
      (t.core g.core).entries = (s.core g.core).entries) ∧
    ∀ l th, (l, th) ∈ lanes → ∀ h, t.group? gid = some h → ∃ th', h.thread? l = some th' ∧
      ((Kills s g 0 ∧ th'.st = .exited) ∨
        ∃ c, cause th = some c ∧ RaisedIn th th' c ∧ th'.trap.map (·.addr) = some (f.at_ g th).2)

/-! ## Encodings -/

/-- R31 to R64: decoding what is encoded gives the instruction back with every operand, in either encoding and whatever
follows it, and whatever decodes is well formed and reads no byte beyond its own words. -/
def Obligations.DecodeEncode : Prop :=
  (∀ e i rest, Instr.wf e i = true → decodeBytes e (encode e i ++ rest) = .ok (i, rest)) ∧
  ∀ e bs i rest, decodeBytes e bs = .ok (i, rest) → i.wf e = true ∧
    ∃ w, bs = w ++ rest ∧ w.length = (encode e i).length ∧ ∀ more, decodeBytes e (w ++ more) = .ok (i, more)

/-- R31, R61 to R63: words of the manual's own examples, read as it reads them, and words it calls ILLOP. -/
def Obligations.SampleWords : Prop :=
  decodeD 0xE0090102 0x06007001 = .ok (.umax { d := 9, a := 1, b := 2, c := 0, pred := 7, hold := 0, stall := 0, yld := false, mx := false, ty := 1 }) ∧
  decodeL 0xC00C0480201000E1 = .ok (.umax { d := 9, a := 1, b := 2, c := 0, pred := 7, hold := 0, stall := 0, yld := false, mx := false, ty := 1 }) ∧
  decodeBytes .l [0xE1, 0x00, 0x10, 0x20, 0x80, 0x04, 0x0C, 0xC0] =
    .ok (.umax { d := 9, a := 1, b := 2, c := 0, pred := 7, hold := 0, stall := 0, yld := false, mx := false, ty := 1 }, []) ∧
  decodeL 0x5220141C80E28010 =
    .ok (.ld { d := 40, areg := 3, scale := 2, order := 1, idx := 7, pred := 1, size := 2, off := 16400 }) ∧
  decodeD 0x66010000 0x007FFFE0 = .ok (.movi { d := 1, a := 0, pred := 7, imm := 0xFFFE, mod4 := 0 }) ∧
  decodeD 0xE30510FF 0x04750020 =
    .ok (.ald { d := 5, areg := 1, scale := 0, order := 0, idx := noIndex, pred := 7, size := 5, off := 32 }) ∧
  decodeD 0xEA000400 0x03007000 = .ok (.halt { d := 0, a := 4, b := 0, c := 0, pred := 7, hold := 0, stall := 0, yld := false, mx := false, ty := 0 }) ∧
  decodeD 0x70000000 0x0170FFF0 = .ok (.wait { d := 0, a := 0, pred := 7, imm := 0x0FFF, mod4 := 0 }) ∧
  decodeL 0xC02C0480201000E1 = .error .function ∧ decodeD 0x8B050102 0 = .error .compactCode ∧
  decodeD 0x6F000000 0x09007000 = .error .function ∧ decodeD 0x71000000 0x00007000 = .error .classNumber

/-! ## A step -/

namespace Sys2Proof.Machine

/-- After a turn the bundle has gone back to the active set: memory, every register, every place is as the instruction left
it, only READY and RUNNING may have been exchanged, and cycles passed for latencies that still run. -/
def TurnOver (t u : State) : Prop :=
  u = { t with groups := u.groups, cores := u.cores, cur := none, seq := u.seq } ∧
  (∀ k, u.core k = { t.core k with active := (u.core k).active }) ∧
  ∀ k, (u.group? k).isSome = (t.group? k).isSome ∧ ∀ h, t.group? k = some h → ∃ h', u.group? k = some h' ∧
    h' = { h with threads := h'.threads } ∧ ∀ l th, h.thread? l = some th → ∃ th', h'.thread? l = some th' ∧
      th' = { th with st := th'.st, readyAt := th'.readyAt, vhaz := th'.vhaz, phaz := th'.phaz, xhaz := th'.xhaz } ∧
      (th'.st = th.st ∨ (th.st.issuable = true ∧ th'.st.issuable = true))

/-- Nothing is left for the end of a step: no operand is still to be read, no lane waits for a ring slot or at a barrier
object, no state-port command is under way. -/
def NothingDue (s : State) : Prop :=
  (∀ x ∈ s.groups, x.2.late = [] ∧ ∀ th ∈ x.2.threads, ∀ b i o w, th.st.parkedOn ≠ some (.barrier b i o w)) ∧
  ∀ x ∈ s.parts, x.2.ringWait = [] ∧ x.2.dsbusy = none

end Sys2Proof.Machine

/-- R31, R94, R237: where a fragment is at issue, the bytes at its PC, read from its group's fetched code, decode to an
instruction, the step executes it: the outcome is the instruction's own on that state, the turn of the bundle then over and
what follows every step done, which comes to no more than that where nothing is due. Bytes that decode to nothing raise
ILLOP (R63). -/
def Obligations.StepRunsDecoded : Prop := ∀ s c b gid fid g w v,
  s.cur = some (c, b) → s.stopped = false → b.frags = [(gid, fid)] → s.group? gid = some g → g.residence = .resident →
  g.core = c → g.fragLanes fid ≠ [] → g.holds = [] →
  let pc := g.fragPc fid
  let word := fun (p : DWord) (x : List Byte) => ∃ bs, mapFind (p.toNat / 32) g.fetched = some bs ∧
    x = (bs.drop (p.toNat % 32)).take 4
  let bytes := if twoWords g.enc w then w ++ v else w
  word pc w → (twoWords g.enc w = true → word (pc + 4) v) →
  let m := { s.unstall c b with groups := (s.setGroup gid id).groups, cur := some (c, { frags := [(gid, fid)] }) }
  (∀ i rest, decodeBytes g.enc bytes = .ok (i, rest) →
    (∀ t, exec i m = .next t → step s = .next (s.afterStep (s.endTurn t i)) ∧
      (t.cur = some (c, { frags := [(gid, fid)] }) → NothingDue s → NothingDue t →
        ∃ u, step s = .next u ∧ TurnOver t u)) ∧
    (∀ x, exec i m = .fault x → step s = .fault x) ∧ (∀ x, exec i m = .refused x → step s = .refused x)) ∧
  (∀ x, decodeBytes g.enc bytes = .error x → ∃ u, step s = .next u ∧ u.cur = none ∧
    (NothingDue s → (Kills s g 1 ∨ (u.group? gid).isSome = true) ∧
      ∀ l ∈ g.fragLanes fid, ∀ th, g.thread? l = some th → ∀ h, u.group? gid = some h → ∃ th', h.thread? l = some th' ∧
        Trapped s g h th th' 1))

/-- R16, R24, R76, R213, R328, R340: right after reset nothing is loaded or running, memory is in its canonical form, the
generators stand at the seed of zero, every counter at zero, and the registers with a reset value in the manual hold it.
That memory nothing has written reads zero is the model's choice (notes/assumptions/8). -/
def Obligations.ResetState : Prop :=
  State.reset.memOk ∧ State.reset.groups = [] ∧ State.reset.blocks = [] ∧ State.reset.launches = [] ∧
  State.reset.squeues = [] ∧ State.reset.copies = [] ∧ State.reset.cur = none ∧ State.reset.schedule = [] ∧
  (∀ a, State.reset.byte a = 0) ∧
  (∀ k, (State.reset.core k).cycle = 0 ∧ (State.reset.core k).futures = [] ∧
    ∀ l, (State.reset.core k).generator l = srSeed 0 l) ∧
  (∀ p, let x := State.reset.part p
    x.ctl = 0x51400 ∧ x.ways = 0xFFFF ∧ x.linktmo = 100 ∧ x.ptroot = 0 ∧ x.handler = 0 ∧ x.faultring = 0 ∧
      x.lqueues = 0 ∧ x.privq = 0 ∧ x.log = []) ∧
  (∀ q, let x := State.reset.lqueue q
    x.chunk = 1 ∧ x.aging = 32 ∧ x.prio = 0 ∧ x.cmask0 = 0xFFFFFFFFFFFFFFFF ∧ x.cmask1 = 0xFFFFFFFFFFFFFFFF ∧
      x.records = []) ∧
  ∀ p, let x := State.reset.port p
    x.ctl = 4096 ∧ x.desclog = 6 ∧ x.bltmo = 100 ∧ x.sendq = 0 ∧ x.posted = []

/-- Every step keeps memory in its canonical form: addresses strictly rising, and no listed byte equal to what an unlisted
address reads as, so that equal memories are equal data. -/
def Obligations.StepKeepsMemory : Prop := ∀ s t : State, s.memOk → step s = .next t → t.memOk
end

