-- ==== Sys2Proof/Laws/Maps.lean ====
section
/-! SUPPORT. Reads after writes of the sparse maps, on every list; and the canonical form that every map operation
keeps. -/

namespace Sys2Proof.Machine

variable {α : Type}

@[simp] theorem mapFind_nil (k : Nat) : mapFind k ([] : SMap α) = none := rfl

theorem mapFind_insert (j k : Nat) (v : α) (m : SMap α) :
    mapFind j (mapInsert k v m) = if j = k then some v else mapFind j m := by
  induction m with
  | nil => simp [mapInsert, mapFind]
  | cons e rest ih =>
    obtain ⟨i, x⟩ := e
    simp only [mapInsert]
    split
    · subst_vars; simp only [mapFind]; split <;> simp_all
    · split
      · simp only [mapFind]
      · simp only [mapFind, ih]
        by_cases h : j = i
        · subst h; simp [Ne.symm ‹¬k = _›]
        · simp [h]

theorem mapFind_erase (j k : Nat) (m : SMap α) :
    mapFind j (mapErase k m) = if j = k then none else mapFind j m := by
  induction m with
  | nil => simp [mapErase]
  | cons e rest ih =>
    obtain ⟨i, x⟩ := e
    by_cases h : i = k
    · subst h; simp [mapErase, mapFind] at ih ⊢; rw [ih]; split <;> simp_all
    · simp [mapErase, mapFind, h] at ih ⊢; rw [ih]; split <;> simp_all

@[simp] theorem mapFind_insert_self (k : Nat) (v : α) (m : SMap α) : mapFind k (mapInsert k v m) = some v := by
  simp [mapFind_insert]

theorem mapFind_update (j k : Nat) (f : α → α) (m : SMap α) :
    mapFind j (mapUpdate k f m) = if j = k then (mapFind k m).map f else mapFind j m := by
  unfold mapUpdate
  split
  · rename_i x h; rw [mapFind_insert]; split <;> simp_all
  · rename_i h; split <;> simp_all

theorem mapGet_put [DecidableEq α] (d : α) (j k : Nat) (v : α) (m : SMap α) :
    mapGet d (mapPut d k v m) j = if j = k then v else mapGet d m j := by
  unfold mapGet mapPut
  split
  · rw [mapFind_erase]; split <;> simp_all
  · rw [mapFind_insert]; split <;> simp_all

@[simp] theorem mapGet_put_self [DecidableEq α] (d : α) (k : Nat) (v : α) (m : SMap α) :
    mapGet d (mapPut d k v m) k = v := by simp [mapGet_put]

theorem mapGet_put_of_ne [DecidableEq α] (d : α) {j k : Nat} (h : j ≠ k) (v : α) (m : SMap α) :
    mapGet d (mapPut d k v m) j = mapGet d m j := by simp [mapGet_put, h]

/-! The canonical form. -/

section Canonical

variable [DecidableEq α] {d : α}

theorem mapOk_mono {lo hi : Nat} (h : lo ≤ hi) : ∀ {m : SMap α}, mapOk d hi m = true → mapOk d lo m = true
  | [], _ => rfl
  | (k, v) :: rest, hm => by
    simp only [mapOk, Bool.and_eq_true, decide_eq_true_eq] at hm ⊢
    exact ⟨⟨by omega, hm.1.2⟩, hm.2⟩

theorem mapOk_insert {k : Nat} {v : α} (hv : v ≠ d) :
    ∀ {lo : Nat} {m : SMap α}, lo ≤ k → mapOk d lo m = true → mapOk d lo (mapInsert k v m) = true
  | lo, [], hl, _ => by simp [mapInsert, mapOk, hl, hv]
  | lo, (j, x) :: rest, hl, hm => by
    simp only [mapOk, Bool.and_eq_true, decide_eq_true_eq] at hm
    simp only [mapInsert]
    split
    · subst_vars; simp only [mapOk, Bool.and_eq_true, decide_eq_true_eq]; exact ⟨⟨hl, hv⟩, hm.2⟩
    · split
      · simp only [mapOk, Bool.and_eq_true, decide_eq_true_eq]
        exact ⟨⟨hl, hv⟩, ⟨⟨by omega, hm.1.2⟩, hm.2⟩⟩
      · simp only [mapOk, Bool.and_eq_true, decide_eq_true_eq]
        exact ⟨hm.1, mapOk_insert hv (by omega) hm.2⟩

theorem mapOk_filter (p : Nat × α → Bool) :
    ∀ {lo : Nat} {m : SMap α}, mapOk d lo m = true → mapOk d lo (m.filter p) = true
  | _, [], _ => rfl
  | lo, (j, x) :: rest, hm => by
    simp only [mapOk, Bool.and_eq_true, decide_eq_true_eq] at hm
    simp only [List.filter_cons]
    split
    · simp only [mapOk, Bool.and_eq_true, decide_eq_true_eq]; exact ⟨hm.1, mapOk_filter p hm.2⟩
    · exact mapOk_mono (by omega) (mapOk_filter p hm.2)

theorem mapOk_erase {k lo : Nat} {m : SMap α} (h : mapOk d lo m = true) : mapOk d lo (mapErase k m) = true :=
  mapOk_filter _ h

theorem mapOk_put {k : Nat} {v : α} {m : SMap α} (h : mapOk d 0 m = true) : mapOk d 0 (mapPut d k v m) = true := by
  unfold mapPut
  split
  · exact mapOk_erase h
  · exact mapOk_insert ‹_› (by omega) h

end Canonical

end Sys2Proof.Machine
end

