-- ==== Sys2Proof/Laws/Threads.lean ====
section
/-! SUPPORT. Updates of threads within groups and of groups within the state; and what retiring an instruction does when
every lane goes on. -/

namespace Sys2Proof.Machine

/-! ## Lists -/

@[simp] theorem listUpdate_length {α : Type} (i : Nat) (f : α → α) (xs : List α) :
    (listUpdate i f xs).length = xs.length := by
  induction xs generalizing i with
  | nil => simp [listUpdate]
  | cons x xs ih => cases i <;> simp [listUpdate, ih]

theorem listUpdate_get {α : Type} (i j : Nat) (f : α → α) (xs : List α) :
    (listUpdate i f xs)[j]? = if j = i then xs[j]?.map f else xs[j]? := by
  induction xs generalizing i j with
  | nil => simp [listUpdate]
  | cons x xs ih =>
    cases i with
    | zero => cases j <;> simp [listUpdate]
    | succ i => cases j <;> simp [listUpdate, ih]

/-! ## One thread of a group -/

theorem thread?_setThread (g : Group) (l k : Nat) (f : Thread → Thread) :
    (g.setThread l f).thread? k = if k = l then (g.thread? k).map f else g.thread? k := listUpdate_get _ _ _ _

theorem setThread_eq (g : Group) (l : Nat) (f : Thread → Thread) :
    g.setThread l f = { g with threads := (g.setThread l f).threads } := rfl

@[simp] theorem setThread_threads_length (g : Group) (l : Nat) (f : Thread → Thread) :
    (g.setThread l f).threads.length = g.threads.length := listUpdate_length _ _ _

/-- Several lanes, each by its own rule, each lane once. -/
theorem foldl_setThread {κ : Type} (lane : κ → Nat) (f : κ → Thread → Thread) (xs : List κ) (g : Group) :
    ∃ ts, xs.foldl (fun g x => g.setThread (lane x) (f x)) g = { g with threads := ts } ∧
      ts.length = g.threads.length := by
  induction xs generalizing g with
  | nil => exact ⟨g.threads, rfl, rfl⟩
  | cons x xs ih =>
    obtain ⟨ts, h, hl⟩ := ih (g.setThread (lane x) (f x))
    exact ⟨ts, h, by simp [hl]⟩

theorem foldl_setThread_of_not_mem {κ : Type} (lane : κ → Nat) (f : κ → Thread → Thread) (xs : List κ) (g : Group)
    (l : Nat) (h : l ∉ xs.map lane) :
    (xs.foldl (fun g x => g.setThread (lane x) (f x)) g).thread? l = g.thread? l := by
  induction xs generalizing g with
  | nil => rfl
  | cons x xs ih =>
    simp only [List.map_cons, List.mem_cons, not_or] at h
    rw [List.foldl_cons, ih _ h.2, thread?_setThread, if_neg h.1]

theorem foldl_setThread_of_mem {κ : Type} (lane : κ → Nat) (f : κ → Thread → Thread) (xs : List κ) (g : Group)
    (x : κ) (hx : x ∈ xs) (hn : (xs.map lane).Nodup) :
    (xs.foldl (fun g x => g.setThread (lane x) (f x)) g).thread? (lane x) = (g.thread? (lane x)).map (f x) := by
  induction xs generalizing g with
  | nil => simp at hx
  | cons y xs ih =>
    simp only [List.map_cons, List.nodup_cons] at hn
    rw [List.foldl_cons]
    rcases List.mem_cons.mp hx with rfl | hx
    · rw [foldl_setThread_of_not_mem _ _ _ _ _ hn.1, thread?_setThread, if_pos rfl]
    · rw [ih _ hx hn.2, thread?_setThread, if_neg]
      intro h; exact hn.1 (h ▸ List.mem_map_of_mem hx)

/-! ## Groups of the state -/

theorem group?_setGroup (s : State) (k gid : Nat) (f : Group → Group) :
    (s.setGroup gid f).group? k = if k = gid then (s.group? gid).map f else s.group? k := mapFind_update _ _ _ _

theorem core_setCore (s : State) (k c : Nat) (f : Core → Core) :
    (s.setCore c f).core k = if k = c then f (s.core c) else s.core k := mapGet_put _ _ _ _ _

@[simp] theorem group?_setCore (s : State) (k c : Nat) (f : Core → Core) :
    (s.setCore c f).group? k = s.group? k := rfl

@[simp] theorem core_setGroup (s : State) (k gid : Nat) (f : Group → Group) :
    (s.setGroup gid f).core k = s.core k := rfl

theorem setGroup_setGroup (s : State) (gid : Nat) (f h : Group → Group) :
    ((s.setGroup gid f).setGroup gid h).group? gid = (s.group? gid).map (h ∘ f) := by
  simp [group?_setGroup]

/-! ## Lanes of a fragment -/

theorem lanesWhere_nodup (g : Group) (f : Thread → Bool) : (g.lanesWhere f).Nodup := by
  unfold Group.lanesWhere
  exact List.Nodup.filter _ List.nodup_range

theorem mem_lanesWhere {g : Group} {f : Thread → Bool} {l : Nat} :
    l ∈ g.lanesWhere f ↔ ∃ t, g.thread? l = some t ∧ f t = true := by
  unfold Group.lanesWhere Group.thread?
  simp only [List.mem_filter, List.mem_range]
  constructor
  · rintro ⟨hl, h⟩
    rw [List.getElem?_eq_getElem hl] at h ⊢
    exact ⟨_, rfl, h⟩
  · rintro ⟨t, ht, hf⟩
    obtain ⟨hl, rfl⟩ := List.getElem?_eq_some_iff.mp ht
    exact ⟨hl, by rw [ht]; exact hf⟩

theorem mem_fragLanes {g : Group} {fid l : Nat} :
    l ∈ g.fragLanes fid ↔ ∃ t, g.thread? l = some t ∧ t.st.issuable = true ∧ t.frag = fid := by
  simp [Group.fragLanes, mem_lanesWhere]

/-! ## Retiring when every lane goes on -/

theorem classes_const {κ : Type} [DecidableEq κ] (key : Nat → κ) (c : κ) :
    ∀ (ls : List Nat), ls ≠ [] → (∀ l ∈ ls, key l = c) → classes key ls = [(c, ls)]
  | [l], _, h => by simp [classes, h l (by simp)]
  | l :: m :: ls, _, h => by
    have ih := classes_const key c (m :: ls) (by simp) (fun x hx => h x (by simp [hx]))
    rw [classes, ih, h l (by simp)]
    simp

theorem find?_pair {α : Type} (xs : List Nat) (d : Nat → α) (l : Nat) (hl : l ∈ xs) :
    (xs.map fun k => (k, d k)).find? (·.1 == l) = some (l, d l) := by
  induction xs with
  | nil => simp at hl
  | cons x xs ih =>
    by_cases h : x = l
    · subst h; simp
    · have : l ∈ xs := by
        rcases List.mem_cons.mp hl with rfl | h'
        · exact absurd rfl h
        · exact h'
      simp [h, ih this]

end Sys2Proof.Machine
end

