-- ==== Sys2Proof/Laws/Retire.lean ====
section
/-! SUPPORT. Retiring an instruction: a fragment whose lanes all go on together stays one fragment, and nothing changes
but its threads. -/

namespace Sys2Proof.Machine

/-- A lane that goes on, to the next instruction or to a target. -/
def Dispo.goesOn (d : Dispo) : Bool :=
  match d with
  | .next _ => true
  | .jump _ _ => true
  | _ => false

theorem OnlyGroup.trans {s t u : State} {gid : Nat} (h : OnlyGroup s t gid) (h' : OnlyGroup t u gid) :
    OnlyGroup s u gid := by
  refine ⟨?_, fun k => (h'.cores k).trans (h.cores k), fun k hk => (h'.others k hk).trans (h.others k hk)⟩
  have h1 := h.rest; have h2 := h'.rest
  rw [h1] at h2
  exact h2

theorem onlyGroup_setGroup (s : State) (gid : Nat) (f : Group → Group) : OnlyGroup s (s.setGroup gid f) gid :=
  ⟨rfl, fun _ => rfl, fun k hk => by rw [group?_setGroup, if_neg hk]⟩

theorem OnlyThreads.refl (g : Group) : OnlyThreads g g := rfl

theorem OnlyThreads.trans {g h k : Group} (x : OnlyThreads g h) (y : OnlyThreads h k) : OnlyThreads g k := by
  unfold OnlyThreads at *
  rw [x] at y
  exact y

theorem onlyThreads_foldl {κ : Type} (lane : κ → Nat) (f : κ → Thread → Thread) (xs : List κ) (g : Group) :
    OnlyThreads g (xs.foldl (fun g x => g.setThread (lane x) (f x)) g) := by
  induction xs generalizing g with
  | nil => rfl
  | cons x xs ih =>
    have h : OnlyThreads g (g.setThread (lane x) (f x)) := rfl
    exact h.trans (ih _)

theorem onlyThreads_prune (g : Group) : OnlyThreads g g.pruneFrags := rfl

@[simp] theorem thread?_prune (g : Group) (l : Nat) : g.pruneFrags.thread? l = g.thread? l := rfl

theorem lanesAfter_foldl (ls : List Nat) (hn : ls.Nodup) (f : Nat → Thread → Thread) (g : Group) :
    LanesAfter ls f g (ls.foldl (fun g l => g.setThread l (f l)) g) := by
  intro l
  split
  · have := foldl_setThread_of_mem (fun l : Nat => l) f ls g l ‹_› (by simpa using hn)
    simpa using this
  · exact foldl_setThread_of_not_mem (fun l : Nat => l) f ls g l (by simpa using ‹_›)

theorem leaveAll_map (g : Group) (len : DWord) (ls : List Nat) (d : Nat → Dispo) :
    g.leaveAll len (ls.map fun l => (l, d l)) = ls.foldl (fun g l => g.setThread l fun t => t.leave len (d l)) g := by
  unfold Group.leaveAll
  rw [List.foldl_map]

/-! ## What the dispositions say -/

theorem goesOn_key {d : Dispo} (h : d.goesOn = true) : d.key = .next ∨ ∃ pc, d.key = .jump pc := by
  cases d <;> simp_all [Dispo.goesOn, Dispo.key]

theorem trapsOf_goesOn (g : Group) (fid : Nat) (ls : List Nat) (d : Nat → Dispo) (hd : ∀ l ∈ ls, (d l).goesOn = true) :
    trapsOf g fid (ls.map fun l => (l, d l)) = [] := by
  unfold trapsOf
  rw [List.filterMap_eq_nil_iff]
  intro x hx
  obtain ⟨l, hl, rfl⟩ := List.mem_map.mp hx
  have := hd l hl
  cases h : d l <;> simp_all [Dispo.goesOn]

theorem exitsOf_goesOn (ls : List Nat) (d : Nat → Dispo) (hd : ∀ l ∈ ls, (d l).goesOn = true) :
    exitsOf (ls.map fun l => (l, d l)) = [] := by
  unfold exitsOf
  rw [List.filterMap_eq_nil_iff]
  intro x hx
  obtain ⟨l, hl, rfl⟩ := List.mem_map.mp hx
  have := hd l hl
  cases h : d l <;> simp_all [Dispo.goesOn]

theorem parksIn_goesOn (ls : List Nat) (d : Nat → Dispo) (hd : ∀ l ∈ ls, (d l).goesOn = true) :
    parksIn (ls.map fun l => (l, d l)) = false := by
  unfold parksIn
  rw [List.any_eq_false]
  intro x hx
  obtain ⟨l, hl, rfl⟩ := List.mem_map.mp hx
  obtain h | ⟨pc, h⟩ := goesOn_key (hd l hl) <;> simp [h]

theorem closeLate_none (g : Group) (sel : Late → Bool) (h : ∀ r ∈ g.late, sel r = false) : g.closeLate sel = g := by
  unfold Group.closeLate
  rw [if_neg]
  simpa using h

theorem settles_goesOn {d : Dispo} (h : d.goesOn = true) : d.settles = false := by
  cases d <;> simp_all [Dispo.goesOn, Dispo.settles]

theorem partsOf_const (ls : List Nat) (d : Nat → Dispo) (key : PartKey) (hne : ls ≠ [])
    (hk : ∀ l ∈ ls, (d l).key = key) : partsOf (ls.map fun l => (l, d l)) = [(key, ls)] := by
  unfold partsOf
  have : (ls.map fun l => (l, d l)).map (·.1) = ls := by simp [Function.comp_def]
  rw [this]
  refine classes_const _ _ _ hne fun l hl => ?_
  simp [find?_pair ls d l hl, hk l hl]

theorem divide_one (g : Group) (fid : Nat) (key : PartKey) (ls : List Nat) : g.divide fid [(key, ls)] = g := by
  unfold Group.divide
  by_cases h : key = .exit <;> simp [h]

theorem Thread.leave_frag (t : Thread) (len : DWord) (d : Dispo) : (t.leave len d).frag = t.frag := by
  cases d <;> rfl

theorem follow_same (c : Core) (f : Nat × Nat) : c.follow f (some f.2) = c := by
  have h : ∀ b : Bundle, b.follow f (some f.2) = b := by
    intro b
    have : (b.frags.filterMap fun x => if x == f then (some f.2).map fun k => (f.1, k) else some x) = b.frags := by
      conv => rhs; rw [← List.filterMap_some (l := b.frags)]
      congr 1
      funext x
      by_cases hx : x = f
      · subst hx; simp
      · simp [hx]
    unfold Bundle.follow
    rw [this]
  have h' : (fun b : Bundle => b.follow f (some f.2)) = id := funext h
  unfold Core.follow
  rw [h']
  simp

/-- A fragment all of whose lanes go on alike stays one fragment; nothing changes but its threads. -/
theorem retire_goesOn (s : State) (gid fid : Nat) (len : DWord) (g : Group) (ls : List Nat) (d : Nat → Dispo)
    (key : PartKey) (hg : s.group? gid = some g) (hne : ls ≠ []) (hn : ls.Nodup)
    (hf : ∀ l ∈ ls, ∃ t, g.thread? l = some t ∧ t.frag = fid)
    (hk : ∀ l ∈ ls, (d l).key = key) (hd : ∀ l ∈ ls, (d l).goesOn = true) :
    ∃ h : Group, (s.retire gid fid len (ls.map fun l => (l, d l))).group? gid = some h ∧
      OnlyGroup s (s.retire gid fid len (ls.map fun l => (l, d l))) gid ∧
      OnlyThreads g h ∧ LanesAfter ls (fun l t => t.leave len (d l)) g h := by
  have hparts := partsOf_const ls d key hne hk
  have htraps := trapsOf_goesOn g fid ls d hd
  have hla := lanesAfter_foldl ls hn (fun l t => t.leave len (d l)) g
  have hret : g.retired fid len (ls.map fun l => (l, d l)) s.seq
      = (g.leaveAll len (ls.map fun l => (l, d l))).pruneFrags := by
    unfold Group.retired
    rw [closeLate_none]
    · simp [hparts, divide_one, parksIn_goesOn ls d hd, htraps, Group.notePark, Group.noteHold]
    · intro r _
      simp only [List.any_eq_false, List.mem_map]
      rintro x ⟨l, hl, rfl⟩
      simp [settles_goesOn (hd l hl)]
  have hkept : (g.leaveAll len (ls.map fun l => (l, d l))).pruneFrags.keptFrag [(key, ls)] = some fid := by
    obtain ⟨l, ls', rfl⟩ := List.exists_cons_of_ne_nil hne
    obtain ⟨t, ht, htf⟩ := hf l (by simp)
    have hl := hla l
    rw [if_pos (by simp), ht] at hl
    have hkey := goesOn_key (hd l (by simp))
    rw [hk l (by simp)] at hkey
    have : ((g.leaveAll len ((l :: ls').map fun l => (l, d l))).pruneFrags.thread? l).map (·.frag) = some fid := by
      rw [thread?_prune, leaveAll_map, hl]
      simp [Thread.leave_frag, htf]
    unfold Group.keptFrag
    obtain rfl | ⟨pc, rfl⟩ := hkey <;> simpa using this
  have hcore : ∀ c : Core, c.follow (gid, fid) (some fid) = c := fun c => follow_same c (gid, fid)
  have heq : s.retire gid fid len (ls.map fun l => (l, d l)) =
      ((s.setGroup gid fun _ => (g.leaveAll len (ls.map fun l => (l, d l))).pruneFrags).setCore
        (g.leaveAll len (ls.map fun l => (l, d l))).pruneFrags.core id) := by
    unfold State.retire
    simp only [hg, hret, hparts, hkept, htraps, exitsOf_goesOn ls d hd, parksIn_goesOn ls d hd, List.foldl_nil]
    congr 1
    funext c
    exact hcore c
  refine ⟨(g.leaveAll len (ls.map fun l => (l, d l))).pruneFrags, ?_, ?_, ?_, ?_⟩
  · rw [heq, group?_setCore, group?_setGroup, if_pos rfl, hg]; rfl
  · rw [heq]
    refine ⟨rfl, fun k => ?_, fun k hk' => ?_⟩
    · rw [core_setCore]; split <;> simp_all
    · rw [group?_setCore, group?_setGroup, if_neg hk']
  · rw [leaveAll_map]
    exact (onlyThreads_foldl (fun l : Nat => l) (fun l t => t.leave len (d l)) ls g).trans (onlyThreads_prune _)
  · intro l; rw [thread?_prune, leaveAll_map]; exact hla l

end Sys2Proof.Machine
end

