-- ==== Sys2Proof/Laws/Lane.lean ====
section
/-! SUPPORT. The frame of lane-set register instructions: what `laneInstr` does from a calm state. -/

namespace Sys2Proof.Machine

/-! ## Settled threads -/

theorem view_settled {t : Thread} (h : t.Settled) (s : State) : t.view s = (t, s) := by
  unfold Thread.view
  simp [h.vhaz, h.phaz, h.xhaz]

theorem age_settled {t : Thread} (h : t.Settled) (n : Nat) : t.age n = t := by
  unfold Thread.age
  simp [h.vhaz, h.phaz, h.xhaz]

theorem readReg_settled {t : Thread} (h : t.Settled) (g : Group) (r : Nat) : readReg g t r = .ok (mapGet 0 t.v r) := by
  unfold readReg
  simp [h.vtag, h.fut]

theorem readAll_settled {t : Thread} (h : t.Settled) (g : Group) (rs : List Nat) :
    readAll g t rs = .ok (rs.map (mapGet 0 t.v ·)) := by
  induction rs with
  | nil => rfl
  | cons r rs ih => simp [readAll, readReg_settled h, ih]

theorem readPred_settled {t : Thread} (h : t.Settled) (g : Group) (k : Nat) : readPred g t k = .ok (getBit8 t.p k) := by
  unfold readPred
  simp [h.ptag]

theorem predHeld_settled {t : Thread} (h : t.Settled) (g : Group) (u : Bool) (p : BitVec 4) :
    predHeld g u p t = false := by
  unfold predHeld
  simp [h.ptag]

/-- The lanes of a list with their threads. -/
def withThreads (g : Group) (ls : List Nat) : List (Nat × Thread) := ls.filterMap fun l => (g.thread? l).map fun t => (l, t)

theorem views_settled (g : Group) (s : State) (ls : List Nat)
    (h : ∀ l ∈ ls, ∀ t, g.thread? l = some t → t.Settled) : views g s ls = (withThreads g ls, s) := by
  induction ls with
  | nil => rfl
  | cons l ls ih =>
    have ih := ih fun k hk => h k (List.mem_cons_of_mem _ hk)
    unfold views withThreads
    cases ht : g.thread? l with
    | none => simpa [ht, withThreads] using ih
    | some t =>
      rw [withThreads] at ih
      simp [ht, view_settled (h l (by simp) t ht), ih]

theorem mem_withThreads {g : Group} {ls : List Nat} {l : Nat} {t : Thread} :
    (l, t) ∈ withThreads g ls ↔ l ∈ ls ∧ g.thread? l = some t := by
  unfold withThreads
  simp only [List.mem_filterMap, Option.map_eq_some_iff, Prod.mk.injEq]
  constructor
  · rintro ⟨k, hk, u, hu, rfl, rfl⟩; exact ⟨hk, hu⟩
  · rintro ⟨hl, ht⟩; exact ⟨l, hl, t, ht, rfl, rfl⟩

/-- The lanes that execute an instruction of a shape. -/
def actives (g : Group) (fid : Nat) (sh : Shape) : List (Nat × Thread) :=
  (withThreads g (g.fragLanes fid)).filter fun (_, t) => laneActive g sh.unpred sh.pred t

/-! ## Draws -/

theorem OnlyDraws.refl (s : State) : OnlyDraws s s := ⟨rfl, fun _ => rfl⟩

theorem OnlyDraws.trans {s t u : State} (h : OnlyDraws s t) (h' : OnlyDraws t u) : OnlyDraws s u := by
  refine ⟨?_, fun k => ?_⟩
  · have h1 := h.rest; have h2 := h'.rest
    rw [h1] at h2
    exact h2
  · have h1 := h.cores k; have h2 := h'.cores k
    rw [h1] at h2
    exact h2

theorem OnlyDraws.group? {s t : State} (h : OnlyDraws s t) (k : Nat) : t.group? k = s.group? k := by
  rw [h.rest]; rfl

theorem draw_only (s : State) (c l n : Nat) : OnlyDraws s (s.draw c l n).2 := by
  unfold State.draw
  split
  · exact .refl s
  · refine ⟨rfl, fun k => ?_⟩
    simp only [core_setCore]
    split
    · subst_vars; rfl
    · rfl

theorem drawAll_cons (g : Group) (n : Nat × Thread → Nat) (s : State) (l : Nat) (t : Thread) (ls : List (Nat × Thread)) :
    drawAll g n s ((l, t) :: ls) =
      ((s.draw g.core (physLane g (s.lanes g.part g.core) l) (n (l, t))).1 ::
        (drawAll g n (s.draw g.core (physLane g (s.lanes g.part g.core) l) (n (l, t))).2 ls).1,
       (drawAll g n (s.draw g.core (physLane g (s.lanes g.part g.core) l) (n (l, t))).2 ls).2) := rfl

theorem drawAll_only (g : Group) (n : Nat × Thread → Nat) (ls : List (Nat × Thread)) (s : State) :
    OnlyDraws s (drawAll g n s ls).2 := by
  induction ls generalizing s with
  | nil => exact .refl s
  | cons x ls ih =>
    obtain ⟨l, t⟩ := x
    rw [drawAll_cons]
    exact (draw_only _ _ _ _).trans (ih _)

theorem drawAll_length (g : Group) (n : Nat × Thread → Nat) (ls : List (Nat × Thread)) (s : State) :
    (drawAll g n s ls).1.length = ls.length := by
  induction ls generalizing s with
  | nil => rfl
  | cons x ls ih => obtain ⟨l, t⟩ := x; simp [drawAll, ih]

theorem srDraws_length : ∀ (n : Nat) (g : Word), (srDraws n g).1.length = n
  | 0, _ => rfl
  | n + 1, g => by simp [srDraws, srDraws_length n]

theorem draw_length (s : State) (c l n : Nat) : (s.draw c l n).1.length = n := by
  unfold State.draw
  split
  · simp_all
  · exact srDraws_length _ _

theorem drawAll_each (g : Group) (n : Nat) (ls : List (Nat × Thread)) (s : State) :
    ∀ us ∈ (drawAll g (fun _ => n) s ls).1, us.length = n := by
  induction ls generalizing s with
  | nil => simp [drawAll]
  | cons x ls ih =>
    obtain ⟨l, t⟩ := x
    intro us hus
    simp only [drawAll, List.mem_cons] at hus
    rcases hus with rfl | h
    · exact draw_length _ _ _ _
    · exact ih _ us h

theorem drawAll_congr (g : Group) (n m : Nat × Thread → Nat) (ls : List (Nat × Thread)) (s : State)
    (h : ∀ x ∈ ls, n x = m x) : drawAll g n s ls = drawAll g m s ls := by
  induction ls generalizing s with
  | nil => rfl
  | cons x ls ih =>
    obtain ⟨l, t⟩ := x
    rw [drawAll_cons, drawAll_cons, h (l, t) (by simp), ih _ fun y hy => h y (by simp [hy])]

theorem drawAll_zero (g : Group) (ls : List (Nat × Thread)) (s : State) :
    (drawAll g (fun _ => 0) s ls).2 = s := by
  induction ls generalizing s with
  | nil => rfl
  | cons x ls ih => obtain ⟨l, t⟩ := x; simpa [drawAll, State.draw] using ih s


/-! ## The frame itself -/

theorem fragLanes_nodup (g : Group) (fid : Nat) : (g.fragLanes fid).Nodup := lanesWhere_nodup g _

theorem withThreads_nodup (g : Group) (ls : List Nat) (h : ls.Nodup) : ((withThreads g ls).map (·.1)).Nodup := by
  have : (withThreads g ls).map (·.1) = ls.filter fun l => (g.thread? l).isSome := by
    induction ls with
    | nil => rfl
    | cons l ls ih =>
      have ih := ih h.of_cons
      unfold withThreads at ih ⊢
      cases ht : g.thread? l <;> simp [ht, ih]
  rw [this]
  exact h.filter _

theorem actives_nodup (g : Group) (fid : Nat) (sh : Shape) : ((actives g fid sh).map (·.1)).Nodup :=
  (withThreads_nodup g _ (fragLanes_nodup g fid)).sublist (List.filter_sublist.map _)

theorem mem_actives {g : Group} {fid : Nat} {sh : Shape} {l : Nat} {t : Thread} :
    (l, t) ∈ actives g fid sh ↔ l ∈ g.fragLanes fid ∧ g.thread? l = some t ∧ laneActive g sh.unpred sh.pred t = true := by
  simp [actives, mem_withThreads, and_assoc]

theorem residueCheck_sound (s : State) (g : Group) (h : s.residue = 0) : s.residueCheck g = (true, s) := by
  simp [State.residueCheck, h]

theorem disposeAll_ok (ws : List (Nat × Writes)) (all : List Nat) :
    disposeAll (ws.map fun x => (x.1, .ok x.2)) all = some (all.map fun l => (l, .next false)) := by
  unfold disposeAll
  rw [if_neg]
  · congr 1
    apply List.map_congr_left
    intro l _
    cases h : (ws.map fun x => ((x.1, .ok x.2) : Nat × Except Stop Writes)).find? (·.1 == l) with
    | none => simp
    | some x =>
      obtain ⟨y, _, rfl⟩ := List.mem_map.mp (List.mem_of_find?_eq_some h)
      simp
  · simp

/-- What one lane of the fragment becomes. -/
def laneNext (g : Group) (sh : Shape) (n : Nat) (w : Nat → Thread → Writes) (l : Nat) (t : Thread) : Thread :=
  (if laneActive g sh.unpred sh.pred t then t.apply n (w l t) else t).goTo (t.pc + sh.len) false

/-- Register writes change registers and what is noted of their writers. -/
theorem apply_rest (t : Thread) (n : Nat) (w : Writes) :
    t.apply n w = { t with v := (t.apply n w).v, p := (t.apply n w).p, x := (t.apply n w).x, vtag := (t.apply n w).vtag
                           ptag := (t.apply n w).ptag, fut := (t.apply n w).fut, vhaz := (t.apply n w).vhaz
                           phaz := (t.apply n w).phaz, xhaz := (t.apply n w).xhaz } := by
  have key : ∀ {κ : Type} (f : Thread → κ → Thread) (xs : List κ) (t : Thread),
      (∀ t x, f t x = { t with v := (f t x).v, p := (f t x).p, x := (f t x).x, vtag := (f t x).vtag
                               ptag := (f t x).ptag, fut := (f t x).fut, vhaz := (f t x).vhaz
                               phaz := (f t x).phaz, xhaz := (f t x).xhaz }) →
      ∃ v p x a b c d e i, xs.foldl f t = { t with v := v, p := p, x := x, vtag := a, ptag := b, fut := c, vhaz := d, phaz := e, xhaz := i } := by
    intro κ f xs
    induction xs with
    | nil => intro t _; exact ⟨_, _, _, _, _, _, _, _, _, rfl⟩
    | cons y xs ih =>
      intro t hf
      obtain ⟨v, p, x, a, b, c, d, e, i, h⟩ := ih (f t y) hf
      refine ⟨v, p, x, a, b, c, d, e, i, ?_⟩
      rw [List.foldl_cons, h, hf t y]
  obtain ⟨_, _, _, _, _, _, _, _, _, h1⟩ := key (fun t (x : Nat × Word) => t.putReg n x.1 x.2) w.v t (fun _ _ => rfl)
  obtain ⟨_, _, _, _, _, _, _, _, _, h2⟩ := key (fun t (x : Nat × Bool) => t.putPred n x.1 x.2) w.p _ (fun _ _ => rfl)
  obtain ⟨_, _, _, _, _, _, _, _, _, h3⟩ := key (fun t (x : Nat × Word) => t.putIndex n x.1 x.2) w.x _ (fun _ _ => rfl)
  unfold Thread.apply
  simp only
  rw [h3, h2, h1]

theorem apply_pc (t : Thread) (n : Nat) (w : Writes) : (t.apply n w).pc = t.pc := by rw [apply_rest]

theorem apply_frag (t : Thread) (n : Nat) (w : Writes) : (t.apply n w).frag = t.frag := by rw [apply_rest]

/-- From a calm state a lane-set register instruction that its group may issue, and whose active lanes all compute their
writes, completes: every active lane has its writes, every lane of the fragment stands at the next instruction, and
nothing else changes but the generators drawn from. -/
theorem laneInstr_calm {s : State} {gid fid : Nat} {g : Group} (hc : Calm s gid fid g) (sh : Shape) (fn : LaneFn)
    (w : List Word → Nat → Thread → Writes)
    (hguard : laneGuard g sh.unpred sh.pred sh.runs sh.forbidden = none)
    (hw : ∀ us l t, (l, t) ∈ actives g fid sh → fn g (actives g fid sh) us l t = .ok (w us l t)) :
    ∃ (us : Nat → List Word) (m t : State) (h : Group),
      laneInstr sh fn s = .next t ∧ (∀ x ∈ actives g fid sh, (us x.1).length = sh.draws) ∧
      OnlyDraws s m ∧ (sh.draws = 0 → m = s) ∧ OnlyGroup m t gid ∧
      t.group? gid = some h ∧ OnlyThreads g h ∧
      LanesAfter (g.fragLanes fid) (laneNext g sh (sh.uncovered g (s.lanes g.part g.core)) fun l => w (us l) l) g h := by
  obtain ⟨c, b, hcur, hb⟩ := hc.atIssue
  have hviews := views_settled g s (g.fragLanes fid) hc.settled
  have hheld : (withThreads g (g.fragLanes fid)).any (fun (x : Nat × Thread) => predHeld g sh.unpred sh.pred x.2) = false := by
    rw [List.any_eq_false]
    rintro ⟨l, t⟩ hx
    obtain ⟨hl, ht⟩ := mem_withThreads.mp hx
    simp [predHeld_settled (hc.settled l hl t ht)]
  have hlen := drawAll_length g (fun _ => sh.draws) (actives g fid sh) s
  have heach := drawAll_each g sh.draws (actives g fid sh) s
  have honly := drawAll_only g (fun _ => sh.draws) (actives g fid sh) s
  have hzero : sh.draws = 0 → (drawAll g (fun _ => sh.draws) s (actives g fid sh)).2 = s := by
    intro h; rw [h]; exact drawAll_zero _ _ _
  have hres : (drawAll g (fun _ => sh.draws) s (actives g fid sh)).2.residue = 0 := by rw [honly.rest]; exact hc.sound
  have hgrp : (drawAll g (fun _ => sh.draws) s (actives g fid sh)).2.group? gid = some g := by rw [honly.group?]; exact hc.group
  generalize hdr : drawAll g (fun _ => sh.draws) s (actives g fid sh) = dr at *
  obtain ⟨us, m⟩ := dr
  simp only at hlen heach honly hzero hres hgrp
  set z := (actives g fid sh).zip us with hz
  have hzmap : z.map (·.1) = actives g fid sh := List.map_fst_zip (by omega)
  have hznodup : (z.map (fun x : (Nat × Thread) × List Word => x.1.1)).Nodup := by
    have : z.map (fun x : (Nat × Thread) × List Word => x.1.1) = (actives g fid sh).map (·.1) := by
      rw [← hzmap, List.map_map]; rfl
    rw [this]; exact actives_nodup g fid sh
  have hzmem : ∀ x ∈ z, x.1 ∈ actives g fid sh ∧ x.2 ∈ us := fun x hx => List.of_mem_zip hx
  let pick : Nat → List Word := fun l => ((z.find? fun x => x.1.1 == l).map (·.2)).getD []
  have hpick : ∀ x ∈ z, pick x.1.1 = x.2 := by
    intro x hx
    have : z.find? (fun y => y.1.1 == x.1.1) = some x := by
      rw [List.find?_eq_some_iff_append]
      refine ⟨by simp, ?_⟩
      obtain ⟨as, bs, hab⟩ := List.append_of_mem hx
      refine ⟨as, bs, hab, fun a ha => ?_⟩
      rw [hab, List.map_append, List.map_cons, List.nodup_append] at hznodup
      have := hznodup.2.2 a.1.1 (List.mem_map_of_mem ha) x.1.1 (by simp)
      simpa using this
    simp [pick, this]
  have houts : z.map (fun (x : (Nat × Thread) × List Word) => (x.1.1, fn g (actives g fid sh) x.2 x.1.1 x.1.2))
      = (z.map fun (x : (Nat × Thread) × List Word) => (x.1.1, w x.2 x.1.1 x.1.2)).map fun y => (y.1, .ok y.2) := by
    rw [List.map_map]
    apply List.map_congr_left
    intro x hx
    obtain ⟨h1, h2⟩ := hzmem x hx
    simp [hw x.2 x.1.1 x.1.2 h1]
  have hfrag : laneFragment sh fn s gid fid = some ((m.setGroup gid fun g' =>
      z.foldl (fun k x => k.setThread x.1.1 fun t => t.apply (sh.uncovered g (s.lanes g.part g.core)) (w x.2 x.1.1 x.1.2))
        ((g.fragLanes fid).foldl (fun k l => k.setThread l fun t => t.age (max 1 sh.stall)) g')).retire gid fid sh.len
        ((g.fragLanes fid).map fun l => (l, .next false))) := by
    unfold laneFragment
    simp only [hc.group, hguard, hviews]
    rw [if_neg (by rw [hheld]; simp)]
    have hact : (withThreads g (g.fragLanes fid)).filter (fun (x : Nat × Thread) => laneActive g sh.unpred sh.pred x.2)
        = actives g fid sh := rfl
    have hcomp : ∀ x ∈ actives g fid sh, Except.completes (fn g (actives g fid sh) [] x.1 x.2) = true := by
      rintro ⟨l, t⟩ hx; rw [hw [] l t hx]; rfl
    have hck : (if (actives g fid sh).any fun x => Except.completes (fn g (actives g fid sh) [] x.1 x.2)
        then s.residueCheck g else (true, s)) = (true, s) := by
      rw [residueCheck_sound s g hc.sound, ite_self]
    have hdr' := (drawAll_congr g _ _ (actives g fid sh) s fun x hx => show
      (if true && Except.completes (fn g (actives g fid sh) [] x.1 x.2) then sh.draws else 0) = sh.draws by
        simp [hcomp x hx]).trans hdr
    simp only [hact, hck, hdr']
    simp only [if_true, ← hz, houts, disposeAll_ok, List.foldl_map]
  have haged : ∀ l ∈ g.fragLanes fid,
      ((g.fragLanes fid).foldl (fun k l => k.setThread l fun t => t.age (max 1 sh.stall)) g).thread? l = g.thread? l := by
    intro l hl
    rw [lanesAfter_foldl _ (fragLanes_nodup g fid) (fun _ t => t.age (max 1 sh.stall)) g l, if_pos hl]
    cases ht : g.thread? l with
    | none => rfl
    | some t => simp [age_settled (hc.settled l hl t ht)]
  set g1 := (g.fragLanes fid).foldl (fun k l => k.setThread l fun t => t.age (max 1 sh.stall)) g with hg1
  set g2 := z.foldl (fun k x => k.setThread x.1.1 fun t => t.apply (sh.uncovered g (s.lanes g.part g.core)) (w x.2 x.1.1 x.1.2)) g1 with hg2
  have hon : OnlyThreads g g2 :=
    (onlyThreads_foldl (fun l : Nat => l) (fun _ t => t.age (max 1 sh.stall)) _ g).trans
      (onlyThreads_foldl (fun x : (Nat × Thread) × List Word => x.1.1) (fun x t => t.apply (sh.uncovered g (s.lanes g.part g.core)) (w x.2 x.1.1 x.1.2)) z g1)
  have hthr : ∀ l, g2.thread? l =
      if l ∈ g.fragLanes fid then (g.thread? l).map fun t =>
        if laneActive g sh.unpred sh.pred t then t.apply (sh.uncovered g (s.lanes g.part g.core)) (w (pick l) l t) else t
      else g.thread? l := by
    intro l
    by_cases hl : l ∈ g.fragLanes fid
    · rw [if_pos hl]
      obtain ⟨t, ht, _⟩ := mem_fragLanes.mp hl
      by_cases ha : laneActive g sh.unpred sh.pred t = true
      · have hm : (l, t) ∈ actives g fid sh := mem_actives.mpr ⟨hl, ht, ha⟩
        rw [← hzmap] at hm
        obtain ⟨x, hx, hxe⟩ := List.mem_map.mp hm
        have := foldl_setThread_of_mem (fun x : (Nat × Thread) × List Word => x.1.1)
          (fun x t => t.apply (sh.uncovered g (s.lanes g.part g.core)) (w x.2 x.1.1 x.1.2)) z g1 x hx hznodup
        have hx1 : x.1.1 = l := by rw [hxe]
        have hx2 : x.1.2 = t := by rw [hxe]
        have hp := hpick x hx
        rw [hx1] at this hp
        rw [hg2, this, haged l hl, ht, hx2, hp]
        simp [ha]
      · rw [hg2, foldl_setThread_of_not_mem (fun x : (Nat × Thread) × List Word => x.1.1), haged l hl, ht]
        · simp [ha]
        · intro h
          obtain ⟨x, hx, hxl⟩ := List.mem_map.mp h
          have h1 := (hzmem x hx).1
          obtain ⟨⟨l', t'⟩, u⟩ := x
          simp only at hxl h1
          subst hxl
          have h2 := mem_actives.mp h1
          rw [ht] at h2
          obtain ⟨_, h3, h4⟩ := h2
          injection h3 with h3
          subst h3
          exact ha h4
    · rw [if_neg hl, hg2, foldl_setThread_of_not_mem (fun x : (Nat × Thread) × List Word => x.1.1)]
      · rw [hg1, lanesAfter_foldl _ (fragLanes_nodup g fid) (fun _ t => t.age (max 1 sh.stall)) g l, if_neg hl]
      · intro h
        obtain ⟨x, hx, hxl⟩ := List.mem_map.mp h
        have h1 := (hzmem x hx).1
        obtain ⟨⟨l', t'⟩, u⟩ := x
        simp only at hxl h1
        subst hxl
        exact hl (mem_actives.mp h1).1
  have hset : (m.setGroup gid fun g' => z.foldl (fun k x => k.setThread x.1.1 fun t => t.apply (sh.uncovered g (s.lanes g.part g.core)) (w x.2 x.1.1 x.1.2))
        ((g.fragLanes fid).foldl (fun k l => k.setThread l fun t => t.age (max 1 sh.stall)) g')).group? gid = some g2 := by
    rw [group?_setGroup, if_pos rfl, hgrp]; rfl
  have hfrags : ∀ l ∈ g.fragLanes fid, ∃ t, g2.thread? l = some t ∧ t.frag = fid := by
    intro l hl
    obtain ⟨t, ht, _, hf⟩ := mem_fragLanes.mp hl
    refine ⟨_, by rw [hthr, if_pos hl, ht]; rfl, ?_⟩
    dsimp only
    split
    · rw [apply_frag, hf]
    · exact hf
  obtain ⟨h, e1, e2, e3, e4⟩ := retire_goesOn _ gid fid sh.len g2 (g.fragLanes fid) (fun _ => .next false) .next hset hc.lanes
    (fragLanes_nodup g fid) hfrags (fun _ _ => rfl) (fun _ _ => rfl)
  refine ⟨pick, m, _, h, ?_, ?_, honly, hzero, (onlyGroup_setGroup m gid _).trans e2, e1, hon.trans e3, ?_⟩
  · unfold laneInstr issue
    rw [hcur]
    simp only [hb, forBundle, hfrag]
  · rintro ⟨l, t⟩ hx
    rw [← hzmap] at hx
    obtain ⟨x, hx', hxe⟩ := List.mem_map.mp hx
    have := hpick x hx'
    rw [hxe] at this
    simp only at this
    rw [this]
    exact heach _ (hzmem x hx').2
  · intro l
    rw [e4 l, hthr l]
    by_cases hl : l ∈ g.fragLanes fid
    · simp only [if_pos hl]
      cases g.thread? l with
      | none => rfl
      | some t =>
        simp only [Option.map_some, Thread.leave, laneNext, Option.some.injEq]
        split <;> simp [apply_pc]
    · simp only [if_neg hl]

/-! ## The terms of the claims -/

theorem executing_eq (g : Group) (fid : Nat) (sh : Shape) : executing g fid sh.unpred sh.pred = actives g fid sh := rfl

theorem apply_wrote {t : Thread} (h : t.Settled) (n : Nat) (w : Writes) (pc : DWord) :
    Wrote t ((t.apply n w).goTo pc false) w pc := by
  have hv : ∀ (xs : List (Nat × Word)) (t : Thread), t.vtag = [] → t.fut = [] →
      (xs.foldl (fun t (x : Nat × Word) => t.putReg n x.1 x.2) t).v = xs.foldl (fun m x => mapPut 0 x.1 x.2 m) t.v ∧
      (xs.foldl (fun t (x : Nat × Word) => t.putReg n x.1 x.2) t).vtag = [] ∧
      (xs.foldl (fun t (x : Nat × Word) => t.putReg n x.1 x.2) t).fut = [] ∧
      (xs.foldl (fun t (x : Nat × Word) => t.putReg n x.1 x.2) t).ptag = t.ptag ∧
      (xs.foldl (fun t (x : Nat × Word) => t.putReg n x.1 x.2) t).p = t.p ∧
      (xs.foldl (fun t (x : Nat × Word) => t.putReg n x.1 x.2) t).x = t.x := by
    intro xs
    induction xs with
    | nil => intro t h1 h2; exact ⟨rfl, h1, h2, rfl, rfl, rfl⟩
    | cons y ys ih =>
      intro t h1 h2
      exact ih (t.putReg n y.1 y.2) (by simp [Thread.putReg, h1, mapErase]) (by simp [Thread.putReg, h2, mapErase])
  have hp : ∀ (xs : List (Nat × Bool)) (t : Thread), t.ptag = [] →
      (xs.foldl (fun t (x : Nat × Bool) => t.putPred n x.1 x.2) t).p = xs.foldl (fun p x => setBit8 p x.1 x.2) t.p ∧
      (xs.foldl (fun t (x : Nat × Bool) => t.putPred n x.1 x.2) t).ptag = [] ∧
      (xs.foldl (fun t (x : Nat × Bool) => t.putPred n x.1 x.2) t).v = t.v ∧
      (xs.foldl (fun t (x : Nat × Bool) => t.putPred n x.1 x.2) t).vtag = t.vtag ∧
      (xs.foldl (fun t (x : Nat × Bool) => t.putPred n x.1 x.2) t).fut = t.fut ∧
      (xs.foldl (fun t (x : Nat × Bool) => t.putPred n x.1 x.2) t).x = t.x := by
    intro xs
    induction xs with
    | nil => intro t h1; exact ⟨rfl, h1, rfl, rfl, rfl, rfl⟩
    | cons y ys ih => intro t h1; exact ih (t.putPred n y.1 y.2) (by simp [Thread.putPred, h1, mapErase])
  have hx : ∀ (xs : List (Nat × Word)) (t : Thread),
      (xs.foldl (fun t (x : Nat × Word) => t.putIndex n x.1 x.2) t).x = xs.foldl (fun m x => mapPut 0 x.1 x.2 m) t.x ∧
      (xs.foldl (fun t (x : Nat × Word) => t.putIndex n x.1 x.2) t).v = t.v ∧
      (xs.foldl (fun t (x : Nat × Word) => t.putIndex n x.1 x.2) t).p = t.p ∧
      (xs.foldl (fun t (x : Nat × Word) => t.putIndex n x.1 x.2) t).vtag = t.vtag ∧
      (xs.foldl (fun t (x : Nat × Word) => t.putIndex n x.1 x.2) t).ptag = t.ptag ∧
      (xs.foldl (fun t (x : Nat × Word) => t.putIndex n x.1 x.2) t).fut = t.fut := by
    intro xs
    induction xs with
    | nil => intro t; exact ⟨rfl, rfl, rfl, rfl, rfl, rfl⟩
    | cons y ys ih => intro t; exact ih (t.putIndex n y.1 y.2)
  obtain ⟨a1, a2, a3, a4, a5, a6⟩ := hv w.v t h.vtag h.fut
  obtain ⟨b1, b2, b3, b4, b5, b6⟩ := hp w.p (w.v.foldl (fun t (x : Nat × Word) => t.putReg n x.1 x.2) t) (by rw [a4, h.ptag])
  obtain ⟨c1, c2, c3, c4, c5, c6⟩ := hx w.x (w.p.foldl (fun t (x : Nat × Bool) => t.putPred n x.1 x.2)
    (w.v.foldl (fun t (x : Nat × Word) => t.putReg n x.1 x.2) t))
  have c0 : t.apply n w = w.x.foldl (fun t (x : Nat × Word) => t.putIndex n x.1 x.2) (w.p.foldl
      (fun t (x : Nat × Bool) => t.putPred n x.1 x.2) (w.v.foldl (fun t (x : Nat × Word) => t.putReg n x.1 x.2) t)) := rfl
  have e1 : (t.apply n w).v = w.v.foldl (fun m x => mapPut 0 x.1 x.2 m) t.v := by
    rw [c0, c2, b3, a1]
  have e2 : (t.apply n w).p = w.p.foldl (fun p x => setBit8 p x.1 x.2) t.p := by
    rw [c0, c3, b1, a5]
  have e3 : (t.apply n w).x = w.x.foldl (fun m x => mapPut 0 x.1 x.2 m) t.x := by
    rw [c0, c1, b6, a6]
  have e4 : (t.apply n w).vtag = t.vtag := by rw [c0, c4, b4, a2, h.vtag]
  have e5 : (t.apply n w).ptag = t.ptag := by rw [c0, c5, b2, h.ptag]
  have e6 : (t.apply n w).fut = t.fut := by rw [c0, c6, b5, a3, h.fut]
  refine ⟨e1, e2, e3, ?_⟩
  have hr := apply_rest t n w
  rw [e4, e5, e6] at hr
  unfold Thread.goTo
  rw [hr]
  rfl

theorem laneEffect_of {i : Instr} {sh : Shape} {fn : LaneFn} {s : State} {gid fid : Nat} {g : Group}
    (hi : exec i s = laneInstr sh fn s) (hc : Calm s gid fid g) (w : List Word → Nat → Thread → Writes)
    (hguard : laneGuard g sh.unpred sh.pred sh.runs sh.forbidden = none)
    (hw : ∀ us l t, (l, t) ∈ executing g fid sh.unpred sh.pred →
      fn g (executing g fid sh.unpred sh.pred) us l t = .ok (w us l t)) :
    LaneEffect i s gid fid g sh.len sh.unpred sh.pred sh.draws w := by
  obtain ⟨us, m, t, h, h1, h2, h3, h4, h5, h6, h7, h8⟩ := laneInstr_calm hc sh fn w hguard hw
  refine ⟨us, m, t, h, hi.trans h1, h2, h3, h4, h5, h6, h7, fun l hl => ?_, fun l hl th hth => ?_⟩
  · rw [h8 l, if_neg hl]
  · refine ⟨_, by rw [h8 l, if_pos hl, hth]; rfl, ?_⟩
    have hs := hc.settled l hl th hth
    unfold laneNext
    split
    · exact apply_wrote hs _ _ _
    · exact apply_wrote hs 0 {} (th.pc + sh.len)

theorem physAll_within {g : Group} {t : Thread} : ∀ {ops : List (Nat × Nat)}, Within g t ops →
    physAll g t ops = .ok (ops.map (regsOf g t))
  | [], _ => rfl
  | op :: ops, h => by
    obtain ⟨rs, hrs⟩ := h op (by simp)
    have ih := physAll_within (g := g) (t := t) (ops := ops) fun o ho => h o (by simp [ho])
    obtain ⟨c, n⟩ := op
    simp [physAll, hrs, ih, regsOf]

theorem readOps_settled {t : Thread} (h : t.Settled) (g : Group) (rss : List (List Nat)) :
    readOps g t rss = .ok (rss.map fun rs => wordsNat (rs.map (mapGet 0 t.v ·))) := by
  induction rss with
  | nil => rfl
  | cons rs rss ih => simp [readOps, readAll_settled h, ih]

theorem operands_settled {t : Thread} (h : t.Settled) {g : Group} {dst : Nat × Nat} {srcs : List (Nat × Nat)}
    (hw : Within g t (dst :: srcs)) :
    operands g t dst srcs = .ok (regsOf g t dst, srcs.map (valueOf g t)) := by
  unfold operands
  rw [physAll_within hw]
  simp only [List.map_cons, readOps_settled h, List.map_map, Except.map]
  rfl

theorem vecCompletes_of {i : Instr} {sh : Shape} {dst : Nat × Nat} {srcs : List (Nat × Nat)}
    {f : List Word → List Nat → Nat} (hi : ∀ s, exec i s = laneInstr sh (vecCalc dst srcs f) s)
    (hf : sh.forbidden = false) :
    VecCompletes i sh.len sh.unpred sh.pred sh.runs sh.draws dst srcs f := by
  intro s gid fid g hc hguard hready
  refine laneEffect_of (hi s) hc _ (by rw [hf]; exact hguard) fun us l t ht => ?_
  have hs := hc.settled l (mem_actives.mp ht).1 t (mem_actives.mp ht).2.1
  unfold vecCalc
  rw [operands_settled hs (hready l t ht)]
  rfl

/-- Register forms and compact forms that compute a vector result. -/
theorem vecCompletes_reg {i : Instr} {f : RForm} {lat : Nat} {runs : List (Nat × Nat)} {draws : Nat} {dst : Nat × Nat}
    {srcs : List (Nat × Nat)} {r : List Word → List Nat → Nat}
    (hi : ∀ s, exec i s = laneInstr (regShape f lat runs draws) (vecCalc dst srcs r) s) :
    VecCompletes i 8 false f.pred runs draws dst srcs r := vecCompletes_of hi rfl

theorem vecCompletes_compact {i : Instr} {dst : Nat × Nat} {srcs : List (Nat × Nat)} {r : List Word → List Nat → Nat}
    (hi : ∀ s, exec i s = laneInstr compactShape (vecCalc dst srcs r) s) :
    VecCompletes i 4 true 7 [] 0 dst srcs r := vecCompletes_of hi rfl

/-- A lane-set register instruction whose lanes, when ready, compute the writes given. -/
theorem laneCompletes_of {i : Instr} {sh : Shape} {fn : LaneFn} {ready : Group → Thread → Prop}
    {w : Group → List (Nat × Thread) → List Word → Nat → Thread → Writes}
    (hi : ∀ s, exec i s = laneInstr sh fn s) (hf : sh.forbidden = false)
    (hw : ∀ g act us l t, t.Settled → (∀ x ∈ act, x.2.Settled ∧ ready g x.2) → (l, t) ∈ act →
      fn g act us l t = .ok (w g act us l t)) :
    LaneCompletes i sh.len sh.unpred sh.pred sh.runs sh.draws ready w := by
  intro s gid fid g hc hguard hready
  have hset : ∀ l t, (l, t) ∈ executing g fid sh.unpred sh.pred → t.Settled := fun l t ht =>
    hc.settled l (mem_actives.mp ht).1 t (mem_actives.mp ht).2.1
  refine laneEffect_of (hi s) hc _ (by rw [hf]; exact hguard) fun us l t ht => ?_
  exact hw g _ us l t (hset l t ht) (fun x hx => ⟨hset x.1 x.2 hx, hready x.1 x.2 hx⟩) ht

theorem predCompletes_reg {i : Instr} {f : RForm} {lat : Nat} {runs : List (Nat × Nat)} {d : Nat}
    {srcs : List (Nat × Nat)} {r : List Nat → Bool}
    (hi : ∀ s, exec i s = laneInstr (regShape f lat runs) (predCalc d srcs r) s) :
    LaneCompletes i 8 false f.pred runs 0 (fun g t => Within g t srcs) fun g _ _ _ t =>
      { p := [(d, r (srcs.map (valueOf g t)))] } := by
  refine laneCompletes_of hi rfl fun g act us l t hs hready ht => ?_
  unfold predCalc
  rw [physAll_within (hready (l, t) ht).2]
  simp only [readOps_settled hs, List.map_map, Except.map]
  rfl

/-! ## Operands of cross-lane instructions -/

theorem within_one {g : Group} {t : Thread} {c : BitVec 10} (h : Within g t [single c]) :
    ∃ r, physReg g t c.toNat = .ok r ∧ regsOf g t (single c) = [r] := by
  obtain ⟨rs, hrs⟩ := h (single c) (by simp)
  simp only [single, physRun, le_refl, if_true] at hrs
  cases hp : physReg g t c.toNat with
  | error e => simp [hp, Except.map] at hrs
  | ok r => exact ⟨r, rfl, by simp [regsOf, single, physRun, hp, Except.map]⟩

theorem sourceOf_settled {g : Group} {t : Thread} {a : Nat × Nat} (hs : t.Settled) (h : Within g t [a]) :
    sourceOf g a t = .ok (valueOf g t a) := by
  unfold sourceOf
  rw [physAll_within h]
  simp only [readOps_settled hs, Except.map, List.map]
  rfl

theorem offers_all {α : Type} {act : List (Nat × Thread)} {f : Thread → Except Stop α} {v : Thread → α}
    (h : ∀ x ∈ act, f x.2 = .ok (v x.2)) : offers act f = act.map fun x => (x.1, v x.2) := by
  unfold offers
  induction act with
  | nil => rfl
  | cons x xs ih =>
    have := ih fun y hy => h y (by simp [hy])
    have hx := h x (by simp)
    obtain ⟨l, t⟩ := x
    simp only at hx
    simp [hx, this]

theorem within_mono {g : Group} {t : Thread} {as bs : List (Nat × Nat)} (h : Within g t bs) (hs : ∀ x ∈ as, x ∈ bs) :
    Within g t as := fun o ho => h o (hs o ho)


theorem readS_ok {g : Group} {k : Nat} (h : mapFind k g.stag = none) : readS g k = .ok (mapGet 0 g.s k) := by
  simp [readS, h]

end Sys2Proof.Machine
end

