-- ==== Sys2Proof/Laws/Uni.lean ====
section
/-! SUPPORT. The frame of uniform-set instructions and of instructions that act on a fragment as a whole, from a calm
state. -/

namespace Sys2Proof.Machine

/-- Lanes of a fragment stand where the fragment's threads say, whatever else of the group changed. -/
theorem fragLanes_congr {g h : Group} (ht : h.threads = g.threads) (fid : Nat) : h.fragLanes fid = g.fragLanes fid := by
  unfold Group.fragLanes Group.lanesWhere
  rw [ht]

/-- The lanes of a fragment whose threads age and all go on. -/
theorem aged_goesOn (m : State) (gid fid : Nat) (len : DWord) (o : Bool) (n : Nat) (g1 : Group)
    (hm : m.group? gid = some g1) (hne : g1.fragLanes fid ≠ [])
    (hs : ∀ l ∈ g1.fragLanes fid, ∀ t, g1.thread? l = some t → t.Settled) :
    ∃ h, ((m.setGroup gid fun g => (g1.fragLanes fid).foldl (fun g l => g.setThread l fun t => t.age n) g).retire gid fid
        len ((g1.fragLanes fid).map fun l => (l, .next o))).group? gid = some h ∧
      OnlyGroup m ((m.setGroup gid fun g => (g1.fragLanes fid).foldl (fun g l => g.setThread l fun t => t.age n) g).retire
        gid fid len ((g1.fragLanes fid).map fun l => (l, .next o))) gid ∧
      OnlyThreads g1 h ∧ LanesAfter (g1.fragLanes fid) (fun _ th => th.goTo (th.pc + len) o) g1 h := by
  set g2 := (g1.fragLanes fid).foldl (fun g l => g.setThread l fun t => t.age n) g1 with hg2
  have hl2 : ∀ l, g2.thread? l = g1.thread? l := by
    intro l
    rw [hg2, lanesAfter_foldl _ (fragLanes_nodup g1 fid) (fun _ t => t.age n) g1 l]
    split
    · cases ht : g1.thread? l with
      | none => rfl
      | some t => simp [age_settled (hs l ‹_› t ht)]
    · rfl
  have hset : (m.setGroup gid fun g => (g1.fragLanes fid).foldl (fun g l => g.setThread l fun t => t.age n) g).group? gid
      = some g2 := by
    rw [group?_setGroup, if_pos rfl, hm]; rfl
  have hfr : ∀ l ∈ g1.fragLanes fid, ∃ t, g2.thread? l = some t ∧ t.frag = fid := by
    intro l hl
    obtain ⟨t, ht, _, hf⟩ := mem_fragLanes.mp hl
    exact ⟨t, by rw [hl2, ht], hf⟩
  obtain ⟨h, e1, e2, e3, e4⟩ := retire_goesOn _ gid fid len g2 (g1.fragLanes fid) (fun _ => .next o) .next hset hne
    (fragLanes_nodup g1 fid) hfr (fun _ _ => rfl) (fun _ _ => rfl)
  refine ⟨h, e1, (onlyGroup_setGroup m gid _).trans e2,
    (onlyThreads_foldl (fun l : Nat => l) (fun _ t => t.age n) _ g1).trans e3, fun l => ?_⟩
  rw [e4 l, hl2 l]
  rfl

/-- A uniform-set instruction whose group executes it and goes on from the state `m`. -/
theorem uniInstr_done {i : Instr} {s m : State} {gid fid : Nat} {g g1 : Group} {len : DWord} {pred : BitVec 4}
    {forbidden o : Bool} {fn : State → Nat → Group → List Nat → UniOut} (hc : Calm s gid fid g)
    (hi : exec i s = uniInstr len pred forbidden fn s) (hf : (forbidden && g.region) = false)
    (ha : uniActive g pred = true) (hfn : fn s gid g (g.fragLanes fid) = .done m (.next o))
    (hm : m.group? gid = some g1) (hlanes : g1.fragLanes fid = g.fragLanes fid)
    (hs : ∀ l ∈ g1.fragLanes fid, ∀ t, g1.thread? l = some t → t.Settled) :
    GroupEffect i s m gid fid len o g1 := by
  obtain ⟨c, b, hcur, hb⟩ := hc.atIssue
  obtain ⟨h, e1, e2, e3, e4⟩ := aged_goesOn m gid fid len o 1 g1 hm (by rw [hlanes]; exact hc.lanes) hs
  refine ⟨_, h, ?_, e2, e1, e3, e4⟩
  rw [hi]
  unfold uniInstr issue
  rw [hcur]
  simp only [hb, forBundle, uniFragment, hc.group, hf, ha, hfn, if_true, hlanes]
  rfl

/-- A uniform-set instruction whose group does not execute it. -/
theorem uniInstr_skip {i : Instr} {s : State} {gid fid : Nat} {g : Group} {len : DWord} {pred : BitVec 4}
    {forbidden : Bool} {fn : State → Nat → Group → List Nat → UniOut} (hc : Calm s gid fid g)
    (hi : exec i s = uniInstr len pred forbidden fn s) (hf : (forbidden && g.region) = false)
    (ha : uniActive g pred = false) : GroupEffect i s s gid fid len false g := by
  obtain ⟨c, b, hcur, hb⟩ := hc.atIssue
  obtain ⟨h, e1, e2, e3, e4⟩ := aged_goesOn s gid fid len false 1 g hc.group hc.lanes hc.settled
  refine ⟨_, h, ?_, e2, e1, e3, e4⟩
  rw [hi]
  unfold uniInstr issue
  rw [hcur]
  simp only [hb, forBundle, uniFragment, hc.group, hf, ha]
  rfl

/-- A uniform-set register instruction. -/
theorem uniCompletes_regs {i : Instr} {len : DWord} {pred : BitVec 4} {ready : Group → Prop} {upd : Group → Group}
    {fn : Group → Except Stop Group} (hi : ∀ s, exec i s = uniRegs len pred fn s)
    (hfn : ∀ g, ready g → fn g = .ok (upd g)) (hu : ∀ g, (upd g).threads = g.threads) :
    UniCompletes i len pred ready upd := by
  intro s gid fid g hc hr
  cases ha : uniActive g pred with
  | false => simpa using uniInstr_skip hc (hi s) rfl ha
  | true =>
    have hset : (s.setGroup gid fun _ => upd g).group? gid = some (upd g) := by
      rw [group?_setGroup, if_pos rfl, hc.group]; rfl
    have hl := fragLanes_congr (hu g) fid
    have hd := uniInstr_done (m := s.setGroup gid fun _ => upd g) (g1 := upd g) (o := false) hc (hi s) rfl ha
      (by simp [State.checked, residueCheck_sound s g hc.sound, hfn g (hr ha)]) hset hl
      (fun l hl' t ht => hc.settled l (hl ▸ hl') t (by unfold Group.thread? at ht ⊢; rw [← hu g]; exact ht))
    obtain ⟨t, h, h1, h2, h3⟩ := hd
    exact ⟨t, h, h1, (onlyGroup_setGroup s gid _).trans h2, by simpa using h3⟩

/-! ## Uniform operands -/

theorem readS_quiet {g : Group} (h : g.Quiet) (k : Nat) : readS g k = .ok (mapGet 0 g.s k) :=
  readS_ok (by simp [h.stag])

theorem readA_quiet {g : Group} (h : g.Quiet) (k : Nat) : readA g k = .ok (mapGet {} g.a k) := by
  simp [readA, h.atag]

theorem readSWide_quiet {g : Group} (h : g.Quiet) (op : Nat × Bool) : readSWide g op.2 op.1 = .ok (uniValue g op) := by
  unfold readSWide uniValue
  cases hw : op.2 <;> simp [readS_quiet h, Except.map]

theorem readUnis_quiet {g : Group} (h : g.Quiet) (ops : List (Nat × Bool)) :
    readUnis g ops = .ok (ops.map (uniValue g)) := by
  induction ops with
  | nil => rfl
  | cons op ops ih => obtain ⟨k, w⟩ := op; simp [readUnis, readSWide_quiet h (k, w), ih]

/-- A uniform-set instruction that computes one register or pair. -/
theorem uniCompletes_calc {i : Instr} {len : DWord} {pred : BitVec 4} {d : Nat} {wide : Bool}
    {srcs : List (Nat × Bool)} {f : List Nat → Nat} (hi : ∀ s, exec i s = uniCalc len pred d wide srcs f s) :
    UniCompletes i len pred Group.Quiet fun g => g.putSWide wide d (f (srcs.map (uniValue g))) := by
  refine uniCompletes_regs hi (fun g hq => by rw [readUnis_quiet hq]; rfl) fun g => ?_
  unfold Group.putSWide
  split <;> rfl

end Sys2Proof.Machine
end

