-- ==== Sys2Proof/Laws/Leave.lean ====
section
/-! SUPPORT. Retiring an instruction whose lanes go on, park or file apart, none raising a cause and none exiting: the
fragment divides, and nothing changes but the threads, their fragments and their places in bundles. -/

namespace Sys2Proof.Machine

/-- A lane that neither raises a cause nor exits. -/
def Dispo.stays (d : Dispo) : Bool :=
  match d with
  | .raise _ => false
  | .exit => false
  | _ => true

/-- The same thread, in whatever fragment. -/
def SameBut (a b : Option Thread) : Prop := ∃ f : Thread → Nat, b = a.map fun t => { t with frag := f t }

theorem SameBut.refl (a : Option Thread) : SameBut a a := ⟨(·.frag), by cases a <;> rfl⟩

theorem SameBut.trans {a b c : Option Thread} (h : SameBut a b) (k : SameBut b c) : SameBut a c := by
  obtain ⟨f, rfl⟩ := h; obtain ⟨e, rfl⟩ := k
  cases a with
  | none => exact ⟨(·.frag), rfl⟩
  | some t => exact ⟨fun _ => e { t with frag := f t }, rfl⟩

theorem putFrag_thread (g : Group) (ls : List Nat) (p : Nat) (m : Mask) (l : Nat) :
    SameBut (g.thread? l) ((g.putFrag ls p m).thread? l) ∧
      (l ∉ ls → (g.putFrag ls p m).thread? l = g.thread? l) := by
  unfold Group.putFrag
  simp only
  generalize hg : ({ g with frags := { id := g.freshFrag, parent := p, sib := m } :: g.frags } : Group) = g'
  have h0 : g'.thread? l = g.thread? l := by subst hg; rfl
  rw [← h0]
  generalize g.freshFrag = n
  clear hg h0
  induction ls generalizing g' with
  | nil => exact ⟨.refl _, fun _ => rfl⟩
  | cons k ks ih =>
    rw [List.foldl_cons]
    obtain ⟨h1, h2⟩ := ih (g'.setThread k fun t => { t with frag := n })
    rw [thread?_setThread] at h1 h2
    by_cases hk : l = k
    · subst hk
      simp only [if_true] at h1
      exact ⟨SameBut.trans ⟨fun _ => n, rfl⟩ h1, fun h => absurd (by simp) h⟩
    · simp only [if_neg hk] at h1 h2
      exact ⟨h1, fun h => h2 (by simp at h; exact h.2)⟩

theorem putFrag_rest (g : Group) (ls : List Nat) (p : Nat) (m : Mask) : OnlyThreads g (g.putFrag ls p m) :=
  onlyThreads_foldl (fun l : Nat => l) (fun _ t => { t with frag := g.freshFrag }) ls
    { g with frags := { id := g.freshFrag, parent := p, sib := m } :: g.frags } |> fun h => by
      unfold OnlyThreads at h ⊢
      unfold Group.putFrag
      rw [h]

theorem foldl_putFrag (ps : List (PartKey × List Nat)) (fid : Nat) (m : Mask) (g : Group) (l : Nat) :
    SameBut (g.thread? l) ((ps.foldl (fun g p => g.putFrag p.2 fid m) g).thread? l) ∧
      ((∀ p ∈ ps, l ∉ p.2) → (ps.foldl (fun g p => g.putFrag p.2 fid m) g).thread? l = g.thread? l) ∧
      OnlyThreads g (ps.foldl (fun g p => g.putFrag p.2 fid m) g) := by
  induction ps generalizing g with
  | nil => exact ⟨.refl _, fun _ => rfl, rfl⟩
  | cons p ps ih =>
    obtain ⟨h1, h2, h3⟩ := ih (g.putFrag p.2 fid m)
    obtain ⟨k1, k2⟩ := putFrag_thread g p.2 fid m l
    refine ⟨k1.trans h1, fun h => ?_, (putFrag_rest g p.2 fid m).trans h3⟩
    rw [List.foldl_cons, h2 fun q hq => h q (by simp [hq]), k2 (h p (by simp))]

theorem divide_thread (g : Group) (fid : Nat) (ps : List (PartKey × List Nat)) (l : Nat) :
    SameBut (g.thread? l) ((g.divide fid ps).thread? l) ∧
      ((∀ p ∈ ps, l ∉ p.2) → (g.divide fid ps).thread? l = g.thread? l) ∧ OnlyThreads g (g.divide fid ps) := by
  unfold Group.divide
  simp only
  split
  · exact ⟨.refl _, fun _ => rfl, rfl⟩
  · exact ⟨.refl _, fun _ => rfl, rfl⟩
  · obtain ⟨h1, h2, h3⟩ := foldl_putFrag (ps.filter fun p => p.1 != .exit) fid
      (maskOf ((ps.filter fun p => p.1 != .exit).flatMap (·.2))) g l
    exact ⟨h1, fun h => h2 fun p hp => h p (List.mem_filter.mp hp).1, h3⟩

/-- The lanes of the classes are the lanes classed. -/
theorem mem_classes {κ : Type} [DecidableEq κ] (key : Nat → κ) :
    ∀ (ls : List Nat) (c : κ × List Nat), c ∈ classes key ls → ∀ l ∈ c.2, l ∈ ls
  | [], c, h => by simp [classes] at h
  | k :: ls, c, h => by
    intro l hl
    have ih := mem_classes key ls
    rw [classes] at h
    cases hd : (classes key ls).find? (fun c => c.1 == key k) with
    | some d =>
      simp only [hd] at h
      have hdm := List.mem_of_find?_eq_some hd
      rcases List.mem_cons.mp h with rfl | h
      · rcases List.mem_cons.mp hl with rfl | hl
        · simp
        · exact List.mem_cons_of_mem _ (ih d hdm l hl)
      · exact List.mem_cons_of_mem _ (ih c (List.mem_filter.mp h).1 l hl)
    | none =>
      simp only [hd] at h
      rcases List.mem_cons.mp h with rfl | h
      · simp at hl; simp [hl]
      · exact List.mem_cons_of_mem _ (ih c h l hl)

theorem trapsOf_stays (g : Group) (fid : Nat) (ls : List Nat) (d : Nat → Dispo) (hd : ∀ l ∈ ls, (d l).stays = true) :
    trapsOf g fid (ls.map fun l => (l, d l)) = [] := by
  unfold trapsOf
  rw [List.filterMap_eq_nil_iff]
  intro x hx
  obtain ⟨l, hl, rfl⟩ := List.mem_map.mp hx
  have := hd l hl
  cases h : d l <;> simp_all [Dispo.stays]

theorem exitsOf_stays (ls : List Nat) (d : Nat → Dispo) (hd : ∀ l ∈ ls, (d l).stays = true) :
    exitsOf (ls.map fun l => (l, d l)) = [] := by
  unfold exitsOf
  rw [List.filterMap_eq_nil_iff]
  intro x hx
  obtain ⟨l, hl, rfl⟩ := List.mem_map.mp hx
  have := hd l hl
  cases h : d l <;> simp_all [Dispo.stays]

theorem onlyPlaces_of_onlyGroup {s t : State} {gid : Nat} (h : OnlyGroup s t gid) : OnlyPlaces s t gid := by
  refine ⟨?_, fun k => by rw [h.cores k], h.others⟩
  have := h.rest
  rw [this]

theorem OnlyPlaces.trans {s t u : State} {gid : Nat} (h : OnlyPlaces s t gid) (h' : OnlyPlaces t u gid) :
    OnlyPlaces s u gid := by
  refine ⟨?_, fun k => ?_, fun k hk => (h'.others k hk).trans (h.others k hk)⟩
  · have h1 := h.rest; have h2 := h'.rest
    rw [h1] at h2
    exact h2
  · have h1 := h.cores k; have h2 := h'.cores k
    rw [h1] at h2
    exact h2

theorem tick_group (s : State) (b : Bool) (k : Nat) : (s.tick b).group? k = s.group? k := by
  unfold State.tick; split <;> rfl

theorem tick_core (s : State) (b : Bool) (k : Nat) : (s.tick b).core k = s.core k := by
  unfold State.tick; split <;> rfl

theorem tick_rest (s : State) (b : Bool) : s.tick b = { s with seq := (s.tick b).seq } := by
  unfold State.tick; split <;> rfl

/-- Retiring where no lane raises a cause and none exits. -/
theorem retire_stays (s : State) (gid fid : Nat) (len : DWord) (g : Group) (ls : List Nat) (d : Nat → Dispo)
    (hg : s.group? gid = some g) (hn : ls.Nodup) (hd : ∀ l ∈ ls, (d l).stays = true)
    (hr : ∀ r ∈ g.late, r.lane ∈ ls → (d r.lane).settles = false) :
    ∃ h : Group, (s.retire gid fid len (ls.map fun l => (l, d l))).group? gid = some h ∧
      OnlyPlaces s (s.retire gid fid len (ls.map fun l => (l, d l))) gid ∧
      h = { g with threads := h.threads, frags := h.frags, parkedAt := h.parkedAt } ∧
      (∀ l, l ∉ ls → h.thread? l = g.thread? l) ∧
      ∀ l ∈ ls, SameBut ((g.thread? l).map fun t => t.leave len (d l)) (h.thread? l) := by
  set ds := ls.map fun l => (l, d l) with hds
  have htraps := trapsOf_stays g fid ls d hd
  have hla := lanesAfter_foldl ls hn (fun l t => t.leave len (d l)) g
  have hpm : ∀ p ∈ partsOf ds, ∀ l ∈ p.2, l ∈ ls := by
    intro p hp l hl
    have := mem_classes _ _ p hp l hl
    rw [hds] at this
    simpa [Function.comp_def] using this
  set h0 := ((g.leaveAll len ds).divide fid (partsOf ds)).pruneFrags with hh0
  have hret : g.retired fid len ds s.seq = h0.notePark (parksIn ds) s.seq := by
    unfold Group.retired
    have hlate : ((((g.leaveAll len ds).divide fid (partsOf ds)).pruneFrags).notePark (parksIn ds) s.seq).late = g.late := by
      have h1 := (onlyThreads_foldl (fun l : Nat => l) (fun l t => t.leave len (d l)) ls g).trans
        (by rw [← leaveAll_map]; exact (divide_thread (g.leaveAll len ds) fid (partsOf ds) 0).2.2)
      have h3 : ((g.leaveAll len ds).divide fid (partsOf ds)).late = g.late := by rw [h1]
      unfold Group.notePark
      split <;> exact h3
    rw [closeLate_none]
    · simp [hds, htraps, Group.noteHold, hh0]
    · intro r hr'
      rw [hds, htraps] at hr'
      have hl : r ∈ g.late := by
        rw [← hlate, hds]
        simpa [Group.noteHold] using hr'
      simp only [hds, List.any_eq_false, List.mem_map]
      rintro x ⟨l, hm, rfl⟩
      by_cases e : l = r.lane
      · subst e; simp [hr r hl hm]
      · simp [e]
  have honly : OnlyThreads g h0 :=
    ((onlyThreads_foldl (fun l : Nat => l) (fun l t => t.leave len (d l)) ls g).trans
      (by rw [← leaveAll_map]; exact (divide_thread _ fid (partsOf ds) 0).2.2)).trans (onlyThreads_prune _)
  have hcore : h0.core = g.core := by rw [honly]
  set h := h0.notePark (parksIn ds) s.seq with hh
  have hht : ∀ l, h.thread? l = h0.thread? l := by
    intro l; rw [hh]; unfold Group.notePark; split <;> rfl
  have hhr : h = { h0 with parkedAt := h.parkedAt } := by
    rw [hh]; unfold Group.notePark; split <;> rfl
  have heq : s.retire gid fid len ds =
      (((s.tick (parksIn ds)).setGroup gid fun _ => h).setCore h.core (·.follow (gid, fid) (h.keptFrag (partsOf ds)))) := by
    unfold State.retire
    simp only [hg, hret]
    have h1 : trapsOf g fid ds = [] := htraps
    have h2 : exitsOf ds = [] := exitsOf_stays ls d hd
    rw [h1, h2]
    rfl
  refine ⟨h, ?_, ?_, ?_, fun l hl => ?_, fun l hl => ?_⟩
  · rw [heq, group?_setCore, group?_setGroup, if_pos rfl, tick_group, hg]; rfl
  · rw [heq]
    refine ⟨?_, fun k => ?_, fun k hk => ?_⟩
    · unfold State.tick
      split <;> rfl
    · rw [core_setCore]
      split
      · subst_vars; rw [core_setGroup, tick_core]; rfl
      · rw [core_setGroup, tick_core]
    · rw [group?_setCore, group?_setGroup, if_neg hk, tick_group]
  · rw [hhr, honly]
  · rw [hht, hh0, thread?_prune, (divide_thread _ _ _ l).2.1 fun p hp hl' => hl (hpm p hp l hl'), hds, leaveAll_map, hla l,
      if_neg hl]
  · rw [hht, hh0, thread?_prune]
    have := hla l
    rw [if_pos hl, ← leaveAll_map, ← hds] at this
    rw [← this]
    exact (divide_thread _ _ _ l).1

end Sys2Proof.Machine
end

