-- ==== Sys2Proof/Laws/Seq.lean ====
section
/-! SUPPORT. The frame of lane-set instructions with effects outside the lane, from a calm state: the lanes in turn, then
the leaving of all. -/

namespace Sys2Proof.Machine

/-- The disposition of a lane among those of the lanes that had their turn. -/
def dispoOf (ds : List (Nat × Dispo)) (l : Nat) : Dispo := ((ds.find? (·.1 == l)).map (·.2)).getD (.next false)

theorem dispoOf_pair (ds : List (Nat × Dispo)) (l : Nat) :
    (ds.find? (·.1 == l)).getD (l, .next false) = (l, dispoOf ds l) := by
  unfold dispoOf
  cases h : ds.find? (·.1 == l) with
  | none => rfl
  | some x =>
    have := List.find?_some h
    simp at this
    simp [← this]

theorem dispoOf_map (xs : List (Nat × Thread)) (hn : (xs.map (·.1)).Nodup) (d : Nat → Thread → Dispo) (l : Nat)
    (t : Thread) (h : (l, t) ∈ xs) : dispoOf (xs.map fun x => (x.1, d x.1 x.2)) l = d l t := by
  unfold dispoOf
  induction xs with
  | nil => simp at h
  | cons x xs ih =>
    simp only [List.map_cons, List.nodup_cons] at hn
    rcases List.mem_cons.mp h with rfl | h
    · simp
    · have : x.1 ≠ l := by rintro rfl; exact hn.1 (List.mem_map_of_mem (f := (·.1)) h)
      simpa [this] using ih hn.2 h

theorem dispoOf_absent (ds : List (Nat × Dispo)) (l : Nat) (h : l ∉ ds.map (·.1)) : dispoOf ds l = .next false := by
  unfold dispoOf
  have : ds.find? (·.1 == l) = none := by
    rw [List.find?_eq_none]
    intro x hx hxl
    exact h (List.mem_map.mpr ⟨x, hx, by simpa using hxl⟩)
  simp [this]

/-- Lanes that only go where they go. -/
theorem seqLanes_stop (fn : State → Nat → Thread → LaneOut) (xs : List (Nat × Thread)) (s : State)
    (d : Nat → Thread → Dispo) (h : ∀ x ∈ xs, fn s x.1 x.2 = .stop (d x.1 x.2)) :
    seqLanes fn xs s = some (s, xs.map fun x => (x.1, d x.1 x.2)) := by
  induction xs with
  | nil => rfl
  | cons x xs ih =>
    obtain ⟨l, t⟩ := x
    have h1 := h (l, t) (by simp)
    simp only at h1
    simp [seqLanes, h1, ih fun y hy => h y (by simp [hy])]

/-- Lanes that each do their own thing to the state, whatever the lanes before them did. -/
theorem seqLanes_done (fn : State → Nat → Thread → LaneOut) (P : State → Prop) (eff : State → Nat → Thread → State)
    (d : Nat → Thread → Dispo) :
    ∀ (xs : List (Nat × Thread)) (s : State), P s →
      (∀ x ∈ xs, ∀ m, P m → fn m x.1 x.2 = .done (eff m x.1 x.2) (d x.1 x.2) ∧ P (eff m x.1 x.2)) →
      seqLanes fn xs s = some (xs.foldl (fun m x => eff m x.1 x.2) s, xs.map fun x => (x.1, d x.1 x.2)) ∧
        P (xs.foldl (fun m x => eff m x.1 x.2) s)
  | [], s, hp, _ => ⟨rfl, hp⟩
  | (l, t) :: xs, s, hp, h => by
    obtain ⟨h1, h2⟩ := h (l, t) (by simp) s hp
    obtain ⟨k1, k2⟩ := seqLanes_done fn P eff d xs (eff s l t) h2 fun y hy => h y (by simp [hy])
    simp only at h1
    simp only [seqLanes, h1, k1, List.foldl_cons, List.map_cons]
    exact ⟨rfl, k2⟩

/-- A thread that no latency of a result is running for. -/
structure Thread.Plain (t : Thread) : Prop where
  vhaz : t.vhaz = []
  phaz : t.phaz = []
  xhaz : t.xhaz = []

theorem Thread.Settled.plain {t : Thread} (h : t.Settled) : t.Plain := ⟨h.vhaz, h.phaz, h.xhaz⟩

theorem age_plain {t : Thread} (h : t.Plain) (n : Nat) : t.age n = t := by
  unfold Thread.age
  simp [h.vhaz, h.phaz, h.xhaz]

/-- The lanes of a fragment whose threads age and leave as they do. -/
theorem aged_leaves (m : State) (gid fid : Nat) (len : DWord) (n : Nat) (g1 : Group) (ls : List Nat) (d : Nat → Dispo)
    (hm : m.group? gid = some g1) (hn : ls.Nodup)
    (hs : ∀ l ∈ ls, ∀ t, g1.thread? l = some t → t.Plain) (hd : ∀ l ∈ ls, (d l).stays = true)
    (hr : ∀ r ∈ g1.late, r.lane ∈ ls → (d r.lane).settles = false) :
    ∃ h, ((m.setGroup gid fun g => ls.foldl (fun g l => g.setThread l fun t => t.age n) g).retire gid fid
        len (ls.map fun l => (l, d l))).group? gid = some h ∧
      OnlyPlaces m ((m.setGroup gid fun g => ls.foldl (fun g l => g.setThread l fun t => t.age n) g).retire
        gid fid len (ls.map fun l => (l, d l))) gid ∧
      h = { g1 with threads := h.threads, frags := h.frags, parkedAt := h.parkedAt } ∧
      (∀ l, l ∉ ls → h.thread? l = g1.thread? l) ∧
      ∀ l ∈ ls, SameBut ((g1.thread? l).map fun t => t.leave len (d l)) (h.thread? l) := by
  set g2 := ls.foldl (fun g l => g.setThread l fun t => t.age n) g1 with hg2
  have hl2 : ∀ l, g2.thread? l = g1.thread? l := by
    intro l
    rw [hg2, lanesAfter_foldl _ hn (fun _ t => t.age n) g1 l]
    split
    · cases ht : g1.thread? l with
      | none => rfl
      | some t => simp [age_plain (hs l ‹_› t ht)]
    · rfl
  have hset : (m.setGroup gid fun g => ls.foldl (fun g l => g.setThread l fun t => t.age n) g).group? gid
      = some g2 := by
    rw [group?_setGroup, if_pos rfl, hm]; rfl
  have h2 : OnlyThreads g1 g2 := onlyThreads_foldl (fun l : Nat => l) (fun _ t => t.age n) _ g1
  have hlate : g2.late = g1.late := by rw [h2]
  obtain ⟨h, e1, e2, e3, e4, e5⟩ := retire_stays _ gid fid len g2 ls d hset hn hd (hlate ▸ hr)
  refine ⟨h, e1, (onlyPlaces_of_onlyGroup (onlyGroup_setGroup m gid _)).trans e2, ?_, fun l hl => ?_, fun l hl => ?_⟩
  · rw [h2] at e3; exact e3
  · rw [e4 l hl, hl2]
  · rw [← hl2]; exact e5 l hl

theorem leaves_lanes {g1 h : Group} {len : DWord} {ls : List Nat} {d : Nat → Dispo}
    (h5 : ∀ l ∈ ls, SameBut ((g1.thread? l).map fun t => t.leave len (d l)) (h.thread? l)) :
    ∀ l ∈ ls, ∀ th, g1.thread? l = some th → ∃ f, h.thread? l = some { th.leave len (d l) with frag := f } := by
  intro l hl th hth
  obtain ⟨f, hf⟩ := h5 l hl
  rw [hth] at hf
  exact ⟨_, hf⟩

theorem anyHeld {g : Group} {fid : Nat} (sh : Shape)
    (hs : ∀ l ∈ g.fragLanes fid, ∀ t, g.thread? l = some t → t.Settled) :
    (withThreads g (g.fragLanes fid)).any (fun (x : Nat × Thread) => predHeld g sh.unpred sh.pred x.2) = false := by
  rw [List.any_eq_false]
  rintro ⟨l, t⟩ hx
  obtain ⟨hl, ht⟩ := mem_withThreads.mp hx
  simp [predHeld_settled (hs l hl t ht)]

/-- What a fragment of such an instruction comes to. -/
theorem seqFragmentWith_eq {s m m2 : State} {gid fid : Nat} {g : Group} {sh : Shape}
    {fn : Nat → State → Nat → Thread → LaneOut} {fin : Together} {ds ds2 : List (Nat × Dispo)} (hc : Calm s gid fid g)
    (hguard : laneGuard g sh.unpred sh.pred sh.runs sh.forbidden = none)
    (hseq : seqLanes (fn gid) (actives g fid sh) s = some (m, ds))
    (hfin : fin gid (m.setGroup gid fun g' =>
      (g.fragLanes fid).foldl (fun k l => k.setThread l fun t => t.age (max 1 sh.stall)) g') ds = (m2, ds2)) :
    seqFragmentWith sh fn fin s gid fid =
      some (m2.retire gid fid sh.len ((g.fragLanes fid).map fun l => (l, dispoOf ds2 l))) := by
  unfold seqFragmentWith
  simp only [hc.group, hguard, views_settled g s (g.fragLanes fid) hc.settled]
  rw [if_neg (by rw [anyHeld sh hc.settled]; simp)]
  have hact : (withThreads g (g.fragLanes fid)).filter (fun (x : Nat × Thread) => laneActive g sh.unpred sh.pred x.2)
      = actives g fid sh := rfl
  simp only [hact, hseq, hfin, dispoOf_pair]

theorem issue_one {s : State} {gid fid : Nat} {g : Group} (hc : Calm s gid fid g) {f : State → Nat → Nat → Option State}
    {t : State} (h : f s gid fid = some t) : issue f s = .next t := by
  obtain ⟨c, b, hcur, hb⟩ := hc.atIssue
  unfold issue
  rw [hcur]
  simp only [hb, forBundle, h]

/-- A lane-set instruction with effects outside the lane completes where its lanes, in turn, lead to `m` and stay. -/
theorem seq_leaves {i : Instr} {s m : State} {gid fid : Nat} {g g1 : Group} {sh : Shape}
    {fn : Nat → State → Nat → Thread → LaneOut} {ds : List (Nat × Dispo)} (hc : Calm s gid fid g)
    (hi : exec i s = seqInstr sh fn s)
    (hguard : laneGuard g sh.unpred sh.pred sh.runs sh.forbidden = none)
    (hseq : seqLanes (fn gid) (actives g fid sh) s = some (m, ds))
    (hm : m.group? gid = some g1) (hl : g1.fragLanes fid = g.fragLanes fid)
    (hs : ∀ l ∈ g1.fragLanes fid, ∀ t, g1.thread? l = some t → t.Plain)
    (hd : ∀ l ∈ g1.fragLanes fid, (dispoOf ds l).stays = true)
    (hr : ∀ r ∈ g1.late, r.lane ∈ g1.fragLanes fid → (dispoOf ds r.lane).settles = false) :
    Leaves i s m gid fid (fun l t => t.leave sh.len (dispoOf ds l)) g1 := by
  obtain ⟨h, e1, e2, e3, e4, e5⟩ := aged_leaves m gid fid sh.len (max 1 sh.stall) g1 (g1.fragLanes fid) (dispoOf ds) hm
    (fragLanes_nodup g1 fid) hs hd hr
  refine ⟨_, h, ?_, e2, e1, e3, e4, leaves_lanes e5⟩
  rw [hi]
  refine issue_one hc ?_
  rw [hl]
  exact seqFragmentWith_eq hc hguard hseq rfl

/-- A uniform-set instruction completes where it leads its group to `m` and its fragment stays. -/
theorem uni_leaves {i : Instr} {s m : State} {gid fid : Nat} {g g1 : Group} {len : DWord} {pred : BitVec 4}
    {forbidden : Bool} {d : Dispo} {fn : State → Nat → Group → List Nat → UniOut} (hc : Calm s gid fid g)
    (hi : exec i s = uniInstr len pred forbidden fn s) (hf : (forbidden && g.region) = false)
    (ha : uniActive g pred = true) (hfn : fn s gid g (g.fragLanes fid) = .done m d)
    (hm : m.group? gid = some g1) (hl : g1.fragLanes fid = g.fragLanes fid)
    (hs : ∀ l ∈ g1.fragLanes fid, ∀ t, g1.thread? l = some t → t.Plain) (hd : d.stays = true)
    (hr : d.settles = true → ∀ r ∈ g1.late, r.lane ∉ g1.fragLanes fid) :
    Leaves i s m gid fid (fun _ t => t.leave len d) g1 := by
  obtain ⟨h, e1, e2, e3, e4, e5⟩ := aged_leaves m gid fid len 1 g1 (g1.fragLanes fid) (fun _ => d) hm
    (fragLanes_nodup g1 fid) hs (fun _ _ => hd) fun r h1 h2 => by
      by_contra h; exact hr (by simpa using h) r h1 h2
  refine ⟨_, h, ?_, e2, e1, e3, e4, leaves_lanes e5⟩
  rw [hi]
  refine issue_one hc ?_
  simp only [uniFragment, hc.group, hf, ha, hfn, if_true, hl]
  rfl

/-- An instruction of a fragment as a whole. -/
theorem group_leaves {i : Instr} {s m : State} {gid fid : Nat} {g g1 : Group} {sh : Shape} {d : Dispo}
    {fn : State → Nat → Nat → Group → List Nat → UniOut} (hc : Calm s gid fid g)
    (hi : exec i s = issue (groupFragment sh fn) s)
    (hguard : laneGuard g true sh.pred sh.runs sh.forbidden = none) (hfn : fn s gid fid g (g.fragLanes fid) = .done m d)
    (hm : m.group? gid = some g1) (hl : g1.fragLanes fid = g.fragLanes fid)
    (hs : ∀ l ∈ g1.fragLanes fid, ∀ t, g1.thread? l = some t → t.Plain) (hd : d.stays = true)
    (hr : d.settles = true → ∀ r ∈ g1.late, r.lane ∉ g1.fragLanes fid) :
    Leaves i s m gid fid (fun _ t => t.leave sh.len d) g1 := by
  obtain ⟨h, e1, e2, e3, e4, e5⟩ := aged_leaves m gid fid sh.len (max 1 sh.stall) g1 (g1.fragLanes fid) (fun _ => d) hm
    (fragLanes_nodup g1 fid) hs (fun _ _ => hd) fun r h1 h2 => by
      by_contra h; exact hr (by simpa using h) r h1 h2
  refine ⟨_, h, ?_, e2, e1, e3, e4, leaves_lanes e5⟩
  rw [hi]
  refine issue_one hc ?_
  simp only [groupFragment, hc.group, hguard, hfn, hl]

/-- The same where the instruction waited at issue and need wait no longer. -/
theorem issueAfter_one {s m : State} {gid fid : Nat} {g : Group} (hc : Calm s gid fid g) {w : Waits}
    {f : State → Nat → Nat → Option State} {t : State} (hw : w s gid fid = (true, m)) (h : f m gid fid = some t) :
    issueAfter w f s = .next t := by
  obtain ⟨c, b, hcur, hb⟩ := hc.atIssue
  unfold issueAfter
  rw [hcur]
  simp only [hb, waitAll, hw, forBundle, h]
  rfl

/-- The same completion, told from a state and a group that differ only in what the lanes then take. -/
theorem Leaves.recast {i : Instr} {s m n : State} {gid fid : Nat} {mv mv' : Nat → Thread → Thread} {g1 g' : Group}
    (L : Leaves i s m gid fid mv g1) (hm : OnlyPlaces n m gid)
    (hg : g1 = { g' with threads := g1.threads, frags := g1.frags, parkedAt := g1.parkedAt })
    (hl : g1.fragLanes fid = g'.fragLanes fid)
    (ho : ∀ l, l ∉ g'.fragLanes fid → g1.thread? l = g'.thread? l)
    (hv : ∀ l ∈ g'.fragLanes fid, ∀ th, g'.thread? l = some th → ∃ th1 f, g1.thread? l = some th1 ∧
      mv l th1 = { mv' l th with frag := f }) : Leaves i s n gid fid mv' g' := by
  obtain ⟨t, h, h1, h2, h3, h4, h5, h6⟩ := L
  refine ⟨t, h, h1, hm.trans h2, h3, ?_, fun l hl' => ?_, fun l hl' th hth => ?_⟩
  · rw [hg] at h4; exact h4
  · rw [h5 l (by rw [hl]; exact hl'), ho l hl']
  · obtain ⟨th1, f, e1, e2⟩ := hv l hl' th hth
    obtain ⟨f', e3⟩ := h6 l (by rw [hl]; exact hl') th1 e1
    refine ⟨f', ?_⟩
    rw [e3, e2]

theorem onlyPlaces_setGroup (s : State) (gid : Nat) (f : Group → Group) : OnlyPlaces s (s.setGroup gid f) gid :=
  onlyPlaces_of_onlyGroup (onlyGroup_setGroup s gid f)

theorem OnlyPlaces.refl (s : State) (gid : Nat) : OnlyPlaces s s gid := ⟨rfl, fun _ => rfl, fun _ _ => rfl⟩

theorem Calm.plain {s : State} {gid fid : Nat} {g : Group} (hc : Calm s gid fid g) :
    ∀ l ∈ g.fragLanes fid, ∀ t, g.thread? l = some t → t.Plain := fun l hl t ht => (hc.settled l hl t ht).plain

/-- A lane's disposition where every lane that executes has its own and the others go on. -/
theorem dispoOf_actives {g : Group} {fid : Nat} {sh : Shape} {l : Nat} {t : Thread} (d : Nat → Thread → Dispo)
    (hl : l ∈ g.fragLanes fid) (ht : g.thread? l = some t) :
    dispoOf ((actives g fid sh).map fun x => (x.1, d x.1 x.2)) l =
      if laneActive g sh.unpred sh.pred t then d l t else .next false := by
  split
  · exact dispoOf_map _ (actives_nodup g fid sh) d l t (mem_actives.mpr ⟨hl, ht, ‹_›⟩)
  · apply dispoOf_absent
    intro h
    simp only [List.map_map, List.mem_map, Function.comp] at h
    obtain ⟨⟨l', t'⟩, hx, hxl⟩ := h
    simp only at hxl
    subst hxl
    have := mem_actives.mp hx
    rw [ht] at this
    obtain ⟨_, h1, h2⟩ := this
    injection h1 with h1
    subst h1
    exact ‹¬ _› h2

/-- A lane-set instruction whose lanes leave the state at `m`, each with its own disposition. -/
theorem seq_leaves_each {i : Instr} {s m n : State} {gid fid : Nat} {g g1 g' : Group} {sh : Shape}
    {fn : Nat → State → Nat → Thread → LaneOut} (hc : Calm s gid fid g) (hi : exec i s = seqInstr sh fn s)
    (hguard : laneGuard g sh.unpred sh.pred sh.runs sh.forbidden = none) (d : Nat → Thread → Dispo)
    (hseq : seqLanes (fn gid) (actives g fid sh) s = some (m, (actives g fid sh).map fun x => (x.1, d x.1 x.2)))
    (hd : ∀ x ∈ actives g fid sh, (d x.1 x.2).stays = true)
    (hr : ∀ x ∈ actives g fid sh, (d x.1 x.2).settles = true → ∀ r ∈ g1.late, r.lane ≠ x.1)
    (hm : m.group? gid = some g1) (hl : g1.fragLanes fid = g.fragLanes fid)
    (hs : ∀ l ∈ g1.fragLanes fid, ∀ t, g1.thread? l = some t → t.Plain)
    (hn : OnlyPlaces n m gid) (hg : g1 = { g' with threads := g1.threads, frags := g1.frags, parkedAt := g1.parkedAt })
    (hl' : g'.fragLanes fid = g.fragLanes fid)
    (ho : ∀ l, l ∉ g.fragLanes fid → g1.thread? l = g'.thread? l) (mv : Nat → Thread → Thread)
    (hmv : ∀ l ∈ g.fragLanes fid, ∀ t, g.thread? l = some t → ∃ t' t1 f, g'.thread? l = some t' ∧
      g1.thread? l = some t1 ∧ t1.leave sh.len (if laneActive g sh.unpred sh.pred t then d l t else .next false) =
        { mv l t' with frag := f }) :
    Leaves i s n gid fid mv g' := by
  have L := seq_leaves hc hi hguard hseq hm hl hs (fun l hl1 => by
    rw [hl] at hl1
    obtain ⟨t, ht, _⟩ := mem_fragLanes.mp hl1
    rw [dispoOf_actives d hl1 ht]
    split
    · exact hd (l, t) (mem_actives.mpr ⟨hl1, ht, ‹_›⟩)
    · rfl) (fun r h1 h2 => by
    rw [hl] at h2
    obtain ⟨t, ht, _⟩ := mem_fragLanes.mp h2
    rw [dispoOf_actives d h2 ht]
    split
    · by_contra h
      exact hr (r.lane, t) (mem_actives.mpr ⟨h2, ht, ‹_›⟩) (by simpa using h) r h1 rfl
    · rfl)
  refine L.recast hn hg (hl.trans hl'.symm) (fun l h => ho l (hl' ▸ h)) fun l hl1 th hth => ?_
  rw [hl'] at hl1
  obtain ⟨t, ht, _⟩ := mem_fragLanes.mp hl1
  obtain ⟨t', t1, f, e1, e2, e3⟩ := hmv l hl1 t ht
  rw [hth] at e1
  injection e1 with e1
  subst e1
  refine ⟨t1, f, e2, ?_⟩
  rw [dispoOf_actives d hl1 ht, e3]

/-- Lanes that only go where they go. -/
theorem stop_leaves {i : Instr} {s : State} {gid fid : Nat} {g : Group} {sh : Shape}
    {fn : Nat → State → Nat → Thread → LaneOut} (hc : Calm s gid fid g) (hi : exec i s = seqInstr sh fn s)
    (hguard : laneGuard g sh.unpred sh.pred sh.runs sh.forbidden = none) (d : Nat → Thread → Dispo)
    (hfn : ∀ x ∈ actives g fid sh, fn gid s x.1 x.2 = .stop (d x.1 x.2))
    (hd : ∀ x ∈ actives g fid sh, (d x.1 x.2).stays = true)
    (hr : ∀ x ∈ actives g fid sh, (d x.1 x.2).settles = true → ∀ r ∈ g.late, r.lane ≠ x.1) (mv : Nat → Thread → Thread)
    (hmv : ∀ l t, mv l t = t.leave sh.len (if laneActive g sh.unpred sh.pred t then d l t else .next false)) :
    Leaves i s s gid fid mv g := by
  refine seq_leaves_each hc hi hguard d (seqLanes_stop (fn gid) (actives g fid sh) s d hfn) hd hr hc.group rfl hc.plain
    (.refl s gid) rfl rfl (fun _ _ => rfl) mv fun l _ t ht => ⟨t, t, (mv l t).frag, ht, ht, ?_⟩
  rw [← hmv]

/-- A uniform-set instruction that its group does not execute. -/
theorem uni_skips {i : Instr} {s : State} {gid fid : Nat} {g : Group} {len : DWord} {pred : BitVec 4}
    {forbidden : Bool} {fn : State → Nat → Group → List Nat → UniOut} (hc : Calm s gid fid g)
    (hi : exec i s = uniInstr len pred forbidden fn s) (hf : (forbidden && g.region) = false)
    (ha : uniActive g pred = false) : Leaves i s s gid fid (fun _ t => t.leave len (.next false)) g := by
  obtain ⟨h, e1, e2, e3, e4, e5⟩ := aged_leaves s gid fid len 1 g (g.fragLanes fid) (fun _ => .next false) hc.group
    (fragLanes_nodup g fid) hc.plain (fun _ _ => rfl) fun _ _ _ => rfl
  refine ⟨_, h, ?_, e2, e1, e3, e4, leaves_lanes e5⟩
  rw [hi]
  refine issue_one hc ?_
  simp only [uniFragment, hc.group, hf, ha]
  rfl

/-- A fragment keeps its lanes where no thread changes its state or fragment. -/
theorem fragLanes_map {g h : Group} {fid : Nat} (f : Nat → Thread → Thread)
    (hf : ∀ l t, (f l t).st = t.st ∧ (f l t).frag = t.frag) (ls : List Nat) (hla : LanesAfter ls f g h) (hlen : h.threads.length = g.threads.length) : h.fragLanes fid = g.fragLanes fid := by
  unfold Group.fragLanes Group.lanesWhere
  rw [hlen]
  apply List.filter_congr
  intro l hl
  have := hla l
  unfold Group.thread? at this
  rw [this]
  cases ht : g.threads[l]? with
  | none => by_cases h : l ∈ ls <;> simp [h]
  | some t => by_cases h : l ∈ ls <;> simp [h, hf]

theorem foldl_len (ls : List Nat) (f : Nat → Thread → Thread) (g : Group) :
    (ls.foldl (fun g l => g.setThread l (f l)) g).threads.length = g.threads.length := by
  obtain ⟨ts, h, hl⟩ := foldl_setThread (fun l : Nat => l) f ls g
  rw [h, hl]

end Sys2Proof.Machine
end

