-- ==== Sys2Proof/Laws/Access.lean ====
section
/-! SUPPORT. Translation and the checks of an access where the cached translations agree with the page tables: the
verdict is the page tables', whatever is cached, and only caches change. -/

namespace Sys2Proof.Machine

theorem OnlyTlb.refl (s : State) : OnlyTlb s s := ⟨rfl, fun _ => rfl⟩

theorem OnlyTlb.trans {s t u : State} (h : OnlyTlb s t) (h' : OnlyTlb t u) : OnlyTlb s u := by
  refine ⟨?_, fun k => ?_⟩
  · have h1 := h.rest; have h2 := h'.rest
    rw [h1] at h2
    exact h2
  · have h1 := h.cores k; have h2 := h'.cores k
    rw [h1] at h2
    exact h2

theorem walk_congr {s t : State} (hm : t.mem = s.mem) (hp : t.parts = s.parts) (part va : Nat) :
    t.walk part va = s.walk part va := by
  have hn : ∀ a n, t.num a n = s.num a n := by intro a n; simp [State.num, State.bytes, State.byte, hm]
  have hq : t.part part = s.part part := by simp [State.part, hp]
  unfold State.walk
  simp only [hn, hq]

theorem OnlyTlb.walk {s t : State} (h : OnlyTlb s t) (part va : Nat) : t.walk part va = s.walk part va :=
  walk_congr (by rw [h.rest]) (by rw [h.rest]) part va

/-- An entry found by a walk is that of its page. -/
theorem walk_page {s : State} {part va : Nat} {e : TlbEntry} (h : s.walk part va = some e) :
    e.part = part ∧ e.page = va / 65536 := by
  unfold State.walk at h
  simp only at h
  split at h
  · simp at h
  · split at h
    · simp at h
    · split at h
      · injection h with h; rw [← h]; exact ⟨rfl, rfl⟩
      · split at h
        · simp at h
        · split at h
          · injection h with h; rw [← h]; exact ⟨rfl, rfl⟩
          · split at h
            · simp at h
            · injection h with h; rw [← h]; exact ⟨rfl, rfl⟩

theorem walk_base (s : State) (part va : Nat) : s.walk part (65536 * (va / 65536)) = s.walk part va := by
  have h1 : 65536 * (va / 65536) / 2 ^ 43 = va / 2 ^ 43 := by omega
  have h2 : 65536 * (va / 65536) / 2 ^ 30 = va / 2 ^ 30 := by omega
  have h3 : 65536 * (va / 65536) / 2 ^ 21 = va / 2 ^ 21 := by omega
  have h4 : 65536 * (va / 65536) / 65536 = va / 65536 := by omega
  have h5 : 65536 * (va / 65536) % 2 ^ 30 / 65536 = va % 2 ^ 30 / 65536 := by omega
  have h6 : 65536 * (va / 65536) % 2 ^ 21 / 65536 = va % 2 ^ 21 / 65536 := by omega
  unfold State.walk leafEntry
  simp only [h1, h2, h3, h4, h5, h6]

theorem tlbFind_mem {part page : Nat} {t : List TlbEntry} {e : TlbEntry} (h : tlbFind part page t = some e) :
    e ∈ t ∧ e.part = part ∧ e.page = page := by
  unfold tlbFind at h
  have h1 := List.find?_some h
  simp at h1
  exact ⟨List.mem_of_find?_eq_some h, h1⟩

theorem mem_tlbAdd {e x : TlbEntry} {n : Nat} {t : List TlbEntry} (h : x ∈ tlbAdd e n t) : x = e ∨ x ∈ t := by
  unfold tlbAdd at h
  have := List.mem_of_mem_take h
  rcases List.mem_cons.mp this with h | h
  · exact .inl h
  · exact .inr (List.mem_filter.mp h).1

theorem tlbFill_only (s : State) (core : Nat) (e : TlbEntry) : OnlyTlb s (s.tlbFill core e) := by
  refine ⟨rfl, fun k => ?_⟩
  have : (s.tlbFill core e).core k = (s.setCore core fun c => { c with tlb := tlbAdd e 256 c.tlb }).core k := rfl
  rw [this, core_setCore]
  split
  · subst_vars; rfl
  · rfl

theorem tlbFill_coherent {s : State} {core part : Nat} (h : Coherent s core part) {e : TlbEntry}
    (he : s.walk part (65536 * e.page) = some e) : Coherent (s.tlbFill core e) core part := by
  intro x hx hp
  rw [(tlbFill_only s core e).walk]
  have h1 : (s.tlbFill core e).core core = { s.core core with tlb := tlbAdd e 256 (s.core core).tlb } := by
    have : (s.tlbFill core e).core core = (s.setCore core fun c => { c with tlb := tlbAdd e 256 c.tlb }).core core := rfl
    rw [this, core_setCore, if_pos rfl]
  have h2 : mapGet [] (s.tlbFill core e).stlb (core / 32) = tlbAdd e (32 * 4096) (mapGet [] s.stlb (core / 32)) := by
    have : (s.tlbFill core e).stlb = mapPut [] (core / 32) (tlbAdd e (32 * 4096) (mapGet [] s.stlb (core / 32))) s.stlb := rfl
    rw [this, mapGet_put, if_pos rfl]
  rw [h1, h2] at hx
  rcases hx with hx | hx <;> rcases mem_tlbAdd hx with rfl | hx
  · exact he
  · exact h x (.inl hx) hp
  · exact he
  · exact h x (.inr hx) hp

/-- Translation where the caches agree with the page tables. -/
theorem translate_coherent {s : State} {core part : Nat} (h : Coherent s core part) (va : Nat) :
    ∃ t, s.translate core part va = (s.walk part va, t) ∧ OnlyTlb s t ∧ Coherent t core part := by
  have hwalked : ∀ u : State, OnlyTlb s u → Coherent u core part → ∃ t,
      (match u.walk part va with
        | some e => (some e, u.tlbFill core e)
        | none => (none, u)) = (s.walk part va, t) ∧ OnlyTlb s t ∧ Coherent t core part := by
    intro u hu hc
    rw [hu.walk]
    cases hw : s.walk part va with
    | none => exact ⟨u, rfl, hu, hc⟩
    | some e =>
      obtain ⟨h1, h2⟩ := walk_page hw
      refine ⟨_, rfl, hu.trans (tlbFill_only u core e), tlbFill_coherent hc ?_⟩
      rw [hu.walk, h2, walk_base, hw]
  unfold State.translate
  simp only
  split
  · rename_i e he
    have hmem : (e ∈ (s.core core).tlb ∨ e ∈ mapGet [] s.stlb (core / 32)) ∧ e.part = part ∧ e.page = va / 65536 := by
      cases h1 : tlbFind part (va / 65536) (s.core core).tlb with
      | some x =>
        rw [h1] at he
        simp at he
        subst he
        exact ⟨.inl (tlbFind_mem h1).1, (tlbFind_mem h1).2⟩
      | none =>
        rw [h1] at he
        simp at he
        exact ⟨.inr (tlbFind_mem he).1, (tlbFind_mem he).2⟩
    have hw : s.walk part va = some e := by
      rw [← walk_base, ← hmem.2.2]; exact h e hmem.1 hmem.2.1
    have hpick : ∀ n, OnlyTlb s (s.pick n).2 ∧ Coherent (s.pick n).2 core part := by
      intro n
      have : OnlyTlb s (s.pick n).2 := ⟨rfl, fun _ => rfl⟩
      refine ⟨this, fun x hx hp => ?_⟩
      rw [this.walk]
      exact h x hx hp
    obtain ⟨p1, p2⟩ := hpick 2
    generalize hpk : s.pick 2 = pk at p1 p2 ⊢
    obtain ⟨k, u⟩ := pk
    simp only at p1 p2 ⊢
    split
    · refine ⟨u.tlbFill core e, ?_, p1.trans (tlbFill_only u core e), tlbFill_coherent p2 ?_⟩
      · rw [hw]
      · rw [p1.walk, hmem.2.2, walk_base, hw]
    · exact hwalked u p1 p2
  · exact hwalked s (.refl s) h

/-- The checks that need no translation look at these. -/
structure SameRules (s t : State) : Prop where
  mem : t.mem = s.mem
  parts : t.parts = s.parts
  slices : t.slices = s.slices
  regions : t.regions = s.regions
  domain : t.domain = s.domain
  blocks : t.blocks = s.blocks

theorem SameRules.refl (s : State) : SameRules s s := ⟨rfl, rfl, rfl, rfl, rfl, rfl⟩

theorem SameRules.trans {s t u : State} (h : SameRules s t) (k : SameRules t u) : SameRules s u :=
  ⟨k.mem.trans h.mem, k.parts.trans h.parts, k.slices.trans h.slices, k.regions.trans h.regions,
    k.domain.trans h.domain, k.blocks.trans h.blocks⟩

theorem OnlyTlb.rules {s t : State} (h : OnlyTlb s t) : SameRules s t := by
  have := h.rest
  refine ⟨?_, ?_, ?_, ?_, ?_, ?_⟩ <;> rw [this]

theorem checkReg_congr {s t : State} (h : SameRules s t) (g : Group) (a : AddrReg) (sp : List Nat) (acc : Access)
    (ea : DWord) (n : Nat) : t.checkReg g a sp acc ea n = s.checkReg g a sp acc ea n := by
  unfold State.checkReg State.gangShape State.block?
  rw [h.blocks]

/-- Orders 2 to 6 but the refusal of a SEALED object, from the translation found. -/
def pageVerdict (s : State) (g : Group) (a : AddrReg) (acc : Access) (ea : DWord) (n : Nat) (deny : Nat → Bool)
    (w : Option TlbEntry) : Except Nat Nat :=
  match w with
  | none => .error 0x06
  | some e =>
    let pa := e.pa ea.toNat
    if (acc.reads && !e.r) || (acc.writes && !e.w) || (acc == .fetch && !e.x) then .error 0x07
    else if inDevice pa && !s.admits g.part pa then .error 0x07
    else if !inDevice pa && !s.window pa then .error 0x16
    else if (a.space == 0) != inDevice pa || deny pa then .error 0x16
    else if a.objid != 0 && !((s.object? a.objid).any fun o => o.visible g.part && o.covers ea.toNat n) then
      .error 0x16
    else .ok pa

theorem pageVerdict_congr {s t : State} (h : SameRules s t) (g : Group) (a : AddrReg) (acc : Access) (ea : DWord)
    (n : Nat) (deny : Nat → Bool) (w : Option TlbEntry) :
    pageVerdict t g a acc ea n deny w = pageVerdict s g a acc ea n deny w := by
  unfold pageVerdict State.object? State.slice State.admits State.part State.window
  rw [h.slices, h.regions, h.parts, h.domain]

theorem checkSealed_congr {s t : State} (h : SameRules s t) (a : AddrReg) (acc : Access) :
    t.checkSealed a acc = s.checkSealed a acc := by
  unfold State.checkSealed State.object? State.slice
  rw [h.slices]

theorem checkPage_verdict {s : State} {g : Group} (h : Coherent s g.core g.part) (a : AddrReg) (acc : Access)
    (ea : DWord) (n : Nat) (deny : Nat → Bool) : ∃ t, s.checkPage g a acc ea n deny =
      (if 2 ^ 56 ≤ ea.toNat then .error 0x16 else pageVerdict s g a acc ea n deny (s.walk g.part ea.toNat), t) ∧
      OnlyTlb s t ∧ Coherent t g.core g.part := by
  unfold State.checkPage
  split
  · exact ⟨s, rfl, .refl s, h⟩
  · obtain ⟨t, h1, h2, h3⟩ := translate_coherent h ea.toNat
    refine ⟨t, ?_, h2, h3⟩
    rw [h1]
    cases hw : s.walk g.part ea.toNat with
    | none => rfl
    | some e => exact Prod.ext (pageVerdict_congr h2.rules g a acc ea n deny (some e)) rfl

/-- Orders 2 to 6 of R221 from the translation found. -/
def verdictOf (s : State) (g : Group) (a : AddrReg) (acc : Access) (ea : DWord) (n : Nat) (deny : Nat → Bool)
    (w : Option TlbEntry) : Except Nat Nat :=
  match pageVerdict s g a acc ea n deny w with
  | .error c => .error c
  | .ok pa => if s.checkSealed a acc then .error 0x09 else .ok pa

theorem verdictOf_congr {s t : State} (h : SameRules s t) (g : Group) (a : AddrReg) (acc : Access) (ea : DWord)
    (n : Nat) (deny : Nat → Bool) (w : Option TlbEntry) :
    verdictOf t g a acc ea n deny w = verdictOf s g a acc ea n deny w := by
  unfold verdictOf
  rw [pageVerdict_congr h, checkSealed_congr h]

theorem checkGlobal_verdict {s : State} {g : Group} (h : Coherent s g.core g.part) (a : AddrReg) (acc : Access)
    (ea : DWord) (n : Nat) (deny : Nat → Bool) : ∃ t, s.checkGlobal g a acc ea n deny =
      (if 2 ^ 56 ≤ ea.toNat then .error 0x16 else verdictOf s g a acc ea n deny (s.walk g.part ea.toNat), t) ∧
      OnlyTlb s t ∧ Coherent t g.core g.part := by
  unfold State.checkGlobal
  obtain ⟨t, h1, h2, h3⟩ := checkPage_verdict h a acc ea n deny
  refine ⟨t, ?_, h2, h3⟩
  rw [h1]
  by_cases hb : 2 ^ 56 ≤ ea.toNat
  · simp only [if_pos hb]
  · simp only [if_neg hb, verdictOf]
    cases pageVerdict s g a acc ea n deny (s.walk g.part ea.toNat) with
    | error c => rfl
    | ok pa => simp only [checkSealed_congr h2.rules]

/-- The verdict of the page tables. -/
def verdict (s : State) (g : Group) (a : AddrReg) (acc : Access) (ea : DWord) (n align : Nat) (deny : Nat → Bool) :
    Except Nat Nat :=
  if ea.toNat % align ≠ 0 then .error 0x08
  else if 2 ^ 56 ≤ ea.toNat then .error 0x16
  else verdictOf s g a acc ea n deny (s.walk g.part ea.toNat)

theorem verdict_congr {s t : State} (h : SameRules s t) (g : Group) (a : AddrReg) (acc : Access) (ea : DWord)
    (n align : Nat) (deny : Nat → Bool) : verdict t g a acc ea n align deny = verdict s g a acc ea n align deny := by
  unfold verdict
  rw [walk_congr h.mem h.parts, verdictOf_congr h]

theorem checkAccess_verdict {s : State} {g : Group} (h : Coherent s g.core g.part) (a : AddrReg) (acc : Access)
    (ea : DWord) (n align : Nat) (deny : Nat → Bool) : ∃ t, s.checkAccess g a acc ea n align deny =
      (verdict s g a acc ea n align deny, t) ∧ OnlyTlb s t ∧ Coherent t g.core g.part := by
  unfold State.checkAccess verdict
  split
  · exact ⟨s, rfl, .refl s, h⟩
  · exact checkGlobal_verdict h a acc ea n deny

theorem pageVerdict_deny {s : State} {g : Group} {a : AddrReg} {acc : Access} {ea : DWord} {n pa : Nat}
    {deny : Nat → Bool} {w : Option TlbEntry} (h : pageVerdict s g a acc ea n (fun _ => false) w = .ok pa)
    (hd : deny pa = false) : pageVerdict s g a acc ea n deny w = .ok pa := by
  cases w with
  | none => simp [pageVerdict] at h
  | some e =>
    simp only [pageVerdict, Bool.or_false] at h ⊢
    split at h; · simp at h
    rename_i h1
    split at h; · simp at h
    rename_i h2
    split at h; · simp at h
    rename_i h3
    split at h; · simp at h
    rename_i h4
    split at h; · simp at h
    rename_i h5
    injection h with h
    subst h
    rw [if_neg h1, if_neg h2, if_neg h3, hd, Bool.or_false, if_neg h4, if_neg h5]

/-- A refusal by place that does not meet the address granted changes no verdict. -/
theorem verdict_deny {s : State} {g : Group} {a : AddrReg} {acc : Access} {ea : DWord} {n align pa : Nat}
    {deny : Nat → Bool} (h : verdict s g a acc ea n align (fun _ => false) = .ok pa) (hd : deny pa = false) :
    verdict s g a acc ea n align deny = .ok pa := by
  unfold verdict at h ⊢
  split at h; · simp at h
  split at h; · simp at h
  rename_i h1 h2
  rw [if_neg h1, if_neg h2]
  unfold verdictOf at h ⊢
  split at h; · simp at h
  rename_i pa' hp
  split at h; · simp at h
  rename_i hs
  injection h with h
  subst h
  simp only [pageVerdict_deny hp hd, if_neg hs]

theorem mapFind_map {α β : Type} (f : α → β) (m : SMap α) (k : Nat) :
    mapFind k (m.map fun (j, x) => (j, f x)) = (mapFind k m).map f := by
  induction m with
  | nil => rfl
  | cons e m ih =>
    obtain ⟨j, x⟩ := e
    simp only [List.map_cons, mapFind]
    split
    · rfl
    · exact ih

theorem uncached_coherent (s : State) (core part : Nat) : Coherent s.uncached core part := by
  intro e he
  have h1 : (s.uncached.core core).tlb = [] := by
    have h2 := mapFind_map (fun c : Core => ({ c with tlb := [] } : Core)) s.cores core
    have h3 : s.uncached.core core = (mapFind core s.uncached.cores).getD {} := rfl
    rw [h3]
    have h4 : mapFind core s.uncached.cores = (mapFind core s.cores).map fun c : Core => ({ c with tlb := [] } : Core) := h2
    rw [h4]
    cases mapFind core s.cores <;> rfl
  have h2 : mapGet [] s.uncached.stlb (core / 32) = ([] : List TlbEntry) := rfl
  rw [h1, h2] at he
  simp at he

theorem uncached_rules (s : State) : SameRules s s.uncached := ⟨rfl, rfl, rfl, rfl, rfl, rfl⟩

theorem uncached_checkAccess (s : State) (g : Group) (a : AddrReg) (acc : Access) (ea : DWord) (n align : Nat)
    (deny : Nat → Bool) :
    (s.uncached.checkAccess g a acc ea n align deny).1 = verdict s g a acc ea n align deny := by
  obtain ⟨t, h, _⟩ := checkAccess_verdict (uncached_coherent s g.core g.part) a acc ea n align deny
  rw [h]
  exact verdict_congr (uncached_rules s) g a acc ea n align deny

/-- A granted access passes its checks, whatever translation is cached, and a refusal by place changes nothing where it
does not meet the address granted. -/
theorem granted_check {s m : State} {g : Group} {a : AddrReg} {acc : Access} {ea : DWord} {n pa : Nat}
    (hg : Granted s g a acc ea n pa) (hr : SameRules s m) (hc : Coherent m g.core g.part) {deny : Nat → Bool}
    (hd : deny pa = false) :
    m.checkReg g a [0, 3] acc ea n = none ∧
      ∃ t, m.checkAccess g a acc ea n n deny = (.ok pa, t) ∧ OnlyTlb m t ∧ Coherent t g.core g.part := by
  refine ⟨by rw [checkReg_congr hr]; exact hg.1, ?_⟩
  obtain ⟨t, h1, h2, h3⟩ := checkAccess_verdict hc a acc ea n n deny
  refine ⟨t, ?_, h2, h3⟩
  have := hg.2
  rw [uncached_checkAccess] at this
  rw [h1, verdict_congr hr, verdict_deny this hd]

end Sys2Proof.Machine
end

