-- ==== Sys2Proof/Laws/State.lean ====
section
/-! SUPPORT. What each update of the state, of a group and of a thread leaves as it was, one lemma for a field. -/

namespace Sys2Proof.Machine

variable (s : State) (g : Group) (t : Thread)

/-! `State.setCore` changes `cores`. -/

@[simp] theorem setCore_mem (k : Nat) (f : Core → Core) : (s.setCore k f).mem = s.mem := rfl
@[simp] theorem setCore_poison (k : Nat) (f : Core → Core) : (s.setCore k f).poison = s.poison := rfl
@[simp] theorem setCore_groups (k : Nat) (f : Core → Core) : (s.setCore k f).groups = s.groups := rfl
@[simp] theorem setCore_blocks (k : Nat) (f : Core → Core) : (s.setCore k f).blocks = s.blocks := rfl
@[simp] theorem setCore_launches (k : Nat) (f : Core → Core) : (s.setCore k f).launches = s.launches := rfl
@[simp] theorem setCore_slices (k : Nat) (f : Core → Core) : (s.setCore k f).slices = s.slices := rfl
@[simp] theorem setCore_stlb (k : Nat) (f : Core → Core) : (s.setCore k f).stlb = s.stlb := rfl
@[simp] theorem setCore_squeues (k : Nat) (f : Core → Core) : (s.setCore k f).squeues = s.squeues := rfl
@[simp] theorem setCore_pends (k : Nat) (f : Core → Core) : (s.setCore k f).pends = s.pends := rfl
@[simp] theorem setCore_net (k : Nat) (f : Core → Core) : (s.setCore k f).net = s.net := rfl
@[simp] theorem setCore_replies (k : Nat) (f : Core → Core) : (s.setCore k f).replies = s.replies := rfl
@[simp] theorem setCore_copies (k : Nat) (f : Core → Core) : (s.setCore k f).copies = s.copies := rfl
@[simp] theorem setCore_inspects (k : Nat) (f : Core → Core) : (s.setCore k f).inspects = s.inspects := rfl
@[simp] theorem setCore_parts (k : Nat) (f : Core → Core) : (s.setCore k f).parts = s.parts := rfl
@[simp] theorem setCore_lqueues (k : Nat) (f : Core → Core) : (s.setCore k f).lqueues = s.lqueues := rfl
@[simp] theorem setCore_regions (k : Nat) (f : Core → Core) : (s.setCore k f).regions = s.regions := rfl
@[simp] theorem setCore_ports (k : Nat) (f : Core → Core) : (s.setCore k f).ports = s.ports := rfl
@[simp] theorem setCore_residue (k : Nat) (f : Core → Core) : (s.setCore k f).residue = s.residue := rfl
@[simp] theorem setCore_freeCtr (k : Nat) (f : Core → Core) : (s.setCore k f).freeCtr = s.freeCtr := rfl
@[simp] theorem setCore_seq (k : Nat) (f : Core → Core) : (s.setCore k f).seq = s.seq := rfl
@[simp] theorem setCore_cur (k : Nat) (f : Core → Core) : (s.setCore k f).cur = s.cur := rfl
@[simp] theorem setCore_msix (k : Nat) (f : Core → Core) : (s.setCore k f).msix = s.msix := rfl
@[simp] theorem setCore_schedule (k : Nat) (f : Core → Core) : (s.setCore k f).schedule = s.schedule := rfl
@[simp] theorem setCore_stopped (k : Nat) (f : Core → Core) : (s.setCore k f).stopped = s.stopped := rfl

/-! `State.setSlice` changes `slices`. -/

@[simp] theorem setSlice_mem (k : Nat) (f : Slice → Slice) : (s.setSlice k f).mem = s.mem := rfl
@[simp] theorem setSlice_poison (k : Nat) (f : Slice → Slice) : (s.setSlice k f).poison = s.poison := rfl
@[simp] theorem setSlice_groups (k : Nat) (f : Slice → Slice) : (s.setSlice k f).groups = s.groups := rfl
@[simp] theorem setSlice_blocks (k : Nat) (f : Slice → Slice) : (s.setSlice k f).blocks = s.blocks := rfl
@[simp] theorem setSlice_launches (k : Nat) (f : Slice → Slice) : (s.setSlice k f).launches = s.launches := rfl
@[simp] theorem setSlice_cores (k : Nat) (f : Slice → Slice) : (s.setSlice k f).cores = s.cores := rfl
@[simp] theorem setSlice_stlb (k : Nat) (f : Slice → Slice) : (s.setSlice k f).stlb = s.stlb := rfl
@[simp] theorem setSlice_squeues (k : Nat) (f : Slice → Slice) : (s.setSlice k f).squeues = s.squeues := rfl
@[simp] theorem setSlice_pends (k : Nat) (f : Slice → Slice) : (s.setSlice k f).pends = s.pends := rfl
@[simp] theorem setSlice_net (k : Nat) (f : Slice → Slice) : (s.setSlice k f).net = s.net := rfl
@[simp] theorem setSlice_replies (k : Nat) (f : Slice → Slice) : (s.setSlice k f).replies = s.replies := rfl
@[simp] theorem setSlice_copies (k : Nat) (f : Slice → Slice) : (s.setSlice k f).copies = s.copies := rfl
@[simp] theorem setSlice_inspects (k : Nat) (f : Slice → Slice) : (s.setSlice k f).inspects = s.inspects := rfl
@[simp] theorem setSlice_parts (k : Nat) (f : Slice → Slice) : (s.setSlice k f).parts = s.parts := rfl
@[simp] theorem setSlice_lqueues (k : Nat) (f : Slice → Slice) : (s.setSlice k f).lqueues = s.lqueues := rfl
@[simp] theorem setSlice_regions (k : Nat) (f : Slice → Slice) : (s.setSlice k f).regions = s.regions := rfl
@[simp] theorem setSlice_ports (k : Nat) (f : Slice → Slice) : (s.setSlice k f).ports = s.ports := rfl
@[simp] theorem setSlice_residue (k : Nat) (f : Slice → Slice) : (s.setSlice k f).residue = s.residue := rfl
@[simp] theorem setSlice_freeCtr (k : Nat) (f : Slice → Slice) : (s.setSlice k f).freeCtr = s.freeCtr := rfl
@[simp] theorem setSlice_seq (k : Nat) (f : Slice → Slice) : (s.setSlice k f).seq = s.seq := rfl
@[simp] theorem setSlice_cur (k : Nat) (f : Slice → Slice) : (s.setSlice k f).cur = s.cur := rfl
@[simp] theorem setSlice_msix (k : Nat) (f : Slice → Slice) : (s.setSlice k f).msix = s.msix := rfl
@[simp] theorem setSlice_schedule (k : Nat) (f : Slice → Slice) : (s.setSlice k f).schedule = s.schedule := rfl
@[simp] theorem setSlice_stopped (k : Nat) (f : Slice → Slice) : (s.setSlice k f).stopped = s.stopped := rfl

/-! `State.setSQueue` changes `squeues`. -/

@[simp] theorem setSQueue_mem (k : Nat) (f : SQueue → SQueue) : (s.setSQueue k f).mem = s.mem := rfl
@[simp] theorem setSQueue_poison (k : Nat) (f : SQueue → SQueue) : (s.setSQueue k f).poison = s.poison := rfl
@[simp] theorem setSQueue_groups (k : Nat) (f : SQueue → SQueue) : (s.setSQueue k f).groups = s.groups := rfl
@[simp] theorem setSQueue_blocks (k : Nat) (f : SQueue → SQueue) : (s.setSQueue k f).blocks = s.blocks := rfl
@[simp] theorem setSQueue_launches (k : Nat) (f : SQueue → SQueue) : (s.setSQueue k f).launches = s.launches := rfl
@[simp] theorem setSQueue_cores (k : Nat) (f : SQueue → SQueue) : (s.setSQueue k f).cores = s.cores := rfl
@[simp] theorem setSQueue_slices (k : Nat) (f : SQueue → SQueue) : (s.setSQueue k f).slices = s.slices := rfl
@[simp] theorem setSQueue_stlb (k : Nat) (f : SQueue → SQueue) : (s.setSQueue k f).stlb = s.stlb := rfl
@[simp] theorem setSQueue_pends (k : Nat) (f : SQueue → SQueue) : (s.setSQueue k f).pends = s.pends := rfl
@[simp] theorem setSQueue_net (k : Nat) (f : SQueue → SQueue) : (s.setSQueue k f).net = s.net := rfl
@[simp] theorem setSQueue_replies (k : Nat) (f : SQueue → SQueue) : (s.setSQueue k f).replies = s.replies := rfl
@[simp] theorem setSQueue_copies (k : Nat) (f : SQueue → SQueue) : (s.setSQueue k f).copies = s.copies := rfl
@[simp] theorem setSQueue_inspects (k : Nat) (f : SQueue → SQueue) : (s.setSQueue k f).inspects = s.inspects := rfl
@[simp] theorem setSQueue_parts (k : Nat) (f : SQueue → SQueue) : (s.setSQueue k f).parts = s.parts := rfl
@[simp] theorem setSQueue_lqueues (k : Nat) (f : SQueue → SQueue) : (s.setSQueue k f).lqueues = s.lqueues := rfl
@[simp] theorem setSQueue_regions (k : Nat) (f : SQueue → SQueue) : (s.setSQueue k f).regions = s.regions := rfl
@[simp] theorem setSQueue_ports (k : Nat) (f : SQueue → SQueue) : (s.setSQueue k f).ports = s.ports := rfl
@[simp] theorem setSQueue_residue (k : Nat) (f : SQueue → SQueue) : (s.setSQueue k f).residue = s.residue := rfl
@[simp] theorem setSQueue_freeCtr (k : Nat) (f : SQueue → SQueue) : (s.setSQueue k f).freeCtr = s.freeCtr := rfl
@[simp] theorem setSQueue_seq (k : Nat) (f : SQueue → SQueue) : (s.setSQueue k f).seq = s.seq := rfl
@[simp] theorem setSQueue_cur (k : Nat) (f : SQueue → SQueue) : (s.setSQueue k f).cur = s.cur := rfl
@[simp] theorem setSQueue_msix (k : Nat) (f : SQueue → SQueue) : (s.setSQueue k f).msix = s.msix := rfl
@[simp] theorem setSQueue_schedule (k : Nat) (f : SQueue → SQueue) : (s.setSQueue k f).schedule = s.schedule := rfl
@[simp] theorem setSQueue_stopped (k : Nat) (f : SQueue → SQueue) : (s.setSQueue k f).stopped = s.stopped := rfl

/-! `State.setLQueue` changes `lqueues`. -/

@[simp] theorem setLQueue_mem (k : Nat) (f : LQueue → LQueue) : (s.setLQueue k f).mem = s.mem := rfl
@[simp] theorem setLQueue_poison (k : Nat) (f : LQueue → LQueue) : (s.setLQueue k f).poison = s.poison := rfl
@[simp] theorem setLQueue_groups (k : Nat) (f : LQueue → LQueue) : (s.setLQueue k f).groups = s.groups := rfl
@[simp] theorem setLQueue_blocks (k : Nat) (f : LQueue → LQueue) : (s.setLQueue k f).blocks = s.blocks := rfl
@[simp] theorem setLQueue_launches (k : Nat) (f : LQueue → LQueue) : (s.setLQueue k f).launches = s.launches := rfl
@[simp] theorem setLQueue_cores (k : Nat) (f : LQueue → LQueue) : (s.setLQueue k f).cores = s.cores := rfl
@[simp] theorem setLQueue_slices (k : Nat) (f : LQueue → LQueue) : (s.setLQueue k f).slices = s.slices := rfl
@[simp] theorem setLQueue_stlb (k : Nat) (f : LQueue → LQueue) : (s.setLQueue k f).stlb = s.stlb := rfl
@[simp] theorem setLQueue_squeues (k : Nat) (f : LQueue → LQueue) : (s.setLQueue k f).squeues = s.squeues := rfl
@[simp] theorem setLQueue_pends (k : Nat) (f : LQueue → LQueue) : (s.setLQueue k f).pends = s.pends := rfl
@[simp] theorem setLQueue_net (k : Nat) (f : LQueue → LQueue) : (s.setLQueue k f).net = s.net := rfl
@[simp] theorem setLQueue_replies (k : Nat) (f : LQueue → LQueue) : (s.setLQueue k f).replies = s.replies := rfl
@[simp] theorem setLQueue_copies (k : Nat) (f : LQueue → LQueue) : (s.setLQueue k f).copies = s.copies := rfl
@[simp] theorem setLQueue_inspects (k : Nat) (f : LQueue → LQueue) : (s.setLQueue k f).inspects = s.inspects := rfl
@[simp] theorem setLQueue_parts (k : Nat) (f : LQueue → LQueue) : (s.setLQueue k f).parts = s.parts := rfl
@[simp] theorem setLQueue_regions (k : Nat) (f : LQueue → LQueue) : (s.setLQueue k f).regions = s.regions := rfl
@[simp] theorem setLQueue_ports (k : Nat) (f : LQueue → LQueue) : (s.setLQueue k f).ports = s.ports := rfl
@[simp] theorem setLQueue_residue (k : Nat) (f : LQueue → LQueue) : (s.setLQueue k f).residue = s.residue := rfl
@[simp] theorem setLQueue_freeCtr (k : Nat) (f : LQueue → LQueue) : (s.setLQueue k f).freeCtr = s.freeCtr := rfl
@[simp] theorem setLQueue_seq (k : Nat) (f : LQueue → LQueue) : (s.setLQueue k f).seq = s.seq := rfl
@[simp] theorem setLQueue_cur (k : Nat) (f : LQueue → LQueue) : (s.setLQueue k f).cur = s.cur := rfl
@[simp] theorem setLQueue_msix (k : Nat) (f : LQueue → LQueue) : (s.setLQueue k f).msix = s.msix := rfl
@[simp] theorem setLQueue_schedule (k : Nat) (f : LQueue → LQueue) : (s.setLQueue k f).schedule = s.schedule := rfl
@[simp] theorem setLQueue_stopped (k : Nat) (f : LQueue → LQueue) : (s.setLQueue k f).stopped = s.stopped := rfl

/-! `State.setPort` changes `ports`. -/

@[simp] theorem setPort_mem (k : Nat) (f : Port → Port) : (s.setPort k f).mem = s.mem := rfl
@[simp] theorem setPort_poison (k : Nat) (f : Port → Port) : (s.setPort k f).poison = s.poison := rfl
@[simp] theorem setPort_groups (k : Nat) (f : Port → Port) : (s.setPort k f).groups = s.groups := rfl
@[simp] theorem setPort_blocks (k : Nat) (f : Port → Port) : (s.setPort k f).blocks = s.blocks := rfl
@[simp] theorem setPort_launches (k : Nat) (f : Port → Port) : (s.setPort k f).launches = s.launches := rfl
@[simp] theorem setPort_cores (k : Nat) (f : Port → Port) : (s.setPort k f).cores = s.cores := rfl
@[simp] theorem setPort_slices (k : Nat) (f : Port → Port) : (s.setPort k f).slices = s.slices := rfl
@[simp] theorem setPort_stlb (k : Nat) (f : Port → Port) : (s.setPort k f).stlb = s.stlb := rfl
@[simp] theorem setPort_squeues (k : Nat) (f : Port → Port) : (s.setPort k f).squeues = s.squeues := rfl
@[simp] theorem setPort_pends (k : Nat) (f : Port → Port) : (s.setPort k f).pends = s.pends := rfl
@[simp] theorem setPort_net (k : Nat) (f : Port → Port) : (s.setPort k f).net = s.net := rfl
@[simp] theorem setPort_replies (k : Nat) (f : Port → Port) : (s.setPort k f).replies = s.replies := rfl
@[simp] theorem setPort_copies (k : Nat) (f : Port → Port) : (s.setPort k f).copies = s.copies := rfl
@[simp] theorem setPort_inspects (k : Nat) (f : Port → Port) : (s.setPort k f).inspects = s.inspects := rfl
@[simp] theorem setPort_parts (k : Nat) (f : Port → Port) : (s.setPort k f).parts = s.parts := rfl
@[simp] theorem setPort_lqueues (k : Nat) (f : Port → Port) : (s.setPort k f).lqueues = s.lqueues := rfl
@[simp] theorem setPort_regions (k : Nat) (f : Port → Port) : (s.setPort k f).regions = s.regions := rfl
@[simp] theorem setPort_residue (k : Nat) (f : Port → Port) : (s.setPort k f).residue = s.residue := rfl
@[simp] theorem setPort_freeCtr (k : Nat) (f : Port → Port) : (s.setPort k f).freeCtr = s.freeCtr := rfl
@[simp] theorem setPort_seq (k : Nat) (f : Port → Port) : (s.setPort k f).seq = s.seq := rfl
@[simp] theorem setPort_cur (k : Nat) (f : Port → Port) : (s.setPort k f).cur = s.cur := rfl
@[simp] theorem setPort_msix (k : Nat) (f : Port → Port) : (s.setPort k f).msix = s.msix := rfl
@[simp] theorem setPort_schedule (k : Nat) (f : Port → Port) : (s.setPort k f).schedule = s.schedule := rfl
@[simp] theorem setPort_stopped (k : Nat) (f : Port → Port) : (s.setPort k f).stopped = s.stopped := rfl

/-! `State.setRegion` changes `regions`. -/

@[simp] theorem setRegion_mem (k : Nat) (f : MemRegion) : (s.setRegion k f).mem = s.mem := rfl
@[simp] theorem setRegion_poison (k : Nat) (f : MemRegion) : (s.setRegion k f).poison = s.poison := rfl
@[simp] theorem setRegion_groups (k : Nat) (f : MemRegion) : (s.setRegion k f).groups = s.groups := rfl
@[simp] theorem setRegion_blocks (k : Nat) (f : MemRegion) : (s.setRegion k f).blocks = s.blocks := rfl
@[simp] theorem setRegion_launches (k : Nat) (f : MemRegion) : (s.setRegion k f).launches = s.launches := rfl
@[simp] theorem setRegion_cores (k : Nat) (f : MemRegion) : (s.setRegion k f).cores = s.cores := rfl
@[simp] theorem setRegion_slices (k : Nat) (f : MemRegion) : (s.setRegion k f).slices = s.slices := rfl
@[simp] theorem setRegion_stlb (k : Nat) (f : MemRegion) : (s.setRegion k f).stlb = s.stlb := rfl
@[simp] theorem setRegion_squeues (k : Nat) (f : MemRegion) : (s.setRegion k f).squeues = s.squeues := rfl
@[simp] theorem setRegion_pends (k : Nat) (f : MemRegion) : (s.setRegion k f).pends = s.pends := rfl
@[simp] theorem setRegion_net (k : Nat) (f : MemRegion) : (s.setRegion k f).net = s.net := rfl
@[simp] theorem setRegion_replies (k : Nat) (f : MemRegion) : (s.setRegion k f).replies = s.replies := rfl
@[simp] theorem setRegion_copies (k : Nat) (f : MemRegion) : (s.setRegion k f).copies = s.copies := rfl
@[simp] theorem setRegion_inspects (k : Nat) (f : MemRegion) : (s.setRegion k f).inspects = s.inspects := rfl
@[simp] theorem setRegion_parts (k : Nat) (f : MemRegion) : (s.setRegion k f).parts = s.parts := rfl
@[simp] theorem setRegion_lqueues (k : Nat) (f : MemRegion) : (s.setRegion k f).lqueues = s.lqueues := rfl
@[simp] theorem setRegion_ports (k : Nat) (f : MemRegion) : (s.setRegion k f).ports = s.ports := rfl
@[simp] theorem setRegion_residue (k : Nat) (f : MemRegion) : (s.setRegion k f).residue = s.residue := rfl
@[simp] theorem setRegion_freeCtr (k : Nat) (f : MemRegion) : (s.setRegion k f).freeCtr = s.freeCtr := rfl
@[simp] theorem setRegion_seq (k : Nat) (f : MemRegion) : (s.setRegion k f).seq = s.seq := rfl
@[simp] theorem setRegion_cur (k : Nat) (f : MemRegion) : (s.setRegion k f).cur = s.cur := rfl
@[simp] theorem setRegion_msix (k : Nat) (f : MemRegion) : (s.setRegion k f).msix = s.msix := rfl
@[simp] theorem setRegion_schedule (k : Nat) (f : MemRegion) : (s.setRegion k f).schedule = s.schedule := rfl
@[simp] theorem setRegion_stopped (k : Nat) (f : MemRegion) : (s.setRegion k f).stopped = s.stopped := rfl

/-! `State.setPart` changes `parts`. -/

@[simp] theorem setPart_mem (k : Nat) (f : Partition → Partition) : (s.setPart k f).mem = s.mem := rfl
@[simp] theorem setPart_poison (k : Nat) (f : Partition → Partition) : (s.setPart k f).poison = s.poison := rfl
@[simp] theorem setPart_groups (k : Nat) (f : Partition → Partition) : (s.setPart k f).groups = s.groups := rfl
@[simp] theorem setPart_blocks (k : Nat) (f : Partition → Partition) : (s.setPart k f).blocks = s.blocks := rfl
@[simp] theorem setPart_launches (k : Nat) (f : Partition → Partition) : (s.setPart k f).launches = s.launches := rfl
@[simp] theorem setPart_cores (k : Nat) (f : Partition → Partition) : (s.setPart k f).cores = s.cores := rfl
@[simp] theorem setPart_slices (k : Nat) (f : Partition → Partition) : (s.setPart k f).slices = s.slices := rfl
@[simp] theorem setPart_stlb (k : Nat) (f : Partition → Partition) : (s.setPart k f).stlb = s.stlb := rfl
@[simp] theorem setPart_squeues (k : Nat) (f : Partition → Partition) : (s.setPart k f).squeues = s.squeues := rfl
@[simp] theorem setPart_pends (k : Nat) (f : Partition → Partition) : (s.setPart k f).pends = s.pends := rfl
@[simp] theorem setPart_net (k : Nat) (f : Partition → Partition) : (s.setPart k f).net = s.net := rfl
@[simp] theorem setPart_replies (k : Nat) (f : Partition → Partition) : (s.setPart k f).replies = s.replies := rfl
@[simp] theorem setPart_copies (k : Nat) (f : Partition → Partition) : (s.setPart k f).copies = s.copies := rfl
@[simp] theorem setPart_inspects (k : Nat) (f : Partition → Partition) : (s.setPart k f).inspects = s.inspects := rfl
@[simp] theorem setPart_lqueues (k : Nat) (f : Partition → Partition) : (s.setPart k f).lqueues = s.lqueues := rfl
@[simp] theorem setPart_regions (k : Nat) (f : Partition → Partition) : (s.setPart k f).regions = s.regions := rfl
@[simp] theorem setPart_ports (k : Nat) (f : Partition → Partition) : (s.setPart k f).ports = s.ports := rfl
@[simp] theorem setPart_residue (k : Nat) (f : Partition → Partition) : (s.setPart k f).residue = s.residue := rfl
@[simp] theorem setPart_freeCtr (k : Nat) (f : Partition → Partition) : (s.setPart k f).freeCtr = s.freeCtr := rfl
@[simp] theorem setPart_seq (k : Nat) (f : Partition → Partition) : (s.setPart k f).seq = s.seq := rfl
@[simp] theorem setPart_cur (k : Nat) (f : Partition → Partition) : (s.setPart k f).cur = s.cur := rfl
@[simp] theorem setPart_msix (k : Nat) (f : Partition → Partition) : (s.setPart k f).msix = s.msix := rfl
@[simp] theorem setPart_schedule (k : Nat) (f : Partition → Partition) : (s.setPart k f).schedule = s.schedule := rfl
@[simp] theorem setPart_stopped (k : Nat) (f : Partition → Partition) : (s.setPart k f).stopped = s.stopped := rfl

/-! `State.setGroup` changes `groups`. -/

@[simp] theorem setGroup_mem (k : Nat) (f : Group → Group) : (s.setGroup k f).mem = s.mem := rfl
@[simp] theorem setGroup_poison (k : Nat) (f : Group → Group) : (s.setGroup k f).poison = s.poison := rfl
@[simp] theorem setGroup_blocks (k : Nat) (f : Group → Group) : (s.setGroup k f).blocks = s.blocks := rfl
@[simp] theorem setGroup_launches (k : Nat) (f : Group → Group) : (s.setGroup k f).launches = s.launches := rfl
@[simp] theorem setGroup_cores (k : Nat) (f : Group → Group) : (s.setGroup k f).cores = s.cores := rfl
@[simp] theorem setGroup_slices (k : Nat) (f : Group → Group) : (s.setGroup k f).slices = s.slices := rfl
@[simp] theorem setGroup_stlb (k : Nat) (f : Group → Group) : (s.setGroup k f).stlb = s.stlb := rfl
@[simp] theorem setGroup_squeues (k : Nat) (f : Group → Group) : (s.setGroup k f).squeues = s.squeues := rfl
@[simp] theorem setGroup_pends (k : Nat) (f : Group → Group) : (s.setGroup k f).pends = s.pends := rfl
@[simp] theorem setGroup_net (k : Nat) (f : Group → Group) : (s.setGroup k f).net = s.net := rfl
@[simp] theorem setGroup_replies (k : Nat) (f : Group → Group) : (s.setGroup k f).replies = s.replies := rfl
@[simp] theorem setGroup_copies (k : Nat) (f : Group → Group) : (s.setGroup k f).copies = s.copies := rfl
@[simp] theorem setGroup_inspects (k : Nat) (f : Group → Group) : (s.setGroup k f).inspects = s.inspects := rfl
@[simp] theorem setGroup_parts (k : Nat) (f : Group → Group) : (s.setGroup k f).parts = s.parts := rfl
@[simp] theorem setGroup_lqueues (k : Nat) (f : Group → Group) : (s.setGroup k f).lqueues = s.lqueues := rfl
@[simp] theorem setGroup_regions (k : Nat) (f : Group → Group) : (s.setGroup k f).regions = s.regions := rfl
@[simp] theorem setGroup_ports (k : Nat) (f : Group → Group) : (s.setGroup k f).ports = s.ports := rfl
@[simp] theorem setGroup_residue (k : Nat) (f : Group → Group) : (s.setGroup k f).residue = s.residue := rfl
@[simp] theorem setGroup_freeCtr (k : Nat) (f : Group → Group) : (s.setGroup k f).freeCtr = s.freeCtr := rfl
@[simp] theorem setGroup_seq (k : Nat) (f : Group → Group) : (s.setGroup k f).seq = s.seq := rfl
@[simp] theorem setGroup_cur (k : Nat) (f : Group → Group) : (s.setGroup k f).cur = s.cur := rfl
@[simp] theorem setGroup_msix (k : Nat) (f : Group → Group) : (s.setGroup k f).msix = s.msix := rfl
@[simp] theorem setGroup_schedule (k : Nat) (f : Group → Group) : (s.setGroup k f).schedule = s.schedule := rfl
@[simp] theorem setGroup_stopped (k : Nat) (f : Group → Group) : (s.setGroup k f).stopped = s.stopped := rfl

/-! `State.setBlock` changes `blocks`. -/

@[simp] theorem setBlock_mem (k : Nat) (f : Block → Block) : (s.setBlock k f).mem = s.mem := rfl
@[simp] theorem setBlock_poison (k : Nat) (f : Block → Block) : (s.setBlock k f).poison = s.poison := rfl
@[simp] theorem setBlock_groups (k : Nat) (f : Block → Block) : (s.setBlock k f).groups = s.groups := rfl
@[simp] theorem setBlock_launches (k : Nat) (f : Block → Block) : (s.setBlock k f).launches = s.launches := rfl
@[simp] theorem setBlock_cores (k : Nat) (f : Block → Block) : (s.setBlock k f).cores = s.cores := rfl
@[simp] theorem setBlock_slices (k : Nat) (f : Block → Block) : (s.setBlock k f).slices = s.slices := rfl
@[simp] theorem setBlock_stlb (k : Nat) (f : Block → Block) : (s.setBlock k f).stlb = s.stlb := rfl
@[simp] theorem setBlock_squeues (k : Nat) (f : Block → Block) : (s.setBlock k f).squeues = s.squeues := rfl
@[simp] theorem setBlock_pends (k : Nat) (f : Block → Block) : (s.setBlock k f).pends = s.pends := rfl
@[simp] theorem setBlock_net (k : Nat) (f : Block → Block) : (s.setBlock k f).net = s.net := rfl
@[simp] theorem setBlock_replies (k : Nat) (f : Block → Block) : (s.setBlock k f).replies = s.replies := rfl
@[simp] theorem setBlock_copies (k : Nat) (f : Block → Block) : (s.setBlock k f).copies = s.copies := rfl
@[simp] theorem setBlock_inspects (k : Nat) (f : Block → Block) : (s.setBlock k f).inspects = s.inspects := rfl
@[simp] theorem setBlock_parts (k : Nat) (f : Block → Block) : (s.setBlock k f).parts = s.parts := rfl
@[simp] theorem setBlock_lqueues (k : Nat) (f : Block → Block) : (s.setBlock k f).lqueues = s.lqueues := rfl
@[simp] theorem setBlock_regions (k : Nat) (f : Block → Block) : (s.setBlock k f).regions = s.regions := rfl
@[simp] theorem setBlock_ports (k : Nat) (f : Block → Block) : (s.setBlock k f).ports = s.ports := rfl
@[simp] theorem setBlock_residue (k : Nat) (f : Block → Block) : (s.setBlock k f).residue = s.residue := rfl
@[simp] theorem setBlock_freeCtr (k : Nat) (f : Block → Block) : (s.setBlock k f).freeCtr = s.freeCtr := rfl
@[simp] theorem setBlock_seq (k : Nat) (f : Block → Block) : (s.setBlock k f).seq = s.seq := rfl
@[simp] theorem setBlock_cur (k : Nat) (f : Block → Block) : (s.setBlock k f).cur = s.cur := rfl
@[simp] theorem setBlock_msix (k : Nat) (f : Block → Block) : (s.setBlock k f).msix = s.msix := rfl
@[simp] theorem setBlock_schedule (k : Nat) (f : Block → Block) : (s.setBlock k f).schedule = s.schedule := rfl
@[simp] theorem setBlock_stopped (k : Nat) (f : Block → Block) : (s.setBlock k f).stopped = s.stopped := rfl

/-! `State.setLaunch` changes `launches`. -/

@[simp] theorem setLaunch_mem (k : Nat) (f : Launch → Launch) : (s.setLaunch k f).mem = s.mem := rfl
@[simp] theorem setLaunch_poison (k : Nat) (f : Launch → Launch) : (s.setLaunch k f).poison = s.poison := rfl
@[simp] theorem setLaunch_groups (k : Nat) (f : Launch → Launch) : (s.setLaunch k f).groups = s.groups := rfl
@[simp] theorem setLaunch_blocks (k : Nat) (f : Launch → Launch) : (s.setLaunch k f).blocks = s.blocks := rfl
@[simp] theorem setLaunch_cores (k : Nat) (f : Launch → Launch) : (s.setLaunch k f).cores = s.cores := rfl
@[simp] theorem setLaunch_slices (k : Nat) (f : Launch → Launch) : (s.setLaunch k f).slices = s.slices := rfl
@[simp] theorem setLaunch_stlb (k : Nat) (f : Launch → Launch) : (s.setLaunch k f).stlb = s.stlb := rfl
@[simp] theorem setLaunch_squeues (k : Nat) (f : Launch → Launch) : (s.setLaunch k f).squeues = s.squeues := rfl
@[simp] theorem setLaunch_pends (k : Nat) (f : Launch → Launch) : (s.setLaunch k f).pends = s.pends := rfl
@[simp] theorem setLaunch_net (k : Nat) (f : Launch → Launch) : (s.setLaunch k f).net = s.net := rfl
@[simp] theorem setLaunch_replies (k : Nat) (f : Launch → Launch) : (s.setLaunch k f).replies = s.replies := rfl
@[simp] theorem setLaunch_copies (k : Nat) (f : Launch → Launch) : (s.setLaunch k f).copies = s.copies := rfl
@[simp] theorem setLaunch_inspects (k : Nat) (f : Launch → Launch) : (s.setLaunch k f).inspects = s.inspects := rfl
@[simp] theorem setLaunch_parts (k : Nat) (f : Launch → Launch) : (s.setLaunch k f).parts = s.parts := rfl
@[simp] theorem setLaunch_lqueues (k : Nat) (f : Launch → Launch) : (s.setLaunch k f).lqueues = s.lqueues := rfl
@[simp] theorem setLaunch_regions (k : Nat) (f : Launch → Launch) : (s.setLaunch k f).regions = s.regions := rfl
@[simp] theorem setLaunch_ports (k : Nat) (f : Launch → Launch) : (s.setLaunch k f).ports = s.ports := rfl
@[simp] theorem setLaunch_residue (k : Nat) (f : Launch → Launch) : (s.setLaunch k f).residue = s.residue := rfl
@[simp] theorem setLaunch_freeCtr (k : Nat) (f : Launch → Launch) : (s.setLaunch k f).freeCtr = s.freeCtr := rfl
@[simp] theorem setLaunch_seq (k : Nat) (f : Launch → Launch) : (s.setLaunch k f).seq = s.seq := rfl
@[simp] theorem setLaunch_cur (k : Nat) (f : Launch → Launch) : (s.setLaunch k f).cur = s.cur := rfl
@[simp] theorem setLaunch_msix (k : Nat) (f : Launch → Launch) : (s.setLaunch k f).msix = s.msix := rfl
@[simp] theorem setLaunch_schedule (k : Nat) (f : Launch → Launch) : (s.setLaunch k f).schedule = s.schedule := rfl
@[simp] theorem setLaunch_stopped (k : Nat) (f : Launch → Launch) : (s.setLaunch k f).stopped = s.stopped := rfl

/-! `State.setCopy` changes `copies`. -/

@[simp] theorem setCopy_mem (k : Nat) (f : Copy → Copy) : (s.setCopy k f).mem = s.mem := rfl
@[simp] theorem setCopy_poison (k : Nat) (f : Copy → Copy) : (s.setCopy k f).poison = s.poison := rfl
@[simp] theorem setCopy_groups (k : Nat) (f : Copy → Copy) : (s.setCopy k f).groups = s.groups := rfl
@[simp] theorem setCopy_blocks (k : Nat) (f : Copy → Copy) : (s.setCopy k f).blocks = s.blocks := rfl
@[simp] theorem setCopy_launches (k : Nat) (f : Copy → Copy) : (s.setCopy k f).launches = s.launches := rfl
@[simp] theorem setCopy_cores (k : Nat) (f : Copy → Copy) : (s.setCopy k f).cores = s.cores := rfl
@[simp] theorem setCopy_slices (k : Nat) (f : Copy → Copy) : (s.setCopy k f).slices = s.slices := rfl
@[simp] theorem setCopy_stlb (k : Nat) (f : Copy → Copy) : (s.setCopy k f).stlb = s.stlb := rfl
@[simp] theorem setCopy_squeues (k : Nat) (f : Copy → Copy) : (s.setCopy k f).squeues = s.squeues := rfl
@[simp] theorem setCopy_pends (k : Nat) (f : Copy → Copy) : (s.setCopy k f).pends = s.pends := rfl
@[simp] theorem setCopy_net (k : Nat) (f : Copy → Copy) : (s.setCopy k f).net = s.net := rfl
@[simp] theorem setCopy_replies (k : Nat) (f : Copy → Copy) : (s.setCopy k f).replies = s.replies := rfl
@[simp] theorem setCopy_inspects (k : Nat) (f : Copy → Copy) : (s.setCopy k f).inspects = s.inspects := rfl
@[simp] theorem setCopy_parts (k : Nat) (f : Copy → Copy) : (s.setCopy k f).parts = s.parts := rfl
@[simp] theorem setCopy_lqueues (k : Nat) (f : Copy → Copy) : (s.setCopy k f).lqueues = s.lqueues := rfl
@[simp] theorem setCopy_regions (k : Nat) (f : Copy → Copy) : (s.setCopy k f).regions = s.regions := rfl
@[simp] theorem setCopy_ports (k : Nat) (f : Copy → Copy) : (s.setCopy k f).ports = s.ports := rfl
@[simp] theorem setCopy_residue (k : Nat) (f : Copy → Copy) : (s.setCopy k f).residue = s.residue := rfl
@[simp] theorem setCopy_freeCtr (k : Nat) (f : Copy → Copy) : (s.setCopy k f).freeCtr = s.freeCtr := rfl
@[simp] theorem setCopy_seq (k : Nat) (f : Copy → Copy) : (s.setCopy k f).seq = s.seq := rfl
@[simp] theorem setCopy_cur (k : Nat) (f : Copy → Copy) : (s.setCopy k f).cur = s.cur := rfl
@[simp] theorem setCopy_msix (k : Nat) (f : Copy → Copy) : (s.setCopy k f).msix = s.msix := rfl
@[simp] theorem setCopy_schedule (k : Nat) (f : Copy → Copy) : (s.setCopy k f).schedule = s.schedule := rfl
@[simp] theorem setCopy_stopped (k : Nat) (f : Copy → Copy) : (s.setCopy k f).stopped = s.stopped := rfl

/-! `State.setInspect` changes `inspects`. -/

@[simp] theorem setInspect_mem (k : Nat) (f : Inspect → Inspect) : (s.setInspect k f).mem = s.mem := rfl
@[simp] theorem setInspect_poison (k : Nat) (f : Inspect → Inspect) : (s.setInspect k f).poison = s.poison := rfl
@[simp] theorem setInspect_groups (k : Nat) (f : Inspect → Inspect) : (s.setInspect k f).groups = s.groups := rfl
@[simp] theorem setInspect_blocks (k : Nat) (f : Inspect → Inspect) : (s.setInspect k f).blocks = s.blocks := rfl
@[simp] theorem setInspect_launches (k : Nat) (f : Inspect → Inspect) : (s.setInspect k f).launches = s.launches := rfl
@[simp] theorem setInspect_cores (k : Nat) (f : Inspect → Inspect) : (s.setInspect k f).cores = s.cores := rfl
@[simp] theorem setInspect_slices (k : Nat) (f : Inspect → Inspect) : (s.setInspect k f).slices = s.slices := rfl
@[simp] theorem setInspect_stlb (k : Nat) (f : Inspect → Inspect) : (s.setInspect k f).stlb = s.stlb := rfl
@[simp] theorem setInspect_squeues (k : Nat) (f : Inspect → Inspect) : (s.setInspect k f).squeues = s.squeues := rfl
@[simp] theorem setInspect_pends (k : Nat) (f : Inspect → Inspect) : (s.setInspect k f).pends = s.pends := rfl
@[simp] theorem setInspect_net (k : Nat) (f : Inspect → Inspect) : (s.setInspect k f).net = s.net := rfl
@[simp] theorem setInspect_replies (k : Nat) (f : Inspect → Inspect) : (s.setInspect k f).replies = s.replies := rfl
@[simp] theorem setInspect_copies (k : Nat) (f : Inspect → Inspect) : (s.setInspect k f).copies = s.copies := rfl
@[simp] theorem setInspect_parts (k : Nat) (f : Inspect → Inspect) : (s.setInspect k f).parts = s.parts := rfl
@[simp] theorem setInspect_lqueues (k : Nat) (f : Inspect → Inspect) : (s.setInspect k f).lqueues = s.lqueues := rfl
@[simp] theorem setInspect_regions (k : Nat) (f : Inspect → Inspect) : (s.setInspect k f).regions = s.regions := rfl
@[simp] theorem setInspect_ports (k : Nat) (f : Inspect → Inspect) : (s.setInspect k f).ports = s.ports := rfl
@[simp] theorem setInspect_residue (k : Nat) (f : Inspect → Inspect) : (s.setInspect k f).residue = s.residue := rfl
@[simp] theorem setInspect_freeCtr (k : Nat) (f : Inspect → Inspect) : (s.setInspect k f).freeCtr = s.freeCtr := rfl
@[simp] theorem setInspect_seq (k : Nat) (f : Inspect → Inspect) : (s.setInspect k f).seq = s.seq := rfl
@[simp] theorem setInspect_cur (k : Nat) (f : Inspect → Inspect) : (s.setInspect k f).cur = s.cur := rfl
@[simp] theorem setInspect_msix (k : Nat) (f : Inspect → Inspect) : (s.setInspect k f).msix = s.msix := rfl
@[simp] theorem setInspect_schedule (k : Nat) (f : Inspect → Inspect) : (s.setInspect k f).schedule = s.schedule := rfl
@[simp] theorem setInspect_stopped (k : Nat) (f : Inspect → Inspect) : (s.setInspect k f).stopped = s.stopped := rfl

/-! `State.setPend` changes `pends`. -/

@[simp] theorem setPend_mem (k : Nat) (f : Pend → Pend) : (s.setPend k f).mem = s.mem := rfl
@[simp] theorem setPend_poison (k : Nat) (f : Pend → Pend) : (s.setPend k f).poison = s.poison := rfl
@[simp] theorem setPend_groups (k : Nat) (f : Pend → Pend) : (s.setPend k f).groups = s.groups := rfl
@[simp] theorem setPend_blocks (k : Nat) (f : Pend → Pend) : (s.setPend k f).blocks = s.blocks := rfl
@[simp] theorem setPend_launches (k : Nat) (f : Pend → Pend) : (s.setPend k f).launches = s.launches := rfl
@[simp] theorem setPend_cores (k : Nat) (f : Pend → Pend) : (s.setPend k f).cores = s.cores := rfl
@[simp] theorem setPend_slices (k : Nat) (f : Pend → Pend) : (s.setPend k f).slices = s.slices := rfl
@[simp] theorem setPend_stlb (k : Nat) (f : Pend → Pend) : (s.setPend k f).stlb = s.stlb := rfl
@[simp] theorem setPend_squeues (k : Nat) (f : Pend → Pend) : (s.setPend k f).squeues = s.squeues := rfl
@[simp] theorem setPend_net (k : Nat) (f : Pend → Pend) : (s.setPend k f).net = s.net := rfl
@[simp] theorem setPend_replies (k : Nat) (f : Pend → Pend) : (s.setPend k f).replies = s.replies := rfl
@[simp] theorem setPend_copies (k : Nat) (f : Pend → Pend) : (s.setPend k f).copies = s.copies := rfl
@[simp] theorem setPend_inspects (k : Nat) (f : Pend → Pend) : (s.setPend k f).inspects = s.inspects := rfl
@[simp] theorem setPend_parts (k : Nat) (f : Pend → Pend) : (s.setPend k f).parts = s.parts := rfl
@[simp] theorem setPend_lqueues (k : Nat) (f : Pend → Pend) : (s.setPend k f).lqueues = s.lqueues := rfl
@[simp] theorem setPend_regions (k : Nat) (f : Pend → Pend) : (s.setPend k f).regions = s.regions := rfl
@[simp] theorem setPend_ports (k : Nat) (f : Pend → Pend) : (s.setPend k f).ports = s.ports := rfl
@[simp] theorem setPend_residue (k : Nat) (f : Pend → Pend) : (s.setPend k f).residue = s.residue := rfl
@[simp] theorem setPend_freeCtr (k : Nat) (f : Pend → Pend) : (s.setPend k f).freeCtr = s.freeCtr := rfl
@[simp] theorem setPend_seq (k : Nat) (f : Pend → Pend) : (s.setPend k f).seq = s.seq := rfl
@[simp] theorem setPend_cur (k : Nat) (f : Pend → Pend) : (s.setPend k f).cur = s.cur := rfl
@[simp] theorem setPend_msix (k : Nat) (f : Pend → Pend) : (s.setPend k f).msix = s.msix := rfl
@[simp] theorem setPend_schedule (k : Nat) (f : Pend → Pend) : (s.setPend k f).schedule = s.schedule := rfl
@[simp] theorem setPend_stopped (k : Nat) (f : Pend → Pend) : (s.setPend k f).stopped = s.stopped := rfl

/-! `Group.setThread` changes `threads`. -/

@[simp] theorem group_setThread_bid (l : Nat) (f : Thread → Thread) : (g.setThread l f).bid = g.bid := rfl
@[simp] theorem group_setThread_index (l : Nat) (f : Thread → Thread) : (g.setThread l f).index = g.index := rfl
@[simp] theorem group_setThread_width (l : Nat) (f : Thread → Thread) : (g.setThread l f).width = g.width := rfl
@[simp] theorem group_setThread_part (l : Nat) (f : Thread → Thread) : (g.setThread l f).part = g.part := rfl
@[simp] theorem group_setThread_core (l : Nat) (f : Thread → Thread) : (g.setThread l f).core = g.core := rfl
@[simp] theorem group_setThread_rows (l : Nat) (f : Thread → Thread) : (g.setThread l f).rows = g.rows := rfl
@[simp] theorem group_setThread_lane0 (l : Nat) (f : Thread → Thread) : (g.setThread l f).lane0 = g.lane0 := rfl
@[simp] theorem group_setThread_enc (l : Nat) (f : Thread → Thread) : (g.setThread l f).enc = g.enc := rfl
@[simp] theorem group_setThread_ilk (l : Nat) (f : Thread → Thread) : (g.setThread l f).ilk = g.ilk := rfl
@[simp] theorem group_setThread_c16 (l : Nat) (f : Thread → Thread) : (g.setThread l f).c16 = g.c16 := rfl
@[simp] theorem group_setThread_vregs (l : Nat) (f : Thread → Thread) : (g.setThread l f).vregs = g.vregs := rfl
@[simp] theorem group_setThread_privileged (l : Nat) (f : Thread → Thread) : (g.setThread l f).privileged = g.privileged := rfl
@[simp] theorem group_setThread_handler (l : Nat) (f : Thread → Thread) : (g.setThread l f).handler = g.handler := rfl
@[simp] theorem group_setThread_frags (l : Nat) (f : Thread → Thread) : (g.setThread l f).frags = g.frags := rfl
@[simp] theorem group_setThread_s (l : Nat) (f : Thread → Thread) : (g.setThread l f).s = g.s := rfl
@[simp] theorem group_setThread_q (l : Nat) (f : Thread → Thread) : (g.setThread l f).q = g.q := rfl
@[simp] theorem group_setThread_a (l : Nat) (f : Thread → Thread) : (g.setThread l f).a = g.a := rfl
@[simp] theorem group_setThread_j (l : Nat) (f : Thread → Thread) : (g.setThread l f).j = g.j := rfl
@[simp] theorem group_setThread_meld (l : Nat) (f : Thread → Thread) : (g.setThread l f).meld = g.meld := rfl
@[simp] theorem group_setThread_region (l : Nat) (f : Thread → Thread) : (g.setThread l f).region = g.region := rfl
@[simp] theorem group_setThread_holds (l : Nat) (f : Thread → Thread) : (g.setThread l f).holds = g.holds := rfl
@[simp] theorem group_setThread_pendMig (l : Nat) (f : Thread → Thread) : (g.setThread l f).pendMig = g.pendMig := rfl
@[simp] theorem group_setThread_stag (l : Nat) (f : Thread → Thread) : (g.setThread l f).stag = g.stag := rfl
@[simp] theorem group_setThread_atag (l : Nat) (f : Thread → Thread) : (g.setThread l f).atag = g.atag := rfl
@[simp] theorem group_setThread_children (l : Nat) (f : Thread → Thread) : (g.setThread l f).children = g.children := rfl
@[simp] theorem group_setThread_producers (l : Nat) (f : Thread → Thread) : (g.setThread l f).producers = g.producers := rfl
@[simp] theorem group_setThread_fetched (l : Nat) (f : Thread → Thread) : (g.setThread l f).fetched = g.fetched := rfl
@[simp] theorem group_setThread_residence (l : Nat) (f : Thread → Thread) : (g.setThread l f).residence = g.residence := rfl
@[simp] theorem group_setThread_home (l : Nat) (f : Thread → Thread) : (g.setThread l f).home = g.home := rfl
@[simp] theorem group_setThread_parkedAt (l : Nat) (f : Thread → Thread) : (g.setThread l f).parkedAt = g.parkedAt := rfl
@[simp] theorem group_setThread_tst (l : Nat) (f : Thread → Thread) : (g.setThread l f).tst = g.tst := rfl

/-! `Group.putS` changes `s, stag`. -/

@[simp] theorem group_putS_bid (k : Nat) (x : Word) : (g.putS k x).bid = g.bid := rfl
@[simp] theorem group_putS_index (k : Nat) (x : Word) : (g.putS k x).index = g.index := rfl
@[simp] theorem group_putS_width (k : Nat) (x : Word) : (g.putS k x).width = g.width := rfl
@[simp] theorem group_putS_part (k : Nat) (x : Word) : (g.putS k x).part = g.part := rfl
@[simp] theorem group_putS_core (k : Nat) (x : Word) : (g.putS k x).core = g.core := rfl
@[simp] theorem group_putS_rows (k : Nat) (x : Word) : (g.putS k x).rows = g.rows := rfl
@[simp] theorem group_putS_lane0 (k : Nat) (x : Word) : (g.putS k x).lane0 = g.lane0 := rfl
@[simp] theorem group_putS_enc (k : Nat) (x : Word) : (g.putS k x).enc = g.enc := rfl
@[simp] theorem group_putS_ilk (k : Nat) (x : Word) : (g.putS k x).ilk = g.ilk := rfl
@[simp] theorem group_putS_c16 (k : Nat) (x : Word) : (g.putS k x).c16 = g.c16 := rfl
@[simp] theorem group_putS_vregs (k : Nat) (x : Word) : (g.putS k x).vregs = g.vregs := rfl
@[simp] theorem group_putS_privileged (k : Nat) (x : Word) : (g.putS k x).privileged = g.privileged := rfl
@[simp] theorem group_putS_handler (k : Nat) (x : Word) : (g.putS k x).handler = g.handler := rfl
@[simp] theorem group_putS_threads (k : Nat) (x : Word) : (g.putS k x).threads = g.threads := rfl
@[simp] theorem group_putS_frags (k : Nat) (x : Word) : (g.putS k x).frags = g.frags := rfl
@[simp] theorem group_putS_q (k : Nat) (x : Word) : (g.putS k x).q = g.q := rfl
@[simp] theorem group_putS_a (k : Nat) (x : Word) : (g.putS k x).a = g.a := rfl
@[simp] theorem group_putS_j (k : Nat) (x : Word) : (g.putS k x).j = g.j := rfl
@[simp] theorem group_putS_meld (k : Nat) (x : Word) : (g.putS k x).meld = g.meld := rfl
@[simp] theorem group_putS_region (k : Nat) (x : Word) : (g.putS k x).region = g.region := rfl
@[simp] theorem group_putS_holds (k : Nat) (x : Word) : (g.putS k x).holds = g.holds := rfl
@[simp] theorem group_putS_pendMig (k : Nat) (x : Word) : (g.putS k x).pendMig = g.pendMig := rfl
@[simp] theorem group_putS_atag (k : Nat) (x : Word) : (g.putS k x).atag = g.atag := rfl
@[simp] theorem group_putS_children (k : Nat) (x : Word) : (g.putS k x).children = g.children := rfl
@[simp] theorem group_putS_producers (k : Nat) (x : Word) : (g.putS k x).producers = g.producers := rfl
@[simp] theorem group_putS_fetched (k : Nat) (x : Word) : (g.putS k x).fetched = g.fetched := rfl
@[simp] theorem group_putS_residence (k : Nat) (x : Word) : (g.putS k x).residence = g.residence := rfl
@[simp] theorem group_putS_home (k : Nat) (x : Word) : (g.putS k x).home = g.home := rfl
@[simp] theorem group_putS_parkedAt (k : Nat) (x : Word) : (g.putS k x).parkedAt = g.parkedAt := rfl
@[simp] theorem group_putS_tst (k : Nat) (x : Word) : (g.putS k x).tst = g.tst := rfl

/-! `Group.putQ` changes `q`. -/

@[simp] theorem group_putQ_bid (k : Nat) (b : Bool) : (g.putQ k b).bid = g.bid := rfl
@[simp] theorem group_putQ_index (k : Nat) (b : Bool) : (g.putQ k b).index = g.index := rfl
@[simp] theorem group_putQ_width (k : Nat) (b : Bool) : (g.putQ k b).width = g.width := rfl
@[simp] theorem group_putQ_part (k : Nat) (b : Bool) : (g.putQ k b).part = g.part := rfl
@[simp] theorem group_putQ_core (k : Nat) (b : Bool) : (g.putQ k b).core = g.core := rfl
@[simp] theorem group_putQ_rows (k : Nat) (b : Bool) : (g.putQ k b).rows = g.rows := rfl
@[simp] theorem group_putQ_lane0 (k : Nat) (b : Bool) : (g.putQ k b).lane0 = g.lane0 := rfl
@[simp] theorem group_putQ_enc (k : Nat) (b : Bool) : (g.putQ k b).enc = g.enc := rfl
@[simp] theorem group_putQ_ilk (k : Nat) (b : Bool) : (g.putQ k b).ilk = g.ilk := rfl
@[simp] theorem group_putQ_c16 (k : Nat) (b : Bool) : (g.putQ k b).c16 = g.c16 := rfl
@[simp] theorem group_putQ_vregs (k : Nat) (b : Bool) : (g.putQ k b).vregs = g.vregs := rfl
@[simp] theorem group_putQ_privileged (k : Nat) (b : Bool) : (g.putQ k b).privileged = g.privileged := rfl
@[simp] theorem group_putQ_handler (k : Nat) (b : Bool) : (g.putQ k b).handler = g.handler := rfl
@[simp] theorem group_putQ_threads (k : Nat) (b : Bool) : (g.putQ k b).threads = g.threads := rfl
@[simp] theorem group_putQ_frags (k : Nat) (b : Bool) : (g.putQ k b).frags = g.frags := rfl
@[simp] theorem group_putQ_s (k : Nat) (b : Bool) : (g.putQ k b).s = g.s := rfl
@[simp] theorem group_putQ_a (k : Nat) (b : Bool) : (g.putQ k b).a = g.a := rfl
@[simp] theorem group_putQ_j (k : Nat) (b : Bool) : (g.putQ k b).j = g.j := rfl
@[simp] theorem group_putQ_meld (k : Nat) (b : Bool) : (g.putQ k b).meld = g.meld := rfl
@[simp] theorem group_putQ_region (k : Nat) (b : Bool) : (g.putQ k b).region = g.region := rfl
@[simp] theorem group_putQ_holds (k : Nat) (b : Bool) : (g.putQ k b).holds = g.holds := rfl
@[simp] theorem group_putQ_pendMig (k : Nat) (b : Bool) : (g.putQ k b).pendMig = g.pendMig := rfl
@[simp] theorem group_putQ_stag (k : Nat) (b : Bool) : (g.putQ k b).stag = g.stag := rfl
@[simp] theorem group_putQ_atag (k : Nat) (b : Bool) : (g.putQ k b).atag = g.atag := rfl
@[simp] theorem group_putQ_children (k : Nat) (b : Bool) : (g.putQ k b).children = g.children := rfl
@[simp] theorem group_putQ_producers (k : Nat) (b : Bool) : (g.putQ k b).producers = g.producers := rfl
@[simp] theorem group_putQ_fetched (k : Nat) (b : Bool) : (g.putQ k b).fetched = g.fetched := rfl
@[simp] theorem group_putQ_residence (k : Nat) (b : Bool) : (g.putQ k b).residence = g.residence := rfl
@[simp] theorem group_putQ_home (k : Nat) (b : Bool) : (g.putQ k b).home = g.home := rfl
@[simp] theorem group_putQ_parkedAt (k : Nat) (b : Bool) : (g.putQ k b).parkedAt = g.parkedAt := rfl
@[simp] theorem group_putQ_tst (k : Nat) (b : Bool) : (g.putQ k b).tst = g.tst := rfl

/-! `Group.putA` changes `a, atag`. -/

@[simp] theorem group_putA_bid (k : Nat) (x : AddrReg) : (g.putA k x).bid = g.bid := rfl
@[simp] theorem group_putA_index (k : Nat) (x : AddrReg) : (g.putA k x).index = g.index := rfl
@[simp] theorem group_putA_width (k : Nat) (x : AddrReg) : (g.putA k x).width = g.width := rfl
@[simp] theorem group_putA_part (k : Nat) (x : AddrReg) : (g.putA k x).part = g.part := rfl
@[simp] theorem group_putA_core (k : Nat) (x : AddrReg) : (g.putA k x).core = g.core := rfl
@[simp] theorem group_putA_rows (k : Nat) (x : AddrReg) : (g.putA k x).rows = g.rows := rfl
@[simp] theorem group_putA_lane0 (k : Nat) (x : AddrReg) : (g.putA k x).lane0 = g.lane0 := rfl
@[simp] theorem group_putA_enc (k : Nat) (x : AddrReg) : (g.putA k x).enc = g.enc := rfl
@[simp] theorem group_putA_ilk (k : Nat) (x : AddrReg) : (g.putA k x).ilk = g.ilk := rfl
@[simp] theorem group_putA_c16 (k : Nat) (x : AddrReg) : (g.putA k x).c16 = g.c16 := rfl
@[simp] theorem group_putA_vregs (k : Nat) (x : AddrReg) : (g.putA k x).vregs = g.vregs := rfl
@[simp] theorem group_putA_privileged (k : Nat) (x : AddrReg) : (g.putA k x).privileged = g.privileged := rfl
@[simp] theorem group_putA_handler (k : Nat) (x : AddrReg) : (g.putA k x).handler = g.handler := rfl
@[simp] theorem group_putA_threads (k : Nat) (x : AddrReg) : (g.putA k x).threads = g.threads := rfl
@[simp] theorem group_putA_frags (k : Nat) (x : AddrReg) : (g.putA k x).frags = g.frags := rfl
@[simp] theorem group_putA_s (k : Nat) (x : AddrReg) : (g.putA k x).s = g.s := rfl
@[simp] theorem group_putA_q (k : Nat) (x : AddrReg) : (g.putA k x).q = g.q := rfl
@[simp] theorem group_putA_j (k : Nat) (x : AddrReg) : (g.putA k x).j = g.j := rfl
@[simp] theorem group_putA_meld (k : Nat) (x : AddrReg) : (g.putA k x).meld = g.meld := rfl
@[simp] theorem group_putA_region (k : Nat) (x : AddrReg) : (g.putA k x).region = g.region := rfl
@[simp] theorem group_putA_holds (k : Nat) (x : AddrReg) : (g.putA k x).holds = g.holds := rfl
@[simp] theorem group_putA_pendMig (k : Nat) (x : AddrReg) : (g.putA k x).pendMig = g.pendMig := rfl
@[simp] theorem group_putA_stag (k : Nat) (x : AddrReg) : (g.putA k x).stag = g.stag := rfl
@[simp] theorem group_putA_children (k : Nat) (x : AddrReg) : (g.putA k x).children = g.children := rfl
@[simp] theorem group_putA_producers (k : Nat) (x : AddrReg) : (g.putA k x).producers = g.producers := rfl
@[simp] theorem group_putA_fetched (k : Nat) (x : AddrReg) : (g.putA k x).fetched = g.fetched := rfl
@[simp] theorem group_putA_residence (k : Nat) (x : AddrReg) : (g.putA k x).residence = g.residence := rfl
@[simp] theorem group_putA_home (k : Nat) (x : AddrReg) : (g.putA k x).home = g.home := rfl
@[simp] theorem group_putA_parkedAt (k : Nat) (x : AddrReg) : (g.putA k x).parkedAt = g.parkedAt := rfl
@[simp] theorem group_putA_tst (k : Nat) (x : AddrReg) : (g.putA k x).tst = g.tst := rfl

/-! `Thread.goTo` changes `pc, rentry, rcount`. -/

@[simp] theorem thread_goTo_st (x : DWord) (o : Bool) : (t.goTo x o).st = t.st := rfl
@[simp] theorem thread_goTo_frag (x : DWord) (o : Bool) : (t.goTo x o).frag = t.frag := rfl
@[simp] theorem thread_goTo_v (x : DWord) (o : Bool) : (t.goTo x o).v = t.v := rfl
@[simp] theorem thread_goTo_p (x : DWord) (o : Bool) : (t.goTo x o).p = t.p := rfl
@[simp] theorem thread_goTo_x (x : DWord) (o : Bool) : (t.goTo x o).x = t.x := rfl
@[simp] theorem thread_goTo_path (x : DWord) (o : Bool) : (t.goTo x o).path = t.path := rfl
@[simp] theorem thread_goTo_rstk (x : DWord) (o : Bool) : (t.goTo x o).rstk = t.rstk := rfl
@[simp] theorem thread_goTo_eq (x : DWord) (o : Bool) : (t.goTo x o).eq = t.eq := rfl
@[simp] theorem thread_goTo_loads (x : DWord) (o : Bool) : (t.goTo x o).loads = t.loads := rfl
@[simp] theorem thread_goTo_stores (x : DWord) (o : Bool) : (t.goTo x o).stores = t.stores := rfl
@[simp] theorem thread_goTo_copies (x : DWord) (o : Bool) : (t.goTo x o).copies = t.copies := rfl
@[simp] theorem thread_goTo_tiles (x : DWord) (o : Bool) : (t.goTo x o).tiles = t.tiles := rfl
@[simp] theorem thread_goTo_vtag (x : DWord) (o : Bool) : (t.goTo x o).vtag = t.vtag := rfl
@[simp] theorem thread_goTo_ptag (x : DWord) (o : Bool) : (t.goTo x o).ptag = t.ptag := rfl
@[simp] theorem thread_goTo_fut (x : DWord) (o : Bool) : (t.goTo x o).fut = t.fut := rfl
@[simp] theorem thread_goTo_vhaz (x : DWord) (o : Bool) : (t.goTo x o).vhaz = t.vhaz := rfl
@[simp] theorem thread_goTo_phaz (x : DWord) (o : Bool) : (t.goTo x o).phaz = t.phaz := rfl
@[simp] theorem thread_goTo_xhaz (x : DWord) (o : Bool) : (t.goTo x o).xhaz = t.xhaz := rfl
@[simp] theorem thread_goTo_trap (x : DWord) (o : Bool) : (t.goTo x o).trap = t.trap := rfl
@[simp] theorem thread_goTo_origin (x : DWord) (o : Bool) : (t.goTo x o).origin = t.origin := rfl
@[simp] theorem thread_goTo_pennant (x : DWord) (o : Bool) : (t.goTo x o).pennant = t.pennant := rfl
@[simp] theorem thread_goTo_producer (x : DWord) (o : Bool) : (t.goTo x o).producer = t.producer := rfl

/-! `Thread.putReg` changes `v, vtag, fut, vhaz`. -/

@[simp] theorem thread_putReg_st (n r : Nat) (x : Word) : (t.putReg n r x).st = t.st := rfl
@[simp] theorem thread_putReg_pc (n r : Nat) (x : Word) : (t.putReg n r x).pc = t.pc := rfl
@[simp] theorem thread_putReg_frag (n r : Nat) (x : Word) : (t.putReg n r x).frag = t.frag := rfl
@[simp] theorem thread_putReg_p (n r : Nat) (x : Word) : (t.putReg n r x).p = t.p := rfl
@[simp] theorem thread_putReg_x (n r : Nat) (x : Word) : (t.putReg n r x).x = t.x := rfl
@[simp] theorem thread_putReg_path (n r : Nat) (x : Word) : (t.putReg n r x).path = t.path := rfl
@[simp] theorem thread_putReg_rstk (n r : Nat) (x : Word) : (t.putReg n r x).rstk = t.rstk := rfl
@[simp] theorem thread_putReg_rcount (n r : Nat) (x : Word) : (t.putReg n r x).rcount = t.rcount := rfl
@[simp] theorem thread_putReg_rentry (n r : Nat) (x : Word) : (t.putReg n r x).rentry = t.rentry := rfl
@[simp] theorem thread_putReg_eq (n r : Nat) (x : Word) : (t.putReg n r x).eq = t.eq := rfl
@[simp] theorem thread_putReg_loads (n r : Nat) (x : Word) : (t.putReg n r x).loads = t.loads := rfl
@[simp] theorem thread_putReg_stores (n r : Nat) (x : Word) : (t.putReg n r x).stores = t.stores := rfl
@[simp] theorem thread_putReg_copies (n r : Nat) (x : Word) : (t.putReg n r x).copies = t.copies := rfl
@[simp] theorem thread_putReg_tiles (n r : Nat) (x : Word) : (t.putReg n r x).tiles = t.tiles := rfl
@[simp] theorem thread_putReg_ptag (n r : Nat) (x : Word) : (t.putReg n r x).ptag = t.ptag := rfl
@[simp] theorem thread_putReg_phaz (n r : Nat) (x : Word) : (t.putReg n r x).phaz = t.phaz := rfl
@[simp] theorem thread_putReg_xhaz (n r : Nat) (x : Word) : (t.putReg n r x).xhaz = t.xhaz := rfl
@[simp] theorem thread_putReg_trap (n r : Nat) (x : Word) : (t.putReg n r x).trap = t.trap := rfl
@[simp] theorem thread_putReg_origin (n r : Nat) (x : Word) : (t.putReg n r x).origin = t.origin := rfl
@[simp] theorem thread_putReg_pennant (n r : Nat) (x : Word) : (t.putReg n r x).pennant = t.pennant := rfl
@[simp] theorem thread_putReg_producer (n r : Nat) (x : Word) : (t.putReg n r x).producer = t.producer := rfl

/-! `Thread.putPred` changes `p, ptag, phaz`. -/

@[simp] theorem thread_putPred_st (n k : Nat) (b : Bool) : (t.putPred n k b).st = t.st := rfl
@[simp] theorem thread_putPred_pc (n k : Nat) (b : Bool) : (t.putPred n k b).pc = t.pc := rfl
@[simp] theorem thread_putPred_frag (n k : Nat) (b : Bool) : (t.putPred n k b).frag = t.frag := rfl
@[simp] theorem thread_putPred_v (n k : Nat) (b : Bool) : (t.putPred n k b).v = t.v := rfl
@[simp] theorem thread_putPred_x (n k : Nat) (b : Bool) : (t.putPred n k b).x = t.x := rfl
@[simp] theorem thread_putPred_path (n k : Nat) (b : Bool) : (t.putPred n k b).path = t.path := rfl
@[simp] theorem thread_putPred_rstk (n k : Nat) (b : Bool) : (t.putPred n k b).rstk = t.rstk := rfl
@[simp] theorem thread_putPred_rcount (n k : Nat) (b : Bool) : (t.putPred n k b).rcount = t.rcount := rfl
@[simp] theorem thread_putPred_rentry (n k : Nat) (b : Bool) : (t.putPred n k b).rentry = t.rentry := rfl
@[simp] theorem thread_putPred_eq (n k : Nat) (b : Bool) : (t.putPred n k b).eq = t.eq := rfl
@[simp] theorem thread_putPred_loads (n k : Nat) (b : Bool) : (t.putPred n k b).loads = t.loads := rfl
@[simp] theorem thread_putPred_stores (n k : Nat) (b : Bool) : (t.putPred n k b).stores = t.stores := rfl
@[simp] theorem thread_putPred_copies (n k : Nat) (b : Bool) : (t.putPred n k b).copies = t.copies := rfl
@[simp] theorem thread_putPred_tiles (n k : Nat) (b : Bool) : (t.putPred n k b).tiles = t.tiles := rfl
@[simp] theorem thread_putPred_vtag (n k : Nat) (b : Bool) : (t.putPred n k b).vtag = t.vtag := rfl
@[simp] theorem thread_putPred_fut (n k : Nat) (b : Bool) : (t.putPred n k b).fut = t.fut := rfl
@[simp] theorem thread_putPred_vhaz (n k : Nat) (b : Bool) : (t.putPred n k b).vhaz = t.vhaz := rfl
@[simp] theorem thread_putPred_xhaz (n k : Nat) (b : Bool) : (t.putPred n k b).xhaz = t.xhaz := rfl
@[simp] theorem thread_putPred_trap (n k : Nat) (b : Bool) : (t.putPred n k b).trap = t.trap := rfl
@[simp] theorem thread_putPred_origin (n k : Nat) (b : Bool) : (t.putPred n k b).origin = t.origin := rfl
@[simp] theorem thread_putPred_pennant (n k : Nat) (b : Bool) : (t.putPred n k b).pennant = t.pennant := rfl
@[simp] theorem thread_putPred_producer (n k : Nat) (b : Bool) : (t.putPred n k b).producer = t.producer := rfl

/-! `Thread.putIndex` changes `x, xhaz`. -/

@[simp] theorem thread_putIndex_st (n k : Nat) (x : Word) : (t.putIndex n k x).st = t.st := rfl
@[simp] theorem thread_putIndex_pc (n k : Nat) (x : Word) : (t.putIndex n k x).pc = t.pc := rfl
@[simp] theorem thread_putIndex_frag (n k : Nat) (x : Word) : (t.putIndex n k x).frag = t.frag := rfl
@[simp] theorem thread_putIndex_v (n k : Nat) (x : Word) : (t.putIndex n k x).v = t.v := rfl
@[simp] theorem thread_putIndex_p (n k : Nat) (x : Word) : (t.putIndex n k x).p = t.p := rfl
@[simp] theorem thread_putIndex_path (n k : Nat) (x : Word) : (t.putIndex n k x).path = t.path := rfl
@[simp] theorem thread_putIndex_rstk (n k : Nat) (x : Word) : (t.putIndex n k x).rstk = t.rstk := rfl
@[simp] theorem thread_putIndex_rcount (n k : Nat) (x : Word) : (t.putIndex n k x).rcount = t.rcount := rfl
@[simp] theorem thread_putIndex_rentry (n k : Nat) (x : Word) : (t.putIndex n k x).rentry = t.rentry := rfl
@[simp] theorem thread_putIndex_eq (n k : Nat) (x : Word) : (t.putIndex n k x).eq = t.eq := rfl
@[simp] theorem thread_putIndex_loads (n k : Nat) (x : Word) : (t.putIndex n k x).loads = t.loads := rfl
@[simp] theorem thread_putIndex_stores (n k : Nat) (x : Word) : (t.putIndex n k x).stores = t.stores := rfl
@[simp] theorem thread_putIndex_copies (n k : Nat) (x : Word) : (t.putIndex n k x).copies = t.copies := rfl
@[simp] theorem thread_putIndex_tiles (n k : Nat) (x : Word) : (t.putIndex n k x).tiles = t.tiles := rfl
@[simp] theorem thread_putIndex_vtag (n k : Nat) (x : Word) : (t.putIndex n k x).vtag = t.vtag := rfl
@[simp] theorem thread_putIndex_ptag (n k : Nat) (x : Word) : (t.putIndex n k x).ptag = t.ptag := rfl
@[simp] theorem thread_putIndex_fut (n k : Nat) (x : Word) : (t.putIndex n k x).fut = t.fut := rfl
@[simp] theorem thread_putIndex_vhaz (n k : Nat) (x : Word) : (t.putIndex n k x).vhaz = t.vhaz := rfl
@[simp] theorem thread_putIndex_phaz (n k : Nat) (x : Word) : (t.putIndex n k x).phaz = t.phaz := rfl
@[simp] theorem thread_putIndex_trap (n k : Nat) (x : Word) : (t.putIndex n k x).trap = t.trap := rfl
@[simp] theorem thread_putIndex_origin (n k : Nat) (x : Word) : (t.putIndex n k x).origin = t.origin := rfl
@[simp] theorem thread_putIndex_pennant (n k : Nat) (x : Word) : (t.putIndex n k x).pennant = t.pennant := rfl
@[simp] theorem thread_putIndex_producer (n k : Nat) (x : Word) : (t.putIndex n k x).producer = t.producer := rfl

/-! What an update leaves at its own key, and elsewhere. -/

@[simp] theorem goTo_pc (x : DWord) (o : Bool) : (t.goTo x o).pc = x := rfl

@[simp] theorem putReg_v (n r : Nat) (x : Word) : (t.putReg n r x).v = mapPut 0 r x t.v := rfl

@[simp] theorem putPred_p (n k : Nat) (b : Bool) : (t.putPred n k b).p = setBit8 t.p k b := rfl

@[simp] theorem putS_s (k : Nat) (x : Word) : (g.putS k x).s = mapPut 0 k x g.s := rfl

@[simp] theorem putQ_q (k : Nat) (b : Bool) : (g.putQ k b).q = setBit8 g.q k b := rfl

@[simp] theorem putA_a (k : Nat) (x : AddrReg) : (g.putA k x).a = mapPut {} k x g.a := rfl

end Sys2Proof.Machine
end

