-- ==== Sys2Proof/Laws/Memory.lean ====
section
/-! SUPPORT. Memory: what a byte reads as after a write, and that every write keeps the canonical form. -/

namespace Sys2Proof.Machine

theorem memWrite_get (a : Nat) : ∀ (bs : List Byte) (pa : Nat) (m : SMap Byte),
    mapGet 0 (memWrite m pa bs) a = if pa ≤ a ∧ a < pa + bs.length then bs.getD (a - pa) 0 else mapGet 0 m a
  | [], pa, m => by simp [memWrite, show ¬ (pa ≤ a ∧ a < pa) by omega]
  | b :: bs, pa, m => by
    rw [memWrite, memWrite_get a bs (pa + 1), mapGet_put]
    by_cases h : pa + 1 ≤ a ∧ a < pa + 1 + bs.length
    · have h1 : a - pa = a - (pa + 1) + 1 := by omega
      have h2 : pa ≤ a ∧ a < pa + (b :: bs).length := by simp only [List.length_cons]; omega
      rw [if_pos h, if_pos h2, h1, List.getD_cons_succ]
    · rw [if_neg h]
      by_cases e : a = pa
      · subst e; simp
      · have h2 : ¬ (pa ≤ a ∧ a < pa + (b :: bs).length) := by simp only [List.length_cons]; omega
        rw [if_neg e, if_neg h2]

/-- Reading one byte after a write: the written byte inside the range, and what was there before outside it. -/
theorem byte_write (s : State) (pa : Nat) (bs : List Byte) (a : Nat) :
    (s.write pa bs).byte a = if pa ≤ a ∧ a < pa + bs.length then bs.getD (a - pa) 0 else s.byte a :=
  memWrite_get a bs pa s.mem

theorem byte_write_outside (s : State) (pa : Nat) (bs : List Byte) (a : Nat) (h : a < pa ∨ pa + bs.length ≤ a) :
    (s.write pa bs).byte a = s.byte a := by
  rw [byte_write, if_neg (by omega)]

theorem memWrite_ok : ∀ (bs : List Byte) (pa : Nat) {m : SMap Byte}, Memory.wf m = true →
    Memory.wf (memWrite m pa bs) = true
  | [], _, _, h => h
  | _ :: bs, pa, _, h => memWrite_ok bs (pa + 1) (mapOk_put h)

/-- A write keeps memory canonical. -/
theorem memOk_write {s : State} (h : s.memOk) (pa : Nat) (bs : List Byte) : (s.write pa bs).memOk := memWrite_ok bs pa h

theorem memOk_writeNum {s : State} (h : s.memOk) (pa n x : Nat) : (s.writeNum pa n x).memOk := memOk_write h pa _

/-- What does not touch memory keeps it canonical. -/
theorem memOk_of_mem {s t : State} (e : t.mem = s.mem) (h : s.memOk) : t.memOk := by unfold State.memOk; rw [e]; exact h

/-- A cold reset's filter of memory keeps the canonical form. -/
theorem memOk_filter {m : SMap Byte} (p : Nat × Byte → Bool) (h : Memory.wf m = true) : Memory.wf (m.filter p) = true :=
  mapOk_filter p h

theorem reset_memOk : State.reset.memOk := rfl

/-- Two canonical memories that read the same are the same. -/
theorem mapOk_ext {α : Type} [DecidableEq α] {d : α} : ∀ {lo : Nat} {m n : SMap α}, mapOk d lo m = true → mapOk d lo n = true →
    (∀ k, mapGet d m k = mapGet d n k) → m = n
  | _, [], [], _, _, _ => rfl
  | lo, [], (k, v) :: n, _, hn, h => by
    simp only [mapOk, Bool.and_eq_true, decide_eq_true_eq] at hn
    have := h k
    simp only [mapGet, mapFind, if_true, Option.getD] at this
    exact absurd this.symm hn.1.2
  | lo, (k, v) :: m, [], hm, _, h => by
    simp only [mapOk, Bool.and_eq_true, decide_eq_true_eq] at hm
    have := h k
    simp only [mapGet, mapFind, if_true, Option.getD] at this
    exact absurd this hm.1.2
  | lo, (k, v) :: m, (j, w) :: n, hm, hn, h => by
    have low : ∀ {q : Nat} {x : SMap α} {i : Nat}, mapOk d q x = true → i < q → mapGet d x i = d := by
      intro q x
      induction x generalizing q with
      | nil => intros; rfl
      | cons e x ih =>
        obtain ⟨a, y⟩ := e
        intro i hx hi
        simp only [mapOk, Bool.and_eq_true, decide_eq_true_eq] at hx
        unfold mapGet mapFind
        rw [if_neg (by omega)]
        exact ih hx.2 (by omega)
    simp only [mapOk, Bool.and_eq_true, decide_eq_true_eq] at hm hn
    have hk := h k
    have hj := h j
    have e : k = j := by
      rcases Nat.lt_trichotomy k j with c | c | c
      · have : mapGet d ((j, w) :: n) k = d := by
          unfold mapGet mapFind; rw [if_neg (by omega)]; exact low hn.2 (by omega)
        rw [this] at hk
        simp only [mapGet, mapFind, if_true, Option.getD] at hk
        exact absurd hk hm.1.2
      · exact c
      · have : mapGet d ((k, v) :: m) j = d := by
          unfold mapGet mapFind; rw [if_neg (by omega)]; exact low hm.2 (by omega)
        rw [this] at hj
        simp only [mapGet, mapFind, if_true, Option.getD] at hj
        exact absurd hj.symm hn.1.2
    subst e
    have ev : v = w := by simpa [mapGet, mapFind] using hk
    subst ev
    rw [mapOk_ext hm.2 hn.2 fun i => ?_]
    by_cases c : i = k
    · subst c; rw [low hm.2 (by omega), low hn.2 (by omega)]
    · have := h i
      simpa [mapGet, mapFind, c] using this

end Sys2Proof.Machine
end

