-- ==== Sys2Proof/Tests/Slice0.lean ====
section
/-! SUPPORT. The model's own tests: words of the manual's encodings decode to the instructions they stand for, ill-formed
instructions are refused, and a witness of the hypotheses of each statement. -/

namespace Sys2Proof.Tests

open Sys2Proof.Machine

/-- A register form without scheduling fields. -/
def rf (d a b c : BitVec 10) (pred : BitVec 4) (ty : BitVec 5) (mx : Bool) : RForm := ⟨d, a, b, c, pred, ty, mx, 0, 0, false⟩

def reads (x : Except DecodeError Instr) (i : Instr) : Bool :=
  match x with
  | .ok j => decide (j = i)
  | .error _ => false

/-- Two Sazil-D words and a Sazil-L word decode to the instruction. -/
def readsBoth (xs : List (Word × Word × DWord × Instr)) : Bool :=
  xs.all fun (w0, w1, l, i) => reads (decodeD w0 w1) i && reads (decodeL l) i

def readsCompact (xs : List (Word × Instr)) : Bool := xs.all fun (w, i) => reads (decodeD w 0) i
/-- Class IALU. -/
theorem test_decode_ialu : readsBoth [
  (0x60030102, 0x00007024, 0x41000180201000E4, .iadd (rf 3 1 2 0 7 4 true)),
  (0x60030102, 0x01007006, 0x40020180201000E6, .isub (rf 3 1 2 0 7 6 false)),
  (0x60040608, 0x02007023, 0x41040200C04000E3, .imul (rf 4 6 8 0 7 3 true)),
  (0x60090102, 0x03007001, 0x40060480201000E1, .imulh (rf 9 1 2 0 7 1 false)),
  (0x60090102, 0x04057020, 0x4108048020100AE0, .imad (rf 9 1 2 5 7 0 true)),
  (0x60090102, 0x05007007, 0x400A0480201000E7, .imin (rf 9 1 2 0 7 7 false)),
  (0x60090102, 0x06007005, 0x400C0480201000E5, .imax (rf 9 1 2 0 7 5 false)),
  (0x60090100, 0x07007004, 0x400E0480200000E4, .iabs (rf 9 1 0 0 7 4 false)),
  (0x60090100, 0x08007020, 0x41100480200000E0, .ineg (rf 9 1 0 0 7 0 true)),
  (0x60020405, 0x09027000, 0x40120100802804E0, .icmp (rf 2 4 5 2 7 0 false)),
  (0x60060708, 0x0A037000, 0x40140300E04006E0, .sel (rf 6 7 8 3 7 0 false))] = true := by decide

/-- Class BITS. -/
theorem test_decode_bits : readsBoth [
  (0x61030102, 0x00002000, 0x4200018020100040, .and (rf 3 1 2 0 2 0 false)),
  (0x61040102, 0x01002000, 0x4202020020100040, .or (rf 4 1 2 0 2 0 false)),
  (0x61050102, 0x02002000, 0x4204028020100040, .xor (rf 5 1 2 0 2 0 false)),
  (0x61060102, 0x03002000, 0x4206030020100040, .andn (rf 6 1 2 0 2 0 false)),
  (0x61030100, 0x04007000, 0x42080180200000E0, .not (rf 3 1 0 0 7 0 false)),
  (0x61030102, 0x05007000, 0x420A0180201000E0, .shl (rf 3 1 2 0 7 0 false)),
  (0x61040102, 0x06007001, 0x420C0200201000E1, .shr (rf 4 1 2 0 7 1 false)),
  (0x61050102, 0x07007004, 0x420E0280201000E4, .sar (rf 5 1 2 0 7 4 false)),
  (0x61060102, 0x08007007, 0x42100300201000E7, .rot (rf 6 1 2 0 7 7 false)),
  (0x61040200, 0x09007003, 0x42120200400000E3, .popc (rf 4 2 0 0 7 3 false)),
  (0x61040200, 0x0A007000, 0x42140200400000E0, .clz (rf 4 2 0 0 7 0 false)),
  (0x61040200, 0x0B007005, 0x42160200400000E5, .brev (rf 4 2 0 0 7 5 false)),
  (0x61090100, 0x0C027020, 0x43180480200004E0, .bfx (rf 9 1 0 2 7 0 true)),
  (0x61090103, 0x0D027001, 0x421A0480201804E1, .bfi (rf 9 1 3 2 7 1 false))] = true := by decide

/-- Class FALU. -/
theorem test_decode_falu : readsBoth [
  (0x62080102, 0x00017008, 0x44000400201002E8, .fadd (rf 8 1 2 1 7 8 false)),
  (0x62080102, 0x0105700B, 0x4402040020100AEB, .fsub (rf 8 1 2 5 7 11 false)),
  (0x62080102, 0x02037009, 0x44040400201006E9, .fmul (rf 8 1 2 3 7 9 false)),
  (0x62080102, 0x03087028, 0x45060400201010E8, .ffma (rf 8 1 2 8 7 8 true)),
  (0x62080102, 0x0400700C, 0x44080400201000EC, .fmin (rf 8 1 2 0 7 12 false)),
  (0x62080102, 0x0500700A, 0x440A0400201000EA, .fmax (rf 8 1 2 0 7 10 false)),
  (0x62050102, 0x06077008, 0x440C028020100EE8, .fcmp (rf 5 1 2 7 7 8 false)),
  (0x62050100, 0x0781700C, 0x440E0280200102EC, .fclass (rf 5 1 0 129 7 12 false))] = true := by decide

/-- Class FSPEC. -/
theorem test_decode_fspec : readsBoth [
  (0x63030400, 0x00007008, 0x46000180800000E8, .frcp (rf 3 4 0 0 7 8 false)),
  (0x63030400, 0x01007008, 0x46020180800000E8, .frsq (rf 3 4 0 0 7 8 false)),
  (0x63030400, 0x0200700B, 0x46040180800000EB, .fsqrt (rf 3 4 0 0 7 11 false)),
  (0x63030400, 0x0300700C, 0x46060180800000EC, .fexp2 (rf 3 4 0 0 7 12 false)),
  (0x63030400, 0x04007008, 0x46080180800000E8, .flog2 (rf 3 4 0 0 7 8 false)),
  (0x63030400, 0x0500700B, 0x460A0180800000EB, .fsin (rf 3 4 0 0 7 11 false)),
  (0x63030400, 0x0600700C, 0x460C0180800000EC, .fcos (rf 3 4 0 0 7 12 false)),
  (0x63030405, 0x07031008, 0x460E018080280628, .fdiv (rf 3 4 5 3 1 8 false))] = true := by decide

/-- Class DOT. -/
theorem test_decode_dot : readsBoth [
  (0x64040102, 0x00067027, 0x4900020020100CE7, .dot4 (rf 4 1 2 6 7 7 true)),
  (0x64040102, 0x01067010, 0x4802020020100CF0, .dot8 (rf 4 1 2 6 7 16 false)),
  (0x64040102, 0x0206700A, 0x4804020020100CEA, .dot2 (rf 4 1 2 6 7 10 false)),
  (0x64050406, 0x03007000, 0x48060280803000E0, .fscl (rf 5 4 6 0 7 0 false))] = true := by decide

/-- Class CVT. -/
theorem test_decode_cvt : readsBoth [
  (0x65050400, 0x0040700C, 0x4A000280800080EC, .cvt (rf 5 4 0 64 7 12 false)),
  (0x65080000, 0x0140702D, 0x4B020400000080ED, .cvtp (rf 8 0 0 64 7 13 true)),
  (0x6508000C, 0x0240700D, 0x4A040400006080ED, .cvtx (rf 8 0 12 64 7 13 false))] = true := by decide

/-- Class LANE. -/
theorem test_decode_lane : readsBoth [
  (0x66010000, 0x007FFFE0, 0x4C0000B8FFFFFFFE, .movi ⟨1, 0, 7, 65534, 0⟩),
  (0x66010000, 0x0173FC00, 0x4C0200B800003FC0, .movh ⟨1, 0, 7, 16320, 0⟩),
  (0x66050403, 0x02007000, 0x4C040280801800E0, .bcast (rf 5 4 3 0 7 0 false)),
  (0x66050409, 0x03027000, 0x4C060280804804E0, .shfl (rf 5 4 9 2 7 0 false)),
  (0x66020100, 0x04017000, 0x4C080100200002E0, .vote (rf 2 1 0 1 7 0 false)),
  (0x66080100, 0x05007000, 0x4C0A0400200000E0, .ballot (rf 8 1 0 0 7 0 false)),
  (0x66030200, 0x06007008, 0x4C0C0180400000E8, .redux (rf 3 2 0 0 7 8 false)),
  (0x66040200, 0x07007028, 0x4D0E0200400000E8, .scan (rf 4 2 0 0 7 8 true))] = true := by decide

/-- Class INDEX. -/
theorem test_decode_index : readsBoth [
  (0x67010300, 0x00007000, 0x4E000080600000E0, .xset (rf 1 3 0 0 7 0 false)),
  (0x67010000, 0x017FFFF0, 0x4E0200B8FFFFFFFF, .xadd ⟨1, 0, 7, 65535, 0⟩),
  (0x670C0100, 0x02700020, 0x4E04063800400002, .movx ⟨12, 1, 7, 2, 0⟩),
  (0x67010900, 0x03700000, 0x4E0600B802400000, .stx ⟨1, 9, 7, 0, 0⟩)] = true := by decide

/-- Class PRED. -/
theorem test_decode_pred : readsBoth [
  (0x68030102, 0x00087000, 0x50000180201010E0, .plop (rf 3 1 2 8 7 0 false)),
  (0x68040000, 0x01007000, 0x50020200000000E0, .pmov (rf 4 0 0 0 7 0 false))] = true := by decide

/-- Class MEM. -/
theorem test_decode_mem : readsBoth [
  (0x69082C04, 0x00730000, 0x52000416008EC000, .ld ⟨8, 2, 3, 0, 4, 7, 3, 0⟩),
  (0x690352FF, 0x01720040, 0x520201A97FEE8040, .st ⟨3, 5, 0, 2, 1023, 7, 2, 64⟩),
  (0x690021FF, 0x02760100, 0x52040010FFEF8100, .pref ⟨0, 2, 0, 1, 1023, 7, 6, 256⟩),
  (0x69283106, 0x03740000, 0x5206141880CF0000, .rowld ⟨40, 3, 0, 1, 6, 7, 4, 0⟩)] = true := by decide

/-- Class SPAD. -/
theorem test_decode_spad : readsBoth [
  (0x6A043802, 0x00720008, 0x5400021C004E8008, .lds ⟨4, 3, 2, 0, 2, 7, 2, 8⟩),
  (0x6A0630FF, 0x01730000, 0x540203187FEEC000, .sts ⟨6, 3, 0, 0, 1023, 7, 3, 0⟩),
  (0x6A053802, 0x02007028, 0x55040287001000E8, .atoms (rf 5 56 2 0 7 8 true)),
  (0x6A0230FF, 0x03760040, 0x540601187FEF8040, .present ⟨2, 3, 0, 0, 1023, 7, 6, 64⟩)] = true := by decide

/-- Class ATOM. -/
theorem test_decode_atom : readsBoth [
  (0x6B062C04, 0x00047002, 0x56000305802008E2, .atom (rf 6 44 4 4 7 2 false)),
  (0x6B052804, 0x01097001, 0x56020285002012E1, .cas (rf 5 40 4 9 7 1 false)),
  (0x6B072804, 0x0200700A, 0x56040385002000EA, .padd2 (rf 7 40 4 0 7 10 false)),
  (0x6B203006, 0x0304700C, 0x56061006003008EC, .rowadd (rf 32 48 6 4 7 12 false))] = true := by decide

/-- Class QUEUE. -/
theorem test_decode_queue : readsBoth [
  (0x6C000500, 0x007012C0, 0x580000380140012C, .enq ⟨0, 5, 7, 300, 0⟩),
  (0x6C060000, 0x017012C2, 0x5802033A0000012C, .deq ⟨6, 0, 7, 300, 2⟩),
  (0x6C060000, 0x027012C2, 0x5804033A0000012C, .qtry ⟨6, 0, 7, 300, 2⟩),
  (0x6C080000, 0x037012C0, 0x580604380000012C, .qlen ⟨8, 0, 7, 300, 0⟩),
  (0x6C000000, 0x0471FFF0, 0x5808003800001FFF, .qopen ⟨0, 0, 7, 8191, 0⟩),
  (0x6C000000, 0x05700400, 0x580A003800000040, .qdone ⟨0, 0, 7, 64, 0⟩)] = true := by decide

/-- Class FLOW. -/
theorem test_decode_flow : readsBoth [
  (0x6D000000, 0x00200060, 0x5A00001000000006, .brx ⟨0, 0, 2, 6, 0⟩),
  (0x6D000600, 0x01007000, 0x5A020000C00000E0, .callq (rf 0 6 0 0 7 0 false)),
  (0x6D000000, 0x02007000, 0x5A040000000000E0, .ret (rf 0 0 0 0 7 0 false)),
  (0x6D020000, 0x03007000, 0x5A060100000000E0, .join (rf 2 0 0 0 7 0 false)),
  (0x6D020000, 0x04007000, 0x5A080100000000E0, .waitj (rf 2 0 0 0 7 0 false)),
  (0x6D000000, 0x05009000, 0x5A0A000000000120, .exit (rf 0 0 0 0 9 0 false)),
  (0x6D000000, 0x06001000, 0x5A0C000000000020, .reform (rf 0 0 0 0 1 0 false)),
  (0x6D000520, 0x07007000, 0x5A0E0000A10000E0, .reorder (rf 0 5 32 0 7 0 false)),
  (0x6D000600, 0x08007000, 0x5A100000C00000E0, .spawn (rf 0 6 0 0 7 0 false)),
  (0x6D000000, 0x09017000, 0x5A120000000002E0, .migrate (rf 0 0 0 1 7 0 false)),
  (0x6D000000, 0x0A700030, 0x5A14003800000003, .eqpt ⟨0, 0, 7, 3, 0⟩),
  (0x6D000000, 0x0B007000, 0x5A160000000000E0, .region (rf 0 0 0 0 7 0 false)),
  (0x6D000400, 0x0C007020, 0x5B180000800000E0, .meld (rf 0 4 0 0 7 0 true)),
  (0x6D000000, 0x0D007000, 0x5A1A0000000000E0, .endmeld (rf 0 0 0 0 7 0 false)),
  (0x6D000400, 0x0E017000, 0x5A1C0000800002E0, .mtbl (rf 0 4 0 1 7 0 false))] = true := by decide

/-- Class TILE. -/
theorem test_decode_tile : readsBoth [
  (0x6E042002, 0x0000700C, 0x5C000204001000EC, .mma (rf 4 32 2 0 7 12 false)),
  (0x6E054003, 0x0100700D, 0x5C020288001800ED, .mmaq (rf 5 64 3 0 7 13 false)),
  (0x6E042002, 0x0214700D, 0x5C040204001028ED, .mmao (rf 4 32 2 20 7 13 false)),
  (0x6E062002, 0x0360700F, 0x5C0603040010C0EF, .mmas (rf 6 32 2 96 7 15 false)),
  (0x6E080305, 0x04067000, 0x5C08040060280CE0, .tslr (rf 8 3 5 6 7 0 false)),
  (0x6E080305, 0x05067000, 0x5C0A040060280CE0, .tslw (rf 8 3 5 6 7 0 false)),
  (0x6E021000, 0x06017000, 0x5C0C0102000002E0, .bshare (rf 2 16 0 1 7 0 false))] = true := by decide

/-- Class ENGINE. -/
theorem test_decode_engine : readsBoth [
  (0x6F0A1302, 0x00207000, 0x5E000502601040E0, .cpy (rf 10 19 2 32 7 0 false)),
  (0x6F0A13FF, 0x01207000, 0x5E0205027FF840E0, .cpym (rf 10 19 1023 32 7 0 false)),
  (0x6F0A13FF, 0x02207000, 0x5E0405027FF840E0, .cpyp (rf 10 19 1023 32 7 0 false)),
  (0x6F000609, 0x03117000, 0x5E060000C04822E0, .inspect (rf 0 6 9 17 7 0 false)),
  (0x6F0A0600, 0x040B7000, 0x5E080500C00016E0, .inspectf (rf 10 6 0 11 7 0 false)),
  (0x6F030A00, 0x05007000, 0x5E0A0181400000E0, .ftest (rf 3 10 0 0 7 0 false)),
  (0x6F000A00, 0x06007000, 0x5E0C0001400000E0, .fwait (rf 0 10 0 0 7 0 false)),
  (0x6F000A00, 0x07007000, 0x5E0E0001400000E0, .fcancel (rf 0 10 0 0 7 0 false)),
  (0x6F0C0A00, 0x08007000, 0x5E100601400000E0, .fpass (rf 12 10 0 0 7 0 false))] = true := by decide

/-- Class SYS. -/
theorem test_decode_sys : readsBoth [
  (0x70000000, 0x00007000, 0x60000000000000E0, .nop (rf 0 0 0 0 7 0 false)),
  (0x70000000, 0x0170FFF0, 0x6002003800000FFF, .wait ⟨0, 0, 7, 4095, 0⟩),
  (0x70000000, 0x02007000, 0x60040000000000E0, .yield (rf 0 0 0 0 7 0 false)),
  (0x70000000, 0x03200070, 0x6006001000000007, .trap ⟨0, 0, 2, 7, 0⟩),
  (0x70000000, 0x04700010, 0x6008003800000001, .bkpt ⟨0, 0, 7, 1, 0⟩),
  (0x70000000, 0x05007000, 0x600A0000000000E0, .rte (rf 0 0 0 0 7 0 false)),
  (0x70010000, 0x06007000, 0x600C0080000000E0, .pen (rf 1 0 0 0 7 0 false))] = true := by decide

/-- Class UALU. -/
theorem test_decode_ualu : readsBoth [
  (0xE0040608, 0x00007022, 0xC1000200C04000E2, .uadd (rf 4 6 8 0 7 2 true)),
  (0xE0040608, 0x01007003, 0xC0020200C04000E3, .usub (rf 4 6 8 0 7 3 false)),
  (0xE0050608, 0x02007000, 0xC0040280C04000E0, .umul (rf 5 6 8 0 7 0 false)),
  (0xE0050608, 0x03007001, 0xC0060280C04000E1, .umulh (rf 5 6 8 0 7 1 false)),
  (0xE0050608, 0x04097000, 0xC0080280C04012E0, .umad (rf 5 6 8 9 7 0 false)),
  (0xE0050608, 0x05007001, 0xC00A0280C04000E1, .umin (rf 5 6 8 0 7 1 false)),
  (0xE0090102, 0x06007001, 0xC00C0480201000E1, .umax (rf 9 1 2 0 7 1 false)),
  (0xE0020506, 0x07027001, 0xC00E0100A03004E1, .ucmp (rf 2 5 6 2 7 1 false)),
  (0xE0060708, 0x08032000, 0xC0100300E0400640, .usel (rf 6 7 8 3 2 0 false))] = true := by decide

/-- Class UBITS. -/
theorem test_decode_ubits : readsBoth [
  (0xE1050608, 0x00007000, 0xC2000280C04000E0, .uand (rf 5 6 8 0 7 0 false)),
  (0xE1060608, 0x01007000, 0xC2020300C04000E0, .uor (rf 6 6 8 0 7 0 false)),
  (0xE1070608, 0x02007000, 0xC2040380C04000E0, .uxor (rf 7 6 8 0 7 0 false)),
  (0xE1050600, 0x03009000, 0xC2060280C0000120, .unot (rf 5 6 0 0 9 0 false)),
  (0xE1040607, 0x04007001, 0xC2080200C03800E1, .ushl (rf 4 6 7 0 7 1 false)),
  (0xE1040607, 0x05007003, 0xC20A0200C03800E3, .ushr (rf 4 6 7 0 7 3 false)),
  (0xE1040607, 0x06007002, 0xC20C0200C03800E2, .usar (rf 4 6 7 0 7 2 false)),
  (0xE1050600, 0x07007003, 0xC20E0280C00000E3, .upopc (rf 5 6 0 0 7 3 false)),
  (0xE1050700, 0x08007000, 0xC2100280E00000E0, .uclz (rf 5 7 0 0 7 0 false))] = true := by decide

/-- Class UMOVE. -/
theorem test_decode_umove : readsBoth [
  (0xE2050000, 0x00700640, 0xC40002B800000064, .umovi ⟨5, 0, 7, 100, 0⟩),
  (0xE2050000, 0x017BF800, 0xC40202B80000BF80, .umovh ⟨5, 0, 7, 49024, 0⟩),
  (0xE2090000, 0x02700180, 0xC40404B800000018, .ursr ⟨9, 0, 7, 24, 0⟩),
  (0xE2000400, 0x03700400, 0xC406003801000040, .uwsr ⟨0, 4, 7, 64, 0⟩),
  (0xE2030102, 0x04087000, 0xC4080180201010E0, .uplop (rf 3 1 2 8 7 0 false)),
  (0xE20A0C03, 0x05007000, 0xC40A0501801800E0, .uread (rf 10 12 3 0 7 0 false))] = true := by decide

/-- Class ADDR. -/
theorem test_decode_addr : readsBoth [
  (0xE3020400, 0x00017000, 0xC6000100800002E0, .aset (rf 2 4 0 1 7 0 false)),
  (0xE3060200, 0x01027000, 0xC6020300400004E0, .aget (rf 6 2 0 2 7 0 false)),
  (0xE3020A00, 0x02007000, 0xC6040101400000E0, .adv (rf 2 10 0 0 7 0 false)),
  (0xE3020C00, 0x03047000, 0xC6060101800008E0, .anarrow (rf 2 12 0 4 7 0 false)),
  (0xE30510FF, 0x04750020, 0xC60802887FEF4020, .ald ⟨5, 1, 0, 0, 1023, 7, 5, 32⟩)] = true := by decide

/-- Class UMEM. -/
theorem test_decode_umem : readsBoth [
  (0xE40A6907, 0x00720008, 0xC800053480EE8008, .ldu ⟨10, 6, 2, 1, 7, 7, 2, 8⟩),
  (0xE41460FF, 0x01730010, 0xC8020A307FEEC010, .stu ⟨20, 6, 0, 0, 1023, 7, 3, 16⟩),
  (0xE400030C, 0x02007000, 0xC8040000606000E0, .icinv (rf 0 3 12 0 7 0 false)),
  (0xE4000000, 0x03007000, 0xC8060000000000E0, .fbar (rf 0 0 0 0 7 0 false)),
  (0xE400030C, 0x04007000, 0xC8080000606000E0, .pin (rf 0 3 12 0 7 0 false)),
  (0xE400030C, 0x05007000, 0xC80A0000606000E0, .unpin (rf 0 3 12 0 7 0 false))] = true := by decide

/-- Class OBJ. -/
theorem test_decode_obj : readsBoth [
  (0xE52800FF, 0x00760000, 0xCA0014007FEF8000, .odecl ⟨40, 0, 0, 0, 1023, 7, 6, 0⟩),
  (0xE5002800, 0x01007000, 0xCA020005000000E0, .ofree (rf 0 40 0 0 7 0 false)),
  (0xE5002800, 0x02007000, 0xCA040005000000E0, .seal (rf 0 40 0 0 7 0 false)),
  (0xE5002800, 0x03007000, 0xCA060005000000E0, .unseal (rf 0 40 0 0 7 0 false)),
  (0xE5302800, 0x04007000, 0xCA081805000000E0, .oquery (rf 48 40 0 0 7 0 false))] = true := by decide

/-- Class UFLOW. -/
theorem test_decode_uflow : readsBoth [
  (0xE6010000, 0x00FFFFF6, 0xCC0000B8FFFFFFF6, .bra ⟨1, -10⟩),
  (0xE6000400, 0x01002000, 0xCC02000080000040, .jmpi (rf 0 4 0 0 2 0 false)),
  (0xE6000000, 0x02000040, 0xCC04003800000040, .call ⟨0, 64⟩),
  (0xE6000400, 0x03007000, 0xCC060000800000E0, .uspawn (rf 0 4 0 0 7 0 false)),
  (0xE6000000, 0x04007000, 0xCC080000000000E0, .gridwait (rf 0 0 0 0 7 0 false))] = true := by decide

/-- Class UTILE. -/
theorem test_decode_utile : readsBoth [
  (0xE70450FF, 0x00720100, 0xCE0002287FEE8100, .tld ⟨4, 5, 0, 0, 1023, 7, 2, 256⟩),
  (0xE70961FF, 0x01710000, 0xCE0204B0FFEE4000, .tst ⟨9, 6, 0, 1, 1023, 7, 1, 0⟩),
  (0xE7040000, 0x02007000, 0xCE040200000000E0, .tzero (rf 4 0 0 0 7 0 false)),
  (0xE7050400, 0x03007000, 0xCE060280800000E0, .tmov (rf 5 4 0 0 7 0 false)),
  (0xE7050400, 0x0400700C, 0xCE080280800000EC, .tcvt (rf 5 4 0 0 7 12 false)),
  (0xE70A0B00, 0x05007000, 0xCE0A0501600000E0, .talloc (rf 10 11 0 0 7 0 false)),
  (0xE7000A0B, 0x06007000, 0xCE0C0001405800E0, .tfree (rf 0 10 11 0 7 0 false)),
  (0xE70C0000, 0x07007000, 0xCE0E0600000000E0, .tstat (rf 12 0 0 0 7 0 false))] = true := by decide

/-- Class BAR. -/
theorem test_decode_bar : readsBoth [
  (0xE80440FF, 0x00750020, 0xD00002207FEF4020, .boinit ⟨4, 4, 0, 0, 1023, 7, 5, 32⟩),
  (0xE80340FF, 0x01750000, 0xD00201A07FEF4000, .boarrive ⟨3, 4, 0, 0, 1023, 7, 5, 0⟩),
  (0xE80340FF, 0x0275FFE0, 0xD1E401A07FEF7FE0, .boexpect ⟨3, 4, 0, 0, 1023, 7, 5, -32⟩),
  (0xE80340FF, 0x03750000, 0xD00601A07FEF4000, .bowait ⟨3, 4, 0, 0, 1023, 7, 5, 0⟩),
  (0xE80840FF, 0x04750000, 0xD00804207FEF4000, .botest ⟨8, 4, 0, 0, 1023, 7, 5, 0⟩)] = true := by decide

/-- Class UENG. -/
theorem test_decode_ueng : readsBoth [
  (0xE9140400, 0x00017000, 0xD2000A00800002E0, .srstat (rf 20 4 0 1 7 0 false)),
  (0xE9140400, 0x01007000, 0xD2020A00800000E0, .istat (rf 20 4 0 0 7 0 false)),
  (0xE9140000, 0x02007000, 0xD2040A00000000E0, .ccount (rf 20 0 0 0 7 0 false))] = true := by decide

/-- Class PRIV. -/
theorem test_decode_priv : readsBoth [
  (0xEA00030C, 0x00007000, 0xD4000000606000E0, .tlbinv (rf 0 3 12 0 7 0 false)),
  (0xEA0A10FF, 0x01760000, 0xD40205087FEF8000, .csave ⟨10, 1, 0, 0, 1023, 7, 6, 0⟩),
  (0xEA0A10FF, 0x02760000, 0xD40405087FEF8000, .cload ⟨10, 1, 0, 0, 1023, 7, 6, 0⟩),
  (0xEA000400, 0x03007000, 0xD4060000800000E0, .halt (rf 0 4 0 0 7 0 false)),
  (0xEA280000, 0x04007000, 0xD4081400000000E0, .errlog (rf 40 0 0 0 7 0 false))] = true := by decide

/-- R34, the lane set. -/
theorem test_decode_compact : readsCompact [
  (0x000C0307, .iaddCompact ⟨12, 3, 7⟩),
  (0x010C0307, .isubCompact ⟨12, 3, 7⟩),
  (0x020C0307, .imulCompact ⟨12, 3, 7⟩),
  (0x030C0307, .andCompact ⟨12, 3, 7⟩),
  (0x040C0307, .orCompact ⟨12, 3, 7⟩),
  (0x050C0307, .xorCompact ⟨12, 3, 7⟩),
  (0x060C0307, .shlCompact ⟨12, 3, 7⟩),
  (0x070C0307, .shrCompact ⟨12, 3, 7⟩),
  (0x080C0307, .sarCompact ⟨12, 3, 7⟩),
  (0x090C0307, .iminCompact ⟨12, 3, 7⟩),
  (0x0A0C0307, .imaxCompact ⟨12, 3, 7⟩),
  (0x0B0C0307, .faddCompact ⟨12, 3, 7⟩),
  (0x0C0C0307, .fsubCompact ⟨12, 3, 7⟩),
  (0x0D0C0307, .fmulCompact ⟨12, 3, 7⟩),
  (0x0E0C0307, .fminCompact ⟨12, 3, 7⟩),
  (0x0F0C0307, .fmaxCompact ⟨12, 3, 7⟩),
  (0x100C0300, .movCompact ⟨12, 3, 0⟩),
  (0x110C0307, .ffmaCompact ⟨12, 3, 7⟩),
  (0x120C0307, .imadCompact ⟨12, 3, 7⟩),
  (0x130C0307, .dot4Compact ⟨12, 3, 7⟩),
  (0x140C0307, .dot8Compact ⟨12, 3, 7⟩),
  (0x150C0307, .dot2Compact ⟨12, 3, 7⟩)] = true := by decide

/-- R34, the uniform set. -/
theorem test_decode_compact_uniform : readsCompact [
  (0x80030304, .uaddCompact ⟨3, 3, 4⟩),
  (0x81030304, .usubCompact ⟨3, 3, 4⟩),
  (0x82030304, .umulCompact ⟨3, 3, 4⟩),
  (0x83030304, .uandCompact ⟨3, 3, 4⟩),
  (0x84030304, .uorCompact ⟨3, 3, 4⟩),
  (0x85030304, .uxorCompact ⟨3, 3, 4⟩),
  (0x86030304, .ushlCompact ⟨3, 3, 4⟩),
  (0x87030304, .ushrCompact ⟨3, 3, 4⟩),
  (0x88030304, .usarCompact ⟨3, 3, 4⟩),
  (0x89030304, .uminCompact ⟨3, 3, 4⟩),
  (0x8A030304, .umaxCompact ⟨3, 3, 4⟩),
  (0x90030300, .umovCompact ⟨3, 3, 0⟩),
  (0x92030304, .umadCompact ⟨3, 3, 4⟩)] = true := by decide

/-! ## Well-formedness: for each check an instruction it refuses, beside one it accepts -/

/-- The first instruction of each pair is well formed in the encoding, the second is not. -/
def refuses (e : Enc) (xs : List (Instr × Instr)) : Bool := xs.all fun (good, bad) => good.wf e && !bad.wf e

theorem test_wf_registers : refuses .d [
  -- a vector code above v255 (R40)
  (.and (rf 255 1 2 0 7 0 false), .and (rf 256 1 2 0 7 0 false)),
  -- an odd register of a 64-bit pair, and of a fixed pair
  (.iadd (rf 4 2 6 0 7 2 false), .iadd (rf 4 3 6 0 7 2 false)),
  (.spawn (rf 0 6 0 0 7 0 false), .spawn (rf 0 7 0 0 7 0 false)),
  -- a misaligned run of an access
  (.ld ⟨16, 2, 0, 0, noIndex, 7, 6, 0⟩, .ld ⟨16, 2, 0, 0, noIndex, 7, 7, 0⟩),
  (.ld ⟨16, 2, 0, 0, noIndex, 7, 5, 0⟩, .ld ⟨12, 2, 0, 0, noIndex, 7, 5, 0⟩),
  -- a uniform code above s255, an odd uniform pair, a misaligned uniform run, a run of eight
  (.uand (rf 255 1 2 0 7 0 false), .uand (rf 256 1 2 0 7 0 false)),
  (.uadd (rf 4 2 6 0 7 2 false), .uadd (rf 5 2 6 0 7 2 false)),
  (.ccount (rf 20 0 0 0 7 0 false), .ccount (rf 21 0 0 0 7 0 false)),
  (.ldu ⟨4, 2, 0, 0, noIndex, 7, 4, 0⟩, .ldu ⟨6, 2, 0, 0, noIndex, 7, 4, 0⟩),
  (.errlog (rf 40 0 0 0 7 0 false), .errlog (rf 44 0 0 0 7 0 false)),
  -- an address register above a15, an index register above x7, predicates above p7 and q7, a mask above j15
  (.adv (rf 15 10 0 0 7 0 false), .adv (rf 16 10 0 0 7 0 false)),
  (.xset (rf 7 3 0 0 7 0 false), .xset (rf 8 3 0 0 7 0 false)),
  (.plop (rf 7 1 2 8 7 0 false), .plop (rf 8 1 2 8 7 0 false)),
  (.uplop (rf 3 7 2 8 7 0 false), .uplop (rf 3 8 2 8 7 0 false)),
  (.join (rf 15 0 0 0 7 0 false), .join (rf 16 0 0 0 7 0 false)),
  -- a tile above t255
  (.tzero (rf 255 0 0 0 7 0 false), .tzero (rf 256 0 0 0 7 0 false))] = true := by decide

theorem test_wf_codes : refuses .d [
  -- a code beyond its table (R55)
  (.icmp (rf 2 4 5 5 7 0 false), .icmp (rf 2 4 5 6 7 0 false)),
  -- an order no memory word has, an index operand that is neither a register nor absent (R48)
  (.atoms (rf 5 0x38 2 0 7 0 false), .atoms (rf 5 0x3B 2 0 7 0 false)),
  (.ld ⟨8, 2, 0, 0, 254, 7, 2, 0⟩, .ld ⟨8, 2, 0, 0, 255, 7, 2, 0⟩),
  (.ldu ⟨8, 2, 0, 0, 254, 7, 2, 0⟩, .ldu ⟨8, 2, 0, 0, 255, 7, 2, 0⟩),
  (.tslr (rf 8 3 254 6 7 0 false), .tslr (rf 8 3 255 6 7 0 false)),
  -- an unlisted type, a flag that the mnemonic does not have (R45, R139)
  (.imul (rf 4 6 8 0 7 5 false), .imul (rf 4 6 8 0 7 6 false)),
  (.imulh (rf 4 6 8 0 7 1 false), .imulh (rf 4 6 8 0 7 1 true)),
  -- PRED 0b1111 in the uniform set, anything but 0b0111 where unpredicated (R42)
  (.uand (rf 4 6 8 0 14 0 false), .uand (rf 4 6 8 0 15 0 false)),
  (.region (rf 0 0 0 0 7 0 false), .region (rf 0 0 0 0 6 0 false)),
  -- a SIZE and an order that the form does not accept (R46)
  (.ald ⟨5, 1, 0, 0, noIndex, 7, 5, 0⟩, .ald ⟨5, 1, 0, 0, noIndex, 7, 4, 0⟩),
  (.rowld ⟨40, 3, 0, 1, 6, 7, 4, 0⟩, .rowld ⟨40, 3, 0, 0, 6, 7, 4, 0⟩),
  -- an offset and a long immediate that the Sazil-D field cannot hold
  (.ld ⟨8, 2, 0, 0, noIndex, 7, 2, 32767⟩, .ld ⟨8, 2, 0, 0, noIndex, 7, 2, 32768⟩),
  (.call ⟨0, 8388607⟩, .call ⟨0, 8388608⟩)] = true := by decide

theorem test_wf_rules : refuses .d [
  -- CVT from an odd 64-bit source, to a rounding code without meaning; CVTP of one type to itself; CVTX without F32
  (.cvt (rf 5 4 0 0x10 7 12 false), .cvt (rf 5 5 0 0x10 7 12 false)),
  (.cvt (rf 5 4 0 0x15 7 12 false), .cvt (rf 5 4 0 0x16 7 12 false)),
  (.cvtp (rf 8 0 0 0x40 7 13 false), .cvtp (rf 8 0 0 0x68 7 13 false)),
  (.cvtx (rf 8 0 12 0x40 7 13 false), .cvtx (rf 8 0 12 0x48 7 13 false)),
  -- a conversion's run misaligned (R82)
  (.cvtp (rf 8 4 0 0x40 7 13 false), .cvtp (rf 8 2 0 0x40 7 13 false)),
  -- MELD, MTBL, a matrix source, BSHARE, INSPECT (R124, R123, R177, R184, R264)
  (.meld (rf 0 7 0 0 7 0 false), .meld (rf 0 8 0 0 7 0 false)),
  (.mtbl (rf 0 32 0 0 7 0 false), .mtbl (rf 0 16 0 0 7 0 false)),
  (.mma (rf 4 32 15 0 7 12 false), .mma (rf 4 32 16 0 7 12 false)),
  (.bshare (rf 2 0 0 4 7 0 false), .bshare (rf 2 16 0 4 7 0 false)),
  (.inspect (rf 0 6 9 0x11 7 0 false), .inspect (rf 0 6 9 0x09 7 0 false)),
  (.inspect (rf 0 6 noIndex 0x09 7 0 false), .inspect (rf 0 6 noIndex 0x0F 7 0 false)),
  -- REORDER's live mask (R98), PMOV's unused field (R137)
  (.reorder (rf 0 5 32 0 7 0 false), .reorder (rf 0 5 36 0 7 0 false)),
  (.pmov (rf 4 0 0 0 7 0 false), .pmov (rf 4 1 0 0 7 0 false)),
  -- special registers unlisted or not writable (R162), BRA's condition 0b1111 (R60), ANARROW's field 0 (R168)
  (.ursr ⟨9, 0, 7, 0x18, 0⟩, .ursr ⟨9, 0, 7, 0x02, 0⟩),
  (.uwsr ⟨0, 4, 7, 0x40, 0⟩, .uwsr ⟨0, 4, 7, 0x10, 0⟩),
  (.bra ⟨14, 4⟩, .bra ⟨15, 4⟩),
  (.anarrow (rf 2 12 0 1 7 0 false), .anarrow (rf 2 12 0 0 7 0 false)),
  -- REDUX of F32, an atomic's type, ROWADD's chunk, a queue beyond 8191 (R153, R200, R248, R254)
  (.redux (rf 3 2 0 2 7 8 false), .redux (rf 3 2 0 3 7 8 false)),
  (.atom (rf 6 0x2C 4 1 7 3 false), .atom (rf 6 0x2C 4 1 7 8 false)),
  (.rowadd (rf 32 0x30 6 4 7 12 false), .rowadd (rf 32 0x30 6 1 7 12 false)),
  (.enq ⟨0, 5, 7, 8191, 0⟩, .enq ⟨0, 5, 7, 8192, 0⟩)] = true := by decide

theorem test_wf_unused : refuses .d [
  -- a field the mnemonic does not use holds zero (R55); MOV's compact B; an event has no encoding
  (.not (rf 3 1 0 0 7 0 false), .not (rf 3 1 2 0 7 0 false)),
  (.movi ⟨1, 0, 7, 5, 0⟩, .movi ⟨1, 0, 7, 5, 1⟩),
  (.movCompact ⟨1, 2, 0⟩, .movCompact ⟨1, 2, 3⟩),
  (.nop (rf 0 0 0 0 7 0 false), .coolingShutdown)] = true := by decide

theorem test_wf_sazilL : refuses .l [
  -- no scheduling fields and no compact forms in Sazil-L (R54)
  (.nop (rf 0 0 0 0 7 0 false), .nop { rf 0 0 0 0 7 0 false with stall := 3 }),
  (.and (rf 1023 1 2 0 7 0 false), .movCompact ⟨1, 2, 0⟩)] = true := by decide

/-! ## Witnesses

Each theorem shows a state and operands that meet the hypotheses of a statement, clause by clause. -/

/-- A register form without a type or scheduling fields, executed by every lane. -/
def rg (d a b c : BitVec 10) (ty : BitVec 5 := 0) (mx : Bool := false) : RForm := rf d a b c 7 ty mx

/-- A group of sixteen threads at the start of its program, and the device with its only fragment at issue. -/
abbrev g0 : Group := launchedGroup 0 0
def at_ (g : Group) (f : State → State := id) : State :=
  f { State.reset with groups := [(0, g)], blocks := [(0, launchedBlock 0)], cur := some (0, { frags := [(0, 0)] }) }

def settledB (t : Thread) : Bool :=
  t.vtag.isEmpty && t.ptag.isEmpty && t.fut.isEmpty && t.vhaz.isEmpty && t.phaz.isEmpty && t.xhaz.isEmpty

theorem settled_of {t : Thread} (h : settledB t = true) : t.Settled := by
  simp only [settledB, Bool.and_eq_true, List.isEmpty_iff] at h
  obtain ⟨⟨⟨⟨⟨a, b⟩, c⟩, d⟩, e⟩, f⟩ := h
  exact ⟨a, b, c, d, e, f⟩

def calmB (g : Group) : Bool :=
  !(g.fragLanes 0).isEmpty && g.threads.all settledB

theorem calm_of {s : State} {g : Group} (hc : s.cur = some (0, { frags := [(0, 0)] })) (hg : s.group? 0 = some g)
    (hr : s.residue = 0) (h : calmB g = true) : Calm s 0 0 g := by
  simp only [calmB, Bool.and_eq_true, Bool.not_eq_true', List.isEmpty_eq_false_iff] at h
  refine ⟨⟨0, _, hc, rfl⟩, hg, h.1, fun l _ t ht => settled_of ?_, hr⟩
  exact List.all_eq_true.1 h.2 t (List.mem_of_getElem? ht)

def withinB (g : Group) (t : Thread) (ops : List (Nat × Nat)) : Bool :=
  ops.all fun op => match physRun g t op.1 op.2 with
    | .ok _ => true
    | .error _ => false

theorem within_of {g : Group} {t : Thread} {ops : List (Nat × Nat)} (h : withinB g t ops = true) : Within g t ops := by
  intro op hop
  have := List.all_eq_true.1 h op hop
  split at this
  · exact ⟨_, by assumption⟩
  · contradiction

/-- What holds of every executing lane. -/
theorem each_lane {g : Group} {unpred : Bool} {pred : BitVec 4} (p : Nat → Thread → Bool)
    (h : ((executing g 0 unpred pred).all fun x => p x.1 x.2) = true) :
    ∀ l t, (l, t) ∈ executing g 0 unpred pred → p l t = true :=
  fun l t m => List.all_eq_true.1 h (l, t) m

/-- The hypotheses of a statement about a lane-set register instruction. -/
def Ready (s : State) (g : Group) (unpred : Bool) (pred : BitVec 4) (runs ops : List (Nat × Nat)) : Prop :=
  Calm s 0 0 g ∧ laneGuard g unpred pred runs false = none ∧ executing g 0 unpred pred ≠ [] ∧
    ∀ l t, (l, t) ∈ executing g 0 unpred pred → Within g t ops

def readyB (g : Group) (unpred : Bool) (pred : BitVec 4) (runs ops : List (Nat × Nat)) : Bool :=
  calmB g && (laneGuard g unpred pred runs false).isNone && !(executing g 0 unpred pred).isEmpty &&
    (executing g 0 unpred pred).all fun x => withinB g x.2 ops

theorem ready_of {g : Group} {unpred : Bool} {pred : BitVec 4} {runs ops : List (Nat × Nat)}
    (h : readyB g unpred pred runs ops = true) : Ready (at_ g) g unpred pred runs ops := by
  simp only [readyB, Bool.and_eq_true, Bool.not_eq_true', List.isEmpty_eq_false_iff, Option.isNone_iff_eq_none] at h
  exact ⟨calm_of rfl rfl rfl h.1.1.1, h.1.1.2, h.1.2, fun l t m => within_of (each_lane (fun _ t => withinB g t ops) h.2 l t m)⟩

/-- O1: at the top of the allotment, a pair for a 64-bit type. -/
theorem witness_IntegerResults :
    let f := rg 238 236 234 232 2
    let d := typed f.ty f.d
    let a := typed f.ty f.a
    let b := typed f.ty f.b
    let c := typed f.ty f.c
    d = (238, 2) ∧ Ready (at_ g0) g0 false f.pred [d, a, b] [d, a, b] ∧ Ready (at_ g0) g0 false f.pred [d, a] [d, a] ∧
    Ready (at_ g0) g0 false f.pred [c, d, a, b] [d, a, b, c] ∧ Ready (at_ g0) g0 false f.pred [a, b] [a, b] ∧
    Ready (at_ g0) g0 false 7 [] [single 239, single 0] :=
  ⟨rfl, ready_of (by decide), ready_of (by decide), ready_of (by decide), ready_of (by decide), ready_of (by decide)⟩

/-- O2. -/
theorem witness_BitResults :
    let f := rg 238 236 234 2 3
    let d := typed f.ty f.d
    let a := typed f.ty f.a
    let b := typed f.ty f.b
    d = (238, 2) ∧ Ready (at_ g0) g0 false 7 [] [single f.d, single f.a, single f.b] ∧
    Ready (at_ g0) g0 false 7 [d, a] [d, a, single f.b] ∧ Ready (at_ g0) g0 false 7 [a] [single f.d, a] ∧
    Ready (at_ g0) g0 false 7 [d, a] [d, a] ∧ Ready (at_ g0) g0 false 7 [d, a] [d, a, single f.c] ∧
    Ready (at_ g0) g0 false 7 [d, a, b] [d, a, b, single f.c] := by
  refine ⟨rfl, ?_, ?_, ?_, ?_, ?_, ?_⟩ <;> exact ready_of (by decide)

/-- O3: the lane set's compact forms read no predicate. -/
theorem witness_CompactResults :
    let f : CForm := { d := 239, a := 0, b := 238 }
    Ready (at_ g0) g0 true 7 [] [reg8 f.d, reg8 f.a, reg8 f.b] ∧
    Ready (at_ g0) g0 true 7 [] [reg8 f.d, reg8 f.a, reg8 f.b, reg8 f.d] ∧ Ready (at_ g0) g0 true 7 [] [reg8 f.d, reg8 f.a] := by
  refine ⟨?_, ?_, ?_⟩ <;> exact ready_of (by decide)

/-- O4. -/
theorem witness_FloatResults :
    let f := rg 239 0 238 5 8
    let g := { f with d := 1 }
    f.c.toNat = 5 ∧ Ready (at_ g0) g0 false 7 [] [single f.d, single f.a, single f.b] ∧
    Ready (at_ g0) g0 false 7 [] [single g.d, single f.a, single f.b, single f.c] ∧
    Ready (at_ g0) g0 false 7 [] [single f.d, single f.a] := by
  refine ⟨rfl, ?_, ?_, ?_⟩ <;> exact ready_of (by decide)

/-- O5: eight four-bit elements to eight F32 registers. -/
theorem witness_ConversionResults :
    let f := rg 232 224 1 (8 * 15 + 5) 8
    let n := packedCount 15 8
    let pd := (f.d.toNat, n / tyElems 8)
    let ps := (f.a.toNat, n / tyElems 15)
    Ready (at_ g0) g0 false 7 [scalarRun 8 f.d, scalarRun 15 f.a] [scalarRun 8 f.d, scalarRun 15 f.a] ∧
    Ready (at_ g0) g0 false 7 [pd, ps] [pd, ps] ∧ Ready (at_ g0) g0 false 7 [pd, ps] [pd, ps, single f.b] := by
  refine ⟨?_, ?_, ?_⟩ <;> exact ready_of (by decide)

/-- O6. -/
theorem witness_CrossLaneResults :
    let f := rg 238 236 7 0 3
    let d := single f.d
    let a := single f.a
    (Ready (at_ g0) g0 false 7 [] [d, a] ∧ mapFind f.b.toNat g0.stag = none) ∧ Ready (at_ g0) g0 false 7 [] [d, a, single f.b] ∧
    Ready (at_ g0) g0 false 7 [] [] ∧
    Ready (at_ g0) g0 false 7 [typed f.ty f.d, typed f.ty f.a] [typed f.ty f.d, typed f.ty f.a] ∧
    Ready (at_ g0) g0 false 7 [(236, ballotRun g0.width)] [(236, ballotRun g0.width)] ∧
    (let g := { g0 with width := 128 }
     ballotRun g.width = 4 ∧ Ready (at_ g) g false 7 [(236, 4)] [(236, 4)]) := by
  refine ⟨⟨?_, rfl⟩, ?_, ?_, ?_, ?_, rfl, ?_⟩ <;> exact ready_of (by decide)

/-- A group whose lanes' x0 names the registers 236 to 239, at the third of them. -/
def gx : Group := { g0 with threads := (List.range 16).map fun _ => { x := [(0, BitVec.ofNat 32 (236 * 2 ^ 20 + 4 * 1024 + 2))] } }

/-- O7: MOVX and STX at the last register of the window, which is the last of the allotment; PMOV both ways. -/
theorem witness_MoveResults :
    Ready (at_ g0) g0 false 7 [] [single 239] ∧ (rg 239 0 0 0).c = 0 ∧ (rg 0 239 0 0x80).c ≠ 0 ∧
    (let k : Int := 1
     Ready (at_ gx) gx false 7 [] [single 239] ∧ ∀ l t, (l, t) ∈ executing gx 0 false 7 →
       0 ≤ (indexAt (mapGet 0 t.x 0) : Int) + k ∧ (indexAt (mapGet 0 t.x 0) : Int) + k < indexCount (mapGet 0 t.x 0) ∧
       ((indexBase (mapGet 0 t.x 0) : Int) + indexAt (mapGet 0 t.x 0) + k) < gx.vregs) :=
  ⟨ready_of (by decide), rfl, by decide, ready_of (by decide), fun l t m => by
    have := each_lane (fun _ t => decide (t.x = [(0, BitVec.ofNat 32 (236 * 2 ^ 20 + 4 * 1024 + 2))])) (by decide) l t m
    rw [of_decide_eq_true this]; decide⟩

/-- The hypotheses of a statement about a uniform-set instruction that executes. -/
def UniReady (s : State) (g : Group) : Prop := Calm s 0 0 g ∧ g.Quiet ∧ uniActive g 7 = true

theorem uni_of {s : State} {g : Group} (hc : s.cur = some (0, { frags := [(0, 0)] })) (hg : s.group? 0 = some g)
    (hr : s.residue = 0) (h : calmB g = true) (h1 : g.stag = []) (h2 : g.atag = []) : UniReady s g :=
  ⟨calm_of hc hg hr h, ⟨h1, h2⟩, by rw [uniActive]; rfl⟩

/-- O8 and O9's clauses for every quiet group: the group executes, or its predicate q0 is false and it does not. -/
theorem witness_UniformResults : UniReady (at_ g0) g0 ∧ Calm (at_ g0) 0 0 g0 ∧ uniActive g0 0 = false :=
  ⟨uni_of rfl rfl rfl (by decide) rfl rfl, calm_of rfl rfl rfl (by decide), rfl⟩

/-- A group whose a3 covers [0x10000, 0x20000) and points at its start, whose s0 is 0xFFFF. -/
def ga : Group :=
  { g0 with a := [(3, { pointer := 0x10000, base := 0x10000, limit := 0x10000, attr := 3 })], s := [(0, 0xFFFF), (4, 0x10000)] }

/-- O9: special registers either side of the lane's two; a register at the end of the allotment; ADV to the last byte;
ANARROW to a range that starts one later, and to a lesser limit. -/
theorem witness_UniformMoves :
    UniReady (at_ g0) g0 ∧ (1 < (2 : BitVec 16).toNat) ∧ ((1 : BitVec 16).toNat ≤ 1) ∧ (239 : BitVec 10).toNat < g0.vregs ∧
    (UniReady (at_ ga) ga ∧
      let r := mapGet {} ga.a 3
      let p := r.pointer + (mapGet 0 ga.s 0).signExtend 64
      r.base.toNat ≤ p.toNat ∧ p.toNat < r.base.toNat + r.limit.toNat ∧
      r.base.toNat + r.limit.toNat < 2 ^ 64 ∧ (r.narrowed 1 0x10001).isSome = true ∧ (r.narrowed 2 0xFFFF).isSome = true ∧
      (r.narrowed 3 1).isSome = true) :=
  ⟨uni_of rfl rfl rfl (by decide) rfl rfl, by decide, by decide, by decide,
    uni_of rfl rfl rfl (by decide) rfl rfl, by decide, by decide, by decide, by decide, by decide, by decide⟩

/-- A lane at 0x100 whose first two registers hold an address. -/
def callLane : Thread := { pc := 0x100, rentry := 0x100, v := [(0, 0x200)] }
/-- Fifteen lanes in one fragment and the last in another. -/
def gs : Group :=
  { g0 with
    threads := ((List.range 15).map fun _ => callLane) ++ [{ callLane with frag := 1, pc := 0x300 }]
    frags := [{ id := 0, parent := 0, sib := 0xFFFF }, { id := 1, parent := 0, sib := 0xFFFF }] }
/-- That group with members of j2 yet to come, and with all but the last of them there. -/
def gj (arrived : Mask) : Group := { gs with j := [(2, { members := 0xFFFF, arrived := arrived })] }

/-- The lanes of a fragment each have a register pair at a code that holds a target. -/
def callsB (g : Group) (code : Nat) (target : DWord) : Bool :=
  (executing g 0 false 7).all fun x => withinB g x.2 [(code, 2)] && decide (x.2.rstk.length < 32) &&
    decide (BitVec.ofNat 64 (valueOf g x.2 (code, 2)) = target)

set_option maxRecDepth 4000 in
/-- O10: an empty mask; a mask that still wants lane 15; a mask complete with these lanes; a call that files into a new
queue, one that fills a queue to its last place, and one that finds no room in it. -/
theorem witness_RejoinResults :
    (Calm (at_ gs) 0 0 gs ∧ mayBranch gs 7 ∧ mapGet {} gs.j 2 = {}) ∧
    (Calm (at_ (gj 0)) 0 0 (gj 0) ∧ mayBranch (gj 0) 7 ∧
      (mapGet {} (gj 0).j 2).members &&& ~~~((mapGet {} (gj 0).j 2).arrived ||| maskOf (execLanes (gj 0) 0 7)) ≠ 0) ∧
    (Calm (at_ (gj 0x8000)) 0 0 (gj 0x8000) ∧ mayBranch (gj 0x8000) 7 ∧ (mapGet {} (gj 0x8000).j 2).members ≠ 0 ∧
      (mapGet {} (gj 0x8000).j 2).members &&&
        ~~~((mapGet {} (gj 0x8000).j 2).arrived ||| maskOf (execLanes (gj 0x8000) 0 7)) = 0) ∧
    laneGuard gs false 7 [(0, 2)] true = none ∧ executing gs 0 false 7 ≠ [] ∧ alignedFor gs.enc 0x200 = true ∧
    (∀ l t, (l, t) ∈ executing gs 0 false 7 → Within gs t [(0, 2)] ∧ t.rstk.length < 32 ∧
      BitVec.ofNat 64 (valueOf gs t (0, 2)) = 0x200) ∧
    (let held := fun (n : Nat) => ({ callees := [{ bid := 0, target := 0x200, entries := List.replicate n { who := (1, 0) } }] } : Core)
     let files := fun (c : Core) => c.fileCallee gs.bid 0x200 (filed (at_ gs) 0 (execLanes gs 0 7))
     (files {}).isSome = true ∧ (files (held 241)).isSome = true ∧ files (held 242) = none) := by
  refine ⟨⟨calm_of rfl rfl rfl (by decide), rfl, rfl⟩, ⟨calm_of rfl rfl rfl (by decide), rfl, by decide⟩,
    ⟨calm_of rfl rfl rfl (by decide), rfl, by decide, by decide⟩, rfl, by decide, rfl, fun l t m => ?_, by decide, by decide,
    by decide⟩
  have h := List.all_eq_true.1 (show callsB gs 0 0x200 = true by decide) _ m
  simp only [Bool.and_eq_true, decide_eq_true_eq] at h
  exact ⟨within_of h.1.1, h.1.2, h.2⟩

/-- O11: lanes with a return address; EXIT in part of a group and in the whole of it. -/
theorem witness_BranchResults :
    (Calm (at_ gs) 0 0 gs ∧ mayBranch gs 7 ∧ gs.region = false ∧ ∀ l ∈ gs.fragLanes 0, ∀ t, gs.thread? l = some t →
      t.rstk.length < 32) ∧
    (let g := { gs with s := [(0, 0x200)] }
     UniReady (at_ g) g ∧ g.region = false ∧ alignedFor g.enc (BitVec.ofNat 64 (uniValue g (0, true))) = true) ∧
    (let g := { g0 with threads := [{ rstk := List.replicate 32 0x40 }] }
     Calm (at_ g) 0 0 g ∧ mayBranch g 7 ∧ ∀ l t, (l, t) ∈ executing g 0 false 7 → t.rstk ≠ []) ∧
    ((at_ gs).drained gs.core 0 = true ∧ (at_ gs).quiet 0 (execLanes gs 0 7) = true ∧ gs.handler = false ∧
      ¬ (∀ l ∈ gs.live, l ∈ execLanes gs 0 7)) ∧
    ((at_ g0).drained g0.core 0 = true ∧ (at_ g0).quiet 0 (execLanes g0 0 7) = true ∧
      ∀ l ∈ g0.live, l ∈ execLanes g0 0 7) := by
  refine ⟨⟨calm_of rfl rfl rfl (by decide), rfl, rfl, fun l _ t h => ?_⟩,
    ⟨uni_of rfl rfl rfl (by decide) rfl rfl, rfl, by decide⟩, ⟨calm_of rfl rfl rfl (by decide), rfl, fun l t m => ?_⟩,
    by decide, by decide⟩
  · exact of_decide_eq_true (List.all_eq_true.1 (show gs.threads.all (fun t => decide (t.rstk.length < 32)) = true by decide) t
      (List.mem_of_getElem? h))
  · exact of_decide_eq_true (each_lane (fun _ t => decide (t.rstk ≠ [])) (by decide) l t m)

/-- A partition whose first gibibyte of addresses is mapped to device memory that it owns and whose second to host memory,
readable, writable and executable. -/
def mapped (s : State) : State :=
  { s with
    mem := [(0x10000, 1), (0x10002, 2), (0x20000, 0x1F), (0x20008, 0x1F), (0x2000E, 0x80), (0x40000, 0xAB)]
    parts := [(0, { ctl := 0x51401, ptroot := 0x10000 })]
    regions := [(0, { owners := 1, valid := true, size := 1 })] }

/-- A group whose a3 covers [0x40000, 0x50000) of it, whose a4 covers 4096 bytes of its own scratchpad, and whose a5
as many of its block's, whose a6 covers host memory; its lanes may have one more load, store, copy and tile
operation, and v1 is 16 times the lane. -/
def gm : Group :=
  { g0 with
    a := [(3, { pointer := 0x40000, base := 0x40000, limit := 0x10000, attr := 3 }),
          (4, { pointer := 0, base := 0, limit := 0x1000, attr := 0x103 }),
          (5, { pointer := 0, base := 0, limit := 0x1000, attr := 0x203 }),
          (6, { pointer := 0x40000000, base := 0x40000000, limit := 0x10000, attr := 0x303 })]
    threads := (List.range 16).map fun l => { v := if l = 0 then [] else [(1, BitVec.ofNat 32 (16 * l))], loads := 62, stores := 62, copies := 62, tiles := 62 } }

theorem coherent_of {s : State} {c p : Nat} (h1 : s.cores = []) (h2 : s.stlb = []) : Coherent s c p := by
  intro e h
  rw [State.core, h1, h2] at h
  simp [mapGet, mapFind] at h

/-- A read that an instruction makes at once answers. -/
def readsNow (s : State) (g : Group) (a : AddrReg) (o : Order) (n : Nat) : Bool :=
  (s.checkReg g a [0, 3] .read a.pointer n).isNone && match s.checkAccess g a .read a.pointer n n with
    | (.ok pa, s1) => match s1.readNow 0 g o (.mem pa) n with
      | some (.ok _, s2) => decide (s2.group? 0 = some g)
      | _ => false
    | _ => false

theorem reads_of {s : State} {g : Group} {a : AddrReg} {o : Order} {n : Nat} (h : readsNow s g a o n = true) :
    s.checkReg g a [0, 3] .read a.pointer n = none ∧ ∃ pa s1 bs s2, s.checkAccess g a .read a.pointer n n = (.ok pa, s1) ∧
      s1.readNow 0 g o (.mem pa) n = some (.ok bs, s2) ∧ s2.group? 0 = some g := by
  simp only [readsNow, Bool.and_eq_true, Option.isNone_iff_eq_none] at h
  refine ⟨h.1, ?_⟩
  have h := h.2
  split at h
  · next pa s1 h1 =>
    split at h
    · next bs s2 h2 => exact ⟨pa, s1, bs, s2, h1, h2, of_decide_eq_true h⟩
    · contradiction
  · contradiction

/-- O12: a table from registers and one from memory; a whole group with a table, on its registers and on its
predicates; an open region and none; room in the bins and none; a rejoin mask with members and none. -/
theorem witness_MeldAndBinResults :
    UniReady (at_ g0) g0 ∧ laneGuard g0 true 7 [] true = none ∧
    (let s := at_ gm mapped
     let a := mapGet {} gm.a 3
     UniReady s gm ∧ s.checkReg gm a [0, 3] .read a.pointer 128 = none ∧ ∃ pa s1 bs s2,
       s.checkAccess gm a .read a.pointer 128 128 = (.ok pa, s1) ∧ s1.readNow 0 gm .weak (.mem pa) 128 = some (.ok bs, s2) ∧
       s2.group? 0 = some gm) ∧
    (let g := { g0 with meld := some [] }
     Ready (at_ g) g true 7 [] [single 239] ∧ g.region = false ∧ g.meld.isSome = true ∧
     (g.fragLanes 0).length = g.live.length) ∧
    (let g := { g0 with meld := some [], region := true }
     Calm (at_ g) 0 0 g ∧ g.region = true) ∧
    (mayBranch g0 7 ∧ executing g0 0 false 7 ≠ [] ∧ (at_ g0).quiet 0 (g0.fragLanes 0) = true ∧
      ∀ r ∈ liveRegs ((uniRun 8 8).map fun k => mapGet 0 g0.s k), r < g0.vregs) ∧
    ((gj 0).j.any fun x => x.2.members != 0) = true ∧ (g0.j.any fun x => x.2.members != 0) = false ∧
    (let files := fun (c : Core) => c.fileBin g0.bid 8 false (filed (at_ g0) 0 (execLanes g0 0 7))
     (files {}).isSome = true ∧ (files { bins := List.replicate 63 ⟨1, 0, [], false⟩ }).isSome = true ∧
     files { bins := List.replicate 64 ⟨1, 0, [], false⟩ } = none ∧ Unread g0 0) :=
  ⟨uni_of rfl rfl rfl (by decide) rfl rfl, rfl, ⟨uni_of rfl rfl rfl (by decide) rfl rfl, reads_of (by decide)⟩,
    ⟨ready_of (by decide), rfl, rfl, by decide⟩, ⟨calm_of rfl rfl rfl (by decide), rfl⟩, ⟨rfl, by decide, by decide, by decide⟩,
    by decide, by decide, by decide, by decide, by decide, fun r h => absurd (show r ∈ ([] : List Late) from h) (by simp)⟩

/-- A memory form of sixteen bytes of an address register, executed by every lane, that ends where the register's range
of 65536 or 4096 bytes does. -/
def mf (areg : BitVec 4) (d : BitVec 10 := 236) (off : BitVec 18 := 0xFF00) : MForm :=
  { d := d, areg := areg, scale := 0, order := 0, idx := 1, pred := 7, size := 4, off := off }
def muf (areg : BitVec 4) (off : BitVec 18 := 0xFFF0) : MForm := { mf areg with idx := noIndex, off := off }

def grantedB (s : State) (g : Group) (a : AddrReg) (acc : Access) (ea : DWord) (n pa : Nat) : Bool :=
  (s.checkReg g a [0, 3] acc ea n).isNone && match (s.uncached.checkAccess g a acc ea n n).1 with
    | .ok x => decide (x = pa)
    | .error _ => false

theorem granted_of {s : State} {g : Group} {a : AddrReg} {acc : Access} {ea : DWord} {n pa : Nat}
    (h : grantedB s g a acc ea n pa = true) : Granted s g a acc ea n pa := by
  simp only [grantedB, Bool.and_eq_true, Option.isNone_iff_eq_none] at h
  refine ⟨h.1, ?_⟩
  have h := h.2
  split at h
  · next x e => rw [e, of_decide_eq_true h]
  · contradiction

def memReadyB (g : Group) (t : Thread) (regs : List (Nat × Nat)) (areg : Nat) (idx : BitVec 10) : Bool :=
  (mapFind areg g.atag).isNone && withinB g t (if idx = noIndex then regs else regs ++ [single idx])

theorem memReady_of {g : Group} {t : Thread} {regs : List (Nat × Nat)} {areg : Nat} {idx : BitVec 10}
    (h : memReadyB g t regs areg idx = true) : MemReady g t regs areg idx := by
  simp only [memReadyB, Bool.and_eq_true, Option.isNone_iff_eq_none] at h
  exact ⟨h.1, within_of h.2⟩

theorem rosterOpen_of {s : State} {a : AddrReg} (h : s.object? a.objid = none) : RosterOpen s a := by
  intro _ o e
  rw [h] at e
  contradiction

/-- Every lane's access is granted. -/
def lanesGranted (s : State) (g : Group) (f : MForm) (acc : Access) (pa : Nat → Nat) : Bool :=
  (executing g 0 false 7).all fun x => memReadyB g x.2 [f.data] f.areg.toNat f.idx && decide (x.2.loads < 63) &&
    decide (x.2.stores < 63) && (s.object? (f.at_ g x.2).1.objid).isNone &&
    grantedB s g (f.at_ g x.2).1 acc (f.at_ g x.2).2 f.bytes (pa x.1)

theorem lanesGranted_of {s : State} {g : Group} {f : MForm} {acc : Access} {pa : Nat → Nat}
    (h : lanesGranted s g f acc pa = true) : ∀ l t, (l, t) ∈ executing g 0 false 7 →
      (f.ready g t [f.data] ∧ t.stores < 63) ∧ RosterOpen s (f.at_ g t).1 ∧
        Granted s g (f.at_ g t).1 acc (f.at_ g t).2 f.bytes (pa l) := by
  intro l t m
  have h := List.all_eq_true.1 h _ m
  simp only [Bool.and_eq_true, decide_eq_true_eq, Option.isNone_iff_eq_none] at h
  exact ⟨⟨⟨memReady_of h.1.1.1.1, h.1.1.1.2⟩, h.1.1.2⟩, rosterOpen_of h.1.2, granted_of h.2⟩

/-- O13: the lanes' stores end with the range, of lanes interlocked and not; the group's at its end. -/
theorem witness_StoreResults :
    let s := at_ gm mapped
    let f := mf 3
    let u := muf 3
    Calm s 0 0 gm ∧ Coherent s gm.core gm.part ∧ (s.core gm.core).sq = [] ∧ (s.core gm.core).wc = [] ∧ f.order = 0 ∧
    laneGuard gm false f.pred [f.data] false = none ∧ (executing gm 0 false f.pred).length * (f.bytes / 32 + 1) ≤ 256 ∧
    (∀ l t, (l, t) ∈ executing gm 0 false 7 → (f.ready gm t [f.data] ∧ t.stores < 63) ∧ RosterOpen s (f.at_ gm t).1 ∧
      Granted s gm (f.at_ gm t).1 .write (f.at_ gm t).2 f.bytes (0x4FF00 + 16 * l)) ∧
    gm.Quiet ∧ uniActive gm u.pred = true ∧ u.bytes ≤ 2 ^ 12 ∧ RosterOpen s (u.uniAt gm).1 ∧
    Granted s gm (u.uniAt gm).1 .write (u.uniAt gm).2 u.bytes 0x4FFF0 ∧ uniActive gm 0 = false :=
  ⟨calm_of rfl rfl rfl (by decide), coherent_of rfl rfl, rfl, rfl, rfl, rfl, by decide, lanesGranted_of (by decide),
    ⟨rfl, rfl⟩, rfl, by decide, rosterOpen_of (by rfl), granted_of (by decide), rfl⟩

/-- O14. -/
theorem witness_LoadResults :
    let s := at_ gm mapped
    let f := mf 3
    let u := muf 3
    let a := muf 3 0xFFE0
    Calm s 0 0 gm ∧ Coherent s gm.core gm.part ∧ laneGuard gm false f.pred [f.data] false = none ∧
    (∀ l t, (l, t) ∈ executing gm 0 false 7 → (f.ready gm t [f.data] ∧ t.stores < 63) ∧ RosterOpen s (f.at_ gm t).1 ∧
      Granted s gm (f.at_ gm t).1 .read (f.at_ gm t).2 f.bytes (0x4FF00 + 16 * l)) ∧
    gm.Quiet ∧ uniActive gm u.pred = true ∧ Granted s gm (u.uniAt gm).1 .read (u.uniAt gm).2 u.bytes 0x4FFF0 ∧
    Granted s gm (a.uniAt gm).1 .read (a.uniAt gm).2 32 0x4FFE0 ∧ uniActive gm 0 = false ∧
    laneGuard gm false f.pred [] false = none ∧ mapFind f.areg.toNat gm.atag = none :=
  ⟨calm_of rfl rfl rfl (by decide), coherent_of rfl rfl, rfl, lanesGranted_of (by decide), ⟨rfl, rfl⟩, rfl,
    granted_of (by decide), granted_of (by decide), rfl, rfl, rfl⟩

/-- The device with one request of core 0 on its way to slice 0. -/
def asking (k : ReqKind) : State := mapped { State.reset with net := [⟨5, 0, 0, 0, 0, k⟩] }

/-- The device with its group waiting in a register run of lane 15 for a reply that is there, behind one that the core
formed for itself. -/
def awaiting : State :=
  { at_ { g0 with threads := (List.range 15).map (fun _ => {}) ++ [{ vtag := [(238, 7), (239, 7)], loads := 1 }] } with
    pends := [(7, { id := 7, gid := 0, lanes := [15], dest := .vec 15 [238, 239], data := List.replicate 8 none, wait := 1
                    pc := 0, rentry := [0], rcount := [0], ea := 0x40000 })]
    replies := [⟨1, 0, none, 3, 0, [], none, none, true⟩, ⟨2, 0, some 0, 7, 0, List.replicate 8 0xFF, none, none, true⟩] }

set_option maxRecDepth 4000 in
/-- O15: each clause's request, reply, line and page; a fetch and a walk of the last mapped page. -/
theorem witness_LoadEvents :
    (∃ (r : Req) (t : State), (asking (.load (.mem 0x40000) 32 7 0 true)).take 5 = some (r, t) ∧ r.kind = .load (.mem 0x40000) 32 7 0 true) ∧
    (∃ (r : Req) (t : State), (asking (.fill 0x40000 true)).take 5 = some (r, t) ∧ r.kind = .fill 0x40000 true) ∧
    (∃ (r : Req) (t : State), (asking (.sample [] 0)).take 5 = some (r, t) ∧ r.kind = .sample [] 0) ∧
    (let s := awaiting
     ∃ (r : Reply) (p : Pend) (th : Thread), s.replies.find? (·.id == 2) = some r ∧
      (∀ x ∈ s.replies.takeWhile (fun x => x.id != 2), x.core = r.core → x.slice = r.slice → x.slice = none) ∧
      s.ackAhead r = false ∧ mapFind r.pend s.pends = some p ∧ p.id = r.pend ∧ p.wait = 1 ∧ p.cause = none ∧ r.cause = none ∧
      p.lanes = [15] ∧ p.dest = .vec 15 [238, 239] ∧ [238, 239].Nodup ∧ s.thread? p.gid 15 = some th ∧ th.trap = none ∧
      ∀ k ∈ [238, 239], mapFind k th.vtag = some p.id) ∧
    inDevice 0x3F = true ∧ (((mapped State.reset).slice (homeOf (128 * (0x3F / 128)))).owned.any fun x => x.1 == 0x3F / 128) = false ∧
    (let gm := { gm with threads := [{ pc := 0x3FFFFFF8 }] }
     let s := at_ gm mapped
     let va : DWord := 0x3FFFFFE0
     s.group? 0 = some gm ∧ gm.residence = .resident ∧ Coherent s gm.core gm.part ∧ va.toNat < 2 ^ 56 ∧
     (∃ l ∈ gm.live, ∃ th, gm.thread? l = some th ∧ th.pc.toNat / 32 = va.toNat / 32) ∧
     gm.reaches 0 65 (gm.live.filterMap fun l => (gm.thread? l).map (·.pc)) = false ∧ ∃ e : TlbEntry, s.walk gm.part (va.toNat / 32 * 32) = some e ∧
       e.x = true ∧ inDevice (e.pa (va.toNat / 32 * 32)) = true ∧ s.admits gm.part (e.pa (va.toNat / 32 * 32)) = true ∧
       s.poisoned (e.pa (va.toNat / 32 * 32)) 32 = false ∧
       mapFind (e.pa (va.toNat / 32 * 32) / 128) (s.core gm.core).icache = none) := by
  refine ⟨?_, ?_, ?_, ⟨_, _, _, rfl, by decide, rfl, rfl, rfl, rfl, rfl, rfl, rfl, rfl, by decide, rfl, rfl, by decide⟩, rfl,
    rfl, rfl, rfl, coherent_of rfl rfl, by decide, ⟨0, by decide, _, rfl, rfl⟩, by decide,
    ⟨⟨0, 0x3FFF, 0x3FFF0000, true, true, true, 16384⟩, by decide, rfl, rfl, by decide, rfl, rfl⟩⟩
  · exact ⟨_, _, rfl, rfl⟩
  · exact ⟨_, _, rfl, rfl⟩
  · exact ⟨_, _, rfl, rfl⟩

/-- A store of one byte into the sector at an address. -/
def st1 (seq pa : Nat) : Store := { seq := seq, gid := 0, part := 0, core := 0, at_ := .mem pa, bytes := [(31, 0xFF)] }

/-- An object of the first gibibyte, the first of slice 3, in a state. -/
def obj1 (st : ObjState) : ObjEntry :=
  { id := 0x06000001, base := 0x40000, extent := 0x10000, cls := 1, sealable := true, shared := false, rowAtomic := true
    rowLen := 32, rowStride := 32, part := 0, state := st }
def owning (st : ObjState) (s : State) : State := { s with slices := [(3, { objects := [(0, obj1 st)] })] }

set_option maxRecDepth 4000 in
/-- O16: the second entry of a store queue behind a full write-through queue less one; a full write-combining line, and
one that must make room; stores at their home, of an object and of none; an applied entry with an inspect that waits for
it alone; the last core, slice and object. -/
theorem witness_StoreEvents :
    (let e := st1 2 0x40020
     let s : State := { State.reset with cores := [(0, { sq := [st1 1 0x40000, e], wt := List.replicate 127 (st1 0 0x80000) })] }
     (s.core 0).sq[1]? = some e ∧ ((s.core 0).sq.takeWhile fun x => !x.same e).all (fun x => x.at_ != e.at_) = true ∧
       (s.core 0).wt.length < 128 ∧ s.entryWaits e = false) ∧
    (let full := { st1 1 0x40000 with bytes := (List.range 128).map fun i => (i, 1) }
     let lines := (List.range 16).map fun i => { st1 i (128 * i) with gid := i }
     let s : State := { State.reset with cores := [(0, { wc := [full] }), (1, { wc := lines })] }
     (s.core 0).wc[0]? = some full ∧ full.sent = false ∧ (s.core 0).lineGoes full = true ∧ s.entryWaits full = false ∧
       (s.core 1).wc[0]? = some (st1 0 0) ∧ (s.core 1).lineGoes (st1 0 0) = true ∧ s.entryWaits (st1 0 0) = false) ∧
    (∀ obj, obj = 0 ∨ obj = 0x06000001 → let st := { st1 1 0x40000 with obj := obj }
     ∃ (r : Req) (t : State), (asking (.store st)).take 5 = some (r, t) ∧ r.kind = .store st ∧ st.at_ = .mem 0x40000 ∧
       (st.bytes.map (·.1)).Nodup) ∧
    (let e := { st1 1 0x40000 with applied := true }
     let x : Inspect := { core := some 1, gid := 0, part := 0, form := 0, scope := 1, lo := 0, hi := 0, pushing := [0]
                          awaits := [(0, e.seq, e.gid, e.at_)] }
     let s : State := { State.reset with
       cores := [(0, { wt := [st1 0 0x80000], wc := [e] })], inspects := [(0, x)] }
     ((s.core 0).wt ++ (s.core 0).wc)[1]? = some e ∧ e.applied = true ∧ e.pends = [] ∧ s.ackBehind 0 e = false ∧
       (mapKeys s.inspects).Nodup ∧ mapFind 0 s.inspects = some x ∧ 0 ∈ x.pushing) ∧
    (let s := owning .idle State.reset
     127 < 128 ∧ s.object? 0x06000001 = some (obj1 .idle) ∧ (0x06000001 : Word) ≠ 0 ∧ (obj1 .idle).state ≠ .sealed ∧
       (obj1 .idle).closing = none ∧ ∀ e ∈ (s.core 127).lookup, e.id = 0x06000001 → e.known = false) :=
  ⟨⟨rfl, by decide, by decide, rfl⟩, ⟨rfl, rfl, rfl, rfl, rfl, by decide, rfl⟩, fun obj _ => ⟨_, _, rfl, rfl, rfl, by simp [st1]⟩,
    ⟨rfl, rfl, rfl, by simp [State.ackBehind, State.core, st1, mapGet, mapFind, State.reset], by decide, rfl, by decide⟩, by decide,
    by decide, by decide, by decide, rfl, by decide⟩

/-- A block of one core with 4096 bytes of scratchpad that belongs to a launch. -/
def spadded (s : State) : State :=
  { s with blocks := [(0, { launchedBlock 0 with
      rid := some 0, hdr := { encD := true, vregsD := 240, spad := 4096 }, regions := [{ size := 4096 }] })] }

def spadPlaceB (x : Except Nat (Option Place)) (b i off : Nat) : Bool :=
  match x with
  | .ok (some (.spad b' i' off')) => b == b' && i == i' && off == off'
  | _ => false

theorem spadPlace_of {x : Except Nat (Option Place)} {b i off : Nat} (h : spadPlaceB x b i off = true) :
    x = .ok (some (.spad b i off)) := by
  unfold spadPlaceB at h
  split at h
  · simp only [Bool.and_eq_true, beq_iff_eq] at h
    rw [h.1.1, h.1.2, h.2]
  · contradiction

/-- An access of a lane to the scratchpad: its place, and that its bytes are there and good. -/
def spadB (s : State) (g : Group) (spaces : List Nat) (a : AddrReg) (acc : Access) (ea : DWord) (n align b i off : Nat) : Bool :=
  spadPlaceB (s.checkSpad g a spaces acc ea n align) b i off && (s.lacking (.spad b i off) n).isNone &&
    (s.region? b i).isSome && !s.placePoisoned (.spad b i off) n

theorem spad_of {s : State} {g : Group} {spaces : List Nat} {a : AddrReg} {acc : Access} {ea : DWord} {n align b i off : Nat}
    (h : spadB s g spaces a acc ea n align b i off = true) :
    s.checkSpad g a spaces acc ea n align = .ok (some (.spad b i off)) ∧ s.lacking (.spad b i off) n = none ∧
      (s.region? b i).isSome = true ∧ s.placePoisoned (.spad b i off) n = false := by
  simp only [spadB, Bool.and_eq_true, Option.isNone_iff_eq_none, Bool.not_eq_true'] at h
  exact ⟨spadPlace_of h.1.1.1, h.1.1.2, h.1.2, h.2⟩

/-- Every lane reaches the scratchpad, at 16 times the lane from an offset. -/
def SpadLanes (s : State) (g : Group) (spaces : List Nat) (f : MForm) (acc : Access) (align off : Nat) : Prop :=
  ∀ l t, (l, t) ∈ executing g 0 false 7 → (f.ready g t [f.data] ∧ t.stores < 63) ∧
    s.checkSpad g (f.at_ g t).1 spaces acc (f.at_ g t).2 f.bytes align = .ok (some (.spad 0 0 (off + 16 * l))) ∧
    s.lacking (.spad 0 0 (off + 16 * l)) f.bytes = none ∧ (s.region? 0 0).isSome = true ∧
    s.placePoisoned (.spad 0 0 (off + 16 * l)) f.bytes = false

def lanesSpad (s : State) (g : Group) (spaces : List Nat) (f : MForm) (acc : Access) (align off : Nat) : Bool :=
  (executing g 0 false 7).all fun x => memReadyB g x.2 [f.data] f.areg.toNat f.idx && decide (x.2.loads < 63) &&
    decide (x.2.stores < 63) && spadB s g spaces (f.at_ g x.2).1 acc (f.at_ g x.2).2 f.bytes align 0 0 (off + 16 * x.1)

theorem lanesSpad_of {s : State} {g : Group} {spaces : List Nat} {f : MForm} {acc : Access} {align off : Nat}
    (h : lanesSpad s g spaces f acc align off = true) : SpadLanes s g spaces f acc align off := by
  intro l t m
  have h := List.all_eq_true.1 h _ m
  simp only [Bool.and_eq_true, decide_eq_true_eq] at h
  exact ⟨⟨⟨memReady_of h.1.1.1, h.1.1.2⟩, h.1.2⟩, spad_of h.2⟩

/-- O17: sixteen bytes a lane up to the end of the scratchpad, its own and its block's by number; 64-bit atomics to disjoint
words. -/
theorem witness_ScratchpadResults :
    let s := at_ gm spadded
    let f := mf 4 236 0xF00
    let p := mf 5 236 0xF00
    let a : RForm := rg 238 (BitVec.ofNat 10 (16 * 4)) 1 0 2
    Calm s 0 0 gm ∧ laneGuard gm false 7 [f.data] false = none ∧ laneGuard gm false 7 [] false = none ∧
    (s.core gm.core).sq = [] ∧ (s.core gm.core).wc = [] ∧ (executing gm 0 false 7).length * (f.bytes / 32 + 1) ≤ 256 ∧
    gm.bid = 0 ∧ gm.home = 0 ∧ (mapGet {} gm.a 4).space = 1 ∧ s.viaSlice gm (mapGet {} gm.a 4) = false ∧
    s.viaSlice gm (mapGet {} gm.a 5) = true ∧
    SpadLanes s gm [1, 2] f .read f.bytes 0xF00 ∧ SpadLanes s gm [1, 2] p .read f.bytes 0xF00 ∧
    SpadLanes s gm [1, 2] f .write f.bytes 0xF00 ∧ SpadLanes s gm [1, 2] p .write f.bytes 0xF00 ∧
    SpadLanes s gm [1] f .read 1 0xF00 ∧ laneGuard gm false 7 [typed a.ty a.d] false = none ∧
    ∀ l t, (l, t) ∈ executing gm 0 false 7 → atomReady a gm t [typed a.ty a.d] ∧
      (s.checkSpad gm (atomAt a gm t).1 [1, 2] .modify (atomAt a gm t).2 8 8 = .ok (some (.spad gm.bid gm.home (16 * l))) ∧
      s.lacking (.spad gm.bid gm.home (16 * l)) 8 = none ∧ (s.region? gm.bid gm.home).isSome = true ∧
      s.placePoisoned (.spad gm.bid gm.home (16 * l)) 8 = false) ∧
      ∀ k t', (k, t') ∈ executing gm 0 false 7 → k ≠ l → 16 * k + 8 ≤ 16 * l ∨ 16 * l + 8 ≤ 16 * k := by
  refine ⟨calm_of rfl rfl rfl (by decide), rfl, rfl, rfl, rfl, by decide, rfl, rfl, rfl, by decide, rfl, lanesSpad_of (by decide),
    lanesSpad_of (by decide), lanesSpad_of (by decide), lanesSpad_of (by decide), lanesSpad_of (by decide), rfl, fun l t m => ?_⟩
  have h := List.all_eq_true.1 (show ((executing gm 0 false 7).all fun x =>
    memReadyB gm x.2 [(238, 2)] 4 1 && decide (x.2.loads < 63 ∧ x.2.stores < 63) && spadB (at_ gm spadded) gm [1, 2]
      (memAddr gm x.2 4 1 0 0).1 .modify (memAddr gm x.2 4 1 0 0).2 8 8 0 0 (16 * x.1)) = true by decide) _ m
  simp only [Bool.and_eq_true, decide_eq_true_eq] at h
  exact ⟨⟨memReady_of h.1.1, h.1.2⟩, spad_of h.2, fun k _ _ _ => by omega⟩

/-- The barrier state: an object at the last place of the scratchpad that waits for 65535 arrivals. -/
def barred (s : State) : State :=
  { s with blocks := [(0, { launchedBlock 0 with
      rid := some 0, hdr := { encD := true, vregsD := 240, spad := 4096 }
      regions := [{ size := 4096, data := [(0xFE0, 2), (0xFE4, 0xFF), (0xFEE, 0xFF), (0xFEF, 0xFF)] }] })] }

/-- O18: BOARRIVE of nothing and of every arrival there may be, whatever the phase that BOWAIT and BOTEST name,
at the group's own region and at its block's by number. -/
theorem witness_BarrierResults :
    let f := { muf 4 0xFE0 with d := 8 }
    let g := fun (x : Word) => { gm with s := if x = 0 then [] else [(8, x)] }
    let at0 := fun (x : Word) => at_ (g x) barred
    let p := { muf 5 0xFE0 with d := 8 }
    let here := fun (x : Word) (f : MForm) (spaces : List Nat) (acc : Access) =>
      (at0 x).checkSpad (g x) (f.uniAt (g x)).1 spaces acc (f.uniAt (g x)).2 32 32 = .ok (some (.spad 0 0 0xFE0))
    (∀ x, x = 0 ∨ x = 1 ∨ x = 65535 → UniReady (at0 x) (g x) ∧ (f.uniAt (g x)).1.space = 1 ∧
      (at0 x).viaSlice (g x) (f.uniAt (g x)).1 = false ∧ (at0 x).ownPending (g x).core 0 (.spad 0 0 0xFE0) 32 = false ∧
      (p.uniAt (g x)).1.space = 2 ∧ here x p [1, 2] .modify ∧
      (at0 x).lacking (.spad 0 0 0xFE0) 32 = none ∧ (at0 x).placePoisoned (.spad 0 0 0xFE0) 32 = false ∧
      ((at0 x).region? 0 0).isSome = true ∧ (g x).threads.length ≤ 128 ∧ here x f [1] .modify ∧ here x f [1, 2] .modify ∧
      here x f [1] .read ∧ ((at0 x).barrier 0 0 0xFE0).arrived ≤ ((at0 x).barrier 0 0 0xFE0).expect) ∧
    (let b := (at0 65535).barrier 0 0 0xFE0
     b.doneArr + (65535 : Word).toNat ≤ b.expArr) ∧
    ((at0 0).barrier 0 0 0xFE0).phase = (0 : Word).getLsbD 0 ∧ ((at0 1).barrier 0 0 0xFE0).phase ≠ (1 : Word).getLsbD 0 := by
  refine ⟨?_, by decide, by decide, by decide⟩
  rintro x (rfl | rfl | rfl) <;>
    exact ⟨uni_of rfl rfl rfl (by decide) rfl rfl, rfl, by decide, rfl, rfl, spadPlace_of (by decide), rfl, rfl, rfl, by decide,
      spadPlace_of (by decide), spadPlace_of (by decide), spadPlace_of (by decide), by decide⟩

/-- An atomic form of an address register, executed by every lane. -/
def af (areg : BitVec 10) (ty : BitVec 5 := 2) : RForm := rg 238 (16 * areg) 1 236 ty

def lanesAtomic (s : State) (g : Group) (f : RForm) (n base : Nat) : Bool :=
  (executing g 0 false 7).all fun x => memReadyB g x.2 [typed f.ty f.d, typed f.ty f.c] (memAreg f.a) f.b &&
    decide (x.2.loads < 63 ∧ x.2.stores < 63) && grantedB s g (atomAt f g x.2).1 .modify (atomAt f g x.2).2 n (base + 16 * x.1)

theorem lanesAtomic_of {s : State} {g : Group} {f : RForm} {n base : Nat} (h : lanesAtomic s g f n base = true) :
    ∀ l t, (l, t) ∈ executing g 0 false 7 → (MemReady g t [typed f.ty f.d, typed f.ty f.c] (memAreg f.a) f.b ∧ t.loads < 63 ∧ t.stores < 63) ∧
      Granted s g (atomAt f g t).1 .modify (atomAt f g t).2 n (base + 16 * l) := by
  intro l t m
  have h := List.all_eq_true.1 h _ m
  simp only [Bool.and_eq_true, decide_eq_true_eq] at h
  exact ⟨⟨memReady_of h.1.1, h.1.2⟩, granted_of h.2⟩

/-- O19: 64-bit atomics and packed halves in device memory, an addition in the host's. -/
theorem witness_AtomicResults :
    let s := at_ gm mapped
    Calm s 0 0 gm ∧ Coherent s gm.core gm.part ∧ (s.core gm.core).sq = [] ∧ (s.core gm.core).wc = [] ∧ s.net = [] ∧
    laneGuard gm false 7 [typed 2 238] false = none ∧ laneGuard gm false 7 [typed 2 238, typed 2 236] false = none ∧
    laneGuard gm false 7 [] false = none ∧
    (∀ l t, (l, t) ∈ executing gm 0 false 7 →
      (MemReady gm t [typed 2 238, typed 2 236] (memAreg (af 3).a) 1 ∧ t.loads < 63 ∧ t.stores < 63) ∧
      Granted s gm (atomAt (af 3) gm t).1 .modify (atomAt (af 3) gm t).2 8 (0x40000 + 16 * l)) ∧
    (∀ l t, (l, t) ∈ executing gm 0 false 7 →
      (MemReady gm t [typed 4 238, typed 4 236] (memAreg (af 3).a) 1 ∧ t.loads < 63 ∧ t.stores < 63) ∧
      Granted s gm (atomAt (af 3 4) gm t).1 .modify (atomAt (af 3 4) gm t).2 4 (0x40000 + 16 * l)) ∧
    (∀ l t, (l, t) ∈ executing gm 0 false 7 →
      (MemReady gm t [typed 3 238, typed 3 236] (memAreg (af 6).a) 1 ∧ t.loads < 63 ∧ t.stores < 63) ∧
      Granted s gm (atomAt (af 6 3) gm t).1 .modify (atomAt (af 6 3) gm t).2 8 (2 ^ 55 + 16 * l)) ∧
    isHost (2 ^ 55 + 16 * 15) = true ∧ isHost (0x40000 + 16 * 15) = false :=
  ⟨calm_of rfl rfl rfl (by decide), coherent_of rfl rfl, rfl, rfl, rfl, rfl, rfl, rfl, lanesAtomic_of (f := af 3) (by decide),
    lanesAtomic_of (f := af 3 4) (by decide), lanesAtomic_of (f := af 6 3) (by decide), by decide, by decide⟩

/-- A group whose a3 names an object with rows of 32 bytes. -/
def gr : Group :=
  { gm with a := [(3, { pointer := 0x40000, base := 0x40000, limit := 0x10000, attr := 0x0600000100000003 })] }

theorem rowObject_of {x : Except Nat (ObjEntry × Nat)} {o : ObjEntry} {n : Nat}
    (h : (match x with
      | .ok y => decide (y = (o, n))
      | .error _ => false) = true) : x = .ok (o, n) := by
  split at h
  · rw [of_decide_eq_true h]
  · contradiction

/-- Every lane's team reaches the row of the object at an address. -/
def rowB (s : State) (g : Group) (a : AddrReg) (acc : Access) (ea : Thread → DWord) (o : ObjEntry) (pa : Nat) : Bool :=
  (executing g 0 false 7).all fun x => decide (x.1 < 128) && (s.checkReg g a [0] acc (ea x.2) o.rowLen).isNone &&
    o.rowAt (ea x.2).toNat && match (s.uncached.rowSegs g a acc (ea x.2).toNat o.rowLen).1 with
      | .ok y => decide (y = [(pa, o.rowLen)])
      | .error _ => false

theorem row_of {s : State} {g : Group} {a : AddrReg} {acc : Access} {ea : Thread → DWord} {o : ObjEntry} {size pa : Nat}
    (h : rowB s g a acc ea o pa = true) :
    RowGranted s g (executing g 0 false 7) ea a acc o size fun _ => [(pa, o.rowLen)] := by
  intro l t m
  have h := List.all_eq_true.1 h _ m
  simp only [Bool.and_eq_true, decide_eq_true_eq, Option.isNone_iff_eq_none] at h
  refine ⟨h.1.1.1, fun _ => ⟨h.1.1.2, h.1.2, ?_⟩⟩
  have h := h.2
  split at h
  · next x e => rw [e, of_decide_eq_true h]
  · contradiction

/-- O20: teams of two lanes at the last row of the object, which all name one row. -/
theorem witness_RowResults :
    let s := at_ gr fun s => owning .idle (mapped s)
    let f := { muf 3 0xFFE0 with d := 236 }
    let w : RForm := { rg 236 (BitVec.ofNat 10 (16 * 3)) noIndex 4 with ty := 0 }
    let a := mapGet {} gr.a 3
    let lanes := executing gr 0 false 7
    Calm s 0 0 gr ∧ Coherent s gr.core gr.part ∧ (s.core gr.core).sq = [] ∧ (s.core gr.core).wc = [] ∧ s.net = [] ∧
    laneGuard gr false 7 [f.data] false = none ∧ laneGuard gr false 7 [(w.d.toNat, sizeRun w.c.toNat)] false = none ∧
    (∀ l t, (l, t) ∈ lanes → f.ready gr t [f.data]) ∧
    (∀ l t, (l, t) ∈ lanes → MemReady gr t [(w.d.toNat, sizeRun w.c.toNat)] (memAreg w.a) w.b ∧ t.stores < 63) ∧
    s.rowObject gr a f.bytes = .ok (obj1 .idle, 2) ∧ s.rowObject gr a (2 ^ w.c.toNat) = .ok (obj1 .idle, 2) ∧
    RowGranted s gr lanes (fun t => (memAddr gr t f.areg.toNat f.idx f.scale.toNat 0).2) a .read (obj1 .idle) 2
      (fun _ => [(0x40000, 32)]) ∧
    RowGranted s gr lanes (fun t => (atomAt w gr t).2) a .modify (obj1 .idle) 2 (fun _ => [(0x40000, 32)]) := by
  refine ⟨calm_of rfl rfl rfl (by decide), coherent_of rfl rfl, rfl, rfl, rfl, rfl, rfl, fun l t m => ?_, fun l t m => ?_,
    rowObject_of (by decide), rowObject_of (by decide), row_of (by decide), row_of (by decide)⟩
  · have h := each_lane (fun _ t => memReadyB gr t [(236, 4)] 3 noIndex && decide (t.loads < 63)) (by decide) l t m
    simp only [Bool.and_eq_true, decide_eq_true_eq] at h
    exact ⟨memReady_of h.1, h.2⟩
  · have h := each_lane (fun _ t => memReadyB gr t [(236, 4)] 3 noIndex && decide (t.stores < 63)) (by decide) l t m
    simp only [Bool.and_eq_true, decide_eq_true_eq] at h
    exact ⟨memReady_of h.1, h.2⟩

def isOk {ε α : Type} (x : Except ε α) : Bool :=
  match x with
  | .ok _ => true
  | .error _ => false

theorem ok_of {ε α : Type} {x : Except ε α} (h : isOk x = true) : ∃ y, x = .ok y := by
  unfold isOk at h
  split at h
  · exact ⟨_, rfl⟩
  · contradiction

/-- The device with one request of core 0 on its way to a scratchpad with a barrier object. -/
def askingSpad (k : ReqKind) : State := { barred (asking k) with groups := [(0, g0)] }

/-- A copy of 32 bytes to a place in device memory or in a scratchpad, some of it done. -/
def cp (dst obj : Nat) (done : Nat) (cleared owns : Bool) : Copy :=
  { core := 0, part := 0, slot := 511, gen := 1, bid := 0, idx := 0, srcSpace := 1, srcBase := 0xFE0, dstSpace := dst
    dstBase := if dst = 0 then 0x40FE0 else 0xFE0, dim0 := 32, dim1 := 1, dim2 := 1, sstr1 := 0, sstr2 := 0, dstr1 := 0
    dstr2 := 0, bar := none, strong := true, obj := BitVec.ofNat 32 obj, multicast := false
    receivers := [{ pos := 0, bid := 0, idx := 0, done := done, cleared := cleared }], owns := owns
    readTo := if done = 0 then 32 else done }

/-- A slice with so many lines owned by a copy, and a row of one line of it that is served elsewhere. -/
theorem room_of (n : Nat) : ({ State.reset with
    copies := [(9, cp 0 0 0 true true)]
    slices := [(homeOf 0x40000, { owned := List.replicate n (0, 9) })] } : State).rowRoom (homeOf 0x40000 + 1) [(0x40000, 32)] =
      decide (n < 1024) := by
  simp [State.rowRoom, rowLines, State.directory, State.slice, mapGet, mapFind, cp]

theorem rowRoom_asking (k : ReqKind) (home : Nat) : (asking k).rowRoom home [(0x40000, 32)] = true := by
  simp [State.rowRoom, rowLines, State.directory, State.slice, asking, Tests.mapped, State.reset, mapGet, mapFind]

/-- O21: the clauses' requests, in device memory and in a scratchpad. -/
theorem witness_AtomicEvents :
    (let packed := fun (low high : Bool) =>
       ({ op := 0, ty := 10, padd := true, lowDone := low, highDone := high, operand := 1 } : AtomOp)
     ∀ op ∈ [{ op := 8, ty := 3, operand := 5 }, { op := 0, ty := 3, cas := true, operand := 5, comparand := 1 }, packed false false,
        packed true false, packed false true],
      let n := if op.padd then 4 else 8
      let s := asking (.atomic (.mem 0x40000) n op [⟨7, 0⟩, ⟨8, 5⟩] 0)
      ∃ (r : Req) (t : State), s.take 5 = some (r, t) ∧ r.core < 128 ∧ r.kind = .atomic (.mem 0x40000) n op [⟨7, 0⟩, ⟨8, 5⟩] 0 ∧
        s.judge (.mem 0x40000) 0 = .apply ∧ s.poisoned 0x40000 n = false) ∧
    (∀ ty, ty = none ∨ ty = some 10 ∨ ty = some 8 →
      let k : ReqKind := .row [(0x40000, 32)] ty (List.replicate 8 1) [(7, 0, 16)] 0x06000001 9
      ∃ (r : Req) (t : State), (asking k).take 5 = some (r, t) ∧ r.kind = k ∧ (asking k).rowRoom r.slice [(0x40000, 32)] = true ∧
        ((asking k).object? 0x06000001).any (·.state == .sealed) = false ∧ (asking k).poisoned 0x40000 32 = false ∧
        ∀ x, ty = some x → 32 % rowElem x = 0) ∧
    (let k : ReqKind := .load (.spad 0 0 0xFE0) 32 7 0 false
     ∃ (r : Req) (t : State), (askingSpad k).take 5 = some (r, t) ∧ r.kind = k ∧ (askingSpad k).placePoisoned (.spad 0 0 0xFE0) 32 = false) ∧
    (let st := { st1 1 0 with at_ := .spad 0 0 0xFE0 }
     ∃ (r : Req) (t : State), (askingSpad (.store st)).take 5 = some (r, t) ∧ r.kind = .store st ∧ ((askingSpad (.store st)).region? 0 0).isSome = true ∧
       (st.bytes.map (·.1)).Nodup) ∧
    (let k : ReqKind := .arrive (.spad 0 0 0xFE0) 65535 7
     let s := askingSpad k
     ∃ (r : Req) (t : State), s.take 5 = some (r, t) ∧ r.kind = k ∧ (s.region? 0 0).isSome = true ∧ s.placePoisoned (.spad 0 0 0xFE0) 32 = false ∧
       (s.barrier 0 0 0xFE0).doneArr + 65535 ≤ (s.barrier 0 0 0xFE0).expArr) ∧
    (let k : ReqKind := .atomic (.spad 0 0 0xFF8) 8 { op := 0, ty := 3, operand := 1 } [⟨7, 0⟩] 0
     let s := askingSpad k
     ∃ (r : Req) (t : State), s.take 5 = some (r, t) ∧ r.kind = k ∧ (s.region? 0 0).isSome = true ∧ s.placePoisoned (.spad 0 0 0xFF8) 8 = false) := by
  refine ⟨?_, ?_, ⟨_, _, rfl, rfl, by decide⟩, ⟨_, _, rfl, rfl, by decide, by decide⟩,
    ⟨_, _, rfl, rfl, by decide, by decide, by decide⟩, ⟨_, _, rfl, rfl, by decide, by decide⟩⟩
  · intro packed op h
    simp only [packed, List.mem_cons, List.not_mem_nil, or_false] at h
    rcases h with rfl | rfl | rfl | rfl | rfl <;> exact ⟨_, _, rfl, by decide, rfl, rfl, rfl⟩
  · rintro ty (rfl | rfl | rfl)
    · exact ⟨_, _, rfl, rfl, rowRoom_asking _ _, rfl, rfl, by simp⟩
    · exact ⟨_, _, rfl, rfl, rowRoom_asking _ _, rfl, rfl, fun x h => by cases h; decide⟩
    · exact ⟨_, _, rfl, rfl, rowRoom_asking _ _, rfl, rfl, fun x h => by cases h; decide⟩

/-- A LIVE queue of 64 entries with so many in it. -/
def queueOf (n : Nat) : SQueue := { base := 0x50000, head := 5, tail := BitVec.ofNat 32 (5 + n), state := 1, logcap := 6 }

/-- A group whose lanes have been answered: half are served, half must wait, and one takes no part. -/
def gq : Group :=
  { g0 with threads := { asked := some (0, .skip) } ::
      (List.range 15).map fun l => { asked := some (l, if l < 7 then .served else .waits), p := 1 } }

/-- O22: a group with one place left in its table, at the last queue there is; no lane; lanes that have been answered. -/
theorem witness_QueueResults :
    let g : Group := { gm with producers := List.range 15 }
    let s := at_ g fun s => { s with squeues := [(8191, queueOf 0)] }
    let lanes := executing g 0 false 7
    Calm s 0 0 g ∧ laneGuard g false 7 [] false = none ∧ s.net = [] ∧ executing g 0 false 0 = [] ∧
    laneGuard g false 0 [] false = none ∧ (∀ l ∈ g.fragLanes 0, ∀ t, g.thread? l = some t → t.asked = none) ∧
    (∀ l t, (l, t) ∈ lanes → Within g t [single 239] ∧ t.loads < 63 ∧ t.stores < 63 ∧ 8191 ∉ t.producer) ∧
    s.queueBusy 0 8191 = false ∧ (s.squeue 8191).barred g.part = false ∧ lanes ≠ [] ∧ g.producers.length < 16 ∧
    Answered (at_ gq) 0 0 gq ∧ laneGuard gq false 0 [] false = none := by
  refine ⟨calm_of rfl rfl rfl (by decide), rfl, rfl, rfl, rfl, fun l _ t h => ?_, fun l t m => ?_, rfl, rfl, by decide, by decide,
    ⟨⟨_, _, rfl, rfl⟩, rfl, by decide, fun l _ t h => ?_, rfl⟩, rfl⟩
  · exact of_decide_eq_true (List.all_eq_true.1 (show gm.threads.all (fun t => decide (t.asked = none)) = true by decide) t
      (List.mem_of_getElem? h))
  · have h := each_lane (fun _ t => withinB { gm with producers := List.range 15 } t [single 239] &&
      decide (t.loads < 63 ∧ t.stores < 63 ∧ 8191 ∉ t.producer)) (by decide) l t m
    simp only [Bool.and_eq_true, decide_eq_true_eq] at h
    exact ⟨within_of h.1, h.2⟩
  · have h := List.all_eq_true.1 (show gq.threads.all (fun t => decide (t.vhaz = [] ∧ t.phaz = [] ∧ t.xhaz = [] ∧
      (t.asked.any fun x => x.2 == .skip || x.2 == .served || x.2 == .waits) = true)) = true by decide) t (List.mem_of_getElem? h)
    obtain ⟨h1, h2, h3, h4⟩ := of_decide_eq_true h
    obtain ⟨⟨id, st⟩, h5, h6⟩ := (Option.any_eq_true _ _).1 h4
    exact ⟨h1, h2, h3, id, st, h5, by simpa [or_assoc] using h6⟩

/-- A queue request of lane 15 at the last queue there is. -/
def queueAsk (op : Nat) (q : SQueue) : State :=
  { mapped (at_ { g0 with threads := (List.range 15).map (fun _ => {}) ++ [{ asked := some (7, .sent) }] }) with
    squeues := [(8191, q)]
    pends := [(7, { id := 7, gid := 0, lanes := [15], dest := .entry 15 0 0, data := List.replicate 4 none, wait := 1
                    pc := 0, rentry := [0], rcount := [0] })]
    net := [⟨5, 0, 127, 0, 0, .queue op 8191 [⟨0, 15, 7, 9⟩]⟩] }

/-- O23: each operation; a queue with one place left, a full one, one with an entry, an empty one and a closed one. -/
theorem witness_QueueEvents :
    (∀ op ∈ [0, 1, 2, 3], let s := queueAsk op (queueOf 1)
      ∃ (r : Req) (t : State), s.take 5 = some (r, t) ∧ r.kind = .queue op 8191 [⟨0, 15, 7, 9⟩] ∧ r.gid = 0 ∧ r.part = 0) ∧
    (∀ q ∈ [queueOf 0, queueOf 1, queueOf 63, queueOf 64, { queueOf 0 with state := 2 }],
      let s := queueAsk 1 q
      (∃ (r : Req) (t : State), s.take 5 = some (r, t) ∧ t.ringBlocked 8191 2 = false) ∧
      (∃ g, s.group? 0 = some g ∧ (g.thread? 15).map (·.asked) = some (some (7, .sent))) ∧
      (∃ p : Pend, mapFind 7 s.pends = some p ∧ p.lanes = [15]) ∧ (s.squeue 8191).barred 0 = false ∧
      (∃ s1, s.deviceWrite q.part (q.entry q.tail) (leBytes 4 9) = .ok s1) ∧
      (∃ bs, s.deviceRead q.part (q.entry q.head) 4 = .ok bs) ∧ (∃ pa, s.deviceAccess q.part (q.entry q.head) false = .ok pa) ∧
      s.poison = [] ∧ s.ports = [] ∧ q.givers = [] ∧ q.takers = []) ∧
    (queueOf 63).full = false ∧ (queueOf 64).full = true ∧ (queueOf 1).count ≠ 0 ∧ (queueOf 0).count = 0 := by
  refine ⟨?_, ?_, by decide, by decide, by decide, by decide⟩
  · intro op ho
    simp only [List.mem_cons, List.not_mem_nil, or_false] at ho
    rcases ho with rfl | rfl | rfl | rfl <;> exact ⟨_, _, rfl, rfl, rfl, rfl⟩
  · intro q hq
    simp only [List.mem_cons, List.not_mem_nil, or_false] at hq
    rcases hq with rfl | rfl | rfl | rfl | rfl <;>
      exact ⟨⟨_, _, rfl, by decide⟩, ⟨_, rfl, rfl⟩, ⟨_, rfl, rfl⟩, rfl, ok_of (by decide), ok_of (by decide), ok_of (by decide),
        rfl, rfl, rfl, rfl⟩

/-- A core with 8192 bytes of scratchpad for the block and some tiles. -/
def tiled (ts : SMap Tile) (s : State) : State :=
  { mapped s with blocks := [(0, { launchedBlock 0 with
      rid := some 0, hdr := { encD := true, vregsD := 240, spad := 8192, tiles := 2 }, regions := [{ size := 8192 }]
      tiles := [ts] })] }

/-- A group whose a4 covers the scratchpad, pointing where 4352 bytes fit last, with s8 to s11 two outlier lists: none, and
one of the whole scratchpad. -/
def gt : Group :=
  { g0 with
    a := [(3, { pointer := 0x40000, base := 0x40000, limit := 0x10000, attr := 3 }),
          (4, { pointer := 0xF00, base := 0, limit := 0x2000, attr := 0x103 })]
    s := [(9, 0x2000), (10, 0x800), (12, 63), (13, 2)] }

/-- O24: A in 64 registers, B in the scratchpad; with scales, with no outliers, and with the most there is room for. -/
theorem witness_MatrixResults :
    let s := at_ gt (tiled [(255, [])])
    let a := (128, aRun gt.width)
    let c := (8, rowRun gt.width)
    Ready s gt false 7 [a] [a] ∧ Ready s gt false 7 [a, c] [a, c] ∧ s.tile? gt 255 = some [] ∧ s.tileBusy gt 255 = false ∧
    (∀ l ∈ gt.fragLanes 0, ∀ t, gt.thread? l = some t → t.tiles < 63) ∧ (gt.region && isMeldCode gt.enc 8) = false ∧
    (∃ b, s.matB 0 gt 4 false = .ok b) ∧ (∃ b, s.matB 0 gt 4 true = .ok b) ∧ (∃ es, s.outliers gt 8 = .ok es) ∧
    ∃ es, s.outliers gt 10 = .ok es := by
  refine ⟨?_, ?_, rfl, rfl, fun l _ t h => ?_, rfl, ok_of (by decide), ok_of (by decide), ok_of (by decide), ok_of (by decide)⟩
  rotate_right
  · exact of_decide_eq_true (List.all_eq_true.1 (show gt.threads.all (fun t => decide (t.tiles < 63)) = true by decide) t
      (List.mem_of_getElem? h))
  all_goals
    exact ⟨calm_of rfl rfl rfl (by decide), rfl, by decide, fun l t m => within_of (each_lane (fun _ t => withinB _ t _) (by decide) l t m)⟩

theorem places_of {x : Except Stop (Option (List (Place × Nat))) × State}
    (h : (match x with
      | (.ok (some _), _) => true
      | _ => false) = true) : ∃ segs s1, x = (.ok (some segs), s1) := by
  split at h
  · exact ⟨_, _, rfl⟩
  · contradiction

set_option maxRecDepth 8000 in
/-- O25: a slice of the last tile; tiles in and out of the scratchpad and of memory; a store whose sectors have all left. -/
theorem witness_TileResults :
    let s := at_ gt (tiled [(0, [(4095, 1)]), (255, [])])
    let f : RForm := { rg 236 255 noIndex 12 with mx := true }
    let m := { muf 4 0x100 with size := 0 }
    let n := { muf 3 0xE000 with size := 1 }
    (Calm s 0 0 gt ∧ s.sliceOf gt f = .ok (255, 63, []) ∧ Ready s gt false 7 [(236, rowRun gt.width)] [(236, rowRun gt.width)] ∧
      ∀ l t, (l, t) ∈ executing gt 0 false 7 → t.loads < 63 ∧ t.tiles < 63) ∧
    UniReady s gt ∧ (s.tile? gt 255).isSome = true ∧ s.tileBusy gt 255 = false ∧ s.tile? gt 0 = some [(4095, 1)] ∧
    s.tileBusy gt 0 = false ∧ (m.uniAt gt).1.space = 1 ∧ (n.uniAt gt).1.space = 0 ∧ (n.uniAt gt).1.objid = 0 ∧
    (∃ segs s1, s.tilePlaces gt (m.uniAt gt).1 .read (m.uniAt gt).2 4096 = (.ok (some segs), s1)) ∧
    (∃ segs s1, s.tilePlaces gt (n.uniAt gt).1 .read (n.uniAt gt).2 8192 = (.ok (some segs), s1)) ∧
    s.checkSpad gt (m.uniAt gt).1 [1, 2] .write (m.uniAt gt).2 4096 128 = .ok (some (.spad 0 0 0x1000)) ∧
    s.lacking (.spad 0 0 0x1000) 4096 = none ∧ (s.region? 0 0).isSome = true ∧ gt.tst = none ∧
    (s.core gt.core).sq = [] ∧ (s.core gt.core).wc = [] ∧
    (∃ segs s1, s.tilePlaces gt (n.uniAt gt).1 .write (n.uniAt gt).2 8192 = (.ok (some segs), s1) ∧
      (segPieces segs 0).length ≤ 256) ∧
    (let t : TileStore := { pc := 0, segs := [(.mem 0x40000, 4096)], bytes := [], next := 128 }
     let g := { gt with tst := some t }
     UniReady (at_ g (tiled [(255, [])])) g ∧ t.pc = g.fragPc 0 ∧ t.next = (segPieces t.segs 0).length) := by
  refine ⟨⟨calm_of rfl rfl rfl (by decide), by rfl, ⟨calm_of rfl rfl rfl (by decide), rfl, by decide, fun l t m => within_of
      (each_lane (fun _ t => withinB _ t _) (by decide) l t m)⟩,
    fun l t m => of_decide_eq_true (each_lane (fun _ t => decide (t.loads < 63 ∧ t.tiles < 63)) (by decide) l t m)⟩,
    uni_of rfl rfl rfl (by decide) rfl rfl, rfl, rfl, rfl, rfl, rfl, rfl, by decide, places_of (by decide), places_of (by decide),
    spadPlace_of (by decide), rfl, rfl, rfl, rfl, rfl, ?_, uni_of rfl rfl rfl (by decide) rfl rfl, rfl, by decide⟩
  exact ⟨[(.mem 0x4E000, 8192)], _, by rfl, by decide⟩

/-- O26: the last share slot, and a slot's quarter of one's own; the first run of two that is free, and none of 254; the last
name. -/
theorem witness_TileAllotment :
    let ts : SMap Tile := [(0, []), (2, [])]
    let s := at_ gt (tiled ts)
    Calm s 0 0 gt ∧ (∀ t ∈ gt.threads, t.tiles < 63) ∧ laneGuard gt true 7 [(224, quarterRun gt.width)] false = none ∧ 224 + quarterRun gt.width ≤ gt.vregs ∧
    (let other : BShare := { bid := 1, name := 3, quarters := [none, none, none, none] }
     let mine : BShare := { bid := 0, name := 3, quarters := [none, none, none, some (0, 64)] }
     ((List.replicate 15 other).find? fun sh => sh.bid == gt.bid && sh.name == 3) = none ∧ (List.replicate 15 other).length < 16 ∧
     ((other :: [mine]).find? fun sh => sh.bid == gt.bid && sh.name == 3) = some mine ∧ 3 < mine.quarters.length ∧
     ∀ x, mine.quarters.getD 3 none = some x → x.1 = 0) ∧
    UniReady s gt ∧ s.tileNames gt = some ts ∧
    (let run := fun n b : Nat => b + n ≤ 256 ∧ ∀ i < n, mapFind (b + i) ts = none
     (1 ≤ 2 ∧ 2 ≤ s.freeTiles gt ∧ run 2 3 ∧ ∀ b' < 3, ¬ run 2 b') ∧ (254 ≤ s.freeTiles gt ∧ ∀ b, ¬ run 254 b) ∧
     s.freeTiles gt < 255) ∧
    (2 + 1 ≤ 256 ∧ ∀ i < 1, (s.tile? gt (2 + i)).isSome = true ∧ s.tileBusy gt (2 + i) = false) := by
  refine ⟨calm_of rfl rfl rfl (by decide), by decide, rfl, by decide, ⟨rfl, by decide, rfl, by decide, fun x h => by cases h; rfl⟩,
    uni_of rfl rfl rfl (by decide) rfl rfl, rfl, ⟨⟨by decide, by decide, by decide, by decide⟩, ⟨by decide, ?_⟩, by decide⟩,
    by decide, by decide⟩
  rintro b ⟨h1, h2⟩
  have : b ≤ 2 := by omega
  have h0 := h2 (2 - b) (by omega)
  rw [Nat.add_sub_cancel' this] at h0
  contradiction

theorem futures_of {s : State} {g : Group} (hc : s.cur = some (0, { frags := [(0, 0)] })) (hg : s.group? 0 = some g)
    (hr : s.residue = 0) (h1 : g.fragLanes 0 ≠ []) (h : (g.threads.all fun t => settledB { t with fut := [] }) = true) :
    Futures s 0 0 g :=
  ⟨⟨0, _, hc, rfl⟩, hg, h1, fun _ _ t ht => settled_of (List.all_eq_true.1 h t (List.mem_of_getElem? ht)), hr⟩

/-- A group whose lanes hold a handle in v239 that is pending. -/
def gf : Group := { g0 with threads := (List.range 16).map fun _ => { fut := [(239, .pending 0 511 1)] } }

/-- O27: a register with a pending handle and one without. -/
theorem witness_FutureResults :
    Futures (at_ gf) 0 0 gf ∧ laneGuard gf false 7 [] false = none ∧
    (∀ l t, (l, t) ∈ executing gf 0 false 7 → Within gf t [single 239] ∧ Within gf t [single 238] ∧
      tagOf gf t 238 = none ∧ tagOf gf t 239 ≠ some .faulted ∧ (tagOf gf t 239).isSome = true) := by
  refine ⟨futures_of rfl rfl rfl (by decide) (by decide), rfl, fun l t m => ?_⟩
  have h := each_lane (fun _ t => withinB gf t [single 239] && withinB gf t [single 238] && decide (tagOf gf t 238 = none) &&
    decide (tagOf gf t 239 ≠ some .faulted) && (tagOf gf t 239).isSome) (by decide) l t m
  simp only [Bool.and_eq_true, decide_eq_true_eq] at h
  exact ⟨within_of h.1.1.1.1, within_of h.1.1.1.2, h.1.1.2, h.1.2, h.2⟩

/-- A group that describes a copy of 32 bytes into the last bytes of a scratchpad, to the gang positions of a mask. -/
def gc (mask : Word) : Group :=
  { g0 with
    a := [(3, { pointer := 0x4FFE0, base := 0x40000, limit := 0x10000, attr := 3 }),
          (4, { pointer := 0xFE0, base := 0, limit := 0x1000, attr := 0x103 }),
          (5, { pointer := 0xFE0, base := 0, limit := 0x1000, attr := 0x203 })]
    s := [(16, 32), (17, 1), (18, 1), (23, 0xFFFFFFFF)] ++ if mask = 0 then [] else [(24, mask)] }

/-- The lanes' copies pass their checks, to somebody or to nobody. -/
def copiesB (s : State) (g : Group) (f : RForm) (k : CopyKind) (nobody : Bool) : Bool :=
  (executing g 0 false 7).all fun x => withinB g x.2 (single f.d :: if f.b = noIndex then [] else [(f.b.toNat, 2)]) &&
    decide (x.2.copies < 63) && let c := laneCopy f k s g x.2
    (s.checkCopy g k c.1 c.2.1 c.2.2.1 c.2.2.2).isNone && (c.2.2.2.receivers.isEmpty == nobody)

/-- The hypotheses of a copy. -/
def Copies (mask : Word) (f : RForm) (k : CopyKind) (nobody : Bool) : Prop :=
  let g := gc mask
  let s := at_ g fun s => spadded (mapped s)
  let runs := if f.b = noIndex then [] else [(f.b.toNat, 2)]
  Calm s 0 0 g ∧ g.Quiet ∧ s.drained g.core 0 = true ∧ laneGuard g false 7 runs false = none ∧
  (∀ l t, (l, t) ∈ executing g 0 false 7 → Within g t (single f.d :: runs) ∧ t.copies < 63) ∧
  CopyRoom s g.core (executing g 0 false 7).length ∧
  (∀ l t, (l, t) ∈ executing g 0 false 7 → s.checkCopy g k (laneCopy f k s g t).1 (laneCopy f k s g t).2.1 (laneCopy f k s g t).2.2.1
    (laneCopy f k s g t).2.2.2 = none ∧ (laneCopy f k s g t).2.2.2.receivers.isEmpty = nobody)

theorem copies_of {mask : Word} {f : RForm} {k : CopyKind} {nobody : Bool} (hm : calmB (gc mask) = true)
    (hg : laneGuard (gc mask) false 7 (if f.b = noIndex then [] else [(f.b.toNat, 2)]) false = none)
    (hr : CopyRoom (at_ (gc mask) fun s => spadded (mapped s)) 0 (executing (gc mask) 0 false 7).length)
    (h : copiesB (at_ (gc mask) fun s => spadded (mapped s)) (gc mask) f k nobody = true) : Copies mask f k nobody := by
  refine ⟨calm_of rfl rfl rfl hm, ⟨rfl, rfl⟩, rfl, hg, fun l t m => ?_, hr, fun l t m => ?_⟩ <;>
    have h := List.all_eq_true.1 h _ m <;>
    simp only [Bool.and_eq_true, beq_iff_eq, Option.isNone_iff_eq_none, decide_eq_true_eq] at h
  · exact ⟨within_of h.1.1, h.1.2⟩
  · exact h.2

set_option maxRecDepth 8000 in
/-- O28: a copy into the own scratchpad, one multicast to the last position and to none, one to a peer by indices. -/
theorem witness_CopyResults :
    Copies 0 (rg 239 (BitVec.ofNat 10 0x34) noIndex 16) .plain false ∧ Copies 1 (rg 239 (BitVec.ofNat 10 0x35) noIndex 16) .multi false ∧
    Copies 0 (rg 239 (BitVec.ofNat 10 0x35) noIndex 16) .multi true ∧ Copies 0 (rg 239 (BitVec.ofNat 10 0x35) 236 16) .peer false :=
  ⟨copies_of (by decide) (by decide) ⟨by decide, by decide⟩ (by decide), copies_of (by decide) (by decide) ⟨by decide, by decide⟩ (by decide),
    copies_of (by decide) (by decide) ⟨by decide, by decide⟩ (by decide), copies_of (by decide) (by decide) ⟨by decide, by decide⟩ (by decide)⟩

theorem homeOf_lt (pa : Nat) : homeOf pa < 128 := by
  unfold homeOf
  split
  · next k h =>
    have : k < 4 := by
      unfold paKind at h
      repeat' split at h
      all_goals try contradiction
      · cases h; omega
    omega
  · omega

theorem linesTaken_of {s : State} {id : Nat} {ls : List Nat} (h : ∀ k, (s.slice k).owned = []) : s.linesTaken id ls = false := by
  simp [State.linesTaken, h]

def copying (c : Copy) (f : State → State := id) : State :=
  f { spadded (mapped State.reset) with copies := [(9, c)], groups := [(0, g0)] }

theorem slice_owning (st : ObjState) (s : State) (k : Nat) : ((owning st s).slice k).owned = [] := by
  simp only [State.slice, owning, mapGet, mapFind]
  split <;> rfl

/-- O29: a destination that is sealed, and one that is free. -/
theorem witness_CopyEvents_object :
    (let c := cp 0 0x06000001 0 true false
     let s := copying c (owning .sealed)
     mapFind 9 s.copies = some c ∧ c.dstSpace = 0 ∧ c.owns = false ∧ c.obj ≠ 0 ∧ s.object? c.obj = some (obj1 .sealed) ∧
       (obj1 .sealed).visible c.part = true ∧ (obj1 .sealed).state = .sealed) ∧
    (let c := cp 0 0x06000001 0 true false
     let s := copying c (owning .idle)
     mapFind 9 s.copies = some c ∧ s.object? c.obj = some (obj1 .idle) ∧ (obj1 .idle).visible c.part = true ∧
       (obj1 .idle).state = .idle ∧ (obj1 .idle).owner = none ∧ (obj1 .idle).closing = none ∧
       (s.destLines c (c.linesFrom 0)).2.linesTaken 9 (s.destLines c (c.linesFrom 0)).1 = false) := by
  refine ⟨⟨rfl, rfl, rfl, by decide, by decide, rfl, rfl⟩, rfl, by decide, rfl, rfl, rfl, rfl, linesTaken_of fun k => ?_⟩
  have : (((copying (cp 0 0x06000001 0 true false) (owning .idle)).destLines (cp 0 0x06000001 0 true false)
      ((cp 0 0x06000001 0 true false).linesFrom 0)).2).slices = (owning .idle State.reset).slices := by rfl
  rw [State.slice, this]
  exact slice_owning .idle State.reset k

/-- The plain copy to device memory and the one line that it writes. -/
abbrev plain : Copy := cp 0 0 0 true false
def plainLine : Nat := 0x40FE0 / 128

/-- The line's home holds it for the copy. -/
def allHold (s : State) : State := { s with slices := [(homeOf (128 * plainLine), { owned := [(plainLine, 9)] })] }

/-- O29: a plain copy whose line is held, and one whose line is yet to ask for. -/
theorem witness_CopyEvents_plain :
    let missing := fun (s : State) (k : Nat) => (s.destLines plain (plain.linesFrom 0)).1.filter fun l =>
      homeOf (128 * l) == k && !(s.slice k).holds l 9
    plain.dstSpace = 0 ∧ plain.owns = false ∧ plain.obj = 0 ∧
    (let s := copying plain allHold
     mapFind 9 s.copies = some plain ∧ ∀ k, missing s k = []) ∧
    (let s := copying plain
     let k := homeOf (128 * plainLine)
     mapFind 9 s.copies = some plain ∧ k < 128 ∧ missing s k ≠ [] ∧ (∀ j < k, missing s j = []) ∧
       (s.destLines plain (plain.linesFrom 0)).2.linesTaken 9 (missing s k) = false ∧
       s.directory k + (missing s k).length ≤ 1024) := by
  have h1 : ((copying plain allHold).destLines plain (plain.linesFrom 0)).1 = [plainLine] := by rfl
  have h2 : ((copying plain).destLines plain (plain.linesFrom 0)).1 = [plainLine] := by rfl
  have h3 : ((copying plain).destLines plain (plain.linesFrom 0)).2.slices = [] := by rfl
  have h4 : (copying plain).slices = [] := by rfl
  refine ⟨rfl, rfl, rfl, ⟨rfl, fun k => ?_⟩, rfl, homeOf_lt _, ?_, fun j hj => ?_, linesTaken_of fun k => ?_, ?_⟩
  · simp only [h1, List.filter_cons, List.filter_nil]
    by_cases e : homeOf (128 * plainLine) = k
    · have : ((copying plain allHold).slice k).holds plainLine 9 = true := by
        rw [State.slice, show (copying plain allHold).slices = [(homeOf (128 * plainLine), { owned := [(plainLine, 9)] })] from rfl,
          mapGet, mapFind, if_pos e.symm]
        rfl
      simp [this]
    · simp [e]
  · simp [h2, State.slice, h4, mapGet, mapFind, Slice.holds]
  · have : homeOf (128 * plainLine) ≠ j := by omega
    simp [h2, this]
  · simp [State.slice, h3, mapGet, mapFind]
  · simp only [h2]
    have : (copying plain).directory (homeOf (128 * plainLine)) = 0 := by simp [State.directory, State.slice, h4, mapGet, mapFind]
    have := List.length_filter_le (fun l => homeOf (128 * l) == homeOf (128 * plainLine) &&
      !((copying plain).slice (homeOf (128 * plainLine))).holds l 9) [plainLine]
    simp only [List.length_singleton] at this
    omega

/-- O29: a receiver that is yet to be cleared; source bytes to read; the last bytes of each kind of destination, and bytes next
to the copy's barrier object; a copy that is done. -/
theorem witness_CopyEvents_transfer :
    (let c := cp 1 0 0 false true
     let s := copying c
     mapFind 9 s.copies = some c ∧ (∃ r : Receiver, c.receivers[0]? = some r ∧ r.cleared = false ∧ r.dropped = false) ∧ c.dstSpace ≠ 0) ∧
    (let c := { cp 1 0 0 true true with readTo := 31 }
     let s := copying c
     mapFind 9 s.copies = some c ∧ c.srcSpace = 1 ∧ c.failed = false ∧ c.readTo < c.total ∧ s.corrected = 0) ∧
    (let c := cp 1 0 0 true true
     let s := copying c
     ∃ r : Receiver, c.receivers[0]? = some r ∧ mapFind 9 s.copies = some c ∧ r.dropped = false ∧ r.done < c.total ∧ c.failed = false ∧
       c.bad = [] ∧ c.ecc = [] ∧ r.done + c.chunk r.done (c.dstAt r.done) ≤ c.readTo ∧ c.dstSpace ≠ 0 ∧ r.cleared = true ∧
       c.bar = none ∧ (s.region? r.bid r.idx).isSome = true) ∧
    (let c := { cp 1 0 0 true true with bar := some (0xFE0 - 20) }
     mapFind 9 (copying c).copies = some c ∧ c.status = 0 ∧ ((copying c).region? 0 0).isSome = true ∧ (c.dstAt 0).toNat = 0xFE0) ∧
    (let c := cp 0 0 0 true true
     let s := copying c
     ∃ r : Receiver, c.receivers[0]? = some r ∧ mapFind 9 s.copies = some c ∧ r.dropped = false ∧ r.done < c.total ∧ c.failed = false ∧
       c.bad = [] ∧ c.ecc = [] ∧ r.done + c.chunk r.done (c.dstAt r.done) ≤ c.readTo ∧ c.dstSpace = 0 ∧ c.owns = true ∧
       ∃ pa, (s.engineAccess c 0 c.obj (c.dstAt r.done) (c.chunk r.done (c.dstAt r.done)) true).1 = .ok pa ∧
         s.linesTaken 9 [pa / 128] = false ∧ s.sealedLine pa = none) ∧
    (let c := cp 0 0 32 true true
     mapFind 9 (copying c).copies = some c ∧ (c.receivers.all fun r => r.dropped || c.total ≤ r.done) = true) := by
  obtain ⟨pa, h⟩ := ok_of (show isOk ((copying (cp 0 0 0 true true)).engineAccess (cp 0 0 0 true true) 0 0 0x40FE0 32 true).1 = true
    by decide)
  refine ⟨⟨rfl, ⟨⟨0, 0, 0, false, 0, false⟩, rfl, rfl, rfl⟩, by decide⟩, ⟨rfl, rfl, rfl, by decide, rfl⟩,
    ⟨⟨0, 0, 0, false, 0, true⟩, rfl, rfl, rfl, by decide, rfl, rfl, rfl, by decide, by decide, rfl, rfl, rfl⟩,
    ⟨rfl, rfl, rfl, by decide⟩, ⟨⟨0, 0, 0, false, 0, true⟩, rfl, rfl, rfl, by decide, rfl, rfl, rfl, by decide, rfl, rfl, pa, h, linesTaken_of fun k => ?_, rfl⟩,
    rfl, by decide⟩
  simp [State.slice, show (copying (cp 0 0 0 true true)).slices = [] from rfl, mapGet, mapFind]

/-- A lane that names object, address or grid in v236 and v237 and one row in v238. -/
def askLane : Thread := { v := [(236, 0x06000001), (238, 1)] }
def gi : Group := { g0 with threads := List.replicate 16 askLane }

set_option maxRecDepth 4000 in
/-- O30: each form of name. -/
theorem witness_InspectResults :
    let s := at_ gi fun s => owning .idle (mapped s)
    Calm s 0 0 gi ∧ Coherent s gi.core gi.part ∧ s.inspects = [] ∧
    (∀ form : Fin 7, let f := rg 239 236 (if form = 4 then 238 else noIndex) (BitVec.ofNat 10 (16 + form))
      laneGuard gi false 7 (inspectShape f).runs false = none ∧ ∃ (ask : Nat → Ask) (w : Nat → Aim),
        (∀ l t, (l, t) ∈ executing gi 0 false 7 → (s.uncached.aim 0 gi (ask l)).1 = .ok (w l)) ∧
        (∀ l t, (l, t) ∈ executing gi 0 false 7 → askOperands s gi t f false = .ok ([], ask l)) ∧
        ∀ l t, (l, t) ∈ executing gi 0 false 7 → askOperands s gi t f true = .ok ([regOf gi t f.d], ask l)) ∧
    (executing gi 0 false 7).length ≤ ((List.range 512).filter fun k => !(s.core gi.core).futures.contains k).length := by
  have same : ∀ l t, (l, t) ∈ executing gi 0 false 7 → t = askLane := fun l t m =>
    of_decide_eq_true (each_lane (fun _ t => decide (t = askLane)) (by decide) l t m)
  refine ⟨calm_of rfl rfl rfl (by decide), coherent_of rfl rfl, rfl, fun form => ?_, by decide⟩
  let s := at_ gi fun s => owning .idle (mapped s)
  let f := rg 239 236 (if form = 4 then 238 else noIndex) (BitVec.ofNat 10 (16 + form))
  have h : ∀ form : Fin 7, let f := rg 239 236 (if form = 4 then 238 else noIndex) (BitVec.ofNat 10 (16 + form))
      laneGuard gi false 7 (inspectShape f).runs false = none ∧ (match askOperands s gi askLane f false with
        | .ok (rs, a) => rs == [] && isOk (s.uncached.aim 0 gi a).1 && (match askOperands s gi askLane f true with
          | .ok (rs, b) => rs == [regOf gi askLane f.d] && decide (b = a)
          | .error _ => false)
        | .error _ => false) = true := by decide
  obtain ⟨h1, h⟩ := h form
  refine ⟨h1, ?_⟩
  revert h
  generalize hx : askOperands s gi askLane f false = x
  generalize hy : askOperands s gi askLane f true = y
  intro h
  split at h
  · next rs a =>
    simp only [Bool.and_eq_true, beq_iff_eq] at h
    obtain ⟨⟨rfl, h2⟩, h⟩ := h
    split at h
    · next rs' b =>
      simp only [Bool.and_eq_true, beq_iff_eq, decide_eq_true_eq] at h
      obtain ⟨rfl, rfl⟩ := h
      obtain ⟨w, hw⟩ := ok_of h2
      exact ⟨fun _ => b, fun _ => w, fun _ _ _ => hw, fun l t m => by rw [same l t m]; exact hx,
        fun l t m => by rw [same l t m]; exact hy⟩
    · contradiction
  · contradiction

/-- An inspect request of an object, of a scope. -/
def ask1 (scope : Nat) (snapped : Bool) (targets : List Nat) (handles : List (Nat × Nat)) (pends : List Nat) : Inspect :=
  { core := some 0, gid := 0, part := 0, form := 3, scope := scope, lo := 0x06000001, hi := 0, slice := some 3, snapped := snapped
    targets := targets, handles := handles, pends := pends }

/-- O31: a request on its way to its snapshot; one at the last core, whose queue of requests has one place left, with an entry
and a line that it covers, and where the core must wait; one that is done with a handle, and with a lane waiting. -/
theorem witness_InspectEvents :
    (let s : State := { State.reset with
       inspects := [(9, { ask1 2 false [] [] [] with req := some 5 })], net := [⟨5, 0, 3, 0, 0, .inspect 9⟩] }
     ∃ (x : Inspect) (m : State), mapFind 9 s.inspects = some x ∧ x.slice = some 3 ∧ x.snapped = false ∧ s.takeInspect 9 x = some m) ∧
    (∀ scope, scope = 0 ∨ scope = 2 →
     let e := { st1 2 0x40020 with obj := 0x06000001 }
     let w := { st1 3 0x40080 with obj := 0x06000001 }
     let s : State := { State.reset with
       inspects := [(9, ask1 scope true [127] [] [])], cores := [(127, { insq := List.range 15, sq := [e], wc := [w] })] }
     ∃ x : Inspect, mapFind 9 s.inspects = some x ∧ 127 ∈ x.targets ∧ (s.core 127).insq.length < 16 ∧ s.takeInspect 9 x = some s ∧
       s.unready x 127 = false ∧ (∀ z ∈ [e, w], s.covers x z = true ∧ s.pushes x z = true ∧ s.entryWaits z = false ∧ z.sent = false) ∧
       (s.core 127).wt.length + (s.core 127).sq.length ≤ 128 ∧ (mapKeys s.inspects).Nodup ∧ e.at_.cached = true ∧
       s.placeBlocked e.at_ 32 = false ∧ w.at_ ≠ e.at_.line) ∧
    (let t : TileStore := { pc := 0, segs := [], bytes := [], next := 0 }
     let s : State := { State.reset with
       inspects := [(9, ask1 2 true [0] [] [])], groups := [(0, { g0 with tst := some t })] }
     ∃ x : Inspect, mapFind 9 s.inspects = some x ∧ 0 ∈ x.targets ∧ s.takeInspect 9 x = some s ∧ s.unready x 0 = true) ∧
    (let s : State := { State.reset with inspects := [(9, ask1 2 true [] [(511, 1)] [])] }
     ∃ x : Inspect, mapFind 9 s.inspects = some x ∧ x.core = some 0 ∧ x.targets = [] ∧ x.pushing = [] ∧ x.snapped = true ∧ x.peer = none ∧
       s.parts = [] ∧ x.pends = []) ∧
    (let g : Group := { g0 with threads := [{ st := .parked (.answer 7) }] }
     let q : Pend := { id := 7, gid := 0, lanes := [0], dest := .answer, wait := 1, pc := 0, rentry := [0], rcount := [0] }
     let s := at_ g fun s => { s with inspects := [(9, ask1 2 true [] [] [7])], pends := [(7, q)] }
     ∃ (x : Inspect) (th : Thread), mapFind 9 s.inspects = some x ∧ x.core = some 0 ∧ x.targets = [] ∧ x.pushing = [] ∧ x.snapped = true ∧
       x.peer = none ∧ s.parts = [] ∧ x.pends = [7] ∧ x.handles = [] ∧ mapFind 7 s.pends = some q ∧ s.thread? q.gid 0 = some th ∧
       th.trap = none ∧ th.st.parkedOn = some (.answer 7)) := by
  refine ⟨⟨_, _, rfl, rfl, rfl, rfl⟩, ?_, ⟨_, rfl, by decide, rfl, rfl⟩, ⟨_, rfl, rfl, rfl, rfl, rfl, rfl, rfl, rfl⟩,
    ⟨_, _, rfl, rfl, rfl, rfl, rfl, rfl, rfl, rfl, rfl, rfl, rfl, rfl, rfl⟩⟩
  rintro scope (rfl | rfl) <;>
    exact ⟨_, rfl, by decide, by decide, rfl, rfl, by decide, by decide, by decide, rfl, rfl, by decide⟩

/-- O32: the C field either way, at the last selector of each. -/
theorem witness_CounterResults :
    let g : Group := { g0 with s := [(0, 63), (1, 3)] }
    UniReady (at_ g) g ∧ (mapGet 0 g.s 0).toNat % 64 = 63 ∧ (mapGet 0 g.s 1).toNat % 4 = 3 ∧ (0 : BitVec 10) ≠ 1 :=
  ⟨uni_of rfl rfl rfl (by decide) rfl rfl, rfl, rfl, by decide⟩

/-- A device whose memory holds, at 0x40000, a shape record of one line at 0x80000. -/
def recorded (s : State) : State :=
  { mapped s with mem := [(0x10000, 1), (0x10002, 2), (0x20000, 0x1F), (0x40002, 8), (0x40008, 0x80)] }

/-- A group whose a3 points at a shape record and whose s8 and s9 name objects. -/
def go : Group :=
  { gm with s := [(8, 0x06000001), (9, 0x06000002)] }

/-- ODECL's record is read and its base translated. -/
def declB (s : State) (g : Group) (a : AddrReg) (ea : DWord) (good : Bool) : Bool :=
  (s.checkReg g a [0] .read ea 64).isNone && match s.checkAccess g a .read ea 64 64 with
    | (.ok pa, s1) => match s1.readNow 0 g .strong (.mem pa) 64 with
      | some (.ok bs, s2) => ((ShapeRecord.ofBytes bs).ok == good) &&
          isOk (s2.checkGlobal g {} .read (BitVec.ofNat 64 (ShapeRecord.ofBytes bs).base) 1).1
      | _ => false
    | _ => false

theorem decl_of {s : State} {g : Group} {a : AddrReg} {ea : DWord} {good : Bool} (h : declB s g a ea good = true) :
    s.checkReg g a [0] .read ea 64 = none ∧ ∃ pa bs s2 at_, (s.checkAccess g a .read ea 64 64).1 = .ok pa ∧
      (s.checkAccess g a .read ea 64 64).2.readNow 0 g .strong (.mem pa) 64 = some (.ok bs, s2) ∧
      (s2.checkGlobal g {} .read (BitVec.ofNat 64 (ShapeRecord.ofBytes bs).base) 1).1 = .ok at_ ∧
      (ShapeRecord.ofBytes bs).ok = good := by
  simp only [declB, Bool.and_eq_true, Option.isNone_iff_eq_none] at h
  refine ⟨h.1, ?_⟩
  have h := h.2
  split at h
  · next pa s1 h1 =>
    split at h
    · next bs s2 h2 =>
      simp only [Bool.and_eq_true, beq_iff_eq] at h
      obtain ⟨at_, h3⟩ := ok_of h.2
      exact ⟨pa, bs, s2, at_, by rw [h1], by rw [h1]; exact h2, h3, h.1⟩
    · contradiction
  · contradiction

/-- A table of n entries from a key on lists each of them. -/
theorem mapFind_run {α : Type} (x : α) (i n a : Nat) (h : a ≤ i ∧ i < a + n) :
    mapFind i ((List.range' a n).map fun k => (k, x)) = some x := by
  induction n generalizing a with
  | zero => omega
  | succ n ih =>
    rw [List.range'_succ, List.map_cons, mapFind]
    split
    · rfl
    · exact ih (a + 1) (by omega)

/-- The device with the record, whatever tables its slices hold. -/
def recordedWith (x : SMap Slice) : State := { at_ go recorded with slices := x }

/-- O33: ODECL of a record that breaks the rules, and of one that keeps them, where the base's slice has room and where it has
none. -/
theorem witness_ObjectResults_declare :
    let f := { muf 3 0 with d := 10 }
    let a := (f.uniAt go).1
    let ea := (f.uniAt go).2
    (let s := at_ go mapped
     UniReady s go ∧ s.checkReg go a [0] .read ea 64 = none ∧ ∃ pa bs s2 at_, (s.checkAccess go a .read ea 64 64).1 = .ok pa ∧
       (s.checkAccess go a .read ea 64 64).2.readNow 0 go .strong (.mem pa) 64 = some (.ok bs, s2) ∧
       (s2.checkGlobal go {} .read (BitVec.ofNat 64 (ShapeRecord.ofBytes bs).base) 1).1 = .ok at_ ∧
       (ShapeRecord.ofBytes bs).ok = false) ∧
    ∀ room : Bool, ∃ x, let s := recordedWith x
     UniReady s go ∧ s.checkReg go a [0] .read ea 64 = none ∧ ∃ pa bs s2 at_, (s.checkAccess go a .read ea 64 64).1 = .ok pa ∧
       (s.checkAccess go a .read ea 64 64).2.readNow 0 go .strong (.mem pa) 64 = some (.ok bs, s2) ∧
       (s2.checkGlobal go {} .read (BitVec.ofNat 64 (ShapeRecord.ofBytes bs).base) 1).1 = .ok at_ ∧
       (ShapeRecord.ofBytes bs).ok = true ∧
       (((List.range 4096).filter fun i => (mapFind i (s.slice (homeOf at_)).objects).isNone) = [] ↔ room = false) := by
  refine ⟨⟨uni_of rfl rfl rfl (by decide) rfl rfl, decl_of (by decide)⟩, fun room => ?_⟩
  refine ⟨if room then [] else [(homeOf 0x80000, { objects := (List.range' 0 4096).map fun k => (k, obj1 .idle) })],
    uni_of rfl rfl rfl (by decide) rfl rfl, rfl, ?_⟩
  have owned : ∀ k, (mapGet {} (if room then [] else [(homeOf 0x80000,
      ({ objects := (List.range' 0 4096).map fun k => (k, obj1 .idle) } : Slice))]) k).owned = [] := by
    intro k
    cases room
    · simp only [mapGet, mapFind, Bool.false_eq_true, if_false]
      split <;> rfl
    · rfl
  generalize hx : (if room then [] else [(homeOf 0x80000,
      ({ objects := (List.range' 0 4096).map fun k => (k, obj1 .idle) } : Slice))]) = x at owned
  have hw : (recordedWith x).walk 0 0x40000 = some ⟨0, 4, 0x40000, true, true, true, 16384⟩ :=
    (show (at_ go recorded).walk 0 0x40000 = _ by decide)
  have hc : ((tlbFind 0 4 ((recordedWith x).core 0).tlb).orElse fun _ => tlbFind 0 4 (mapGet [] (recordedWith x).stlb 0)) = none := rfl
  let m := (recordedWith x).tlbFill 0 ⟨0, 4, 0x40000, true, true, true, 16384⟩
  have ht : (recordedWith x).translate 0 0 0x40000 = (some ⟨0, 4, 0x40000, true, true, true, 16384⟩, m) := by
    unfold State.translate
    simp only [show 0x40000 / 65536 = 4 from rfl, Nat.zero_div, hc, hw, m]
  have h1 : (recordedWith x).checkAccess go { pointer := 0x40000, base := 0x40000, limit := 0x10000, attr := 3 } .read 0x40000 64 64 =
      (.ok 0x40000, m) := by
    rw [State.checkAccess, if_neg (by decide), State.checkGlobal, State.checkPage, if_neg (by decide), show go.core = 0 from rfl,
      show go.part = 0 from rfl, show (0x40000 : DWord).toNat = 0x40000 from rfl, ht]
    rfl
  have none_ : ∀ pl, ((m.core 0).forwarded 0 (Order.strong == .weak) pl) = none := fun pl => by
    rw [Core.forwarded, show (m.core 0).entries = [] from rfl]
    rfl
  have piece : ∀ (pl : Place) (off : Nat), m.findPiece 0 0 .strong pl off 32 = ({ data := List.replicate 32 none, missing := true }, m) :=
    fun pl off => by
      simp only [State.findPiece, none_]
      rfl
  have h2 : m.findAll 0 0 .strong (pieces (.mem 0x40000) 64) = ((List.replicate 64 none,
      [(.mem 0x40000, 32, 0), (.mem 0x40020, 32, 32)], [], none), m) := by
    rw [show pieces (.mem 0x40000) 64 = [(.mem 0x40000, 0, 0, 32), (.mem 0x40020, 0, 32, 32)] by decide]
    simp only [State.findAll, piece]
    rfl
  have h3 : ∀ pa n, m.placeBlocked (.mem pa) n = false := by
    intro pa n
    have : ∀ k, (m.slice k).owned = [] := fun k => owned k
    have idle : ∀ a, m.inOwned a = false := fun a => by
      rw [State.inOwned, show m.slices = x from rfl, ← hx]
      cases room <;> simp [obj1]
    simp [State.placeBlocked, this, idle]
  have h4 : m.readNow 0 go .strong (.mem 0x40000) 64 = some (.ok ([0, 0, 8, 0, 0, 0, 0, 0, 0x80] ++ List.replicate 55 0), m) := by
    rw [State.readNow, show go.core = 0 from rfl,
      show (m.readSpad (.mem 0x40000) 64).readStored 0 0 (pieces (.mem 0x40000) 64) = m from rfl, h2]
    simp only [List.any_cons, h3, List.any_nil, Bool.or_self, Bool.false_eq_true, if_false]
    rfl
  have hw2 : m.walk 0 0x80000 = some ⟨0, 8, 0x80000, true, true, true, 16384⟩ := (show (at_ go recorded).walk 0 0x80000 = _ by decide)
  have hc2 : ((tlbFind 0 8 (m.core 0).tlb).orElse fun _ => tlbFind 0 8 (mapGet [] m.stlb 0)) = none := rfl
  have h5 : (m.checkGlobal go {} .read 0x80000 1).1 = .ok 0x80000 := by
    rw [State.checkGlobal, State.checkPage, if_neg (by decide), show go.core = 0 from rfl, show go.part = 0 from rfl,
      show (0x80000 : DWord).toNat = 0x80000 from rfl, State.translate]
    simp only [show 0x80000 / 65536 = 8 from rfl, Nat.zero_div, hc2, hw2]
    rfl
  refine ⟨0x40000, _, m, 0x80000, congrArg Prod.fst h1, (congrArg (fun y => y.2.readNow 0 go .strong (.mem 0x40000) 64) h1).trans h4,
    (by rw [show BitVec.ofNat 64 (ShapeRecord.ofBytes ([0, 0, 8, 0, 0, 0, 0, 0, 0x80] ++ List.replicate 55 0)).base = 0x80000 by decide]
        exact h5), by decide, ?_⟩
  rw [show (recordedWith x).slice (homeOf 0x80000) = mapGet {} x (homeOf 0x80000) from rfl, ← hx]
  cases room
  · simp only [Bool.false_eq_true, if_false, iff_true, mapGet, mapFind, if_pos, Option.getD_some, List.filter_eq_nil_iff]
    intro i hi
    rw [mapFind_run _ i 4096 0 ⟨by omega, by simpa using hi⟩]
    simp
  · simp only [if_true, Bool.true_eq_false, iff_false]
    exact List.ne_nil_of_mem (List.mem_filter.2 ⟨List.mem_range.2 (by omega), rfl⟩ : 0 ∈ _)

/-- O33: a missing object; a sealed one; one that may be sealed, with no store on its way. -/
theorem witness_ObjectResults_change :
    let own := fun (s : State) (id : Word) => (s.object? id).filter (·.part == go.part)
    (let s := at_ go (owning .sealed)
     UniReady s go ∧ (own s (mapGet 0 go.s 9)).filter (·.sealable) = none ∧ (own s (mapGet 0 go.s 9)).filter (·.state == .sealed) = none ∧
       own s (mapGet 0 go.s 9) = none ∧ own s (mapGet 0 go.s 8) = some (obj1 .sealed) ∧ (obj1 .sealed).sealable = true ∧
       (obj1 .sealed).state = .sealed ∧ (obj1 .sealed).owner = none ∧ Homed s (mapGet 0 go.s 8)) ∧
    (let s := at_ go (owning .idle)
     UniReady s go ∧ own s (mapGet 0 go.s 8) = some (obj1 .idle) ∧ (obj1 .idle).sealable = true ∧ (obj1 .idle).state ≠ .sealed ∧
       (obj1 .idle).owner = none ∧ Homed s (mapGet 0 go.s 8)) := by
  have homed : ∀ (st : ObjState) (id : Word), Homed (at_ go (owning st)) id := by
    intro st id c e h
    exact absurd h (by simp [State.core, at_, owning, State.reset, mapGet, mapFind, Core.entries])
  exact ⟨⟨uni_of rfl rfl rfl (by decide) rfl rfl, by decide, by decide, by decide, by decide, rfl, rfl, rfl, homed _ _⟩,
    uni_of rfl rfl rfl (by decide) rfl rfl, by decide, rfl, by decide, rfl, homed _ _⟩

/-- O34: a range of no bytes; one line, where the partition may pin a way and where it may pin none; code. -/
theorem witness_PinAndCodeResults :
    let g : Group := { gm with
      a := [(3, { pointer := 0x40000, base := 0x40000, limit := 0x10000, attr := 7 })], s := [(8, 128)] }
    let ways := fun (w : Word) => at_ g fun s => { mapped s with parts := [(0, { ctl := 0x51401, ptroot := 0x10000, ways := w })] }
    let a := mapGet {} g.a 3
    (mapGet 0 g.s 9).toNat = 0 ∧ (mapGet 0 g.s 8).toNat ≠ 0 ∧
    ∀ w, w = 0x0001FFFF ∨ w = 0x0000FFFF → UniReady (ways w) g ∧ (ways w).checkReg g a [0] .read a.pointer 128 = none ∧
      (ways w).checkReg g a [0] .fetch a.pointer 128 = none ∧
      ∃ segs, ((ways w).rangeSegs g a .read (128 / 65536 + 2) a.pointer.toNat 128).1 = .ok segs ∧
        (ways w).pinFits g.part (segLines segs) = (w == 0x0001FFFF) := by
  refine ⟨rfl, by decide, ?_⟩
  rintro w (rfl | rfl) <;>
    refine ⟨uni_of rfl rfl rfl (by decide) rfl rfl, rfl, rfl, [(0x40000, 128)], by rfl, ?_⟩ <;>
    rw [show segLines [(0x40000, 128)] = [0x800] by decide] <;>
    simp [State.pinFits, State.slice, at_, mapped, State.reset, mapGet, mapFind, Slice.pinned, Slice.pinsOf, setAdd, State.part,
      Partition.pinways, gm, g0, launchedGroup]

/-- A partition with core set 0 and launch queue 63; its record at 0x40000 of one block of sixteen threads names the kernel at
0x50000, of width 16, eight registers and the D-core text at 0x60000; its kernel is also its handler; 0x48000 holds a record
that names no kernel. -/
def launching (s : State) : State :=
  { s with
    mem := [(0x10000, 1), (0x10002, 2), (0x20000, 0x1F),
            (0x40002, 5), (0x40014, 1), (0x40018, 1), (0x4001C, 1), (0x40020, 16), (0x40024, 1), (0x40025, 1), (0x40028, 63),
            (0x48028, 0xFF), (0x50000, 0x40), (0x50001, 0x40), (0x50002, 1), (0x50012, 6)]
    parts := [(0, { ctl := 0x51401, res := 1, ptroot := 0x10000, lqueues := 0x8000000000000000, handler := 0x50000 })]
    regions := [(0, { owners := 1, valid := true, size := 1 })] }

/-- A tracked record of that partition. -/
def rec1 (addr : DWord) (status : Nat) : Launch := { addr := addr, part := 0, queue := 63, order := 0, status := status, depth := 15 }

/-- A group of two lanes whose v0 and v1, and whose s0 and s1, name the record; it has launched grid 7. -/
def gp : Group :=
  { g0 with threads := List.replicate 2 { v := [(0, 0x40000)] }, s := [(0, 0x40000)], children := [7] }

def okIs {ε α : Type} [DecidableEq α] (x : Except ε α) (y : α) : Bool :=
  match x with
  | .ok z => decide (z = y)
  | .error _ => false

theorem okIs_of {ε α : Type} [DecidableEq α] {x : Except ε α} {y : α} (h : okIs x y = true) : x = .ok y := by
  unfold okIs at h
  split at h
  · rw [of_decide_eq_true h]
  · contradiction

set_option maxRecDepth 4000 in
/-- O35: a record that names its queue, and one that takes its parent's, at the last depth that may spawn and the last place of
the queue; SPAWN and USPAWN of one; a child that runs and one that is final. -/
theorem witness_SpawnResults :
    (let s := at_ gp fun s => { launching s with lqueues := [(63, { records := List.range 255 })] }
     UniReady s gp ∧ s.drained gp.core 0 = true ∧ (0x40000 : DWord).toNat % 128 = 0 ∧ s.depthOf gp ≠ 16 ∧
       s.deviceAccess gp.part 0x40000 true = .ok 0x40000 ∧ s.deviceRead gp.part (0x40000 + 0x28) 1 = .ok [63] ∧
       (s.part gp.part).lqueues.getLsbD 63 = true ∧ (s.lqueue 63).records.length < 256) ∧
    (let s := at_ gp fun s => { spadded (launching s) with launches := [(0, rec1 0x41000 3)] }
     s.depthOf gp = 15 ∧ s.deviceRead gp.part (0x48000 + 0x28) 1 = .ok [255] ∧
       ((s.launchOf gp).map (·.2.queue)).getD 64 = 63 ∧ s.deviceAccess gp.part 0x48000 true = .ok 0x48000) ∧
    (let s := at_ gp launching
     Calm s 0 0 gp ∧ laneGuard gp false 7 [(0, 2)] false = none ∧ (∀ l t, (l, t) ∈ executing gp 0 false 7 → Within gp t [(0, 2)]) ∧
       (∃ m, (executing gp 0 false 7).foldlM (fun (m : State) x => m.spawn 0 gp (BitVec.ofNat 64 (valueOf gp x.2 (0, 2)))) s = .ok m) ∧
       ∃ m, s.spawn 0 gp (BitVec.ofNat 64 (uniValue gp (0, true))) = .ok m) ∧
    (∀ r ∈ gp.children, (at_ gp).childFinal r = true) ∧
    ∃ r ∈ gp.children, (at_ gp fun s => { s with launches := [(7, rec1 0x40000 3)] }).childFinal r = false := by
  refine ⟨⟨uni_of rfl rfl rfl (by decide) rfl rfl, rfl, rfl, by decide, okIs_of (by decide), okIs_of (by decide), by decide, by decide⟩,
    ⟨by decide, okIs_of (by decide), by decide, okIs_of (by decide)⟩, ⟨calm_of rfl rfl rfl (by decide), rfl, fun l t m => within_of (each_lane
      (fun _ t => withinB _ t _) (by decide) l t m), ok_of (by decide), ok_of (by decide)⟩, by decide, by decide⟩

/-- The walk looks at an address's page. -/
theorem walk_page (s : State) (part base d : Nat) (hb : base % 65536 = 0) (hd : d < 65536) :
    s.walk part (base + d) = s.walk part base := by
  have a : (base + d) / 2 ^ 43 = base / 2 ^ 43 := by omega
  have b : (base + d) / 2 ^ 30 = base / 2 ^ 30 := by omega
  have c : (base + d) / 2 ^ 21 = base / 2 ^ 21 := by omega
  have e : (base + d) / 65536 = base / 65536 := by omega
  have f : (base + d) % 2 ^ 30 / 65536 = base % 2 ^ 30 / 65536 := by omega
  have g : (base + d) % 2 ^ 21 / 65536 = base % 2 ^ 21 / 65536 := by omega
  simp only [State.walk, leafEntry, a, b, c, e, f, g]

/-- A read of the device within one page of near memory gives the bytes of memory there. -/
theorem deviceRead_page {s : State} {part base : Nat} {e : TlbEntry} (hb : base % 65536 = 0) (hv : base + 65536 ≤ 2 ^ 56)
    (hw : s.walk part base = some e) (hr : e.r = true) (hp : e.phys + 65536 ≤ 0x3000000000)
    (ha : ∀ d < 65536, s.admits part (e.phys + d) = true) (n : Nat) :
    ∀ d, d + n ≤ 65536 → s.deviceRead part (base + d) n = .ok ((List.range' d n).map fun i => s.byte (e.phys + i)) := by
  induction n with
  | zero => exact fun _ _ => rfl
  | succ n ih =>
    intro d h
    have m : (base + d) % 65536 = d := by omega
    have near : inDevice (e.phys + d) = true := by
      simp only [inDevice, paKind, if_pos (show e.phys + d < 0x3000000000 by omega)]
    have one : s.deviceAccess part (base + d) false = .ok (e.phys + d) := by
      simp only [State.deviceAccess, if_neg (show ¬2 ^ 56 ≤ base + d by omega), walk_page s part base d hb (by omega), hw, hr,
        Bool.not_true, Bool.false_eq_true, if_false, TlbEntry.pa, m, near, ha d (by omega), if_true]
    have two := ih (d + 1) (by omega)
    rw [← Nat.add_assoc] at two
    rw [State.deviceRead, one]
    simp only [two, List.range'_succ, List.map_cons]

/-- The device with record 7 in queue 63, yet to be read. -/
def tracked (addr : DWord) : State :=
  { launching State.reset with launches := [(7, rec1 addr 0)], lqueues := [(63, { records := [7] })] }

/-- The bytes of the page at an address of the device that launches. -/
theorem launching_reads {s : State} (base : Nat) (hb : base % 65536 = 0) (hr : base + 65536 ≤ 2 ^ 30)
    (hw : s.walk 0 base = some ⟨0, base / 65536, base, true, true, true, 16384⟩)
    (hs : s.regions = [(0, { owners := 1, valid := true, size := 1 })]) (d n : Nat) (h : d + n ≤ 65536) :
    s.deviceRead 0 (base + d) n = .ok ((List.range' d n).map fun i => s.byte (base + i)) := by
  refine deviceRead_page hb (by omega) hw rfl (by show base + 65536 ≤ _; omega) (fun d hd => ?_) n d h
  simp only [State.admits, hs, List.any_cons, List.any_nil, MemRegion.holds, Bool.or_false, Bool.and_eq_true, decide_eq_true_eq]
  simp
  omega

/-- The bytes of the record, and of its kernel's header. -/
def recordBytes : List Byte :=
  [0, 0, 5, 0] ++ List.replicate 16 0 ++ [1, 0, 0, 0, 1, 0, 0, 0, 1, 0, 0, 0, 16, 0, 0, 0, 1, 1, 0, 0, 63] ++ List.replicate 87 0

def hdr1 : KHdr := KHdr.ofBytes ([0x40, 0x40, 1] ++ List.replicate 15 0 ++ [6] ++ List.replicate 237 0)

theorem record_read : (tracked 0x40000).deviceRead 0 0x40000 128 = .ok recordBytes := by
  rw [show 0x40000 = 0x40000 + 0 from rfl, launching_reads 0x40000 rfl (by decide) (by decide) rfl 0 128 (by decide)]
  exact congrArg Except.ok (by decide)

set_option maxRecDepth 4000 in
theorem hdr_read : (tracked 0x40000).readHdr 0 (BitVec.ofNat 64 (fieldNat recordBytes 0 8)) = some hdr1 := by
  have bytes : ((List.range' 0 256).map fun i => (tracked 0x40000).byte (0x50000 + i)) =
      [0x40, 0x40, 1] ++ List.replicate 15 0 ++ [6] ++ List.replicate 237 0 := by decide
  rw [show BitVec.ofNat 64 (fieldNat recordBytes 0 8) = 0x50000 by decide, State.readHdr, if_neg (by decide),
    show (0x50000 : DWord).toNat = 0x50000 + 0 from rfl, launching_reads 0x50000 rfl (by decide) (by decide) rfl 0 256 (by decide),
    bytes]
  exact if_pos (by decide)

def isError {ε α : Type} (x : Except ε α) : Bool := !isOk x

theorem error_of {ε α : Type} {x : Except ε α} (h : isError x = true) : ∃ e, x = .error e := by
  cases x with
  | error e => exact ⟨e, rfl⟩
  | ok _ => contradiction

theorem record_good : ∃ h, (tracked 0x40000).checkRecord ((rec1 0x40000 0).fill recordBytes) (some hdr1) = .ok h := 
  ok_of (by decide)

/-- A record of no threads fails some check whatever its kernel. -/
theorem record_bad {s : State} {r : Launch} (h : r.bthreads = 0) (hdr : Option KHdr) : ∃ e, s.checkRecord r hdr = .error e := by
  cases hdr with
  | none => exact ⟨1, rfl⟩
  | some k =>
    rw [State.checkRecord]
    simp only [h, show (0 : Nat) < 16 by decide, or_true, true_or, if_true]
    split
    · exact ⟨1, rfl⟩
    · exact ⟨2, rfl⟩

theorem record_after : ∀ a ∈ ((rec1 0x40000 0).fill recordBytes).after, a = 0 := by
  simp only [Launch.fill, List.mem_map, List.mem_range]
  rintro a ⟨i, h, rfl⟩
  rcases (by omega : i = 0 ∨ i = 1 ∨ i = 2 ∨ i = 3) with rfl | rfl | rfl | rfl <;> rfl

def emptyBytes : List Byte := List.replicate 40 0 ++ [0xFF] ++ List.replicate 87 0

/-- The launching device with record 7 in queue 63, whose first AFTER entry names 0x44000; memory holds a STATUS there, and a
record of an order may be there, or one that has been refused. -/
def following (after : Byte) (status : Byte) (other : Option Launch) : State :=
  { launching State.reset with
    mem := [(0x10000, 1), (0x10002, 2), (0x20000, 0x1F),
            (0x40002, 5), (0x40014, 1), (0x40018, 1), (0x4001C, 1), (0x40020, 16), (0x40024, 1), (0x40025, 1), (0x40028, 63),
            (0x40031, 0x40), (0x40032, 4), (0x40035, after), (0x44050, status),
            (0x48028, 0xFF), (0x50000, 0x40), (0x50001, 0x40), (0x50002, 1), (0x50012, 6)]
    launches := (7, rec1 0x40000 0) :: (other.map fun x => (8, x)).toList, lqueues := [(63, { records := [7] })] }

/-- Record 7 is read, passes its checks, names one address in AFTER, and what `P` says holds where its references are judged. -/
def Judged (s : State) (r : Launch) (a : DWord) (P : State → Launch → Prop) : Prop :=
  ((s.lqueue 63).records.find? fun k => (s.launch? k).any (·.status == 0)) = some 7 ∧ s.launch? 7 = some r ∧
  ∃ bs h, s.deviceRead r.part r.addr.toNat 128 = .ok bs ∧
    s.checkRecord (r.fill bs) (s.readHdr r.part (BitVec.ofNat 64 (fieldNat bs 0 8))) = .ok h ∧ (r.fill bs).after = [a, 0, 0, 0] ∧
    (let y := { r.fill bs with hdr := some h, relaunch := (r.fill bs).relaunch || h.relaunch }
     P ((s.setLaunch 7 fun _ => y).putStatus 7 1) y)

def judgedB (s : State) (r : Launch) (a : DWord) (p : State → Launch → Bool) : Bool :=
  ((s.lqueue 63).records.find? fun k => (s.launch? k).any (·.status == 0)) == some 7 && s.launch? 7 == some r &&
  match s.deviceRead r.part r.addr.toNat 128 with
  | .error _ => false
  | .ok bs =>
    match s.checkRecord (r.fill bs) (s.readHdr r.part (BitVec.ofNat 64 (fieldNat bs 0 8))) with
    | .error _ => false
    | .ok h => (r.fill bs).after == [a, 0, 0, 0] &&
      (let y := { r.fill bs with hdr := some h, relaunch := (r.fill bs).relaunch || h.relaunch }
       p ((s.setLaunch 7 fun _ => y).putStatus 7 1) y)

theorem judged_of {s : State} {r : Launch} {a : DWord} {p : State → Launch → Bool} {P : State → Launch → Prop}
    (h : judgedB s r a p = true) (hp : ∀ m y, p m y = true → P m y) : Judged s r a P := by
  simp only [judgedB, Bool.and_eq_true, beq_iff_eq] at h
  refine ⟨h.1.1, h.1.2, ?_⟩
  have h := h.2
  split at h
  · contradiction
  · next bs h1 =>
    split at h
    · contradiction
    · next k h2 =>
      simp only [Bool.and_eq_true, beq_iff_eq] at h
      exact ⟨bs, k, h1, h2, h.1, hp _ _ h.2⟩

def readIs (s : State) (part va n v : Nat) : Bool :=
  match s.deviceRead part va n with
  | .ok w => leNat w == v
  | .error _ => false

theorem readIs_of {s : State} {part va n v : Nat} (h : readIs s part va n v = true) : ∃ w, s.deviceRead part va n = .ok w ∧ leNat w = v := by
  unfold readIs at h
  split at h
  · exact ⟨_, by assumption, by simpa using h⟩
  · contradiction

/-- A reference to a record whose fate memory tells: no record is tracked there that is not final. -/
def toldB (a : DWord) (v : Nat) (m : State) (y : Launch) : Bool :=
  (m.recordAt y.part a (fun x => !finalStatus x.status)).isNone && readIs m y.part (a.toNat + 0x50) 4 v

theorem told_of {a : DWord} {v : Nat} {m : State} {y : Launch} (h : toldB a v m y = true) :
    m.recordAt y.part a (fun x => !finalStatus x.status) = none ∧ ∃ w, m.deviceRead y.part (a.toNat + 0x50) 4 = .ok w ∧ leNat w = v := by
  simp only [toldB, Bool.and_eq_true, Option.isNone_iff_eq_none] at h
  exact ⟨h.1, readIs_of h.2⟩

/-- A reference to a record that is tracked, and not final. -/
def keptB (a : DWord) (earlier : Bool) (m : State) (y : Launch) : Bool :=
  match m.recordAt y.part a fun x => !finalStatus x.status with
  | some z => decide (z.2.order < y.order) == earlier
  | none => false

theorem kept_of {a : DWord} {e : Bool} {m : State} {y : Launch} (h : keptB a e m y = true) :
    ∃ z, m.recordAt y.part a (fun x => !finalStatus x.status) = some z ∧ decide (z.2.order < y.order) = e := by
  unfold keptB at h
  split at h
  · exact ⟨_, by assumption, beq_iff_eq.1 h⟩
  · contradiction

/-- A reference to a record that was refused with REASON 9, where nothing is mapped. -/
def lostB (a : DWord) (m : State) (y : Launch) : Bool :=
  (m.recordAt y.part a fun x => !finalStatus x.status).isNone && isError (m.deviceRead y.part (a.toNat + 0x50) 4) &&
    (m.recordAt y.part a fun _ => true).any fun z => z.2.reason == 9

/-- O36: an AFTER reference to a record that is DONE, to one that was refused, and to one that failed. -/
theorem witness_LaunchEvents_done :
    Judged (following 0 5 none) (rec1 0x40000 0) 0x44000 (fun m y => AfterMet m y 0x44000) ∧
    Judged (following 0 6 none) (rec1 0x40000 0) 0x44000 (fun m y => AfterLost m y 0x44000) ∧
    Judged (following 0 7 none) (rec1 0x40000 0) 0x44000 (fun m y => AfterLost m y 0x44000) := by
  refine ⟨judged_of (p := toldB 0x44000 5) (by decide +kernel) fun m y h => told_of h,
    judged_of (p := toldB 0x44000 6) (by decide +kernel) fun m y h => ?_,
    judged_of (p := toldB 0x44000 7) (by decide +kernel) fun m y h => ?_⟩
  · obtain ⟨w, h1, h2⟩ := (told_of h).2
    exact ⟨(told_of h).1, .inl ⟨w, h1, .inl h2⟩⟩
  · obtain ⟨w, h1, h2⟩ := (told_of h).2
    exact ⟨(told_of h).1, .inl ⟨w, h1, .inr h2⟩⟩

/-- O36: an AFTER reference to a record placed before, which nothing settles; to one placed after; and to no record. -/
theorem witness_LaunchEvents_order :
    (let r : Launch := { rec1 0x40000 0 with order := 1 }
     Judged { following 0 0 none with
         launches := [(7, r), (8, { rec1 0x44000 3 with gridX := 1, gridY := 1, gridZ := 1, live := [0] })] } r 0x44000
       fun m y => AfterWaits m y 0x44000 ∧ m.settleAll = m) ∧
    Judged (following 0 0 (some (rec1 0x44000 3))) (rec1 0x40000 0) 0x44000 (fun m y => AfterNever m y 0x44000) ∧
    Judged (following 0 0 none) (rec1 0x40000 0) 0x44000 (fun m y => AfterNever m y 0x44000) := by
  refine ⟨judged_of (p := fun m y => keptB 0x44000 true m y && decide (m.settleAll = m)) (by decide +kernel) fun m y h => ?_,
    judged_of (p := keptB 0x44000 false) (by decide +kernel) fun m y h => .inl ?_,
    judged_of (p := toldB 0x44000 0) (by decide +kernel) fun m y h => .inr ⟨(told_of h).1, ?_⟩⟩
  · simp only [Bool.and_eq_true, decide_eq_true_eq] at h
    obtain ⟨z, h1, h2⟩ := kept_of h.1
    exact ⟨⟨z, h1, by simpa using h2⟩, h.2⟩
  · obtain ⟨z, h1, h2⟩ := kept_of h
    exact ⟨z, h1, by simpa using h2⟩
  · obtain ⟨w, h1, h2⟩ := (told_of h).2
    exact ⟨w, h1, by omega, by omega, by omega⟩

/-- O36: an AFTER reference to a record that was refused as its bytes could not be read. -/
theorem witness_LaunchEvents_unread :
    Judged (following 1 0 (some { rec1 0x10000044000 6 with reason := 9 })) (rec1 0x40000 0) 0x10000044000
      fun m y => AfterLost m y 0x10000044000 := by
  refine judged_of (p := lostB 0x10000044000) (by decide +kernel) fun m y h => ?_
  simp only [lostB, Bool.and_eq_true, Option.isNone_iff_eq_none] at h
  obtain ⟨z, h1, h2⟩ := (Option.any_eq_true _ _).1 h.2
  exact ⟨h.1.1, .inr ⟨error_of h.1.2, z, h1, beq_iff_eq.1 h2⟩⟩

set_option maxRecDepth 4000 in
/-- O36: the last port, a misaligned address and a good one, a queue with its last place free and one without; a record whose page
is not mapped, one without threads, and one that is good. -/
theorem witness_LaunchEvents :
    (let s := launching State.reset
     63 < 64 ∧ s.queueOwner 63 = some 0 ∧ s.barred (0x100000 + 8 * 63) = false ∧ (0x40001 : DWord).toNat % 128 ≠ 0 ∧ (0x40000 : DWord).toNat % 128 = 0 ∧
       s.deviceRead 0 0x40000 128 = .ok recordBytes) ∧
    (let s := { launching State.reset with parts := [(0, { ctl := 0x51401 ||| 0x2, lqueues := 0x8000000000000000 })] }
     s.barred (0x100000 + 8 * 63) = true) ∧
    256 ≤ (List.replicate 256 0).length ∧ (List.replicate 255 0).length < 256 ∧
    (let s := tracked 0x10000000000
     ((s.lqueue 63).records.find? fun k => (s.launch? k).any (·.status == 0)) = some 7 ∧
       s.launch? 7 = some (rec1 0x10000000000 0) ∧ ∃ e, s.deviceRead 0 0x10000000000 128 = .error e) ∧
    (let s := tracked 0x48000
     s.launch? 7 = some (rec1 0x48000 0) ∧ s.deviceRead 0 0x48000 128 = .ok emptyBytes ∧
       ∃ e, s.checkRecord ((rec1 0x48000 0).fill emptyBytes) (s.readHdr 0 (BitVec.ofNat 64 (fieldNat emptyBytes 0 8))) = .error e) ∧
    (let s := tracked 0x40000
     s.launch? 7 = some (rec1 0x40000 0) ∧ s.deviceRead 0 0x40000 128 = .ok recordBytes ∧
       (∃ h, s.checkRecord ((rec1 0x40000 0).fill recordBytes) (s.readHdr 0 (BitVec.ofNat 64 (fieldNat recordBytes 0 8))) = .ok h) ∧
       ∀ a ∈ ((rec1 0x40000 0).fill recordBytes).after, a = 0) := by
  have unmapped : (tracked 0x10000000000).deviceAccess 0 0x10000000000 false = .error 6 := by
    rw [State.deviceAccess, if_neg (by decide), show (tracked 0x10000000000).walk 0 0x10000000000 = none by decide]
  refine ⟨⟨by decide, by decide, by decide, by decide, rfl, ?_⟩, by decide, by decide, by decide, ⟨rfl, rfl, 6, ?_⟩,
    ⟨rfl, ?_, record_bad (by decide) _⟩, rfl, record_read, ?_, record_after⟩
  · rw [show 0x40000 = 0x40000 + 0 from rfl, launching_reads 0x40000 rfl (by decide) (by decide) rfl 0 128 (by decide)]
    exact congrArg Except.ok (by decide)
  · rw [State.deviceRead, unmapped]
  · rw [show 0x48000 = 0x40000 + 0x8000 from rfl, launching_reads 0x40000 rfl (by decide) (by decide) rfl 0x8000 128 (by decide)]
    exact congrArg Except.ok (by decide)
  · rw [hdr_read]
    exact record_good

/-- No block and at most one group, which is number 0. -/
theorem numbered_of {s : State} {g : Group} (hb : s.blocks = []) (hg : s.groups = [] ∨ s.groups = [(0, g)]) : Numbered s := by
  refine ⟨fun k h => absurd (by simp [State.block?, hb, mapFind]) h, fun k h => ?_⟩
  rcases hg with hg | hg
  · exact absurd (by simp [State.group?, hg, mapFind]) h
  · simp only [State.group?, hg, mapFind] at h
    split at h
    · next e => subst e; rw [hg]; exact Nat.zero_lt_one
    · exact absurd rfl h

theorem some_of {α : Type} {x : Option α} (h : x.isSome = true) : ∃ y, x = some y := Option.isSome_iff_exists.1 h

/-- The launching device with one group that waits for a core, and with a record ready to run. -/
def returning (r : Residence) : State :=
  { launching State.reset with groups := [(0, { g0 with core := 1, residence := r })] }

def rec2 : Launch :=
  { rec1 0x40000 2 with hdr := some hdr1, gridX := 1, gridY := 1, gridZ := 1, bthreads := 16, bcores := 1, gangb := 1 }

def running : State :=
  { launching State.reset with launches := [(7, rec2)], lqueues := [(63, { records := [7] })] }

/-- The launching device whose collector holds one trapped lane; without a handler that can run, and with one. -/
def collecting (h : DWord) (lanes : List (Nat × Nat) := [(5, 0)]) : State :=
  { launching State.reset with
    parts := [(0, { ctl := 0x51401, res := 1, ptroot := 0x10000, lqueues := 0x8000000000000000, handler := h,
                    collect := [(0, lanes)] })] }

set_option maxRecDepth 4000 in
theorem handler_read : (collecting 0x50000).readHdr 0 0x50000 = some hdr1 := by
  have bytes : ((List.range' 0 256).map fun i => (collecting 0x50000).byte (0x50000 + i)) =
      [0x40, 0x40, 1] ++ List.replicate 15 0 ++ [6] ++ List.replicate 237 0 := by decide
  rw [State.readHdr, if_neg (by decide), show (0x50000 : DWord).toNat = 0x50000 + 0 from rfl,
    launching_reads 0x50000 rfl (by decide) (by decide) rfl 0 256 (by decide), bytes]
  exact if_pos (by decide)

/-- O37: a core that a handler wave waits for; a migrating group that fits; a record's only block; an evicted group that fits; a collector with a lane where the handler
cannot run (it is misaligned), and with a wave's lanes where it can. -/
theorem witness_ClaimEvents :
    (let s := collecting 0x50000 (List.replicate 16 (5, 0))
     Numbered s ∧ s.corePart 0 = some 0 ∧ s.waveWaits 0 0 = true) ∧
    (let s := returning .migrating
     let g : Group := { g0 with core := 1, residence := .migrating }
     Numbered s ∧ s.corePart 0 = some 0 ∧ (s.part 0).switching = false ∧
       s.waveWaits 0 0 = false ∧
       (s.groups.find? fun y => y.2.residence == .migrating && y.2.part == 0 && y.2.enc == coreEnc 0 && y.2.core / 32 == 0 / 32 &&
         (s.migrantFits 0 0 y.2).isSome) = some (0, g) ∧ s.group? 0 = some g ∧ ∃ x, s.migrantFits 0 0 g = some x) ∧
    (let s := running
     Numbered s ∧ s.corePart 0 = some 0 ∧ (s.part 0).switching = false ∧ s.waveWaits 0 0 = false ∧ (∀ y ∈ s.groups, y.2.residence ≠ .migrating) ∧
       s.launch? 7 = some rec2 ∧ rec2.gangb = 1 ∧ 1 ≤ rec2.bcores ∧ rec2.again = [] ∧ (s.lqueue rec2.queue).chunk = 1 ∧
       ∃ h cores m, s.offered 0 0 rec2 = some (h, cores) ∧ s.takeGang 7 cores = some m ∧
         s.arbitrate (0 / 32) ((s.launches.filter fun y => (s.offered 0 0 y.2).isSome).filter fun y =>
           match s.offered 0 0 y.2 with
           | some (_, cs) => (s.takeGang y.1 cs).isSome
           | none => false) = some (7, rec2)) ∧
    (let s := returning .evicted
     let g : Group := { g0 with core := 1, residence := .evicted }
     Numbered s ∧ s.group? 0 = some g ∧ (s.part g.part).switching = false ∧ (∃ x, s.returnFits g g.core = some x) ∧ g.binned = []) ∧
    (let s := collecting 1
     Numbered s ∧ (s.part 0).slicedOut = false ∧ mapGet [] (s.part 0).collect 0 ≠ [] ∧ s.handlerHdr 0 [0] = none) ∧
    (let s := collecting 0x50000
     Numbered s ∧ (s.part 0).slicedOut = false ∧ mapGet [] (s.part 0).collect 0 ≠ [] ∧ ∃ h, s.handlerHdr 0 [0] = some h ∧
       (∀ i, i < 32 → s.enabledCore 0 (32 * 0 + i) = true → h.carries (coreEnc (32 * 0 + i)) = true →
         (s.shareFits 0 (32 * 0 + i) h 1).isSome = true) ∧
       ∃ i, i < 32 ∧ s.enabledCore 0 (32 * 0 + i) = true ∧ h.carries (coreEnc (32 * 0 + i)) = true) := by
  refine ⟨⟨numbered_of (g := g0) rfl (.inl rfl), by decide, by decide +kernel⟩,
    ⟨numbered_of rfl (.inr rfl), by decide, rfl, rfl, by decide, rfl, some_of (by decide)⟩,
    ⟨numbered_of (g := g0) rfl (.inl rfl), by decide, rfl, rfl, by decide, rfl, rfl, by decide, rfl, rfl, ?_⟩,
    ⟨numbered_of rfl (.inr rfl), rfl, rfl, some_of (by decide), rfl⟩,
    ⟨numbered_of (g := g0) rfl (.inl rfl), rfl, by decide, ?_⟩,
    ⟨numbered_of (g := g0) rfl (.inl rfl), rfl, by decide, hdr1, ?_, by decide, 0, by decide, by decide, by decide⟩⟩
  · obtain ⟨⟨h, cores⟩, e⟩ := some_of (show (running.offered 0 0 rec2).isSome = true by decide)
    have k : ((running.offered 0 0 rec2).bind fun x => running.takeGang 7 x.2).isSome = true := by decide
    rw [e] at k
    obtain ⟨m, k⟩ := some_of k
    have k' : running.takeGang 7 cores = some m := k
    refine ⟨h, cores, m, e, k', ?_⟩
    simp only [show running.launches = [(7, rec2)] from rfl, List.filter_cons, List.filter_nil, e, k', Option.isSome_some, if_true]
    rfl
  · rw [State.handlerHdr, show (collecting 1).readHdr 0 ((collecting 1).part 0).handler = none from if_pos (by decide)]
  · rw [State.handlerHdr, show ((collecting 0x50000).part 0).handler = 0x50000 from rfl, handler_read]
    exact if_neg (by decide)

/-- A block whose kernel has both encodings and an equivalence map at 0x40000 of one record: point 0 at offset 0 of both texts,
with nothing moved. -/
def twoTexts (s : State) : State :=
  { s with
    mem := [(0x10000, 1), (0x10002, 2), (0x20000, 0x1F)]
    parts := [(0, { ctl := 0x51401, res := 0xFFFF, ptroot := 0x10000 })]
    regions := [(0, { owners := 1, valid := true, size := 1 })]
    blocks := [(0, { launchedBlock 0 with hdr := { encD := true, encL := true, vregsD := 240, vregsL := 960, eqmap := 0x40000, eqlen := 16 } })] }

def eqf : I16Form := { d := 0, a := 0, imm := 0, pred := 7, mod4 := 0 }

/-- O38: MIGRATE to the group's own class and to the other; EQPT in a kernel of one encoding; at the only record of a map, with no
migration asked for, and with one that may go ahead. -/
theorem witness_MigrationResults :
    let f := { rg 0 0 0 0 with pred := 0 }
    let r : EqRecord := { dpc := 0, lpc := 0, entries := [] }
    (let s := at_ g0 twoTexts
     let hdr := ((s.block? g0.bid).map (·.hdr)).getD {}
     let lanes := g0.fragLanes 0
     Calm s 0 0 g0 ∧ laneGuard g0 true f.pred [] true = none ∧ (if (1 : BitVec 10) = 0 then Enc.l else Enc.d) = g0.enc ∧
       (if (0 : BitVec 10) = 0 then Enc.l else Enc.d) ≠ g0.enc ∧ hdr.encD = true ∧ hdr.encL = true ∧ hdr.eqmap ≠ 0 ∧ (s.block? g0.bid).isSome = true ∧
       (s.part g0.part).migpol = false ∧
       s.findRecord g0.part hdr.eqmap.toNat hdr.eqlen eqf.imm.toNat (hdr.eqlen / 16 + 1) 0 = .ok (some r) ∧
       r.dpc.setWidth 64 = g0.pcOf lanes - hdr.text g0.enc ∧ r.valid hdr g0.enc (lanes.filterMap g0.thread?) = true ∧
       g0.armed = false ∧ (∀ l ∈ lanes, ∀ t, g0.thread? l = some t → t.rstk = []) ∧ g0.pendMig = none) ∧
    (let s := at_ g0
     Calm s 0 0 g0 ∧ (s.block? g0.bid).isSome = true ∧
       (let hdr := ((s.block? g0.bid).map (·.hdr)).getD {}
        (hdr.encD && hdr.encL) = false)) ∧
    (let g := { g0 with pendMig := some .l }
     let s := at_ g twoTexts
     let hdr := ((s.block? g.bid).map (·.hdr)).getD {}
     let lanes := g.fragLanes 0
     Calm s 0 0 g ∧ laneGuard g true eqf.pred [] true = none ∧ (s.block? g.bid).isSome = true ∧ hdr.encD = true ∧
       hdr.encL = true ∧ hdr.eqmap ≠ 0 ∧ (s.part g.part).migpol = false ∧
       s.findRecord g.part hdr.eqmap.toNat hdr.eqlen eqf.imm.toNat (hdr.eqlen / 16 + 1) 0 = .ok (some r) ∧
       r.dpc.setWidth 64 = g.pcOf lanes - hdr.text g.enc ∧ r.valid hdr g.enc (lanes.filterMap g.thread?) = true ∧
       g.armed = false ∧ (∀ l ∈ lanes, ∀ t, g.thread? l = some t → t.rstk = []) ∧ g.pendMig = some (other g.enc) ∧
       lanes = g.live ∧ s.drained g.core 0 = true ∧ s.quiet 0 g.live = true ∧ s.classCore g.part (g.core / 32) (other g.enc) = true ∧
       alignedFor (other g.enc) (hdr.text (other g.enc) + r.lpc.setWidth 64 + 8) = true ∧ Unread g 0) := by
  have empty : ∀ g : Group, (g.threads.all (·.rstk.isEmpty)) = true → ∀ ls : List Nat, ∀ l ∈ ls, ∀ t, g.thread? l = some t → t.rstk = [] :=
    fun g h _ l _ t ht => List.isEmpty_iff.1 (List.all_eq_true.1 h t (List.mem_of_getElem? ht))
  exact ⟨⟨calm_of rfl rfl rfl (by decide), by decide, by decide, by decide, rfl, rfl, by decide, rfl, rfl, okIs_of (by decide), by decide, by decide, rfl,
    empty _ (by decide) _, rfl⟩, ⟨calm_of rfl rfl rfl (by decide), rfl, rfl⟩, calm_of rfl rfl rfl (by decide), by decide, rfl, rfl, rfl, by decide, rfl,
    okIs_of (by decide), by decide, by decide, rfl, empty _ (by decide) _, rfl, by decide, by decide, by decide, by decide, by decide,
    fun r h => absurd (show r ∈ ([] : List Late) from h) (by simp)⟩

/-- A partition with a fault ring at 0x40000. -/
def ringed (handler : DWord) (ctl : Word := 0x51401) (s : State) : State :=
  { mapped s with parts := [(0, { ctl := ctl, ptroot := 0x10000, faultring := 0x40000, handler := handler })] }

/-- O39: every lane; a WAIT that passes and, with 62 operations of each kind on their way, one that does not. -/
theorem witness_SchedulingResults :
    let passes := fun t : Thread => t.loads ≤ (0 : BitVec 16).toNat / 4096 ∧ t.stores ≤ (0 : BitVec 16).toNat / 256 % 16 ∧
      t.copies ≤ (0 : BitVec 16).toNat / 16 % 16 ∧ t.tiles ≤ (0 : BitVec 16).toNat % 16
    Calm (at_ g0) 0 0 g0 ∧ laneGuard g0 false 7 [] false = none ∧ (∀ l t, (l, t) ∈ executing g0 0 false 7 → passes t) ∧
    Calm (at_ gm) 0 0 gm ∧ laneGuard gm false 7 [] false = none ∧ ∃ (l : Nat) (t : Thread), (l, t) ∈ executing gm 0 false 7 ∧ ¬ passes t :=
  ⟨calm_of rfl rfl rfl (by decide), rfl, fun _ t h => of_decide_eq_true (each_lane (fun _ t => decide
      (t.loads ≤ (0 : BitVec 16).toNat / 4096 ∧ t.stores ≤ (0 : BitVec 16).toNat / 256 % 16 ∧
      t.copies ≤ (0 : BitVec 16).toNat / 16 % 16 ∧ t.tiles ≤ (0 : BitVec 16).toNat % 16)) (by decide) _ t h),
    calm_of rfl rfl rfl (by decide), rfl, 0, { loads := 62, stores := 62, copies := 62, tiles := 62 }, by decide, by decide⟩

/-- A group of two threads. -/
def two2 : Group := { g0 with threads := [{}, {}] }

/-- O40: the last code; two lanes, whose records find the last slot and the first, with a handler, without the debugger and with it. -/
theorem witness_TrapResults :
    let f : I16Form := { d := 0, a := 0, imm := 0xFFFF, pred := 7, mod4 := 0 }
    let lanes := executing two2 0 false f.pred
    let info := fun (c : Nat) (th : Thread) => trapOf two2 0 th c f.imm.toNat (th.pc + 8) (th.rcount + 1) 0
    let last := fun (s : State) => s.setPart 0 fun p => { p with ringLast := 4094 }
    (let s := at_ two2 fun s => last (ringed 0x50000 0x51401 s)
     Calm s 0 0 two2 ∧ laneGuard two2 false f.pred [] false = none ∧ two2.handler = false ∧ lanes.map (·.1) = [0, 1] ∧
       (s.part two2.part).handler ≠ 0 ∧ (s.part two2.part).handlerBad = false ∧
       (s.part two2.part).dbgen = false ∧ (s.part two2.part).faultring ≠ 0 ∧
       ∀ c, c = 0x12 ∨ c = 0x13 → ∃ x, ringRecords two2 (info c) lanes s = .ok x) ∧
    (let s := at_ two2 fun s => last (ringed 0 0x51405 s)
     Calm s 0 0 two2 ∧ (s.part two2.part).dbgen = true ∧ (s.part two2.part).faultring ≠ 0 ∧
       ∃ x, ringRecords two2 (info 0x12) lanes s = .ok x) := by
  refine ⟨⟨calm_of rfl rfl rfl (by decide), by decide, rfl, by decide, by decide, rfl, by decide, by decide, ?_⟩,
    calm_of rfl rfl rfl (by decide), by decide, by decide, ok_of (by decide +kernel)⟩
  rintro c (rfl | rfl) <;> exact ok_of (by decide +kernel)

/-- A handler wave of one lane, whose s8 and s9 name the whole group's image of pennant slot 5, whose a3 covers memory and whose a4
covers its scratchpad; its lane's origin is lane 0 of group 1, which has raised a page fault and stands in slot 5 of the ring. -/
def hw : Group :=
  { gm with
    handler := true, privileged := true, threads := [{ origin := some (1, 0) }], s := [(8, 0x80000005), (9, 1)] }

def trapped0 : Thread :=
  { st := .trapped, trap := some { cause := 6, pc := 0, repc := 0, rcount := 0, frag := 0, parent := 0, sib := 0xFFFF, slot := some 5 } }

def og : Group := { g0 with threads := [trapped0] }

def handling (g : Group) (s : State) : State :=
  { spadded (mapped s) with
      groups := [(0, g), (1, og)], parts := [(0, { ctl := 0x51401, ptroot := 0x10000, ring := [5] })] }

/-- O41: a group that is no handler wave; a wave of one lane with its origin, in the last slot taken. -/
theorem witness_ReturnResults :
    (Calm (at_ g0) 0 0 g0 ∧ g0.handler = false) ∧
    (let s := at_ hw (handling hw)
     Calm s 0 0 hw ∧ hw.handler = true ∧ hw.fragLanes 0 = [0] ∧ hw.thread? 0 = some { origin := some (1, 0) } ∧
       s.drained hw.core 0 = true ∧ s.quiet 0 [0] = true ∧ 1 ≠ 0 ∧ s.group? 1 = some og ∧ og.thread? 0 = some trapped0 ∧
       trapped0.st = .trapped ∧ (∃ i, trapped0.trap = some i ∧ i.slot = some 5) ∧ (s.part og.part).ringWait = []) :=
  ⟨⟨calm_of rfl rfl rfl (by decide), rfl⟩, calm_of rfl rfl rfl (by decide), rfl, by decide, rfl, by decide, by decide, by decide, rfl, rfl, rfl,
    ⟨_, rfl, rfl⟩, rfl⟩

/-- O42: a group without privilege. -/
theorem witness_PrivilegeRule : Calm (at_ g0) 0 0 g0 ∧ g0.privileged = false ∧ g0.handler = false ∧ uniActive g0 7 = true :=
  ⟨calm_of rfl rfl rfl (by decide), rfl, rfl, rfl⟩

/-- O43: a privileged group, with nothing in its partition's log and with one entry. -/
theorem witness_PrivilegedResults :
    let g := { g0 with privileged := true }
    let logged := fun (s : State) => { s with parts := [(0, { log := [{ kind := 0 }] })] }
    UniReady (at_ g) g ∧ (g.privileged || g.handler) = true ∧ ((at_ g).part g.part).log = [] ∧
      UniReady (at_ g logged) g ∧ ((at_ g logged).part g.part).log = { kind := 0 } :: [] :=
  ⟨uni_of rfl rfl rfl (by decide) rfl rfl, rfl, rfl, uni_of rfl rfl rfl (by decide) rfl rfl, rfl⟩

/-- O44: a pennant that names nothing; one that names a lane, whose group's image (the last part) goes to memory and to the
scratchpad, and comes from the scratchpad. -/
theorem witness_ImageResults :
    let m := { muf 3 0 with d := 8 }
    let p := { muf 4 0 with d := 8 }
    (let g : Group := { hw with s := [(8, 0x80000006)] }
     let s := at_ g (handling g)
     UniReady s g ∧ (g.privileged || g.handler) = true ∧ (mapGet 0 g.s 9).toNat < 2 ∧
       ∀ o, ¬ (s.lanePen 0 (mapGet 0 g.s 8) = some o ∧ o.2.2.2.st.isTrapped = true)) ∧
    (let s := at_ hw (handling hw)
     let n := imageSize og 1
     UniReady s hw ∧ (hw.privileged || hw.handler) = true ∧ (mapGet 0 hw.s 9).toNat = 1 ∧
       Origin s 0 (mapGet 0 hw.s 8) (1, 0, og, trapped0) ∧ (1 : Nat) ≠ 0 ∧
       (∃ segs, (s.imageSegs hw (p.uniAt hw).1 .write (p.uniAt hw).2 n).1 = .ok segs ∧ s.lackingAny segs = none) ∧
       (p.uniAt hw).1.space = 1 ∧ (s.region? hw.bid hw.home).isSome = true ∧
       (∃ segs, (s.imageSegs hw (m.uniAt hw).1 .write (m.uniAt hw).2 n).1 = .ok segs ∧ s.lackingAny segs = none ∧
         (imagePieces 0 segs).length ≤ 256) ∧
       (m.uniAt hw).1.space = 0 ∧ (m.uniAt hw).1.objid = 0 ∧ m.order = 0 ∧ (s.core hw.core).sq = [] ∧
       (s.core hw.core).wc = [] ∧
       (∃ segs, (s.imageSegs hw (p.uniAt hw).1 .read (p.uniAt hw).2 n).1 = .ok segs ∧ s.lackingAny segs = none) ∧
       s.placePoisoned (.spad hw.bid hw.home (p.uniAt hw).2.toNat) n = false ∧
       ∀ e ∈ (s.core hw.core).entries, ∀ k, e.byteAt (.spad hw.bid hw.home k) = none) := by
  refine ⟨⟨uni_of rfl rfl rfl (by decide) rfl rfl, rfl, by decide, ?_⟩, uni_of rfl rfl rfl (by decide) rfl rfl, rfl, by decide,
    ⟨by decide, rfl, by decide⟩, by decide, ⟨[(.spad 0 0 0, 1600)], by rfl, by decide⟩, by decide, by decide,
    ⟨[(.mem 0x40000, 1600)], by rfl, by decide, by decide⟩, by decide, by decide, rfl, rfl, rfl, ⟨[(.spad 0 0 0, 1600)], by rfl, by decide⟩,
    by decide, ?_⟩
  · rintro o ⟨h, -⟩
    exact absurd h (by rw [show State.lanePen _ _ _ = none from rfl]; simp)
  · intro e h
    exact absurd h (by rw [show ((at_ hw (handling hw)).core hw.core).entries = [] from rfl]; simp)

def allNext {σ φ ρ : Type} (o : Host.Outcome σ φ ρ) (p : σ → Bool) : Bool :=
  match o with
  | .next u => p u
  | _ => false

theorem next_of {σ φ ρ : Type} {o : Host.Outcome σ φ ρ} {p : σ → Bool} (h : allNext o p = true) : ∃ u, o = .next u ∧ p u = true := by
  unfold allNext at h
  split at h
  · exact ⟨_, rfl, h⟩
  · contradiction

/-- The first n threads of group 0, with 16-lane semantics, wait in a bin and in a callee queue since their lanes' numbers,
beside a younger entry in another bin and another queue; where they are fewer than sixteen, its last lane is HALTED. -/
def waiting (n : Nat) (sort sorted : Bool) : State :=
  let xs : List Entry := (List.range n).map fun l => { who := (0, l), since := l, key := BitVec.ofNat 32 (17 - l), sorted := sorted }
  let last : Entry := { who := (0, 15), since := 99 }
  at_ { g0 with core := 127, c16 := true, threads := List.replicate 15 { st := .binned } ++ [{ st := if n = 16 then .binned else .halted .binned }] }
    fun s => { s with
      cores := [(127, { bins := [{ bid := 0, pc := 0, entries := xs, sort := sort }, { bid := 0, pc := 8, entries := [last] }]
                        callees := [{ bid := 0, target := 0, entries := xs }, { bid := 0, target := 8, entries := [last] }] })] }

theorem inTurn_iff (s : State) (c : Nat) (aged : Bool) (all : List (List Entry)) (xs : List Entry) :
    InTurn s c aged all xs ↔ s.goesNext c aged all xs = true := by
  cases aged <;> simp [InTurn, State.goesNext, or_iff_not_imp_left]

def allBins (s : State) : List (List Entry) := (s.core 127).bins.map s.hoistable
def allCallees (s : State) : List (List Entry) := (s.core 127).callees.map fun c => s.drawable c.entries

set_option maxRecDepth 4000 in
/-- O45: the last core, with nothing pending; the turn of a bin and of a callee queue of two threads, as an aged one, and of
sixteen, as a full one too; the entry beside them has no turn; threads that have been sorted, and threads to sort, whose block has
lanes that have not arrived. -/
theorem witness_BundleEvents :
    (let s := at_ g0
     ((s.core 0).pending = [] ∧ ∃ u, exec (.bundleFormation 0) s = .next u ∧ decide ((u.fragments 0).length ≤ 64) = true)) ∧
    (∀ n, n = 2 ∨ n = 16 → let s := waiting n false false
     ∃ (b b' : Bin) (c c' : Callee), (s.core 127).bins = [b, b'] ∧ (s.core 127).callees = [c, c'] ∧ b.sort = false ∧ b'.sort = false ∧
       InTurn s 127 true (allBins s) (s.hoistable b) ∧ (InTurn s 127 false (allBins s) (s.hoistable b) ↔ n = 16) ∧
       ¬ InTurn s 127 true (allBins s) (s.hoistable b') ∧ ¬ InTurn s 127 false (allBins s) (s.hoistable b') ∧
       InTurn s 127 true (allCallees s) (s.drawable c.entries) ∧ (InTurn s 127 false (allCallees s) (s.drawable c.entries) ↔ n = 16) ∧
       ¬ InTurn s 127 true (allCallees s) (s.drawable c'.entries) ∧ ¬ InTurn s 127 false (allCallees s) (s.drawable c'.entries) ∧
       (∀ x ∈ s.hoistable b ++ s.drawable c.entries, s.thread? x.who.1 x.who.2 ≠ none)) ∧
    (let s := waiting 2 true true
     ∃ b : Bin, (s.core 127).bins[0]? = some b ∧ b.sort = true ∧ s.hoistable b ≠ [] ∧
       ∀ x ∈ s.hoistable b, s.thread? x.who.1 x.who.2 ≠ none) ∧
    (let s := waiting 2 true false
     ∃ b : Bin, (s.core 127).bins[0]? = some b ∧ b.sort = true ∧
       (∃ gid g l, (gid, g) ∈ s.groups ∧ g.bid = b.bid ∧ g.core = 127 ∧ l ∈ g.live ∧ ∀ x ∈ b.entries, x.who ≠ (gid, l)) ∧
       let ready := s.drawable (b.entries.filter fun x => !x.sorted)
       ready ≠ [] ∧ (ready.map (·.who)).Nodup ∧ ∀ x ∈ ready, s.thread? x.who.1 x.who.2 ≠ none) := by
  refine ⟨⟨rfl, next_of (by decide)⟩, ?_, ⟨_, rfl, rfl, by decide, by decide⟩,
    _, rfl, rfl, ⟨0, _, 15, List.mem_singleton.2 rfl, rfl, ?_, by decide, by decide⟩, by decide, by decide, by decide⟩
  · rintro n (rfl | rfl) <;> refine ⟨_, _, _, _, rfl, rfl, rfl, rfl, ?_⟩ <;> simp only [inTurn_iff] <;> decide +kernel
  · rfl

/-- The device with a secure partition; partition 0 owns launch queue 63. -/
def secured (part : Nat) : State := (launching State.reset).setPart part fun p => { p with ctl := 0x51403 }

/-- O46: the last queue, region, partition and word, at values in range and just out of it; the blocks of a secure partition
at their ends, and a secure region. -/
theorem witness_RegisterEvents :
    (let s := secured 0
     bar0Ok 0x1005F8 8 = true ∧ s.barred 0x1005F8 = true ∧ 28 < 32 ∧ bar0Ok 28 4 = true ∧ s.barred (0x110000 + 32 * 63) = true ∧
       7 < 8 ∧ ((secured 7).part 7).secure = true ∧ 4092 < 4096 ∧ bar0Ok 4092 4 = true) ∧
    (let s := launching State.reset
     63 < 64 ∧ s.barred (0x110000 + 32 * 63) = false ∧ (s.lqueue 63).chunk = 1 ∧ (s.lqueue 63).aging < 256 ∧ (s.lqueue 63).prio < 8 ∧ s.queueOwner 63 = some 0 ∧
       (0x1000100 : DWord).toNat / 2 ^ 16 % 512 = 256 ∧ (0x1000100 : DWord).toNat / 256 % 256 = 1 ∧
       (0x1010100 : DWord).toNat / 2 ^ 16 % 512 = 257) ∧
    (let s := { State.reset with regions := [(0, { owners := 1, valid := true, size := 1 }), (62, { secure := true }), (63, { size := 1 })] }
     let x := fun (v : DWord) => { s.region 63 with
       owners := v.extractLsb' 56 8, base := v.extractLsb' 30 26, valid := v.getLsbD 0 }
     (s.region 62).secure = true ∧ (s.region 63).secure = false ∧ (2 : DWord).getLsbD 1 ≠ (s.region 63).secure ∧
       (1 : DWord).getLsbD 1 = (s.region 63).secure ∧
       (s.regions.any fun y => y.1 != 63 && (x 1).meets y.2) = true ∧
       (s.regions.any fun y => y.1 != 63 && (x 0x40000001).meets y.2) = false) ∧
    (let s := fun (state part : Nat) (takers : List Waiter) => { State.reset with
        parts := [(7, { qlogcap := 6 })], squeues := [(0, { state := state, part := part, takers := takers })] }
     let q := fun (s : State) => s.squeue (s.part 7).qnum.toNat
     ((s 1 6 []).part 7).secure = false ∧ (q (s 1 6 [])).foreign 7 = true ∧ (q (s 1 7 [])).foreign 7 = false ∧ (q (s 1 7 [])).state ≠ 0 ∧ (q (s 1 7 [])).givers = [] ∧
       (q (s 0 7 [])).foreign 7 = false ∧ (q (s 0 7 [])).state = 0 ∧ 6 ≤ ((s 0 7 []).part 7).qlogcap.toNat ∧
       (q (s 0 7 [])).takers = [] ∧ (q (s 0 7 [])).givers = [] ∧
       (q (s 0 7 [⟨0, 0, 0, 0⟩])).foreign 7 = false ∧ (q (s 0 7 [⟨0, 0, 0, 0⟩])).takers ≠ []) ∧
    ((0x10000 : DWord).toNat % 65536 = 0 ∧ (0x10001 : DWord).toNat % 65536 ≠ 0 ∧ (0x10000 : DWord) ≠ (State.reset.part 7).ptroot ∧
      (0x10001 : DWord) ≠ (State.reset.part 7).ptroot ∧ State.reset.partQuiet 7 = true ∧ (at_ g0).partQuiet 0 = false ∧
      (0x10000 : DWord) ≠ ((at_ g0).part 0).ptroot) ∧
    (launching State.reset).barred (0x100200 + 16 * 63 + 8) = false ∧ (0x80000000 : DWord).getLsbD 31 = true := by
  decide

/-- The last doorbell bits rung in a partition whose only group is g. -/
def rung (g : Group) (savesize : DWord) : State :=
  at_ g fun s => { s with parts := [(0, { ctl := 0x51401, dbstat := 0x1F, savesize := savesize })] }

/-- O47: an access of no width; reads of the last region, queue, port, core and slice, of a secure partition and of none; a
window that is closed, one that is open at its last byte, of memory and of secure memory; the ends of BAR2's sizes. -/
theorem witness_HostEvents_bars :
    let s := { State.reset with winen := true }
    let hidden := { s with regions := [(0, { owners := 1, valid := true, size := 1, secure := true })] }
    let r := secured 0
    bar0Ok 1 4 = false ∧ s.stopped = false ∧ { s with stopped := true }.stopped = true ∧
      (bar0Ok 0x1107E0 4 = true ∧ r.barred 0x1107E0 = true ∧ r.stopped = false ∧ s.barred 0x1107E0 = false ∧ 0x1107E0 = 0x110000 + 32 * 63) ∧
      (bar0Ok (0x1000 + 16 * 63) 8 = true ∧ (s.region 63).secure = false ∧ (hidden.region 0).secure = true) ∧
      (bar0Ok (0x500058 + 0x400 * 7) 8 = true ∧ bar0Ok (0x500000 + 0x400 * 7) 8 = true ∧ s.barred (0x500058 + 0x400 * 7) = false ∧
        s.barred (0x500000 + 0x400 * 7) = false) ∧
      bar0Ok (0x1000000 + 0x40000 * 127 + 0x3FFFC) 4 = true ∧ bar0Ok (0x3000000 + 0x2000 * 127 + 0x1FFC) 4 = true ∧
      s.bar2Size - 1 + 1 ≤ s.bar2Size ∧ State.reset.winen = false ∧ s.winen = true ∧ 0 + [(0xFF : Byte)].length ≤ s.bar2Size ∧
      (∀ i < 1, inDevice (s.windowPa 0 + i) = true ∧ s.securePa (s.windowPa 0 + i) = false ∧ s.sealedLine (s.windowPa 0 + i) = none) ∧
      (∀ i < 1, hidden.securePa (hidden.windowPa 0 + i) = true) ∧ [(0xFF : Byte)] ≠ [] ∧ 10 ≤ 18 := by
  decide

/-- O47: the last doorbell bit done; every bit due with no group; a group that runs, which a slice takes out or which has stores
on their way or no save area; a handler wave, which it does not; an evicted group that finds room and one that does not. -/
theorem witness_HostEvents_doorbells :
    (let s := { State.reset with parts := [(7, { dbstat := 0x1F, dbdone := 0x10 })] }
     (s.part 7).dbstat.getLsbD 4 = true ∧ (s.part 7).dbdone.getLsbD 4 = true) ∧
    (let s := { State.reset with parts := [(7, { dbstat := 0x1F })] }
     (∀ bit < 5, (s.part 7).due bit = true) ∧ s.partGroups 7 .resident = [] ∧ s.partGroups 7 .evicted = [] ∧ s.blocks = [] ∧
       (mapKeys s.groups).Nodup ∧ ∀ y ∈ s.groups, ∀ t ∈ y.2.threads, t.atBreak = false) ∧
    (let s := rung g0 0
     (∀ bit < 5, (s.part 0).due bit = true) ∧ s.partGroups 0 .resident = [(0, g0)] ∧ s.group? 0 = some g0 ∧ g0.victim = true ∧
       s.evictReady 0 g0 = true ∧ g0.late = [] ∧ s.squeues = [] ∧ s.copies = [] ∧ s.saveFits 0 = false ∧ ((rung g0 1).part 0).savesize ≠ 0 ∧
       (mapKeys s.groups).Nodup ∧ ∀ y ∈ s.groups, ∀ t ∈ y.2.threads, t.atBreak = false) ∧
    (let g : Group := { g0 with handler := true }
     (rung g 1).partGroups 0 .resident = [(0, g)] ∧ g.victim = false ∧ (rung g 1).group? 0 = some g) ∧
    (let g : Group := { g0 with residence := .evicted }
     let wide : Group := { g with width := 65536, vregs := 256 }
     (rung g 1).partGroups 0 .evicted = [(0, g)] ∧ (rung g 1).group? 0 = some g ∧ g.binned = [] ∧
       (∃ x, (rung g 1).returnFits g g.core = some x) ∧ (rung wide 1).partGroups 0 .evicted = [(0, wide)] ∧ wide.binned = [] ∧
       (rung wide 1).group? 0 = some wide ∧ (rung wide 1).returnFits wide wide.core = none) := by
  refine ⟨by decide, by decide, ?_, by decide, ?_⟩
  · refine ⟨by decide, by decide, rfl, by decide, by decide, rfl, rfl, rfl, rfl, by decide, by decide, by decide⟩
  · exact ⟨by decide, rfl, rfl, some_of (by decide), by decide, rfl, rfl, by decide +kernel⟩

/-- A lane that the debugger holds at its breakpoint, and the device whose debug mailbox names it by its pennant. -/
def broken : Thread := { trapped0 with st := .halted .trapped }
def gb (tags : List (Nat × Nat)) : Group := { g0 with threads := [broken], stag := tags }

def debugging (part : Word) (tags : List (Nat × Nat)) : State :=
  at_ (gb tags) fun s => { s with
    parts := [(0, { ctl := 0x51401, dspen := 0x80000005, dspart := part, dsaddr := 0x40000 })]
    regions := [(0, { owners := 1, valid := true, size := 1 })] }

def portCommand (s : State) (part : Nat) (load : Bool) : PortCommand :=
  let p := s.part part
  { load := load, addr := p.dsaddr, pen := p.dspen, part := p.dspart }

theorem debugging_target (part : Word) (tags : List (Nat × Nat)) (load : Bool) (h : part = 0 ∨ part = 1)
    (ht : tags = [] ∨ tags = [(0, 0)]) :
    (debugging part tags).dsTarget 0 (portCommand (debugging part tags) 0 load) = .ok (0, 0, gb tags, broken) := by
  have all : ∀ n, ((List.range n).all fun i => inDevice (0x40000 + i) && (debugging part tags).admits 0 (0x40000 + i)) = true ∨ 0x10000 < n := by
    intro n
    by_cases hn : 0x10000 < n
    · exact .inr hn
    · refine .inl (List.all_eq_true.2 fun i hi => ?_)
      have hi := List.mem_range.1 hi
      have near : inDevice (0x40000 + i) = true := by
        simp only [inDevice, paKind, if_pos (show 0x40000 + i < 0x3000000000 by omega)]
      simp only [near, State.admits, show (debugging part tags).regions = [(0, { owners := 1, valid := true, size := 1 })] from rfl,
        List.any_cons, List.any_nil, MemRegion.holds, Bool.or_false, Bool.and_eq_true, decide_eq_true_eq]
      simp
      omega
  rcases h with rfl | rfl <;> rcases ht with rfl | rfl <;> cases load
  all_goals
    rw [State.dsTarget]
    rw [show ((debugging _ _).lanePen 0 (portCommand (debugging _ _) 0 _).pen).filter (fun (_, _, _, t) => t.atBreak) =
      some (0, 0, gb _, broken) from rfl]
    simp only []
    rw [if_neg (by decide), if_neg]
    rw [not_or, not_not]
    refine ⟨by decide, ?_⟩
    simp only [Bool.not_eq_true', Bool.not_eq_false]
    exact (all _).resolve_right (by decide)

/-- O48: the mailboxes of a secure partition; the last partition with an inspect under way, one that asks for an unknown form and one that asks of no grid; a mailbox
that names no lane, one with a command under way, and one that names a lane's image and its group's, whose results are there and are not; attestation at rest and under way; the last stack. -/
theorem witness_MailboxAndResetEvents :
    (let s := (secured 0).setPart 7 fun p => { p with ctl := 3 }
     s.barred (0x300000 + 64 * 7) = true ∧ s.barred (mailboxAt 7) = true) ∧
    (let s := { State.reset with parts := [(5, { dsbusy := some { load := true, addr := 0, pen := 0, part := 0 } }), (6, { hform := 5 }), (7, { hbusy := some (none, 3, 2), hdone := 8 })] }
     let ask := fun (p : Partition) => ({ form := bitsAt p.hform 0 5, scope := 2, lo := p.hname.extractLsb' 0 32
                                          hi := p.hname.extractLsb' 32 32, count := p.hcount.toNat } : Ask)
     7 < 8 ∧ (s.part 7).secure = false ∧ (s.part 7).dsbusy = none ∧ (s.part 5).dsbusy ≠ none ∧ (s.part 7).hbusy ≠ none ∧ (s.part 7).hbusy = some (none, 3, 2) ∧ (s.part 7).hdone.toNat % 8 = 0 ∧
       (s.part 7).hdone.toNat < 2 ^ 55 ∧ (s.part 6).hbusy = none ∧ s.aimHost 6 (ask (s.part 6)) = .error 1 ∧
       (s.part 0).hbusy = none ∧ s.aimHost 0 (ask (s.part 0)) = .ok { groups := [] } ∧ s.dsTarget 7 (portCommand s 7 true) = .error 1) ∧
    (∀ (part : Word) tags, part = 0 ∨ part = 1 → tags = [] ∨ tags = [(0, 0)] →
      let s := debugging part tags
      (∀ load, s.dsTarget 0 (portCommand s 0 load) = .ok (0, 0, gb tags, broken)) ∧ s.stateSettled 0 0 (gb tags) = tags.isEmpty ∧ (s.part 0).dsbusy = none ∧ (s.part 0).secure = false ∧ (s.part 0).dspart = part ∧
        (∀ i < 1600, s.sealedLine (0x40000 + i) = none) ∧ s.poisoned 0x40000 1600 = false ∧ s.group? 0 = some (gb tags)) ∧
    State.reset.attesting = false ∧ ({ State.reset with attesting := true } : State).attesting = true ∧ 3 < 4 ∧
    State.reset.net = [] ∧ (mapKeys State.reset.cores).Nodup ∧ (mapKeys State.reset.ports).Nodup := by
  refine ⟨by decide, ⟨by decide, by decide, by decide, by decide, by decide, rfl, by decide, by decide, rfl, rfl, rfl, rfl, rfl⟩, ?_, rfl, rfl, by decide, rfl, by decide, by decide⟩
  intro part tags h ht
  refine ⟨fun load => debugging_target part tags load h ht, ?_⟩
  rcases h with rfl | rfl <;> rcases ht with rfl | rfl <;> exact ⟨rfl, rfl, by decide, rfl, fun _ _ => rfl, rfl, rfl⟩

/-- A partition that owns port 7, whose request queues 0 and 1 and completion queue 2 are LIVE; descriptors 0 (RECV), 1 (BOWLINE
WRITE), 2 (SEND), 3 and 4 (the same of bytes that it may not read), 5 (RDMA READ) and 6 (no operation) at 0x40000, key 0 (4096 bytes from 0x48000) at 0x46000, and `entry` at the front of queue 0. -/
def ported (port : Port) (entry : Byte) (cqTail : Word := 0) : State :=
  { State.reset with
    mem := [(0x10000, 1), (0x10002, 2), (0x20000, 0x1F), (0x40000, 4), (0x40004, 16), (0x40040, 8), (0x40044, 16), (0x40049, 0x80),
            (0x4004A, 4), (0x40080, 1), (0x40084, 16), (0x40089, 0x80), (0x4008A, 4),
            (0x400C0, 8), (0x400C4, 16), (0x400CD, 1), (0x40100, 1), (0x40104, 16), (0x4010D, 1), (0x40140, 3), (0x40144, 16), (0x44000, entry), (0x46004, 3), (0x46009, 0x80),
            (0x4600A, 4), (0x46011, 0x10)]
    parts := [(0, { ctl := 0x51401, res := 0x80000001, ptroot := 0x10000 })]
    regions := [(0, { owners := 1, valid := true, size := 1 })]
    squeues := [(0, { base := 0x44000, state := 1, logcap := 6, tail := 1 }), (1, { base := 0x44100, state := 1, logcap := 6, tail := 1 }),
                (2, { base := 0x44200, state := 1, logcap := 6, tail := cqTail })]
    ports := [(7, port)] }

/-- Its control block, before ENABLE and after. -/
def port0 : Port :=
  { descbase := 0x40000, sendq := 0, recvq := 1, cq := 2, qpbase := 0x45000, qpcount := 1, keybase := 0x46000, keycount := 1
    rxbase := 0x48000, rxlen := 0x1000 }
def port1 : Port := { port0 with ctl := 0xE0001000, contexts := [(0, { state := 1 })] }

def takesB (s : State) (q : Nat) (w : Word) (p : State → Bool) : Bool :=
  match s.takeEntry q with
  | some (some x, t) => x == w && p t
  | _ => false

theorem takes_of {s : State} {q : Nat} {w : Word} {p : State → Bool} (h : takesB s q w p = true) :
    ∃ t, s.takeEntry q = some (some w, t) ∧ p t = true := by
  unfold takesB at h
  split at h
  · next x t e =>
    simp only [Bool.and_eq_true, beq_iff_eq] at h
    exact ⟨t, by rw [e, h.1], h.2⟩
  · contradiction

/-- A descriptor of an operation, of sixteen bytes at the local address, that the port can read. -/
def descB (t : State) (w : Word) (op : Nat) : Bool :=
  match t.readDesc 0 7 w with
  | .ok d => d.op == op && d.len == 16 && (op == 4 || okIs (t.portRead 0 d.laddr d.len) (List.replicate 16 0))
  | .error _ => false

theorem desc_of {t : State} {w : Word} {op : Nat} (h : descB t w op = true) :
    ∃ d, t.readDesc 0 7 w = .ok d ∧ d.op = op ∧ d.len = 16 ∧ (op = 4 ∨ t.portRead 0 d.laddr d.len = .ok (List.replicate 16 0)) := by
  unfold descB at h
  split at h
  · next d e =>
    simp only [Bool.and_eq_true, beq_iff_eq, Bool.or_eq_true] at h
    exact ⟨d, e, h.1.1, h.1.2, h.2.imp id okIs_of⟩
  · contradiction

set_option maxRecDepth 4000 in
/-- O49: the last port, disabled, not ready and ready, its one context readable; enabled, with a receive request, with a send request
of no descriptor, of a Bowline write and of a SEND on a context that is ready; room on the completion queue and none. -/
theorem witness_PortEvents :
    7 < 8 ∧
    (let s := (ported port1 64).setPart 0 fun p => { p with ctl := 0x51403 }
     s.barred (portAt 7) = true ∧ (s.port 7).enabled = true ∧ (ported port1 64).barred (portAt 7) = false ∧
       (ported port0 64).barred (portAt 7) = false) ∧
    (port0.enabled = false ∧ (ported port0 64).portReady 7 port0 = true ∧ (ported port0 64).portOwner 7 = some 0 ∧
      ({ port0 with descbase := 0 } : Port).enabled = false ∧ (ported port0 64).portReady 7 { port0 with descbase := 0 } = false) ∧
    (let s := ported port1 64
     port1.enabled = true ∧ (0xFFFFFFFFFFFF : DWord).setWidth 48 ≠ port1.mac ∧ s.portOwner 7 = some 0 ∧ 0 < port1.qpcount ∧
       (∃ bs, s.portRead 0 (port1.qpbase.toNat + 128 * 0) 128 = .ok bs) ∧ s.portTakes 7 = some 0 ∧
       (∃ t, s.takeEntry port1.recvq = some (some 0, t) ∧ descB t 0 4 = true) ∧
       (∃ t, s.takeEntry port1.sendq = some (some 64, t) ∧ ∃ e, t.readDesc 0 7 64 = .error e)) ∧
    (let s := ported port1 1
     s.portTakes 7 = some 0 ∧ ∃ t, s.takeEntry port1.sendq = some (some 1, t) ∧ descB t 1 8 = true ∧ (t.port 7).mtu = 4096 ∧
       (t.port 7).bowline = true) ∧
    (let s := ported port1 2
     s.portTakes 7 = some 0 ∧ ∃ t, s.takeEntry port1.sendq = some (some 2, t) ∧ descB t 2 1 = true ∧ (t.port 7).mtu = 4096 ∧
       (t.port 7).roce = true ∧ mapFind 0 (t.port 7).contexts = some { state := 1 }) ∧
    (let s := ported port1 2
     s.cqRoom 7 = true ∧ (s.squeue (s.port 7).cq).takers = [] ∧
       ∃ m, s.deviceWrite 0 ((s.squeue 2).entry (s.squeue 2).tail) (leBytes 4 0xF1000000) = .ok m) ∧
    (ported port1 2 64).cqRoom 7 = false := by
  refine ⟨by decide, by decide, ⟨by decide, by decide, by decide, by decide, by decide⟩, ⟨by decide, by decide, by decide, by decide, ok_of (by decide),
    by decide, takes_of (by decide), ?_⟩, ⟨by decide, ?_⟩, ⟨by decide, ?_⟩, ⟨by decide, by decide, ok_of (by decide)⟩, by decide⟩
  · obtain ⟨t, h, e⟩ := takes_of (s := ported port1 64) (q := 0) (w := 64) (p := fun t => isError (t.readDesc 0 7 64)) (by decide)
    exact ⟨t, h, error_of e⟩
  · obtain ⟨t, h, e⟩ := takes_of (s := ported port1 1) (q := 0) (w := 1)
      (p := fun t => descB t 1 8 && (t.port 7).mtu == 4096 && (t.port 7).bowline) (by decide)
    simp only [Bool.and_eq_true, beq_iff_eq] at e
    exact ⟨t, h, e.1.1, e.1.2, e.2⟩
  · obtain ⟨t, h, e⟩ := takes_of (s := ported port1 2) (q := 0) (w := 2)
      (p := fun t => descB t 2 1 && (t.port 7).mtu == 4096 && (t.port 7).roce && decide (mapFind 0 (t.port 7).contexts = some { state := 1 }))
      (by decide)
    simp only [Bool.and_eq_true, beq_iff_eq, decide_eq_true_eq] at e
    exact ⟨t, h, e.1.1.1, e.1.1.2, e.1.2, e.2⟩

/-- A descriptor of an operation, of sixteen bytes that the port may not read. -/
def failB (t : State) (w : Word) (op : Nat) : Bool :=
  match t.readDesc 0 7 w with
  | .ok d => d.op == op && d.len == 16 && isError (t.portRead 0 d.laddr d.len)
  | .error _ => false

theorem fail_of {t : State} {w : Word} {op : Nat} (h : failB t w op = true) :
    ∃ d e, t.readDesc 0 7 w = .ok d ∧ d.op = op ∧ d.len = 16 ∧ t.portRead 0 d.laddr d.len = .error e := by
  unfold failB at h
  split at h
  · next d e =>
    simp only [Bool.and_eq_true, beq_iff_eq] at h
    obtain ⟨x, hx⟩ := error_of h.2
    exact ⟨d, x, e, h.1.1, h.1.2, hx⟩
  · contradiction

/-- The port with a Bowline frame and a RoCE request on their way. -/
def port2 : Port :=
  { port1 with
    contexts := [(0, { state := 1, out := [{ idx := 9, first := 0, last := 0 }] })]
    blOut := [(0, { next := 4, out := [{ seq := 3, idx := 1, last := true }] })] }

/-- O49: requests that the port may not read, with nothing before them and with requests under way; an RDMA READ; no operation. -/
theorem witness_PortEvents_sends :
    (∀ p, p = port1 ∨ p = port2 → 
      (∃ t, (ported p 3).takeEntry p.sendq = some (some 3, t) ∧ (failB t 3 8 && (t.port 7).bowline) = true) ∧
      (∃ t, (ported p 4).takeEntry p.sendq = some (some 4, t) ∧
        (failB t 4 1 && (t.port 7).roce && decide (mapFind 0 (t.port 7).contexts = mapFind 0 p.contexts)) = true) ∧
      (ported p 3).portTakes 7 = some 0 ∧ (ported p 4).portTakes 7 = some 0) ∧
    (∃ t, (ported port1 5).takeEntry port1.sendq = some (some 5, t) ∧ descB t 5 3 = true) ∧
    (∃ t, (ported port1 6).takeEntry port1.sendq = some (some 6, t) ∧ okIs ((t.readDesc 0 7 6).map (·.op)) 0 = true) := by
  refine ⟨?_, takes_of (by decide +kernel), takes_of (by decide +kernel)⟩
  rintro p (rfl | rfl) <;>
    exact ⟨takes_of (by decide +kernel), takes_of (by decide +kernel), by decide, by decide⟩

/-- O49: DISABLE of a port with a posted buffer, with room on the completion queue and with none. -/
theorem witness_PortEvents_disable :
    let p : Port := { port1 with contexts := [], posted := [⟨5, 0x48000, 16⟩] }
    let s := ported p 64
    p.enabled = true ∧ p.taken = [5] ∧ p.contexts = [] ∧ s.cqRoom 7 = true ∧ (s.squeue p.cq).takers = [] ∧
      (∃ m, s.deviceWrite (s.squeue p.cq).part ((s.squeue p.cq).entry (s.squeue p.cq).tail)
        (leBytes 4 (15 * 2 ^ 28 + 6 * 2 ^ 24 + 5 % 2 ^ 24)) = .ok m) ∧
      (ported p 64 64).cqRoom 7 = false :=
  ⟨by decide, by decide, rfl, by decide, rfl, ok_of (by decide), by decide⟩

def doneB (x : PortWrite) : Bool :=
  match x with
  | .done _ => true
  | _ => false

theorem done_of {x : PortWrite} (h : doneB x = true) : ∃ m, x = .done m := by
  unfold doneB at h
  split at h
  · exact ⟨_, rfl⟩
  · contradiction

/-- A frame of sixteen bytes of sender 5, and the port that expects its sequence 0 and has one frame on its way to 5. -/
def bframe (opc : BitVec 8) (seq : Word) (addr : DWord) : BowlineFrame :=
  { smac := 5, ver := 1, opc := opc, seq := seq, addr := addr, len := 16, imm := 0xFFFFFFFF, payload := List.replicate 16 1 }

def bsent (seq : Word) (idx tries : Nat) (last : Bool := true) : BowlineSent := { seq := seq, idx := idx, last := last, tries := tries }

def bowling (out : List BowlineSent) : State :=
  { ported { port1 with blOut := [(5, { next := 5, out := out })] } 64 with
    wire := [{ port := 7, kind := .blWrite, dest := 5, seq := 4 }, { port := 7, kind := .blWrite, dest := 5, seq := 3 }] }

/-- O50: both frames in order, one out of order, one that ends a byte past the window; room on the completion queue. -/
theorem witness_BowlineEvents_frames :
    let s := bowling []
    let p := s.port 7
    s.rxPort 7 Port.bowline = some 0 ∧ mapGet 0 p.blIn 5 = 0 ∧ (16 : Word).toNat ≤ p.mtu ∧ (bframe 1 1 0x48000).seq ≠ 0 ∧
      ¬ (p.rxbase.toNat ≤ (bframe 1 0 0x48FF1).addr.toNat ∧ (bframe 1 0 0x48FF1).addr.toNat + 16 ≤ p.rxbase.toNat + p.rxlen.toNat) ∧
      (p.rxbase.toNat ≤ (bframe 2 0 0x48FF0).addr.toNat ∧ (bframe 2 0 0x48FF0).addr.toNat + 16 ≤ p.rxbase.toNat + p.rxlen.toNat) ∧
      p.rxlen ≠ 0 ∧ (∃ m, s.portWrite 0 0x48FF0 (List.replicate 16 1) = .done m) ∧ s.cqRoom 7 = true :=
  ⟨by decide, rfl, by decide, by decide, by decide, by decide, by decide, done_of (by decide), by decide⟩

/-- O50: one frame on its way, gone out again seven times and eight, and an answer to another; two frames of a message and of
two. -/
theorem witness_BowlineEvents_answers :
    (∀ tries, tries = 7 ∨ tries = 8 →
      let s := bowling [bsent 3 1 tries]
      let b := mapGet {} (s.port 7).blOut (5 : BitVec 48).toNat
      s.rxPort 7 Port.bowline = some 0 ∧ b.out = [bsent 3 1 tries] ∧ (∀ y ∈ b.out, y.fail ≠ none ∨ y.seq ≠ 4) ∧
        ∃ f, s.sentFrame 7 [.blWrite, .blFlag] (5 : BitVec 48).toNat 3 = some f) ∧
    (∀ last, let s := bowling [bsent 3 1 0 last, bsent 4 2 0]
      let b := mapGet {} (s.port 7).blOut (5 : BitVec 48).toNat
      s.rxPort 7 Port.bowline = some 0 ∧ b.out = [bsent 3 1 0 last, bsent 4 2 0] ∧ (bsent 3 1 0).seq ≠ (bsent 4 2 0).seq ∧
        (bsent 4 2 0).idx ≠ (bsent 3 1 0).idx ∧ ∃ f, s.sentFrame 7 [.blWrite, .blFlag] (5 : BitVec 48).toNat 4 = some f) := by
  refine ⟨?_, ?_⟩
  · rintro t (rfl | rfl) <;> exact ⟨by decide, rfl, by decide, some_of (by decide)⟩
  · rintro (_ | _) <;> exact ⟨by decide, rfl, by decide, by decide, some_of (by decide)⟩

/-- The port with a context. -/
def roced (c : RoceContext) (posted : List RecvBuf := []) : State := ported { port1 with contexts := [(0, c)], posted := posted } 64

def packet (psn : BitVec 24) (key : Word) (n : Nat) : RocePacket :=
  { context := 0, psn := psn, key := key, addr := 0x48FF0, len := 16, payload := List.replicate n 1, last := false }

/-- O51: packets with the PSN expected, with the one before it and with one that is not due, under a key that admits them to the last byte and one that does not; a SEND
with no buffer, into a posted one and into one begun; an RDMA READ's answer; a request to acknowledge; a context with its last
retry left and with none. -/
theorem witness_RoceEvents :
    let c : RoceContext := { state := 1 }
    let b : RecvBuf := ⟨1, 0x48000, 16⟩
    let read : RoceReq := { idx := 1, first := 0xFFFFFF, last := 0, read := true, addr := 0x48000, len := 32, got := 0, packets := 1 }
    let sent : RoceReq := { idx := 1, first := 0xFFFFFF, last := 0 }
    (let s := roced c
     7 < 8 ∧ s.rxContext 7 0 = some (0, c) ∧ (packet 1 0 16).psn ≠ c.rpsn ∧ (packet 0 0 16).psn = c.rpsn ∧
       s.keyAdmits 0 7 1 0x48FF0 (max 16 16) 1 = false ∧ s.keyAdmits 0 7 0 0x48FF0 (max 16 16) 1 = true ∧
       (∃ m, s.portWrite 0 0x48FF0 (List.replicate 16 1) = .done m) ∧ s.keyAdmits 0 7 0 0x48FF0 16 0 = true ∧
       s.portRead 0 0x48FF0 16 = .ok (List.replicate 16 0) ∧ 0 < (List.replicate 16 (0 : Byte)).length ∧
       (List.replicate 16 (0 : Byte)).length ≤ (s.port 7).mtu ∧ ¬ ((c.rpsn - (packet 1 0 16).psn).toNat ≤ 2 ^ 23) ∧
       (packet 0xFFFFFF 0 16).psn ≠ c.rpsn ∧ (c.rpsn - (packet 0xFFFFFF 0 16).psn).toNat ≤ 2 ^ 23 ∧ c.recv = none ∧ (s.port 7).posted = []) ∧
    ((roced c [b]).rxContext 7 0 = some (0, c) ∧ c.recv = none ∧ ((roced c [b]).port 7).posted.head? = some b ∧
      ∃ m, (roced c [b]).portWrite 0 (b.addr.toNat + 0) ((packet 0 0 16).payload.take (b.cap - 0)) = .done m) ∧
    (let c := { c with recv := some (b, 8) }
     (roced c).rxContext 7 0 = some (0, c) ∧
      ∃ m, (roced c).portWrite 0 (b.addr.toNat + 8) ((packet 0 0 16).payload.take (b.cap - 8)) = .done m) ∧
    (let c := { c with out := [read] }
     (roced c).rxContext 7 0 = some (0, c) ∧ (packet 0 0 16).psn = read.first + BitVec.ofNat 24 read.packets ∧
      read.got + (packet 0 0 16).payload.length < read.len ∧
      ∃ m, (roced c).portWrite 0 (read.addr.toNat + read.got) ((packet 0 0 16).payload.take (read.len - read.got)) = .done m) ∧
    (∀ tries, tries = 2 ∨ tries = 3 → 
     let c := { c with out := [sent], tries := tries, retry := 3 }
     (roced c).rxContext 7 0 = some (0, c) ∧ ((0 : BitVec 24) - sent.last).toNat < 2 ^ 23 ∧
      (c.out.filter fun r => !r.acked) ≠ [] ∧ (c.retry ≤ c.tries ↔ tries = 3)) := by
  refine ⟨⟨by decide, by decide, by decide, rfl, by decide, by decide, done_of (by decide), by decide, okIs_of (by decide), by decide,
    by decide, by decide, by decide, by decide, rfl, rfl⟩, ⟨by decide, rfl, rfl, done_of (by decide)⟩, ⟨by decide, done_of (by decide)⟩,
    ⟨by decide, by decide, by decide, done_of (by decide)⟩, ?_⟩
  rintro tries (rfl | rfl) <;> exact ⟨by decide, by decide, by decide, by decide⟩

/-- The device in a domain with device 63, its first GiB partition 0's. -/
def linked (net : List Req := []) : State :=
  { State.reset with members := 0x8000000000000001, regions := [(0, { owners := 1, valid := true, size := 1 })], net := net }

/-- O52: a request of the last device, in memory of its partition to the last word and outside it; an inspect of no grid; a load and a
store that wait on another device. -/
theorem witness_LinkEvents :
    (let s := linked
     s.members.getLsbD 63 = true ∧ 63 ≠ s.domain ∧ s.stopped = false ∧ s.admits 0 0x40000000 = false ∧
       (∀ i < 4, inDevice (0x3FFFFFFC + i) = true ∧ s.admits 0 (0x3FFFFFFC + i) = true) ∧ s.placeBlocked (.mem 0x3FFFFFFC) 4 = false ∧
       s.poisoned 0x3FFFFFFC 4 = false ∧ (∀ i < 4, s.sealedLine (0x3FFFFFFC + i) = none) ∧ atomBytes 1 = 4 ∧ 0x3FFFFFFC % 4 = 0 ∧
       s.sealedLine 0x3FFFFFFC = none ∧ 2 < 3 ∧
       s.named 0 ({ form := 2, scope := 2, lo := 0, hi := 0, count := 0 } : Ask).plain = .ok []) ∧
    (let r : Req := { id := 9, core := 0, slice := 0, gid := 0, part := 0, kind := .load (.mem 0x100000000000) 4 0 0 false }
     ((linked [r]).net.find? fun r => r.id == 9 && r.kind.remote) = some r) ∧
    (let r : Req := { id := 9, core := 0, slice := 0, gid := 0, part := 0
                      kind := .store { seq := 0, gid := 0, part := 0, core := 0, at_ := .mem 0x100000000000, bytes := [(0, 1)] } }
     ((linked [r]).net.find? fun r => r.id == 9 && r.kind.remote) = some r) ∧
    (let r : Req := { id := 9, core := 0, slice := 0, gid := 0, part := 0, kind := .atomic (.mem 0x100000000000) 4 { op := 0, ty := 1, operand := 1 } [] 0 }
     ((linked [r]).net.find? fun r => r.id == 9 && r.kind.remote) = some r) := by
  refine ⟨⟨by decide, by decide, rfl, by decide, by decide, by decide, rfl, fun _ _ => rfl, by decide, by decide, rfl, by decide, rfl⟩,
    by decide, by decide, by decide⟩

/-- A lane that waits for a peer's answer to its INSPECT, and the inspect. -/
def linkAsking (handles : List (Nat × Nat)) (pends : List Nat) : State :=
  at_ { g0 with threads := [{ st := .parked (.answer 3) }] } fun s => { s with
    inspects := [(9, { core := some 0, gid := 0, part := 0, form := 2, scope := 2, lo := 0, hi := 0, peer := some 63, handles := handles,
                       pends := pends })]
    pends := [(3, { id := 3, gid := 0, lanes := [0], dest := .answer, wait := 1, pc := 8, rentry := [0], rcount := [0] })] }

/-- O52: an inspect on the link that a handle stands for, and one that a lane waits for. -/
theorem witness_LinkEvents_inspect : ∀ h p, (h = [(1, 2)] ∧ p = []) ∨ (h = [] ∧ p = [3]) →
    let s := linkAsking h p
    (s.net.find? fun r => r.id == 9 && r.kind.remote) = none ∧
      (∃ x, mapFind 9 s.inspects = some x ∧ x.core = some 0 ∧ x.peer = some 63 ∧ x.handles = h ∧ x.pends = p) ∧
      (∃ q, mapFind 3 s.pends = some q ∧ q.id = 3 ∧ q.wait = 1 ∧ q.dest = .answer ∧ q.lanes = [0] ∧ q.gid = 0) ∧
      ∃ g th, s.group? 0 = some g ∧ g.thread? 0 = some th ∧ th.trap = none ∧ th.st = .parked (.answer 3) := by
  intro h p e
  exact ⟨rfl, ⟨_, rfl, rfl, rfl, rfl, rfl⟩, ⟨_, rfl, rfl, rfl, rfl, rfl, rfl⟩, _, _, rfl, rfl, rfl, rfl⟩

/-- O53: a group in an open region, under a predicate that a region admits and with an even pair of registers. -/
theorem witness_MeldRule :
    let g := { g0 with region := true }
    Calm (at_ g) 0 0 g ∧ g.region = true ∧ laneGuard g false 7 [] false = none ∧ laneGuard g false 7 [(8, 2)] false = none :=
  ⟨calm_of rfl rfl rfl (by decide), rfl, by decide, by decide⟩

/-- O54: a group whose q0 is false, outside a region and with no store of a tile begun. -/
theorem witness_UniformSkips :
    Calm (at_ g0) 0 0 g0 ∧ uniActive g0 0 = false ∧ uniActive g0 ((0 : BitVec 10).setWidth 4) = false ∧ g0.region = false ∧ g0.tst = none :=
  ⟨calm_of rfl rfl rfl (by decide), rfl, rfl, rfl, rfl⟩

/-- Every lane is ready, and its access fails with a cause. -/
def lanesFail (s : State) (g : Group) (f : MForm) (store : Bool) (c : Nat) : Bool :=
  (executing g 0 false 7).all fun x => memReadyB g x.2 [f.data] f.areg.toNat f.idx && decide (x.2.loads < 63) &&
    decide (accessCause s g (f.at_ g x.2).1 store (f.at_ g x.2).2.toNat f.bytes = some c)

theorem lanesFail_of {s : State} {g : Group} {f : MForm} {store : Bool} {c : Nat} (h : lanesFail s g f store c = true) :
    ∀ l t, (l, t) ∈ executing g 0 false 7 → f.ready g t [f.data] ∧
      accessCause s g (f.at_ g t).1 store (f.at_ g t).2.toNat f.bytes = some c := by
  intro l t m
  have h := List.all_eq_true.1 h _ m
  simp only [Bool.and_eq_true, decide_eq_true_eq] at h
  exact ⟨⟨memReady_of h.1.1, h.1.2⟩, h.2⟩

/-- O55: the lanes' words end past the range; they are misaligned; their page is not mapped. -/
theorem witness_AccessFaults :
    let s := at_ gm mapped
    Calm s 0 0 gm ∧ Coherent s gm.core gm.part ∧ laneGuard gm false 7 [(mf 3).data] false = none ∧
    (∀ l t, (l, t) ∈ executing gm 0 false 7 → (mf 3 236 0x10000).ready gm t [(mf 3).data] ∧
      accessCause s gm ((mf 3 236 0x10000).at_ gm t).1 false ((mf 3 236 0x10000).at_ gm t).2.toNat 16 = some 4) ∧
    (∀ l t, (l, t) ∈ executing gm 0 false 7 → (mf 3 236 1).ready gm t [(mf 3).data] ∧
      accessCause s gm ((mf 3 236 1).at_ gm t).1 true ((mf 3 236 1).at_ gm t).2.toNat 16 = some 8) ∧
    let s := at_ gm
    Calm s 0 0 gm ∧ Coherent s gm.core gm.part ∧
    ∀ l t, (l, t) ∈ executing gm 0 false 7 → (mf 3).ready gm t [(mf 3).data] ∧
      accessCause s gm ((mf 3).at_ gm t).1 true ((mf 3).at_ gm t).2.toNat 16 = some 6 :=
  ⟨calm_of rfl rfl rfl (by decide), coherent_of rfl rfl, by decide, lanesFail_of (f := mf 3 236 0x10000) (by decide),
    lanesFail_of (f := mf 3 236 1) (by decide), calm_of rfl rfl rfl (by decide), coherent_of rfl rfl, lanesFail_of (f := mf 3) (by decide)⟩

/-- O56: every operand at its highest value, in both encodings. -/
theorem witness_DecodeEncode :
    let l := Instr.iadd { d := 1023, a := 1023, b := 1023, c := 0, pred := 15, hold := 0, stall := 0, yld := false, mx := true, ty := 4 }
    let d := Instr.iadd { d := 255, a := 255, b := 255, c := 0, pred := 15, hold := 3, stall := 15, yld := true, mx := true, ty := 4 }
    Instr.wf .l l = true ∧ decodeBytes .l (encode .l l) = .ok (l, []) ∧ Instr.wf .d d = true ∧ decodeBytes .d (encode .d d) = .ok (d, []) :=
  ⟨by decide, okIs_of (by decide), by decide, okIs_of (by decide)⟩

/-- A group of one thread with words at its PC, already fetched. -/
def fetchedAt (bs : List Byte) : Group := { g0 with threads := [{}], fetched := [(0, bs ++ List.replicate (32 - bs.length) 0)] }

def atIssue (bs : List Byte) : Prop :=
  let g := fetchedAt bs
  let s := at_ g
  s.cur = some (0, { frags := [(0, 0)] }) ∧ s.stopped = false ∧ s.group? 0 = some g ∧ g.residence = .resident ∧ g.core = 0 ∧
    g.fragLanes 0 ≠ [] ∧ g.holds = [] ∧ (g.fragPc 0).toNat / 32 = 0 ∧
    mapFind 0 g.fetched = some (bs ++ List.replicate (32 - bs.length) 0)

def asIssued (bs : List Byte) : State :=
  { (at_ (fetchedAt bs)).unstall 0 { frags := [(0, 0)] } with
    groups := ((at_ (fetchedAt bs)).setGroup 0 id).groups, cur := some (0, { frags := [(0, 0)] }) }

def noneDue (s : State) : Bool :=
  (s.groups.all fun x => x.2.late.isEmpty && x.2.threads.all fun th => match th.st.parkedOn with
    | some (.barrier ..) => false
    | _ => true) && s.parts.all fun x => x.2.ringWait.isEmpty && x.2.dsbusy.isNone

theorem noneDue_of {s : State} (h : noneDue s = true) : NothingDue s := by
  simp only [noneDue, Bool.and_eq_true, List.all_eq_true, List.isEmpty_iff, Option.isNone_iff_eq_none] at h
  refine ⟨fun x m => ⟨(h.1 x m).1, fun th ht b i o w e => ?_⟩, h.2⟩
  simpa [e] using (h.1 x m).2 th ht

/-- O58: IADD of two words, its compact form of one, each completing; and a word of no instruction. -/
theorem witness_StepRunsDecoded :
    (atIssue [2, 1, 3, 0x60, 0x20, 0x70, 0, 0] ∧ twoWords .d [2, 1, 3, 0x60] = true ∧
      ∃ i, decodeBytes .d [2, 1, 3, 0x60, 0x20, 0x70, 0, 0] = .ok (i, []) ∧
        ∃ t, exec i (asIssued [2, 1, 3, 0x60, 0x20, 0x70, 0, 0]) = .next t ∧ (decide (t.cur = some (0, { frags := [(0, 0)] })) && noneDue t) = true) ∧
    (atIssue [7, 3, 0x0C, 0] ∧ twoWords .d [7, 3, 0x0C, 0] = false ∧
      ∃ i, decodeBytes .d [7, 3, 0x0C, 0] = .ok (i, []) ∧
        ∃ t, exec i (asIssued [7, 3, 0x0C, 0]) = .next t ∧ (decide (t.cur = some (0, { frags := [(0, 0)] })) && noneDue t) = true) ∧
    (NothingDue (at_ (fetchedAt [2, 1, 5, 0x8B])) ∧ NothingDue (at_ (fetchedAt [7, 3, 0x0C, 0])) ∧ atIssue [2, 1, 5, 0x8B] ∧ ∃ x, decodeBytes .d [2, 1, 5, 0x8B] = .error x) := by
  refine ⟨⟨⟨rfl, rfl, rfl, rfl, rfl, by decide, rfl, by decide, rfl⟩, by decide, .iadd (rf 3 1 2 0 7 0 true), okIs_of (by decide),
      next_of (by decide)⟩, ⟨⟨rfl, rfl, rfl, rfl, rfl, by decide, rfl, by decide, rfl⟩, by decide, .iaddCompact ⟨12, 3, 7⟩, okIs_of (by decide), next_of (by decide)⟩,
    noneDue_of (by decide), noneDue_of (by decide), ⟨rfl, rfl, rfl, rfl, rfl, by decide, rfl, by decide, rfl⟩, error_of (by decide)⟩

/-- O60: the machine after reset, and one with a byte of memory, each of which steps. -/
theorem witness_StepKeepsMemory :
    (State.reset.memOk ∧ ∃ t, step State.reset = .next t ∧ true = true) ∧
    (let s := { at_ (fetchedAt [7, 3, 0x0C, 0]) with mem := [(0x40000, 1)] }
     s.memOk ∧ ∃ t, step s = .next t ∧ true = true) :=
  ⟨⟨rfl, next_of (p := fun _ => true) (by decide)⟩, rfl, next_of (p := fun _ => true) (by decide)⟩

end Sys2Proof.Tests
end

-- ==== Proofs: the device right after reset (O59) ====
section
namespace Sys2Proof.Machine

/-- A lane whose random generator has not been seeded stands at the seed of zero (R76). -/
theorem generator_unseeded {c : Core} {lane : Nat} (h : mapFind lane c.rng = none) : c.generator lane = srSeed 0 lane := by
  rw [Core.generator, h, Option.getD_none]

/-- Settles O59: every clause reads off the reset record, whose maps are empty and so answer with their default record. -/
theorem resetState : Obligations.ResetState := by
  refine ⟨reset_memOk, rfl, rfl, rfl, rfl, rfl, rfl, rfl, ?memory, ?cores, ?partitions, ?queues, ?ports⟩
  case memory => exact fun _ => rfl
  case cores => exact fun _ => ⟨rfl, rfl, fun _ => generator_unseeded rfl⟩
  case partitions => exact fun _ => ⟨rfl, rfl, rfl, rfl, rfl, rfl, rfl, rfl, rfl⟩
  case queues => exact fun _ => ⟨rfl, rfl, rfl, rfl, rfl, rfl⟩
  case ports => exact fun _ => ⟨rfl, rfl, rfl, rfl, rfl⟩

end Sys2Proof.Machine
end

-- ==== Proofs: load events (O15) ====
section
/-! What the events of a load, a fetch and a page walk do (R29, R220, R224, R237, R258, R304), one lemma for each clause of
`Obligations.LoadEvents`. -/

namespace Sys2Proof.Machine

theorem part_setPart_self (s : State) (k : Nat) (f : Partition → Partition) : (s.setPart k f).part k = f (s.part k) :=
  mapGet_put_self ..

/-- Taking a request off the network changes nothing but the network. -/
theorem take_eq {s t : State} {req : Nat} {r : Req} (h : s.take req = some (r, t)) :
    t = { s with net := s.net.filter (·.id != req) } := by
  unfold State.take at h
  split at h
  · split at h
    · cases h; rfl
    · cases h
  · cases h

/-! ## Samples and poisoned lines -/

/-- A sample's clause of `Obligations.LoadEvents` (R258). -/
theorem sample_counts {s t : State} {req : Nat} {r : Req} {bytes : List (Nat × Byte)} {obj : Word}
    (ht : s.take req = some (r, t)) (hk : r.kind = .sample bytes obj) :
    ∃ u, exec (.staleReadSample req) s = .next u ∧ u.mem = s.mem ∧ u.groups = s.groups ∧
      (u.part r.part).samples = min ((s.part r.part).samples + 1) (2 ^ 32 - 1) ∧
      mapGet 0 (u.part r.part).stale (staleCounter obj) =
        if bytes.any fun x => s.byte x.1 != x.2 then
          min (mapGet 0 (s.part r.part).stale (staleCounter obj) + 1) (2 ^ 32 - 1)
        else mapGet 0 (s.part r.part).stale (staleCounter obj) := by
  have he : exec (.staleReadSample req) s = execStaleReadSample req s := rfl
  simp only [he, execStaleReadSample, ht, hk]
  obtain rfl := take_eq ht
  refine ⟨_, rfl, rfl, rfl, ?_, ?_⟩
  · rw [part_setPart_self]; rfl
  · rw [part_setPart_self]
    change mapGet 0 (if (bytes.any fun x => s.byte x.1 != x.2) = true then _ else _) _ = _
    split
    · rw [mapGet_put_self]; rfl
    · rfl

theorem mem_setAdd (j k : Nat) (xs : List Nat) : j ∈ setAdd k xs ↔ j = k ∨ j ∈ xs := by
  induction xs with
  | nil => simp [setAdd]
  | cons x xs ih => unfold setAdd; grind

/-- The log keeps the entry last made, whatever older ones it gives up. -/
theorem logError_last (s : State) (part : Nat) (e : LogEntry) :
    ((s.logError part e).part part).log.getLast? = some { e with seq := (s.part part).logSeq } := by
  unfold State.logError
  rw [part_setPart_self]
  dsimp only
  split
  · next h => rw [List.getLast?_drop, if_neg (by omega), List.getLast?_concat]
  · exact List.getLast?_concat

/-- The state with the four sectors of a line poisoned. -/
def State.poisonLine (s : State) (line : Nat) : State :=
  { s with poison := (List.range 4).foldl (fun m i => setAdd (4 * line + i) m) s.poison }

theorem mem_poisonLine (s : State) (line k : Nat) : k ∈ (s.poisonLine line).poison ↔ k ∈ s.poison ∨ k / 4 = line := by
  have hl : k / 4 = line ↔ k = 4 * line + 3 ∨ k = 4 * line + 2 ∨ k = 4 * line + 1 ∨ k = 4 * line := by omega
  simp only [State.poisonLine, List.range_succ, List.range_zero, List.nil_append, List.foldl_append, List.foldl_cons,
    List.foldl_nil, mem_setAdd, hl, Nat.add_zero]
  tauto

theorem poison_written {s : State} {part pa : Nat} (hd : inDevice pa = true) (hp : part < 8)
    (ho : ((s.slice (homeOf (128 * (pa / 128)))).owned.any fun x => x.1 == pa / 128) = false) :
    ∃ u, exec (.poisonWriteback part pa) s = .next u ∧ u.mem = s.mem ∧ u.groups = s.groups ∧
      (∀ k, k ∈ u.poison ↔ k ∈ s.poison ∨ k / 4 = pa / 128) ∧
      ((u.part part).log.getLast?.map fun e => (e.kind, e.addr)) = some (5, BitVec.ofNat 64 (128 * (pa / 128))) := by
  have hn : exec (.poisonWriteback part pa) s =
      .next ((s.poisonLine (pa / 128)).logError part { kind := 5, addr := BitVec.ofNat 64 (128 * (pa / 128)) }) :=
    if_pos (by simpa [hd, hp] using ho)
  refine ⟨_, hn, rfl, rfl, mem_poisonLine s _, ?_⟩
  rw [logError_last, Option.map_some]

theorem pageWalk_fills {s : State} {core part : Nat} {va : DWord} {e : TlbEntry} (hc : core < 128) (hv : va.toNat < 2 ^ 56)
    (hw : s.walk part va.toNat = some e) :
    ∃ u, exec (.pageWalk core part va) s = .next u ∧ u.mem = s.mem ∧ u.groups = s.groups ∧
      e ∈ (u.core core).tlb ∧ ∀ k, k ≠ core → u.core k = s.core k := by
  have he : exec (.pageWalk core part va) s = execPageWalk core part va s := rfl
  refine ⟨s.tlbFill core e, by rw [he, execPageWalk, if_pos ⟨hc, hv⟩, hw], rfl, rfl, ?_, fun k hk => ?_⟩
  · change e ∈ ((s.setCore core fun c => { c with tlb := tlbAdd e 256 c.tlb }).core core).tlb
    rw [core_setCore, if_pos rfl]
    exact List.mem_cons_self
  · change (s.setCore core fun c => { c with tlb := tlbAdd e 256 c.tlb }).core k = _
    rw [core_setCore, if_neg hk]

/-! ## Loads and fills at their home -/

@[simp] theorem dropFills_netIds (s : State) (core : Nat) (sel : Nat → Bool) :
    (s.dropFills core sel).net.map (·.id) = s.net.map (·.id) := by
  change (s.net.map _).map _ = _
  rw [List.map_map]
  refine List.map_congr_left fun r _ => ?_
  dsimp only [Function.comp_apply]
  split
  · split <;> rfl
  · rfl

/-- What a core's access learns of a copy drops sectors of its L1 and fills on their way to it, nothing else. -/
theorem learn_frame (s : State) (core : Nat) (p : Place) (n : Nat) :
    (s.learn core p n).mem = s.mem ∧ (s.learn core p n).poison = s.poison ∧ (s.learn core p n).groups = s.groups ∧
      (s.learn core p n).net.map (·.id) = s.net.map (·.id) := by
  unfold State.learn
  split
  · exact ⟨rfl, rfl, rfl, rfl⟩
  · dsimp only
    split
    · exact ⟨rfl, rfl, rfl, rfl⟩
    · exact ⟨rfl, rfl, rfl, by simp only [dropFills_netIds]⟩

theorem bytes_congr {s t : State} (h : t.mem = s.mem) (pa n : Nat) : t.bytes pa n = s.bytes pa n := by
  simp only [State.bytes, State.byte, h]

theorem poisoned_congr {s t : State} (h : t.poison = s.poison) (pa n : Nat) : t.poisoned pa n = s.poisoned pa n := by
  simp only [State.poisoned, h]

theorem homeSector_congr {s t : State} (hm : t.mem = s.mem) (hp : t.poison = s.poison) (pa : Nat) :
    t.homeSector (.mem pa) = s.homeSector (.mem pa) := by
  simp only [State.homeSector, bytes_congr hm, poisoned_congr hp]

theorem netIds_take (net : List Req) (req : Nat) :
    (net.filter (·.id != req)).map (·.id) = (net.map (·.id)).filter (· != req) := by
  simp only [List.filter_map, Function.comp_def]

/-- Only a peer refuses, and a refusal is one of the model's free choices. -/
theorem refused_cases (s : State) (pa : Nat) :
    (∃ n, (s.refused pa).2 = { s with freeCtr := n }) ∧ ((s.refused pa).1 = true → isPeer pa = true) := by
  unfold State.refused
  split
  · next h => exact ⟨⟨_, rfl⟩, fun _ => h⟩
  · exact ⟨⟨s.freeCtr, rfl⟩, nofun⟩

theorem reply_mem_replies (s : State) (r : Req) (pend to_ : Nat) (bytes : List Byte) (cause : Option (Nat × DWord))
    (fill : Option (Nat × L1Sector)) : ∃ x ∈ (s.reply r pend to_ bytes cause fill).replies, x.core = r.core ∧
      x.slice = some r.slice ∧ x.pend = pend ∧ x.to_ = to_ ∧ x.bytes = bytes ∧ x.cause = cause ∧ x.fill = fill :=
  ⟨_, List.mem_append_right _ (List.mem_singleton_self _), rfl, rfl, rfl, rfl, rfl, rfl, rfl⟩

theorem load_answered {s t : State} {req : Nat} {r : Req} {pa n pend k : Nat} {fill : Bool}
    (ht : s.take req = some (r, t)) (hk : r.kind = .load (.mem pa) n pend k fill) :
    ∃ u, exec (.loadRequestAtHome req) s = .next u ∧ u.mem = s.mem ∧ u.groups = s.groups ∧
      u.net.map (·.id) = (s.net.map (·.id)).filter (· != req) ∧
      ∃ x ∈ u.replies, x.core = r.core ∧ x.slice = some r.slice ∧ x.pend = pend ∧ x.to_ = k ∧
        ((x.bytes = s.bytes pa n ∧ x.cause = if s.poisoned pa n then some (0x11, BitVec.ofNat 64 pa) else none) ∨
          (isPeer pa = true ∧ x.bytes = [] ∧ x.cause = some (7, s.pendEa pend))) := by
  have he : exec (.loadRequestAtHome req) s = execLoadRequestAtHome req s := rfl
  simp only [he, execLoadRequestAtHome, ht, hk]
  obtain ⟨⟨c, hc⟩, hp⟩ := refused_cases t pa
  obtain rfl := take_eq ht
  split
  case h_1 v hr =>
    rw [hr] at hc hp
    obtain rfl := hc
    obtain ⟨x, hx, h1, h2, h3, h4, h5, h6, -⟩ := reply_mem_replies _ r pend k [] (some (7, s.pendEa pend)) none
    exact ⟨_, rfl, rfl, rfl, netIds_take .., x, hx, h1, h2, h3, h4, .inr ⟨hp rfl, h5, h6⟩⟩
  case h_2 v hr =>
    rw [hr] at hc
    obtain rfl := hc
    unfold State.serveLoad
    obtain ⟨hm, hq, hg, hn⟩ := learn_frame { s with net := s.net.filter (·.id != req), freeCtr := c } r.core (.mem pa) n
    refine ⟨_, rfl, hm, hg, hn.trans (netIds_take ..), ?_⟩
    obtain ⟨x, hx, h1, h2, h3, h4, h5, h6, -⟩ := reply_mem_replies _ r pend k _ _ _
    exact ⟨x, hx, h1, h2, h3, h4, .inl ⟨h5.trans (bytes_congr hm pa n), h6⟩⟩

theorem fill_handed {s t : State} {req : Nat} {r : Req} {pa : Nat} (ht : s.take req = some (r, t)) (hk : r.kind = .fill pa true) :
    ∃ u, exec (.loadRequestAtHome req) s = .next u ∧ u.mem = s.mem ∧ u.groups = s.groups ∧
      ∃ x ∈ u.replies, x.core = r.core ∧ x.fill = some (pa / 32,
        { bytes := s.bytes (pa / 32 * 32) 32, poison := s.poisoned (pa / 32 * 32) 32 }) := by
  have he : exec (.loadRequestAtHome req) s = execLoadRequestAtHome req s := rfl
  simp only [he, execLoadRequestAtHome, ht, hk, if_true]
  obtain rfl := take_eq ht
  obtain ⟨hm, hq, hg, -⟩ := learn_frame { s with net := s.net.filter (·.id != req) } r.core (.mem pa) 32
  obtain ⟨x, hx, h1, -, -, -, -, -, h7⟩ := reply_mem_replies
    (State.learn { s with net := s.net.filter (·.id != req) } r.core (.mem pa) 32) r _ 0 [] none _
  exact ⟨_, rfl, hm, hg, x, hx, h1, h7.trans (homeSector_congr hm hq pa)⟩

/-! ## Code -/

theorem instructionFetch_idle {s : State} {gid : Nat} {va : DWord} {g : Group} (hg : s.group? gid = some g)
    (hr : g.residence ≠ .resident ∨ g.reaches (va.toNat / 32) 65 (g.live.filterMap fun l => (g.thread? l).map (·.pc)) = false) :
    exec (.instructionFetch gid va) s = .next s := by
  have he : exec (.instructionFetch gid va) s = execInstructionFetch gid va s := rfl
  rw [he, execInstructionFetch, hg]
  refine if_neg ?_
  rw [Bool.and_eq_true, beq_iff_eq]
  obtain hr | hr := hr
  · exact fun h => hr h.1
  · rw [hr]; exact fun h => Bool.false_ne_true h.2

theorem reaches_of_thread {g : Group} {sector l : Nat} {th : Thread} (hl : l ∈ g.live) (ht : g.thread? l = some th)
    (hp : th.pc.toNat / 32 = sector) (n : Nat) :
    g.reaches sector (n + 1) (g.live.filterMap fun l => (g.thread? l).map (·.pc)) = true := by
  unfold Group.reaches
  rw [Bool.or_eq_true]
  refine .inl (List.any_eq_true.mpr ⟨th.pc, List.mem_filterMap.mpr ⟨l, hl, by rw [ht]; rfl⟩, ?_⟩)
  simp [hp]

theorem fetchSector_ok {s : State} {core part va : Nat} {e : TlbEntry} (hc : Coherent s core part) (hv : va / 32 * 32 < 2 ^ 56)
    (hw : s.walk part (va / 32 * 32) = some e) (hx : e.x = true) (hd : inDevice (e.pa (va / 32 * 32)) = true)
    (ha : s.admits part (e.pa (va / 32 * 32)) = true) (hp : s.poisoned (e.pa (va / 32 * 32)) 32 = false)
    (hi : mapFind (e.pa (va / 32 * 32) / 128) (s.core core).icache = none) :
    ∃ t, s.fetchSector core part va = (.ok (s.bytes (e.pa (va / 32 * 32)) 32), t) ∧ t.mem = s.mem ∧ t.groups = s.groups := by
  obtain ⟨t, hu, ho, -⟩ := translate_coherent hc (va / 32 * 32)
  have hmem : t.mem = s.mem := by rw [ho.rest]
  have hgroups : t.groups = s.groups := by rw [ho.rest]
  have hpoison : t.poisoned (e.pa (va / 32 * 32)) 32 = false := (poisoned_congr (by rw [ho.rest]) ..).trans hp
  have hadmits : t.admits part (e.pa (va / 32 * 32)) = true := by
    rw [← ha]; unfold State.admits State.part; rw [ho.rest]
  have hicache : mapFind (e.pa (va / 32 * 32) / 128) (t.core core).icache = none := by rw [ho.cores]; exact hi
  have hn : ¬ 2 ^ 56 ≤ va / 32 * 32 := by omega
  rw [← bytes_congr hmem, ← hmem, ← hgroups]
  simp only [State.fetchSector, hn, hu, hw, hx, hd, hadmits, hpoison, hicache, if_false, Bool.not_true, Bool.false_eq_true]
  split <;> exact ⟨_, rfl, rfl, rfl⟩

theorem instructionFetch_reads {s : State} {gid : Nat} {va : DWord} {g : Group} {e : TlbEntry} (hg : s.group? gid = some g)
    (hr : g.residence = .resident) (hc : Coherent s g.core g.part) (hv : va.toNat < 2 ^ 56)
    (hl : ∃ l ∈ g.live, ∃ th, g.thread? l = some th ∧ th.pc.toNat / 32 = va.toNat / 32)
    (hw : s.walk g.part (va.toNat / 32 * 32) = some e) (hx : e.x = true) (hd : inDevice (e.pa (va.toNat / 32 * 32)) = true)
    (ha : s.admits g.part (e.pa (va.toNat / 32 * 32)) = true) (hp : s.poisoned (e.pa (va.toNat / 32 * 32)) 32 = false)
    (hi : mapFind (e.pa (va.toNat / 32 * 32) / 128) (s.core g.core).icache = none) :
    ∃ u h, exec (.instructionFetch gid va) s = .next u ∧ u.mem = s.mem ∧ u.group? gid = some h ∧
      h = { g with fetched := h.fetched } ∧
      mapFind (va.toNat / 32) h.fetched = some (s.bytes (e.pa (va.toNat / 32 * 32)) 32) := by
  obtain ⟨l, hl, th, ht, hpc⟩ := hl
  obtain ⟨t, hf, hm, hgr⟩ := fetchSector_ok hc (by omega) hw hx hd ha hp hi
  have he : exec (.instructionFetch gid va) s = execInstructionFetch gid va s := rfl
  have hgt : t.group? gid = some g := by unfold State.group?; rw [hgr]; exact hg
  have hgo : (g.residence == .resident && g.reaches (va.toNat / 32) 65
      (g.live.filterMap fun l => (g.thread? l).map (·.pc))) = true := by
    rw [reaches_of_thread hl ht hpc, hr]; rfl
  simp only [he, execInstructionFetch, hg, hgo, hf, if_true]
  refine ⟨_, _, rfl, hm, by rw [group?_setGroup, if_pos rfl, hgt]; rfl, rfl, mapFind_insert_self ..⟩

/-! ## Replies -/

theorem deliver_cons (t : Thread) (pend r : Nat) (regs : List Nat) (w : Word) (ws : List Word) :
    t.deliver pend (r :: regs) (w :: ws) =
      (if mapFind r t.vtag == some pend then { t with v := mapPut 0 r w t.v, vtag := mapErase r t.vtag } else t).deliver
        pend regs ws := rfl

/-- A reply's words change a thread's registers and their tags, nothing else. -/
theorem deliver_rest (pend : Nat) (regs : List Nat) (ws : List Word) (t : Thread) :
    t.deliver pend regs ws = { t with v := (t.deliver pend regs ws).v, vtag := (t.deliver pend regs ws).vtag } := by
  induction regs generalizing t ws with
  | nil => rfl
  | cons r regs ih =>
    cases ws with
    | nil => rfl
    | cons w ws =>
      rw [deliver_cons]
      split
      · exact ih ws _
      · exact ih ws t

theorem deliver_other (pend : Nat) (regs : List Nat) (ws : List Word) (t : Thread) {k : Nat} (hk : k ∉ regs) :
    mapGet 0 (t.deliver pend regs ws).v k = mapGet 0 t.v k := by
  induction regs generalizing t ws with
  | nil => rfl
  | cons r regs ih =>
    obtain ⟨hr, hk⟩ : k ≠ r ∧ k ∉ regs := by simpa only [List.mem_cons, not_or] using hk
    cases ws with
    | nil => rfl
    | cons w ws =>
      rw [deliver_cons, ih ws _ hk]
      split
      · exact mapGet_put_of_ne _ hr _ _
      · rfl

theorem deliver_word {pend : Nat} {regs : List Nat} {ws : List Word} {t : Thread} (hn : regs.Nodup)
    (ht : ∀ k ∈ regs, mapFind k t.vtag = some pend) {i : Nat} (hi : i < regs.length) (hw : i < ws.length) :
    mapGet 0 (t.deliver pend regs ws).v regs[i] = ws[i] := by
  induction regs generalizing t ws i with
  | nil => cases hi
  | cons r regs ih =>
    obtain ⟨hr, hn⟩ := List.nodup_cons.mp hn
    cases ws with
    | nil => cases hw
    | cons w ws =>
      rw [deliver_cons, ht r List.mem_cons_self, if_pos (beq_self_eq_true _)]
      cases i with
      | zero => exact (deliver_other _ _ _ _ hr).trans (mapGet_put_self ..)
      | succ i =>
        refine ih hn (fun k hk => ?_) _ _
        rw [mapFind_erase, if_neg (ne_of_mem_of_not_mem hk hr)]
        exact ht k (List.mem_cons_of_mem _ hk)

theorem bytesWords_get {n i : Nat} (bs : List Byte) (hi : i < (bytesWords n bs).length) :
    (bytesWords n bs)[i] = BitVec.ofNat 32 (leNat ((bs.drop (4 * i)).take 4)) := by
  simp only [bytesWords, List.getElem_map, List.getElem_range]

/-- A lane's thread as it was, but for its state and its fragment. -/
def Group.KeepsLane (th : Thread) (l : Nat) (g : Group) : Prop :=
  ∃ t, g.thread? l = some t ∧ t = { th with st := t.st, frag := t.frag }

theorem foldl_keepsLane {α : Type} {th : Thread} {l : Nat} {f : Group → α → Group}
    (hf : ∀ g a, g.KeepsLane th l → (f g a).KeepsLane th l) (xs : List α) :
    ∀ {g : Group}, g.KeepsLane th l → (xs.foldl f g).KeepsLane th l := by
  induction xs with
  | nil => exact id
  | cons x xs ih => exact fun h => ih (hf _ x h)

theorem regroup_keepsLane {th : Thread} {l : Nat} {g : Group} (lanes : List Nat) (h : g.KeepsLane th l) :
    (g.regroup lanes).KeepsLane th l := by
  unfold Group.regroup
  split
  · exact h
  · dsimp only
    split
    · exact h
    · obtain ⟨t, ht, e⟩ := h
      obtain ⟨⟨f, hf⟩, -⟩ := putFrag_thread g _ (g.fragInfo _).parent (g.fragInfo _).sib l
      refine ⟨{ t with frag := f t }, ?_, ?_⟩
      · rw [thread?_prune, hf, ht]; rfl
      · rw [e]

theorem wake_keepsLane {th : Thread} {l : Nat} {g : Group} (lanes : List Nat) (h : g.thread? l = some th) :
    (g.wake lanes).KeepsLane th l := by
  refine foldl_keepsLane (fun g (c : _ × List Nat) => regroup_keepsLane c.2) _ (foldl_keepsLane ?_ lanes ⟨th, h, rfl⟩)
  intro g k ⟨t, ht, e⟩
  by_cases hk : l = k
  · exact ⟨{ t with st := t.st.woken }, by rw [thread?_setThread, if_pos hk, ht]; rfl, by rw [e]⟩
  · exact ⟨t, by rw [thread?_setThread, if_neg hk, ht], e⟩

theorem thread?_setGroup {s : State} {gid l : Nat} {g : Group} (f : Group → Group) (hg : s.group? gid = some g) :
    (s.setGroup gid f).thread? gid l = (f g).thread? l := by
  rw [State.thread?, group?_setGroup, if_pos rfl, hg]; rfl

theorem group?_of_thread? {s : State} {gid l : Nat} {th : Thread} (h : s.thread? gid l = some th) :
    ∃ g, s.group? gid = some g ∧ g.thread? l = some th := Option.bind_eq_some_iff.mp h

theorem settleTrap_untrapped {s : State} {gid l : Nat} {th : Thread} (h : s.thread? gid l = some th) (ht : th.trap = none) :
    s.settleTrap gid l = s := by
  obtain ⟨g, hg, hl⟩ := group?_of_thread? h
  rw [State.settleTrap, hg]
  simp only [hl, Option.any_some, ht, Option.any_none, Bool.false_and, Bool.false_eq_true, if_false]

theorem owePaid_thread? (s : State) (p : Pend) (gid l : Nat) : (s.owePaid p).thread? gid l = s.thread? gid l := by
  unfold State.owePaid
  split
  · split
    · rw [State.thread?, State.thread?, group?_setGroup]
      split
      · next h => subst h; cases s.group? p.gid <;> rfl
      · rfl
    · rfl
  · rfl

theorem owePaid_rest (s : State) (p : Pend) : s.owePaid p = { s with groups := (s.owePaid p).groups } := by
  unfold State.owePaid
  split
  · split <;> rfl
  · rfl

/-- An operation whose last reply has come without a cause commits, and its lanes are woken. -/
theorem settlePend_commits {s : State} {id : Nat} {p : Pend} (got : Bool) (hp : mapFind id s.pends = some p) (hw : p.wait = 0)
    (hl : p.lanes ≠ []) (hc : p.cause = none) :
    ∃ lanes : Group → List Nat, s.settlePend id got =
      ((({ s with pends := mapErase id s.pends } : State).commit p got).setGroup p.gid fun g => g.wake (lanes g)).settleTraps p := by
  unfold State.settlePend
  simp only [hp, hw, hc, ne_eq, not_true_eq_false, if_false, List.isEmpty_iff, hl]
  exact ⟨_, rfl⟩

/-- What a lane's thread is once its load's words have come. -/
def Thread.loaded (t : Thread) (p : Pend) (regs : List Nat) : Thread :=
  { (t.deliver p.id regs (bytesWords regs.length p.bytes)).forget p.id with
    loads := (t.deliver p.id regs (bytesWords regs.length p.bytes)).loads - 1 }

/-- A load's words change registers, their tags and the count of loads under way. -/
theorem loaded_rest (t : Thread) (p : Pend) (regs : List Nat) :
    (t.loaded p regs).pc = t.pc ∧ (t.loaded p regs).p = t.p ∧ (t.loaded p regs).trap = t.trap ∧
      (t.loaded p regs).loads = t.loads - 1 := by
  unfold Thread.loaded Thread.forget
  rw [deliver_rest]
  exact ⟨rfl, rfl, rfl, rfl⟩

theorem load_settles {s : State} {id l : Nat} {p : Pend} {regs : List Nat} {th : Thread} (got : Bool)
    (hp : mapFind id s.pends = some p) (hw : p.wait = 0) (hl : p.lanes = [l]) (hc : p.cause = none) (hd : p.dest = .vec l regs)
    (ht : s.thread? p.gid l = some th) (hu : th.trap = none) :
    ∃ u t, s.settlePend id got = u ∧ u.mem = s.mem ∧ mapFind id u.pends = none ∧ u.thread? p.gid l = some t ∧
      t = { th.loaded p regs with st := t.st, frag := t.frag } := by
  obtain ⟨-, -, htr, -⟩ := loaded_rest th p regs
  obtain ⟨lanes, he⟩ := settlePend_commits got hp hw (by rw [hl]; exact List.cons_ne_nil _ _) hc
  rw [he, State.commit, hd]
  dsimp only
  generalize hv : State.owePaid _ p = v
  have hvt : v.thread? p.gid l = some (th.loaded p regs) := by
    obtain ⟨g, hg, hl⟩ := group?_of_thread? ht
    rw [← hv, owePaid_thread?]
    refine (thread?_setGroup (s := { s with pends := mapErase id s.pends }) _ hg).trans ?_
    rw [thread?_setThread, if_pos rfl, hl]
    rfl
  have hvm : v.mem = s.mem := by rw [← hv, owePaid_rest]; rfl
  have hvp : v.pends = mapErase id s.pends := by rw [← hv, owePaid_rest]; rfl
  obtain ⟨g, hg, hgl⟩ := group?_of_thread? hvt
  obtain ⟨t, htl, e⟩ := wake_keepsLane (lanes g) hgl
  have hwt : (v.setGroup p.gid fun g => g.wake (lanes g)).thread? p.gid l = some t := (thread?_setGroup _ hg).trans htl
  have htrap : t.trap = none := by
    rw [e]; exact htr.trans hu
  refine ⟨_, t, rfl, ?_⟩
  rw [State.settleTraps, hl, List.foldl_cons, List.foldl_nil, settleTrap_untrapped hwt htrap]
  refine ⟨hvm, ?_, hwt, e⟩
  rw [setGroup_pends, hvp, mapFind_erase, if_pos rfl]

/-- An operation that a reply has reached. -/
def Pend.answered (r : Reply) (p : Pend) : Pend :=
  { p with data := fillFrom r.to_ r.bytes p.data, wait := p.wait - 1, cause := p.cause.orElse fun _ => r.cause }

/-- The state in which a reply has reached its core and its operation, which has not settled yet. -/
def State.replied (s : State) (reply : Nat) (r : Reply) : State :=
  let s := { s with replies := s.replies.filter (·.id != reply) }
  let s := match r.fill with
    | some (k, x) => s.l1Put r.core k x
    | none => s
  s.setPend r.pend (·.answered r)

theorem replied_rest (s : State) (reply : Nat) (r : Reply) : (s.replied reply r).mem = s.mem ∧
    (s.replied reply r).groups = s.groups ∧ (s.replied reply r).pends = mapUpdate r.pend (·.answered r) s.pends := by
  unfold State.replied
  dsimp only
  split <;> exact ⟨rfl, rfl, rfl⟩

/-- The oldest reply of its slice to its core reaches its operation, which settles if that was the last. -/
theorem sliceReply_reaches {s : State} {reply : Nat} {r : Reply} (hr : s.replies.find? (·.id == reply) = some r)
    (ho : ∀ x ∈ s.replies.takeWhile (fun x => x.id != reply), x.core = r.core → x.slice = r.slice → x.slice = none)
    (ha : s.ackAhead r = false) :
    exec (.sliceReply reply) s = .next ((s.replied reply r).settlePend r.pend r.got) := by
  have hfirst : ((s.replies.takeWhile fun x => x.id != reply).any fun x =>
      x.core == r.core && x.slice == r.slice && r.slice.isSome) = false := by
    refine List.any_eq_false.mpr fun x hx h => ?_
    simp only [Bool.and_eq_true, beq_iff_eq] at h
    obtain ⟨⟨hcore, hslice⟩, hsome⟩ := h
    rw [← hslice, ho x hx hcore hslice] at hsome
    cases hsome
  have he : exec (.sliceReply reply) s = execSliceReply reply s := rfl
  simp only [he, execSliceReply, hr, hfirst, ha, Bool.or_false, Bool.false_eq_true, if_false]
  rfl

theorem reply_delivered {s : State} {reply l : Nat} {r : Reply} {p : Pend} {regs : List Nat} {th : Thread}
    (hr : s.replies.find? (·.id == reply) = some r)
    (ho : ∀ x ∈ s.replies.takeWhile (fun x => x.id != reply), x.core = r.core → x.slice = r.slice → x.slice = none)
    (ha : s.ackAhead r = false) (hp : mapFind r.pend s.pends = some p) (hw : p.wait = 1)
    (hc : p.cause = none) (hrc : r.cause = none) (hl : p.lanes = [l]) (hd : p.dest = .vec l regs) (hn : regs.Nodup)
    (ht : s.thread? p.gid l = some th) (hu : th.trap = none) (hv : ∀ k ∈ regs, mapFind k th.vtag = some p.id) :
    ∃ u th', exec (.sliceReply reply) s = .next u ∧ u.mem = s.mem ∧ u.thread? p.gid l = some th' ∧
      mapFind r.pend u.pends = none ∧ th'.pc = th.pc ∧ th'.p = th.p ∧ th'.loads = th.loads - 1 ∧
      (∀ k, k < regs.length → mapGet 0 th'.v (regs.getD k 0) = BitVec.ofNat 32
        (leNat ((((fillFrom r.to_ r.bytes p.data).map (·.getD 0)).drop (4 * k)).take 4))) ∧
      (∀ k, k ∉ regs → mapGet 0 th'.v k = mapGet 0 th.v k) := by
  obtain ⟨hmem, hgroups, hpends⟩ := replied_rest s reply r
  have hfind : mapFind r.pend (s.replied reply r).pends = some (p.answered r) := by
    rw [hpends, mapFind_update, if_pos rfl, hp]; rfl
  have hthread : (s.replied reply r).thread? (p.answered r).gid l = some th := by
    rw [← ht]; simp only [State.thread?, State.group?, hgroups]; rfl
  have hwait : (p.answered r).wait = 0 := by rw [Pend.answered, hw]
  have hcause : (p.answered r).cause = none := by rw [Pend.answered, hc, hrc]; rfl
  obtain ⟨u, t, he, hum, hup, hut, htu⟩ := load_settles r.got hfind hwait hl hcause hd hthread hu
  obtain ⟨hpc, hpred, -, hloads⟩ := loaded_rest th (p.answered r) regs
  refine ⟨u, t, by rw [sliceReply_reaches hr ho ha, he], hum.trans hmem, hut, hup, ?pc, ?pred, ?loads, ?words, ?others⟩
  case pc => rw [htu]; exact hpc
  case pred => rw [htu]; exact hpred
  case loads => rw [htu]; exact hloads
  case words =>
    intro k hk
    have hlen : k < (bytesWords regs.length (p.answered r).bytes).length := by simpa [bytesWords] using hk
    rw [htu, List.getD_eq_getElem _ _ hk]
    exact (deliver_word hn hv hk hlen).trans (bytesWords_get ..)
  case others =>
    intro k hk
    rw [htu]
    exact deliver_other _ _ _ _ hk

/-- Settles O15, one lemma for each event and case: loads and fills at their home, replies, poisoned lines, samples, code
and page walks. -/
theorem loadEvents : Obligations.LoadEvents := by
  refine ⟨⟨?load, ?fill, ?reply, ?poison, ?sample⟩, ?fetch, ?idle, ?walk⟩
  case load => exact fun _ _ _ _ _ _ _ _ _ ht hk => load_answered ht hk
  case fill => exact fun _ _ _ _ _ ht hk => fill_handed ht hk
  case reply =>
    exact fun _ _ _ _ _ _ _ hr ho ha hp _ hw hc hrc hl hd hn ht hu hv => reply_delivered hr ho ha hp hw hc hrc hl hd hn ht hu hv
  case poison => exact fun _ _ _ hd hp ho => poison_written hd hp ho
  case sample => exact fun _ _ _ _ _ _ ht hk => sample_counts ht hk
  case fetch => exact fun _ _ _ _ _ hg hr hc hv hl hw hx hd ha hp hi => instructionFetch_reads hg hr hc hv hl hw hx hd ha hp hi
  case idle => exact fun _ _ _ _ hg hr => instructionFetch_idle hg hr
  case walk => exact fun _ _ _ _ _ hc hv hw => pageWalk_fills hc hv hw

end Sys2Proof.Machine
end

-- ==== Proofs: every step keeps memory in its canonical form (O60) ====
section
/-! Every operation of the model that changes a state keeps `State.memOk`: one lemma for each, in the model's own order, so
that an operation's lemma cites those of the operations that it calls. `x_memOk` is of a function that gives a state,
`x_keeps` of an instruction, an event or a shape that many of them share. Memory itself is written by `State.write` alone,
and by a cold reset, which drops bytes. -/

namespace Sys2Proof.Machine

/-! ## What it means to keep memory -/

theorem foldl_of_memOk {α β : Type} {f : α → β → α} (st : α → State) (hf : ∀ a b, (st a).memOk → (st (f a b)).memOk)
    (xs : List β) : ∀ {a : α}, (st a).memOk → (st (xs.foldl f a)).memOk := by
  induction xs with
  | nil => exact id
  | cons x xs ih => exact fun h => ih (hf _ x h)

theorem foldl_memOk {α : Type} {f : State → α → State} (hf : ∀ s a, s.memOk → (f s a).memOk) (xs : List α) :
    ∀ {s : State}, s.memOk → (xs.foldl f s).memOk := foldl_of_memOk id hf xs

theorem foldl_snd_memOk {α β : Type} {f : β × State → α → β × State} (hf : ∀ p a, p.2.memOk → (f p a).2.memOk) (xs : List α) :
    ∀ {p : β × State}, p.2.memOk → (xs.foldl f p).2.memOk := foldl_of_memOk Prod.snd hf xs

/-- The state that a lane's part of an instruction leaves, where it leaves one, keeps memory in its canonical form. -/
def LaneOut.memOk : LaneOut → Prop
  | .done s _ => s.memOk
  | _ => True

/-- The same of a group's part of an instruction. -/
def UniOut.memOk : UniOut → Prop
  | .done s _ => s.memOk
  | _ => True

/-- A fragment's turn at an instruction keeps memory in its canonical form. -/
def FragKeeps (f : State → Nat → Nat → Option State) : Prop :=
  ∀ {s t : State} {gid fid : Nat}, s.memOk → f s gid fid = some t → t.memOk

/-- An event or an instruction keeps memory in its canonical form. -/
def KeepsMem (e : Event) : Prop := ∀ {s t : State}, s.memOk → e s = .next t → t.memOk

/-- Each lane's part of an instruction does so. -/
def LaneKeeps (fn : Nat → State → Nat → Thread → LaneOut) : Prop :=
  ∀ {s : State} (gid l : Nat) (t : Thread), s.memOk → (fn gid s l t).memOk

/-- A group's part of an instruction does so. -/
def UniKeeps (fn : State → Nat → Group → List Nat → UniOut) : Prop :=
  ∀ {s : State} (gid : Nat) (g : Group) (ls : List Nat), s.memOk → (fn s gid g ls).memOk

/-- What an instruction does before it issues does so. -/
def WaitsKeep (w : Waits) : Prop := ∀ {s : State} (gid fid : Nat), s.memOk → (w s gid fid).2.memOk

/-- What an instruction does after its lanes does so. -/
def TogetherKeeps (fin : Together) : Prop :=
  ∀ {s : State} (gid : Nat) (ds : List (Nat × Dispo)), s.memOk → (fin gid s ds).1.memOk

theorem stop_keeps (d : Dispo) : LaneKeeps fun _ _ _ _ => .stop d := fun _ _ _ _ => trivial

theorem setWinbase_memOk {s : State} (h : s.memOk) (w : DWord) : ({ s with winbase := w } : State).memOk := h

theorem setTurn_memOk {s : State} (h : s.memOk) (n : Nat) : ({ s with turn := n } : State).memOk := h

theorem setSchedule_memOk {s : State} (h : s.memOk) (ms : List Move) : ({ s with schedule := ms } : State).memOk := h

theorem setCur_memOk {s : State} (h : s.memOk) (b : Option (Nat × Bundle)) : ({ s with cur := b } : State).memOk := h

/-! ## Tables, memory and the error log -/

theorem pick_memOk {s : State} (h : s.memOk) (n : Nat) : (s.pick n).2.memOk := h

theorem free_memOk {s : State} (h : s.memOk) : s.free.2.memOk := h

theorem fresh_memOk {s : State} (h : s.memOk) : s.fresh.2.memOk := h

theorem setThread_memOk {s : State} (h : s.memOk) (g l : Nat) (f : Thread → Thread) : (s.setThread g l f).memOk :=
  memOk_of_mem (setGroup_mem _ _ _) h

theorem write_memOk {s : State} (h : s.memOk) (pa : Nat) (bs : List Byte) : (s.write pa bs).memOk := memOk_write h pa bs

theorem tlbFill_memOk {s : State} (h : s.memOk) (core : Nat) (x : TlbEntry) : (s.tlbFill core x).memOk := by
  unfold State.tlbFill
  grind [State.memOk, setCore_mem]

theorem translate_memOk {s : State} (h : s.memOk) (core part va : Nat) : (s.translate core part va).2.memOk := by
  unfold State.translate
  grind [pick_memOk, tlbFill_memOk]

theorem deviceWrite_memOk {s t : State} {part va : Nat} {bs : List Byte} (h : s.memOk)
    (e : s.deviceWrite part va bs = .ok t) : t.memOk := by
  unfold State.deviceWrite at e
  grind [foldl_memOk, write_memOk]

theorem logError_memOk {s : State} (h : s.memOk) (p : Nat) (e : LogEntry) : (s.logError p e).memOk := h

theorem raise_memOk {s : State} (h : s.memOk) (vector : Nat) : (s.raise vector).memOk := h

/-! ## Threads, fragments, traps and launches -/

theorem deviceStore_memOk {s : State} (h : s.memOk) (part va : Nat) (n x : Nat) :
    (s.deviceStore part va n x).memOk := by
  unfold State.deviceStore
  grind [deviceWrite_memOk]

theorem putFields_memOk {s : State} (h : s.memOk) (r : Launch) : (s.putFields r).memOk := by
  unfold State.putFields
  grind [deviceStore_memOk]

theorem putStatus_memOk {s : State} (h : s.memOk) (rid status : Nat) : (s.putStatus rid status).memOk := by
  unfold State.putStatus
  grind [State.memOk, putFields_memOk, setLaunch_mem]

theorem putReason_memOk {s : State} (h : s.memOk) (rid reason : Nat) : (s.putReason rid reason).memOk :=
  memOk_of_mem (setLaunch_mem _ _ _) h

theorem leaveQueue_memOk {s : State} (h : s.memOk) (rid : Nat) : (s.leaveQueue rid).memOk := by
  unfold State.leaveQueue
  grind [State.memOk, setLQueue_mem, setLaunch_mem]

theorem finish_memOk {s : State} (h : s.memOk) (rid status : Nat) : (s.finish rid status).memOk := by
  unfold State.finish
  grind [leaveQueue_memOk, putStatus_memOk, raise_memOk]

theorem refuse_memOk {s : State} (h : s.memOk) (rid reason : Nat) : (s.refuse rid reason).memOk := by
  unfold State.refuse
  grind [finish_memOk, putReason_memOk]

theorem review_memOk {s : State} (h : s.memOk) (rid : Nat) : (s.review rid).memOk := by
  unfold State.review
  grind [State.memOk, putStatus_memOk, refuse_memOk, setLaunch_mem]

theorem settle_memOk {s : State} (h : s.memOk) (rid : Nat) : (s.settle rid).memOk := by
  unfold State.settle
  grind [finish_memOk, putReason_memOk, putStatus_memOk]

theorem settleAll_memOk {s : State} (h : s.memOk) : s.settleAll.memOk := by
  unfold State.settleAll
  grind [foldl_memOk, review_memOk, settle_memOk]

theorem closeTaker_memOk {s : State} (h : s.memOk) (w : Waiter) : (s.closeTaker w).memOk :=
  memOk_of_mem (setGroup_mem _ _ _) h

theorem checkClose_memOk {s : State} (h : s.memOk) (n : Nat) : (s.checkClose n).memOk := by
  unfold State.checkClose
  grind [State.memOk, foldl_memOk, closeTaker_memOk, setSQueue_mem]

theorem retireProducer_memOk {s : State} (h : s.memOk) (gid lane n : Nat) : (s.retireProducer gid lane n).memOk := by
  unfold State.retireProducer
  grind [State.memOk, checkClose_memOk, setGroup_mem, setSQueue_mem]

theorem dropPends_memOk {s : State} (h : s.memOk) (gid lane : Nat) : (s.dropPends gid lane).memOk := h

theorem reapBlock_memOk {s : State} (h : s.memOk) (bid : Nat) : (s.reapBlock bid).memOk := by
  unfold State.reapBlock
  grind [State.memOk]

theorem checkBlock_memOk {s : State} (h : s.memOk) (bid : Nat) : (s.checkBlock bid).memOk := by
  unfold State.checkBlock
  grind [State.memOk, reapBlock_memOk, setBlock_mem, setLaunch_mem, settleAll_memOk]

theorem checkGroup_memOk {s : State} (h : s.memOk) (gid : Nat) : (s.checkGroup gid).memOk := by
  unfold State.checkGroup
  grind [State.memOk, checkBlock_memOk, setBlock_mem, setCore_mem]

theorem freeSlot_memOk {s : State} (h : s.memOk) (part slot : Nat) : (s.freeSlot part slot).memOk :=
  memOk_of_mem (setPart_mem _ _ _) h

theorem exitThread_memOk {s : State} (h : s.memOk) (gid lane : Nat) : (s.exitThread gid lane).memOk := by
  unfold State.exitThread
  grind [State.memOk, foldl_memOk, checkGroup_memOk, dropPends_memOk, freeSlot_memOk, retireProducer_memOk, setCore_mem,
    setGroup_mem, setPart_mem]

theorem afterKill_memOk {s : State} (h : s.memOk) (rid gang : Nat) (core cause : Nat) :
    (s.afterKill rid gang core cause).memOk := by
  unfold State.afterKill
  grind [State.memOk, logError_memOk, setLaunch_mem]

theorem gangKill_memOk {s : State} (h : s.memOk) (bid core cause : Nat) (addr : DWord) :
    (s.gangKill bid core cause addr).memOk := by
  unfold State.gangKill
  grind [State.memOk, foldl_memOk, afterKill_memOk, exitThread_memOk, logError_memOk]

theorem sendTrapped_memOk {s : State} (h : s.memOk) (gid lane : Nat) (g : Group) (i : TrapInfo) :
    (s.sendTrapped gid lane g i).memOk := by
  unfold State.sendTrapped
  grind [State.memOk, gangKill_memOk, raise_memOk, setGroup_mem, setPart_mem]

theorem recordTrap_memOk {s : State} (h : s.memOk) (gid lane : Nat) : (s.recordTrap gid lane).memOk := by
  unfold State.recordTrap
  split
  · exact h
  split
  · exact h
  split
  · exact h
  dsimp only
  split
  · exact h
  split
  · exact gangKill_memOk (logError_memOk h _ _) _ _ _ _
  split
  · exact gangKill_memOk (logError_memOk h _ _) _ _ _ _
  · next hw =>
    have ht := deviceWrite_memOk h hw
    grind [State.memOk, sendTrapped_memOk, setThread_memOk, setPart_mem]

theorem settleTrap_memOk {s : State} (h : s.memOk) (gid lane : Nat) : (s.settleTrap gid lane).memOk := by
  unfold State.settleTrap
  grind [recordTrap_memOk]

theorem dropAsk_memOk {s : State} (h : s.memOk) (gid lane : Nat) : (s.dropAsk gid lane).memOk := by
  unfold State.dropAsk
  grind [State.memOk, setThread_memOk]

theorem takeTrap_memOk {s : State} (h : s.memOk) (gid lane : Nat) (i : TrapInfo) : (s.takeTrap gid lane i).memOk := by
  unfold State.takeTrap
  grind [State.memOk, dropAsk_memOk, exitThread_memOk, gangKill_memOk, logError_memOk, recordTrap_memOk, setGroup_mem]

theorem serveRing_memOk {s : State} (h : s.memOk) (part : Nat) : (s.serveRing part).memOk := by
  unfold State.serveRing
  grind [State.memOk, foldl_memOk, recordTrap_memOk, setPart_mem]

theorem returnTrap_memOk {s : State} (h : s.memOk) (gid lane : Nat) : (s.returnTrap gid lane).memOk := by
  unfold State.returnTrap
  grind [State.memOk, freeSlot_memOk, serveRing_memOk, setGroup_mem]

theorem exitLane_memOk {s : State} (h : s.memOk) (gid lane : Nat) : (s.exitLane gid lane).memOk := by
  unfold State.exitLane
  split
  · exact h
  · apply exitThread_memOk
    grind [logError_memOk, gangKill_memOk]

theorem tick_memOk {s : State} (h : s.memOk) (b : Bool) : (s.tick b).memOk := by
  unfold State.tick
  grind [State.memOk]

theorem retire_memOk {s : State} (h : s.memOk) (gid fid : Nat) (len : DWord) (ds : List (Nat × Dispo)) :
    (s.retire gid fid len ds).memOk := by
  unfold State.retire
  grind [State.memOk, foldl_memOk, exitLane_memOk, setCore_mem, setGroup_mem, takeTrap_memOk, tick_memOk]

/-! ## The shapes of instructions -/

theorem view_memOk {s : State} (h : s.memOk) (t : Thread) : (Thread.view t s).2.memOk := by
  unfold Thread.view
  grind [foldl_snd_memOk, pick_memOk]

theorem views_memOk {s : State} (h : s.memOk) (g : Group) (ls : List Nat) : (views g s ls).2.memOk := by
  induction ls generalizing s with
  | nil => exact h
  | cons l ls ih => unfold views; grind [view_memOk]

theorem draw_memOk {s : State} (h : s.memOk) (core lane n : Nat) : (s.draw core lane n).2.memOk := by
  unfold State.draw
  grind [State.memOk, setCore_mem]

theorem residueCheck_memOk {s : State} (h : s.memOk) (g : Group) : (s.residueCheck g).2.memOk := by
  unfold State.residueCheck
  grind [State.memOk, logError_memOk, setCore_mem]

theorem raiseAll_memOk {s : State} (h : s.memOk) (gid fid : Nat) (len : DWord) (r : Raise) :
    (s.raiseAll gid fid len r).memOk := by
  unfold State.raiseAll
  grind [retire_memOk]

theorem drawAll_memOk {s : State} (h : s.memOk) (g : Group) (n : Nat × Thread → Nat) (ts : List (Nat × Thread)) :
    (drawAll g n s ts).2.memOk := by
  induction ts generalizing s with
  | nil => exact h
  | cons x xs ih => obtain ⟨l, t⟩ := x; unfold drawAll; grind [draw_memOk]

theorem laneFragment_keeps (sh : Shape) (fn : LaneFn) : FragKeeps (laneFragment sh fn) := by
  intro s t gid fid h e
  unfold laneFragment at e
  grind [State.memOk, raiseAll_memOk, views_memOk, residueCheck_memOk, drawAll_memOk, retire_memOk, setGroup_mem]

theorem forBundle_memOk {f : State → Nat → Nat → Option State} (hf : FragKeeps f) :
    ∀ {fs : List (Nat × Nat)} {s t : State}, s.memOk → forBundle f fs s = some t → t.memOk
  | [], s, t, h, e => by cases e; exact h
  | (gid, fid) :: rest, s, t, h, e => by
    unfold forBundle at e
    split at e
    · cases e
    · exact forBundle_memOk hf (hf h ‹_›) e

theorem issue_keeps {f : State → Nat → Nat → Option State} (hf : FragKeeps f) : KeepsMem (issue f) := by
  intro s t h e
  unfold issue at e
  grind [forBundle_memOk]

theorem laneInstr_keeps (sh : Shape) (fn : LaneFn) : KeepsMem (laneInstr sh fn) :=
  issue_keeps (laneFragment_keeps sh fn)

theorem seqLanes_memOk {fn : Nat → State → Nat → Thread → LaneOut} (hf : LaneKeeps fn) {gid : Nat} :
    ∀ {xs : List (Nat × Thread)} {s t : State} {ds : List (Nat × Dispo)}, s.memOk →
      seqLanes (fn gid) xs s = some (t, ds) → t.memOk := by
  intro xs
  induction xs with
  | nil => intro s t ds h e; cases e; exact h
  | cons x xs ih =>
    obtain ⟨l, th⟩ := x
    intro s t ds h e
    have hl := hf gid l th h
    unfold seqLanes at e
    cases ho : fn gid s l th with
    | hold => simp [ho] at e
    | stop d =>
      obtain ⟨⟨u, es⟩, eu, rfl, -⟩ : ∃ x, seqLanes (fn gid) xs s = some x ∧ x.1 = t ∧ (l, d) :: x.2 = ds := by
        simpa [ho] using e
      exact ih h eu
    | done v d =>
      obtain ⟨⟨u, es⟩, eu, rfl, -⟩ : ∃ x, seqLanes (fn gid) xs v = some x ∧ x.1 = t ∧ (l, d) :: x.2 = ds := by
        simpa [ho] using e
      exact ih (by simpa [ho, LaneOut.memOk] using hl) eu

theorem seqFragmentWith_keeps (sh : Shape) {fn : Nat → State → Nat → Thread → LaneOut} (hf : LaneKeeps fn) {fin : Together}
    (hn : TogetherKeeps fin) : FragKeeps (seqFragmentWith sh fn fin) := by
  intro s t gid fid h e
  unfold seqFragmentWith at e
  split at e
  · cases e; exact h
  split at e
  · cases e; exact raiseAll_memOk h _ _ _ _
  dsimp only at e
  split at e
  · cases e
  split at e
  · cases e
  · next heq =>
    cases e
    have hl := seqLanes_memOk hf (views_memOk h _ _) heq
    exact retire_memOk (hn _ _ (memOk_of_mem (setGroup_mem _ _ _) hl)) _ _ _ _

theorem seqFragment_keeps (sh : Shape) {fn : Nat → State → Nat → Thread → LaneOut} (hf : LaneKeeps fn) :
    FragKeeps (seqFragment sh fn) := seqFragmentWith_keeps sh hf fun _ _ h => h

theorem seqInstr_keeps (sh : Shape) {fn : Nat → State → Nat → Thread → LaneOut} (hf : LaneKeeps fn) :
    KeepsMem (seqInstr sh fn) := issue_keeps (seqFragment_keeps sh hf)

theorem waitAll_memOk {w : Waits} (hw : WaitsKeep w) (fs : List (Nat × Nat)) :
    ∀ {s : State}, s.memOk → (waitAll w fs s).2.memOk := by
  induction fs with
  | nil => exact id
  | cons x xs ih => exact fun h => ih (hw _ _ h)

theorem issueAfter_keeps {w : Waits} (hw : WaitsKeep w) {f : State → Nat → Nat → Option State} (hf : FragKeeps f) :
    KeepsMem (issueAfter w f) := by
  intro s t h e
  unfold issueAfter at e
  grind [waitAll_memOk, forBundle_memOk]

theorem uniFragment_keeps (len : DWord) (pred : BitVec 4) (forbidden : Bool) {fn : State → Nat → Group → List Nat → UniOut}
    (hf : UniKeeps fn) : FragKeeps (uniFragment len pred forbidden fn) := by
  intro s t gid fid h e
  unfold uniFragment at e
  grind [UniKeeps, UniOut.memOk, State.memOk, raiseAll_memOk, retire_memOk, setGroup_mem]

theorem uniInstr_keeps (len : DWord) (pred : BitVec 4) (forbidden : Bool) {fn : State → Nat → Group → List Nat → UniOut}
    (hf : UniKeeps fn) : KeepsMem (uniInstr len pred forbidden fn) := issue_keeps (uniFragment_keeps len pred forbidden hf)

theorem checked_memOk {s : State} (h : s.memOk) (g : Group) {fn : State → UniOut} (hf : ∀ s, s.memOk → (fn s).memOk) :
    (s.checked g fn).memOk := by
  unfold State.checked
  grind [residueCheck_memOk, UniOut.memOk]

theorem uniRegs_keeps (len : DWord) (pred : BitVec 4) (fn : Group → Except Stop Group) :
    KeepsMem (uniRegs len pred fn) := by
  refine uniInstr_keeps len pred false ?_
  intro s gid g ls h
  grind [checked_memOk, UniOut.memOk, State.memOk, setGroup_mem]

theorem groupFragment_keeps (sh : Shape) {fn : State → Nat → Nat → Group → List Nat → UniOut}
    (hf : ∀ {s : State} (gid fid : Nat) (g : Group) (ls : List Nat), s.memOk → (fn s gid fid g ls).memOk) :
    FragKeeps (groupFragment sh fn) := by
  intro s t gid fid h e
  unfold groupFragment at e
  grind [UniOut.memOk, State.memOk, raiseAll_memOk, retire_memOk, setGroup_mem]

theorem setObject_memOk {s : State} (h : s.memOk) (id : Word) (f : ObjEntry → ObjEntry) : (s.setObject id f).memOk :=
  memOk_of_mem (setSlice_mem _ _ _) h

theorem checkPage_memOk {s : State} (h : s.memOk) (g : Group) (a : AddrReg) (acc : Access) (ea : DWord) (n : Nat)
    (deny : Nat → Bool := fun _ => false) : (s.checkPage g a acc ea n deny).2.memOk := by
  unfold State.checkPage
  grind [translate_memOk]

theorem checkGlobal_memOk {s : State} (h : s.memOk) (g : Group) (a : AddrReg) (acc : Access) (ea : DWord) (n : Nat)
    (deny : Nat → Bool := fun _ => false) : (s.checkGlobal g a acc ea n deny).2.memOk := by
  unfold State.checkGlobal
  grind [checkPage_memOk]

theorem checkAccess_memOk {s : State} (h : s.memOk) (g : Group) (a : AddrReg) (acc : Access) (ea : DWord)
    (n align : Nat) (deny : Nat → Bool := fun _ => false) : (s.checkAccess g a acc ea n align deny).2.memOk := by
  unfold State.checkAccess
  grind [checkGlobal_memOk]

/-! ## Fetching and choosing bundles -/

theorem fetchSector_memOk {s : State} (h : s.memOk) (core part va : Nat) : (s.fetchSector core part va).2.memOk := by
  unfold State.fetchSector
  grind [State.memOk, pick_memOk, setCore_mem, translate_memOk]

theorem codeWord_memOk {s : State} (h : s.memOk) (gid va : Nat) : (s.codeWord gid va).2.memOk := by
  unfold State.codeWord
  grind [State.memOk, fetchSector_memOk, setGroup_mem]

theorem codeAt_memOk {s : State} (h : s.memOk) (gid : Nat) (x : Enc) (pc : DWord) : (s.codeAt gid x pc).2.memOk := by
  unfold State.codeAt
  grind [codeWord_memOk]

theorem gather_memOk (enc : Enc) (pc : DWord) (fs : List (Nat × Nat)) :
    ∀ {s : State} (got : Option (List Byte)), s.memOk → (s.gather enc pc fs got).2.memOk := by
  induction fs with
  | nil => exact fun _ h => h
  | cons f fs ih =>
    intro s got h
    unfold State.gather
    have hc := codeAt_memOk h f.1 enc pc
    grind

theorem illegal_memOk (len : DWord) (fs : List (Nat × Nat)) : ∀ {s : State}, s.memOk → (s.illegal len fs).memOk := by
  induction fs with
  | nil => exact id
  | cons f fs ih => exact fun h => ih (raiseAll_memOk h _ _ _ _)

theorem unstall_memOk {s : State} (h : s.memOk) (c : Nat) (b : Bundle) : (s.unstall c b).memOk :=
  memOk_of_mem (setCore_mem _ _ _) h

/-- The memory of the state that a bundle's turn leaves, or in which its instruction runs, is in its canonical form. -/
def Front.memOk : Front → Prop
  | .idle s => s.memOk
  | .run _ s => s.memOk

theorem releaseHolds_memOk {s : State} (h : s.memOk) (pc : DWord) (fs : List (Nat × Nat)) :
    (fs.foldl (fun s (x : Nat × Nat) => s.setGroup x.1 (·.releaseHold pc)) s).memOk :=
  foldl_memOk (fun _ _ h => memOk_of_mem (setGroup_mem _ _ _) h) fs h

theorem gathered_memOk {s t : State} {enc : Enc} {pc : DWord} {fs : List (Nat × Nat)} {got : Option (List Byte)}
    {r : Except (Nat × Nat × Nat × Nat) (List Byte × List (Nat × Nat))} (h : s.memOk) (e : s.gather enc pc fs got = (r, t)) :
    t.memOk := by
  simpa only [e] using gather_memOk enc pc fs got h

theorem front_memOk {s : State} (h : s.memOk) (c : Nat) (b : Bundle) : (s.front c b).memOk := by
  unfold State.front
  split
  · exact h
  split
  · exact h
  next g0 f0 rest _ _ g _ =>
  dsimp only
  have hr := releaseHolds_memOk h (g.fragPc f0) (s.together (g.fragPc f0) g.enc ((g0, f0) :: rest))
  split
  · exact hr
  split
  · next hu => exact raiseAll_memOk (gathered_memOk hr hu) ..
  next u hu =>
  have hm := gathered_memOk hr hu
  split
  · exact illegal_memOk _ _ hm
  · exact setCur_memOk (unstall_memOk hm c b) _

theorem markCore_memOk {s : State} (h : s.memOk) (c : Nat) : (s.markCore c).memOk := h

theorem turnOver_memOk {s : State} (h : s.memOk) (c : Nat) (b : Bundle) : (s.turnOver c b).memOk :=
  markCore_memOk (memOk_of_mem (setCore_mem _ _ _) h) ..

theorem markStall_memOk {s : State} (h : s.memOk) (c : Nat) (b : Bundle) (waits : List Nat) :
    (s.markStall c b waits).memOk :=
  memOk_of_mem (setCore_mem _ _ _) h

theorem noteStall_memOk {s : State} (before : State) (h : s.memOk) (c : Nat) (b : Bundle) :
    (before.noteStall c b s).memOk := by
  unfold State.noteStall
  grind [markStall_memOk]

theorem ageBundle_memOk {s : State} (h : s.memOk) (b : Bundle) (n : Nat) : (s.ageBundle b n).memOk := by
  unfold State.ageBundle
  grind [State.memOk, foldl_memOk, setGroup_mem]

theorem noteYield_memOk {s : State} (h : s.memOk) (c : Nat) (b : Bundle) (yields : Bool) :
    (s.noteYield c b yields).memOk := by
  unfold State.noteYield
  grind [markStall_memOk]

theorem afterTurn_memOk {s : State} (before : State) (h : s.memOk) (i : Instr) : (before.afterTurn s i).memOk := by
  unfold State.afterTurn
  grind [State.memOk, ageBundle_memOk, noteStall_memOk, noteYield_memOk, turnOver_memOk]

theorem noteReady_memOk {s : State} (h : s.memOk) : s.noteReady.memOk := by
  unfold State.noteReady
  grind [State.memOk]

/-! ## Store buffers and the L1 -/

theorem setSpad_memOk {s : State} (h : s.memOk) (bid idx : Nat) (f : Region → Region) : (s.setSpad bid idx f).memOk :=
  memOk_of_mem (setBlock_mem _ _ _) h

theorem placeWrite_memOk {s : State} (h : s.memOk) (p : Place) (bs : List Byte) : (s.placeWrite p bs).memOk := by
  unfold State.placeWrite
  grind [setSpad_memOk, write_memOk]

theorem post_memOk {s : State} (h : s.memOk) (core slice : Nat) (gid part : Nat) (kind : ReqKind) :
    (s.post core slice gid part kind).memOk :=
  fresh_memOk h ..

theorem take_memOk {s t : State} {r} {id : Nat} (h : s.memOk) (e : s.take id = some (r, t)) : t.memOk := by
  unfold State.take at e
  grind [State.memOk]

theorem l1Shrink_memOk {s : State} (h : s.memOk) (core : Nat) : (s.l1Shrink core).memOk :=
  memOk_of_mem (setCore_mem _ _ _) h

theorem closeLate_memOk {s : State} (h : s.memOk) (gid : Nat) (sel : Late → Bool) : (s.closeLate gid sel).memOk := by
  unfold State.closeLate
  grind [State.memOk, setGroup_mem]

theorem readOwners_memOk {s : State} (h : s.memOk) (x : Store) : (s.readOwners x).memOk := closeLate_memOk h ..

theorem closeEvery_memOk {s : State} (h : s.memOk) (sel : Group → Late → Bool) : (s.closeEvery sel).memOk := by
  unfold State.closeEvery
  grind [foldl_memOk, closeLate_memOk]

theorem readSpad_memOk {s : State} (h : s.memOk) (p : Place) (n : Nat) : (s.readSpad p n).memOk := by
  unfold State.readSpad
  grind [closeEvery_memOk]

theorem disown_memOk {s : State} (h : s.memOk) (p : Place) (n : Nat) : (s.disown p n).memOk := by
  unfold State.disown
  grind [State.memOk]

theorem readsLate_memOk {s : State} (h : s.memOk) (t : Option Thread) (regs : List Nat) (use : LateUse) :
    (s.readsLate t regs use).2.memOk := by
  unfold State.readsLate
  grind [pick_memOk]

theorem openLate_memOk {s : State} (h : s.memOk) (gid : Nat) (g : Group) (lane : Nat) (c : Counter) (regs : List Nat)
    (size : Nat) (use : LateUse) : (s.openLate gid g lane c regs size use).2.memOk := by
  unfold State.openLate
  grind [State.memOk, fresh_memOk, readsLate_memOk, setGroup_mem]

theorem sendEntry_memOk {s : State} (h : s.memOk) (core : Nat) (x : Store) : (s.sendEntry core x).memOk := by
  unfold State.sendEntry
  grind [State.memOk, post_memOk, readOwners_memOk, setCore_mem]

theorem sendFrom_memOk (core : Nat) (sel : Store → Bool) (es : List Store) :
    ∀ {s : State}, s.memOk → (State.sendFrom core sel es s).memOk := by
  induction es with
  | nil => exact id
  | cons e es ih => intro s h; unfold State.sendFrom; grind [sendEntry_memOk]

theorem sendEntries_memOk {s : State} (h : s.memOk) (core : Nat) (sel : Store → Bool) :
    (s.sendEntries core sel).memOk := by
  unfold State.sendEntries
  grind [sendFrom_memOk]

theorem sendLines_memOk {s : State} (h : s.memOk) (core : Nat) (sel : Store → Bool) : (s.sendLines core sel).memOk := by
  unfold State.sendLines
  grind [State.memOk, foldl_memOk, post_memOk, readOwners_memOk, setCore_mem]

theorem startDrain_memOk {s : State} (h : s.memOk) (core : Nat) (sel : Store → Bool) :
    (s.startDrain core sel).memOk := by
  unfold State.startDrain
  grind [sendEntries_memOk, sendLines_memOk]

theorem drainGroup_memOk {s : State} (h : s.memOk) (core gid : Nat) : (s.drainGroup core gid).2.memOk := by
  unfold State.drainGroup
  grind [startDrain_memOk]

theorem enqueuePiece_memOk {s t : State} {tag : StoreTag} {p : Place} {off : Nat} {bs : List Byte} (h : s.memOk)
    (e : s.enqueuePiece tag p off bs = some t) : t.memOk := by
  unfold State.enqueuePiece at e
  grind [State.memOk, sendLines_memOk, setCore_mem]

theorem combinePiece_memOk {s t : State} {tag : StoreTag} {p : Place} {off : Nat} {bs : List Byte} (h : s.memOk)
    (e : s.combinePiece tag p off bs = some t) : t.memOk := by
  unfold State.combinePiece at e
  grind [State.memOk, sendEntries_memOk, sendLines_memOk, setCore_mem]

theorem enterPieces_memOk {tag : StoreTag} {bs : List Byte} {ps : List (Place × Nat × Nat × Nat)} :
    ∀ {s t : State}, s.memOk → s.enterPieces tag bs ps = some t → t.memOk := by
  induction ps with
  | nil => intro s t h e; cases e; exact h
  | cons p ps ih =>
    intro s t h e
    unfold State.enterPieces at e
    grind [combinePiece_memOk, enqueuePiece_memOk]

theorem enterStore_memOk {s t : State} {tag : StoreTag} {p : Place} {bs : List Byte} (h : s.memOk)
    (e : s.enterStore tag p bs = some t) : t.memOk := by
  unfold State.enterStore at e
  grind [enterPieces_memOk]

theorem newStore_memOk {s : State} (h : s.memOk) : s.newStore.memOk := h

theorem lookupFill_memOk {s : State} (h : s.memOk) (core : Nat) (id : Word) : (s.lookupFill core id).memOk := by
  unfold State.lookupFill
  grind [State.memOk, setCore_mem]

theorem rosterObject_memOk {s t : State} {core : Nat} {id : Word} (h : s.memOk) (e : s.rosterObject core id = some t) :
    t.memOk := by
  unfold State.rosterObject at e
  grind [State.memOk, lookupFill_memOk, setCore_mem, setObject_memOk]

theorem rosterRequest_memOk {s : State} (h : s.memOk) (core : Nat) (id : Word) :
    ((s.rosterObject core id).getD s).memOk := by
  cases e : s.rosterObject core id with
  | none => exact h
  | some t => exact rosterObject_memOk h e

theorem rosterPlain_memOk {s : State} (h : s.memOk) (core slice : Nat) : (s.rosterPlain core slice).memOk := by
  unfold State.rosterPlain
  grind [State.memOk, setCore_mem, setSlice_mem]

theorem rosterStore_memOk {s t : State} {core : Nat} {obj : Word} {pa : Nat} (h : s.memOk)
    (e : s.rosterStore core obj pa = some t) : t.memOk := by
  unfold State.rosterStore at e
  grind [rosterObject_memOk, rosterPlain_memOk]

theorem applyBytes_memOk {s : State} (h : s.memOk) (p : Place) (bytes : SMap Byte) : (s.applyBytes p bytes).memOk := by
  unfold State.applyBytes
  grind [foldl_memOk, placeWrite_memOk]

theorem applyStore_memOk {s : State} (h : s.memOk) (st : Store) : (s.applyStore st).memOk := by
  unfold State.applyStore
  grind [applyBytes_memOk, logError_memOk]

theorem markApplied_memOk {s : State} (h : s.memOk) (core : Nat) (st : Store) : (s.markApplied core st).memOk :=
  memOk_of_mem (setCore_mem _ _ _) (fresh_memOk h ..)

theorem serveStore_memOk {s : State} (h : s.memOk) (core : Nat) (st : Store) : (s.serveStore core st).memOk := by
  unfold State.serveStore
  grind [applyStore_memOk, disown_memOk, markApplied_memOk]

theorem refused_memOk {s : State} (h : s.memOk) (pa : Nat) : (s.refused pa).2.memOk := by
  unfold State.refused
  grind [pick_memOk]

theorem refuseStore_memOk {s : State} (h : s.memOk) (core : Nat) (st : Store) : (s.refuseStore core st).memOk := by
  unfold State.refuseStore
  grind [State.memOk, foldl_memOk, markApplied_memOk, setPend_mem]

theorem execStoreArrivalAtHome_keeps (req : Nat) : KeepsMem (execStoreArrivalAtHome req) := by
  intro s t h e
  unfold execStoreArrivalAtHome at e
  split at e
  · next u hu =>
    have ht := take_memOk h hu
    split at e
    · split at e
      · next pa _ =>
        have hr := refused_memOk ht pa
        split at e <;> grind [refuseStore_memOk, serveStore_memOk]
      · cases e; exact h
    · cases e; exact h
  · cases e; exact h

theorem execStoreDrainSend_keeps (core entry : Nat) (combining : Bool) :
    KeepsMem (execStoreDrainSend core entry combining) := by
  intro s t h e
  unfold execStoreDrainSend at e
  grind [sendEntry_memOk, sendLines_memOk]

theorem leaveObject_memOk {s : State} (h : s.memOk) (core : Nat) (id : Word) : (s.leaveObject core id).memOk := by
  unfold State.leaveObject
  grind [State.memOk, setCore_mem, setObject_memOk]

theorem leavePlain_memOk {s : State} (h : s.memOk) (core slice : Nat) : (s.leavePlain core slice).memOk := by
  unfold State.leavePlain
  grind [State.memOk, setCore_mem, setSlice_mem]

theorem ackCore_memOk {s : State} (h : s.memOk) (id : Nat) (x : Inspect) (core : Nat) :
    (s.ackCore id x core).memOk := by
  unfold State.ackCore
  grind [State.memOk, foldl_memOk, leaveObject_memOk, leavePlain_memOk, setCore_mem, setInspect_mem]

theorem ackInspects_memOk {s : State} (h : s.memOk) (core : Nat) : (s.ackInspects core).memOk := by
  unfold State.ackInspects
  grind [foldl_memOk, ackCore_memOk]

theorem execRosterBitRequest_keeps (core : Nat) (objid : Word) (slice : Nat) :
    KeepsMem (execRosterBitRequest core objid slice) := by
  intro s t h e
  unfold execRosterBitRequest at e
  grind [rosterRequest_memOk, rosterPlain_memOk]

theorem execObjectLookupFill_keeps (core : Nat) (objid : Word) : KeepsMem (execObjectLookupFill core objid) := by
  intro s t h e
  unfold execObjectLookupFill at e
  grind [lookupFill_memOk]

theorem execPageWalk_keeps (core part : Nat) (va : DWord) : KeepsMem (execPageWalk core part va) := by
  intro s t h e
  unfold execPageWalk at e
  grind [tlbFill_memOk]

/-! ## Integer and bit instructions of a lane set -/

theorem intInstr2_keeps (f : RForm) (lat : Nat) (sat : Bool) (op : Int → Int → Int) :
    KeepsMem (intInstr2 f lat sat op) :=
  laneInstr_keeps _ _

theorem intInstr1_keeps (f : RForm) (op : Int → Int) : KeepsMem (intInstr1 f op) := laneInstr_keeps _ _

theorem bitInstr2_keeps (f : RForm) (op : Word → Word → Word) : KeepsMem (bitInstr2 f op) := laneInstr_keeps _ _

theorem execAndn_keeps (f : RForm) : KeepsMem (execAndn f) := fun h e => bitInstr2_keeps f _ h e

theorem shiftInstr_keeps (f : RForm) (op : Nat → Nat → Nat → Nat) : KeepsMem (shiftInstr f op) := laneInstr_keeps _ _

theorem compact2_keeps (f : CForm) (op : Nat → Nat → Nat) : KeepsMem (compact2 f op) := laneInstr_keeps _ _

theorem compact3_keeps (f : CForm) (op : Nat → Nat → Nat → Nat) : KeepsMem (compact3 f op) := laneInstr_keeps _ _

/-! ## Floating-point instructions of a lane set -/

theorem floatInstr2_keeps (f : RForm) (lat : Nat) (op : Bool → FV → FV → FV) : KeepsMem (floatInstr2 f lat op) :=
  laneInstr_keeps _ _

theorem specialInstr_keeps (f : RForm) (fn : Nat → Nat) : KeepsMem (specialInstr f fn) := laneInstr_keeps _ _

theorem dotInstr_keeps (f : RForm) (op : Nat → Nat → Nat → Nat) : KeepsMem (dotInstr f op) := laneInstr_keeps _ _

/-! ## Cross-lane instructions -/

theorem execBallot_keeps (f : RForm) : KeepsMem (execBallot f) := issue_keeps fun h e => laneFragment_keeps _ _ h e

/-! ## Uniform instructions -/

theorem uniCalc_keeps (len : DWord) (pred : BitVec 4) (d : Nat) (wide : Bool) (srcs : List (Nat × Bool))
    (f : List Nat → Nat) : KeepsMem (uniCalc len pred d wide srcs f) :=
  uniRegs_keeps _ _ _

theorem uniInt2_keeps (f : RForm) (sat : Bool) (op : Int → Int → Int) : KeepsMem (uniInt2 f sat op) :=
  uniCalc_keeps _ _ _ _ _ _

theorem uniBits2_keeps (f : RForm) (op : Word → Word → Word) : KeepsMem (uniBits2 f op) := uniCalc_keeps _ _ _ _ _ _

theorem uniShift_keeps (f : RForm) (op : Nat → Nat → Nat → Nat) : KeepsMem (uniShift f op) := uniCalc_keeps _ _ _ _ _ _

theorem uniCompact2_keeps (f : CForm) (op : Nat → Nat → Nat) : KeepsMem (uniCompact2 f op) := uniCalc_keeps _ _ _ _ _ _

theorem execUmovi_keeps (f : I16Form) : KeepsMem (execUmovi f) := fun h e => uniCalc_keeps 8 f.pred _ _ _ _ h e

theorem execUplop_keeps (f : RForm) : KeepsMem (execUplop f) := fun h e => uniRegs_keeps 8 f.pred _ h e

theorem uniStop_memOk {s : State} (h : s.memOk) (e : Stop) : (uniStop s e).memOk := by
  unfold uniStop
  grind [UniOut.memOk]

theorem execUread_keeps (f : RForm) : KeepsMem (execUread f) := by
  refine uniInstr_keeps _ _ _ ?_
  intro s gid g ls h
  grind [UniOut.memOk, State.memOk, checked_memOk, setGroup_mem, uniStop_memOk]

theorem execUrsr_keeps (f : I16Form) : KeepsMem (execUrsr f) := by
  refine uniInstr_keeps _ _ _ ?_
  intro s gid g ls h
  grind [UniOut.memOk, State.memOk, checked_memOk, setGroup_mem]

theorem execUwsr_keeps (f : I16Form) : KeepsMem (execUwsr f) := by
  refine uniInstr_keeps _ _ _ ?_
  intro s gid g ls h
  grind [UniOut.memOk, State.memOk, checked_memOk, setCore_mem, uniStop_memOk]

theorem execCcount_keeps (f : RForm) : KeepsMem (execCcount f) := by
  refine uniInstr_keeps _ _ _ ?_
  intro s gid g ls h
  grind [UniOut.memOk, State.memOk, checked_memOk, free_memOk, setCore_mem, setGroup_mem]

/-! ## Loads, their replies and stores at issue -/

theorem lane_memOk (e : Stop) : e.lane.memOk := by cases e <;> trivial

theorem openPend_memOk {s : State} (h : s.memOk) (gid : Nat) (g : Group) (lanes : List Nat) (dest : Dest)
    (data : List (Option Byte)) (wait : Nat) (ea : DWord) : (s.openPend gid g lanes dest data wait ea).2.memOk :=
  fresh_memOk h ..

theorem replyLocal_memOk {s : State} (h : s.memOk) (core pend : Nat) (cause : Option (Nat × DWord))
    (got : Bool := true) : (s.replyLocal core pend cause got).memOk :=
  fresh_memOk h ..

theorem reply_memOk {s : State} (h : s.memOk) (r : Req) (pend to_ : Nat) (bytes : List Byte)
    (cause : Option (Nat × DWord)) (fill : Option (Nat × L1Sector)) (got : Bool := true) :
    (s.reply r pend to_ bytes cause fill got).memOk :=
  fresh_memOk h ..

theorem lateTrap_memOk {s : State} (h : s.memOk) (p : Pend) (cause : Nat) (addr : DWord) :
    (s.lateTrap p cause addr).memOk := by
  unfold State.lateTrap
  grind [State.memOk, foldl_memOk, setCore_mem, setGroup_mem, takeTrap_memOk]

theorem setTile_memOk {s : State} (h : s.memOk) (bid idx name : Nat) (f : Tile → Tile) :
    (s.setTile bid idx name f).memOk :=
  memOk_of_mem (setBlock_mem _ _ _) h

theorem owePaid_memOk {s : State} (h : s.memOk) (p : Pend) : (s.owePaid p).memOk := by
  unfold State.owePaid
  grind [State.memOk, setGroup_mem]

theorem commit_memOk {s : State} (h : s.memOk) (p : Pend) (got : Bool) : (s.commit p got).memOk := by
  unfold State.commit
  grind [State.memOk, owePaid_memOk, setGroup_mem, setThread_memOk, setTile_memOk]

theorem abandon_memOk {s : State} (h : s.memOk) (p : Pend) : (s.abandon p).memOk := by
  unfold State.abandon
  grind [State.memOk, setGroup_mem, setThread_memOk]

theorem settleTraps_memOk {s : State} (h : s.memOk) (p : Pend) : (s.settleTraps p).memOk := by
  unfold State.settleTraps
  grind [foldl_memOk, settleTrap_memOk]

theorem settlePend_memOk {s : State} (h : s.memOk) (id : Nat) (got : Bool) : (s.settlePend id got).memOk := by
  unfold State.settlePend
  grind [State.memOk, abandon_memOk, commit_memOk, lateTrap_memOk, setGroup_mem, settleTraps_memOk]

theorem dropFills_memOk {s : State} (h : s.memOk) (core : Nat) (sel : Nat → Bool) : (s.dropFills core sel).memOk :=
  memOk_of_mem (setCore_mem _ _ _) h

theorem learn_memOk {s : State} (h : s.memOk) (core : Nat) (p : Place) (n : Nat) : (s.learn core p n).memOk := by
  unfold State.learn
  grind [State.memOk, dropFills_memOk]

theorem l1Sector_memOk {s : State} (h : s.memOk) (core : Nat) (p : Place) : (s.l1Sector core p).2.memOk := by
  unfold State.l1Sector
  grind [State.memOk, pick_memOk, setCore_mem]

theorem findPiece_memOk {s : State} (h : s.memOk) (core gid : Nat) (o : Order) (p : Place) (off n : Nat) :
    (s.findPiece core gid o p off n).2.memOk := by
  unfold State.findPiece
  grind [l1Sector_memOk]

theorem findAll_memOk (core gid : Nat) (o : Order) (ps : List (Place × Nat × Nat × Nat)) :
    ∀ {s : State}, s.memOk → (s.findAll core gid o ps).2.memOk := by
  induction ps with
  | nil => exact id
  | cons p ps ih =>
    intro s h
    unfold State.findAll
    exact ih (findPiece_memOk h _ _ _ _ _ _)

theorem countL1_memOk {s : State} (h : s.memOk) (core gid part : Nat) (obj : Word) (l1 : List (Nat × Byte)) :
    (s.countL1 core gid part obj l1).memOk := by
  unfold State.countL1
  grind [State.memOk, post_memOk, setCore_mem]

theorem readStored_memOk {s : State} (h : s.memOk) (core gid : Nat) (ps : List (Place × Nat × Nat × Nat)) :
    (s.readStored core gid ps).memOk := by
  unfold State.readStored
  grind [foldl_memOk, readOwners_memOk]

theorem startPieces_memOk {s : State} (h : s.memOk) (gid : Nat) (g : Group) (lanes : List Nat) (dest : Dest) (o : Order)
    (obj : Word) (ps : List (Place × Nat × Nat × Nat)) (ea : DWord) :
    (s.startPieces gid g lanes dest o obj ps ea).2.memOk := by
  unfold State.startPieces
  grind [State.memOk, foldl_memOk, countL1_memOk, findAll_memOk, openPend_memOk, post_memOk, readStored_memOk,
    replyLocal_memOk, setPend_mem]

theorem startLoad_memOk {s : State} (h : s.memOk) (gid : Nat) (g : Group) (lanes : List Nat) (dest : Dest) (o : Order)
    (obj : Word) (p : Place) (n : Nat) (ea : DWord) : (s.startLoad gid g lanes dest o obj p n ea).2.memOk :=
  startPieces_memOk h ..

theorem loadLane_memOk {s : State} (h : s.memOk) (f : MForm) (gid l : Nat) (t : Thread) :
    (loadLane f gid s l t).memOk := by
  unfold loadLane
  grind [LaneOut.memOk, checkAccess_memOk, lane_memOk, setThread_memOk, startLoad_memOk]

theorem execLd_keeps (f : MForm) : KeepsMem (execLd f) :=
  seqInstr_keeps _ (by intro s gid l t h; exact loadLane_memOk h ..)

theorem doStore_memOk {s t : State} (h : s.memOk) {tag : StoreTag} {pa : Nat} {bs : List Byte}
    (e : s.doStore tag pa bs = .ok t) : t.memOk := by
  unfold State.doStore at e
  split at e
  · cases e
  · next u hu =>
    have hk : u.memOk := by
      split at hu
      · cases hu; exact h
      · exact rosterStore_memOk h hu
    grind [enterStore_memOk]

theorem awaitPeer_memOk {s : State} (h : s.memOk) (gid : Nat) (g : Group) (lanes : List Nat) (pa : Nat) (ea : DWord) :
    (s.awaitPeer gid g lanes pa ea).2.memOk := by
  unfold State.awaitPeer
  grind [openPend_memOk]

theorem storeLane_memOk {s : State} (h : s.memOk) (f : MForm) (n : Nat) (gid l : Nat) (t : Thread) :
    (storeLane f n gid s l t).memOk := by
  unfold storeLane
  split
  · trivial
  split
  · exact lane_memOk _
  grind [LaneOut.memOk, awaitPeer_memOk, checkAccess_memOk, doStore_memOk, openLate_memOk]

theorem execSt_keeps (f : MForm) : KeepsMem (execSt f) :=
  issue_keeps fun h e => seqFragment_keeps _ (by intro s gid l t h; exact storeLane_memOk h ..) (newStore_memOk h) e

theorem prefLane_memOk {s : State} (h : s.memOk) (f : MForm) (gid l : Nat) (t : Thread) :
    (prefLane f gid s l t).memOk := by
  unfold prefLane
  split
  · trivial
  split
  · trivial
  · trivial
  · trivial
  · grind [foldl_memOk, LaneOut.memOk, checkAccess_memOk, post_memOk]

theorem execPref_keeps (f : MForm) : KeepsMem (execPref f) :=
  seqInstr_keeps _ (by intro s gid l t h; exact prefLane_memOk h ..)

theorem uniLoad_keeps (f : MForm) (n : Nat) (dest : Dest) (checks : Bool) (await : Nat → Group → Group) :
    KeepsMem (uniLoad f n dest checks await) := by
  refine uniInstr_keeps _ _ _ ?_
  intro s gid g ls h
  grind [UniOut.memOk, State.memOk, checkAccess_memOk, checked_memOk, setGroup_mem, startLoad_memOk]

theorem execLdu_keeps (f : MForm) : KeepsMem (execLdu f) := by
  intro s t h e
  unfold execLdu at e
  exact uniLoad_keeps f _ _ _ _ h e

theorem execAld_keeps (f : MForm) : KeepsMem (execAld f) := fun h e => uniLoad_keeps f _ _ _ _ h e

theorem execStu_keeps (f : MForm) : KeepsMem (execStu f) := by
  refine uniInstr_keeps _ _ _ ?_
  intro s gid g ls h
  dsimp only
  split
  · trivial
  · exact h
  · trivial
  · trivial
  split
  · trivial
  · next a ea _ _ _ _ _ =>
    have hc := checkAccess_memOk (newStore_memOk h) g a .write ea (sizeBytes f.size) (sizeBytes f.size)
    split
    · grind [UniOut.memOk]
    · next pa u hu =>
      have hu' : u.memOk := by rw [hu] at hc; exact hc
      have ha := awaitPeer_memOk hu' gid g ls pa ea
      grind [UniOut.memOk, doStore_memOk]

theorem serveLoad_memOk {s : State} (h : s.memOk) (r : Req) (p : Place) (n pend to_ : Nat) (fill : Bool) :
    (s.serveLoad r p n pend to_ fill).memOk := by
  unfold State.serveLoad
  grind [learn_memOk, reply_memOk]

theorem storeAnswered_memOk {s : State} (h : s.memOk) (pend : Nat) : (s.storeAnswered pend).memOk :=
  settlePend_memOk (memOk_of_mem (setPend_mem _ _ _) h) ..

theorem execWriteThroughAck_keeps (core entry : Nat) : KeepsMem (execWriteThroughAck core entry) := by
  intro s t h e
  unfold execWriteThroughAck at e
  grind [State.memOk, foldl_memOk, ackInspects_memOk, setCore_mem, storeAnswered_memOk]

theorem execLoadRequestAtHome_keeps (req : Nat) : KeepsMem (execLoadRequestAtHome req) := by
  intro s t h e
  unfold execLoadRequestAtHome at e
  grind [learn_memOk, refused_memOk, reply_memOk, serveLoad_memOk, take_memOk]

theorem l1Put_memOk {s : State} (h : s.memOk) (core key : Nat) (x : L1Sector) : (s.l1Put core key x).memOk :=
  memOk_of_mem (setCore_mem _ _ _) h

theorem execSliceReply_keeps (reply : Nat) : KeepsMem (execSliceReply reply) := by
  intro s t h e
  unfold execSliceReply at e
  grind [State.memOk, l1Put_memOk, setPend_mem, settlePend_memOk]

theorem execStaleReadSample_keeps (sample : Nat) : KeepsMem (execStaleReadSample sample) := by
  intro s t h e
  unfold execStaleReadSample at e
  split at e
  · next u hu =>
    split at e
    · cases e; exact memOk_of_mem (setPart_mem _ _ _) (take_memOk h hu)
    · cases e; exact h
  · cases e; exact h

theorem execPoisonWriteback_keeps (part pa : Nat) : KeepsMem (execPoisonWriteback part pa) := by
  intro s t h e
  unfold execPoisonWriteback at e
  grind [State.memOk, logError_memOk]

/-! ## Scratchpad and barrier objects -/

theorem loadNow_memOk {s : State} (h : s.memOk) (gid : Nat) (g : Group) (lanes : List Nat) (dest : Dest)
    (bs : List Byte) (ea : DWord) : (s.loadNow gid g lanes dest bs ea).2.memOk := by
  unfold State.loadNow
  grind [openPend_memOk, replyLocal_memOk]

theorem ldsLane_memOk {s : State} (h : s.memOk) (f : MForm) (gid l : Nat) (t : Thread) :
    (ldsLane f gid s l t).memOk := by
  unfold ldsLane
  grind [LaneOut.memOk, lane_memOk, loadNow_memOk, readSpad_memOk, setThread_memOk, startLoad_memOk]

theorem execLds_keeps (f : MForm) : KeepsMem (execLds f) :=
  seqInstr_keeps _ (by intro s gid l t h; exact ldsLane_memOk h ..)

theorem putSpad_memOk {s : State} (h : s.memOk) (gid : Nat) (g : Group) (l : Nat) (regs : List Nat) (p : Place)
    (bs : List Byte) : (s.putSpad gid g l regs p bs).memOk := by
  unfold State.putSpad
  grind [disown_memOk, openLate_memOk, placeWrite_memOk]

theorem stsLane_memOk {s : State} (h : s.memOk) (f : MForm) (n : Nat) (gid l : Nat) (t : Thread) :
    (stsLane f n gid s l t).memOk := by
  unfold stsLane
  split
  · trivial
  split
  · exact lane_memOk _
  grind [LaneOut.memOk, enterStore_memOk, openLate_memOk, putSpad_memOk]

theorem clearWritten_memOk {s : State} (h : s.memOk) (ps : List (Place × Nat)) : (State.clearWritten ps s).memOk := by
  unfold State.clearWritten
  grind [foldl_memOk, setSpad_memOk]

theorem stsTogether_memOk {s : State} (h : s.memOk) (f : MForm) (ps : List (Nat × Place)) (gid : Nat)
    (ds : List (Nat × Dispo)) : (stsTogether f ps gid s ds).1.memOk :=
  clearWritten_memOk h ..

theorem execSts_keeps (f : MForm) : KeepsMem (execSts f) :=
  issue_keeps fun h e => seqFragmentWith_keeps _ (by intro s gid l t h; exact stsLane_memOk h ..)
    (fun _ _ h => stsTogether_memOk h ..) (newStore_memOk h) e

theorem pushOwn_memOk {s t : State} {core gid : Nat} {p : Place} {n : Nat} (h : s.memOk)
    (e : s.pushOwn core gid p n = some t) : t.memOk := by
  unfold State.pushOwn at e
  grind [startDrain_memOk]

theorem atomsLane_memOk {s : State} (h : s.memOk) (f : RForm) (n : Nat) (gid l : Nat) (t : Thread) :
    (atomsLane f n gid s l t).memOk := by
  unfold atomsLane
  split
  · trivial
  split
  · exact lane_memOk _
  grind [LaneOut.memOk, disown_memOk, loadNow_memOk, openLate_memOk, openPend_memOk, placeWrite_memOk, post_memOk,
    pushOwn_memOk, readSpad_memOk, setThread_memOk]

theorem execAtoms_keeps (f : RForm) : KeepsMem (execAtoms f) := by
  intro s t h e
  exact seqInstr_keeps _ (by intro s gid l t h; exact atomsLane_memOk h ..) (newStore_memOk h) e

theorem presentLane_memOk {s : State} (h : s.memOk) (f : MForm) (gid l : Nat) (t : Thread) :
    (presentLane f gid s l t).memOk := by
  unfold presentLane
  grind [LaneOut.memOk, lane_memOk, openPend_memOk, replyLocal_memOk, setThread_memOk]

theorem execPresent_keeps (f : MForm) : KeepsMem (execPresent f) :=
  seqInstr_keeps _ (by intro s gid l t h; exact presentLane_memOk h ..)

theorem wakeBarrier_memOk {s : State} (h : s.memOk) (bid idx off : Nat) : (s.wakeBarrier bid idx off).memOk := h

theorem putBarrier_memOk {s : State} (h : s.memOk) (bid idx off : Nat) (x : Bar) :
    (s.putBarrier bid idx off x).memOk := by
  unfold State.putBarrier
  grind [disown_memOk, placeWrite_memOk, wakeBarrier_memOk]

theorem barrierBytes_memOk {s : State} (h : s.memOk) (bid idx : Nat) (off n : Nat) (bits : BitVec 6) :
    (s.barrierBytes bid idx off n bits).memOk :=
  putBarrier_memOk h ..

theorem barrierArrive_memOk {s t : State} {bid idx : Nat} {off k : Nat} (h : s.memOk)
    (e : s.barrierArrive bid idx off k = some t) : t.memOk := by
  unfold State.barrierArrive at e
  grind [putBarrier_memOk]

theorem barrierInstr_keeps (f : MForm) (spaces : List Nat) (acc : Access) (srcs : List (Nat × Bool))
    {fn : State → Nat → Group → List Nat → AddrReg → DWord → Option Place → List Nat → UniOut}
    (hf : ∀ {s : State} (gid : Nat) (g : Group) (ls : List Nat) (a : AddrReg) (ea : DWord) (p : Option Place) (xs : List Nat),
      s.memOk → (fn s gid g ls a ea p xs).memOk) : KeepsMem (barrierInstr f spaces acc srcs fn) := by
  refine uniInstr_keeps _ _ _ ?_
  intro s gid g ls h
  dsimp only
  split
  · exact uniStop_memOk h _
  · exact uniStop_memOk h _
  grind [UniOut.memOk, readSpad_memOk]

theorem execBoinit_keeps (f : MForm) : KeepsMem (execBoinit f) := by
  refine barrierInstr_keeps _ _ _ _ ?_
  intro s gid g ls a ea p xs h
  grind [UniOut.memOk, putBarrier_memOk, setSpad_memOk]

theorem execBoarrive_keeps (f : MForm) : KeepsMem (execBoarrive f) := by
  refine barrierInstr_keeps _ _ _ _ ?_
  intro s gid g ls a ea p xs h
  grind [UniOut.memOk, barrierArrive_memOk, openPend_memOk, post_memOk]

theorem execBoexpect_keeps (f : MForm) : KeepsMem (execBoexpect f) := by
  refine barrierInstr_keeps _ _ _ _ ?_
  intro s gid g ls a ea p xs h
  grind [UniOut.memOk, putBarrier_memOk]

theorem execBowait_keeps (f : MForm) : KeepsMem (execBowait f) := by
  refine barrierInstr_keeps _ _ _ _ ?_
  intro s gid g ls a ea p xs h
  grind [UniOut.memOk]

theorem execBotest_keeps (f : MForm) : KeepsMem (execBotest f) := by
  refine barrierInstr_keeps _ _ _ _ ?_
  intro s gid g ls a ea p xs h
  grind [UniOut.memOk, State.memOk, setGroup_mem]

/-! ## Atomics and row operations -/

theorem l1Forget_memOk {s : State} (h : s.memOk) (core : Nat) (p : Place) (n : Nat) : (s.l1Forget core p n).memOk := by
  unfold State.l1Forget
  grind [State.memOk, foldl_memOk, setCore_mem]

theorem sendAtomic_memOk {s t : State} {r} {gid : Nat} {g : Group} {l : Nat} {a : AddrReg} {pa n : Nat} {ea : DWord}
    {op : AtomOp} {dest : Dest} (h : s.memOk) (e : s.sendAtomic gid g l a pa n ea op dest = some (r, t)) : t.memOk := by
  unfold State.sendAtomic at e
  grind [State.memOk, l1Forget_memOk, openPend_memOk, post_memOk, pushOwn_memOk]

theorem atomicLane_memOk {s : State} (h : s.memOk) (gid : Nat) (g : Group) (l : Nat) (a : AddrReg) (ea : DWord)
    (n : Nat) (op : AtomOp) (dest : Dest) (regs : List Nat) : (s.atomicLane gid g l a ea n op dest regs).memOk := by
  unfold State.atomicLane
  grind [LaneOut.memOk, checkAccess_memOk, sendAtomic_memOk, setThread_memOk]

theorem atomLane_memOk {s : State} (h : s.memOk) (f : RForm) (issueNo gid l : Nat) (t : Thread) :
    (atomLane f issueNo gid s l t).memOk := by
  unfold atomLane
  grind [LaneOut.memOk, atomicLane_memOk, lane_memOk, openLate_memOk]

theorem execAtom_keeps (f : RForm) : KeepsMem (execAtom f) := by
  intro s t h e
  exact seqInstr_keeps _ (by intro s gid l t h; exact atomLane_memOk h ..) (newStore_memOk h) e

theorem casLane_memOk {s : State} (h : s.memOk) (f : RForm) (issueNo gid l : Nat) (t : Thread) :
    (casLane f issueNo gid s l t).memOk := by
  unfold casLane
  grind [LaneOut.memOk, atomicLane_memOk, lane_memOk, openLate_memOk]

theorem execCas_keeps (f : RForm) : KeepsMem (execCas f) := by
  intro s t h e
  exact seqInstr_keeps _ (by intro s gid l t h; exact casLane_memOk h ..) (newStore_memOk h) e

theorem padd2Lane_memOk {s : State} (h : s.memOk) (f : RForm) (issueNo gid l : Nat) (t : Thread) :
    (padd2Lane f issueNo gid s l t).memOk := by
  unfold padd2Lane
  grind [LaneOut.memOk, atomicLane_memOk, lane_memOk, openLate_memOk]

theorem execPadd2_keeps (f : RForm) : KeepsMem (execPadd2 f) := by
  intro s t h e
  exact seqInstr_keeps _ (by intro s gid l t h; exact padd2Lane_memOk h ..) (newStore_memOk h) e

theorem replyCause_memOk {s : State} (h : s.memOk) (r : Req) (pends : List Nat) (cause : Nat) (addr : Nat → DWord) :
    (s.replyCause r pends cause addr).memOk := by
  unfold State.replyCause
  grind [foldl_memOk, reply_memOk]

theorem keepReq_memOk {s : State} (h : s.memOk) (r : Req) (old : List Req) : (s.keepReq r old).memOk := h

theorem serveAtomic_memOk {s : State} (h : s.memOk) (r : Req) (old : List Req) (p : Place) (n : Nat) (op : AtomOp)
    (lanes : List Share2) (obj : Word) (high : Bool) : (s.serveAtomic r old p n op lanes obj high).memOk := by
  unfold State.serveAtomic
  grind [foldl_memOk, keepReq_memOk, learn_memOk, logError_memOk, placeWrite_memOk, replyCause_memOk, reply_memOk]

theorem servePeerHalf_memOk {s : State} (h : s.memOk) (r : Req) (old : List Req) (pa : Nat) (op : AtomOp)
    (high : Bool) : (s.servePeerHalf r old pa op high).memOk := by
  unfold State.servePeerHalf
  grind [State.memOk, keepReq_memOk, logError_memOk, write_memOk]

theorem execAtomicRequestAtHome_keeps (req : Nat) (high : Bool) : KeepsMem (execAtomicRequestAtHome req high) := by
  intro s t h e
  unfold execAtomicRequestAtHome at e
  grind [refused_memOk, replyCause_memOk, serveAtomic_memOk, servePeerHalf_memOk, take_memOk]

theorem execPeerSpadRequest_keeps (req : Nat) : KeepsMem (execPeerSpadRequest req) := by
  intro s t h e
  unfold execPeerSpadRequest at e
  grind [barrierArrive_memOk, disown_memOk, readSpad_memOk, replyCause_memOk, reply_memOk, serveAtomic_memOk,
    serveLoad_memOk, serveStore_memOk, take_memOk]

theorem rowSegs_memOk {s : State} (h : s.memOk) (g : Group) (a : AddrReg) (acc : Access) (ea n : Nat) :
    (s.rowSegs g a acc ea n).2.memOk := by
  unfold State.rowSegs
  grind [checkPage_memOk]

theorem pushSegs_memOk {core gid : Nat} {segs : List (Nat × Nat)} :
    ∀ {s t : State}, s.memOk → s.pushSegs core gid segs = some t → t.memOk := by
  induction segs with
  | nil => intro s t h e; cases e; exact h
  | cons x xs ih => intro s t h e; unfold State.pushSegs at e; grind [pushOwn_memOk]

theorem sendRow_memOk {s : State} (h : s.memOk) (gid : Nat) (g : Group) (segs : List (Nat × Nat)) (ty : Nat)
    (row : List Byte) (pend : Nat) (obj : Word) (issueNo : Nat) :
    (s.sendRow gid g segs ty row pend obj issueNo).memOk := by
  unfold State.sendRow
  grind [State.memOk, post_memOk]

theorem rowTeam_memOk {s t : State} {ds : List (Nat × Dispo)} {gid : Nat} {g : Group} {ty : Option Nat}
    {c size issueNo : Nat} {o : ObjEntry} {team : List RowLane} (h : s.memOk)
    (e : s.rowTeam gid g ty c size issueNo o team = some (t, ds)) : t.memOk := by
  unfold State.rowTeam at e
  split at e
  · cases e; exact h
  dsimp only at e
  split at e
  · cases e; exact h
  split at e
  · cases e; exact h
  grind [State.memOk, foldl_memOk, foldl_snd_memOk, l1Forget_memOk, openLate_memOk, openPend_memOk, post_memOk,
    pushSegs_memOk, rowSegs_memOk, sendRow_memOk, setThread_memOk]

theorem rowTeams_memOk {gid : Nat} {g : Group} {ty : Option Nat} {c size issueNo : Nat} {o : ObjEntry}
    {teams : List (Nat × List RowLane)} :
    ∀ {s t : State} {ds : List (Nat × Dispo)}, s.memOk →
      State.rowTeams s gid g ty c size issueNo o teams = some (t, ds) → t.memOk := by
  induction teams with
  | nil => intro s t ds h e; cases e; exact h
  | cons x xs ih =>
    intro s t ds h e
    unfold State.rowTeams at e
    split at e
    · cases e
    · next u us hu =>
      obtain ⟨⟨v, more⟩, hv, rfl, -⟩ : ∃ p, State.rowTeams u gid g ty c size issueNo o xs = some p ∧ p.1 = t ∧
          us ++ p.2 = ds := by
        simpa using e
      exact ih (rowTeam_memOk h hu) hv

theorem rowFragment_keeps (sh : Shape) (ty : Option Nat) (c issueNo : Nat) (part : Group → Nat → Thread → Except Stop RowLane) :
    FragKeeps (rowFragment sh ty c issueNo part) := by
  intro s t gid fid h e
  unfold rowFragment at e
  split at e
  · cases e; exact h
  split at e
  · cases e; exact raiseAll_memOk h _ _ _ _
  dsimp only at e
  split at e
  · cases e
  split at e
  · cases e
  have hv := views_memOk h ‹Group› (Group.fragLanes ‹Group› fid)
  split at e
  · cases e
  · next u ds hd =>
    cases e
    refine retire_memOk (memOk_of_mem (setGroup_mem _ _ _) ?_) _ _ _ _
    split at hd
    · cases hd; exact hv
    split at hd
    · cases hd; exact hv
    · exact rowTeams_memOk hv hd

theorem execRowadd_keeps (f : RForm) : KeepsMem (execRowadd f) := fun h e =>
  issue_keeps (rowFragment_keeps _ _ _ _ _) (newStore_memOk h) e

theorem execRowld_keeps (f : MForm) : KeepsMem (execRowld f) := fun h e =>
  issue_keeps (rowFragment_keeps _ _ _ _ _) (newStore_memOk h) e

theorem rowWrite_memOk (segs : List (Nat × Nat)) :
    ∀ {s : State} (bs : List Byte), s.memOk → (s.rowWrite segs bs).memOk := by
  induction segs with
  | nil => exact fun _ h => h
  | cons x xs ih => exact fun bs h => ih _ (memOk_write h _ _)

theorem execRowRequestAtHome_keeps (req : Nat) : KeepsMem (execRowRequestAtHome req) := by
  intro s t h e
  unfold execRowRequestAtHome at e
  split at e
  · next r u hu =>
    have ht := take_memOk h hu
    split at e
    · next segs ty add lanes obj _ _ =>
      dsimp only at e
      split at e
      · cases e; exact h
      split at e
      · cases e; exact replyCause_memOk ht _ _ _ _
      split at e
      · cases e; exact replyCause_memOk ht _ _ _ _
      · cases e
        have hl := foldl_memOk (f := fun t (x : Nat × Nat) => t.learn r.core (.mem x.1) x.2)
          (fun _ _ h => learn_memOk h ..) segs ht
        refine foldl_memOk (fun _ _ h => reply_memOk h ..) _ ?_
        split
        · exact rowWrite_memOk _ _ hl
        · exact hl
    · cases e; exact h
  · cases e; exact h

/-! ## Queues -/

theorem postQueue_memOk {s : State} (h : s.memOk) (issueNo gid : Nat) (g : Group) (op n : Nat) (w : Waiter) :
    (s.postQueue issueNo gid g op n w).memOk := by
  unfold State.postQueue
  grind [State.memOk, post_memOk]

theorem giveQueue_memOk {s : State} (h : s.memOk) (n issueNo gid : Nat) (g : Group) (l r : Nat) (x : Word) :
    (s.giveQueue n issueNo gid g l r x).2.memOk := by
  unfold State.giveQueue
  grind [openLate_memOk, openPend_memOk, postQueue_memOk]

theorem takeQueue_memOk {s : State} (h : s.memOk) (op n : Nat) (k issueNo gid : Nat) (g : Group) (l r : Nat) :
    (s.takeQueue op n k issueNo gid g l r).2.memOk := by
  unfold State.takeQueue
  grind [openPend_memOk, postQueue_memOk, setThread_memOk]

theorem setAsk_memOk {s : State} (h : s.memOk) (gid l : Nat) (x : Option (Nat × QStage)) : (s.setAsk gid l x).memOk :=
  setThread_memOk h ..

theorem askQueue_memOk {s : State} (h : s.memOk) (op : Nat) (f : I16Form) (issueNo gid : Nat) (g : Group)
    (x : Nat × Thread) : (s.askQueue op f issueNo gid g x).memOk := by
  unfold State.askQueue
  grind [giveQueue_memOk, setAsk_memOk, takeQueue_memOk]

theorem queueWaits_memOk {s : State} (h : s.memOk) (op : Nat) (f : I16Form) (gid fid : Nat) :
    (queueWaits op f s gid fid).2.memOk := by
  unfold queueWaits
  grind [foldl_memOk, askQueue_memOk, newStore_memOk, views_memOk]

theorem queueLane_memOk {s : State} (h : s.memOk) (op : Nat) (f : I16Form) (gid l : Nat) (t : Thread) :
    (queueLane op f gid s l t).memOk := by
  unfold queueLane
  grind [LaneOut.memOk, setAsk_memOk]

theorem queueInstr_keeps (op : Nat) (f : I16Form) : KeepsMem (queueInstr op f) := by
  refine issueAfter_keeps (fun gid fid h => queueWaits_memOk h _ _ _ _) ?_
  intro s t gid fid h e
  have hq : FragKeeps (seqFragment { unpred := true } (queueLane op f)) := seqFragment_keeps _ fun gid l t h =>
    queueLane_memOk h _ _ _ _ _
  grind [raiseAll_memOk, FragKeeps]

theorem qtryLane_memOk {s : State} (h : s.memOk) (f : I16Form) (issueNo gid l : Nat) (t : Thread) :
    (qtryLane f issueNo gid s l t).memOk := by
  unfold qtryLane
  grind [LaneOut.memOk, lane_memOk, takeQueue_memOk]

theorem execQtry_keeps (f : I16Form) : KeepsMem (execQtry f) := by
  intro s t h e
  exact seqInstr_keeps _ (by intro s gid l t h; exact qtryLane_memOk h ..) (newStore_memOk h) e

theorem qlenLane_memOk {s : State} (h : s.memOk) (f : I16Form) (issueNo gid l : Nat) (t : Thread) :
    (qlenLane f issueNo gid s l t).memOk := by
  unfold qlenLane
  grind [LaneOut.memOk, lane_memOk, openPend_memOk, postQueue_memOk, setThread_memOk]

theorem execQlen_keeps (f : I16Form) : KeepsMem (execQlen f) := by
  intro s t h e
  exact seqInstr_keeps _ (by intro s gid l t h; exact qlenLane_memOk h ..) (newStore_memOk h) e

theorem qopenLane_memOk {s : State} (h : s.memOk) (f : I16Form) (gid l : Nat) (t : Thread) :
    (qopenLane f gid s l t).memOk := by
  unfold qopenLane
  grind [State.memOk, LaneOut.memOk, setGroup_mem, setSQueue_mem]

theorem execQopen_keeps (f : I16Form) : KeepsMem (execQopen f) :=
  seqInstr_keeps _ (by intro s gid l t h; exact qopenLane_memOk h ..)

theorem qdoneLane_memOk {s : State} (h : s.memOk) (f : I16Form) (gid l : Nat) (t : Thread) :
    (qdoneLane f gid s l t).memOk := by
  unfold qdoneLane
  grind [LaneOut.memOk, retireProducer_memOk]

theorem execQdone_keeps (f : I16Form) : KeepsMem (execQdone f) :=
  seqInstr_keeps _ (by intro s gid l t h; exact qdoneLane_memOk h ..)

theorem answerLane_memOk {s : State} (h : s.memOk) (n : Nat) (w : Waiter) (bytes : List Byte)
    (cause : Option (Nat × DWord)) (got : Bool) : (s.answerLane n w bytes cause got).memOk := by
  unfold State.answerLane
  grind [reply_memOk, setThread_memOk]

theorem putEntry_memOk {s t : State} {n : Nat} {x : Word} (h : s.memOk) (e : s.putEntry n x = some t) : t.memOk := by
  unfold State.putEntry at e
  dsimp only at e
  split at e
  · cases e
  · cases e
    exact memOk_of_mem (setSQueue_mem _ _ _) (deviceWrite_memOk h ‹_›)

theorem getEntry_memOk {s : State} (h : s.memOk) (n : Nat) : (s.getEntry n).2.memOk := by
  unfold State.getEntry
  grind [State.memOk, setSQueue_mem]

theorem giveEntry_memOk {s : State} (h : s.memOk) (n : Nat) (w : Waiter) : (s.giveEntry n w).memOk := by
  unfold State.giveEntry
  grind [answerLane_memOk, getEntry_memOk]

theorem serveTakers_memOk {s : State} (h : s.memOk) (n : Nat) : (s.serveTakers n).memOk := by
  unfold State.serveTakers
  grind [State.memOk, giveEntry_memOk, setSQueue_mem]

theorem append_memOk {s : State} (h : s.memOk) (n : Nat) (w : Waiter) : (s.append n w).memOk := by
  unfold State.append
  grind [answerLane_memOk, putEntry_memOk, serveTakers_memOk]

theorem discard_memOk {s : State} (h : s.memOk) (n : Nat) (w : Waiter) : (s.discard n w).memOk :=
  answerLane_memOk (memOk_of_mem (setSQueue_mem _ _ _) h) ..

theorem serveGivers_memOk {s : State} (h : s.memOk) (n : Nat) : (s.serveGivers n).memOk := by
  unfold State.serveGivers
  grind [State.memOk, foldl_memOk, append_memOk, discard_memOk, setSQueue_mem]

theorem flushHeld_memOk {s : State} (h : s.memOk) (n : Nat) : (s.flushHeld n).memOk := by
  unfold State.flushHeld
  split
  · exact h
  split
  · exact h
  split
  · exact h
  split
  · exact h
  · exact serveTakers_memOk (memOk_of_mem (setPort_mem _ _ _) (putEntry_memOk h ‹_›)) _

theorem waitLane_memOk {s : State} (h : s.memOk) (w : Waiter) : (s.waitLane w).memOk := setThread_memOk h ..

theorem serveLane_memOk {s : State} (h : s.memOk) (op n : Nat) (w : Waiter) : (s.serveLane op n w).memOk := by
  unfold State.serveLane
  grind [State.memOk, answerLane_memOk, append_memOk, discard_memOk, flushHeld_memOk, giveEntry_memOk,
    serveGivers_memOk, setSQueue_mem, waitLane_memOk]

theorem execQueueRequestAtSlice_keeps (req : Nat) : KeepsMem (execQueueRequestAtSlice req) := by
  intro s t h e
  unfold execQueueRequestAtSlice at e
  grind [foldl_memOk, answerLane_memOk, serveLane_memOk, take_memOk]

theorem execSrstat_keeps (f : RForm) : KeepsMem (execSrstat f) := by
  refine uniInstr_keeps _ _ _ ?_
  intro s gid g ls h
  grind [UniOut.memOk, State.memOk, setGroup_mem, setPart_mem, uniStop_memOk]

/-! ## Branches, rejoin masks, melds and leaving -/

theorem brxLane_memOk {s : State} (f : I16Form) (gid l : Nat) (t : Thread) :
    (brxLane f gid s l t).memOk := by
  unfold brxLane
  grind [LaneOut.memOk]

theorem execBrx_keeps (f : I16Form) : KeepsMem (execBrx f) :=
  seqInstr_keeps _ (by intro s gid l t h; exact brxLane_memOk ..)

theorem execBra_keeps (f : I24Form) : KeepsMem (execBra f) := by
  refine uniInstr_keeps _ _ _ ?_
  intro s gid g ls h
  grind [UniOut.memOk]

theorem execJmpi_keeps (f : RForm) : KeepsMem (execJmpi f) := by
  refine uniInstr_keeps _ _ _ ?_
  intro s gid g ls h
  grind [UniOut.memOk, uniStop_memOk]

theorem joinLane_memOk {s : State} (h : s.memOk) (k gid l : Nat) (t : Thread) : (joinLane k gid s l t).memOk := by
  unfold joinLane
  grind [State.memOk, LaneOut.memOk, setGroup_mem]

theorem execJoin_keeps (f : RForm) : KeepsMem (execJoin f) :=
  seqInstr_keeps _ (by intro s gid l t h; exact joinLane_memOk h ..)

theorem waitjLane_memOk {s : State} (h : s.memOk) (k gid l : Nat) (t : Thread) : (waitjLane k gid s l t).memOk := by
  unfold waitjLane
  grind [State.memOk, LaneOut.memOk, setGroup_mem]

theorem execWaitj_keeps (f : RForm) : KeepsMem (execWaitj f) := by
  refine issue_keeps ?_
  intro s t gid fid h e
  obtain ⟨u, hu, rfl⟩ := Option.map_eq_some_iff.mp e
  exact memOk_of_mem (setGroup_mem _ _ _) (seqFragment_keeps _ (by intro s gid l t h; exact waitjLane_memOk h ..) h hu)

theorem execCall_keeps (f : I24Form) : KeepsMem (execCall f) := by
  refine uniInstr_keeps _ _ _ ?_
  intro s gid g ls h
  grind [UniOut.memOk, State.memOk, setGroup_mem]

theorem retLane_memOk {s : State} (h : s.memOk) (gid l : Nat) (t : Thread) : (retLane gid s l t).memOk := by
  unfold retLane
  grind [LaneOut.memOk, setThread_memOk]

theorem execRet_keeps (f : RForm) : KeepsMem (execRet f) :=
  seqInstr_keeps _ (by intro s gid l t h; exact retLane_memOk h ..)

theorem callqLane_memOk {s : State} (h : s.memOk) (f : RForm) (gid l : Nat) (t : Thread) :
    (callqLane f gid s l t).memOk := by
  unfold callqLane
  grind [LaneOut.memOk, lane_memOk, setThread_memOk]

theorem callqTogether_keeps : TogetherKeeps callqTogether := by
  intro s gid ds h
  unfold callqTogether
  split
  · exact h
  · refine foldl_of_memOk Prod.fst ?_ _ h
    grind [State.memOk, setCore_mem, tick_memOk]

theorem execCallq_keeps (f : RForm) : KeepsMem (execCallq f) :=
  issue_keeps (seqFragmentWith_keeps _ (by intro s gid l t h; exact callqLane_memOk h ..) callqTogether_keeps)

theorem readNow_memOk {s t : State} {r} {gid : Nat} {g : Group} {o : Order} {p : Place} {n : Nat} (h : s.memOk)
    (e : s.readNow gid g o p n = some (r, t)) : t.memOk := by
  unfold State.readNow at e
  grind [foldl_memOk, findAll_memOk, learn_memOk, readSpad_memOk, readStored_memOk]

theorem execMtbl_keeps (f : RForm) : KeepsMem (execMtbl f) := by
  refine issue_keeps (groupFragment_keeps _ ?_)
  intro s gid fid g ls h
  dsimp only
  split
  · split
    · exact uniStop_memOk h _
    · exact memOk_of_mem (setGroup_mem _ _ _) h
  split
  · exact uniStop_memOk h _
  next a _ =>
  split
  · trivial
  have hc := checkAccess_memOk h g a .read a.pointer 128 128
  split
  · grind [UniOut.memOk]
  next pa u hu =>
  rw [hu] at hc
  split
  · trivial
  · next hr => exact readNow_memOk hc hr
  · next hr => exact memOk_of_mem (setGroup_mem _ _ _) (readNow_memOk hc hr)

theorem meldLane_memOk {s : State} (h : s.memOk) (f : RForm) (gid l : Nat) (t : Thread) :
    (meldLane f gid s l t).memOk := by
  unfold meldLane
  grind [LaneOut.memOk, lane_memOk, setThread_memOk]

theorem meldFragment_keeps (f : RForm) : FragKeeps (meldFragment f) := by
  intro s t gid fid h e
  unfold meldFragment at e
  split at e
  · cases e; exact h
  split at e
  · cases e; exact raiseAll_memOk h _ _ _ _
  · refine seqFragmentWith_keeps _ (fun gid l t h => meldLane_memOk h _ _ _ _) ?_ h e
    intro s gid ds h
    dsimp only
    split
    · exact h
    · exact h

theorem execMeld_keeps (f : RForm) : KeepsMem (execMeld f) := issue_keeps (meldFragment_keeps f)

theorem execEndmeld_keeps (f : RForm) : KeepsMem (execEndmeld f) :=
  issue_keeps (groupFragment_keeps _ (by intro s gid fid g ls h; exact memOk_of_mem (setGroup_mem _ _ _) h))

theorem execRegion_keeps (f : RForm) : KeepsMem (execRegion f) :=
  issue_keeps (groupFragment_keeps _ (by intro s gid fid g ls h; exact h))

theorem exitWaits_memOk {s : State} (h : s.memOk) (sh : Shape) (gid fid : Nat) : (exitWaits sh s gid fid).2.memOk := by
  unfold exitWaits
  grind [drainGroup_memOk]

theorem execExit_keeps (f : RForm) : KeepsMem (execExit f) :=
  issueAfter_keeps (fun _ _ h => exitWaits_memOk h ..) (seqFragment_keeps _ (stop_keeps _))

theorem reformTogether_memOk {s : State} (h : s.memOk) (gid : Nat) (ds : List (Nat × Dispo)) :
    (reformTogether gid s ds).1.memOk := by
  unfold reformTogether
  grind [State.memOk, setCore_mem, tick_memOk]

theorem execReform_keeps (f : RForm) : KeepsMem (execReform f) :=
  issue_keeps (seqFragmentWith_keeps _ (stop_keeps _) fun _ _ h => reformTogether_memOk h ..)

theorem execReorder_keeps (f : RForm) : KeepsMem (execReorder f) := by
  refine issueAfter_keeps ?_ (groupFragment_keeps _ ?_)
  · intro s gid fid h
    dsimp only
    split <;> exact h
  · intro s gid fid g ls h
    grind [UniOut.memOk, State.memOk, uniStop_memOk, tick_memOk, setGroup_mem, setCore_mem]

theorem execInstructionFetch_keeps (gid : Nat) (va : DWord) : KeepsMem (execInstructionFetch gid va) := by
  intro s t h e
  unfold execInstructionFetch at e
  grind [State.memOk, fetchSector_memOk, setGroup_mem]

/-! ## Launch records and placement -/

theorem addGroups_memOk {s : State} (h : s.memOk) (bid : Nat) (gs : List Group) : (s.addGroups bid gs).memOk := by
  unfold State.addGroups
  grind [State.memOk, foldl_memOk, setBlock_mem]

theorem placeShare_memOk {s t : State} {bid part : Nat} {c home : Nat} {hd : KHdr} {ns : List Nat} {privileged : Bool}
    {args : DWord} {len : Nat} (h : s.memOk) (e : s.placeShare bid part c home hd ns privileged args len = some t) :
    t.memOk := by
  unfold State.placeShare at e
  grind [addGroups_memOk]

theorem placeShares_memOk {bid part : Nat} {hd : KHdr} {n k : Nat} {privileged : Bool} {args : DWord} {len : Nat}
    {cs : List (Nat × Nat)} :
    ∀ {s t : State}, s.memOk → State.placeShares s bid part hd n k privileged args len cs = some t → t.memOk := by
  induction cs with
  | nil => intro s t h e; cases e; exact h
  | cons x xs ih => intro s t h e; unfold State.placeShares at e; grind [placeShare_memOk]

theorem placeBlock_memOk {s t : State} {rid : Nat} {r : Launch} {hd : KHdr} {index : Nat} {cores : List Nat}
    (h : s.memOk) (e : s.placeBlock rid r hd index cores = some t) : t.memOk := by
  unfold State.placeBlock at e
  dsimp only at e
  split at e
  · cases e
  · cases e
    refine foldl_memOk (fun s c h => l1Shrink_memOk h c) _ (memOk_of_mem (setLaunch_mem _ _ _) (memOk_of_mem
      (setBlock_mem _ _ _) (placeShares_memOk ?_ ‹_›)))
    exact h

theorem countAttempt_memOk {s : State} (h : s.memOk) : s.countAttempt.memOk := h

theorem hostWrite_memOk {off : Nat} {s t : State} {write : State → Host.Outcome State Fault Refusal} (h : s.memOk)
    (hw : KeepsMem write) (e : hostWrite off s write = .next t) : t.memOk := by
  unfold hostWrite at e
  split at e
  · cases e; exact countAttempt_memOk h
  · exact hw h e

theorem enqueueRecord_memOk {s : State} (h : s.memOk) (part q : Nat) (addr : DWord) (parent : Option Nat)
    (parentAddr : DWord) (depth : Nat) : (s.enqueueRecord part q addr parent parentAddr depth).2.memOk := by
  unfold State.enqueueRecord
  grind [State.memOk, putFields_memOk, setLQueue_mem]

theorem portRefusal_memOk {s : State} (h : s.memOk) (q : Nat) (addr : DWord) (reason : Nat) :
    (s.portRefusal q addr reason).memOk :=
  raise_memOk (memOk_of_mem (setLQueue_mem _ _ _) h) ..

theorem execLaunchPortWrite_keeps (port width : Nat) (value : BitVec 64) :
    KeepsMem (execLaunchPortWrite port width value) := by
  intro s t h e
  unfold execLaunchPortWrite at e
  split at e
  · refine hostWrite_memOk h ?_ e
    intro s t h e
    dsimp only at e
    split at e
    · cases e; exact h
    · next p _ =>
      split at e
      · cases e; exact portRefusal_memOk h _ _ _
      split at e
      · cases e; exact portRefusal_memOk h _ _ _
      split at e
      · cases e; exact portRefusal_memOk (deviceStore_memOk (deviceStore_memOk h ..) ..) _ _ _
      · cases e; exact enqueueRecord_memOk h ..
  · cases e; exact h

theorem unreadable_memOk {s : State} (h : s.memOk) (rid : Nat) (r : Launch) : (s.unreadable rid r).memOk := by
  unfold State.unreadable
  grind [portRefusal_memOk, refuse_memOk, settleAll_memOk]

theorem execRecordResolution_keeps (queue : Nat) : KeepsMem (execRecordResolution queue) := by
  intro s t h e
  have hs := fun rid f => memOk_of_mem (setLaunch_mem s rid f) h
  unfold execRecordResolution at e
  split at e
  · cases e; exact h
  split at e
  · cases e; exact h
  split at e
  · cases e; exact unreadable_memOk h _ _
  dsimp only at e
  split at e
  · cases e; exact settleAll_memOk (refuse_memOk (hs ..) ..)
  · cases e; exact settleAll_memOk (review_memOk (putStatus_memOk (hs ..) ..) _)

theorem spawn_memOk {s t : State} {gid : Nat} {g : Group} {addr : DWord} (h : s.memOk)
    (e : s.spawn gid g addr = .ok t) : t.memOk := by
  unfold State.spawn at e
  split at e
  · cases e
  split at e
  · cases e
  dsimp only at e
  split at e
  · cases e
  grind [State.memOk, enqueueRecord_memOk, setGroup_mem]

theorem spawnLane_memOk {s : State} (h : s.memOk) (f : RForm) (gid l : Nat) (t : Thread) :
    (spawnLane f gid s l t).memOk := by
  unfold spawnLane
  grind [LaneOut.memOk, lane_memOk, spawn_memOk]

theorem drainFirst_memOk {s : State} (h : s.memOk) (sh : Shape) (gid fid : Nat) :
    (drainFirst sh s gid fid).2.memOk := by
  unfold drainFirst
  grind [drainGroup_memOk]

theorem execSpawn_keeps (f : RForm) : KeepsMem (execSpawn f) :=
  issueAfter_keeps (fun _ _ h => drainFirst_memOk h ..)
    (seqFragment_keeps _ (by intro s gid l t h; exact spawnLane_memOk h ..))

theorem uniWaits_memOk {s : State} (h : s.memOk) (pred : BitVec 4) (gid fid : Nat) :
    (uniWaits pred s gid fid).2.memOk := by
  unfold uniWaits
  grind [drainGroup_memOk]

theorem execUspawn_keeps (f : RForm) : KeepsMem (execUspawn f) := by
  refine issueAfter_keeps (fun _ _ h => uniWaits_memOk h ..) (uniFragment_keeps _ _ _ ?_)
  intro s gid g ls h
  grind [UniOut.memOk, uniStop_memOk, spawn_memOk]

theorem execGridwait_keeps (f : RForm) : KeepsMem (execGridwait f) := by
  refine uniInstr_keeps _ _ _ ?_
  intro s gid g ls h
  grind [UniOut.memOk, State.memOk, setGroup_mem]

/-! ## Claims and eviction -/

theorem recallGivers_memOk {s : State} (h : s.memOk) (gid : Nat) : (s.recallGivers gid).memOk := by
  unfold State.recallGivers
  grind [State.memOk, foldl_memOk, setThread_memOk]

theorem evictGroup_memOk {s : State} (h : s.memOk) (gid : Nat) : (s.evictGroup gid).memOk := by
  unfold State.evictGroup
  grind [State.memOk, recallGivers_memOk, setCore_mem, setGroup_mem]

theorem makeRoom_memOk {s : State} (h : s.memOk) (c : Nat) (fits : State → Bool) : (s.makeRoom c fits).2.memOk := by
  unfold State.makeRoom
  grind [foldl_memOk, evictGroup_memOk, drainGroup_memOk]

theorem placeGang_memOk {rid : Nat} {r : Launch} {hd : KHdr} {gang : Nat} {cs : List (Nat × List Nat)} :
    ∀ {s t : State}, s.memOk → State.placeGang s rid r hd gang cs = some t → t.memOk := by
  induction cs with
  | nil => intro s t h e; cases e; exact h
  | cons x xs ih => intro s t h e; unfold State.placeGang at e; grind [placeBlock_memOk]

theorem takeGang_memOk {s t : State} {rid : Nat} {cores : List Nat} (h : s.memOk) (e : s.takeGang rid cores = some t) :
    t.memOk := by
  have hp : ∀ {r : Launch} {hd : KHdr} {gang : Nat} {f : Launch → Launch},
      (s.placeGang rid r hd gang (gangCores r cores)).map (fun s => s.setLaunch rid f) = some t → t.memOk := by
    intro r hd gang f e
    obtain ⟨u, hu, rfl⟩ := Option.map_eq_some_iff.mp e
    exact memOk_of_mem (setLaunch_mem _ _ _) (placeGang_memOk h hu)
  unfold State.takeGang at e
  split at e
  · cases e
  split at e
  · cases e
  · exact hp e
  split at e
  · cases e
  · exact hp e

theorem takeGangs_memOk (rid : Nat) (cores : List Nat) (n : Nat) :
    ∀ {s : State}, s.memOk → (s.takeGangs rid cores n).memOk := by
  induction n with
  | zero => exact id
  | succ n ih => intro s h; unfold State.takeGangs; grind [takeGang_memOk]

theorem grant_memOk {s : State} (h : s.memOk) (c : Nat) (cands : List (Nat × Launch)) (rid : Nat) (r : Launch)
    (cores : List Nat) : (s.grant c cands rid r cores).memOk := by
  unfold State.grant
  grind [State.memOk, foldl_memOk, leaveQueue_memOk, putStatus_memOk, setLaunch_mem, takeGangs_memOk]

theorem placeMigrant_memOk {s : State} (h : s.memOk) (p c gid : Nat) (x : Slot) : (s.placeMigrant p c gid x).memOk :=
  memOk_of_mem (setGroup_mem _ _ _) (dropFills_memOk h ..)

theorem offerMigrants_memOk {s : State} (h : s.memOk) (p core : Nat) (evict : Bool) (ms : List (Nat × Group)) :
    (s.offerMigrants p core evict ms).memOk := by
  unfold State.offerMigrants
  grind [makeRoom_memOk, placeMigrant_memOk]

theorem execClaim_keeps (core : Nat) (evict : Bool) : KeepsMem (execClaim core evict) := by
  intro s t h e
  unfold execClaim at e
  split at e
  · cases e; exact h
  split at e
  · cases e; exact h
  split at e
  · cases e; exact offerMigrants_memOk h ..
  dsimp only at e
  split at e
  · cases e; grind [foldl_memOk, makeRoom_memOk]
  split at e
  · cases e; grind [foldl_memOk, makeRoom_memOk]
  · cases e
    apply grant_memOk
    grind [foldl_memOk, makeRoom_memOk]

theorem rebin_memOk {s : State} (h : s.memOk) (gid c : Nat) (b : Bin) : (s.rebin gid c b).memOk := by
  unfold State.rebin
  grind [State.memOk, foldl_memOk, setCore_mem, setThread_memOk]

theorem restoreOn_memOk {s : State} (h : s.memOk) (gid c : Nat) (x : Slot) : (s.restoreOn gid c x).memOk := by
  unfold State.restoreOn
  grind [State.memOk, foldl_memOk, dropFills_memOk, rebin_memOk, setGroup_mem]

theorem restoreAll_memOk {gids : List Nat} : ∀ {s t : State}, s.memOk → State.restoreAll s gids = some t → t.memOk := by
  induction gids with
  | nil => intro s t h e; cases e; exact h
  | cons x xs ih => intro s t h e; unfold State.restoreAll at e; grind [restoreOn_memOk]

theorem moveShares_memOk {s : State} (h : s.memOk) (bid src dst : Nat) : (s.moveShares bid src dst).memOk := by
  unfold State.moveShares
  grind [State.memOk, setCore_mem]

theorem moveGang_memOk {s t : State} {bids : List Nat} {p first : Nat} (h : s.memOk)
    (e : s.moveGang bids p first = some t) : t.memOk := by
  unfold State.moveGang at e
  grind [State.memOk, foldl_memOk, dropFills_memOk, l1Shrink_memOk, moveShares_memOk, restoreAll_memOk, setBlock_mem]

theorem execGroupRestore_keeps (gid core : Nat) : KeepsMem (execGroupRestore gid core) := by
  intro s t h e
  unfold execGroupRestore at e
  grind [moveGang_memOk, restoreOn_memOk]

theorem refuseHandler_memOk {s : State} (h : s.memOk) (part : Nat) : (s.refuseHandler part).memOk := by
  unfold State.refuseHandler
  grind [State.memOk, foldl_memOk, gangKill_memOk, logError_memOk, setPart_mem]

theorem execHandlerWaveForm_keeps (stack part : Nat) (aged : Bool) :
    KeepsMem (execHandlerWaveForm stack part aged) := by
  intro s t h e
  unfold execHandlerWaveForm at e
  grind [State.memOk, dropFills_memOk, makeRoom_memOk, refuseHandler_memOk, setPart_mem]

/-! ## Migration and the equivalence point -/

theorem eqptWaits_memOk {s : State} (h : s.memOk) (gid fid : Nat) : (eqptWaits s gid fid).2.memOk := by
  unfold eqptWaits
  grind [drainGroup_memOk]

theorem eqptPolicy_memOk {s : State} (h : s.memOk) (gid fid : Nat) : (eqptPolicy s gid fid).2.memOk := by
  unfold eqptPolicy
  grind [State.memOk, pick_memOk, setGroup_mem]

theorem eqptFragment_keeps (f : I16Form) : FragKeeps (eqptFragment f) := by
  refine groupFragment_keeps _ ?_
  intro s gid fid g ls h
  dsimp only
  split
  · exact h
  grind [UniOut.memOk, State.memOk, setCore_mem, setGroup_mem]

theorem execEqpt_keeps (f : I16Form) : KeepsMem (execEqpt f) :=
  issueAfter_keeps (fun _ _ h => eqptWaits_memOk (eqptPolicy_memOk h ..) ..) (eqptFragment_keeps f)

theorem execMigrate_keeps (f : RForm) : KeepsMem (execMigrate f) := by
  refine issue_keeps (groupFragment_keeps _ ?_)
  intro s gid fid g ls h
  grind [UniOut.memOk, State.memOk, setGroup_mem]

/-! ## Bundles, bins and queues of a core -/

theorem wakeGroup_memOk {s : State} (h : s.memOk) (gid : Nat) : (s.wakeGroup gid).memOk := by
  unfold State.wakeGroup
  grind [State.memOk, setGroup_mem]

theorem wakeCore_memOk {s : State} (h : s.memOk) (c : Nat) : (s.wakeCore c).memOk := by
  unfold State.wakeCore
  grind [foldl_memOk, wakeGroup_memOk]

theorem formBundles_memOk {s : State} (h : s.memOk) (c : Nat) : (s.formBundles c).memOk := by
  unfold State.formBundles
  grind [State.memOk, markCore_memOk, setCore_mem, wakeCore_memOk]

theorem execBundleFormation_keeps (core : Nat) : KeepsMem (execBundleFormation core) := by
  intro s t h e
  unfold execBundleFormation at e
  grind [formBundles_memOk]

theorem drawBundle_memOk {s : State} (h : s.memOk) (c : Nat) (xs : List (Nat × Nat)) : (s.drawBundle c xs).memOk := by
  unfold State.drawBundle
  grind [State.memOk, foldl_memOk, setCore_mem, setGroup_mem]

theorem execBinHoist_keeps (core bin : Nat) (aged : Bool) : KeepsMem (execBinHoist core bin aged) := by
  intro s t h e
  unfold execBinHoist at e
  grind [State.memOk, drawBundle_memOk, setCore_mem]

theorem execCalleeQueueDrain_keeps (core queue : Nat) (aged : Bool) :
    KeepsMem (execCalleeQueueDrain core queue aged) := by
  intro s t h e
  unfold execCalleeQueueDrain at e
  grind [State.memOk, drawBundle_memOk, setCore_mem]

theorem execReorderSort_keeps (core bin : Nat) (aged : Bool) : KeepsMem (execReorderSort core bin aged) := by
  intro s t h e
  unfold execReorderSort at e
  grind [State.memOk, foldl_memOk, setCore_mem, setGroup_mem, setThread_memOk]

/-! ## Tiles and slices -/

theorem putTile_memOk {s : State} (h : s.memOk) (g : Group) (n : Nat) (t : Tile) : (s.putTile g n t).memOk :=
  setTile_memOk h ..

theorem tileRead_memOk {s : State} (h : s.memOk) (bid idx tile : Nat) : (s.tileRead bid idx tile).memOk :=
  closeEvery_memOk h ..

theorem multiply_memOk {s : State} (h : s.memOk) (gid : Nat) (g : Group) (f : RForm) (op : MatOp) (p : Product) :
    (s.multiply gid g f op p).memOk := by
  unfold State.multiply
  grind [State.memOk, foldl_memOk, fresh_memOk, openLate_memOk, putTile_memOk, readSpad_memOk, setGroup_mem,
    tileRead_memOk]

theorem matFragment_keeps (f : RForm) (op : MatOp) : FragKeeps (matFragment f op) := by
  intro s t gid fid h e
  unfold matFragment at e
  split at e
  · cases e; exact h
  dsimp only at e
  split at e
  · cases e; exact raiseAll_memOk h _ _ _ _
  split at e
  · cases e
  have hv := views_memOk h ‹Group› (Group.fragLanes ‹Group› fid)
  split at e
  · cases e
  · cases e
  · next es u d hes hu =>
    cases e
    refine retire_memOk (memOk_of_mem (setGroup_mem _ _ _) ?_) _ _ _ _
    split at hu
    · cases hu; exact hv
    split at hu
    · grind [multiply_memOk, residueCheck_memOk]
    · obtain ⟨_, -, hd⟩ := Option.map_eq_some_iff.mp hu
      cases hd; exact hv

theorem execMma_keeps (f : RForm) : KeepsMem (execMma f) := issue_keeps (matFragment_keeps f .plain)

theorem execMmaq_keeps (f : RForm) : KeepsMem (execMmaq f) := issue_keeps (matFragment_keeps f .plain)

theorem execMmao_keeps (f : RForm) : KeepsMem (execMmao f) := issue_keeps (matFragment_keeps f .outlier)

theorem execMmas_keeps (f : RForm) : KeepsMem (execMmas f) := issue_keeps (matFragment_keeps f .scaled)

theorem execBshare_keeps (f : RForm) : KeepsMem (execBshare f) := by
  refine issue_keeps ?_
  intro s t gid fid h e
  dsimp only at e
  split at e
  · cases e; exact h
  · refine groupFragment_keeps _ ?_ h e
    intro s gid fid g ls h
    grind [UniOut.memOk, State.memOk, foldl_memOk, openLate_memOk, setCore_mem]

theorem tslrLane_memOk {s : State} (h : s.memOk) (f : RForm) (gid l : Nat) (t : Thread) :
    (tslrLane f gid s l t).memOk := by
  unfold tslrLane
  grind [LaneOut.memOk, lane_memOk, loadNow_memOk, setThread_memOk, tileRead_memOk]

theorem sliceRead_memOk {s : State} (h : s.memOk) (bid idx tile : Nat) (cells : List (Nat × Nat)) :
    (s.sliceRead bid idx tile cells).memOk :=
  closeEvery_memOk h ..

theorem tslwLane_memOk {s : State} (h : s.memOk) (f : RForm) (gid l : Nat) (t : Thread) :
    (tslwLane f gid s l t).memOk := by
  unfold tslwLane
  split
  · trivial
  split
  · exact lane_memOk _
  split
  · exact lane_memOk _
  grind [LaneOut.memOk, lane_memOk, openLate_memOk, putTile_memOk, sliceRead_memOk]

theorem laneFailed_memOk {out : LaneOut} (h : out.memOk) : out.failed.memOk := by
  unfold LaneOut.failed
  split
  · trivial
  · exact h

theorem sliceInstr_keeps (f : RForm) {fn : Nat → State → Nat → Thread → LaneOut} (hf : LaneKeeps fn) :
    KeepsMem (sliceInstr f fn) := by
  refine issue_keeps ?_
  have hb : ∀ b : Bool, LaneKeeps (if b then fn else fun gid s l t => (fn gid s l t).failed) := by
    intro b
    cases b
    · exact fun _ _ _ h => laneFailed_memOk (hf _ _ _ h)
    · exact hf
  intro s t gid fid h e
  dsimp only at e
  split at e
  · cases e; exact h
  · refine seqFragment_keeps _ (hb _) ?_ e
    grind [residueCheck_memOk]

theorem execTslr_keeps (f : RForm) : KeepsMem (execTslr f) :=
  sliceInstr_keeps f (by intro s gid l t h; exact tslrLane_memOk h ..)

theorem execTslw_keeps (f : RForm) : KeepsMem (execTslw f) :=
  sliceInstr_keeps f (by intro s gid l t h; exact tslwLane_memOk h ..)

theorem tilesRead_memOk {s : State} (h : s.memOk) (g : Group) (names : List Nat) : (s.tilesRead g names).memOk := by
  unfold State.tilesRead
  grind [foldl_memOk, tileRead_memOk]

theorem tileInstr_keeps (pred : BitVec 4) (names : List Nat) {fn : State → Nat → Group → List Nat → UniOut} (hf : UniKeeps fn) :
    KeepsMem (tileInstr pred names fn) := by
  refine uniInstr_keeps _ _ _ ?_
  intro s gid g ls h
  have hf' : ∀ {s : State}, s.memOk → (fn s gid g ls).memOk := hf gid g ls
  grind [UniOut.memOk, residueCheck_memOk, tilesRead_memOk]

theorem tilePlaces_memOk {s : State} (h : s.memOk) (g : Group) (a : AddrReg) (acc : Access) (ea : DWord) (n : Nat) :
    (s.tilePlaces g a acc ea n).2.memOk := by
  unfold State.tilePlaces
  grind [rowSegs_memOk]

theorem execTld_keeps (f : MForm) : KeepsMem (execTld f) := by
  intro s t h e
  unfold execTld at e
  refine tileInstr_keeps _ _ ?_ h e
  intro s gid g ls h
  have ht := fun a ea => tilePlaces_memOk h g a .read ea (4096 * 2 ^ f.size.toNat)
  grind [UniOut.memOk, foldl_memOk, uniStop_memOk, loadNow_memOk, startPieces_memOk, readSpad_memOk]

theorem tstRoster_memOk {s t : State} {g : Group} {a : AddrReg} (h : s.memOk) (e : s.tstRoster g a = some t) :
    t.memOk := by
  unfold State.tstRoster at e
  grind [rosterObject_memOk]

theorem enterSectors_memOk (tag : StoreTag) (space : Nat) (bs : List Byte) (ps : List (Place × Nat × Nat × Nat)) :
    ∀ {s : State} (next : Nat), s.memOk → (State.enterSectors s tag space bs next ps).2.memOk := by
  induction ps with
  | nil => exact fun _ h => h
  | cons p ps ih =>
    intro s next h
    unfold State.enterSectors
    dsimp only
    have hr : ∀ pa, ((s.rosterStore tag.core tag.obj pa).getD s).memOk := by
      intro pa
      cases hu : s.rosterStore tag.core tag.obj pa with
      | none => exact h
      | some u => exact rosterStore_memOk h hu
    have hs : (match p.1 with
      | .mem pa => if space = 0 then (s.rosterStore tag.core tag.obj pa).getD s else s
      | .spad _ _ _ => s).memOk := by
      grind
    split
    · exact hs
    · exact ih _ (enterPieces_memOk (newStore_memOk hs) ‹_›)

theorem tstWaits_memOk {s : State} (h : s.memOk) (f : MForm) (gid fid : Nat) : (tstWaits f s gid fid).2.memOk := by
  unfold tstWaits
  grind [State.memOk, enterSectors_memOk, setGroup_mem]

theorem execTst_keeps (f : MForm) : KeepsMem (execTst f) := by
  refine issueAfter_keeps ?_ ?_
  · intro s gid fid h
    refine tstWaits_memOk ?_ _ _ _
    dsimp only
    split
    · exact h
    next g _ =>
    split
    · exact h
    split
    next a ea _ _ =>
      split
      · exact h
      have ht := tilePlaces_memOk h g a .write ea (4096 * 2 ^ f.size.toNat)
      grind [State.memOk, tstRoster_memOk, residueCheck_memOk, tilesRead_memOk, setGroup_mem]
    · exact h
  · intro s t gid fid h e
    refine uniFragment_keeps _ _ _ ?_ h e
    intro s gid g ls h
    have ht := fun a ea => tilePlaces_memOk h g a .write ea (4096 * 2 ^ f.size.toNat)
    grind [UniOut.memOk, State.memOk, foldl_memOk, uniStop_memOk, residueCheck_memOk, disown_memOk, placeWrite_memOk,
      tilesRead_memOk, setGroup_mem]

theorem execTzero_keeps (f : RForm) : KeepsMem (execTzero f) := by
  refine tileInstr_keeps _ _ ?_
  intro s gid g ls h
  grind [UniOut.memOk, putTile_memOk]

theorem execTmov_keeps (f : RForm) : KeepsMem (execTmov f) := by
  refine tileInstr_keeps _ _ ?_
  intro s gid g ls h
  grind [UniOut.memOk, putTile_memOk]

theorem tileDraws_memOk {s : State} (h : s.memOk) (core lanes : Nat) : (s.tileDraws core lanes).2.memOk := by
  unfold State.tileDraws
  refine foldl_snd_memOk (p := ([], s)) ?_ _ h
  exact fun p l hp => draw_memOk hp core l _

theorem execTcvt_keeps (f : RForm) : KeepsMem (execTcvt f) := by
  refine tileInstr_keeps _ _ ?_
  intro s gid g ls h
  grind [UniOut.memOk, putTile_memOk, tileDraws_memOk]

theorem setTiles_memOk {s : State} (h : s.memOk) (g : Group) (f : SMap Tile → SMap Tile) : (s.setTiles g f).memOk :=
  memOk_of_mem (setBlock_mem _ _ _) h

theorem execTalloc_keeps (f : RForm) : KeepsMem (execTalloc f) := by
  refine uniInstr_keeps _ _ _ ?_
  intro s gid g ls h
  grind [UniOut.memOk, State.memOk, setGroup_mem, setTiles_memOk, uniStop_memOk]

theorem execTfree_keeps (f : RForm) : KeepsMem (execTfree f) := by
  refine uniInstr_keeps _ _ _ ?_
  intro s gid g ls h
  grind [UniOut.memOk, setTiles_memOk, tilesRead_memOk, uniStop_memOk]

theorem execTstat_keeps (f : RForm) : KeepsMem (execTstat f) := by
  refine uniInstr_keeps _ _ _ ?_
  intro s gid g ls h
  grind [UniOut.memOk, State.memOk, setGroup_mem]

/-! ## The copy engine -/

theorem newFuture_memOk {s t : State} {r} {core : Nat} (h : s.memOk) (e : s.newFuture core = some (r, t)) :
    t.memOk := by
  unfold State.newFuture at e
  grind [State.memOk, pick_memOk, setCore_mem]

theorem resolveFuture_memOk {s : State} (h : s.memOk) (core slot gen : Nat) (res : Option Word) :
    (s.resolveFuture core slot gen res).memOk :=
  memOk_of_mem (setCore_mem _ _ _) h

theorem fcancelLane_memOk {s : State} (h : s.memOk) (f : RForm) (gid l : Nat) (t : Thread) :
    (fcancelLane f gid s l t).memOk := by
  unfold fcancelLane
  grind [LaneOut.memOk, lane_memOk, setThread_memOk]

theorem execFcancel_keeps (f : RForm) : KeepsMem (execFcancel f) :=
  seqInstr_keeps _ (by intro s gid l t h; exact fcancelLane_memOk h ..)

theorem fpassLane_memOk {s : State} (h : s.memOk) (f : RForm) (gid l : Nat) (t : Thread) :
    (fpassLane f gid s l t).memOk := by
  unfold fpassLane
  grind [LaneOut.memOk, lane_memOk, setThread_memOk]

theorem execFpass_keeps (f : RForm) : KeepsMem (execFpass f) :=
  seqInstr_keeps _ (by intro s gid l t h; exact fpassLane_memOk h ..)

theorem clearLines_memOk {s : State} (h : s.memOk) (id : Nat) (c : Copy) (r : Receiver) : (s.clearLines id c r).memOk :=
  setSpad_memOk h ..

theorem acceptCopy_memOk {s : State} (h : s.memOk) (gid : Nat) (g : Group) (l reg : Nat) (c : Copy) {late : Nat → State → State}
    (hl : ∀ {s : State} (n : Nat), s.memOk → (late n s).memOk) : (s.acceptCopy gid g l reg c late).memOk := by
  unfold State.acceptCopy
  grind [LaneOut.memOk, State.memOk, foldl_memOk, newFuture_memOk, setThread_memOk, resolveFuture_memOk, fresh_memOk,
    clearLines_memOk]

theorem copyLane_memOk {s : State} (h : s.memOk) (f : RForm) (k : CopyKind) (gid l : Nat) (t : Thread) :
    (copyLane f k gid s l t).memOk := by
  unfold copyLane
  split
  · trivial
  dsimp only
  split
  · exact lane_memOk _
  split
  · exact lane_memOk _
  · exact lane_memOk _
  · exact lane_memOk _
  · exact lane_memOk _
  split
  · trivial
  split
  · trivial
  · exact acceptCopy_memOk h _ _ _ _ _ fun n h => openLate_memOk h _ _ _ _ _ _ _

theorem copyInstr_keeps (k : CopyKind) (f : RForm) : KeepsMem (copyInstr k f) :=
  issueAfter_keeps (fun _ _ h => drainFirst_memOk h _ _ _) (seqFragment_keeps _ fun _ _ _ h => copyLane_memOk h _ _ _ _
    _)

theorem engineAccess_memOk {s : State} (h : s.memOk) (c : Copy) (space : Nat) (obj : Word) (va : DWord) (n : Nat)
    (write : Bool) : (s.engineAccess c space obj va n write).2.memOk := by
  unfold State.engineAccess
  grind [translate_memOk]

theorem destLines_memOk (c : Copy) (ls : List Nat) : ∀ {s : State}, s.memOk → (s.destLines c ls).2.memOk := by
  induction ls with
  | nil => exact id
  | cons l ls ih => intro s h; unfold State.destLines; grind [engineAccess_memOk]

theorem giveLines_memOk {s : State} (h : s.memOk) (id : Nat) (ls : List Nat) : (s.giveLines id ls).memOk := by
  unfold State.giveLines
  grind [State.memOk, foldl_memOk, setSlice_mem]

theorem acquirePlain_memOk {s : State} (h : s.memOk) (id : Nat) (ls : List Nat) : (s.acquirePlain id ls).memOk := by
  unfold State.acquirePlain
  grind [State.memOk, giveLines_memOk, setCopy_mem]

theorem execCopyOwnershipAcquire_keeps (copy : Nat) : KeepsMem (execCopyOwnershipAcquire copy) := by
  intro s t h e
  unfold execCopyOwnershipAcquire at e
  grind [State.memOk, acquirePlain_memOk, destLines_memOk, giveLines_memOk, setCopy_mem, setObject_memOk]

theorem execPresenceClearArrival_keeps (copy recv : Nat) : KeepsMem (execPresenceClearArrival copy recv) := by
  intro s t h e
  unfold execPresenceClearArrival at e
  grind [State.memOk, clearLines_memOk, setCopy_mem]

theorem engineRead_memOk {s : State} (h : s.memOk) (id : Nat) : (s.engineRead id).memOk := by
  unfold State.engineRead
  grind [State.memOk, engineAccess_memOk, findAll_memOk, readSpad_memOk, setCopy_mem]

theorem engineReadTo_memOk (id until_ n : Nat) : ∀ {s : State}, s.memOk → (s.engineReadTo id until_ n).memOk := by
  induction n with
  | zero => exact fun h => h
  | succ n ih => intro s h; unfold State.engineReadTo; grind [engineRead_memOk]

theorem showLines_memOk {s : State} (h : s.memOk) (id : Nat) (c : Copy) (r : Receiver) (done : Nat) :
    (s.showLines id c r done).memOk :=
  setSpad_memOk h ..

theorem countBytes_memOk {s : State} (h : s.memOk) (id : Nat) (c : Copy) (r : Receiver) (n : Nat) (bits : BitVec 6) :
    (s.countBytes id c r n bits).memOk := by
  unfold State.countBytes
  grind [State.memOk, barrierBytes_memOk, setCopy_mem]

theorem setDone_memOk {s : State} (h : s.memOk) (id recv done : Nat) : (s.setDone id recv done).memOk :=
  memOk_of_mem (setCopy_mem _ _ _) h

theorem landRest_memOk {s : State} (h : s.memOk) (id recv : Nat) (c : Copy) (r : Receiver) :
    (s.landRest id recv c r).memOk := by
  unfold State.landRest
  grind [State.memOk, countBytes_memOk, setCopy_mem, setDone_memOk, showLines_memOk]

theorem landBytes_memOk {s : State} (h : s.memOk) (p : Place) (bs : List Byte) (bad : Bool) :
    (s.landBytes p bs bad).memOk := by
  unfold State.landBytes
  grind [State.memOk, disown_memOk, placeWrite_memOk, setSpad_memOk]

theorem landAt_memOk {s : State} (h : s.memOk) (id recv : Nat) (c : Copy) (r : Receiver) (p : Place) (n : Nat) :
    (s.landAt id recv c r p n).memOk := by
  unfold State.landAt
  grind [State.memOk, countBytes_memOk, landBytes_memOk, logError_memOk, setCopy_mem, setDone_memOk, showLines_memOk]

theorem landSector_memOk {s : State} (h : s.memOk) (id recv : Nat) : (s.landSector id recv).memOk := by
  unfold State.landSector
  grind [State.memOk, engineAccess_memOk, engineReadTo_memOk, giveLines_memOk, landAt_memOk, landRest_memOk,
    setCopy_mem]

theorem execCopySectorLand_keeps (copy recv : Nat) (ahead : Bool) : KeepsMem (execCopySectorLand copy recv ahead) := by
  intro s t h e
  unfold execCopySectorLand at e
  grind [engineRead_memOk, landSector_memOk]

theorem release_memOk {s : State} (h : s.memOk) (id : Nat) (c : Copy) : (s.release id c).memOk := by
  unfold State.release
  grind [State.memOk, setObject_memOk]

theorem execCopyResolve_keeps (copy : Nat) : KeepsMem (execCopyResolve copy) := by
  intro s t h e
  unfold execCopyResolve at e
  grind [State.memOk, foldl_memOk, reapBlock_memOk, release_memOk, resolveFuture_memOk]

/-! ## Inspects -/

theorem aim_memOk {s : State} (h : s.memOk) (gid : Nat) (g : Group) (a : Ask) : (s.aim gid g a).2.memOk := by
  unfold State.aim
  grind [checkGlobal_memOk]

theorem newInspect_memOk {s : State} (h : s.memOk) (core : Option Nat) (gid part : Nat) (a : Ask) (w : Aim) :
    (s.newInspect core gid part a w).2.memOk :=
  fresh_memOk h ..

theorem routeInspect_memOk {s : State} (h : s.memOk) (id core : Nat) (gid part : Nat) :
    (s.routeInspect id core gid part).memOk := by
  unfold State.routeInspect
  grind [State.memOk, pick_memOk, post_memOk, setInspect_mem]

theorem takeInspect_memOk {s t : State} {id : Nat} {x : Inspect} (h : s.memOk) (e : s.takeInspect id x = some t) :
    t.memOk := by
  unfold State.takeInspect at e
  split at e
  · cases e; exact h
  · obtain ⟨⟨r, u⟩, hu, rfl⟩ := Option.map_eq_some_iff.mp e
    exact memOk_of_mem (setInspect_mem _ _ _) (take_memOk h hu)

theorem sendAsk_memOk {s : State} (h : s.memOk) (issueNo gid : Nat) (g : Group) (a : Ask) (w : Aim) :
    (s.sendAsk issueNo gid g a w).2.memOk := by
  unfold State.sendAsk
  grind [State.memOk, newInspect_memOk, routeInspect_memOk, setCore_mem]

theorem inspectLane_memOk {s : State} (h : s.memOk) (f : RForm) (handle : Bool) (issueNo gid l : Nat) (t : Thread) :
    (inspectLane f handle issueNo gid s l t).memOk := by
  unfold inspectLane
  split
  · trivial
  split
  · exact lane_memOk _
  grind [State.memOk, LaneOut.memOk, aim_memOk, newFuture_memOk, openPend_memOk, sendAsk_memOk, setInspect_mem,
    setThread_memOk]

theorem execInspect_keeps (f : RForm) : KeepsMem (execInspect f) := by
  intro s t h e
  exact seqInstr_keeps _ (by intro s gid l t h; exact inspectLane_memOk h ..) (newStore_memOk h) e

theorem execInspectf_keeps (f : RForm) : KeepsMem (execInspectf f) := by
  intro s t h e
  exact seqInstr_keeps _ (by intro s gid l t h; exact inspectLane_memOk h ..) (newStore_memOk h) e

theorem execInspectSnapshot_keeps (insp : Nat) : KeepsMem (execInspectSnapshot insp) := by
  intro s t h e
  unfold execInspectSnapshot at e
  split at e
  · cases e; exact h
  split at e
  · cases e; exact h
  split at e
  · cases e; exact h
  split at e
  · cases e; exact h
  · next hu => cases e; exact memOk_of_mem (setInspect_mem _ _ _) (takeInspect_memOk h hu)

theorem pushEntry_memOk {s : State} (h : s.memOk) (core : Nat) (x : Store) (after : List Store) :
    (s.pushEntry core x after).memOk := by
  unfold State.pushEntry
  grind [State.memOk, l1Put_memOk, readOwners_memOk, setCore_mem]

theorem pushFrom_memOk (core : Nat) (sel : Store → Bool) (es : List Store) :
    ∀ {s : State}, s.memOk → (State.pushFrom core sel es s).memOk := by
  induction es with
  | nil => exact id
  | cons e es ih => intro s h; unfold State.pushFrom; grind [pushEntry_memOk]

theorem push_memOk {s : State} (h : s.memOk) (x : Inspect) (core : Nat) : (s.push x core).2.memOk := by
  unfold State.push
  grind [State.memOk, pushFrom_memOk, setCore_mem, startDrain_memOk]

theorem execInspectArrival_keeps (insp core : Nat) : KeepsMem (execInspectArrival insp core) := by
  intro s t h e
  unfold execInspectArrival at e
  grind [State.memOk, ackInspects_memOk, push_memOk, setCore_mem, setInspect_mem, takeInspect_memOk]

theorem endInspect_memOk {s : State} (h : s.memOk) (id : Nat) (x : Inspect) (res : Option Word) (cause : Nat := 12) :
    (s.endInspect id x res cause).memOk := by
  unfold State.endInspect
  grind [State.memOk, foldl_memOk, resolveFuture_memOk, setPend_mem, settlePend_memOk]

theorem advance_memOk {s : State} (h : s.memOk) (x : Inspect) : (s.advance x).2.memOk := by
  unfold State.advance
  grind [setObject_memOk]

theorem peerRefuses_memOk {s : State} (h : s.memOk) : s.peerRefuses.2.memOk := by
  unfold State.peerRefuses
  grind [pick_memOk]

theorem execInspectComplete_keeps (insp : Nat) : KeepsMem (execInspectComplete insp) := by
  intro s t h e
  unfold execInspectComplete at e
  grind [State.memOk, foldl_memOk, ackInspects_memOk, advance_memOk, dropFills_memOk, endInspect_memOk,
    peerRefuses_memOk]

theorem execIstat_keeps (f : RForm) : KeepsMem (execIstat f) := by
  refine uniInstr_keeps _ _ _ ?_
  intro s gid g ls h
  grind [UniOut.memOk, State.memOk, setCore_mem, setGroup_mem, uniStop_memOk]

/-! ## Memory objects -/

theorem answerQ_memOk {s : State} (h : s.memOk) (gid : Nat) (b : Bool) : (s.answerQ gid b).memOk :=
  memOk_of_mem (setGroup_mem _ _ _) h

theorem declare_memOk {s : State} (h : s.memOk) (part slice : Nat) (r : ShapeRecord) :
    (s.declare part slice r).2.memOk := by
  unfold State.declare
  grind [State.memOk, pick_memOk, setSlice_mem]

theorem odeclResult_memOk {s : State} (h : s.memOk) (gid d : Nat) (id : Word) (code : Nat) :
    (s.odeclResult gid d id code).memOk :=
  answerQ_memOk (memOk_of_mem (setGroup_mem _ _ _) h) ..

theorem execOdecl_keeps (f : MForm) : KeepsMem (execOdecl f) := by
  refine uniInstr_keeps _ _ _ ?_
  intro s gid g ls h
  dsimp only
  split
  · exact uniStop_memOk h _
  next a ea _ =>
  split
  · trivial
  have hc := checkAccess_memOk h g a .read ea 64 64
  split
  · grind [UniOut.memOk]
  next pa u hu =>
  rw [hu] at hc
  split
  · trivial
  · next hr => exact readNow_memOk hc hr
  next bs v hr =>
  have hv := readNow_memOk hc hr
  have hg := checkGlobal_memOk hv g {} .read (BitVec.ofNat 64 (ShapeRecord.ofBytes bs).base) 1
  grind [UniOut.memOk, odeclResult_memOk, declare_memOk]

theorem forgetObject_memOk {s : State} (h : s.memOk) (part : Nat) (o : ObjEntry) : (s.forgetObject part o).memOk := by
  unfold State.forgetObject
  grind [foldl_memOk, dropFills_memOk]

theorem closeObject_memOk {s : State} (h : s.memOk) (gid : Nat) (o : ObjEntry) : (s.closeObject gid o).2.memOk := by
  unfold State.closeObject
  grind [foldl_memOk, setObject_memOk, startDrain_memOk]

theorem closeWaits_memOk {s : State} (h : s.memOk) (f : RForm) (sealing : Bool) (gid fid : Nat) :
    (closeWaits f sealing s gid fid).2.memOk := by
  unfold closeWaits
  grind [closeObject_memOk]

theorem setLookups_memOk {s : State} (h : s.memOk) (id : Word) (f : Lookup → Option Lookup) :
    (s.setLookups id f).memOk := h

theorem objectInstr_keeps (f : RForm) {w : Waits} (hw : WaitsKeep w) (opens : Bool)
    {fn : State → Nat → Group → Word → State}
    (hf : ∀ {s : State} (gid : Nat) (g : Group) (id : Word), s.memOk → (fn s gid g id).memOk) :
    KeepsMem (objectInstr f w opens fn) := by
  refine issueAfter_keeps hw (uniFragment_keeps _ _ _ ?_)
  intro s gid g ls h
  dsimp only
  split
  · exact uniStop_memOk h _
  · exact hf _ _ _ h

theorem execSeal_keeps (f : RForm) : KeepsMem (execSeal f) := by
  refine objectInstr_keeps f (fun _ _ h => closeWaits_memOk h ..) _ ?_
  intro s gid g id h
  grind [answerQ_memOk, setLookups_memOk, setObject_memOk, forgetObject_memOk]

theorem execUnseal_keeps (f : RForm) : KeepsMem (execUnseal f) := by
  refine objectInstr_keeps f (fun _ _ h => h) _ ?_
  intro s gid g id h
  grind [answerQ_memOk, setLookups_memOk, setObject_memOk, forgetObject_memOk]

theorem execOfree_keeps (f : RForm) : KeepsMem (execOfree f) := by
  refine objectInstr_keeps f (fun _ _ h => closeWaits_memOk h ..) _ ?_
  intro s gid g id h
  grind [State.memOk, answerQ_memOk, setLookups_memOk, forgetObject_memOk, setSlice_mem]

theorem execOquery_keeps (f : RForm) : KeepsMem (execOquery f) := by
  refine objectInstr_keeps f (fun _ _ h => h) _ ?_
  intro s gid g id h
  exact answerQ_memOk (memOk_of_mem (setGroup_mem _ _ _) h) _ _

theorem rangeSegs_memOk (g : Group) (a : AddrReg) (acc : Access) (fuel : Nat) :
    ∀ {s : State} (ea n : Nat), s.memOk → (s.rangeSegs g a acc fuel ea n).2.memOk := by
  induction fuel with
  | zero => exact fun _ _ h => h
  | succ k ih => intro s ea n h; unfold State.rangeSegs; grind [checkPage_memOk]

theorem pinInstr_keeps (f : RForm) {fn : State → Nat → Nat → List Nat → State}
    (hf : ∀ {s : State} (gid part : Nat) (ls : List Nat), s.memOk → (fn s gid part ls).memOk) : KeepsMem (pinInstr f fn) := by
  refine uniInstr_keeps _ _ _ ?_
  intro s gid g ls h
  dsimp only
  split
  · exact uniStop_memOk h _
  · exact uniStop_memOk h _
  grind [UniOut.memOk, answerQ_memOk, rangeSegs_memOk]

theorem execPin_keeps (f : RForm) : KeepsMem (execPin f) := by
  refine pinInstr_keeps _ ?_
  intro s gid part ls h
  grind [State.memOk, foldl_memOk, answerQ_memOk, setSlice_mem]

theorem execUnpin_keeps (f : RForm) : KeepsMem (execUnpin f) := by
  refine pinInstr_keeps _ ?_
  intro s gid part ls h
  grind [State.memOk, foldl_memOk, answerQ_memOk, setSlice_mem]

theorem icacheForget_memOk {s : State} (h : s.memOk) (part base n : Nat) : (s.icacheForget part base n).memOk := by
  unfold State.icacheForget
  grind [State.memOk, foldl_memOk, setCore_mem]

theorem execIcinv_keeps (f : RForm) : KeepsMem (execIcinv f) := by
  refine uniInstr_keeps _ _ _ ?_
  intro s gid g ls h
  grind [UniOut.memOk, icacheForget_memOk, markStall_memOk, uniStop_memOk]

theorem execFbar_keeps (f : RForm) : KeepsMem (execFbar f) := by
  refine uniInstr_keeps _ _ _ ?_
  intro s gid g ls h
  grind [UniOut.memOk, State.memOk, setGroup_mem]

/-! ## System instructions -/

theorem execNop_keeps (f : RForm) : KeepsMem (execNop f) := seqInstr_keeps _ (stop_keeps _)

theorem execWait_keeps (f : I16Form) : KeepsMem (execWait f) := by
  refine seqInstr_keeps _ ?_
  intro s gid l t h
  dsimp only
  split <;> trivial

theorem execYield_keeps (f : RForm) : KeepsMem (execYield f) := by
  refine issue_keeps ?_
  intro s t gid fid h e
  obtain ⟨u, hu, rfl⟩ := Option.map_eq_some_iff.mp e
  have hm := seqFragment_keeps _ (stop_keeps _) h hu
  split
  · exact markStall_memOk hm ..
  · exact hm

theorem raiseCode_keeps (cause : Nat) (f : I16Form) : KeepsMem (raiseCode cause f) :=
  seqInstr_keeps _ (by intro s gid l t h; trivial)

theorem rteLane_memOk {s : State} (h : s.memOk) (gid l : Nat) (t : Thread) : (rteLane gid s l t).memOk := by
  unfold rteLane
  grind [LaneOut.memOk, returnTrap_memOk, setThread_memOk]

theorem execRte_keeps (f : RForm) : KeepsMem (execRte f) := by
  refine issueAfter_keeps ?_ ?_
  · intro s gid fid h
    dsimp only
    split
    · exact exitWaits_memOk h ..
    · exact h
  · intro s t gid fid h e
    dsimp only at e
    split at e
    · exact seqFragment_keeps _ (by intro s gid l t h; exact rteLane_memOk h ..) h e
    · cases e; exact raiseAll_memOk h ..

theorem privInstr_keeps (pred : BitVec 4) {fn : State → Nat → Group → List Nat → UniOut} (hf : UniKeeps fn) :
    KeepsMem (privInstr pred fn) := by
  refine uniInstr_keeps _ _ _ ?_
  intro s gid g ls h
  dsimp only
  split
  · exact hf _ _ _ h
  · trivial

theorem tlbForget_memOk {s : State} (h : s.memOk) (part : Nat) (sel : TlbEntry → Bool) :
    (s.tlbForget part sel).memOk := h

theorem execTlbinv_keeps (f : RForm) : KeepsMem (execTlbinv f) := by
  refine privInstr_keeps _ ?_
  intro s gid g ls h
  grind [UniOut.memOk, tlbForget_memOk, uniStop_memOk]

theorem imageSegs_memOk {s : State} (h : s.memOk) (g : Group) (a : AddrReg) (acc : Access) (ea : DWord) (n : Nat) :
    (s.imageSegs g a acc ea n).2.memOk := by
  unfold State.imageSegs
  grind [rangeSegs_memOk]

theorem storeImage_memOk {gid : Nat} {g : Group} {o : Order} {a : AddrReg} {bs : List Byte}
    {ps : List (Place × Nat × Nat × Nat)} :
    ∀ {s t : State}, s.memOk → s.storeImage gid g o a bs ps = .ok t → t.memOk := by
  induction ps with
  | nil => intro s t h e; cases e; exact h
  | cons x xs ih =>
    obtain ⟨p, off, i, n⟩ := x
    intro s t h e
    unfold State.storeImage at e
    split at e
    · exact ih (placeWrite_memOk (disown_memOk h _ _) _ _) e
    split at e
    · cases e
    · exact ih (doStore_memOk (newStore_memOk h) ‹_›) e

theorem readImage_memOk {gid : Nat} {g : Group} {o : Order} {ps : List (Place × Nat)} :
    ∀ {s t : State} {r : Except (Nat × DWord) (List Byte)}, s.memOk → s.readImage gid g o ps = some (r, t) → t.memOk := by
  induction ps with
  | nil => intro s t r h e; cases e; exact h
  | cons x xs ih => intro s t r h e; unfold State.readImage at e; grind [readNow_memOk]

theorem imageInstr_keeps (f : MForm) (acc : Access)
    {fn : State → Nat → Group → AddrReg → DWord → Nat × Nat × Group × Thread → Nat → List (Place × Nat) → UniOut}
    (hf : ∀ {s : State} (gid : Nat) (g : Group) (a : AddrReg) (ea : DWord) (o : Nat × Nat × Group × Thread) (part : Nat)
      (segs : List (Place × Nat)), s.memOk → (fn s gid g a ea o part segs).memOk) : KeepsMem (imageInstr f acc fn) := by
  refine privInstr_keeps _ ?_
  intro s gid g ls h
  dsimp only
  split
  · exact uniStop_memOk h _
  · exact uniStop_memOk h _
  split
  · trivial
  split
  · exact answerQ_memOk h _ _
  split
  · trivial
  grind [UniOut.memOk, imageSegs_memOk]

theorem execCsave_keeps (f : MForm) : KeepsMem (execCsave f) := by
  refine imageInstr_keeps f .write ?_
  grind [UniOut.memOk, answerQ_memOk, storeImage_memOk]

theorem loadImage_memOk {s : State} (h : s.memOk) (gid lane part : Nat) (bs : List Byte) :
    (s.loadImage gid lane part bs).memOk := by
  unfold State.loadImage
  grind [State.memOk, setGroup_mem]

theorem execCload_keeps (f : MForm) : KeepsMem (execCload f) := by
  refine imageInstr_keeps f .read ?_
  grind [UniOut.memOk, answerQ_memOk, readImage_memOk, loadImage_memOk]

theorem execHalt_keeps (f : RForm) : KeepsMem (execHalt f) := by
  refine privInstr_keeps _ ?_
  intro s gid g ls h
  grind [UniOut.memOk, State.memOk, raise_memOk, setGroup_mem, setPart_mem, uniStop_memOk]

theorem execErrlog_keeps (f : RForm) : KeepsMem (execErrlog f) := by
  refine privInstr_keeps _ ?_
  intro s gid g ls h
  grind [UniOut.memOk, State.memOk, answerQ_memOk, setGroup_mem, setPart_mem]

/-! ## Registers that the host writes -/

theorem judge_memOk {f : Field State} (hf : ∀ v s, s.memOk → (f.put v s).memOk) (quiet : Bool) (off width value : Nat)
    {j : Judged State} (h : j.block.memOk) : (f.judge quiet off width value j).block.memOk := by
  unfold Field.judge
  grind

theorem judgeWrite_memOk {fs : List (Field State)} (hf : ∀ f ∈ fs, ∀ v s, s.memOk → (f.put v s).memOk)
    (quiet : Bool) (off width value : Nat) {s : State} (h : s.memOk) : (judgeWrite fs quiet off width value s).block.memOk := by
  suffices ∀ j : Judged State, j.block.memOk →
      (fs.foldl (fun j f => f.judge quiet off width value j) j).block.memOk from this _ h
  induction fs with
  | nil => exact fun _ h => h
  | cons f fs ih =>
    intro j h
    exact ih (fun g hg => hf g (List.mem_cons_of_mem _ hg)) _ (judge_memOk (hf f List.mem_cons_self) _ _ _ _ h)

theorem deviceFields_memOk : ∀ f ∈ deviceFields, ∀ v s, s.memOk → (f.put v s).memOk := by
  intro f hf v s h
  rw [deviceFields, List.mem_cons, List.mem_singleton] at hf
  rcases hf with rfl | rfl
  · exact setWinbase_memOk h _
  · exact memOk_of_mem rfl h

theorem execLaunchQueueControlWrite_keeps (queue off width : Nat) (value : DWord) :
    KeepsMem (execLaunchQueueControlWrite queue off width value) := by
  intro s t h e
  unfold execLaunchQueueControlWrite at e
  split at e
  · refine hostWrite_memOk h ?_ e
    intro s t h e
    dsimp only at e
    split at e
    · cases e; exact memOk_of_mem ((setPart_mem _ _ _).trans (setLQueue_mem _ _ _)) h
    · cases e; exact memOk_of_mem (setLQueue_mem _ _ _) h
  · cases e; exact h

theorem countWorld_memOk {s : State} (h : s.memOk) (secure old : Bool) (bit off : Nat) (width value : Nat) :
    (s.countWorld secure old bit off width value).memOk := by
  unfold State.countWorld
  grind [countAttempt_memOk]

theorem execRegionTableWrite_keeps (index off width : Nat) (value : DWord) (secure : Bool) :
    KeepsMem (execRegionTableWrite index off width value secure) := by
  intro s t h e
  unfold execRegionTableWrite at e
  grind [State.memOk, countAttempt_memOk, countWorld_memOk, setRegion_mem]

theorem partEnabled_memOk {s : State} (h : s.memOk) (p : Nat) : (s.partEnabled p).memOk := by
  unfold State.partEnabled
  grind [State.memOk, refuseHandler_memOk, setPart_mem]

theorem qresult_memOk {s : State} (h : s.memOk) (p n : Nat) : (s.qresult p n).memOk :=
  memOk_of_mem (setPart_mem _ _ _) h

theorem createQueue_memOk {s : State} (h : s.memOk) (p : Nat) : (s.createQueue p).memOk := by
  unfold State.createQueue
  grind [State.memOk, qresult_memOk, setPart_mem, setSQueue_mem]

theorem forgetProducers_memOk {s : State} (h : s.memOk) (n : Nat) : (s.forgetProducers n).memOk := h

theorem resetQueue_memOk {s : State} (h : s.memOk) (p : Nat) : (s.resetQueue p).memOk := by
  unfold State.resetQueue
  grind [State.memOk, foldl_memOk, forgetProducers_memOk, qresult_memOk, serveGivers_memOk, setSQueue_mem]

theorem deleteQueue_memOk {s : State} (h : s.memOk) (p : Nat) : (s.deleteQueue p).memOk := by
  unfold State.deleteQueue
  grind [State.memOk, forgetProducers_memOk, qresult_memOk, setSQueue_mem]

theorem queueCommand_memOk {s : State} (h : s.memOk) (p cmd : Nat) : (s.queueCommand p cmd).memOk := by
  unfold State.queueCommand
  grind [createQueue_memOk, deleteQueue_memOk, resetQueue_memOk]

theorem execQcmdCreate_keeps (part : Nat) : KeepsMem (execQcmdCreate part) := by
  intro s t h e
  unfold execQcmdCreate hostWrite at e
  grind [queueCommand_memOk, countAttempt_memOk]

theorem execQcmdReset_keeps (part : Nat) : KeepsMem (execQcmdReset part) := by
  intro s t h e
  unfold execQcmdReset hostWrite at e
  grind [queueCommand_memOk, countAttempt_memOk]

theorem execQcmdDelete_keeps (part : Nat) : KeepsMem (execQcmdDelete part) := by
  intro s t h e
  unfold execQcmdDelete hostWrite at e
  grind [queueCommand_memOk, countAttempt_memOk]

theorem execPartitionControlWrite_keeps (part off width : Nat) (value : DWord) (secure : Bool) :
    KeepsMem (execPartitionControlWrite part off width value secure) := by
  intro s t h e
  unfold execPartitionControlWrite at e
  grind [State.memOk, countAttempt_memOk, countWorld_memOk, partEnabled_memOk, queueCommand_memOk, setPart_mem]

theorem writeNonce_memOk {s : State} (h : s.memOk) (at_x width value : Nat) :
    (s.writeNonce at_x width value).memOk := by
  unfold State.writeNonce
  grind [State.memOk]

theorem resizeBar2_memOk {s : State} (h : s.memOk) (code : Nat) : (s.resizeBar2 code).memOk := by
  unfold State.resizeBar2
  grind [State.memOk]

theorem execRegisterWrite_keeps (off width : Nat) (value : DWord) : KeepsMem (execRegisterWrite off width value) := by
  intro s t h e
  unfold execRegisterWrite at e
  dsimp only at e
  split at e
  · cases e; exact h
  split at e
  · cases e; exact resizeBar2_memOk h _
  refine hostWrite_memOk h ?_ e
  intro s t h e
  dsimp only at e
  split at e
  · cases e; exact writeNonce_memOk h ..
  split at e
  · cases e; exact judgeWrite_memOk deviceFields_memOk _ _ _ _ h
  split at e
  · cases e; exact memOk_of_mem (setLQueue_mem _ _ _) h
  split at e
  · cases e; exact memOk_of_mem (setPart_mem _ _ _) h
  split at e
  · cases e; exact memOk_of_mem (setPart_mem _ _ _) h
  · cases e; exact h

/-! ## Mailboxes, partitions and the device -/

theorem answerHost_memOk {s : State} (h : s.memOk) (bs : List Byte) : (s.answerHost bs).memOk := h

theorem hostRead_memOk {s : State} (h : s.memOk) (off width : Nat) : (s.hostRead off width).memOk := by
  unfold State.hostRead
  grind [answerHost_memOk, countAttempt_memOk]

theorem execBar0IllegalAccess_keeps (off width : Nat) (isRead : Bool) :
    KeepsMem (execBar0IllegalAccess off width isRead) := by
  intro s t h e
  unfold execBar0IllegalAccess at e
  grind [answerHost_memOk, hostRead_memOk]

theorem homeWrite_memOk {s : State} (h : s.memOk) (pa : Nat) (bs : List Byte) : (s.homeWrite pa bs).memOk := by
  unfold State.homeWrite
  grind [foldl_memOk, logError_memOk, write_memOk]

theorem countSecure_memOk {s : State} (h : s.memOk) (pa n : Nat) : (s.countSecure pa n).memOk := by
  unfold State.countSecure
  grind [countAttempt_memOk]

theorem execBar2Read_keeps (off count : Nat) : KeepsMem (execBar2Read off count) := by
  intro s t h e
  unfold execBar2Read at e
  grind [answerHost_memOk, countSecure_memOk]

theorem execBar2Write_keeps (off : Nat) (data : List Byte) : KeepsMem (execBar2Write off data) := by
  intro s t h e
  unfold execBar2Write at e
  grind [foldl_memOk, countSecure_memOk, homeWrite_memOk]

theorem doorbellDone_memOk {s : State} (h : s.memOk) (part bit : Nat) : (s.doorbellDone part bit).memOk :=
  memOk_of_mem (setPart_mem _ _ _) h

theorem execDoorbellActionComplete_keeps (part bit : Nat) : KeepsMem (execDoorbellActionComplete part bit) := by
  intro s t h e
  unfold execDoorbellActionComplete at e
  grind [State.memOk, setPart_mem]

theorem execDoorbellTlbInvalidate_keeps (part : Nat) : KeepsMem (execDoorbellTlbInvalidate part) := by
  intro s t h e
  unfold execDoorbellTlbInvalidate at e
  grind [doorbellDone_memOk, tlbForget_memOk]

theorem execDoorbellIcacheInvalidate_keeps (part : Nat) : KeepsMem (execDoorbellIcacheInvalidate part) := by
  intro s t h e
  unfold execDoorbellIcacheInvalidate at e
  grind [State.memOk, foldl_memOk, doorbellDone_memOk, setCore_mem]

theorem execDoorbellTimeSliceOut_keeps (part : Nat) : KeepsMem (execDoorbellTimeSliceOut part) := by
  intro s t h e
  unfold execDoorbellTimeSliceOut at e
  grind [State.memOk, foldl_memOk, doorbellDone_memOk, drainGroup_memOk, evictGroup_memOk, setPart_mem]

theorem execDoorbellTimeSliceIn_keeps (part : Nat) : KeepsMem (execDoorbellTimeSliceIn part) := by
  intro s t h e
  unfold execDoorbellTimeSliceIn at e
  grind [State.memOk, foldl_memOk, doorbellDone_memOk, l1Shrink_memOk, restoreOn_memOk, setPart_mem]

theorem execDoorbellResumeHalted_keeps (part : Nat) : KeepsMem (execDoorbellResumeHalted part) := by
  intro s t h e
  unfold execDoorbellResumeHalted at e
  grind [State.memOk, foldl_memOk, doorbellDone_memOk, returnTrap_memOk, setGroup_mem, setPart_mem]

theorem execHinspectDoorbell_keeps (part : Nat) (seq : Word) : KeepsMem (execHinspectDoorbell part seq) := by
  intro s t h e
  unfold execHinspectDoorbell at e
  split at e
  · cases e; exact h
  refine hostWrite_memOk h ?_ e
  intro s t h e
  dsimp only at e
  split at e
  · cases e; exact memOk_of_mem (setPart_mem _ _ _) h
  split at e
  · cases e; exact memOk_of_mem (setPart_mem _ _ _) h
  · cases e; exact memOk_of_mem (setPart_mem _ _ _) (newInspect_memOk h ..)

theorem hinspectOver_memOk {s : State} (h : s.memOk) (part : Nat) (seq : Word) (result : Nat) (addressFault : Bool) :
    (s.hinspectOver part seq result addressFault).memOk := by
  unfold State.hinspectOver
  grind [State.memOk, setPart_mem, write_memOk]

theorem execHostInspectComplete_keeps (part : Nat) (addressFault : Bool) :
    KeepsMem (execHostInspectComplete part addressFault) := by
  intro s t h e
  unfold execHostInspectComplete at e
  grind [foldl_memOk, ackInspects_memOk, advance_memOk, endInspect_memOk, hinspectOver_memOk]

theorem execDebugNext_keeps (part : Nat) : KeepsMem (execDebugNext part) := by
  intro s t h e
  unfold execDebugNext hostWrite at e
  grind [State.memOk, setPart_mem, countAttempt_memOk]

theorem dsResult_memOk {s : State} (h : s.memOk) (part n : Nat) : (s.dsResult part n).memOk :=
  memOk_of_mem (setPart_mem _ _ _) h

theorem dsServe_memOk {s : State} (h : s.memOk) (part : Nat) (c : PortCommand) : (s.dsServe part c).memOk := by
  unfold State.dsServe
  grind [State.memOk, dsResult_memOk, homeWrite_memOk, loadImage_memOk, setPart_mem]

theorem dsCommand_memOk {s : State} (h : s.memOk) (part : Nat) (load : Bool) : (s.dsCommand part load).memOk := by
  unfold State.dsCommand
  grind [dsServe_memOk]

theorem execDscmdSave_keeps (part : Nat) : KeepsMem (execDscmdSave part) := by
  intro s t h e
  unfold execDscmdSave hostWrite at e
  grind [dsCommand_memOk, countAttempt_memOk]

theorem execDscmdLoad_keeps (part : Nat) : KeepsMem (execDscmdLoad part) := by
  intro s t h e
  unfold execDscmdLoad hostWrite at e
  grind [dsCommand_memOk, countAttempt_memOk]

theorem servePorts_memOk {s : State} (h : s.memOk) : s.servePorts.memOk := by
  unfold State.servePorts
  grind [foldl_memOk, dsServe_memOk]

theorem execAttestationRequest_keeps (value : BitVec 32) : KeepsMem (execAttestationRequest value) := by
  intro s t h e
  unfold execAttestationRequest at e
  grind [State.memOk]

theorem execAttestationReportDone_keeps : KeepsMem (execAttestationReportDone ) := by
  intro s t h e
  unfold execAttestationReportDone at e
  grind [State.memOk]

theorem execColdReset_keeps (repair : RepairRecord) : KeepsMem (execColdReset repair) := by
  intro s t h e
  cases e
  exact memOk_filter _ h

theorem flushNet_memOk {s : State} (h : s.memOk) : s.flushNet.memOk := by
  unfold State.flushNet
  grind [foldl_memOk, applyStore_memOk, placeWrite_memOk]

theorem execFunctionLevelReset_keeps : KeepsMem (execFunctionLevelReset ) := by
  intro s t h e
  unfold execFunctionLevelReset at e
  grind [State.memOk, flushNet_memOk]

theorem execThermalThrottle_keeps (stack : Nat) : KeepsMem (execThermalThrottle stack) := by
  intro s t h e
  unfold execThermalThrottle at e
  grind [State.memOk]

theorem execCoolingShutdown_keeps : KeepsMem (execCoolingShutdown ) := by
  intro s t h e
  unfold execCoolingShutdown at e
  grind [State.memOk]

/-! ## Network ports -/

theorem putSegs_memOk (segs : List (Nat × Nat)) :
    ∀ {s : State} (bs : List Byte), s.memOk → (s.putSegs segs bs).memOk := by
  induction segs with
  | nil => exact fun _ h => h
  | cons x xs ih => exact fun bs h => ih _ (homeWrite_memOk h _ _)

theorem portWrite_memOk {s t : State} {part va : Nat} {bs : List Byte} (h : s.memOk)
    (e : s.portWrite part va bs = .done t) : t.memOk := by
  unfold State.portWrite at e
  grind [putSegs_memOk]

theorem sendFrame_memOk {s : State} (h : s.memOk) (f : TxFrame) : (s.sendFrame f).memOk := by
  unfold State.sendFrame
  grind [State.memOk, setPort_mem]

theorem resendFrame_memOk {s : State} (h : s.memOk) (f : TxFrame) : (s.resendFrame f).memOk :=
  memOk_of_mem (setPort_mem _ _ _) (sendFrame_memOk h ..)

theorem drop_memOk {s : State} (h : s.memOk) (n : Nat) : (s.drop n).memOk := memOk_of_mem (setPort_mem _ _ _) h

theorem received_memOk {s : State} (h : s.memOk) (n : Nat) : (s.received n).memOk := memOk_of_mem (setPort_mem _ _ _) h

theorem complete_memOk {s : State} (h : s.memOk) (n kind : Nat) (status tag : Nat) :
    (s.complete n kind status tag).memOk := by
  unfold State.complete
  grind [State.memOk, putEntry_memOk, serveTakers_memOk, setPort_mem]

theorem failed_memOk {s : State} (h : s.memOk) (n status tag : Nat) : (s.failed n status tag).memOk :=
  complete_memOk h ..

theorem setContext_memOk {s : State} (h : s.memOk) (n i : Nat) (f : RoceContext → RoceContext) :
    (s.setContext n i f).memOk :=
  memOk_of_mem (setPort_mem _ _ _) h

theorem readContext_memOk {s : State} (h : s.memOk) (part n i : Nat) : (s.readContext part n i).memOk :=
  memOk_of_mem (setPort_mem _ _ _) h

theorem writeContext_memOk {s : State} (h : s.memOk) (part n i : Nat) : (s.writeContext part n i).memOk := by
  unfold State.writeContext
  split
  · exact h
  · refine foldl_memOk ?_ _ h
    have := @portWrite_memOk
    grind

theorem completeReq_memOk {s : State} (h : s.memOk) (n status : Nat) (r : RoceReq) :
    (s.completeReq n status r).memOk := by
  unfold State.completeReq
  grind [complete_memOk, failed_memOk]

theorem settleContext_memOk (n i : Nat) (rs : List RoceReq) :
    ∀ {s : State}, s.memOk → (s.settleContext n i rs).memOk := by
  induction rs with
  | nil => exact fun h => h
  | cons r rs ih => intro s h; unfold State.settleContext; grind [setContext_memOk, completeReq_memOk]

theorem failContext_memOk {s : State} (h : s.memOk) (part n : Nat) (i status : Nat) :
    (s.failContext part n i status).memOk := by
  unfold State.failContext
  grind [foldl_memOk, completeReq_memOk, failed_memOk, setContext_memOk, writeContext_memOk]

theorem startPort_memOk {s : State} (h : s.memOk) (n : Nat) : (s.startPort n).memOk := by
  unfold State.startPort
  grind [State.memOk, foldl_memOk, readContext_memOk, setSQueue_mem]

theorem stopPort_memOk {s : State} (h : s.memOk) (n : Nat) : (s.stopPort n).memOk := by
  unfold State.stopPort
  grind [State.memOk, foldl_memOk, checkClose_memOk, failed_memOk, setPort_mem, setSQueue_mem, writeContext_memOk]

theorem loadContext_memOk {s : State} (h : s.memOk) (n i : Nat) : (s.loadContext n i).memOk := by
  unfold State.loadContext
  grind [readContext_memOk]

theorem enableEffect_memOk {s : State} (h : s.memOk) (n : Nat) (was : Bool) : (s.enableEffect n was).memOk := by
  unfold State.enableEffect
  grind [startPort_memOk, stopPort_memOk]

theorem execPortControlWrite_keeps (port off width : Nat) (value : DWord) :
    KeepsMem (execPortControlWrite port off width value) := by
  intro s t h e
  unfold execPortControlWrite hostWrite at e
  grind [State.memOk, enableEffect_memOk, loadContext_memOk, setPort_mem, countAttempt_memOk]

theorem execPortEnable_keeps (port : Nat) : KeepsMem (execPortEnable port) := by
  intro s t h e
  unfold execPortEnable hostWrite at e
  grind [State.memOk, setPort_mem, startPort_memOk, countAttempt_memOk]

theorem execPortDisable_keeps (port : Nat) : KeepsMem (execPortDisable port) := by
  intro s t h e
  unfold execPortDisable hostWrite at e
  grind [State.memOk, setPort_mem, stopPort_memOk, countAttempt_memOk]

theorem execQpload_keeps (port context : Nat) : KeepsMem (execQpload port context) := by
  intro s t h e
  unfold execQpload hostWrite at e
  grind [loadContext_memOk, countAttempt_memOk]

theorem completeSent_memOk {s : State} (h : s.memOk) (n : Nat) (x : BowlineSent) : (s.completeSent n x).memOk := by
  unfold State.completeSent
  grind [complete_memOk, failed_memOk]

theorem settleBowline_memOk (n mac : Nat) (xs : List BowlineSent) :
    ∀ {s : State}, s.memOk → (s.settleBowline n mac xs).memOk := by
  induction xs with
  | nil => exact fun h => h
  | cons x xs ih => intro s h; unfold State.settleBowline; grind [State.memOk, setPort_mem, completeSent_memOk]

theorem failBowline_memOk {s : State} (h : s.memOk) (n idx : Nat) (mac status : Nat) :
    (s.failBowline n idx mac status).memOk := by
  unfold State.failBowline
  grind [State.memOk, setPort_mem, settleBowline_memOk]

theorem failRoce_memOk {s : State} (h : s.memOk) (n idx : Nat) (i status : Nat) :
    (s.failRoce n idx i status).memOk := by
  unfold State.failRoce
  grind [failed_memOk, settleContext_memOk]

theorem startBowline_memOk {s : State} (h : s.memOk) (part n idx : Nat) (d : Desc) :
    (s.startBowline part n idx d).memOk := by
  unfold State.startBowline
  grind [State.memOk, foldl_memOk, failBowline_memOk, sendFrame_memOk, setPort_mem]

theorem startRoce_memOk {s : State} (h : s.memOk) (part n idx : Nat) (d : Desc) : (s.startRoce part n idx d).memOk := by
  unfold State.startRoce
  grind [foldl_memOk, failRoce_memOk, failed_memOk, sendFrame_memOk, setContext_memOk]

theorem startRequest_memOk {s : State} (h : s.memOk) (part n : Nat) (w : Word) : (s.startRequest part n w).memOk := by
  unfold State.startRequest
  grind [failBowline_memOk, failRoce_memOk, failed_memOk, startBowline_memOk, startRoce_memOk]

theorem takeEntry_memOk {s t : State} {r} {q : Nat} (h : s.memOk) (e : s.takeEntry q = some (r, t)) : t.memOk := by
  unfold State.takeEntry at e
  grind [getEntry_memOk, serveGivers_memOk]

theorem execPortSendRequest_keeps (port : Nat) : KeepsMem (execPortSendRequest port) := by
  intro s t h e
  unfold execPortSendRequest at e
  grind [failed_memOk, startRequest_memOk, takeEntry_memOk]

theorem execPortRecvPost_keeps (port : Nat) : KeepsMem (execPortRecvPost port) := by
  intro s t h e
  unfold execPortRecvPost at e
  split at e
  · next hu =>
    have ht := takeEntry_memOk h hu
    grind [State.memOk, failed_memOk, setPort_mem]
  · next hu => cases e; exact failed_memOk (takeEntry_memOk h hu) ..
  · cases e; exact h

theorem answerBowline_memOk {s : State} (h : s.memOk) (n mac : Nat) (kind : FrameKind) (seq : Word) :
    (s.answerBowline n mac kind seq).memOk :=
  sendFrame_memOk h ..

theorem execBowlineDataFrameRx_keeps (port : Nat) (f : BowlineFrame) : KeepsMem (execBowlineDataFrameRx port f) := by
  intro s t h e
  unfold execBowlineDataFrameRx at e
  split at e
  · cases e; exact h
  dsimp only at e
  have hd := drop_memOk h port
  split at e
  · cases e; exact hd
  split at e
  · cases e; exact answerBowline_memOk hd ..
  split at e
  · cases e; exact answerBowline_memOk hd ..
  split at e
  · cases e; exact h
  split at e
  · cases e; exact h
  · cases e; exact answerBowline_memOk hd ..
  · next hw =>
    have ha := fun f mac kind seq => answerBowline_memOk
      (memOk_of_mem (setPort_mem _ port f) (received_memOk (portWrite_memOk h hw) port)) port mac kind seq
    cases e
    split
    · exact complete_memOk (ha ..) ..
    · exact ha ..

theorem bowlineAnswer_keeps (port : Nat) (mac : BitVec 48) (seq : Word) {fn : State → BowlineOut → Nat → State}
    (hf : ∀ {s : State} (b : BowlineOut) (i : Nat), s.memOk → (fn s b i).memOk) :
    KeepsMem fun s => bowlineAnswer port mac seq s fn := by
  intro s t h e
  unfold bowlineAnswer at e
  have hr := received_memOk h port
  grind [drop_memOk]

theorem execBowlineAckRx_keeps (port : Nat) (mac : BitVec 48) (seq : Word) :
    KeepsMem (execBowlineAckRx port mac seq) := by
  refine bowlineAnswer_keeps port mac seq ?_
  intro s b i h
  exact settleBowline_memOk _ _ _ (foldl_memOk (fun _ _ h => completeSent_memOk h ..) _ h)

theorem endMessage_memOk {s : State} (h : s.memOk) (n mac i status : Nat) : (s.endMessage n mac i status).memOk := by
  unfold State.endMessage
  dsimp only
  split
  · exact h
  · refine settleBowline_memOk _ _ _ (failed_memOk (foldl_memOk (fun _ _ h => completeSent_memOk h _ _) _
      (memOk_of_mem (setPort_mem _ _ _) ?_)) _ _ _)
    refine foldl_of_memOk (fun a : List BowlineSent × Word × State => a.2.2) ?_ _ h
    grind [resendFrame_memOk]

theorem execBowlineNakRx_keeps (port : Nat) (mac : BitVec 48) (seq : Word) : KeepsMem (execBowlineNakRx port mac seq) :=
  bowlineAnswer_keeps port mac seq fun _ _ h => endMessage_memOk h ..

theorem execBowlineResendTimeout_keeps (port : Nat) (mac : BitVec 48) :
    KeepsMem (execBowlineResendTimeout port mac) := by
  intro s t h e
  unfold execBowlineResendTimeout at e
  grind [State.memOk, foldl_memOk, endMessage_memOk, resendFrame_memOk, setPort_mem]

theorem answerRoce_memOk {s : State} (h : s.memOk) (n i : Nat) (kind : FrameKind) (psn : BitVec 24)
    (bs : List Byte := []) : (s.answerRoce n i kind psn bs).memOk :=
  sendFrame_memOk h ..

theorem rxRoce_memOk {port context : Nat} {s t : State} {fn : Nat → RoceContext → State}
    (hf : ∀ o c, (fn o c).memOk) (h : s.memOk) (e : rxRoce port context s fn = .next t) : t.memOk := by
  unfold rxRoce at e
  grind [drop_memOk]

theorem rxRequest_memOk {port : Nat} {pkt : RocePacket} {s t : State} {again : State → Nat → RoceContext → State}
    {fn : Nat → RoceContext → State} (ha : ∀ {s : State} (o : Nat) (c : RoceContext), s.memOk → (again s o c).memOk)
    (hf : ∀ o c, (fn o c).memOk) (h : s.memOk) (e : rxRequest port pkt s again fn = .next t) : t.memOk := by
  refine rxRoce_memOk ?_ h e
  intro o c
  have hd := ha o c (drop_memOk h port)
  grind [drop_memOk]

theorem ackAgain_memOk {s : State} (h : s.memOk) (port : Nat) (pkt : RocePacket) (k : Nat) (c : RoceContext) :
    (ackAgain port pkt s k c).memOk :=
  answerRoce_memOk h ..

theorem accept_memOk {s : State} (h : s.memOk) (n i k : Nat) : (s.accept n i k).memOk := by
  unfold State.accept
  grind [received_memOk, setContext_memOk]

theorem execRoceRdmaWriteRx_keeps (port : Nat) (pkt : RocePacket) : KeepsMem (execRoceRdmaWriteRx port pkt) := by
  intro s t h e
  refine rxRequest_memOk (by intro s o c h; exact ackAgain_memOk h ..) ?_ h e
  grind [answerRoce_memOk, accept_memOk, portWrite_memOk]

theorem answerRead_memOk {s : State} (h : s.memOk) (o port : Nat) (pkt : RocePacket) {accepted : State → Nat → State}
    (ha : ∀ {s : State} (k : Nat), s.memOk → (accepted s k).memOk) : (s.answerRead o port pkt accepted).memOk := by
  unfold State.answerRead
  grind [foldl_memOk, answerRoce_memOk]

theorem execRoceRdmaReadRx_keeps (port : Nat) (pkt : RocePacket) : KeepsMem (execRoceRdmaReadRx port pkt) := by
  intro s t h e
  refine rxRequest_memOk ?_ ?_ h e
  · intro s o c h
    exact answerRead_memOk h _ _ _ fun _ h => h
  · intro o c
    exact answerRead_memOk h _ _ _ fun _ h => accept_memOk h ..

theorem recvBuffer_memOk {s t : State} {n k : Nat} {c : RoceContext} {b : RecvBuf} (h : s.memOk)
    (e : s.recvBuffer n c = some (b, k, t)) : t.memOk := by
  unfold State.recvBuffer at e
  split at e
  · cases e; exact h
  · cases e; exact h
  · cases e

theorem recvDone_memOk {s : State} (h : s.memOk) (part n : Nat) (b : RecvBuf) (total : Nat) :
    (s.recvDone part n b total).memOk := by
  unfold State.recvDone
  refine complete_memOk ?_ _ _ _ _
  grind [portWrite_memOk]

theorem execRoceSendRx_keeps (port : Nat) (pkt : RocePacket) : KeepsMem (execRoceSendRx port pkt) := by
  intro s t h e
  refine rxRequest_memOk (by intro s o c h; exact ackAgain_memOk h ..) ?_ h e
  intro o c
  dsimp only
  split
  · exact answerRoce_memOk h ..
  next hr =>
  have hu := recvBuffer_memOk h hr
  split
  · exact h
  split
  · exact h
  · exact answerRoce_memOk (failed_memOk (setContext_memOk hu ..) ..) ..
  next hw =>
  have hv := fun f => answerRoce_memOk (setContext_memOk (accept_memOk (portWrite_memOk hu hw) port pkt.context 1) port
    pkt.context f) port pkt.context .ack pkt.psn
  split
  · exact recvDone_memOk (hv _) ..
  · exact hv _

theorem execRoceAckRx_keeps (port context : Nat) (psn : BitVec 24) : KeepsMem (execRoceAckRx port context psn) := by
  intro s t h e
  refine rxRoce_memOk ?_ h e
  intro o c
  exact settleContext_memOk _ _ _ (setContext_memOk (received_memOk h _) ..)

theorem retryContext_memOk {s : State} (h : s.memOk) (part n i : Nat) (c : RoceContext) :
    (s.retryContext part n i c).memOk := by
  unfold State.retryContext
  grind [foldl_memOk, failContext_memOk, resendFrame_memOk, setContext_memOk]

theorem execRoceNakRx_keeps (port : Nat) (context : RoceNak) : KeepsMem (execRoceNakRx port context) := by
  intro s t h e
  refine rxRoce_memOk ?_ h e
  intro o c
  split
  · exact retryContext_memOk (received_memOk h _) ..
  · exact failContext_memOk (received_memOk h _) ..

theorem execRoceAckTimeout_keeps (port context : Nat) : KeepsMem (execRoceAckTimeout port context) := by
  intro s t h e
  unfold execRoceAckTimeout at e
  grind [retryContext_memOk]

theorem execRdmaReadResponseRx_keeps (port : Nat) (pkt : RocePacket) : KeepsMem (execRdmaReadResponseRx port pkt) := by
  intro s t h e
  unfold execRdmaReadResponseRx at e
  split at e
  · cases e; exact h
  split at e
  · cases e; exact drop_memOk h _
  split at e
  · cases e; exact drop_memOk h _
  split at e
  · cases e; exact drop_memOk h _
  split at e
  · cases e; exact h
  · cases e; exact failContext_memOk (received_memOk h _) ..
  · next hw => cases e; exact settleContext_memOk _ _ _ (setContext_memOk (received_memOk (portWrite_memOk h hw) _) ..)

theorem execRoceAtomicRequestRx_keeps (port : Nat) (pkt : RocePacket) :
    KeepsMem (execRoceAtomicRequestRx port pkt) := by
  intro s t h e
  unfold execRoceAtomicRequestRx at e
  grind [answerRoce_memOk]

theorem execFrameDropped_keeps (port : Nat) : KeepsMem (execFrameDropped port) := by
  intro s t h e
  unfold execFrameDropped at e
  grind [drop_memOk]

/-! ## The Veleel Link -/

theorem answerPeer_memOk {s : State} (h : s.memOk) (device : Nat) (bs : List Byte) (cause : Option Nat) :
    (s.answerPeer device bs cause).memOk := h

theorem peerAtomic_memOk {s : State} (h : s.memOk) (r : PeerRequest) (n : Nat) (op : AtomOp) :
    (s.peerAtomic r n op).memOk := by
  unfold State.peerAtomic
  grind [answerPeer_memOk, homeWrite_memOk]

theorem peerInspect_memOk {s : State} (h : s.memOk) (r : PeerRequest) (a : Ask) : (s.peerInspect r a).memOk := by
  unfold State.peerInspect
  grind [answerPeer_memOk, newInspect_memOk]

theorem execPeerRequestArrival_keeps (r : PeerRequest) : KeepsMem (execPeerRequestArrival r) := by
  intro s t h e
  unfold execPeerRequestArrival at e
  grind [answerPeer_memOk, homeWrite_memOk, peerAtomic_memOk, peerInspect_memOk, post_memOk]

theorem execLinkFlitError_keeps (link : Nat) : KeepsMem (execLinkFlitError link) := by
  intro s t h e
  unfold execLinkFlitError at e
  grind

theorem dropRemote_memOk {s : State} (h : s.memOk) (core : Nat) (st : Store) : (s.dropRemote core st).memOk := by
  unfold State.dropRemote
  grind [logError_memOk, markApplied_memOk]

theorem execLinkTimeout_keeps (req : Nat) : KeepsMem (execLinkTimeout req) := by
  intro s t h e
  unfold execLinkTimeout at e
  grind [State.memOk, dropRemote_memOk, endInspect_memOk, replyCause_memOk]

/-! ## The dispatcher -/

theorem exec_keeps (i : Instr) : KeepsMem (exec i) :=
  match i with
  | .iaddCompact _ => compact2_keeps _ _
  | .isubCompact _ => compact2_keeps _ _
  | .imulCompact _ => compact2_keeps _ _
  | .andCompact _ => compact2_keeps _ _
  | .orCompact _ => compact2_keeps _ _
  | .xorCompact _ => compact2_keeps _ _
  | .shlCompact _ => compact2_keeps _ _
  | .shrCompact _ => compact2_keeps _ _
  | .sarCompact _ => compact2_keeps _ _
  | .iminCompact _ => compact2_keeps _ _
  | .imaxCompact _ => compact2_keeps _ _
  | .faddCompact _ => compact2_keeps _ _
  | .fsubCompact _ => compact2_keeps _ _
  | .fmulCompact _ => compact2_keeps _ _
  | .fminCompact _ => compact2_keeps _ _
  | .fmaxCompact _ => compact2_keeps _ _
  | .movCompact _ => laneInstr_keeps _ _
  | .ffmaCompact _ => compact3_keeps _ _
  | .imadCompact _ => compact3_keeps _ _
  | .dot4Compact _ => compact3_keeps _ _
  | .dot8Compact _ => compact3_keeps _ _
  | .dot2Compact _ => compact3_keeps _ _
  | .uaddCompact _ => uniCompact2_keeps _ _
  | .usubCompact _ => uniCompact2_keeps _ _
  | .umulCompact _ => uniCompact2_keeps _ _
  | .uandCompact _ => uniCompact2_keeps _ _
  | .uorCompact _ => uniCompact2_keeps _ _
  | .uxorCompact _ => uniCompact2_keeps _ _
  | .ushlCompact _ => uniCompact2_keeps _ _
  | .ushrCompact _ => uniCompact2_keeps _ _
  | .usarCompact _ => uniCompact2_keeps _ _
  | .uminCompact _ => uniCompact2_keeps _ _
  | .umaxCompact _ => uniCompact2_keeps _ _
  | .umovCompact _ => uniCalc_keeps _ _ _ _ _ _
  | .umadCompact _ => uniCalc_keeps _ _ _ _ _ _
  | .iadd _ => intInstr2_keeps _ _ _ _
  | .isub _ => intInstr2_keeps _ _ _ _
  | .imul _ => intInstr2_keeps _ _ _ _
  | .imulh _ => intInstr2_keeps _ _ _ _
  | .imad _ => laneInstr_keeps _ _
  | .imin _ => intInstr2_keeps _ _ _ _
  | .imax _ => intInstr2_keeps _ _ _ _
  | .iabs _ => intInstr1_keeps _ _
  | .ineg _ => intInstr1_keeps _ _
  | .icmp _ => laneInstr_keeps _ _
  | .sel _ => laneInstr_keeps _ _
  | .and _ => bitInstr2_keeps _ _
  | .or _ => bitInstr2_keeps _ _
  | .xor _ => bitInstr2_keeps _ _
  | .andn _ => execAndn_keeps _
  | .not _ => laneInstr_keeps _ _
  | .shl _ => shiftInstr_keeps _ _
  | .shr _ => shiftInstr_keeps _ _
  | .sar _ => shiftInstr_keeps _ _
  | .rot _ => shiftInstr_keeps _ _
  | .popc _ => laneInstr_keeps _ _
  | .clz _ => laneInstr_keeps _ _
  | .brev _ => laneInstr_keeps _ _
  | .bfx _ => laneInstr_keeps _ _
  | .bfi _ => laneInstr_keeps _ _
  | .fadd _ => floatInstr2_keeps _ _ _
  | .fsub _ => floatInstr2_keeps _ _ _
  | .fmul _ => floatInstr2_keeps _ _ _
  | .ffma _ => laneInstr_keeps _ _
  | .fmin _ => laneInstr_keeps _ _
  | .fmax _ => laneInstr_keeps _ _
  | .fcmp _ => laneInstr_keeps _ _
  | .fclass _ => laneInstr_keeps _ _
  | .frcp _ => specialInstr_keeps _ _
  | .frsq _ => specialInstr_keeps _ _
  | .fsqrt _ => specialInstr_keeps _ _
  | .fexp2 _ => specialInstr_keeps _ _
  | .flog2 _ => specialInstr_keeps _ _
  | .fsin _ => specialInstr_keeps _ _
  | .fcos _ => specialInstr_keeps _ _
  | .fdiv _ => floatInstr2_keeps _ _ _
  | .dot4 _ => dotInstr_keeps _ _
  | .dot8 _ => dotInstr_keeps _ _
  | .dot2 _ => dotInstr_keeps _ _
  | .fscl _ => laneInstr_keeps _ _
  | .cvt _ => laneInstr_keeps _ _
  | .cvtp _ => laneInstr_keeps _ _
  | .cvtx _ => laneInstr_keeps _ _
  | .movi _ => laneInstr_keeps _ _
  | .movh _ => laneInstr_keeps _ _
  | .bcast _ => laneInstr_keeps _ _
  | .shfl _ => laneInstr_keeps _ _
  | .vote _ => laneInstr_keeps _ _
  | .ballot _ => execBallot_keeps _
  | .redux _ => laneInstr_keeps _ _
  | .scan _ => laneInstr_keeps _ _
  | .xset _ => laneInstr_keeps _ _
  | .xadd _ => laneInstr_keeps _ _
  | .movx _ => laneInstr_keeps _ _
  | .stx _ => laneInstr_keeps _ _
  | .plop _ => laneInstr_keeps _ _
  | .pmov _ => laneInstr_keeps _ _
  | .ld _ => execLd_keeps _
  | .st _ => execSt_keeps _
  | .pref _ => execPref_keeps _
  | .rowld _ => execRowld_keeps _
  | .lds _ => execLds_keeps _
  | .sts _ => execSts_keeps _
  | .atoms _ => execAtoms_keeps _
  | .present _ => execPresent_keeps _
  | .atom _ => execAtom_keeps _
  | .cas _ => execCas_keeps _
  | .padd2 _ => execPadd2_keeps _
  | .rowadd _ => execRowadd_keeps _
  | .enq _ => queueInstr_keeps _ _
  | .deq _ => queueInstr_keeps _ _
  | .qtry _ => execQtry_keeps _
  | .qlen _ => execQlen_keeps _
  | .qopen _ => execQopen_keeps _
  | .qdone _ => execQdone_keeps _
  | .brx _ => execBrx_keeps _
  | .callq _ => execCallq_keeps _
  | .ret _ => execRet_keeps _
  | .join _ => execJoin_keeps _
  | .waitj _ => execWaitj_keeps _
  | .exit _ => execExit_keeps _
  | .reform _ => execReform_keeps _
  | .reorder _ => execReorder_keeps _
  | .spawn _ => execSpawn_keeps _
  | .migrate _ => execMigrate_keeps _
  | .eqpt _ => execEqpt_keeps _
  | .region _ => execRegion_keeps _
  | .meld _ => execMeld_keeps _
  | .endmeld _ => execEndmeld_keeps _
  | .mtbl _ => execMtbl_keeps _
  | .mma _ => execMma_keeps _
  | .mmaq _ => execMmaq_keeps _
  | .mmao _ => execMmao_keeps _
  | .mmas _ => execMmas_keeps _
  | .tslr _ => execTslr_keeps _
  | .tslw _ => execTslw_keeps _
  | .bshare _ => execBshare_keeps _
  | .cpy _ => copyInstr_keeps _ _
  | .cpym _ => copyInstr_keeps _ _
  | .cpyp _ => copyInstr_keeps _ _
  | .inspect _ => execInspect_keeps _
  | .inspectf _ => execInspectf_keeps _
  | .ftest _ => laneInstr_keeps _ _
  | .fwait _ => laneInstr_keeps _ _
  | .fcancel _ => execFcancel_keeps _
  | .fpass _ => execFpass_keeps _
  | .nop _ => execNop_keeps _
  | .wait _ => execWait_keeps _
  | .yield _ => execYield_keeps _
  | .trap _ => raiseCode_keeps _ _
  | .bkpt _ => raiseCode_keeps _ _
  | .rte _ => execRte_keeps _
  | .pen _ => laneInstr_keeps _ _
  | .uadd _ => uniInt2_keeps _ _ _
  | .usub _ => uniInt2_keeps _ _ _
  | .umul _ => uniInt2_keeps _ _ _
  | .umulh _ => uniInt2_keeps _ _ _
  | .umad _ => uniCalc_keeps _ _ _ _ _ _
  | .umin _ => uniInt2_keeps _ _ _
  | .umax _ => uniInt2_keeps _ _ _
  | .ucmp _ => uniRegs_keeps _ _ _
  | .usel _ => uniRegs_keeps _ _ _
  | .uand _ => uniBits2_keeps _ _
  | .uor _ => uniBits2_keeps _ _
  | .uxor _ => uniBits2_keeps _ _
  | .unot _ => uniCalc_keeps _ _ _ _ _ _
  | .ushl _ => uniShift_keeps _ _
  | .ushr _ => uniShift_keeps _ _
  | .usar _ => uniShift_keeps _ _
  | .upopc _ => uniCalc_keeps _ _ _ _ _ _
  | .uclz _ => uniCalc_keeps _ _ _ _ _ _
  | .umovi _ => execUmovi_keeps _
  | .umovh _ => uniCalc_keeps _ _ _ _ _ _
  | .ursr _ => execUrsr_keeps _
  | .uwsr _ => execUwsr_keeps _
  | .uplop _ => execUplop_keeps _
  | .uread _ => execUread_keeps _
  | .aset _ => uniRegs_keeps _ _ _
  | .aget _ => uniRegs_keeps _ _ _
  | .adv _ => uniRegs_keeps _ _ _
  | .anarrow _ => uniRegs_keeps _ _ _
  | .ald _ => execAld_keeps _
  | .ldu _ => execLdu_keeps _
  | .stu _ => execStu_keeps _
  | .icinv _ => execIcinv_keeps _
  | .fbar _ => execFbar_keeps _
  | .pin _ => execPin_keeps _
  | .unpin _ => execUnpin_keeps _
  | .odecl _ => execOdecl_keeps _
  | .ofree _ => execOfree_keeps _
  | .seal _ => execSeal_keeps _
  | .unseal _ => execUnseal_keeps _
  | .oquery _ => execOquery_keeps _
  | .bra _ => execBra_keeps _
  | .jmpi _ => execJmpi_keeps _
  | .call _ => execCall_keeps _
  | .uspawn _ => execUspawn_keeps _
  | .gridwait _ => execGridwait_keeps _
  | .tld _ => execTld_keeps _
  | .tst _ => execTst_keeps _
  | .tzero _ => execTzero_keeps _
  | .tmov _ => execTmov_keeps _
  | .tcvt _ => execTcvt_keeps _
  | .talloc _ => execTalloc_keeps _
  | .tfree _ => execTfree_keeps _
  | .tstat _ => execTstat_keeps _
  | .boinit _ => execBoinit_keeps _
  | .boarrive _ => execBoarrive_keeps _
  | .boexpect _ => execBoexpect_keeps _
  | .bowait _ => execBowait_keeps _
  | .botest _ => execBotest_keeps _
  | .srstat _ => execSrstat_keeps _
  | .istat _ => execIstat_keeps _
  | .ccount _ => execCcount_keeps _
  | .tlbinv _ => execTlbinv_keeps _
  | .csave _ => execCsave_keeps _
  | .cload _ => execCload_keeps _
  | .halt _ => execHalt_keeps _
  | .errlog _ => execErrlog_keeps _
  | .handlerWaveForm _ _ _ => execHandlerWaveForm_keeps _ _ _
  | .bundleFormation _ => execBundleFormation_keeps _
  | .binHoist _ _ _ => execBinHoist_keeps _ _ _
  | .reorderSort _ _ _ => execReorderSort_keeps _ _ _
  | .calleeQueueDrain _ _ _ => execCalleeQueueDrain_keeps _ _ _
  | .launchPortWrite _ _ _ => execLaunchPortWrite_keeps _ _ _
  | .recordResolution _ => execRecordResolution_keeps _
  | .claim _ _ => execClaim_keeps _ _
  | .groupRestore _ _ => execGroupRestore_keeps _ _
  | .storeDrainSend _ _ _ => execStoreDrainSend_keeps _ _ _
  | .storeArrivalAtHome _ => execStoreArrivalAtHome_keeps _
  | .writeThroughAck _ _ => execWriteThroughAck_keeps _ _
  | .loadRequestAtHome _ => execLoadRequestAtHome_keeps _
  | .sliceReply _ => execSliceReply_keeps _
  | .atomicRequestAtHome _ _ => execAtomicRequestAtHome_keeps _ _
  | .rowRequestAtHome _ => execRowRequestAtHome_keeps _
  | .queueRequestAtSlice _ => execQueueRequestAtSlice_keeps _
  | .peerSpadRequest _ => execPeerSpadRequest_keeps _
  | .rosterBitRequest _ _ _ => execRosterBitRequest_keeps _ _ _
  | .objectLookupFill _ _ => execObjectLookupFill_keeps _ _
  | .pageWalk _ _ _ => execPageWalk_keeps _ _ _
  | .instructionFetch _ _ => execInstructionFetch_keeps _ _
  | .copyOwnershipAcquire _ => execCopyOwnershipAcquire_keeps _
  | .presenceClearArrival _ _ => execPresenceClearArrival_keeps _ _
  | .copySectorLand _ _ _ => execCopySectorLand_keeps _ _ _
  | .copyResolve _ => execCopyResolve_keeps _
  | .inspectSnapshot _ => execInspectSnapshot_keeps _
  | .inspectArrival _ _ => execInspectArrival_keeps _ _
  | .inspectComplete _ => execInspectComplete_keeps _
  | .staleReadSample _ => execStaleReadSample_keeps _
  | .poisonWriteback _ _ => execPoisonWriteback_keeps _ _
  | .bar0IllegalAccess _ _ _ => execBar0IllegalAccess_keeps _ _ _
  | .bar2Read _ _ => execBar2Read_keeps _ _
  | .bar2Write _ _ => execBar2Write_keeps _ _
  | .launchQueueControlWrite _ _ _ _ => execLaunchQueueControlWrite_keeps _ _ _ _
  | .partitionControlWrite _ _ _ _ _ => execPartitionControlWrite_keeps _ _ _ _ _
  | .doorbellTlbInvalidate _ => execDoorbellTlbInvalidate_keeps _
  | .doorbellIcacheInvalidate _ => execDoorbellIcacheInvalidate_keeps _
  | .doorbellTimeSliceOut _ => execDoorbellTimeSliceOut_keeps _
  | .doorbellTimeSliceIn _ => execDoorbellTimeSliceIn_keeps _
  | .doorbellResumeHalted _ => execDoorbellResumeHalted_keeps _
  | .doorbellActionComplete _ _ => execDoorbellActionComplete_keeps _ _
  | .qcmdCreate _ => execQcmdCreate_keeps _
  | .qcmdReset _ => execQcmdReset_keeps _
  | .qcmdDelete _ => execQcmdDelete_keeps _
  | .regionTableWrite _ _ _ _ _ => execRegionTableWrite_keeps _ _ _ _ _
  | .hinspectDoorbell _ _ => execHinspectDoorbell_keeps _ _
  | .hostInspectComplete _ _ => execHostInspectComplete_keeps _ _
  | .debugNext _ => execDebugNext_keeps _
  | .dscmdSave _ => execDscmdSave_keeps _
  | .dscmdLoad _ => execDscmdLoad_keeps _
  | .attestationRequest _ => execAttestationRequest_keeps _
  | .attestationReportDone => execAttestationReportDone_keeps
  | .portControlWrite _ _ _ _ => execPortControlWrite_keeps _ _ _ _
  | .portEnable _ => execPortEnable_keeps _
  | .portDisable _ => execPortDisable_keeps _
  | .qpload _ _ => execQpload_keeps _ _
  | .portSendRequest _ => execPortSendRequest_keeps _
  | .portRecvPost _ => execPortRecvPost_keeps _
  | .bowlineDataFrameRx _ _ => execBowlineDataFrameRx_keeps _ _
  | .bowlineAckRx _ _ _ => execBowlineAckRx_keeps _ _ _
  | .bowlineNakRx _ _ _ => execBowlineNakRx_keeps _ _ _
  | .bowlineResendTimeout _ _ => execBowlineResendTimeout_keeps _ _
  | .roceRdmaWriteRx _ _ => execRoceRdmaWriteRx_keeps _ _
  | .roceRdmaReadRx _ _ => execRoceRdmaReadRx_keeps _ _
  | .roceSendRx _ _ => execRoceSendRx_keeps _ _
  | .roceAckRx _ _ _ => execRoceAckRx_keeps _ _ _
  | .roceNakRx _ _ => execRoceNakRx_keeps _ _
  | .roceAckTimeout _ _ => execRoceAckTimeout_keeps _ _
  | .peerRequestArrival _ => execPeerRequestArrival_keeps _
  | .linkFlitError n => execLinkFlitError_keeps n
  | .linkTimeout _ => execLinkTimeout_keeps _
  | .coldReset _ => execColdReset_keeps _
  | .functionLevelReset => execFunctionLevelReset_keeps
  | .thermalThrottle _ => execThermalThrottle_keeps _
  | .coolingShutdown => execCoolingShutdown_keeps
  | .registerWrite _ _ _ => execRegisterWrite_keeps _ _ _
  | .frameDropped _ => execFrameDropped_keeps _
  | .rdmaReadResponseRx _ _ => execRdmaReadResponseRx_keeps _ _
  | .roceAtomicRequestRx _ _ => execRoceAtomicRequestRx_keeps _ _

/-! ## Operands read after issue, and the end of a step -/

theorem recopy_memOk {s : State} (h : s.memOk) (g : Group) (id kind : Nat) (src dst : AddrReg) (ws : List Word) :
    (s.recopy g id kind src dst ws).memOk := by
  unfold State.recopy
  grind [State.memOk, foldl_memOk, clearLines_memOk, setSpad_memOk]

theorem repatch_memOk {s : State} (h : s.memOk) (gid : Nat) (g : Group) (r : Late) (ws : List Word) :
    (s.repatch gid g r ws).memOk := by
  unfold State.repatch
  grind [State.memOk, recopy_memOk, setCore_mem, setGroup_mem, setSpad_memOk, setTile_memOk]

theorem lateStep_memOk {s : State} (before : State) (h : s.memOk) (gid : Nat) (r : Late) :
    (before.lateStep s gid r).memOk := by
  unfold State.lateStep
  grind [State.memOk, closeLate_memOk, repatch_memOk, pick_memOk, setGroup_mem]

theorem lateWrites_memOk {s : State} (before : State) (h : s.memOk) : (before.lateWrites s).memOk := by
  unfold State.lateWrites
  refine foldl_memOk ?_ _ h
  intro s x h
  refine foldl_memOk ?_ _ h
  grind [lateStep_memOk]

theorem readHeld_memOk {s : State} (h : s.memOk) (b : Bundle) : (s.readHeld b).memOk := by
  unfold State.readHeld
  grind [foldl_memOk, closeLate_memOk]

theorem endTurn_memOk {s : State} (before : State) (h : s.memOk) (i : Instr) : (before.endTurn s i).memOk := by
  unfold State.endTurn
  grind [afterTurn_memOk, readHeld_memOk]

theorem wakeBarriers_memOk {s : State} (h : s.memOk) : s.wakeBarriers.memOk := by
  unfold State.wakeBarriers
  grind [foldl_memOk, wakeBarrier_memOk]

theorem serveRings_memOk {s : State} (h : s.memOk) : s.serveRings.memOk := by
  unfold State.serveRings
  grind [foldl_memOk, serveRing_memOk]

theorem afterStep_memOk {s : State} (before : State) (h : s.memOk) : (before.afterStep s).memOk :=
  noteReady_memOk (servePorts_memOk (serveRings_memOk (wakeBarriers_memOk (lateWrites_memOk before h))))

/-! ## The default schedule -/

theorem reqEvents_keep (r : Req) : ∀ e ∈ r.events, KeepsMem e := by
  unfold Req.events
  split <;> simp only [List.mem_cons, List.not_mem_nil, or_false, forall_eq_or_imp, forall_eq, IsEmpty.forall_iff,
    implies_true]
  case h_4 st _ =>
    split
    · exact execStoreArrivalAtHome_keeps _
    · exact execPeerSpadRequest_keeps _
  case h_5 => exact ⟨execAtomicRequestAtHome_keeps _ _, execAtomicRequestAtHome_keeps _ _⟩
  case h_1 | h_3 => exact execLoadRequestAtHome_keeps _
  case h_2 | h_6 | h_9 => exact execPeerSpadRequest_keeps _
  case h_7 => exact execRowRequestAtHome_keeps _
  case h_8 => exact execQueueRequestAtSlice_keeps _
  case h_10 => exact execStaleReadSample_keeps _

theorem memoryMoves_keep (s : State) : ∀ e ∈ s.memoryMoves, KeepsMem e := by
  intro e he
  simp only [State.memoryMoves, List.mem_append, List.mem_map, List.mem_flatMap] at he
  obtain (⟨r, -, rfl⟩ | ⟨r, -, hr⟩) | ⟨⟨c, k⟩, -, (⟨i, -, rfl⟩ | ⟨i, -, rfl⟩) | ⟨i, -, rfl⟩⟩ := he
  · exact execSliceReply_keeps _
  · exact reqEvents_keep r e hr
  · exact execWriteThroughAck_keeps _ _
  · exact execStoreDrainSend_keeps _ _ _
  · exact execStoreDrainSend_keeps _ _ _

theorem engineMoves_keep (s : State) : ∀ e ∈ s.engineMoves, KeepsMem e := by
  intro e he
  simp only [State.engineMoves, List.mem_append, List.mem_map, List.mem_flatMap, List.mem_singleton] at he
  obtain ⟨⟨id, c⟩, -, ((rfl | ⟨i, -, rfl⟩) | ⟨i, -, rfl⟩) | rfl⟩ | ⟨⟨id, x⟩, -, (rfl | ⟨i, -, rfl⟩) | rfl⟩ := he
  · exact execCopyOwnershipAcquire_keeps _
  · exact execPresenceClearArrival_keeps _ _
  · exact execCopySectorLand_keeps _ _ _
  · exact execCopyResolve_keeps _
  · exact execInspectSnapshot_keeps _
  · exact execInspectArrival_keeps _ _
  · exact execInspectComplete_keeps _

theorem mailboxMoves_keep (p : Nat) : ∀ e ∈ [execDoorbellTlbInvalidate p, execDoorbellIcacheInvalidate p,
    execDoorbellTimeSliceOut p, execDoorbellTimeSliceIn p, execDoorbellResumeHalted p, execHostInspectComplete p false],
    KeepsMem e := by
  simp only [List.mem_cons, List.not_mem_nil, or_false, forall_eq_or_imp, forall_eq]
  exact ⟨execDoorbellTlbInvalidate_keeps _, execDoorbellIcacheInvalidate_keeps _, execDoorbellTimeSliceOut_keeps _,
    execDoorbellTimeSliceIn_keeps _, execDoorbellResumeHalted_keeps _, execHostInspectComplete_keeps _ _⟩

theorem deviceMoves_keep (s : State) : ∀ e ∈ s.deviceMoves, KeepsMem e := by
  intro e he
  simp only [State.deviceMoves, List.mem_append, List.mem_map, List.mem_flatMap] at he
  obtain ((⟨q, -, rfl⟩ | ⟨⟨p, x⟩, -, (hm | ⟨i, -, rfl⟩) | ⟨⟨k, y⟩, -, rfl⟩⟩) | ⟨n, -, hn⟩) | ha := he
  · exact execRecordResolution_keeps _
  · exact mailboxMoves_keep p e hm
  · exact execDoorbellActionComplete_keeps _ _
  · exact execHandlerWaveForm_keeps _ _ _
  · rw [List.mem_cons, List.mem_singleton] at hn
    obtain rfl | rfl := hn
    · exact execPortSendRequest_keeps _
    · exact execPortRecvPost_keeps _
  · split at ha
    · obtain rfl := List.mem_singleton.mp ha
      exact execAttestationReportDone_keeps
    · cases ha

theorem placeMoves_keep (s : State) (evict : Bool) : ∀ e ∈ s.placeMoves evict, KeepsMem e := by
  intro e he
  obtain hr | hc := List.mem_append.mp he
  · obtain ⟨⟨gid, g⟩, -, rfl⟩ := List.mem_map.mp hr
    exact execGroupRestore_keeps _ _
  · split at hc
    · obtain ⟨c, -, rfl⟩ := List.mem_map.mp hc
      exact execClaim_keeps _ _
    · cases hc

theorem formMoves_keep (s : State) : ∀ e ∈ s.formMoves, KeepsMem e := by
  intro e he
  obtain ⟨c, -, rfl⟩ := List.mem_map.mp he
  exact execBundleFormation_keeps _

theorem gatherMoves_keep (s : State) (aged : Bool) : ∀ e ∈ s.gatherMoves aged, KeepsMem e := by
  intro e he
  simp only [State.gatherMoves, List.mem_append, List.mem_map, List.mem_flatMap] at he
  obtain ⟨⟨c, k⟩, -, (⟨i, -, rfl⟩ | ⟨i, -, rfl⟩) | ⟨i, -, rfl⟩⟩ := he
  · exact execBinHoist_keeps _ _ _
  · exact execReorderSort_keeps _ _ _
  · exact execCalleeQueueDrain_keeps _ _ _

theorem agedMoves_keep (s : State) : ∀ e ∈ s.agedMoves, KeepsMem e := by
  intro e he
  simp only [State.agedMoves, List.mem_append, List.mem_map, List.mem_flatMap] at he
  obtain (hg | ⟨⟨p, x⟩, -, ⟨k, y⟩, -, rfl⟩) | hp := he
  · exact gatherMoves_keep s true e hg
  · exact execHandlerWaveForm_keeps _ _ _
  · exact placeMoves_keep s true e hp

theorem firstOf_memOk {s : State} (h : s.memOk) {es : List Event} (he : ∀ e ∈ es, KeepsMem e) {t : State}
    (ht : s.firstOf es = some t) : t.memOk := by
  induction es with
  | nil => cases ht
  | cons e es ih =>
    have ih := ih fun x hx => he x (List.mem_cons_of_mem _ hx)
    unfold State.firstOf at ht
    split at ht
    · next u hu =>
      split at ht
      · cases ht; exact he e List.mem_cons_self h hu
      · exact ih ht
    · exact ih ht

theorem firstAging_memOk {s t : State} (h : s.memOk) (e : (if s.turn % 64 == 63 then s.firstOf s.agedMoves else none).map
    (fun t => { t with turn := t.turn + 1 }) = some t) : t.memOk := by
  split at e
  · obtain ⟨u, hu, rfl⟩ := Option.map_eq_some_iff.mp e
    exact setTurn_memOk (firstOf_memOk h (agedMoves_keep s) hu) _
  · cases e

theorem firstDue_memOk {s t : State} (h : s.memOk) (e : s.firstDue = some t) : t.memOk := by
  unfold State.firstDue at e
  simp only [Option.orElse_eq_or, Option.or_eq_some_iff] at e
  obtain e | ⟨-, e | ⟨-, e | ⟨-, e | ⟨-, e | ⟨-, e | ⟨-, e⟩⟩⟩⟩⟩⟩ := e
  · exact firstOf_memOk h (memoryMoves_keep s) e
  · exact firstOf_memOk h (engineMoves_keep s) e
  · exact firstOf_memOk h (deviceMoves_keep s) e
  · exact firstOf_memOk h (placeMoves_keep s false) e
  · exact firstAging_memOk h e
  · exact firstOf_memOk h (gatherMoves_keep s false) e
  · exact firstOf_memOk h (formMoves_keep s) e

theorem firstAged_memOk {s t : State} (h : s.memOk) (e : s.firstAged = some t) : t.memOk := by
  unfold State.firstAged at e
  split at e
  · exact firstOf_memOk h (agedMoves_keep s) e
  · cases e

theorem auto_memOk {s t : State} (h : s.memOk) (e : s.auto = .event t) : t.memOk := by
  unfold State.auto at e
  split at e
  · next hd => cases e; exact firstDue_memOk h hd
  split at e
  · next ha => cases e; exact setTurn_memOk (firstAged_memOk h ha) _
  · cases e
  · cases e

/-! ## A step -/

theorem closeTurn_memOk {before t : State} {i : Instr} {o : Host.Outcome State Fault Refusal} (ho : ∀ u, o = .next u → u.memOk)
    (e : closeTurn before i o = .next t) : t.memOk := by
  cases o with
  | next u => cases e; exact endTurn_memOk before (ho u rfl) i
  | fault => cases e
  | refused => cases e

theorem issueTurn_keeps (c : Nat) (b : Bundle) : KeepsMem (issueTurn c b) := by
  intro s t h e
  have hf := front_memOk h c b
  unfold issueTurn at e
  split at e
  · next u hu =>
    rw [hu] at hf
    cases e
    exact setCur_memOk (turnOver_memOk (noteStall_memOk s hf c b) c b) _
  · next i u hu =>
    rw [hu] at hf
    exact closeTurn_memOk (fun _ e => exec_keeps i hf e) e

theorem makeMove_keeps (m : Move) : KeepsMem (makeMove m) := by
  intro s t h e
  cases m with
  | event i =>
    unfold makeMove at e
    dsimp only at e
    split at e
    · cases e; exact h
    · exact exec_keeps i h e
  | issue c k =>
    unfold makeMove at e
    dsimp only at e
    split at e
    · exact issueTurn_keeps c _ h e
    · cases e; exact h

theorem move_keeps : KeepsMem move := by
  intro s t h e
  unfold move at e
  split at e
  · exact issueTurn_keeps _ _ h e
  split at e
  · exact makeMove_keeps _ (setSchedule_memOk h _) e
  split at e
  · cases e; exact h
  split at e
  · next ha => cases e; exact auto_memOk h ha
  · exact makeMove_keeps _ (setTurn_memOk h _) e
  · cases e; exact h

theorem step_keeps : KeepsMem step := by
  intro s t h e
  unfold step at e
  cases hm : move s with
  | next u => rw [hm] at e; cases e; exact afterStep_memOk s (move_keeps h hm)
  | fault => rw [hm] at e; cases e
  | refused => rw [hm] at e; cases e

/-- Settles O60: the instruction or event that a step executes keeps the canonical form (`exec_keeps`), and so does what the
front end does before it and what follows it. -/
theorem stepKeepsMemory : Obligations.StepKeepsMemory := fun _ _ h e => step_keeps h e

end Sys2Proof.Machine
end

-- ==== Proofs: encodings (O56) ====
section
namespace Sys2Proof.Machine

/-! ## Bytes of a word -/

/-- The bytes of a bit vector, least significant first, are its slices of eight bits (R3). -/
theorem leBytes_eq_slices {n : Nat} (w : BitVec n) (k i : Nat) :
    leBytes k (w.toNat / 2 ^ (8 * i)) = (List.range k).map fun j => w.extractLsb' (8 * (i + j)) 8 := by
  induction k generalizing i with
  | zero => rfl
  | succ k ih =>
    have next : w.toNat / 2 ^ (8 * i) / 256 = w.toNat / 2 ^ (8 * (i + 1)) := by
      rw [Nat.div_div_eq_div_mul, Nat.mul_add, Nat.pow_add]
    have first : BitVec.ofNat 8 (w.toNat / 2 ^ (8 * i)) = w.extractLsb' (8 * i) 8 := by
      rw [BitVec.extractLsb', Nat.shiftRight_eq_div_pow]
    rw [leBytes, next, ih, List.range_succ_eq_map, List.map_cons, List.map_map, first]
    simp only [Function.comp_def, Nat.add_zero, Nat.succ_eq_add_one, Nat.add_assoc, Nat.add_comm 1]

/-- Four neighbouring bytes spell the word they stand in (R31). -/
theorem word32_slices {n : Nat} (w : BitVec n) (k : Nat) :
    word32 (w.extractLsb' k 8) (w.extractLsb' (k + 8) 8) (w.extractLsb' (k + 16) 8) (w.extractLsb' (k + 24) 8) =
      w.extractLsb' k 32 := by
  have join := fun (j l m : Nat) => @BitVec.extractLsb'_append_extractLsb'_eq_extractLsb' n (j + l) j l m w rfl
  exact (congrArg₂ (· ++ ·) ((congrArg₂ (· ++ ·) (join (k + 16) 8 8) rfl).trans (join (k + 8) 8 16)) rfl).trans (join k 8 24)

/-- The four bytes of a Sazil-D word. -/
theorem leBytes_word (w : Word) : ∃ b0 b1 b2 b3, leBytes 4 w.toNat = [b0, b1, b2, b3] ∧ word32 b0 b1 b2 b3 = w :=
  ⟨_, _, _, _, (congrArg (leBytes 4) (Nat.div_one w.toNat).symm).trans (leBytes_eq_slices w 4 0),
    (word32_slices w 0).trans BitVec.extractLsb'_eq_self⟩

/-- The eight bytes of a Sazil-L word. -/
theorem leBytes_dword (w : DWord) : ∃ b0 b1 b2 b3 c0 c1 c2 c3,
    leBytes 8 w.toNat = [b0, b1, b2, b3, c0, c1, c2, c3] ∧ word32 c0 c1 c2 c3 ++ word32 b0 b1 b2 b3 = w := by
  refine ⟨_, _, _, _, _, _, _, _,
    (congrArg (leBytes 8) (Nat.div_one w.toNat).symm).trans (leBytes_eq_slices w 8 0), ?_⟩
  exact (congrArg₂ (fun x y : Word => (x ++ y : DWord)) (word32_slices w 32) (word32_slices w 0)).trans
    BitVec.extractLsb'_append_extractLsb'

theorem leBytes_length (k x : Nat) : (leBytes k x).length = k := by
  induction k generalizing x with
  | zero => rfl
  | succ k ih => rw [leBytes, List.length_cons, ih]

/-! ## The decoder on whole words -/

/-- A full Sazil-D form is the eight bytes of its two words. -/
theorem decodeBytes_full {w0 : Word} (w1 : Word) (h : isFull w0 = true) (rest : List Byte) :
    decodeBytes .d (leBytes 4 w0.toNat ++ (leBytes 4 w1.toNat ++ rest)) = (decodeFull w0 w1).map (·, rest) := by
  obtain ⟨b0, b1, b2, b3, hb, rfl⟩ := leBytes_word w0
  obtain ⟨c0, c1, c2, c3, hc, rfl⟩ := leBytes_word w1
  rw [hb, hc]
  exact if_pos h

/-- A compact Sazil-D form is the four bytes of its word. -/
theorem decodeBytes_compact {w0 : Word} (h : isFull w0 = false) (rest : List Byte) :
    decodeBytes .d (leBytes 4 w0.toNat ++ rest) = (decodeCompact w0).map (·, rest) := by
  obtain ⟨b0, b1, b2, b3, hb, rfl⟩ := leBytes_word w0
  rw [hb]
  exact if_neg (by rw [h]; exact Bool.false_ne_true)

/-- A Sazil-L instruction is the eight bytes of its word. -/
theorem decodeBytes_long (w : DWord) (rest : List Byte) :
    decodeBytes .l (leBytes 8 w.toNat ++ rest) = (decodeL w).map (·, rest) := by
  obtain ⟨b0, b1, b2, b3, c0, c1, c2, c3, hb, rfl⟩ := leBytes_dword w
  rw [hb]
  rfl

theorem map_pair_ok {α ε : Type} {x : Except ε α} {i : α} {r s : List Byte} :
    x.map (·, r) = .ok (i, s) ↔ x = .ok i ∧ r = s := by
  cases x <;> simp [Except.map]

/-- What decodes stands in words of its own, which decode to it whatever follows them: two words of a full form, or one of a
compact form. -/
theorem decodeBytes_d_cases {bs rest : List Byte} {i : Instr} (h : decodeBytes .d bs = .ok (i, rest)) :
    (∃ w0 w1, isFull w0 = true ∧ decodeFull w0 w1 = .ok i ∧ ∃ w : List Byte, bs = w ++ rest ∧ w.length = 8 ∧
        ∀ more, decodeBytes .d (w ++ more) = .ok (i, more)) ∨
      ∃ w0, isFull w0 = false ∧ decodeCompact w0 = .ok i ∧ ∃ w : List Byte, bs = w ++ rest ∧ w.length = 4 ∧
        ∀ more, decodeBytes .d (w ++ more) = .ok (i, more) := by
  match bs, h with
  | b0 :: b1 :: b2 :: b3 :: tl, h =>
    cases full : isFull (word32 b0 b1 b2 b3) with
    | false =>
      have same : ∀ tl, decodeBytes .d (b0 :: b1 :: b2 :: b3 :: tl) = (decodeCompact (word32 b0 b1 b2 b3)).map (·, tl) :=
        fun tl => if_neg (by rw [full]; exact Bool.false_ne_true)
      rw [same, map_pair_ok] at h
      obtain ⟨hi, rfl⟩ := h
      exact .inr ⟨_, full, hi, [b0, b1, b2, b3], rfl, rfl, fun more => by
        rw [List.cons_append, List.cons_append, List.cons_append, List.cons_append, List.nil_append, same, hi]; rfl⟩
    | true =>
      match tl, h with
      | c0 :: c1 :: c2 :: c3 :: tl, h =>
        have same : ∀ tl, decodeBytes .d (b0 :: b1 :: b2 :: b3 :: c0 :: c1 :: c2 :: c3 :: tl) =
            (decodeFull (word32 b0 b1 b2 b3) (word32 c0 c1 c2 c3)).map (·, tl) := fun tl => if_pos full
        rw [same, map_pair_ok] at h
        obtain ⟨hi, rfl⟩ := h
        exact .inl ⟨_, _, full, hi, [b0, b1, b2, b3, c0, c1, c2, c3], rfl, rfl, fun more => by
          simp only [List.cons_append, List.nil_append, same, hi]; rfl⟩
      | [], h | [_], h | [_, _], h | [_, _, _], h => simp [decodeBytes, full] at h

/-- The same of the eight bytes of Sazil-L. -/
theorem decodeBytes_l_cases {bs rest : List Byte} {i : Instr} (h : decodeBytes .l bs = .ok (i, rest)) :
    ∃ x, decodeL x = .ok i ∧ ∃ w : List Byte, bs = w ++ rest ∧ w.length = 8 ∧
      ∀ more, decodeBytes .l (w ++ more) = .ok (i, more) := by
  match bs, h with
  | b0 :: b1 :: b2 :: b3 :: c0 :: c1 :: c2 :: c3 :: tl, h =>
    obtain ⟨hi, rfl⟩ := map_pair_ok.1 h
    exact ⟨_, hi, [b0, b1, b2, b3, c0, c1, c2, c3], rfl, rfl, fun more => map_pair_ok.2 ⟨hi, rfl⟩⟩

/-! ## The rows of the opcode map -/

/-- Kinds whose accepted codes fit the eight bits of a Sazil-D field (R40). -/
def byteKind : Kind → Bool
  | .idx | .uidx | .pairIdx | .special => false
  | .code n => n < 256
  | _ => true

/-- What holds of the numbers and kinds of every row: the numbers fit their bits and name an assigned class (R57), codes
fit a byte, and D, A and C are no index operands. -/
def regularRow (r : Row) : Bool :=
  classAssigned r.uniform r.op && r.fn < 16 && r.sizes.all (· < 8) && byteKind r.c
    && (byteKind r.d || r.d == .special) && (byteKind r.a || r.a == .special)

/-- A row whose fields no function of its own judges or changes: the kinds bound every field. -/
def plainRow (r : Row) : Bool :=
  byteKind r.d && byteKind r.a && (if r.indexB then r.b.isIndex else byteKind r.b)

/-- The rows, by what judges their fields: those with a field that a function of the row's own judges or corrects, one by
one, and all others. -/
inductive RowCase : Row → Prop
  | pmov : RowCase Rows.pmov
  | deq : RowCase Rows.deq
  | qtry : RowCase Rows.qtry
  | reorder : RowCase Rows.reorder
  | meld : RowCase Rows.meld
  | mtbl : RowCase Rows.mtbl
  | mma : RowCase Rows.mma
  | mmaq : RowCase Rows.mmaq
  | mmao : RowCase Rows.mmao
  | mmas : RowCase Rows.mmas
  | bshare : RowCase Rows.bshare
  | inspect : RowCase Rows.inspect
  | inspectf : RowCase Rows.inspectf
  | ursr : RowCase Rows.ursr
  | bra : RowCase Rows.bra
  | plain (r : Row) (fixes : r.fix = fun f => f) (kinds : plainRow r = true) : RowCase r

/-- A row builds the instruction whose row and fields are the ones it was given. -/
def BuildsOwn (r : Row) : Prop :=
  match r.layout with
  | .r => ∃ c, r.build = Row.mkR c ∧ ∀ f, (c f).row? = some (r, .r f)
  | .i16 => ∃ c, r.build = Row.mkI c ∧ ∀ f, (c f).row? = some (r, .i16 f)
  | .i24 => ∃ c, r.build = Row.mkL c ∧ ∀ f, (c f).row? = some (r, .i24 f)
  | .m => ∃ c, r.build = Row.mkM c ∧ ∀ f, (c f).row? = some (r, .m f)

theorem regularRow_all : Rows.all.all regularRow = true := by decide

theorem buildsOwn_all : Rows.all.Forall BuildsOwn := by
  repeat' apply And.intro
  all_goals exact ⟨_, rfl, fun _ => rfl⟩

theorem rowCase_all : Rows.all.Forall RowCase := by
  repeat' apply And.intro
  all_goals constructor <;> rfl

/-- The layout of a row and the fields it is given agree (R61). -/
def laidOut (r : Row) : Fields → Bool
  | .r _ => r.layout == .r
  | .i16 _ => r.layout == .i16
  | .i24 _ => r.layout == .i24
  | .m _ => r.layout == .m

/-- An instruction with a row is the one the row builds from its fields, and its numbers name the row. -/
theorem row?_spec {i : Instr} {r : Row} {f : Fields} (h : i.row? = some (r, f)) :
    Rows.find r.uniform r.op r.fn = some r ∧ r.build f = some i ∧ laidOut r f = true := by
  cases i <;> cases h <;> exact ⟨rfl, rfl, rfl⟩

theorem mem_of_find {u : Bool} {op fn : Nat} {r : Row} (h : Rows.find u op fn = some r) :
    r ∈ Rows.all ∧ r.op = op ∧ r.fn = fn := by
  have named := List.find?_some h
  simp only [Bool.and_eq_true, beq_iff_eq] at named
  have mem := List.mem_of_find?_eq_some h
  refine ⟨List.mem_append.2 ?_, named⟩
  cases u
  · exact .inl mem
  · exact .inr mem

theorem rowCase_of_mem {r : Row} (h : r ∈ Rows.all) : RowCase r := List.forall_iff_forall_mem.1 rowCase_all r h

theorem regularRow_of_mem {r : Row} (h : r ∈ Rows.all) : regularRow r = true := List.all_eq_true.1 regularRow_all r h

/-- Whatever a row builds has the row and the fields it was built from. -/
theorem row?_of_build {r : Row} (hr : r ∈ Rows.all) {f : Fields} {i : Instr} (h : r.build f = some i) :
    i.row? = some (r, f) := by
  have own := List.forall_iff_forall_mem.1 buildsOwn_all r hr
  unfold BuildsOwn at own
  split at own
  all_goals
    obtain ⟨c, hc, hown⟩ := own
    rw [hc] at h
    cases f <;> cases h
    exact hown _

/-- The compact operation of a top byte (R57), and the instruction it is of. -/
theorem compact?_of_compactOf {top : Nat} {f : CForm} {i : Instr} (h : compactOf top f = some i) :
    i.row? = none ∧ ∃ g, i.compact? = some (top, g) ∧ (top % 128 = 0x10 → g.b = 0) := by
  unfold compactOf at h
  split at h
  all_goals cases h
  all_goals exact ⟨rfl, _, rfl, by simp⟩

theorem compactOf_of_compact? {top : Nat} {f : CForm} {i : Instr} (h : i.compact? = some (top, f))
    (hb : top % 128 = 0x10 → f.b = 0) : i.row? = none ∧ compactOf top f = some i ∧ top < 256 ∧ top.testBit 6 = false := by
  cases i <;> cases h
  case movCompact => exact ⟨rfl, by obtain ⟨d, a, b⟩ := f; cases hb rfl; rfl, by decide⟩
  case umovCompact => exact ⟨rfl, by obtain ⟨d, a, b⟩ := f; cases hb rfl; rfl, by decide⟩
  all_goals exact ⟨rfl, rfl, by decide⟩

/-! ## Fields of a row -/

theorem zero_ne_noIndex : (0 : BitVec 10) ≠ noIndex := by decide

/-- Every field that a row does not use set to zero (R55), before the row's own correction. -/
def zeroed (r : Row) (f : Fields) : Fields := { r with fix := fun f => f }.normalise f

theorem normalise_eq (r : Row) (f : Fields) : r.normalise f = r.fix (zeroed r f) := by cases f <;> rfl

theorem zeroed_idem (r : Row) (f : Fields) : zeroed r (zeroed r f) = zeroed r f := by
  cases f with
  | r f =>
    obtain ⟨d, a, b, c, pred, ty, mx, hold, stall, yld⟩ := f
    simp only [zeroed, Row.normalise, Fields.r.injEq, RForm.mk.injEq, and_true, true_and]
    refine ⟨by split_ifs <;> rfl, ?a, by split_ifs <;> rfl, by split_ifs <;> rfl, by split_ifs <;> rfl,
      by rw [← Bool.and_assoc, Bool.and_self]⟩
    by_cases hb : r.b = .unused
    · simp only [hb, if_true, zero_ne_noIndex, and_false, if_false]
      split_ifs <;> rfl
    · split_ifs <;> simp [BitVec.and_assoc]
  | i16 f => simp only [zeroed, Row.normalise]; split_ifs <;> rfl
  | i24 f => simp only [zeroed, Row.normalise]; split_ifs <;> rfl
  | m f => simp only [zeroed, Row.normalise]; split_ifs <;> rfl

theorem pmovFix_idem (f : Fields) : pmovFix (pmovFix f) = pmovFix f := by
  cases f <;> simp only [pmovFix]
  split_ifs <;> simp_all

theorem bshareFix_idem (f : Fields) : bshareFix (bshareFix f) = bshareFix f := by
  cases f <;> simp only [bshareFix]
  split_ifs <;> simp_all

theorem inspectFix_r (f : RForm) : inspectFix (.r f) =
    .r { f with a := if inspectForm f = 6 then 0 else f.a, b := if inspectForm f = 3 ∨ 5 ≤ inspectForm f then 0 else f.b } := by
  by_cases ha : inspectForm f = 6 <;> by_cases hb : inspectForm f = 3 ∨ 5 ≤ inspectForm f <;>
    simp [inspectFix, ha, hb]

theorem inspectFix_idem (f : Fields) : inspectFix (inspectFix f) = inspectFix f := by
  cases f with
  | r f =>
    rw [inspectFix_r, inspectFix_r]
    by_cases ha : inspectForm f = 6 <;> by_cases hb : inspectForm f = 3 ∨ 5 ≤ inspectForm f <;>
      simp only [inspectForm] at ha hb <;> simp [inspectForm, ha, hb]
  | i16 | i24 | m => rfl

theorem deqFix_idem (f : Fields) : deqFix (deqFix f) = deqFix f := by
  cases f <;> simp [deqFix, BitVec.and_assoc]

theorem braFix_idem (f : Fields) : braFix (braFix f) = braFix f := by
  cases f <;> simp [braFix, BitVec.and_assoc]

/-- A correction that does not touch what the row leaves unused, and is made once for all, keeps the unused fields zero. -/
theorem normalise_idem_of {r : Row} (idem : ∀ f, r.fix (r.fix f) = r.fix f)
    (comm : ∀ f, zeroed r (r.fix f) = r.fix (zeroed r f)) (f : Fields) :
    r.normalise (r.normalise f) = r.normalise f := by
  rw [normalise_eq, normalise_eq, comm, zeroed_idem, idem]

/-- Setting the unused fields to zero once more changes nothing (R55). -/
theorem normalise_idem {r : Row} (hr : r ∈ Rows.all) (f : Fields) : r.normalise (r.normalise f) = r.normalise f := by
  cases rowCase_of_mem hr with
  | plain _ fixes _ => exact normalise_idem_of (by simp [fixes]) (by simp [fixes]) f
  | reorder | meld | mtbl | mma | mmaq | mmao | mmas | ursr => exact normalise_idem_of (fun _ => rfl) (fun _ => rfl) f
  | deq | qtry => exact normalise_idem_of deqFix_idem (fun f => by cases f <;> rfl) f
  | bra => exact normalise_idem_of braFix_idem (fun f => by cases f <;> rfl) f
  | pmov =>
    refine normalise_idem_of pmovFix_idem (fun f => ?_) f
    cases f <;> simp [Rows.pmov, zeroed, Row.normalise, pmovFix]
    split_ifs <;> rfl
  | bshare =>
    refine normalise_idem_of bshareFix_idem (fun f => ?_) f
    cases f <;> simp [Rows.bshare, zeroed, Row.normalise, bshareFix]
    split_ifs <;> rfl
  | inspect | inspectf =>
    refine normalise_idem_of inspectFix_idem (fun f => ?_) f
    cases f with
    | r f => simp only [Rows.inspect, Rows.inspectf, zeroed, Row.normalise, inspectFix_r]; rfl
    | i16 | i24 | m => rfl

/-! ## Accepted fields fit the bits of their encoding -/

theorem fieldsOk_r {r : Row} {e : Enc} {f : RForm} (h : r.fieldsOk e (.r f) = true) :
    r.d.ok e (wideType f.ty) 1 f.d = true ∧ r.a.ok e (wideType f.ty) 1 f.a = true ∧
      r.b.ok e (wideType f.ty) 1 f.b = true ∧ r.c.ok e (wideType f.ty) 1 f.c = true ∧
      (e = .l → f.hold = 0 ∧ f.stall = 0 ∧ f.yld = false) ∧ r.extra e (.r f) = true := by
  unfold Row.fieldsOk at h
  cases hl : r.layout <;> simp only [hl, Bool.false_and, Bool.false_eq_true] at h
  simp only [Bool.and_eq_true] at h
  obtain ⟨⟨⟨⟨⟨⟨⟨⟨⟨hd, ha⟩, hb⟩, hc⟩, -⟩, -⟩, -⟩, -⟩, hs⟩, hx⟩ := h
  exact ⟨hd, ha, hb, hc, fun he => by simpa [he, and_assoc] using hs, hx⟩

theorem fieldsOk_i16 {r : Row} {e : Enc} {f : I16Form} (h : r.fieldsOk e (.i16 f) = true) :
    r.d.ok e false 1 f.d = true ∧ r.a.ok e false 1 f.a = true ∧ r.extra e (.i16 f) = true := by
  unfold Row.fieldsOk at h
  cases hl : r.layout <;> simp only [hl, Bool.false_and, Bool.false_eq_true] at h
  simp only [Bool.and_eq_true] at h
  obtain ⟨⟨⟨⟨hd, ha⟩, -⟩, -⟩, hx⟩ := h
  exact ⟨hd, ha, hx⟩

theorem fieldsOk_i24 {r : Row} {e : Enc} {f : I24Form} (h : r.fieldsOk e (.i24 f) = true) :
    r.d.ok e false 1 f.d = true ∧ (e = .d → (f.imm.truncate 24).signExtend 32 = f.imm) ∧ r.extra e (.i24 f) = true := by
  unfold Row.fieldsOk at h
  cases hl : r.layout <;> simp only [hl, Bool.false_and, Bool.false_eq_true] at h
  simp only [Bool.and_eq_true] at h
  obtain ⟨⟨hd, hi⟩, hx⟩ := h
  exact ⟨hd, fun he => by simpa [he] using hi, hx⟩

theorem fieldsOk_m {r : Row} {e : Enc} {f : MForm} (h : r.fieldsOk e (.m f) = true) :
    f.size.toNat ∈ r.sizes ∧ r.d.ok e false (sizeRun f.size.toNat) f.d = true ∧
      (if r.uniform then Kind.uidx else Kind.idx).ok e false 1 f.idx = true ∧
      (e = .d → (f.off.truncate 16).signExtend 18 = f.off) ∧ r.extra e (.m f) = true := by
  unfold Row.fieldsOk at h
  cases hl : r.layout <;> simp only [hl, Bool.false_and, Bool.false_eq_true] at h
  simp only [Bool.and_eq_true, List.contains_iff_mem] at h
  obtain ⟨⟨⟨⟨⟨⟨hs, -⟩, hd⟩, hi⟩, -⟩, ho⟩, hx⟩ := h
  exact ⟨hs, hd, hi, fun he => by simpa [he] using ho, hx⟩

/-- An accepted Sazil-D code of a byte kind fits a byte (R40). -/
theorem lt_of_byteKind {k : Kind} {wide : Bool} {run : Nat} {x : BitVec 10} (hk : byteKind k = true)
    (h : k.ok .d wide run x = true) : x.toNat < 256 := by
  have codes : Enc.d.vecCodes = 256 := rfl
  cases k <;> simp [byteKind, Kind.ok] at hk h <;> omega

/-- So does one whose two upper bits Sazil-L ignores, in either encoding (R50). -/
theorem lt_of_narrow {k : Kind} {e : Enc} {wide : Bool} {run : Nat} {x : BitVec 10} (hk : byteKind k = true)
    (hn : k.narrow = true) (h : k.ok e wide run x = true) : x.toNat < 256 := by
  cases k <;> simp [byteKind, Kind.ok, Kind.narrow] at hk hn h <;> omega

/-- An index operand of Sazil-D is absent or has a code below 0xFF (R54). -/
theorem index_ok {k : Kind} {wide : Bool} {run : Nat} {x : BitVec 10} (hk : k.isIndex = true)
    (h : k.ok .d wide run x = true) : x = noIndex ∨ x.toNat < 255 := by
  have same : x.toNat = 1023 → x = noIndex := fun h => BitVec.eq_of_toNat_eq h
  have codes : Enc.d.vecCodes = 256 := rfl
  cases k <;> simp [Kind.isIndex, Kind.ok] at hk h
  all_goals exact h.imp same (by omega)

/-- The register codes of a form fit the bytes of Sazil-D. -/
def fitsD (r : Row) : Fields → Prop
  | .r f => f.d.toNat < 256 ∧ f.a.toNat < 256 ∧ f.c.toNat < 256 ∧
      if r.indexB then f.b = noIndex ∨ f.b.toNat < 255 else f.b.toNat < 256
  | .i16 f => f.d.toNat < 256 ∧ f.a.toNat < 256
  | .i24 f => f.d.toNat < 256
  | .m f => f.d.toNat < 256 ∧ (f.idx = noIndex ∨ f.idx.toNat < 255)

theorem fitsD_of_plain {r : Row} (hr : regularRow r = true) (hp : plainRow r = true) {f : Fields}
    (h : r.fieldsOk .d f = true) : fitsD r f := by
  simp only [plainRow, regularRow, Bool.and_eq_true] at hp hr
  obtain ⟨⟨kd, ka⟩, kb⟩ := hp
  obtain ⟨⟨⟨-, kc⟩, -⟩, -⟩ := hr
  cases f with
  | r f =>
    obtain ⟨hd, ha, hb, hc, -⟩ := fieldsOk_r h
    refine ⟨lt_of_byteKind kd hd, lt_of_byteKind ka ha, lt_of_byteKind kc hc, ?_⟩
    split
    · exact index_ok (by simpa [*] using kb) hb
    · exact lt_of_byteKind (by simpa [*] using kb) hb
  | i16 f =>
    obtain ⟨hd, ha, -⟩ := fieldsOk_i16 h
    exact ⟨lt_of_byteKind kd hd, lt_of_byteKind ka ha⟩
  | i24 f => exact lt_of_byteKind kd (fieldsOk_i24 h).1
  | m f =>
    obtain ⟨-, hd, hi, -⟩ := fieldsOk_m h
    exact ⟨lt_of_byteKind kd hd, index_ok (by split <;> rfl) hi⟩

/-- The fields that a row's own function judges fit too: each of those functions bounds them. -/
theorem fitsD_of_fieldsOk {r : Row} (hr : r ∈ Rows.all) {f : Fields} (h : r.fieldsOk .d f = true) : fitsD r f := by
  have codes : Enc.d.vecCodes = 256 := rfl
  have extra : r.extra .d f = true := (Bool.and_eq_true _ _ ▸ h).2
  cases rowCase_of_mem hr with
  | plain _ _ kinds => exact fitsD_of_plain (regularRow_of_mem hr) kinds h
  | deq | qtry => exact fitsD_of_plain rfl rfl h
  | ursr =>
    cases f <;> simp [Rows.ursr, ursrOk] at extra
    refine ⟨?_, lt_of_byteKind rfl (fieldsOk_i16 h).2.1⟩
    split at extra <;> omega
  | bra =>
    cases f <;> simp [Rows.bra, braOk] at extra
    exact Nat.lt_of_lt_of_le extra (by decide)
  | reorder | mma | mmaq | mmao | mmas =>
    cases f <;> simp [Rows.reorder, reorderOk, Rows.mma, Rows.mmaq, Rows.mmao, Rows.mmas, bSrcOk] at extra
    obtain ⟨hd, ha, -, hc, -⟩ := fieldsOk_r h
    exact ⟨lt_of_byteKind rfl hd, lt_of_byteKind rfl ha, lt_of_byteKind rfl hc, by show _ < 256; omega⟩
  | meld | mtbl =>
    cases f <;> simp [Rows.meld, meldOk, Rows.mtbl, mtblOk] at extra
    obtain ⟨hd, -, hb, hc, -⟩ := fieldsOk_r h
    exact ⟨lt_of_byteKind rfl hd, by split at extra <;> omega, lt_of_byteKind rfl hc, lt_of_byteKind rfl hb⟩
  | bshare =>
    cases f <;> simp [Rows.bshare, bshareOk] at extra
    obtain ⟨hd, -, hb, hc, -⟩ := fieldsOk_r h
    exact ⟨lt_of_byteKind rfl hd, by omega, lt_of_byteKind rfl hc, lt_of_byteKind rfl hb⟩
  | pmov =>
    cases f <;> simp [Rows.pmov, pmovOk] at extra
    obtain ⟨-, -, hb, hc, -⟩ := fieldsOk_r h
    exact ⟨by omega, by omega, lt_of_byteKind rfl hc, lt_of_byteKind rfl hb⟩
  | inspect | inspectf =>
    cases f <;> simp [Rows.inspect, Rows.inspectf, inspectOk] at extra
    obtain ⟨hd, -, -, hc, -⟩ := fieldsOk_r h
    obtain ⟨⟨-, ha⟩, hb⟩ := extra
    refine ⟨lt_of_byteKind rfl hd, ?_, lt_of_byteKind rfl hc, ?_⟩
    · split at ha
      · rw [ha]; decide
      · omega
    · show _ ∨ _
      split_ifs at hb
      · exact hb.imp_right (by omega)
      · exact .inr (by omega)
      · exact .inr (by rw [hb]; decide)

/-! ## Fields of the words (R32, R36 to R39, R50 to R52) -/

theorem word0_fields (r : Row) (d a b : BitVec 8) :
    (r.word0 d a b).getLsbD 31 = r.uniform ∧ isFull (r.word0 d a b) = true ∧
      (r.word0 d a b).extractLsb' 24 6 = BitVec.ofNat 6 r.op ∧ (r.word0 d a b).extractLsb' 16 8 = d ∧
      (r.word0 d a b).extractLsb' 8 8 = a ∧ (r.word0 d a b).extractLsb' 0 8 = b := by
  simp (disch := decide) only [isFull, Row.word0, BitVec.extractLsb'_append_eq_of_le,
    BitVec.extractLsb'_append_eq_of_add_le, BitVec.getLsbD_append, Nat.reduceSub]
  simp

theorem regWord_fields (fn c : BitVec 8) (pred : BitVec 4) (hold : BitVec 2) (stall : BitVec 3) (yld mx : Bool)
    (ty : BitVec 5) :
    let w := fn ++ c ++ pred ++ hold ++ stall ++ BitVec.ofBool yld ++ BitVec.ofBool mx ++ ty
    w.extractLsb' 24 8 = fn ∧ w.extractLsb' 16 8 = c ∧ w.extractLsb' 12 4 = pred ∧ w.extractLsb' 10 2 = hold ∧
      w.extractLsb' 7 3 = stall ∧ w.getLsbD 6 = yld ∧ w.getLsbD 5 = mx ∧ w.extractLsb' 0 5 = ty := by
  simp (disch := decide) only [BitVec.extractLsb'_append_eq_of_le,
    BitVec.extractLsb'_append_eq_of_add_le, BitVec.getLsbD_append, Nat.reduceSub]
  simp

theorem immWord_fields (fn : BitVec 8) (pred : BitVec 4) (imm : BitVec 16) (mod4 : BitVec 4) :
    let w := fn ++ pred ++ imm ++ mod4
    w.extractLsb' 24 8 = fn ∧ w.extractLsb' 20 4 = pred ∧ w.extractLsb' 4 16 = imm ∧ w.extractLsb' 0 4 = mod4 := by
  simp (disch := decide) only [BitVec.extractLsb'_append_eq_of_le, BitVec.extractLsb'_append_eq_of_add_le,
    Nat.reduceSub, BitVec.extractLsb'_eq_self, and_self]

theorem memWord_fields (fn : BitVec 8) (pred size : BitVec 4) (off : BitVec 16) :
    let w := fn ++ pred ++ size ++ off
    w.extractLsb' 24 8 = fn ∧ w.extractLsb' 20 4 = pred ∧ w.extractLsb' 16 4 = size ∧ w.extractLsb' 0 16 = off := by
  simp (disch := decide) only [BitVec.extractLsb'_append_eq_of_le, BitVec.extractLsb'_append_eq_of_add_le,
    Nat.reduceSub, BitVec.extractLsb'_eq_self, and_self]

theorem addrByte_fields (areg : BitVec 4) (scale order : BitVec 2) :
    let a := areg ++ scale ++ order
    a.extractLsb' 4 4 = areg ∧ a.extractLsb' 2 2 = scale ∧ a.extractLsb' 0 2 = order := by
  simp (disch := decide) only [BitVec.extractLsb'_append_eq_of_le, BitVec.extractLsb'_append_eq_of_add_le,
    Nat.reduceSub, BitVec.extractLsb'_eq_self, and_self]

/-- A code below 256 comes back from its byte. -/
theorem widen_narrow {x : BitVec 10} (h : x.toNat < 256) : (x.setWidth 8).setWidth 10 = x := by
  apply BitVec.eq_of_toNat_eq
  simp only [BitVec.toNat_setWidth]
  omega

/-- An index operand comes back from its byte, where 0xFF is the absent one (R54). -/
theorem wideCode_narrow {x : BitVec 10} (h : x = noIndex ∨ x.toNat < 255) : wideCode true (x.setWidth 8) = x := by
  rcases h with rfl | h
  · decide
  · have ne : x.setWidth 8 ≠ 0xFF := fun e => by
      have := congrArg BitVec.toNat e
      simp only [BitVec.toNat_setWidth, BitVec.reduceToNat] at this
      omega
    rw [wideCode, if_neg (by simpa using ne), widen_narrow (by omega)]

theorem wideCode_reg {x : BitVec 10} (h : x.toNat < 256) : wideCode false (x.setWidth 8) = x := widen_narrow h

/-- The fields of a Sazil-D form are read back from its words. -/
theorem readD_encodeD {r : Row} {f : Fields} (hl : laidOut r f = true) (hf : r.fieldsOk .d f = true) (fit : fitsD r f) :
    r.readD (r.encodeD f).1 (r.encodeD f).2 = f := by
  cases f with
  | r f =>
    obtain ⟨hd, ha, hc, hb⟩ := fit
    obtain ⟨-, -, -, wd, wa, wb⟩ := word0_fields r (f.d.setWidth 8) (f.a.setWidth 8) (f.b.setWidth 8)
    obtain ⟨-, vc, vp, vh, vs, vy, vm, vt⟩ :=
      regWord_fields (BitVec.ofNat 8 r.fn) (f.c.setWidth 8) f.pred f.hold f.stall f.yld f.mx f.ty
    have b : wideCode r.indexB (f.b.setWidth 8) = f.b := by
      cases hi : r.indexB <;> simp only [hi, if_true, if_false, Bool.false_eq_true] at hb
      · exact wideCode_reg hb
      · exact wideCode_narrow hb
    simp only [Row.readD, Row.encodeD, eq_of_beq hl, wd, wa, wb, widen_narrow hd, widen_narrow ha, b]
    simp only [vc, vp, vh, vs, vy, vm, vt, widen_narrow hc]
  | i16 f =>
    obtain ⟨hd, ha⟩ := fit
    obtain ⟨-, -, -, wd, wa, -⟩ := word0_fields r (f.d.setWidth 8) (f.a.setWidth 8) 0
    obtain ⟨-, vp, vi, vm⟩ := immWord_fields (BitVec.ofNat 8 r.fn) f.pred f.imm f.mod4
    simp only [Row.readD, Row.encodeD, eq_of_beq hl, wd, wa, vp, vi, vm, widen_narrow hd, widen_narrow ha]
  | i24 f =>
    obtain ⟨-, -, -, wd, -⟩ := word0_fields r (f.d.setWidth 8) 0 0
    have vi : (BitVec.ofNat 8 r.fn ++ f.imm.setWidth 24).extractLsb' 0 24 = f.imm.setWidth 24 :=
      BitVec.extractLsb'_append_eq_right
    have imm := (fieldsOk_i24 hf).2.1 rfl
    simp only [Row.readD, Row.encodeD, eq_of_beq hl, wd, vi, widen_narrow fit]
    exact congrArg (fun i => Fields.i24 { f with imm := i }) imm
  | m f =>
    obtain ⟨hd, hi⟩ := fit
    obtain ⟨-, -, -, wd, wa, wb⟩ := word0_fields r (f.d.setWidth 8) (f.areg ++ f.scale ++ f.order) (f.idx.setWidth 8)
    obtain ⟨va, vs, vo⟩ := addrByte_fields f.areg f.scale f.order
    obtain ⟨-, vp, vz, vf⟩ := memWord_fields (BitVec.ofNat 8 r.fn) f.pred f.size (f.off.setWidth 16)
    have off := (fieldsOk_m hf).2.2.2.1 rfl
    simp only [Row.readD, Row.encodeD, eq_of_beq hl, wd, wa, wb, vp, vz, vf, widen_narrow hd, wideCode_narrow hi]
    simp only [va, vs, vo]
    exact congrArg (fun o => Fields.m { f with off := o }) off

theorem longReg_fields (u mx : Bool) (op : BitVec 6) (fn : BitVec 7) (d a b c : BitVec 10) (pred : BitVec 4) (ty : BitVec 5) :
    let w := BitVec.ofBool u ++ op ++ BitVec.ofBool mx ++ fn ++ d ++ a ++ b ++ c ++ pred ++ ty
    w.getLsbD 63 = u ∧ w.extractLsb' 57 6 = op ∧ w.getLsbD 56 = mx ∧ w.extractLsb' 53 3 = fn.extractLsb' 4 3 ∧
      w.extractLsb' 49 4 = fn.extractLsb' 0 4 ∧ w.extractLsb' 39 10 = d ∧ w.extractLsb' 29 10 = a ∧
      w.extractLsb' 19 10 = b ∧ w.extractLsb' 9 10 = c ∧ w.extractLsb' 5 4 = pred ∧ w.extractLsb' 0 5 = ty := by
  simp (disch := decide) only [BitVec.extractLsb'_append_eq_of_le, BitVec.extractLsb'_append_eq_of_add_le,
    BitVec.getLsbD_append, Nat.reduceSub]
  simp
theorem longImm_fields (u : Bool) (op : BitVec 6) (m3 : BitVec 1) (fn : BitVec 7) (d : BitVec 10) (pred : BitVec 4)
    (m : BitVec 3) (imm : BitVec 32) :
    let w := BitVec.ofBool u ++ op ++ m3 ++ fn ++ d ++ pred ++ m ++ imm
    w.getLsbD 63 = u ∧ w.extractLsb' 57 6 = op ∧ w.extractLsb' 56 1 = m3 ∧ w.extractLsb' 53 3 = fn.extractLsb' 4 3 ∧
      w.extractLsb' 49 4 = fn.extractLsb' 0 4 ∧ w.extractLsb' 39 10 = d ∧ w.extractLsb' 35 4 = pred ∧
      w.extractLsb' 32 3 = m ∧ w.extractLsb' 0 32 = imm := by
  simp (disch := decide) only [BitVec.extractLsb'_append_eq_of_le, BitVec.extractLsb'_append_eq_of_add_le,
    BitVec.getLsbD_append, Nat.reduceSub]
  simp
theorem longMem_fields (u : Bool) (op : BitVec 6) (hi fn : BitVec 4) (d : BitVec 10) (areg : BitVec 4) (scale order : BitVec 2)
    (idx : BitVec 10) (pred : BitVec 4) (size : BitVec 3) (lo : BitVec 14) :
    let w := BitVec.ofBool u ++ op ++ hi ++ fn ++ d ++ areg ++ scale ++ order ++ idx ++ pred ++ size ++ lo
    w.getLsbD 63 = u ∧ w.extractLsb' 57 6 = op ∧ w.extractLsb' 53 4 = hi ∧ w.extractLsb' 49 4 = fn ∧
      w.extractLsb' 39 10 = d ∧ w.extractLsb' 35 4 = areg ∧ w.extractLsb' 33 2 = scale ∧ w.extractLsb' 31 2 = order ∧
      w.extractLsb' 21 10 = idx ∧ w.extractLsb' 17 4 = pred ∧ w.extractLsb' 14 3 = size ∧ w.extractLsb' 0 14 = lo := by
  simp (disch := decide) only [BitVec.extractLsb'_append_eq_of_le, BitVec.extractLsb'_append_eq_of_add_le,
    BitVec.getLsbD_append, Nat.reduceSub]
  simp

/-- A function number below 16 leaves the three bits above it zero in the seven bits of its field (R61). -/
theorem function_bits {n : Nat} (h : n < 16) : (BitVec.ofNat 7 n).extractLsb' 4 3 = 0 ∧
    ((BitVec.ofNat 7 n).extractLsb' 0 4).toNat = n := by
  constructor
  · apply BitVec.eq_of_toNat_eq
    simp [Nat.shiftRight_eq_div_pow]
    omega
  · simp
    omega

theorem narrowCode_of_lt {k : Kind} {x : BitVec 10} (h : k.narrow = true → x.toNat < 256) : narrowCode k x = x := by
  unfold narrowCode
  split
  · next hk =>
    apply BitVec.eq_of_toNat_eq
    rw [BitVec.toNat_and]
    exact Nat.and_two_pow_sub_one_of_lt_two_pow (n := 8) (h hk)
  · rfl

/-- The extension of a 16-bit immediate that the row takes (R51). -/
def extended (signed : Bool) (imm : BitVec 16) : Word := if signed then imm.signExtend 32 else imm.setWidth 32

theorem extended_low (signed : Bool) (imm : BitVec 16) : (extended signed imm).extractLsb' 0 16 = imm := by
  ext i hi
  have wide : i < 32 := Nat.lt_trans hi (by decide)
  cases signed <;> simp [extended, BitVec.getElem_signExtend, hi, wide]

theorem immFits_iff {signed : Bool} {field : Word} {bits : Nat} : immFits signed field bits = true ↔
    (extended signed (field.extractLsb' 0 16)).extractLsb' 0 bits = field.extractLsb' 0 bits := beq_iff_eq

/-- The low 16 bits of the immediate field are the immediate, and the rest its extension, or A and its extension (R51). -/
theorem imm32_fields (r : Row) (f : I16Form) (ha : r.a = .unused → f.a = 0) :
    immFits r.signed (r.imm32 f) (if r.a != .unused then 22 else 32) = true ∧ (r.imm32 f).extractLsb' 0 16 = f.imm ∧
      (if r.a != .unused then (r.imm32 f).extractLsb' 22 10 else 0) = f.a := by
  have ext := extended_low r.signed f.imm
  cases hu : r.a != .unused with
  | false =>
    have field : r.imm32 f = extended r.signed f.imm := by
      simp only [Row.imm32, hu, Bool.false_eq_true, if_false, extended]
    simp only [Bool.false_eq_true, if_false, immFits_iff, field, ext, true_and]
    exact (ha (by simpa using hu)).symm
  | true =>
    have field : r.imm32 f = f.a ++ (extended r.signed f.imm).setWidth 22 := by
      simp only [Row.imm32, hu, if_true, extended]
    have low : (r.imm32 f).extractLsb' 0 22 = (extended r.signed f.imm).extractLsb' 0 22 := by
      rw [field, ← BitVec.setWidth_eq_extractLsb' (by decide)]; exact BitVec.extractLsb'_append_eq_right
    have imm : (r.imm32 f).extractLsb' 0 16 = f.imm := 
      (BitVec.extractLsb'_extractLsb'_of_le (show 0 + 16 ≤ 22 by decide)).symm.trans
        (by rw [low, BitVec.extractLsb'_extractLsb'_of_le (by decide), ext])
    have high : (r.imm32 f).extractLsb' 22 10 = f.a := by rw [field]; exact BitVec.extractLsb'_append_eq_left
    simp only [if_true, immFits_iff, imm, low, high, and_self]

/-- A row's numbers and codes, one by one. -/
theorem regularRow_spec {r : Row} (h : regularRow r = true) : classAssigned r.uniform r.op = true ∧ r.fn < 16 ∧
    (∀ n ∈ r.sizes, n < 8) ∧ byteKind r.c = true ∧ (byteKind r.d = true ∨ r.d = .special) ∧
    (byteKind r.a = true ∨ r.a = .special) := by
  simpa [regularRow, and_assoc] using h

theorem op_of_ofNat {u : Bool} {op : Nat} (h : classAssigned u op = true) : (BitVec.ofNat 6 op).toNat = op := by
  have : op ≤ 48 := by
    simp only [classAssigned, Bool.and_eq_true, decide_eq_true_eq] at h
    exact h.2.trans (by split <;> decide)
  simp
  omega

/-- An accepted A or C of a register form keeps its code where Sazil-L ignores two bits (R50). -/
theorem narrowCode_ok {k : Kind} {e : Enc} {wide : Bool} {run : Nat} {x : BitVec 10}
    (hk : byteKind k = true ∨ k = .special) (h : k.ok e wide run x = true) : narrowCode k x = x := by
  refine narrowCode_of_lt fun hn => ?_
  rcases hk with hk | rfl
  · exact lt_of_narrow hk hn h
  · cases hn

theorem a_zero_of_unused {r : Row} {e : Enc} {f : I16Form} (h : r.fieldsOk e (.i16 f) = true) (ha : r.a = .unused) :
    f.a = 0 := by
  have ok := (fieldsOk_i16 h).2.1
  rw [ha] at ok
  exact BitVec.eq_of_toNat_eq (eq_of_beq ok)

/-- A Sazil-L word of accepted fields reads as the row's instruction (R62). -/
theorem decodeL_encodeL {r : Row} {f : Fields} (hr : r ∈ Rows.all) (found : Rows.find r.uniform r.op r.fn = some r)
    (hl : laidOut r f = true) (hf : r.fieldsOk .l f = true) : decodeL (r.encodeL f) = r.finish .l f := by
  obtain ⟨hop, hfn, hz, kc, -, ka⟩ := regularRow_spec (regularRow_of_mem hr)
  have op := op_of_ofNat hop
  obtain ⟨rest, fn⟩ := function_bits hfn
  cases f with
  | r f =>
    obtain ⟨-, oa, -, oc, hs, -⟩ := fieldsOk_r hf
    obtain ⟨h1, h2, h3⟩ := hs rfl
    obtain ⟨wu, wo, wm, wr, wf, wd, wa, wb, wc, wp, wt⟩ := longReg_fields r.uniform f.mx (BitVec.ofNat 6 r.op)
      (BitVec.ofNat 7 r.fn) f.d f.a f.b f.c f.pred f.ty
    have back : r.readLR (r.encodeL (.r f)) = .r f := by
      simp only [Row.readLR, Row.encodeL, wd, wa, wb, wc, wp, wm, wt]
      rw [narrowCode_ok ka oa, narrowCode_ok (.inl kc) oc, ← h1, ← h2, ← h3]
    simp only [Row.encodeL] at back
    simp only [decodeL, Row.encodeL, wu, wo, op, hop, if_true, wf, fn, found, eq_of_beq hl, wr, rest, beq_self_eq_true, back]
  | i16 f =>
    obtain ⟨wu, wo, wm, wr, wf, wd, wp, wn, wi⟩ := longImm_fields r.uniform (BitVec.ofNat 6 r.op)
      (f.mod4.extractLsb' 3 1) (BitVec.ofNat 7 r.fn) f.d f.pred (f.mod4.extractLsb' 0 3) (r.imm32 f)
    obtain ⟨fits, imm, a⟩ := imm32_fields r f (a_zero_of_unused hf)
    have mod4 : f.mod4.extractLsb' 3 1 ++ f.mod4.extractLsb' 0 3 = f.mod4 := BitVec.extractLsb'_append_extractLsb'
    have back : r.readLI (r.encodeL (.i16 f)) = .ok (.i16 f) := by
      simp only [Row.readLI, Row.encodeL, wd, wp, wm, wn, wi, fits, imm, a, mod4, if_true]
    simp only [Row.encodeL] at back
    simp only [decodeL, Row.encodeL, wu, wo, op, hop, if_true, wf, fn, found, eq_of_beq hl, wr, rest, beq_self_eq_true, back]
  | i24 f =>
    obtain ⟨wu, wo, -, wr, wf, wd, wp, -, wi⟩ := longImm_fields r.uniform (BitVec.ofNat 6 r.op) 0 (BitVec.ofNat 7 r.fn)
      f.d 7 0 f.imm
    simp only [decodeL, Row.encodeL, wu, wo, op, hop, if_true, wf, fn, found, eq_of_beq hl, wr, rest, beq_self_eq_true,
      wp, wd, wi]
  | m f =>
    obtain ⟨wu, wo, wh, wf, wd, wa, ws, wr, wi, wp, wz, wl⟩ := longMem_fields r.uniform (BitVec.ofNat 6 r.op)
      (f.off.extractLsb' 14 4) (BitVec.ofNat 4 r.fn) f.d f.areg f.scale f.order f.idx f.pred (f.size.setWidth 3)
      (f.off.extractLsb' 0 14)
    have fn4 : (BitVec.ofNat 4 r.fn).toNat = r.fn := Nat.mod_eq_of_lt hfn
    have off : f.off.extractLsb' 14 4 ++ f.off.extractLsb' 0 14 = f.off := BitVec.extractLsb'_append_extractLsb'
    have size : (f.size.setWidth 3).setWidth 4 = f.size := by
      apply BitVec.eq_of_toNat_eq
      have := hz _ (fieldsOk_m hf).1
      simp only [BitVec.toNat_setWidth]
      omega
    have back : Row.readLM (r.encodeL (.m f)) = .m f := by
      simp only [Row.readLM, Row.encodeL, wh, wd, wa, ws, wr, wi, wp, wz, wl, size, off]
    simp only [Row.encodeL] at back
    simp only [decodeL, Row.encodeL, wu, wo, op, hop, if_true, wf, fn4, found, eq_of_beq hl, back]

/-- The words of accepted Sazil-D fields read as the row's instruction (R62). -/
theorem decodeFull_encodeD {r : Row} {f : Fields} (hr : r ∈ Rows.all) (found : Rows.find r.uniform r.op r.fn = some r)
    (hl : laidOut r f = true) (hf : r.fieldsOk .d f = true) :
    isFull (r.encodeD f).1 = true ∧ decodeFull (r.encodeD f).1 (r.encodeD f).2 = r.finish .d f := by
  obtain ⟨hop, hfn, -⟩ := regularRow_spec (regularRow_of_mem hr)
  have op := op_of_ofNat hop
  have fn : (BitVec.ofNat 8 r.fn).toNat = r.fn := Nat.mod_eq_of_lt (Nat.lt_trans hfn (by decide))
  have head : ∃ d a b, (r.encodeD f).1 = r.word0 d a b := by cases f <;> exact ⟨_, _, _, rfl⟩
  have tail : (r.encodeD f).2.extractLsb' 24 8 = BitVec.ofNat 8 r.fn := by
    cases f with
    | r f => exact (regWord_fields _ _ _ _ _ _ _ _).1
    | i16 f => exact (immWord_fields _ _ _ _).1
    | i24 f => exact BitVec.extractLsb'_append_eq_left
    | m f => exact (memWord_fields _ _ _ _).1
  have back := readD_encodeD hl hf (fitsD_of_fieldsOk hr hf)
  obtain ⟨d, a, b, hw⟩ := head
  obtain ⟨wu, full, wo, -⟩ := word0_fields r d a b
  rw [hw] at back ⊢
  refine ⟨full, ?_⟩
  simp only [decodeFull, wu, wo, op, hop, if_true, tail, fn, found, back]

/-! ## Rows finished, and compact forms -/

/-- Accepted fields with the unused ones zero build their instruction. -/
theorem finish_of_wf {r : Row} {e : Enc} {f : Fields} {i : Instr} (hf : r.fieldsOk e f = true) (hn : r.normalise f = f)
    (hb : r.build f = some i) : r.finish e f = .ok i := by
  simp only [Row.finish, hn, hf, if_true, hb]

/-- What a row finishes is well formed and has the row (R55, R62). -/
theorem wf_of_finish {r : Row} (hr : r ∈ Rows.all) {e : Enc} {f : Fields} {i : Instr} (h : r.finish e f = .ok i) :
    ∃ g, i.row? = some (r, g) ∧ i.wf e = true := by
  simp only [Row.finish] at h
  split at h
  · next ok =>
    split at h
    · next j hb =>
      cases h
      have row := row?_of_build hr hb
      exact ⟨_, row, by simp only [Instr.wf, row, ok, normalise_idem hr, beq_self_eq_true, Bool.and_self]⟩
    · cases h
  · cases h

theorem compactWord_fields (top d a b : BitVec 8) :
    let w := top ++ d ++ a ++ b
    w.getLsbD 30 = top.getLsbD 6 ∧ w.extractLsb' 24 8 = top ∧ w.extractLsb' 16 8 = d ∧ w.extractLsb' 8 8 = a ∧
      w.extractLsb' 0 8 = b := by
  simp (disch := decide) only [BitVec.extractLsb'_append_eq_of_le, BitVec.extractLsb'_append_eq_of_add_le,
    BitVec.getLsbD_append, Nat.reduceSub]
  simp

/-- A compact word reads as its instruction (R34, R57). -/
theorem decodeCompact_encode {top : Nat} {f : CForm} {i : Instr} (hi : compactOf top f = some i) (ht : top < 256)
    (hx : top.testBit 6 = false) :
    isFull (BitVec.ofNat 8 top ++ f.d ++ f.a ++ f.b) = false ∧
      decodeCompact (BitVec.ofNat 8 top ++ f.d ++ f.a ++ f.b) = .ok i := by
  obtain ⟨wx, wt, wd, wa, wb⟩ := compactWord_fields (BitVec.ofNat 8 top) f.d f.a f.b
  have t : (BitVec.ofNat 8 top).toNat = top := Nat.mod_eq_of_lt ht
  refine ⟨wx.trans ?_, ?_⟩
  · rw [BitVec.getLsbD_ofNat, hx, Bool.and_false]
  · simp only [decodeCompact, wt, wd, wa, wb, t, hi]

/-! ## Both directions -/

/-- A well-formed instruction has a row whose fields are accepted, or is a compact form of Sazil-D. -/
theorem wf_cases {e : Enc} {i : Instr} (h : i.wf e = true) :
    (∃ r f, i.row? = some (r, f) ∧ r.fieldsOk e f = true ∧ r.normalise f = f) ∨
      e = .d ∧ i.row? = none ∧ ∃ top f, i.compact? = some (top, f) ∧ (top % 128 = 0x10 → f.b = 0) := by
  unfold Instr.wf at h
  split at h
  · next r f hr =>
    simp only [Bool.and_eq_true, beq_iff_eq] at h
    exact .inl ⟨r, f, hr, h⟩
  · next hr =>
    split at h
    · next top f hc =>
      simp only [Bool.and_eq_true, Bool.or_eq_true, beq_iff_eq, bne_iff_ne] at h
      exact .inr ⟨h.1, hr, top, f, hc, fun ht => h.2.resolve_left fun hn => hn ht⟩
    · cases h

theorem decodeBytes_encode {e : Enc} {i : Instr} (rest : List Byte) (h : i.wf e = true) :
    decodeBytes e (encode e i ++ rest) = .ok (i, rest) := by
  rcases wf_cases h with ⟨r, f, row, ok, norm⟩ | ⟨rfl, row, top, f, comp, hb⟩
  · obtain ⟨found, built, laid⟩ := row?_spec row
    have hr := (mem_of_find found).1
    have fin := finish_of_wf ok norm built
    cases e with
    | d =>
      obtain ⟨full, dec⟩ := decodeFull_encodeD hr found laid ok
      simp only [encode, encodeD, row, List.flatMap_cons, List.flatMap_nil, List.append_nil, List.append_assoc]
      rw [decodeBytes_full _ full, dec, fin]
      rfl
    | l =>
      simp only [encode, encodeL, row, Option.map_some]
      rw [decodeBytes_long, decodeL_encodeL hr found laid ok, fin]
      rfl
  · obtain ⟨-, op, lt, bit⟩ := compactOf_of_compact? comp hb
    obtain ⟨full, dec⟩ := decodeCompact_encode op lt bit
    simp only [encode, encodeD, row, comp, List.flatMap_cons, List.flatMap_nil, List.append_nil]
    exact (decodeBytes_compact full rest).trans (congrArg (Except.map (·, rest)) dec)

theorem wf_of_decodeFull {w0 w1 : Word} {i : Instr} (h : decodeFull w0 w1 = .ok i) :
    ∃ r g, i.row? = some (r, g) ∧ i.wf .d = true := by
  simp only [decodeFull] at h
  split at h
  · split at h
    · next r found => exact ⟨r, wf_of_finish (mem_of_find found).1 h⟩
    · cases h
  · cases h

theorem wf_of_decodeL {w : DWord} {i : Instr} (h : decodeL w = .ok i) : ∃ r g, i.row? = some (r, g) ∧ i.wf .l = true := by
  simp only [decodeL] at h
  split at h
  · split at h
    · next r found =>
      have fin : ∃ f, r.finish .l f = .ok i := by
        split at h
        · exact ⟨_, h⟩
        · split at h
          · exact ⟨_, h⟩
          · cases h
        · split at h
          · split at h
            · exact ⟨_, h⟩
            · cases h
          · cases h
        · split at h
          · split at h
            · exact ⟨_, h⟩
            · cases h
          · cases h
      obtain ⟨f, fin⟩ := fin
      exact ⟨r, wf_of_finish (mem_of_find found).1 fin⟩
    · cases h
  · cases h

theorem wf_of_decodeCompact {w : Word} {i : Instr} (h : decodeCompact w = .ok i) :
    i.row? = none ∧ (∃ x, i.compact? = some x) ∧ i.wf .d = true := by
  simp only [decodeCompact] at h
  split at h
  · next j op =>
    cases h
    obtain ⟨row, g, comp, hb⟩ := compact?_of_compactOf op
    refine ⟨row, ⟨_, comp⟩, ?_⟩
    simp only [Instr.wf, row, comp, beq_self_eq_true, Bool.true_and, Bool.or_eq_true, bne_iff_ne, beq_iff_eq]
    exact (ne_or_eq _ _).imp_right hb
  · cases h

theorem encode_length_row {i : Instr} {r : Row} {f : Fields} (h : i.row? = some (r, f)) (e : Enc) :
    (encode e i).length = 8 := by
  cases e <;> simp [encode, encodeD, encodeL, h, leBytes_length]

theorem encode_length_compact {i : Instr} {x : Nat × CForm} (hr : i.row? = none) (hc : i.compact? = some x) :
    (encode .d i).length = 4 := by
  simp [encode, encodeD, hr, hc, leBytes_length]

/-- Settles O56: a well-formed instruction's words read back field by field (`decodeBytes_encode`); whatever decodes was
built by a row of the map from normalised, accepted fields (`wf_of_finish`) or is a compact form, and the decoder looks
at its own words only (`decodeBytes_d_cases`, `decodeBytes_l_cases`). -/
theorem decodeEncode : Obligations.DecodeEncode := by
  refine ⟨fun e i rest h => decodeBytes_encode rest h, fun e bs i rest h => ?_⟩
  cases e with
  | d =>
    rcases decodeBytes_d_cases h with ⟨w0, w1, -, dec, w, hbs, len, more⟩ | ⟨w0, -, dec, w, hbs, len, more⟩
    · obtain ⟨r, g, row, ok⟩ := wf_of_decodeFull dec
      exact ⟨ok, w, hbs, len.trans (encode_length_row row .d).symm, more⟩
    · obtain ⟨row, ⟨x, comp⟩, ok⟩ := wf_of_decodeCompact dec
      exact ⟨ok, w, hbs, len.trans (encode_length_compact row comp).symm, more⟩
  | l =>
    obtain ⟨x, dec, w, hbs, len, more⟩ := decodeBytes_l_cases h
    obtain ⟨r, g, row, ok⟩ := wf_of_decodeL dec
    exact ⟨ok, w, hbs, len.trans (encode_length_row row .l).symm, more⟩

end Sys2Proof.Machine
end

-- ==== Proofs: compact forms (O3) ====
section
namespace Sys2Proof.Machine

/-- A compact form of two sources, as the model executes it, completes as its full form does (R34). -/
theorem compactCompletes_of {i : Instr} {f : CForm} {r : Nat → Nat → Nat} (hi : ∀ s, exec i s = compact2 f r s) :
    CompactCompletes i f r := vecCompletes_compact hi

/-- A compact form whose third source is its destination. -/
theorem compactCompletes3_of {i : Instr} {f : CForm} {r : Nat → Nat → Nat → Nat}
    (hi : ∀ s, exec i s = compact3 f r s) : CompactCompletes3 i f r := vecCompletes_compact hi

/-- Settles O3: each compact form is executed by the lane calculation of its full form, with the destination and the
sources of the compact form and the compact form's length. -/
theorem compactResults : Obligations.CompactResults := by
  intro f bits
  refine ⟨?iadd, ?isub, ?imul, ?imin, ?imax, ?imad, ?and, ?or, ?xor, ?shl, ?shr, ?sar, ?mov, ?fadd, ?fsub, ?fmul,
    ?fmin, ?fmax, ?ffma, ?dot4, ?dot8, ?dot2⟩
  case mov => exact vecCompletes_compact fun _ => rfl
  case imad | ffma | dot4 | dot8 | dot2 => exact compactCompletes3_of fun _ => rfl
  all_goals exact compactCompletes_of fun _ => rfl

end Sys2Proof.Machine
end

-- ==== Proofs: uniform instructions whose predicate is false (O54) ====
section
namespace Sys2Proof.Machine

/-- A fragment whose uniform predicate is false only ages its lanes and goes on. -/
theorem uniFragment_skip {s : State} {gid fid : Nat} {g : Group} {len : DWord} {pred : BitVec 4}
    {fn : State → Nat → Group → List Nat → UniOut} (hg : s.group? gid = some g) (ha : uniActive g pred = false) :
    uniFragment len pred false fn s gid fid =
      some ((s.setGroup gid fun h => (g.fragLanes fid).foldl (fun h l => h.setThread l (·.age 1)) h).retire gid fid len
        ((g.fragLanes fid).map fun l => (l, .next false))) := by
  simp [uniFragment, hg, ha]

/-- `uniInstr_skip` for an instruction that first waits for its group, where there is nothing to wait for. -/
theorem uniWaited_skip {i : Instr} {s : State} {gid fid : Nat} {g : Group} {len : DWord} {pred : BitVec 4} {w : Waits}
    {act : State → Nat → Nat → Option State} {fn : State → Nat → Group → List Nat → UniOut} (hc : Calm s gid fid g)
    (ha : uniActive g pred = false) (hi : exec i s = issueAfter w act s) (hw : w s gid fid = (true, s))
    (hf : act s gid fid = uniFragment len pred false fn s gid fid) : GroupEffect i s s gid fid len false g := by
  obtain ⟨h, e1, e2, e3, e4⟩ := aged_goesOn s gid fid len false 1 g hc.group hc.lanes hc.settled
  exact ⟨_, h, hi.trans (issueAfter_one hc hw (hf.trans (uniFragment_skip hc.group ha))), e2, e1, e3, e4⟩

/-- A uniform instruction whose predicate is false does not wait for the group's stores. -/
theorem uniWaits_inactive {s : State} {gid fid : Nat} {g : Group} {pred : BitVec 4} (hg : s.group? gid = some g)
    (ha : uniActive g pred = false) : uniWaits pred s gid fid = (true, s) := by
  simp [uniWaits, hg, ha]

/-- SEAL or OFREE whose predicate is false does not wait for the object. -/
theorem closeWaits_inactive {s : State} {gid fid : Nat} {g : Group} {f : RForm} {sealing : Bool}
    (hg : s.group? gid = some g) (ha : uniActive g f.pred = false) : closeWaits f sealing s gid fid = (true, s) := by
  simp [closeWaits, hg, ha]

/-- Where the group has no tile store under way, TST is governed by its own predicate. -/
theorem tstPred_none {f : MForm} {s : State} {gid fid : Nat} {g : Group} (hg : s.group? gid = some g)
    (ht : g.tst = none) : tstPred f s gid fid = f.pred := by
  simp [tstPred, hg, ht]

/-- TST whose predicate is false, in a group that has no tile store under way, begins none. -/
theorem tst_skip {f : MForm} {s : State} {gid fid : Nat} {g : Group} (hc : Calm s gid fid g)
    (ha : uniActive g f.pred = false) (ht : g.tst = none) : GroupEffect (.tst f) s s gid fid 8 false g := by
  refine uniWaited_skip hc (pred := tstPred f s gid fid) ?_ rfl ?_ rfl
  · rwa [tstPred_none hc.group ht]
  · simp [hc.group, ha, tstWaits, ht]

/-- Settles O54: every instruction of the uniform set is framed by `uniFragment`, which passes over the instruction's
own meaning where the predicate is false; those that first wait for their group then have nothing to wait for. -/
theorem uniformSkips : Obligations.UniformSkips := by
  intro f m x b s gid fid g hc goes
  refine ⟨fun ha => ?imm, fun ha hr => uniInstr_skip hc rfl hr ha, fun ha => ?mem, fun ha => ?reg⟩
  case imm => refine ⟨?_, ?_, ?_, ?_⟩ <;> exact uniInstr_skip hc rfl rfl ha
  case mem =>
    refine ⟨?_, ?_, ?_, ?_, ?_, tst_skip hc ha, ?_, ?_, ?_, ?_, ?_, ?_, ?_⟩ <;> exact uniInstr_skip hc rfl rfl ha
  case reg =>
    refine ⟨?_, ?_, ?_, ?_, ?_, ?_, ?_, ?_, ?_, ?_, ?_, ?_, ?_, ?_, ?_, ?_, ?_, ?_, ?_, ?_, ?_, ?_, ?_, ?_, ?_, ?_, ?_, ?_,
      ?free, ?close, ?reopen, ?oquery, fun hr => uniInstr_skip hc rfl hr ha, ?uspawn, ?_, ?_, ?_, ?_, ?_, ?_, ?_, ?_, ?_,
      ?_, ?_, ?_, ?_⟩
    case free | close => exact uniWaited_skip hc ha rfl (closeWaits_inactive hc.group ha) rfl
    case reopen | oquery => exact uniWaited_skip hc ha rfl rfl rfl
    case uspawn => exact uniWaited_skip hc ha rfl (uniWaits_inactive hc.group ha) rfl
    all_goals exact uniInstr_skip hc rfl rfl ha

end Sys2Proof.Machine
end

-- ==== Proofs: a step at a word of no instruction (O58) ====
section
namespace Sys2Proof.Machine

/-- A lane whose fragment is held at issue by a DEQ that its queue slice has not served: the destination, register 3,
waits for operation 7. A load of register 4, operation 9, is in flight as well. -/
def askingThread : Thread := { vtag := [(3, 7), (4, 9)], loads := 2, asked := some (7, .sent) }

/-- A word of no instruction (R63). -/
def illopWord : List Byte := [2, 1, 5, 0x8B]

/-- That lane alone in its group, at the word. -/
def askingGroup : Group :=
  { launchedGroup 0 0 with threads := [askingThread], fetched := [(0, illopWord ++ List.replicate 28 0)] }

/-- That group at issue, the two operations pending. -/
def askingState : State :=
  { State.reset with
    groups := [(0, askingGroup)], blocks := [(0, launchedBlock 0)], cur := some (0, { frags := [(0, 0)] })
    pends := [(7, { id := 7, gid := 0, lanes := [0], dest := .entry 0 3 0, pc := 0, rentry := [0], rcount := [0] }),
      (9, { id := 9, gid := 0, lanes := [0], dest := .vec 0 [4], pc := 0, rentry := [0], rcount := [0] })] }

/-- The lane has trapped, and its DEQ is taken back: no register waits for operation 7 any more. -/
def askTakenBack (o : Host.Outcome State Fault Refusal) : Bool :=
  match o with
  | .next u => (u.thread? 0 0).any fun t => decide (t.st = .trapped ∧ t.vtag = [(4, 9)])
  | _ => false

/-- The step at the word of no instruction takes the lane's DEQ back. -/
theorem step_askingState : askTakenBack (step askingState) = true := by decide

/-- Nothing is left for the end of the step in that state. -/
theorem nothingDue_askingState : NothingDue askingState := by
  constructor
  · simp [askingState, askingGroup, askingThread, launchedGroup, TState.parkedOn]
  · simp [askingState, State.reset]

/-- What the step leaves of the lane, told of the state it comes to. -/
theorem takenBack_of_step {u : State} (h : step askingState = .next u) :
    ∃ g t, u.group? 0 = some g ∧ g.thread? 0 = some t ∧ t.st = .trapped ∧ t.vtag = [(4, 9)] := by
  have hu := step_askingState
  simp only [h, askTakenBack, Option.any_eq_true, State.thread?, Option.bind_eq_some_iff, decide_eq_true_eq] at hu
  obtain ⟨t, ⟨g, hg, ht⟩, hst, hv⟩ := hu
  exact ⟨g, t, hg, ht, hst, hv⟩

/-- A lane left so has neither exited nor kept what its registers wait for. -/
theorem not_trapped_of_takenBack {s : State} {g h : Group} {t : Thread} (hst : t.st = .trapped)
    (hv : t.vtag = [(4, 9)]) : ¬ Trapped s g h askingThread t 1 := by
  rintro (⟨-, he⟩ | ⟨⟨-, -, -, hth⟩, -⟩)
  · exact absurd (hst.symm.trans he) (by decide)
  · have : t.vtag = askingThread.vtag := by rw [hth]
    exact absurd (hv.symm.trans this) (by decide)

/-- Refutes O58: a lane may come to a word of no instruction with a DEQ still asked of its queue slice. Its trap takes
the DEQ back, so that the lane's register no longer waits for the operation: the lane is then not as it was but for
what a trap records, as `Trapped` would have it. -/
theorem not_stepRunsDecoded : ¬ Obligations.StepRunsDecoded := by
  intro h
  obtain ⟨-, hill⟩ := h askingState 0 { frags := [(0, 0)] } 0 0 askingGroup illopWord [] rfl rfl rfl rfl rfl rfl
    (by decide) rfl ⟨_, rfl, rfl⟩ (fun two => absurd two (by decide))
  obtain ⟨u, hstep, -, hdue⟩ := hill .compactCode (by decide)
  obtain ⟨g, t, hg, ht, hst, hv⟩ := takenBack_of_step hstep
  obtain ⟨t', ht', htrap⟩ := (hdue nothingDue_askingState).2 0 (by decide) askingThread rfl g hg
  obtain rfl : t = t' := Option.some.inj (ht.symm.trans ht')
  exact not_trapped_of_takenBack hst hv htrap

end Sys2Proof.Machine
end

-- ==== Proofs: branches, calls and returns (O11) ====
section
namespace Sys2Proof.Machine

/-! ## Branches, calls and returns (R112, R117) -/

/-- BRX: a lane that executes it goes to its target, another goes on. -/
theorem brx_leaves {f : I16Form} {s : State} {gid fid : Nat} {g : Group} (hc : Calm s gid fid g)
    (hb : mayBranch g f.pred) :
    Leaves (.brx f) s s gid fid (fun _ t =>
      if laneActive g false f.pred t then t.goTo (branchTo g.enc t.pc (f.imm.signExtend 64)) false else t.onward) g := by
  refine stop_leaves (sh := { pred := f.pred, forbidden := true }) (fn := brxLane f) hc rfl hb
    (fun _ t => .jump (branchTo g.enc t.pc (f.imm.signExtend 64)) false) (fun x _ => ?_) (fun _ _ => rfl)
    (fun _ _ h => nomatch h) _ fun l t => ?_
  · simp [brxLane, hc.group]
  · simp only [apply_ite (Thread.leave t _)]; rfl

/-- A branch of a group as a whole, taken or not. -/
theorem uniBranch_leaves {i : Instr} {s : State} {gid fid : Nat} {g : Group} {pred : BitVec 4} {target : DWord}
    {fn : State → Nat → Group → List Nat → UniOut} (hc : Calm s gid fid g) (hi : exec i s = uniInstr 8 pred true fn s)
    (hr : g.region = false) (hfn : fn s gid g (g.fragLanes fid) = .done s (.jump target false)) :
    Leaves i s s gid fid (fun _ t => if uniActive g pred then t.goTo target false else t.onward) g := by
  cases ha : uniActive g pred with
  | false => exact uni_skips hc hi hr ha
  | true => exact uni_leaves hc hi hr ha hfn hc.group rfl hc.plain rfl fun h => nomatch h

/-- A lane with another return stack. -/
def restack (r : Nat → Thread → List DWord) (l : Nat) (t : Thread) : Thread := { t with rstk := r l t }

/-- A group with other return stacks in some lanes. -/
def Group.restacked (g : Group) (r : Nat → Thread → List DWord) (ls : List Nat) : Group :=
  ls.foldl (fun g l => g.setThread l (restack r l)) g

section Restacked
variable (g : Group) (r : Nat → Thread → List DWord) (ls : List Nat)

theorem restacked_lanes (hn : ls.Nodup) : LanesAfter ls (restack r) g (g.restacked r ls) :=
  lanesAfter_foldl ls hn (restack r) g

theorem restacked_onlyThreads : OnlyThreads g (g.restacked r ls) :=
  onlyThreads_foldl (fun l : Nat => l) (restack r) ls g

theorem restacked_fragLanes (hn : ls.Nodup) (fid : Nat) : (g.restacked r ls).fragLanes fid = g.fragLanes fid :=
  fragLanes_map (restack r) (fun _ _ => ⟨rfl, rfl⟩) ls (restacked_lanes g r ls hn) (foldl_len ls (restack r) g)

/-- Return stacks have nothing to do with latencies. -/
theorem restacked_plain (hn : ls.Nodup) {l : Nat} {t : Thread} (h : ∀ t, g.thread? l = some t → t.Plain)
    (ht : (g.restacked r ls).thread? l = some t) : t.Plain := by
  rw [restacked_lanes g r ls hn l] at ht
  split at ht
  · obtain ⟨t0, ht0, rfl⟩ := Option.map_eq_some_iff.mp ht
    obtain ⟨hv, hp, hx⟩ := h t0 ht0
    exact ⟨hv, hp, hx⟩
  · exact h t ht

end Restacked

/-- Lanes that change their return stacks one after the other touch nothing but their group. -/
theorem foldl_restack (gid : Nat) (r : Nat → Thread → List DWord) (ls : List Nat) (s : State) :
    OnlyPlaces s (ls.foldl (fun m l => m.setThread gid l (restack r l)) s) gid ∧
      (ls.foldl (fun m l => m.setThread gid l (restack r l)) s).group? gid = (s.group? gid).map (·.restacked r ls) := by
  induction ls generalizing s with
  | nil => exact ⟨.refl s gid, by simp [Group.restacked]⟩
  | cons l ls ih =>
    obtain ⟨ho, hg⟩ := ih (s.setThread gid l (restack r l))
    refine ⟨(onlyPlaces_setGroup s gid _).trans ho, hg.trans ?_⟩
    rw [State.setThread, group?_setGroup, if_pos rfl, Option.map_map]
    rfl

/-- CALL: every lane of the fragment pushes the next address and goes to the target. -/
theorem call_leaves {f : I24Form} {s : State} {gid fid : Nat} {g : Group} (hc : Calm s gid fid g)
    (hr : g.region = false) (hroom : ∀ l ∈ g.fragLanes fid, ∀ t, g.thread? l = some t → t.rstk.length < 32) :
    Leaves (.call f) s s gid fid (fun _ t => { t.goTo (branchTo g.enc (g.pcOf (g.fragLanes fid)) (f.imm.signExtend 64)) true
      with rstk := (t.pc + 8) :: t.rstk }) g := by
  let push : Nat → Thread → List DWord := fun _ t => (t.pc + 8) :: t.rstk
  have hn := fragLanes_nodup g fid
  have hset : (s.setGroup gid (·.restacked push (g.fragLanes fid))).group? gid =
      some (g.restacked push (g.fragLanes fid)) := by
    rw [group?_setGroup, if_pos rfl, hc.group]; rfl
  have hl := restacked_fragLanes g push (g.fragLanes fid) hn fid
  have hla := restacked_lanes g push (g.fragLanes fid) hn
  have hfree : ((g.fragLanes fid).any fun l => (g.thread? l).any fun t => 32 ≤ t.rstk.length) = false := by
    rw [List.any_eq_false]
    intro l hl'
    obtain ⟨t, ht, -⟩ := mem_fragLanes.mp hl'
    simpa [ht] using hroom l hl' t ht
  have L := uni_leaves (i := .call f) hc rfl hr rfl (if_neg (by rw [hfree]; simp)) hset hl
    (fun l hl' t ht => restacked_plain g push _ hn (hc.plain l (hl ▸ hl')) ht) rfl (fun h => nomatch h)
  refine L.recast (onlyPlaces_setGroup s gid _) ?_ hl (fun l hl' => by rw [hla, if_neg hl']) fun l hl' t ht =>
    ⟨restack push l t, t.frag, by rw [hla, if_pos hl', ht]; rfl, rfl⟩
  rw [restacked_onlyThreads g push]

/-- The lanes of a fragment that execute an instruction. -/
theorem mem_active_lanes {g : Group} {fid : Nat} {sh : Shape} {l : Nat} :
    l ∈ (actives g fid sh).map (·.1) ↔
      l ∈ g.fragLanes fid ∧ ∃ t, g.thread? l = some t ∧ laneActive g sh.unpred sh.pred t = true := by
  simp [mem_actives]

/-- RET: a lane that executes it goes to the address that it takes off its return stack, another goes on. -/
theorem ret_leaves {f : RForm} {s : State} {gid fid : Nat} {g : Group} (hc : Calm s gid fid g)
    (hb : mayBranch g f.pred) (hstk : ∀ l t, (l, t) ∈ executing g fid false f.pred → t.rstk ≠ []) :
    Leaves (.ret f) s s gid fid (fun _ t =>
      if laneActive g false f.pred t then { t.goTo (t.rstk.headD 0) true with rstk := t.rstk.tail } else t.onward) g := by
  let sh : Shape := { pred := f.pred, forbidden := true, stall := f.stall.toNat }
  let pop : Nat → Thread → List DWord := fun l _ => ((g.thread? l).map (·.rstk.tail)).getD []
  let ls := (actives g fid sh).map (·.1)
  have hn : ls.Nodup := actives_nodup g fid sh
  obtain ⟨hseq, -⟩ := seqLanes_done (retLane gid) (fun _ => True) (fun m l _ => m.setThread gid l (restack pop l))
    (fun _ t => .jump (t.rstk.headD 0) true) (actives g fid sh) s trivial fun ⟨l, t⟩ hx m _ => ⟨by
      obtain ⟨-, ht, -⟩ := mem_actives.mp hx
      have hpop : restack pop l = fun t' => { t' with rstk := t.rstk.tail } := by
        funext t'; simp [restack, pop, show g.thread? l = some t from ht]
      cases hr : t.rstk with
      | nil => exact absurd hr (hstk l t hx)
      | cons pc rest => simp [retLane, hr, hpop], trivial⟩
  rw [show (actives g fid sh).foldl (fun m x => m.setThread gid x.1 (restack pop x.1)) s =
    ls.foldl (fun m l => m.setThread gid l (restack pop l)) s from (by rw [List.foldl_map])] at hseq
  obtain ⟨ho, hg⟩ := foldl_restack gid pop ls s
  rw [hc.group] at hg
  have hl := restacked_fragLanes g pop ls hn fid
  have hla := restacked_lanes g pop ls hn
  refine seq_leaves_each (g1 := g.restacked pop ls) (sh := sh) hc rfl hb (fun _ t => .jump (t.rstk.headD 0) true) hseq (fun _ _ => rfl) (fun _ _ h => nomatch h) hg hl
    (fun l hl' t ht => restacked_plain g pop ls hn (hc.plain l (hl ▸ hl')) ht) ho
    (by rw [restacked_onlyThreads g pop ls]) rfl
    (fun l hl' => by rw [hla, if_neg fun h => hl' (mem_active_lanes.mp h).1]) _ fun l hl' t ht => ?_
  have hact : l ∈ ls ↔ laneActive g false f.pred t = true := by
    simp [ls, mem_active_lanes, hl', ht, sh]
  refine ⟨t, if laneActive g false f.pred t then restack pop l t else t, t.frag, ht, ?_, ?_⟩
  · rw [hla, ht]
    simp only [hact]
    split <;> rfl
  · split
    · simp [restack, pop, ht]
      rfl
    · rfl

end Sys2Proof.Machine
end

-- ==== Proofs: which lanes of a group have exited (O11) ====
section
namespace Sys2Proof.Machine

/-! ## Leaving (R102): which lanes of a group have exited

Of a group, an exit changes whether lanes have exited and whether it still stands; everything else that leaving does, in
queues, parts, cores, blocks and launches, changes neither. -/

/-- Whether a group is a handler wave, and of each lane whether it has exited. -/
def Group.roll (g : Group) : Bool × List Bool := (g.handler, g.threads.map (·.st.isExited))

/-- The roll of a group while it stands. -/
def State.roll (s : State) (gid : Nat) : Option (Bool × List Bool) := (s.group? gid).map Group.roll

/-- What every round of a loop keeps, the loop keeps. -/
theorem foldl_keeps {α β κ : Type} (p : α → β) {f : α → κ → α} (xs : List κ) (h : ∀ a, ∀ x ∈ xs, p (f a x) = p a) (a : α) :
    p (xs.foldl f a) = p a := by
  induction xs generalizing a with
  | nil => rfl
  | cons x xs ih =>
    exact (ih (fun a y hy => h a y (List.mem_cons_of_mem _ hy)) (f a x)).trans (h a x (by simp))

/-! ### Operations on a group -/

theorem map_listUpdate {α β : Type} (p : α → β) (f : α → α) (i : Nat) (xs : List α) (h : ∀ x, p (f x) = p x) :
    (listUpdate i f xs).map p = xs.map p := by
  induction xs generalizing i with
  | nil => simp [listUpdate]
  | cons x xs ih => cases i <;> simp [listUpdate, h, ih]

theorem map_listUpdate_const {α β : Type} (p : α → β) (y : α) (i : Nat) (xs : List α) :
    (listUpdate i (fun _ => y) xs).map p = (xs.map p).set i (p y) := by
  induction xs generalizing i with
  | nil => simp [listUpdate]
  | cons x xs ih => cases i <;> simp [listUpdate, ih]

theorem roll_setThread (g : Group) (l : Nat) {f : Thread → Thread} (h : ∀ t, (f t).st.isExited = t.st.isExited) :
    (g.setThread l f).roll = g.roll := by
  simp [Group.roll, Group.setThread, map_listUpdate (fun t : Thread => t.st.isExited) f l g.threads h]

theorem roll_pruneFrags (g : Group) : g.pruneFrags.roll = g.roll := rfl

theorem roll_closeLate (g : Group) (sel : Late → Bool) : (g.closeLate sel).roll = g.roll := by
  unfold Group.closeLate
  split
  · exact foldl_keeps Group.roll _ (fun g r _ => roll_setThread g r.lane fun t => by cases r.counter <;> rfl) g
  · rfl

theorem roll_putFrag (g : Group) (ls : List Nat) (p : Nat) (m : Mask) : (g.putFrag ls p m).roll = g.roll := by
  refine (foldl_keeps Group.roll ls (fun g l _ => roll_setThread g l fun t => ?_) _).trans rfl
  rfl

theorem roll_regroup (g : Group) (ls : List Nat) : (g.regroup ls).roll = g.roll := by
  cases ls with
  | nil => rfl
  | cons l ls =>
    simp only [Group.regroup]
    split
    · rfl
    · rw [roll_pruneFrags, roll_putFrag]

/-- Waking exits nobody and brings nobody back. -/
theorem isExited_woken (st : TState) : st.woken.isExited = st.isExited := by cases st <;> rfl

theorem roll_wake (g : Group) (ls : List Nat) : (g.wake ls).roll = g.roll := by
  unfold Group.wake
  rw [foldl_keeps Group.roll _ fun g c _ => roll_regroup g c.2]
  exact foldl_keeps Group.roll ls (fun g l _ => roll_setThread g l fun t => isExited_woken t.st) g

theorem roll_checkJoin (g : Group) (j : Nat) : (g.checkJoin j).roll = g.roll := by
  simp only [Group.checkJoin]
  split
  · rw [roll_wake]; rfl
  · rfl

theorem roll_leaveJoins (g : Group) (l : Nat) : (g.leaveJoins l).roll = g.roll := by
  refine foldl_keeps Group.roll _ (fun g j _ => ?_) g
  dsimp only
  split
  · rw [roll_checkJoin]; rfl
  · rfl

theorem roll_divide (g : Group) (fid : Nat) (ps : List (PartKey × List Nat)) : (g.divide fid ps).roll = g.roll := by
  simp only [Group.divide]
  split
  · rfl
  · rfl
  · exact foldl_keeps Group.roll _ (fun g p _ => roll_putFrag g p.2 fid _) g

/-- A group has live lanes as long as its roll tells of one that has not exited. -/
theorem live_isEmpty (g : Group) : g.live.isEmpty = !g.roll.2.contains false := by
  rw [Bool.eq_iff_iff, List.isEmpty_iff, List.eq_nil_iff_forall_not_mem]
  simp only [Group.live, mem_lanesWhere, Group.roll, Group.thread?]
  simp [List.mem_iff_getElem?]

/-- A group after a lane of it has left. -/
def Group.left (g : Group) (lane : Nat) (pc : DWord) : Group :=
  (((g.closeLate (·.lane == lane)).setThread lane fun _ => { st := .exited, pc := pc, p := 0 }).leaveJoins
    lane).pruneFrags

theorem roll_setExited (g : Group) (l : Nat) (t : Thread) (ht : t.st = .exited) :
    (g.setThread l fun _ => t).roll = (g.roll.1, g.roll.2.set l true) := by
  simp [Group.roll, Group.setThread, map_listUpdate_const, ht, TState.isExited]

theorem roll_left (g : Group) (lane : Nat) (pc : DWord) : (g.left lane pc).roll = (g.roll.1, g.roll.2.set lane true) := by
  rw [Group.left, roll_pruneFrags, roll_leaveJoins, roll_setExited _ _ _ rfl, roll_closeLate]

/-! ### What leaves the groups alone: launches, blocks and memory -/

section Groups
variable (s : State)

@[simp] theorem raise_groups (v : Nat) : (s.raise v).groups = s.groups := rfl

theorem deviceWrite_groups {s t : State} {part va : Nat} {bs : List Byte} (h : s.deviceWrite part va bs = .ok t) :
    t.groups = s.groups := by
  unfold State.deviceWrite at h
  split at h
  · contradiction
  · split at h <;> cases h
    · rfl
    · exact foldl_keeps State.groups _ (fun s (x : Nat × Byte) _ => show (s.write x.1 [x.2]).groups = s.groups from rfl) s

@[simp] theorem deviceStore_groups (part va n x : Nat) : (s.deviceStore part va n x).groups = s.groups := by
  unfold State.deviceStore
  split
  · exact deviceWrite_groups ‹_›
  · rfl

@[simp] theorem putFields_groups (r : Launch) : (s.putFields r).groups = s.groups := by
  simp only [State.putFields]
  split <;> simp

@[simp] theorem putStatus_groups (rid status : Nat) : (s.putStatus rid status).groups = s.groups := by
  unfold State.putStatus
  split <;> simp

@[simp] theorem putReason_groups (rid reason : Nat) : (s.putReason rid reason).groups = s.groups := by
  simp [State.putReason]

@[simp] theorem leaveQueue_groups (rid : Nat) : (s.leaveQueue rid).groups = s.groups := by
  unfold State.leaveQueue
  split <;> simp

@[simp] theorem finish_groups (rid status : Nat) : (s.finish rid status).groups = s.groups := by
  unfold State.finish
  split <;> simp

@[simp] theorem refuse_groups (rid reason : Nat) : (s.refuse rid reason).groups = s.groups := by
  simp [State.refuse]

@[simp] theorem review_groups (rid : Nat) : (s.review rid).groups = s.groups := by
  unfold State.review
  grind [refuse_groups, putStatus_groups, setLaunch_groups]

@[simp] theorem settle_groups (rid : Nat) : (s.settle rid).groups = s.groups := by
  unfold State.settle
  grind [putStatus_groups, finish_groups, putReason_groups]

@[simp] theorem settleAll_groups : s.settleAll.groups = s.groups :=
  foldl_keeps State.groups _ (fun s _ _ => foldl_keeps State.groups _ (fun s rid _ => by simp) s) s

@[simp] theorem reapBlock_groups (bid : Nat) : (s.reapBlock bid).groups = s.groups := by
  unfold State.reapBlock
  grind

@[simp] theorem checkBlock_groups (bid : Nat) : (s.checkBlock bid).groups = s.groups := by
  unfold State.checkBlock
  grind [settleAll_groups, reapBlock_groups, setBlock_groups, setLaunch_groups]

end Groups

/-! ### The roll of a group as its lanes leave -/

theorem roll_of_groups {s t : State} (h : t.groups = s.groups) (gid : Nat) : t.roll gid = s.roll gid := by
  simp [State.roll, State.group?, h]

theorem roll_setGroup (s : State) (k gid : Nat) {f : Group → Group} (h : ∀ g, (f g).roll = g.roll) :
    (s.setGroup k f).roll gid = s.roll gid := by
  rw [State.roll, group?_setGroup]
  split
  · subst gid; cases hg : s.group? k <;> simp [State.roll, hg, h]
  · rfl

theorem roll_closeTaker (s : State) (w : Waiter) (gid : Nat) : (s.closeTaker w).roll gid = s.roll gid := by
  refine (roll_setGroup _ _ _ fun g => ?_).trans (roll_of_groups rfl gid)
  dsimp only
  generalize hset : g.setThread w.lane _ = g'
  have hroll : g'.roll = g.roll := by
    rw [← hset]
    exact roll_setThread g w.lane fun t => by split <;> rfl
  split
  · split
    · split
      · rw [roll_wake, hroll]
      · exact hroll
    · exact hroll
  · exact hroll

theorem roll_checkClose (s : State) (n gid : Nat) : (s.checkClose n).roll gid = s.roll gid := by
  unfold State.checkClose
  dsimp only
  split
  · exact (foldl_keeps (State.roll · gid) _ (fun s w _ => roll_closeTaker s w gid) _).trans (roll_of_groups rfl gid)
  · rfl

theorem roll_retireProducer (s : State) (k lane n gid : Nat) : (s.retireProducer k lane n).roll gid = s.roll gid := by
  unfold State.retireProducer
  split
  · rfl
  · split
    · rfl
    · split
      · refine (roll_checkClose _ n gid).trans ((roll_of_groups rfl gid).trans (roll_setGroup s k gid fun g => ?_))
        dsimp only
        split
        · exact roll_setThread g lane fun _ => rfl
        · exact roll_setThread g lane fun _ => rfl
      · rfl

/-- A group stands as long as not all its lanes have exited. -/
theorem roll_checkGroup {s : State} {gid : Nat} {x : Bool × List Bool} (h : s.roll gid = some x) :
    (s.checkGroup gid).roll gid = if false ∈ x.2 then some x else none := by
  obtain ⟨g, hg, rfl⟩ := Option.map_eq_some_iff.mp h
  unfold State.checkGroup
  simp only [hg, live_isEmpty]
  by_cases hl : false ∈ g.roll.2
  · simp [hl, h]
  · simp [hl, State.roll, State.group?, mapFind_erase]

theorem roll_setGroup_left {s : State} {gid : Nat} {x : Bool × List Bool} (h : s.roll gid = some x) (l : Nat) (pc : DWord) :
    (s.setGroup gid (·.left l pc)).roll gid = some (x.1, x.2.set l true) := by
  obtain ⟨g, hg, rfl⟩ := Option.map_eq_some_iff.mp h
  rw [State.roll, group?_setGroup, if_pos rfl, hg, Option.map_map, Option.map_some, Function.comp, roll_left]

/-- A lane that is not there, or that has exited, leaves the roll as it is. -/
theorem set_true_of_ne {xs : List Bool} {l : Nat} (h : xs[l]? ≠ some false) : xs.set l true = xs := by
  by_cases hl : l < xs.length
  · have hx : xs[l] = true := by simpa [List.getElem?_eq_getElem hl] using h
    rw [← hx, List.set_getElem_self]
  · exact List.set_eq_of_length_le (Nat.le_of_not_lt hl)

/-- A lane leaves (R102): the roll has it as exited, and the group is gone where that was its last. -/
theorem roll_exitThread {s : State} {gid : Nat} {x : Bool × List Bool} (h : s.roll gid = some x) (hx : false ∈ x.2) (l : Nat) :
    (s.exitThread gid l).roll gid = if false ∈ x.2.set l true then some (x.1, x.2.set l true) else none := by
  obtain ⟨g, hg, rfl⟩ := Option.map_eq_some_iff.mp h
  have hl : g.roll.2[l]? = (g.thread? l).map (·.st.isExited) := List.getElem?_map
  unfold State.exitThread
  simp only [hg]
  cases ht : g.thread? l with
  | none =>
    rw [set_true_of_ne (by simp [hl, ht]), if_pos hx]
    exact h
  | some t =>
    dsimp only
    split
    · rw [set_true_of_ne (by simp_all), if_pos hx]
      exact h
    · refine roll_checkGroup (roll_setGroup_left (x := g.roll) ?_ l t.pc)
      refine (roll_of_groups rfl gid).trans ((foldl_keeps (State.roll · gid) t.producer
        (fun s n _ => roll_retireProducer s gid l n gid) _).trans (.trans ?_ h))
      split <;> rfl

/-- A group that is gone has no lane that could leave. -/
theorem exitLane_gone {s : State} {gid : Nat} (h : s.roll gid = none) (l : Nat) : s.exitLane gid l = s := by
  simp [State.exitLane, Option.map_eq_none_iff.mp h]

/-- A lane of a group that is no handler wave only leaves. -/
theorem exitLane_eq {s : State} {gid : Nat} {xs : List Bool} (h : s.roll gid = some (false, xs)) (l : Nat) :
    s.exitLane gid l = s.exitThread gid l := by
  obtain ⟨g, hg, hr⟩ := Option.map_eq_some_iff.mp h
  have hh : g.handler = false := congrArg Prod.fst hr
  simp [State.exitLane, hg, hh]

theorem exitLanes_gone {s : State} {gid : Nat} (h : s.roll gid = none) (ls : List Nat) :
    ls.foldl (fun s l => s.exitLane gid l) s = s := by
  induction ls with
  | nil => rfl
  | cons l ls ih => rw [List.foldl_cons, exitLane_gone h, ih]

/-- Which lanes have exited once those of a list have. -/
def afterExits (ls : List Nat) (xs : List Bool) : List Bool := ls.foldl (fun xs l => xs.set l true) xs

theorem afterExits_get (ls : List Nat) (xs : List Bool) (i : Nat) :
    (afterExits ls xs)[i]? = if i ∈ ls then xs[i]?.map fun _ => true else xs[i]? := by
  induction ls generalizing xs with
  | nil => simp [afterExits]
  | cons l ls ih =>
    have h : (afterExits (l :: ls) xs)[i]? = _ := ih (xs.set l true)
    rw [h, List.getElem?_set']
    by_cases hl : l = i
    · subst hl
      cases xs[l]? <;> simp
    · simp [hl, Ne.symm hl]

/-- No lane comes back. -/
theorem not_mem_afterExits {xs : List Bool} (h : false ∉ xs) (ls : List Nat) : false ∉ afterExits ls xs := by
  intro hm
  obtain ⟨i, hi⟩ := List.mem_iff_getElem?.mp hm
  rw [afterExits_get] at hi
  split at hi
  · simp at hi
  · exact h (List.mem_of_getElem? hi)

/-- Lanes leave one after the other. -/
theorem roll_exitLanes {s : State} {gid : Nat} {xs : List Bool} (ls : List Nat) (h : s.roll gid = some (false, xs))
    (hx : false ∈ xs) : (ls.foldl (fun s l => s.exitLane gid l) s).roll gid =
      if false ∈ afterExits ls xs then some (false, afterExits ls xs) else none := by
  induction ls generalizing s xs with
  | nil => simp [afterExits, hx, h]
  | cons l ls ih =>
    have h1 := roll_exitThread h hx l
    rw [List.foldl_cons, exitLane_eq h]
    by_cases hs : false ∈ xs.set l true
    · exact ih (h1.trans (if_pos hs)) hs
    · have hgone : (s.exitThread gid l).roll gid = none := h1.trans (if_neg hs)
      have hnone : false ∉ afterExits (l :: ls) xs := not_mem_afterExits hs ls
      rw [exitLanes_gone hgone, hgone, if_neg hnone]

/-! ### Retiring an instruction whose lanes exit or go on -/

/-- A lane that leaves the instruction in the state it is in. -/
def Dispo.stands (d : Dispo) : Prop := ∀ (t : Thread) (len : DWord), (t.leave len d).st = t.st

theorem roll_leaveAll (g : Group) (len : DWord) (ds : List (Nat × Dispo)) (h : ∀ x ∈ ds, x.2.stands) :
    (g.leaveAll len ds).roll = g.roll :=
  foldl_keeps Group.roll ds (fun g x hx => roll_setThread g x.1 fun t => congrArg TState.isExited (h x hx t len)) g

theorem roll_retired (g : Group) (fid : Nat) (len : DWord) (ds : List (Nat × Dispo)) (n : Nat)
    (h : ∀ x ∈ ds, x.2.stands) : (g.retired fid len ds n).roll = g.roll := by
  have hpark : ∀ (k : Group) b, (k.notePark b n).roll = k.roll := fun k b => by unfold Group.notePark; split <;> rfl
  have hhold : ∀ (k : Group) pc ls, (k.noteHold pc ls).roll = k.roll := fun k pc ls => by
    unfold Group.noteHold; split <;> rfl
  rw [Group.retired, roll_closeLate, hhold, hpark, roll_pruneFrags, roll_divide, roll_leaveAll g len ds h]

/-- Retiring where no lane raises a cause: those that exit leave one after the other. -/
theorem roll_retire {s : State} {gid fid : Nat} {len : DWord} {ds : List (Nat × Dispo)} {xs : List Bool}
    (h : s.roll gid = some (false, xs)) (hx : false ∈ xs) (hd : ∀ x ∈ ds, x.2.stands)
    (hr : ∀ g, trapsOf g fid ds = []) : (s.retire gid fid len ds).roll gid =
      if false ∈ afterExits (exitsOf ds) xs then some (false, afterExits (exitsOf ds) xs) else none := by
  obtain ⟨g, hg, hroll⟩ := Option.map_eq_some_iff.mp h
  simp only [State.retire, hg, hr, List.foldl_nil]
  refine roll_exitLanes (exitsOf ds) ((roll_of_groups (setCore_groups ..) gid).trans ?_) hx
  rw [State.roll, group?_setGroup, if_pos rfl, tick_group, hg, Option.map_map, Option.map_some, Function.comp,
    roll_retired g fid len ds s.seq hd, hroll]

end Sys2Proof.Machine
end

-- ==== Proofs: EXIT (O11) ====
section
namespace Sys2Proof.Machine

/-! ## EXIT (R102) -/

/-- The dispositions of lanes of which some leave and the others go on. -/
def exitDispos (ls leaving : List Nat) : List (Nat × Dispo) :=
  ls.map fun l => (l, if l ∈ leaving then .exit else .next false)

theorem exitDispos_stands {ls leaving : List Nat} : ∀ x ∈ exitDispos ls leaving, x.2.stands := by
  intro x hx t len
  obtain ⟨l, -, rfl⟩ := List.mem_map.mp hx
  dsimp only
  split <;> rfl

theorem trapsOf_exitDispos (g : Group) (fid : Nat) (ls leaving : List Nat) :
    trapsOf g fid (exitDispos ls leaving) = [] := by
  refine List.filterMap_eq_nil_iff.mpr fun x hx => ?_
  obtain ⟨l, -, rfl⟩ := List.mem_map.mp hx
  by_cases hl : l ∈ leaving <;> simp [hl]

theorem mem_exitsOf_exitDispos {ls leaving : List Nat} {l : Nat} :
    l ∈ exitsOf (exitDispos ls leaving) ↔ l ∈ ls ∧ l ∈ leaving := by
  simp only [exitsOf, exitDispos, List.filterMap_map, List.mem_filterMap]
  constructor
  · rintro ⟨k, hk, h⟩
    by_cases hl : k ∈ leaving <;> simp [hl] at h
    exact ⟨h ▸ hk, h ▸ hl⟩
  · rintro ⟨h, hl⟩
    exact ⟨l, h, by simp [hl]⟩

section Exit
variable {s : State} {gid fid : Nat} {g : Group} {f : RForm}

/-- The lanes of a fragment that execute EXIT leave, the others go on. -/
theorem dispoOf_exit {sh : Shape} : ((g.fragLanes fid).map fun l => (l, dispoOf ((actives g fid sh).map fun x => (x.1, .exit)) l))
    = exitDispos (g.fragLanes fid) ((actives g fid sh).map (·.1)) := by
  refine List.map_congr_left fun l hl => ?_
  obtain ⟨t, ht, -⟩ := mem_fragLanes.mp hl
  rw [dispoOf_actives (fun _ _ => .exit) hl ht]
  simp only [mem_active_lanes, hl, ht, true_and, Option.some.injEq, exists_eq_left']

theorem filter_withThreads (g : Group) (p : Thread → Bool) (ls : List Nat) :
    ((withThreads g ls).filter fun x => p x.2).map (·.1) = ls.filter fun l => (g.thread? l).any p := by
  induction ls with
  | nil => rfl
  | cons l ls ih =>
    cases ht : g.thread? l with
    | none => simpa [withThreads, ht] using ih
    | some t => cases hp : p t <;> simpa [withThreads, ht, hp] using ih

theorem willRun_eq {sh : Shape} (hg : s.group? gid = some g)
    (hguard : laneGuard g sh.unpred sh.pred sh.runs sh.forbidden = none) :
    s.willRun sh gid fid = (actives g fid sh).map (·.1) := by
  simp only [State.willRun, hg, hguard, Option.isSome_none]
  exact (filter_withThreads g (laneActive g sh.unpred sh.pred) (g.fragLanes fid)).symm

/-- EXIT need not wait where the group's stores are home and nothing of the lanes that leave is outstanding. -/
theorem exitWaits_ready {sh : Shape} (hg : s.group? gid = some g)
    (hguard : laneGuard g sh.unpred sh.pred sh.runs sh.forbidden = none)
    (hd : s.drained g.core gid = true) (hq : s.quiet gid ((actives g fid sh).map (·.1)) = true) :
    exitWaits sh s gid fid = (true, s) := by
  unfold exitWaits
  rw [willRun_eq hg hguard, hg]
  split
  · rfl
  · rfl
  · simp_all [State.drainGroup]

/-- EXIT then retires its fragment: in a state that differs only in latencies that have run, the lanes that execute it
leave and the others go on. -/
theorem exit_retires (hc : Calm s gid fid g) (hguard : laneGuard g false f.pred [] false = none)
    (hd : s.drained g.core gid = true) (hq : s.quiet gid (execLanes g fid f.pred) = true) :
    ∃ m : State, exec (.exit f) s =
        .next (m.retire gid fid 8 (exitDispos (g.fragLanes fid) (execLanes g fid f.pred))) ∧
      m.roll gid = some g.roll := by
  let sh : Shape := { pred := f.pred, stall := f.stall.toNat }
  have hseq := seqLanes_stop (fun _ _ _ => .stop .exit) (actives g fid sh) s (fun _ _ => .exit) fun _ _ => rfl
  have h := seqFragmentWith_eq (sh := sh) (fn := fun _ _ _ _ => .stop .exit) (fin := fun _ s ds => (s, ds)) hc hguard hseq rfl
  rw [dispoOf_exit] at h
  refine ⟨_, issueAfter_one hc (exitWaits_ready hc.group hguard hd hq) h, ?_⟩
  refine (roll_setGroup s gid gid fun k => ?_).trans (by rw [State.roll, hc.group]; rfl)
  refine foldl_keeps Group.roll _ (fun k l _ => roll_setThread k l fun t => ?_) k
  unfold Thread.age
  split <;> rfl

/-- A lane is live where the roll of its group does not have it as exited. -/
theorem mem_live {l : Nat} : l ∈ g.live ↔ g.roll.2[l]? = some false := by
  simp [Group.live, mem_lanesWhere, Group.roll, Group.thread?]

theorem mem_execLanes {pred : BitVec 4} {l : Nat} (h : l ∈ execLanes g fid pred) : l ∈ g.fragLanes fid :=
  (mem_active_lanes (sh := { pred := pred }).mp h).1

/-- A lane that can issue is live. -/
theorem mem_live_of_mem_fragLanes {l : Nat} (h : l ∈ g.fragLanes fid) : l ∈ g.live := by
  obtain ⟨t, ht, hst, -⟩ := mem_fragLanes.mp h
  refine mem_lanesWhere.mpr ⟨t, ht, ?_⟩
  cases hs : t.st <;> simp_all [TState.issuable, TState.isExited]

/-- The roll of the group after EXIT: the lanes that execute it have exited, and the group is gone with its last. -/
theorem roll_exit (hc : Calm s gid fid g) (hguard : laneGuard g false f.pred [] false = none)
    (hd : s.drained g.core gid = true) (hq : s.quiet gid (execLanes g fid f.pred) = true) (hh : g.handler = false) :
    ∃ (t : State) (ls : List Nat), exec (.exit f) s = .next t ∧ (∀ l, l ∈ ls ↔ l ∈ execLanes g fid f.pred) ∧
      t.roll gid = if false ∈ afterExits ls g.roll.2 then some (false, afterExits ls g.roll.2) else none := by
  obtain ⟨m, hex, hm⟩ := exit_retires hc hguard hd hq
  have hroll : g.roll = (false, g.roll.2) := by rw [← hh]; rfl
  obtain ⟨l, hl⟩ := List.exists_mem_of_ne_nil _ hc.lanes
  have hlive : false ∈ g.roll.2 := List.mem_of_getElem? (mem_live.mp (mem_live_of_mem_fragLanes hl))
  exact ⟨_, _, hex, fun l => mem_exitsOf_exitDispos.trans (and_iff_right_of_imp mem_execLanes),
    roll_retire (hm.trans (congrArg some hroll)) hlive exitDispos_stands fun k => trapsOf_exitDispos k fid _ _⟩

/-- EXIT ends the lanes that execute it, and the group with its last. -/
theorem exit_ends (hc : Calm s gid fid g) (hguard : laneGuard g false f.pred [] false = none)
    (hd : s.drained g.core gid = true) (hq : s.quiet gid (execLanes g fid f.pred) = true) (hh : g.handler = false) :
    ∃ t, exec (.exit f) s = .next t ∧
      (∀ l ∈ execLanes g fid f.pred, ∀ h, t.group? gid = some h → (h.thread? l).map (·.st) = some .exited) ∧
      ((∀ l ∈ g.live, l ∈ execLanes g fid f.pred) → t.group? gid = none) := by
  obtain ⟨t, ls, hex, hls, hroll⟩ := roll_exit hc hguard hd hq hh
  refine ⟨t, hex, fun l hl h hg => ?_, fun hall => ?_⟩
  · have hstands : h.roll.2 = afterExits ls g.roll.2 := by
      rw [State.roll, hg] at hroll
      split at hroll
      · exact congrArg Prod.snd (Option.some.inj hroll)
      · contradiction
    have hlive := mem_live.mp (mem_live_of_mem_fragLanes (mem_execLanes hl))
    have hexited : h.roll.2[l]? = some true := by
      rw [hstands, afterExits_get, if_pos ((hls l).mpr hl), hlive]; rfl
    obtain ⟨th, hth, he⟩ := Option.map_eq_some_iff.mp (List.getElem?_map.symm.trans hexited)
    have hst : th.st = .exited := by cases hs : th.st <;> simp_all [TState.isExited]
    exact Option.map_eq_some_iff.mpr ⟨th, hth, hst⟩
  · have hnone : false ∉ afterExits ls g.roll.2 := by
      intro hm
      obtain ⟨l, hl⟩ := List.mem_iff_getElem?.mp hm
      rw [afterExits_get] at hl
      split at hl
      · simp at hl
      · exact ‹l ∉ ls› ((hls l).mpr (hall l (mem_live.mpr hl)))
    rw [if_neg hnone] at hroll
    exact Option.map_eq_none_iff.mp hroll

end Exit

/-- Settles O11: a branch, call or return sends each lane where its disposition says; EXIT takes its lanes off the roll
of the group one after the other. -/
theorem branchResults : Obligations.BranchResults := by
  refine ⟨⟨?brx, ?uniform, ?jmpi, ?ret⟩, ?exit⟩
  case brx => exact fun f s gid fid g hc hb => brx_leaves hc hb
  case uniform => exact fun f s gid fid g hc hr => ⟨uniBranch_leaves hc rfl hr rfl, call_leaves hc hr⟩
  case jmpi =>
    intro f s gid fid g hc hr hq target halign
    refine uniBranch_leaves hc rfl hr ?_
    simp only [readSWide_quiet hq (f.a.toNat, true)]
    rw [if_pos halign]
  case ret => exact fun f s gid fid g hc hb hstk => ret_leaves hc hb hstk
  case exit => exact fun f s gid fid g hc hguard hd hq hh => exit_ends hc hguard hd hq hh

end Sys2Proof.Machine
end

-- ==== Proofs: the manual's sample words (O57) ====
section
namespace Sys2Proof.Machine

/-- Settles O57: the decoder is run on each word; the bytes are those of the Sazil-L word, least significant first. -/
theorem sampleWords : Obligations.SampleWords := by
  refine ⟨?umaxD, ?umaxL, ?umaxBytes, ?ldL, ?moviD, ?aldD, ?haltD, ?waitD, ?reservedL, ?compact, ?functionD, ?classD⟩
  case umaxBytes => exact (decodeBytes_long 0xC00C0480201000E1 []).trans (map_pair_ok.mpr ⟨by decide, rfl⟩)
  all_goals decide

end Sys2Proof.Machine
end

-- ==== Proofs: the writes of the device itself, as traps make them (O42) ====
section
namespace Sys2Proof.Machine

/-! ## Writes of the device itself (R89, R282)

What a write of the device in a partition's address space depends on, so that a state which agrees in that much takes it
the same way. -/

/-- The registers of a partition that its address space and the way of its traps depend on. -/
def Partition.reach (p : Partition) : DWord × Bool × DWord × DWord × Bool :=
  (p.ptroot, p.secure, p.faultring, p.handler, p.handlerBad)

/-- Two states agree in all that the device's own accesses in a partition's address space depend on, and in the way of
the partition's traps. -/
structure SameReach (part : Nat) (s t : State) : Prop where
  mem : t.mem = s.mem
  regions : t.regions = s.regions
  reach : (t.part part).reach = (s.part part).reach

section Reach
variable {part va : Nat} {bs : List Byte} {s t m : State}

theorem reach_of_parts (h : t.parts = s.parts) : (t.part part).reach = (s.part part).reach := by
  rw [State.part, h]; rfl

theorem part_setPart (s : State) (j k : Nat) (f : Partition → Partition) :
    (s.setPart k f).part j = if j = k then f (s.part k) else s.part j := mapGet_put ..

/-- An update of a partition that spares the registers in question. -/
theorem SameReach.setPart (s : State) (k : Nat) {f : Partition → Partition} (hf : ∀ p, (f p).reach = p.reach) :
    SameReach part s (s.setPart k f) := by
  refine ⟨rfl, rfl, ?_⟩
  rw [part_setPart]
  split
  · subst part; exact hf _
  · rfl

theorem SameReach.ptroot (h : SameReach part s t) : (t.part part).ptroot = (s.part part).ptroot :=
  congrArg (·.1) h.reach

theorem SameReach.secure (h : SameReach part s t) : (t.part part).secure = (s.part part).secure :=
  congrArg (·.2.1) h.reach

theorem SameReach.faultring (h : SameReach part s t) : (t.part part).faultring = (s.part part).faultring :=
  congrArg (·.2.2.1) h.reach

theorem deviceAccess_sameReach (h : SameReach part s t) (va : Nat) (write : Bool) :
    t.deviceAccess part va write = s.deviceAccess part va write := by
  have hn : ∀ a n, t.num a n = s.num a n := fun a n => by simp only [State.num, bytes_congr h.mem]
  have hw : t.walk part va = s.walk part va := by simp only [State.walk, hn, h.ptroot]
  have ha : ∀ pa, t.admits part pa = s.admits part pa := fun pa => by simp only [State.admits, h.regions, h.secure]
  simp only [State.deviceAccess, hw, ha]

/-- Bytes written one by one: the memory they leave depends on the memory before. -/
theorem foldl_write_mem (xs : List (Nat × Byte)) (h : t.mem = s.mem) :
    (xs.foldl (fun s (x : Nat × Byte) => s.write x.1 [x.2]) t).mem =
      (xs.foldl (fun s (x : Nat × Byte) => s.write x.1 [x.2]) s).mem := by
  induction xs generalizing s t with
  | nil => exact h
  | cons x xs ih => exact ih (congrArg (memWrite · x.1 [x.2]) h)

/-- A write of the device leaves the partitions and their memory regions as they are. -/
theorem deviceWrite_frame (h : s.deviceWrite part va bs = .ok m) : (m.regions, m.parts) = (s.regions, s.parts) := by
  unfold State.deviceWrite at h
  split at h
  · cases h
  · split at h <;> cases h
    · rfl
    · exact foldl_keeps (fun m : State => (m.regions, m.parts)) _
        (fun m (x : Nat × Byte) _ => show ((m.write x.1 [x.2]).regions, (m.write x.1 [x.2]).parts) = _ from rfl) s

theorem deviceWrite_parts (h : s.deviceWrite part va bs = .ok m) : m.parts = s.parts :=
  congrArg Prod.snd (deviceWrite_frame h)

/-- The memory that a write of the device leaves depends on no more than `SameReach` compares. -/
theorem deviceWrite_mem (h : SameReach part s t) (hm : s.deviceWrite part va bs = .ok m) :
    ∃ n, t.deviceWrite part va bs = .ok n ∧ n.mem = m.mem := by
  unfold State.deviceWrite at hm ⊢
  simp only [deviceAccess_sameReach h]
  split at hm
  · cases hm
  · split at hm <;> cases hm
    · exact ⟨_, rfl, congrArg (memWrite · _ _) h.mem⟩
    · exact ⟨_, rfl, foldl_write_mem _ h.mem⟩

/-- States that agree so take the write the same way, and agree afterwards. -/
theorem deviceWrite_sameReach (h : SameReach part s t) (hm : s.deviceWrite part va bs = .ok m) :
    ∃ n, t.deviceWrite part va bs = .ok n ∧ SameReach part m n := by
  obtain ⟨n, hn, hmem⟩ := deviceWrite_mem h hm
  obtain ⟨hmr, hmp⟩ := Prod.mk.inj (deviceWrite_frame hm)
  obtain ⟨hnr, hnp⟩ := Prod.mk.inj (deviceWrite_frame hn)
  exact ⟨n, hn, hmem, hnr.trans (h.regions.trans hmr.symm),
    (reach_of_parts hnp).trans (h.reach.trans (reach_of_parts hmp.symm))⟩

/-! ## The fault ring (R282) -/

/-- A write into a partition's fault ring. -/
def State.ringWrite (s : State) (part : Nat) (w : Nat × List Byte) : Except Nat State :=
  s.deviceWrite part ((s.part part).faultring.toNat + 64 * w.1) w.2

theorem ringWrites_sameReach (ws : List (Nat × List Byte)) (h : SameReach part s t)
    (hm : ws.foldlM (·.ringWrite part) s = .ok m) : ∃ n, ws.foldlM (·.ringWrite part) t = .ok n := by
  induction ws generalizing s t with
  | nil => exact ⟨t, rfl⟩
  | cons w ws ih =>
    cases hw : s.ringWrite part w with
    | error e => rw [List.foldlM_cons, hw] at hm; cases hm
    | ok u =>
      obtain ⟨v, hv, hr⟩ := deviceWrite_sameReach h hw
      rw [List.foldlM_cons, hw] at hm
      obtain ⟨n, hn⟩ := ih hr hm
      refine ⟨n, ?_⟩
      rw [List.foldlM_cons, State.ringWrite, h.faultring, hv]
      exact hn

theorem RingWritable.sameReach (h : RingWritable s part) (r : SameReach part s t) : RingWritable t part := by
  obtain ⟨hne, hws⟩ := h
  refine ⟨by rwa [r.faultring], fun ws hb => ?_⟩
  obtain ⟨m, hm⟩ := hws ws hb
  exact ringWrites_sameReach ws r hm

/-- A ring that can be written takes a record, and can be written afterwards. -/
theorem RingWritable.write (h : RingWritable s part) {k : Nat} (hk : k < 4096) (hb : bs.length = 64) :
    ∃ m, s.deviceWrite part ((s.part part).faultring.toNat + 64 * k) bs = .ok m ∧ RingWritable m part := by
  obtain ⟨hne, hws⟩ := h
  have hone : ∀ ws : List (Nat × List Byte), (∀ w ∈ ws, w.1 < 4096 ∧ w.2.length = 64) →
      ∃ t, ((k, bs) :: ws).foldlM (·.ringWrite part) s = .ok t := fun ws hw =>
    hws _ (List.forall_mem_cons.mpr ⟨⟨hk, hb⟩, hw⟩)
  cases hm : s.ringWrite part (k, bs) with
  | error e =>
    obtain ⟨t, ht⟩ := hone [] (by simp)
    rw [List.foldlM_cons, hm] at ht
    cases ht
  | ok m =>
    refine ⟨m, hm, by rwa [State.part, deviceWrite_parts hm], fun ws hw => ?_⟩
    obtain ⟨t, ht⟩ := hone ws hw
    rw [List.foldlM_cons, hm] at ht
    exact ⟨t, ht⟩

theorem faultRecord_length (g : Group) (lane : Nat) (th : Thread) (i : TrapInfo) :
    (faultRecord g lane th i).length = 64 := by
  simp [faultRecord, leBytes_length]

/-- The next free slot is one of the ring's. -/
theorem nextSlot_lt {p : Partition} {k : Nat} (h : p.nextSlot = some k) : k < 4096 := by
  obtain ⟨i, -, rfl⟩ := List.mem_map.mp (List.mem_of_find?_eq_some h)
  exact Nat.mod_lt _ (by decide)

end Reach

end Sys2Proof.Machine
end

-- ==== Proofs: the end of a gang (O42) ====
section
namespace Sys2Proof.Machine

/-! ## The end of a gang (R303, R304)

A group of the gang is gone afterwards; where the block that names the gang is none, no group has changed. -/

theorem mem_of_mapFind {α : Type} {k : Nat} {x : α} {m : SMap α} (h : mapFind k m = some x) : (k, x) ∈ m := by
  induction m with
  | nil => cases h
  | cons e rest ih =>
    obtain ⟨j, y⟩ := e
    rw [mapFind] at h
    split at h
    · cases h; subst k; exact List.mem_cons_self
    · exact List.mem_cons_of_mem _ (ih h)

@[simp] theorem logError_groups (s : State) (part : Nat) (e : LogEntry) : (s.logError part e).groups = s.groups := rfl

@[simp] theorem afterKill_groups (s : State) (rid gang core cause : Nat) :
    (s.afterKill rid gang core cause).groups = s.groups := by
  unfold State.afterKill
  split
  · rfl
  · dsimp only; split <;> simp

/-! ### Lanes of another group leave -/

section Other
variable {s : State} {gid k : Nat} (h : gid ≠ k)
include h

theorem roll_setGroup_of_ne (s : State) (f : Group → Group) : (s.setGroup k f).roll gid = s.roll gid := by
  rw [State.roll, group?_setGroup, if_neg h]; rfl

theorem roll_checkGroup_of_ne (s : State) : (s.checkGroup k).roll gid = s.roll gid := by
  unfold State.checkGroup
  split
  · rfl
  · dsimp only
    split
    · refine (roll_of_groups (checkBlock_groups _ _) gid).trans ?_
      simp [State.roll, State.group?, mapFind_erase, h]
    · rfl

/-- A lane of another group leaves. -/
theorem roll_exitThread_of_ne (s : State) (l : Nat) : (s.exitThread k l).roll gid = s.roll gid := by
  unfold State.exitThread
  split
  · rfl
  · split
    · rfl
    · next t _ =>
      dsimp only
      split
      · rfl
      · refine (roll_checkGroup_of_ne h _).trans ((roll_setGroup_of_ne h _ _).trans ((roll_of_groups rfl gid).trans
          ((foldl_keeps (State.roll · gid) t.producer (fun s n _ => roll_retireProducer s k l n gid) _).trans ?_)))
        split <;> rfl

end Other

/-! ### All lanes of a group leave -/

/-- The lanes of a list exit, one after the other. -/
def State.exitThreads (s : State) (gid : Nat) (ls : List Nat) : State := ls.foldl (fun s l => s.exitThread gid l) s

theorem exitThreads_gone {s : State} {gid : Nat} (h : s.roll gid = none) (ls : List Nat) : s.exitThreads gid ls = s := by
  induction ls with
  | nil => rfl
  | cons l ls ih =>
    have hl : s.exitThread gid l = s := by simp [State.exitThread, Option.map_eq_none_iff.mp h]
    rw [State.exitThreads, List.foldl_cons, hl]
    exact ih

/-- A group that its lanes leave is gone, or it has these lanes as exited. -/
theorem roll_exitThreads {s : State} {gid : Nat} {x : Bool × List Bool} (h : s.roll gid = some x) (hx : false ∈ x.2)
    (ls : List Nat) : (s.exitThreads gid ls).roll gid = none ∨
      (false ∈ afterExits ls x.2 ∧ (s.exitThreads gid ls).roll gid = some (x.1, afterExits ls x.2)) := by
  induction ls generalizing s x with
  | nil => exact .inr ⟨hx, h⟩
  | cons l ls ih =>
    have h1 := roll_exitThread h hx l
    by_cases hs : false ∈ x.2.set l true
    · exact ih (h1.trans (if_pos hs)) hs
    · have hgone : (s.exitThread gid l).roll gid = none := h1.trans (if_neg hs)
      have hrest := exitThreads_gone hgone ls
      exact .inl (by rw [State.exitThreads, List.foldl_cons]; exact (congrArg (State.roll · gid) hrest).trans hgone)

/-- A group that all its lanes leave is gone. -/
theorem roll_exitThreads_all {s : State} {gid : Nat} {x : Bool × List Bool} (h : s.roll gid = some x) (hx : false ∈ x.2) :
    (s.exitThreads gid (List.range x.2.length)).roll gid = none := by
  refine (roll_exitThreads h hx _).resolve_right fun ⟨hm, _⟩ => ?_
  obtain ⟨i, hi⟩ := List.mem_iff_getElem?.mp hm
  rw [afterExits_get] at hi
  split at hi
  · simp at hi
  · next hn => exact hn (List.mem_range.mpr (List.getElem?_eq_some_iff.mp hi).1)

/-- All lanes of a group exit, if it stands. -/
def State.endGroup (s : State) (k : Nat) : State :=
  match s.group? k with
  | none => s
  | some g => s.exitThreads k (List.range g.threads.length)

theorem roll_endGroup_of_ne {gid k : Nat} (h : gid ≠ k) (s : State) : (s.endGroup k).roll gid = s.roll gid := by
  unfold State.endGroup
  split
  · rfl
  · exact foldl_keeps (State.roll · gid) _ (fun s l _ => roll_exitThread_of_ne h s l) s

theorem roll_endGroup {s : State} {gid : Nat} {x : Bool × List Bool} (h : s.roll gid = some x) (hx : false ∈ x.2) :
    (s.endGroup gid).roll gid = none := by
  obtain ⟨g, hg, hr⟩ := Option.map_eq_some_iff.mp h
  have hn : g.threads.length = x.2.length := by rw [← hr, Group.roll, List.length_map]
  simp only [State.endGroup, hg, hn]
  exact roll_exitThreads_all h hx

theorem endGroup_gone {s : State} {gid : Nat} (h : s.roll gid = none) (k : Nat) : (s.endGroup k).roll gid = none := by
  by_cases hk : gid = k
  · subst hk; simp [State.endGroup, Option.map_eq_none_iff.mp h, h]
  · exact (roll_endGroup_of_ne hk s).trans h

/-- Of groups that end one after the other, each is gone. -/
theorem roll_endGroups {s : State} {gid : Nat} {x : Bool × List Bool} (ks : List Nat) (hk : gid ∈ ks)
    (h : s.roll gid = some x) (hx : false ∈ x.2) : (ks.foldl State.endGroup s).roll gid = none := by
  have gone : ∀ (ks : List Nat) (s : State), s.roll gid = none → (ks.foldl State.endGroup s).roll gid = none := by
    intro ks
    induction ks with
    | nil => exact fun _ h => h
    | cons k ks ih => exact fun s h => ih _ (endGroup_gone h k)
  induction ks generalizing s with
  | nil => simp at hk
  | cons k ks ih =>
    by_cases he : gid = k
    · subst he; exact gone ks _ (roll_endGroup h hx)
    · exact ih ((List.mem_cons.mp hk).resolve_left he) ((roll_endGroup_of_ne he s).trans h)

theorem mem_gangBlocks_self {s : State} {bid : Nat} {b : Block} (h : s.block? bid = some b) : bid ∈ s.gangBlocks bid := by
  simp only [State.gangBlocks, h]
  exact List.mem_map.mpr ⟨(bid, b), List.mem_filter.mpr ⟨mem_of_mapFind h, by simp⟩, rfl⟩

/-- The end of a gang ends each of its groups, a lane of which has not exited; where there is no such block nothing
happens. -/
theorem gangKill_cases {s : State} {gid l : Nat} {g : Group} {t : Thread} (hg : s.group? gid = some g)
    (ht : g.thread? l = some t) (hl : t.st.isExited = false) (core cause : Nat) (addr : DWord) :
    s.gangKill g.bid core cause addr = s ∨ (s.gangKill g.bid core cause addr).group? gid = none := by
  have hlive : false ∈ g.roll.2 := by
    refine List.mem_of_getElem? (i := l) (List.getElem?_map.trans ?_)
    rw [← Group.thread?, ht, Option.map_some, hl]
  have hroll : s.roll gid = some g.roll := by rw [State.roll, hg]; rfl
  cases hb : s.block? g.bid with
  | none => exact .inl (by simp only [State.gangKill, hb])
  | some b =>
    refine .inr ((Option.map_eq_none_iff (f := Group.roll)).mp ?_)
    simp only [State.gangKill, hb]
    refine roll_endGroups _ (List.mem_map.mpr ⟨(gid, g), List.mem_filter.mpr ⟨mem_of_mapFind hg, ?_⟩, rfl⟩)
      ((roll_of_groups ?_ gid).trans hroll) hlive
    · exact List.contains_iff_mem.mpr (mem_gangBlocks_self hb)
    · dsimp only
      split <;> simp

end Sys2Proof.Machine
end

-- ==== Proofs: what an exception does to its lane and its group (O42) ====
section
namespace Sys2Proof.Machine

/-! ## What an exception changes of a thread and of its group (R8, R282) -/

/-- Of a thread an exception changes no more than this: the fields that `RaisedIn` leaves open. -/
def TrapTouch (t t' : Thread) : Prop :=
  t' = { t with
    st := t'.st, trap := t'.trap, pennant := t'.pennant, frag := t'.frag, asked := t'.asked
    stores := t'.stores, copies := t'.copies, tiles := t'.tiles
    vhaz := t'.vhaz, phaz := t'.phaz, xhaz := t'.xhaz }

/-- What taking back an ENQ or DEQ and reading operands changes of a thread (R132, R255). -/
def OperandTouch (t t' : Thread) : Prop :=
  t' = { t with asked := t'.asked, stores := t'.stores, copies := t'.copies, tiles := t'.tiles }

theorem OperandTouch.refl (t : Thread) : OperandTouch t t := rfl

theorem OperandTouch.trans {t u v : Thread} (h : OperandTouch t u) (k : OperandTouch u v) : OperandTouch t v := by
  unfold OperandTouch at *
  rw [h] at k
  exact k

/-- The lane is TRAPPED with what is recorded of it, in whatever slot of the ring, and otherwise as it was. -/
def RaisedAs (i : TrapInfo) (t t' : Thread) : Prop :=
  t'.st = .trapped ∧ (∃ k, t'.trap = some { i with slot := k }) ∧ TrapTouch t t'

theorem RaisedAs.raisedIn {t t' : Thread} {i : TrapInfo} (h : RaisedAs i t t') (hpc : i.pc = t.pc) :
    RaisedIn t t' i.cause := by
  obtain ⟨hst, ⟨k, hk⟩, ht⟩ := h
  exact ⟨.inl hst, by rw [hk]; rfl, by rw [hk, ← hpc]; rfl, ht⟩

/-- Of a group the exceptions of its lanes change no more than this. -/
def TrapFrame (g h : Group) : Prop :=
  h = { g with threads := h.threads, frags := h.frags, holds := h.holds, late := h.late, products := h.products }

theorem TrapFrame.trans {g h k : Group} (x : TrapFrame g h) (y : TrapFrame h k) : TrapFrame g k := by
  unfold TrapFrame at *
  rw [x] at y
  exact y

/-- The group changes in no lane but one, and there as a relation of threads says. -/
structure LaneTouch (R : Thread → Thread → Prop) (l : Nat) (g h : Group) : Prop where
  frame : TrapFrame g h
  others : ∀ k, k ≠ l → h.thread? k = g.thread? k
  lane : ∀ t, g.thread? l = some t → ∃ t', h.thread? l = some t' ∧ R t t'

theorem LaneTouch.refl {R : Thread → Thread → Prop} (hR : ∀ t, R t t) (l : Nat) (g : Group) : LaneTouch R l g g :=
  ⟨rfl, fun _ _ => rfl, fun t ht => ⟨t, ht, hR t⟩⟩

theorem LaneTouch.comp {R S T : Thread → Thread → Prop} {l : Nat} {g h k : Group}
    (hT : ∀ t u v, g.thread? l = some t → R t u → S u v → T t v)
    (x : LaneTouch R l g h) (y : LaneTouch S l h k) : LaneTouch T l g k := by
  refine ⟨x.frame.trans y.frame, fun j hj => (y.others j hj).trans (x.others j hj), fun t ht => ?_⟩
  obtain ⟨u, hu, htu⟩ := x.lane t ht
  obtain ⟨v, hv, huv⟩ := y.lane u hu
  exact ⟨v, hv, hT t u v ht htu huv⟩

theorem laneTouch_setThread (l : Nat) (g : Group) (f : Thread → Thread) :
    LaneTouch (fun t t' => g.thread? l = some t ∧ t' = f t) l g (g.setThread l f) := by
  refine ⟨rfl, fun k hk => by rw [thread?_setThread, if_neg hk], fun t ht => ⟨f t, ?_, ht, rfl⟩⟩
  rw [thread?_setThread, if_pos rfl, ht]; rfl

theorem LaneTouch.mono {R S : Thread → Thread → Prop} (hRS : ∀ t u, R t u → S t u) {l : Nat} {g h : Group}
    (x : LaneTouch R l g h) : LaneTouch S l g h :=
  ⟨x.frame, x.others, fun t ht => (x.lane t ht).imp fun u hu => hu.imp_right (hRS t u)⟩

/-- Reading the operands that a lane has still to read changes its counts (R132). -/
theorem laneTouch_closeLate (l : Nat) (g : Group) : LaneTouch OperandTouch l g (g.closeLate (·.lane == l)) := by
  have counts : ∀ (rs : List Late), (∀ r ∈ rs, r.lane = l) → ∀ g : Group,
      LaneTouch OperandTouch l g (rs.foldl (fun g r => g.setThread r.lane (·.count r.counter (· - 1))) g) := by
    intro rs
    induction rs with
    | nil => exact fun _ g => .refl OperandTouch.refl l g
    | cons r rs ih =>
      intro hr g
      obtain ⟨rfl, hrs⟩ := List.forall_mem_cons.mp hr
      have count : ∀ t u, g.thread? r.lane = some t ∧ u = t.count r.counter (· - 1) → OperandTouch t u := by
        rintro t u ⟨-, rfl⟩
        cases r.counter <;> rfl
      exact (laneTouch_setThread r.lane g _).comp (S := OperandTouch) (fun t u v _ h k => (count t u h).trans k) (ih hrs _)
  unfold Group.closeLate
  split
  · obtain ⟨hf, ho, hl⟩ := counts (g.late.filter (·.lane == l)) (fun r hr => by
      simpa using (List.mem_filter.mp hr).2) g
    exact ⟨hf.trans rfl, ho, hl⟩
  · exact .refl OperandTouch.refl l g

/-! ## Where a trap goes (R282, R288) -/

/-- A partition's traps go the same way in two states, and its ring stays writable. -/
structure TrapsAlike (part : Nat) (s t : State) : Prop where
  reach : (t.part part).reach = (s.part part).reach
  ring : RingWritable s part → RingWritable t part

theorem TrapsAlike.trans {part : Nat} {s t u : State} (h : TrapsAlike part s t) (k : TrapsAlike part t u) :
    TrapsAlike part s u := ⟨k.reach.trans h.reach, fun hw => k.ring (h.ring hw)⟩

theorem SameReach.alike {part : Nat} {s t : State} (h : SameReach part s t) : TrapsAlike part s t :=
  ⟨h.reach, (·.sameReach h)⟩

theorem trapsAlike_setGroup (part : Nat) (s : State) (k : Nat) (f : Group → Group) :
    TrapsAlike part s (s.setGroup k f) := SameReach.alike ⟨rfl, rfl, rfl⟩

theorem TrapsAlike.handler {part : Nat} {s t : State} (h : TrapsAlike part s t) :
    (t.part part).handler = (s.part part).handler := congrArg (·.2.2.2.1) h.reach

theorem TrapsAlike.handlerBad {part : Nat} {s t : State} (h : TrapsAlike part s t) :
    (t.part part).handlerBad = (s.part part).handlerBad := congrArg (·.2.2.2.2) h.reach

/-- What ends gangs in a state ends them in the state before. -/
theorem TrapsAlike.kills {s t : State} {g h : Group} {c : Nat} (ha : TrapsAlike g.part s t) (hf : TrapFrame g h)
    (hk : Kills t h c) : Kills s g c := by
  have hh : h.handler = g.handler := by rw [hf]
  have hp : h.part = g.part := by rw [hf]
  simp only [Kills, hh, hp, ha.handler, ha.handlerBad] at hk
  exact hk.imp_right (Or.imp_right (Or.imp_right (Or.imp_right (mt ha.ring))))

theorem kills_of_not_ringWritable {s : State} {g : Group} (h : ¬ RingWritable s g.part) (c : Nat) : Kills s g c :=
  .inr (.inr (.inr (.inr h)))

/-- POISON, and any cause where no usable handler is installed (R288, R291, R303). -/
theorem kills_of_not_installed {s : State} {g : Group} {c : Nat}
    (h : c = 0x11 ∨ (s.part g.part).handler = 0 ∨ (s.part g.part).handlerBad = true) : Kills s g c :=
  .inr (h.imp_right (Or.imp_right .inl))

/-- From a state `s` with the group `g` to `u`: the group stands, and one lane of it has trapped. -/
def LaneStands (s u : State) (gid l : Nat) (g : Group) (i : TrapInfo) : Prop :=
  ∃ h, u.group? gid = some h ∧ LaneTouch (RaisedAs i) l g h ∧ TrapsAlike g.part s u

/-- The same, or the lane's trap ends its gang, and the group is gone. -/
def LaneTraps (s u : State) (gid l : Nat) (g : Group) (i : TrapInfo) : Prop :=
  (u.group? gid = none ∧ Kills s g i.cause) ∨ LaneStands s u gid l g i

section Trap
variable {s u : State} {gid l : Nat} {g : Group} {t : Thread} {i : TrapInfo}

/-- What changes no group leaves the lane as it stands. -/
theorem LaneStands.mono {v : State} (h : LaneStands s u gid l g i) (hg : v.groups = u.groups)
    (ha : TrapsAlike g.part u v) : LaneStands s v gid l g i := by
  obtain ⟨h, hu, hl, ha'⟩ := h
  exact ⟨h, by rw [State.group?, hg]; exact hu, hl, ha'.trans ha⟩

theorem LaneStands.setPart (h : LaneStands s u gid l g i) (k : Nat) {f : Partition → Partition}
    (hf : ∀ p, (f p).reach = p.reach) : LaneStands s (u.setPart k f) gid l g i :=
  h.mono rfl (SameReach.setPart u k hf).alike

theorem LaneStands.setThread (h : LaneStands s u gid l g i) {f : Thread → Thread}
    (hf : ∀ t t', RaisedAs i t t' → RaisedAs i t (f t')) : LaneStands s (u.setThread gid l f) gid l g i := by
  obtain ⟨h, hu, hl, ha⟩ := h
  refine ⟨h.setThread l f, by rw [State.setThread, group?_setGroup, if_pos rfl, hu]; rfl,
    hl.comp (fun t v w _ hr hw => ?_) (laneTouch_setThread l h f), ha.trans (trapsAlike_setGroup ..)⟩
  obtain ⟨-, rfl⟩ := hw
  exact hf t v hr

/-- A record written to the ring (R283). -/
theorem LaneStands.deviceWrite {va : Nat} {bs : List Byte} {m : State} (h : LaneStands s u gid l g i)
    (hm : u.deviceWrite g.part va bs = .ok m) (hr : RingWritable u g.part → RingWritable m g.part) :
    LaneStands s m gid l g i :=
  h.mono (deviceWrite_groups hm) ⟨reach_of_parts (deviceWrite_parts hm), hr⟩

/-- The trap ends the lane's gang (R288, R303). -/
theorem laneTraps_gangKill (ht : g.thread? l = some t) (hs : LaneStands s u gid l g i) (hk : Kills s g i.cause)
    (core cause : Nat) (addr : DWord) : LaneTraps s (u.gangKill g.bid core cause addr) gid l g i := by
  obtain ⟨h, hu, hl, ha⟩ := hs
  obtain ⟨t', ht', hst, -⟩ := hl.lane t ht
  have hb : h.bid = g.bid := by rw [hl.frame]
  obtain he | hgone := gangKill_cases hu ht' (by rw [hst]; rfl) core cause addr
  · rw [hb] at he
    exact .inr ⟨h, by rw [he, hu], hl, by rwa [he]⟩
  · exact .inl ⟨hb ▸ hgone, hk⟩

/-- A lane with its record written goes to its stack's collector, or its gang ends (R288). BKPT's lane,
which may go to the debugger instead, is left out. -/
theorem laneTraps_sendTrapped (ht : g.thread? l = some t) {h : Group} (hf : TrapFrame g h) {k : Option Nat}
    (hs : LaneStands s u gid l g i) (hc : i.cause ≠ 0x12) :
    LaneTraps s (u.sendTrapped gid l h { i with slot := k }) gid l g i := by
  have hb : h.bid = g.bid := by rw [hf]
  have hp : h.part = g.part := by rw [hf]
  obtain ⟨-, -, -, ha⟩ := id hs
  unfold State.sendTrapped
  simp only [hb, hp]
  rw [if_neg (fun h => hc h.1)]
  split
  · next hk =>
    refine laneTraps_gangKill ht hs (kills_of_not_installed ?_) _ _ _
    simpa [ha.handler, ha.handlerBad, imp_iff_not_or] using hk
  · exact .inr (hs.setPart _ fun _ => rfl)

/-- Step 3 of R282. -/
theorem laneTraps_recordTrap (ht : g.thread? l = some t) (hs : LaneStands s u gid l g i) (hc : i.cause ≠ 0x12) :
    LaneTraps s (u.recordTrap gid l) gid l g i := by
  obtain ⟨h, hu, hl, ha⟩ := id hs
  obtain ⟨t', ht', hst, ⟨k, hi⟩, -⟩ := hl.lane t ht
  have hp : h.part = g.part := by rw [hl.frame]
  have hb : h.bid = g.bid := by rw [hl.frame]
  have unusable : ¬ RingWritable u g.part → ∀ e core addr,
      LaneTraps s ((u.logError g.part e).gangKill g.bid core i.cause addr) gid l g i := fun hr e core addr =>
    laneTraps_gangKill ht (u := u.logError g.part e) (hs.setPart _ fun _ => rfl)
      (kills_of_not_ringWritable (mt ha.ring hr) _) _ _ _
  unfold State.recordTrap
  simp only [hu, ht', hi, hp, hb]
  split
  · exact .inr (hs.setPart _ fun _ => rfl)
  · next slot hslot =>
    split
    · next hz => exact unusable (fun hw => hw.1 hz) _ _ _
    · have hwrite := fun hw : RingWritable u g.part =>
        hw.write (nextSlot_lt hslot) (faultRecord_length h l t' { i with slot := k })
      split
      · next e he =>
        refine unusable (fun hw => ?_) _ _ _
        obtain ⟨m, hm, -⟩ := hwrite hw
        rw [hm] at he
        cases he
      · next m hm =>
        have hring : RingWritable u g.part → RingWritable m g.part := fun hw => by
          obtain ⟨m', hm', hw'⟩ := hwrite hw
          rw [hm] at hm'
          cases hm'
          exact hw'
        have hfilled : LaneStands s (m.setPart g.part fun p => { p with ring := setAdd slot p.ring, ringLast := slot })
            gid l g i := (hs.deviceWrite hm hring).setPart _ fun _ => rfl
        refine laneTraps_sendTrapped ht hl.frame (hfilled.setThread ?_) hc
        rintro t₀ t₁ ⟨hst, -, hT⟩
        refine ⟨hst, ⟨_, rfl⟩, ?_⟩
        unfold TrapTouch at hT ⊢
        rw [hT]

/-! ## An exception (R282) -/

/-- A thread that takes back the operation of its ENQ or DEQ. -/
def Thread.takeBack (t : Thread) (id : Nat) : Thread :=
  { t with
    asked := none, vtag := t.vtag.filter (·.2 != id), ptag := t.ptag.filter (·.2 != id)
    loads := if t.vtag.any (·.2 == id) then t.loads - 1 else t.loads }

/-- A thread that enters its trap. -/
def Thread.entered (t : Thread) (i : TrapInfo) : Thread :=
  { t with st := t.st.enterTrap, trap := some i, vhaz := [], phaz := [], xhaz := [] }

theorem enterTrap_issuable : ∀ {st : TState}, st.issuable = true → st.enterTrap = .trapped
  | .ready, _ => rfl
  | .running, _ => rfl

/-- A lane that traps at an ENQ or DEQ takes it back; where nothing is on its way into its registers, none changes. -/
theorem dropAsk_lane (hg : s.group? gid = some g) (ht : g.thread? l = some t) (hset : t.Settled) :
    ∃ h, (s.dropAsk gid l).group? gid = some h ∧ LaneTouch OperandTouch l g h ∧
      SameReach g.part s (s.dropAsk gid l) := by
  have touched : ∀ (f : Thread → Thread) (u : State), OperandTouch t (f t) →
      u.groups = (s.setThread gid l f).groups → SameReach g.part s u →
      ∃ h, u.group? gid = some h ∧ LaneTouch OperandTouch l g h ∧ SameReach g.part s u := by
    refine fun f u hf hu hr => ⟨g.setThread l f, ?_, (laneTouch_setThread l g f).mono ?_, hr⟩
    · rw [State.group?, hu]
      change (s.setGroup gid _).group? gid = _
      rw [group?_setGroup, if_pos rfl, hg]; rfl
    · rintro v w ⟨hv, rfl⟩
      rw [ht] at hv
      cases hv
      exact hf
  unfold State.dropAsk
  split
  · exact ⟨g, hg, .refl OperandTouch.refl l g, ⟨rfl, rfl, rfl⟩⟩
  · dsimp only
    split
    · exact touched (fun t => { t with asked := none }) _ rfl rfl ⟨rfl, rfl, rfl⟩
    · next id st _ _ =>
      refine touched (·.takeBack id) _ ?_ rfl ⟨rfl, rfl, rfl⟩
      simp [OperandTouch, Thread.takeBack, hset.vtag, hset.ptag]

/-- An exception of a settled lane of a group that is no handler wave. -/
theorem laneTraps_takeTrap (hg : s.group? gid = some g) (hh : g.handler = false) (ht : g.thread? l = some t)
    (hset : t.Settled) (hst : t.st.issuable = true) (hc : i.cause ≠ 0x12) :
    LaneTraps s (s.takeTrap gid l i) gid l g i := by
  have hflies : ∀ s : State, s.inFlight t = false := fun s => by simp [State.inFlight, hset.vtag, hset.ptag, mapVals]
  obtain ⟨h, hd, hl, hr⟩ := dropAsk_lane hg ht hset
  have hentered : LaneTouch (RaisedAs i) l g ((h.closeLate (·.lane == l)).setThread l (·.entered i)) := by
    have hoperands := hl.comp (S := OperandTouch) (T := OperandTouch) (fun _ _ _ _ => OperandTouch.trans)
      (laneTouch_closeLate l h)
    refine hoperands.comp (fun t₀ t₁ t₂ h₀ h₁ h₂ => ?_) (laneTouch_setThread l _ _)
    obtain ⟨-, rfl⟩ := h₂
    obtain rfl : t₀ = t := Option.some.inj (h₀.symm.trans ht)
    rw [h₁]
    exact ⟨enterTrap_issuable hst, ⟨i.slot, rfl⟩, rfl⟩
  unfold State.takeTrap
  simp only [hg, hh, ht, Option.any_some, hflies, Bool.false_eq_true, if_false]
  refine laneTraps_recordTrap ht ⟨_, ?_, hentered, hr.alike.trans (trapsAlike_setGroup ..)⟩ hc
  rw [group?_setGroup, if_pos rfl, hd]; rfl

end Trap

end Sys2Proof.Machine
end

-- ==== Proofs: lanes that raise a cause, and privilege (O42) ====
section
namespace Sys2Proof.Machine

/-! ## Exceptions of several lanes (R282) -/

/-- Lanes take their exceptions one after the other. -/
def State.takeTraps (s : State) (gid : Nat) (xs : List (Nat × TrapInfo)) : State :=
  xs.foldl (fun s x => s.takeTrap gid x.1 x.2) s

/-- From a state `s` with the group `g` to `u`: the group stands, and each lane of a list has trapped. -/
structure LanesStand (s u : State) (g h : Group) (xs : List (Nat × TrapInfo)) : Prop where
  frame : TrapFrame g h
  others : ∀ l, l ∉ xs.map (·.1) → h.thread? l = g.thread? l
  lanes : ∀ x ∈ xs, ∀ t, g.thread? x.1 = some t → ∃ t', h.thread? x.1 = some t' ∧ RaisedAs x.2 t t'
  alike : TrapsAlike g.part s u

theorem LanesStand.nil {s u : State} {g h : Group} (hf : TrapFrame g h) (ht : ∀ l, h.thread? l = g.thread? l)
    (ha : TrapsAlike g.part s u) : LanesStand s u g h [] :=
  ⟨hf, fun l _ => ht l, by simp, ha⟩

/-- First one lane traps, then others. -/
theorem LanesStand.cons {s u v : State} {g h k : Group} {x : Nat × TrapInfo} {xs : List (Nat × TrapInfo)}
    (hx : x.1 ∉ xs.map (·.1)) (hl : LaneTouch (RaisedAs x.2) x.1 g h) (ha : TrapsAlike g.part s u)
    (hs : LanesStand u v h k xs) : LanesStand s v g k (x :: xs) := by
  have hp : h.part = g.part := by rw [hl.frame]
  refine ⟨hl.frame.trans hs.frame, fun l hn => ?_, fun y hy t ht => ?_, ha.trans (hp ▸ hs.alike)⟩
  · obtain ⟨hne, hn⟩ := not_or.mp (mt List.mem_cons.mpr hn)
    rw [hs.others l hn, hl.others l hne]
  · obtain rfl | hy := List.mem_cons.mp hy
    · rw [hs.others _ hx]
      exact hl.lane t ht
    · refine hs.lanes y hy t ?_
      rw [hl.others _ fun he => hx (List.mem_map.mpr ⟨y, hy, he⟩)]
      exact ht

theorem takeTraps_gone {s : State} {gid : Nat} (h : s.group? gid = none) (xs : List (Nat × TrapInfo)) :
    s.takeTraps gid xs = s := by
  induction xs with
  | nil => rfl
  | cons x xs ih =>
    have hx : s.takeTrap gid x.1 x.2 = s := by simp only [State.takeTrap, h]
    rw [State.takeTraps, List.foldl_cons, hx]
    exact ih

/-- Settled lanes of a group that is no handler wave take exceptions of one cause: each has trapped, or their gang has
ended. -/
theorem takeTraps_cases {gid c : Nat} (hc : c ≠ 0x12) (xs : List (Nat × TrapInfo)) (hn : (xs.map (·.1)).Nodup)
    {s : State} {g : Group} (hg : s.group? gid = some g) (hh : g.handler = false)
    (hx : ∀ x ∈ xs, x.2.cause = c ∧ ∃ t, g.thread? x.1 = some t ∧ t.Settled ∧ t.st.issuable = true) :
    ((s.takeTraps gid xs).group? gid = none ∧ Kills s g c) ∨
      ∃ h, (s.takeTraps gid xs).group? gid = some h ∧ LanesStand s (s.takeTraps gid xs) g h xs := by
  induction xs generalizing s g with
  | nil => exact .inr ⟨g, hg, .nil rfl (fun _ => rfl) ⟨rfl, id⟩⟩
  | cons x xs ih =>
    obtain ⟨hx1, hn⟩ := List.nodup_cons.mp hn
    obtain ⟨⟨rfl, t, ht, hset, hst⟩, hxs⟩ := List.forall_mem_cons.mp hx
    obtain ⟨hgone, hk⟩ | ⟨h, hu, hl, ha⟩ := laneTraps_takeTrap hg hh ht hset hst hc
    · have he := takeTraps_gone hgone xs
      exact .inl ⟨(congrArg (State.group? · gid) he).trans hgone, hk⟩
    · have hrest : ∀ y ∈ xs, h.thread? y.1 = g.thread? y.1 := fun y hy =>
        hl.others _ fun he => hx1 (List.mem_map.mpr ⟨y, hy, he⟩)
      obtain ⟨hgone, hk⟩ | ⟨k, hv, hs⟩ := ih hn hu (by rw [hl.frame]; exact hh) fun y hy => by
        rw [hrest y hy]; exact hxs y hy
      · exact .inl ⟨hgone, ha.kills hl.frame hk⟩
      · exact .inr ⟨k, hv, hs.cons hx1 hl ha⟩

/-! ## Retiring an instruction that every lane of a fragment raises a cause at (R56) -/

/-- Every lane raises a cause. -/
def raising (ls : List Nat) (r : Raise) : List (Nat × Dispo) := ls.map fun l => (l, .raise r)

/-- What is recorded of the lanes that raise a cause. -/
theorem trapsOf_raising (g : Group) (fid : Nat) (ls : List Nat) (r : Raise) :
    trapsOf g fid (raising ls r) = (withThreads g ls).map fun x => (x.1, trapInfoOf g fid x.2 r) := by
  simp only [trapsOf, raising, withThreads, List.filterMap_map, List.map_filterMap]
  refine List.filterMap_congr fun l _ => ?_
  cases ht : g.thread? l <;> simp [ht]

theorem exitsOf_raising (ls : List Nat) (r : Raise) : exitsOf (raising ls r) = [] := by
  simp [exitsOf, raising]

theorem parksIn_raising (ls : List Nat) (r : Raise) : parksIn (raising ls r) = false := by
  simp [parksIn, raising, Dispo.key]

/-- Before its lanes trap, the group has lost what no lane needs any more of its fragments, and may hold its other
lanes (R126). -/
theorem retired_raising {g : Group} {ls : List Nat} (hne : ls ≠ []) (hn : ls.Nodup) (fid : Nat) (len : DWord)
    (r : Raise) (n : Nat) : TrapFrame g (g.retired fid len (raising ls r) n) ∧
      ∀ l, (g.retired fid len (raising ls r) n).thread? l = g.thread? l := by
  have hparts : partsOf (raising ls r) = [(.raise, ls)] := partsOf_const ls _ .raise hne fun _ _ => rfl
  have hall : g.leaveAll len (raising ls r) = ls.foldl (fun g l => g.setThread l fun t => t) g :=
    leaveAll_map g len ls fun _ => .raise r
  have hframe : TrapFrame g (g.leaveAll len (raising ls r)) := by
    rw [hall, TrapFrame, onlyThreads_foldl (fun l : Nat => l) (fun _ t => t) ls g]
  have hthread : ∀ l, (g.leaveAll len (raising ls r)).thread? l = g.thread? l := fun l => by
    rw [hall, lanesAfter_foldl ls hn (fun _ t => t) g l]
    simp
  unfold Group.retired
  rw [closeLate_none _ _ fun x _ => by simp [raising, Dispo.settles]]
  rw [hparts, divide_one, parksIn_raising]
  unfold Group.noteHold
  split
  · exact ⟨hframe.trans rfl, hthread⟩
  · exact ⟨hframe.trans rfl, hthread⟩

section Raising
variable {s : State} {gid fid : Nat} {g : Group} {r : Raise}

/-- Retiring is then the exceptions of the lanes, from a state in which none of them has trapped. -/
theorem retire_raising (hg : s.group? gid = some g) (hne : g.fragLanes fid ≠ []) (len : DWord) :
    ∃ (m : State) (g1 : Group), s.retire gid fid len (raising (g.fragLanes fid) r) =
        m.takeTraps gid ((withThreads g (g.fragLanes fid)).map fun x => (x.1, trapInfoOf g fid x.2 r)) ∧
      m.group? gid = some g1 ∧ LanesStand s m g g1 [] := by
  let ds := raising (g.fragLanes fid) r
  let g1 := g.retired fid len ds s.seq
  obtain ⟨hf, ht⟩ : TrapFrame g g1 ∧ ∀ l, g1.thread? l = g.thread? l :=
    retired_raising hne (fragLanes_nodup g fid) fid len r s.seq
  refine ⟨(s.setGroup gid fun _ => g1).setCore g1.core (·.follow (gid, fid) (g1.keptFrag (partsOf ds))), g1, ?_, ?_,
    .nil hf ht (SameReach.alike ⟨rfl, rfl, rfl⟩)⟩
  · simp only [State.retire, hg, exitsOf_raising, trapsOf_raising, parksIn_raising]
    rfl
  · rw [group?_setCore, group?_setGroup, if_pos rfl, hg]; rfl

/-- A settled fragment of a group that is no handler wave, all of whose lanes raise a cause at an instruction: none
completes it. -/
theorem lanesTrap_of_raising {i : Instr} {len : DWord} (hc : Calm s gid fid g) (hh : g.handler = false)
    (hr : r.cause ≠ 0x12) (hi : exec i s = .next (s.retire gid fid len (raising (g.fragLanes fid) r))) :
    LanesTrap i s gid g (g.fragLanes fid) r.cause := by
  obtain ⟨m, g1, hm, hg1, h1⟩ := retire_raising (r := r) hc.group hc.lanes len
  rw [hm] at hi
  set xs := (withThreads g (g.fragLanes fid)).map fun x => (x.1, trapInfoOf g fid x.2 r) with hxs
  have hthreads : ∀ l, g1.thread? l = g.thread? l := fun l => h1.others l (by simp)
  have hp : g1.part = g.part := by rw [h1.frame]
  have hn : (xs.map (·.1)).Nodup := by
    rw [hxs, List.map_map]
    exact withThreads_nodup g _ (fragLanes_nodup g fid)
  have htraps := takeTraps_cases hr xs hn hg1 (by rw [h1.frame]; exact hh) fun x hx => by
    obtain ⟨⟨l, t⟩, hlt, rfl⟩ := List.mem_map.mp hx
    obtain ⟨hl, ht⟩ := mem_withThreads.mp hlt
    obtain ⟨t', ht', hst, -⟩ := mem_fragLanes.mp hl
    obtain rfl : t = t' := Option.some.inj (ht.symm.trans ht')
    exact ⟨rfl, t, (hthreads l).trans ht, hc.settled l hl t ht, hst⟩
  refine ⟨_, hi, ?_, fun l hl t ht h hu => ?_⟩
  · exact htraps.imp (fun h => h1.alike.kills h1.frame h.2) fun ⟨h, hu, _⟩ => by rw [hu]; rfl
  · obtain ⟨hgone, -⟩ | ⟨h', hu', hs⟩ := htraps
    · rw [hu] at hgone; cases hgone
    · obtain rfl : h = h' := Option.some.inj (hu.symm.trans hu')
      obtain ⟨t', ht', hraised⟩ := hs.lanes _ (List.mem_map_of_mem (mem_withThreads.mpr ⟨hl, ht⟩)) t
        ((hthreads l).trans ht)
      exact ⟨t', ht', .inr ⟨hraised.raisedIn rfl, h1.frame.trans hs.frame⟩⟩

/-- A PRIV instruction whose predicate holds, in a group that is neither privileged nor a handler wave (R65). -/
theorem lanesTrap_priv {i : Instr} {pred : BitVec 4} {fn : State → Nat → Group → List Nat → UniOut}
    (hc : Calm s gid fid g) (hp : g.privileged = false) (hh : g.handler = false) (ha : uniActive g pred = true)
    (hi : exec i s = privInstr pred fn s) : LanesTrap i s gid g (g.fragLanes fid) 7 := by
  refine lanesTrap_of_raising (r := { cause := 7 }) (len := 8) hc hh (by decide) (hi.trans (issue_one hc ?_))
  simp only [uniFragment, hc.group, ha, hp, hh]
  rfl

end Raising

/-- Settles O42: every PRIV instruction is framed by `privInstr`, which has all lanes of such a group raise PROT before
the instruction's own meaning is looked at. -/
theorem privilegeRule : Obligations.PrivilegeRule := by
  intro f m s gid fid g hc hp hh
  refine ⟨fun ha => ⟨?tlbinv, ?halt, ?errlog⟩, fun ha => ⟨?csave, ?cload⟩⟩
  all_goals exact lanesTrap_priv hc hp hh ha rfl

end Sys2Proof.Machine
end

-- ==== Proofs: conversions (O5) ====
section
namespace Sys2Proof.Machine

/-- Settles O5: each conversion is executed as one calculation on whole runs of registers (R82), from the source run, and
for CVTX the scale register, to the destination run (R84); the instruction frames it with a draw for each element under
SR, and the elements are those of R83. -/
theorem conversionResults : Obligations.ConversionResults := by
  intro f dt st rnd n sr pd ps
  refine ⟨?cvt, ?cvtp, ?cvtx⟩
  case cvt => exact vecCompletes_reg fun s => show execCvt f s = _ from rfl
  case cvtp => exact vecCompletes_reg fun s => show execCvtp f s = _ from rfl
  case cvtx => exact vecCompletes_reg fun s => show execCvtx f s = _ from rfl

end Sys2Proof.Machine
end

-- ==== Proofs: migration (O38) ====
section
namespace Sys2Proof.Machine

/-! ## Instructions that wait for nothing, and those of a fragment as a whole -/

/-- An instruction that need not wait at issue executes as one that never waits. -/
theorem issueAfter_ready {s : State} {gid fid : Nat} {g : Group} (hc : Calm s gid fid g) {w : Waits}
    (hw : w s gid fid = (true, s)) (f : State → Nat → Nat → Option State) : issueAfter w f s = issue f s := by
  obtain ⟨c, b, hcur, hb⟩ := hc.atIssue
  simp only [issueAfter, issue, hcur, hb, waitAll, hw, Bool.and_true, if_true]

/-- An instruction that acts on its fragment as a whole, and whose group goes on from the state `m`. -/
theorem group_effect {i : Instr} {s m n : State} {gid fid : Nat} {g g1 : Group} {sh : Shape} {o : Bool}
    {fn : State → Nat → Nat → Group → List Nat → UniOut} (hc : Calm s gid fid g)
    (hi : exec i s = issue (groupFragment sh fn) s) (hguard : laneGuard g true sh.pred sh.runs sh.forbidden = none)
    (hfn : fn s gid fid g (g.fragLanes fid) = .done m (.next o)) (hn : OnlyGroup n m gid)
    (hm : m.group? gid = some g1) (hl : g1.fragLanes fid = g.fragLanes fid)
    (hs : ∀ l ∈ g1.fragLanes fid, ∀ t, g1.thread? l = some t → t.Settled) :
    GroupEffect i s n gid fid sh.len o g1 := by
  obtain ⟨h, e1, e2, e3, e4⟩ := aged_goesOn m gid fid sh.len o (max 1 sh.stall) g1 hm (by rw [hl]; exact hc.lanes) hs
  refine ⟨_, h, hi.trans (issue_one hc ?_), hn.trans e2, e1, e3, e4⟩
  simp only [groupFragment, hc.group, hguard, hfn, hl]

/-- An instruction that no open region permits, and that its group may issue, is outside any. -/
theorem region_of_laneGuard {g : Group} {unpred : Bool} {pred : BitVec 4} {runs : List (Nat × Nat)}
    (h : laneGuard g unpred pred runs true = none) : g.region = false := by
  unfold laneGuard at h
  rcases ite_eq_iff.mp h with ⟨-, h⟩ | ⟨-, h⟩
  · cases h
  · simpa using h

/-! ## MIGRATE (R108) -/

theorem migrate_effect {f : RForm} {s : State} {gid fid : Nat} {g : Group} (hc : Calm s gid fid g)
    (hguard : laneGuard g true f.pred [] true = none) {target : Option Enc}
    (ht : target = none ∧ (if f.c = 0 then Enc.l else Enc.d) = g.enc ∨
      target = some (if f.c = 0 then Enc.l else Enc.d) ∧ (if f.c = 0 then Enc.l else Enc.d) ≠ g.enc ∧
        ((s.block? g.bid).any fun b => b.hdr.encD && b.hdr.encL) = true) :
    GroupEffect (.migrate f) s s gid fid 8 false { g with pendMig := target } := by
  refine group_effect (m := s.setGroup gid fun g => { g with pendMig := target })
    (sh := { pred := f.pred, forbidden := true, stall := f.stall.toNat }) hc rfl hguard ?_
    (onlyGroup_setGroup s gid _) (by rw [group?_setGroup, if_pos rfl, hc.group]; rfl) rfl hc.settled
  obtain ⟨rfl, he⟩ | ⟨rfl, hne, hb⟩ := ht
  · exact if_pos he
  · exact (if_neg hne).trans (if_pos hb)

/-! ## EQPT (R105 to R107, R109) -/

/-- A group whose lanes of a list have noted an equivalence point. -/
def Group.noted (g : Group) (ls : List Nat) (p : Nat × Word × Word) : Group :=
  ls.foldl (fun g k => g.setThread k fun t => { t with eq := some p }) g

section Noted
variable (g : Group) {ls : List Nat} (hn : ls.Nodup) (p : Nat × Word × Word)

theorem noted_eq : g.noted ls p = { g with threads := (g.noted ls p).threads } := by
  obtain ⟨ts, h, -⟩ := foldl_setThread (fun l : Nat => l) (fun _ t => { t with eq := some p }) ls g
  rw [Group.noted, h]

include hn

theorem noted_lanes : LanesAfter ls (fun _ t => { t with eq := some p }) g (g.noted ls p) :=
  lanesAfter_foldl ls hn _ g

theorem noted_fragLanes (fid : Nat) : (g.noted ls p).fragLanes fid = g.fragLanes fid :=
  fragLanes_map (fun _ t => { t with eq := some p }) (fun _ _ => ⟨rfl, rfl⟩) ls (noted_lanes g hn p) (foldl_len ls _ g)

theorem noted_settled {l : Nat} {t : Thread} (h : ∀ t, g.thread? l = some t → t.Settled)
    (ht : (g.noted ls p).thread? l = some t) : t.Settled := by
  rw [noted_lanes g hn p l] at ht
  split at ht
  · obtain ⟨t0, ht0, rfl⟩ := Option.map_eq_some_iff.mp ht
    obtain ⟨h1, h2, h3, h4, h5, h6⟩ := h t0 ht0
    exact ⟨h1, h2, h3, h4, h5, h6⟩
  · exact h t ht

end Noted

/-- The state once a fragment's lanes have noted a point. -/
def State.noted (s : State) (gid : Nat) (ls : List Nat) (p : Nat × Word × Word) : State := s.setGroup gid (·.noted ls p)

theorem State.noted_group? {s : State} {gid : Nat} {g : Group} (h : s.group? gid = some g) (ls : List Nat)
    (p : Nat × Word × Word) : (s.noted gid ls p).group? gid = some (g.noted ls p) := by
  rw [State.noted, group?_setGroup, if_pos rfl, h]; rfl

/-- Without the migration policy, or for a kernel of one encoding, an equivalence point asks for nothing. -/
theorem eqptPolicy_idle {s : State} {gid fid : Nat} {g : Group} (hg : s.group? gid = some g)
    (h : ((s.part g.part).migpol && (s.block? g.bid).any fun b => b.hdr.encD && b.hdr.encL) = false) :
    eqptPolicy s gid fid = (true, s) := by
  simp [eqptPolicy, hg, h]

/-- An equivalence point waits for nothing where no migration is asked for, or where nothing of the group is in flight. -/
theorem eqptWaits_ready {s : State} {gid fid : Nat} {g : Group} (hg : s.group? gid = some g)
    (h : g.pendMig = none ∨ s.drained g.core gid = true ∧ s.quiet gid g.live = true) :
    eqptWaits s gid fid = (true, s) := by
  obtain h | ⟨hd, hq⟩ := h
  · simp [eqptWaits, hg, h]
  · simp [eqptWaits, hg, State.drainGroup, hd, hq]

/-- EQPT where it asks and waits for nothing. -/
theorem eqpt_issues {f : I16Form} {s : State} {gid fid : Nat} {g : Group} (hc : Calm s gid fid g)
    (hp : ((s.part g.part).migpol && (s.block? g.bid).any fun b => b.hdr.encD && b.hdr.encL) = false)
    (hw : g.pendMig = none ∨ s.drained g.core gid = true ∧ s.quiet gid g.live = true) :
    exec (.eqpt f) s = issue (eqptFragment f) s :=
  issueAfter_ready hc (by rw [eqptPolicy_idle hc.group hp]; exact eqptWaits_ready hc.group hw) _

/-- A settled lane has no future pending. -/
theorem futurePending_settled {t : Thread} (h : t.Settled) : t.futurePending = false := by
  simp [Thread.futurePending, h.fut]

/-- EQPT that only notes its point. -/
theorem eqpt_notes {f : I16Form} {s : State} {gid fid : Nat} {g : Group} (hc : Calm s gid fid g)
    (hguard : laneGuard g true f.pred [] true = none) (hm : g.pendMig = none)
    (hp : ((s.part g.part).migpol && (s.block? g.bid).any fun b => b.hdr.encD && b.hdr.encL) = false)
    {fn : State → Nat → Nat → Group → List Nat → UniOut} {p : Nat × Word × Word}
    (hf : eqptFragment f = groupFragment { pred := f.pred, forbidden := true } fn)
    (hfn : fn s gid fid g (g.fragLanes fid) = .done (s.noted gid (g.fragLanes fid) p) (.next true)) :
    GroupEffect (.eqpt f) s s gid fid 8 true { g with threads := (g.noted (g.fragLanes fid) p).threads } := by
  have hn := fragLanes_nodup g fid
  rw [← noted_eq]
  exact group_effect hc (hf ▸ eqpt_issues hc hp (.inl hm)) hguard hfn (onlyGroup_setGroup s gid _)
    (State.noted_group? hc.group _ p) (noted_fragLanes g hn p fid) fun l hl t ht =>
      noted_settled g hn p (hc.settled l (noted_fragLanes g hn p fid ▸ hl)) ht

/-! ## EQPT at a point of the map -/

/-- A fragment's lanes stand at a point of their kernel's map, of which `r` is the record, and hold nothing that the map could
not take along. -/
structure AtPoint (f : I16Form) (s : State) (g : Group) (lanes : List Nat) (b : Block) (r : EqRecord) : Prop where
  block : s.block? g.bid = some b
  encD : b.hdr.encD = true
  encL : b.hdr.encL = true
  map : b.hdr.eqmap ≠ 0
  found : s.findRecord g.part b.hdr.eqmap.toNat b.hdr.eqlen f.imm.toNat (b.hdr.eqlen / 16 + 1) 0 = .ok (some r)
  here : (if g.enc = .d then r.dpc else r.lpc).setWidth 64 = g.pcOf lanes - b.hdr.text g.enc
  valid : r.valid b.hdr g.enc (lanes.filterMap g.thread?) = true
  unarmed : g.armed = false
  settled : ∀ l ∈ lanes, ∀ t, g.thread? l = some t → t.Settled
  returns : ∀ l ∈ lanes, ∀ t, g.thread? l = some t → t.rstk = []

section Point
variable {f : I16Form} {s : State} {g : Group} {lanes : List Nat} {b : Block} {r : EqRecord}

/-- No lane of the fragment has a future pending or an address to return to. -/
theorem AtPoint.free (h : AtPoint f s g lanes b r) :
    ((lanes.filterMap g.thread?).any fun t => t.futurePending || !t.rstk.isEmpty) = false := by
  rw [List.any_eq_false]
  intro t ht
  obtain ⟨l, hl, ht⟩ := List.mem_filterMap.mp ht
  simp [futurePending_settled (h.settled l hl t ht), h.returns l hl t ht]

/-- The record is the one of the offset at which the group stands in the text that it runs. -/
theorem AtPoint.offset (h : AtPoint f s g lanes b r) : ((if g.enc = .d then r.dpc else r.lpc).setWidth 64 !=
    g.pcOf lanes - b.hdr.text g.enc) = false := by
  rw [h.here, bne_self_eq_false]

end Point

/-! ## Registers moved to the other encoding (R107) -/

/-- A thread of a group that moves. -/
def Thread.moved (r : EqRecord) (e : Enc) (t : Thread) : Thread := if t.st.isExited then t else t.move r e

section Moved
variable (g : Group) (r : EqRecord) (h : KHdr)

theorem moved_st (e : Enc) (t : Thread) : (t.moved r e).st = t.st := by unfold Thread.moved; split <;> rfl

theorem moved_frag (e : Enc) (t : Thread) : (t.moved r e).frag = t.frag := by unfold Thread.moved; split <;> rfl

theorem move_thread? (l : Nat) : (g.move r h).thread? l = (g.thread? l).map (·.moved r g.enc) := List.getElem?_map

theorem move_fragLanes (fid : Nat) : (g.move r h).fragLanes fid = g.fragLanes fid := by
  refine fragLanes_map (fun _ t => t.moved r g.enc) (fun _ t => ⟨moved_st r g.enc t, moved_frag r g.enc t⟩)
    (List.range g.threads.length) (fun l => ?_) (List.length_map ..)
  rw [move_thread?]
  split
  · rfl
  · next hl =>
    have : g.thread? l = none := List.getElem?_eq_none (by simpa using hl)
    rw [this]; rfl

/-- A thread that can issue has moved, and has no latency of a result running. -/
theorem move_thread?_issuable {l : Nat} {t : Thread} (ht : g.thread? l = some t) (hi : t.st.issuable = true) :
    (g.move r h).thread? l = some (t.move r g.enc) := by
  have he : t.st.isExited = false := by cases hst : t.st <;> simp_all [TState.issuable, TState.isExited]
  rw [move_thread?, ht, Option.map_some, Thread.moved, he]
  rfl

theorem move_plain {fid l : Nat} {t : Thread} (hl : l ∈ (g.move r h).fragLanes fid) (ht : (g.move r h).thread? l = some t) :
    t.Plain := by
  rw [move_fragLanes] at hl
  obtain ⟨t0, ht0, hi, -⟩ := mem_fragLanes.mp hl
  rw [move_thread?_issuable g r h ht0 hi] at ht
  cases ht
  exact ⟨rfl, rfl, rfl⟩

end Moved

theorem setGroup_classCore (s : State) (gid : Nat) (f : Group → Group) (p stack : Nat) (e : Enc) :
    (s.setGroup gid f).classCore p stack e = s.classCore p stack e := rfl

/-- The PC at which a group goes on in the other encoding. -/
def EqRecord.landing (r : EqRecord) (h : KHdr) (e : Enc) : DWord :=
  h.text (other e) + (if e = .d then r.lpc else r.dpc).setWidth 64 + 8

section Point
variable {f : I16Form} {s : State} {gid fid : Nat} {g : Group} {b : Block} {r : EqRecord} (hc : Calm s gid fid g)
  (hguard : laneGuard g true f.pred [] true = none) (hp : (s.part g.part).migpol = false)
  (h : AtPoint f s g (g.fragLanes fid) b r)
include hc hguard hp h

/-- EQPT at a point, where no migration is asked for. -/
theorem eqpt_point (hm : g.pendMig = none) : GroupEffect (.eqpt f) s s gid fid 8 true
    { g with threads := (g.noted (g.fragLanes fid) (f.imm.toNat, r.dpc, r.lpc)).threads } := by
  refine eqpt_notes hc hguard hm (by rw [hp]; rfl) rfl ?_
  have ho := h.offset
  cases he : g.enc <;> simp only [he, reduceCtorEq, if_true, if_false] at ho <;>
    simp only [h.block, h.encD, h.encL, h.map, h.found, he ▸ h.valid, h.unarmed, h.free, hm, ho, if_false,
      Bool.not_true, Bool.and_true, Bool.or_false, Bool.false_eq_true] <;> rfl

/-- EQPT at a point where the whole group stands and a migration to the other encoding is asked for: the group's registers
have moved as the map names them, and its threads wait for a core of that encoding. -/
theorem eqpt_migrates (hm : g.pendMig = some (other g.enc)) (hall : g.fragLanes fid = g.live)
    (hd : s.drained g.core gid = true) (hq : s.quiet gid g.live = true)
    (hcore : s.classCore g.part (g.core / 32) (other g.enc) = true)
    (hal : alignedFor (other g.enc) (r.landing b.hdr g.enc) = true) (hu : Unread g fid) :
    Leaves (.eqpt f) s (((s.noted gid (g.fragLanes fid) (f.imm.toNat, r.dpc, r.lpc)).setCore g.core (·.dropGroup gid)).setGroup gid
      (·.move r b.hdr)) gid fid (fun _ t => t.leave 8 (.migrate (r.landing b.hdr g.enc)))
      ((g.noted (g.fragLanes fid) (f.imm.toNat, r.dpc, r.lpc)).move r b.hdr) := by
  have hn := fragLanes_nodup g fid
  have hl : ((g.noted (g.fragLanes fid) (f.imm.toNat, r.dpc, r.lpc)).move r b.hdr).fragLanes fid = g.fragLanes fid := by
    rw [move_fragLanes, noted_fragLanes g hn]
  refine group_leaves hc (eqpt_issues (f := f) hc (by rw [hp]; rfl) (.inr ⟨hd, hq⟩)) hguard ?_ ?_ hl
    (fun l hl t ht => move_plain _ _ _ hl ht) rfl fun _ x hx => ?_
  · have ho := h.offset
    have hlen : ((g.fragLanes fid).length != g.live.length) = false := by rw [hall, bne_self_eq_false]
    cases he : g.enc <;>
      simp only [he, reduceCtorEq, if_true, if_false, EqRecord.landing, other] at ho hal hcore <;>
      simp only [h.block, h.encD, h.encL, h.map, h.found, he ▸ h.valid, h.unarmed, h.free, hm, ho, hlen, hal, he, other, hcore,
        setGroup_classCore, if_false, Bool.not_true, Bool.and_true, Bool.or_false, Bool.false_eq_true] <;> rfl
  · rw [group?_setGroup, if_pos rfl, group?_setCore, State.noted_group? hc.group]; rfl
  · rw [hl]
    exact hu x (by rw [noted_eq] at hx; exact hx)

end Point

/-! ## Migration (R105 to R109) -/

/-- A kernel that carries some encoding is that of a block. -/
theorem block_of_getD {o : Option Block} {p : KHdr → Bool} (hp : p {} = false)
    (h : p ((o.map (·.hdr)).getD {}) = true) : ∃ b, o = some b := by
  cases o with
  | none => exact absurd (hp.symm.trans h) (by decide)
  | some b => exact ⟨b, rfl⟩

/-- What EQPT at a point does where a migration is asked for and may take place. -/
theorem eqpt_moves {f : I16Form} {s : State} {gid fid : Nat} {g : Group} {b : Block} {r : EqRecord} (hc : Calm s gid fid g)
    (hguard : laneGuard g true f.pred [] true = none) (hp : (s.part g.part).migpol = false)
    (h : AtPoint f s g (g.fragLanes fid) b r) (hm : g.pendMig = some (other g.enc)) (hall : g.fragLanes fid = g.live)
    (hd : s.drained g.core gid = true) (hq : s.quiet gid g.live = true)
    (hcore : s.classCore g.part (g.core / 32) (other g.enc) = true)
    (hal : alignedFor (other g.enc) (r.landing b.hdr g.enc) = true) (hu : Unread g fid) :
    ∃ t k, exec (.eqpt f) s = .next t ∧ t.mem = s.mem ∧ (∀ j, j ≠ gid → t.group? j = s.group? j) ∧
      t.group? gid = some k ∧ k.enc = other g.enc ∧ k.residence = .migrating ∧ k.pendMig = none ∧
      k.vregs = b.hdr.vregs (other g.enc) ∧ k.s = moveMap 0 (r.codes g.enc 1) g.s ∧
      k.a = moveMap {} (r.codes g.enc 2) g.a ∧ k.q = moveBits (r.codes g.enc 5) g.q ∧
      ∀ l ∈ g.live, ∀ th, g.thread? l = some th → ∃ th', k.thread? l = some th' ∧ th'.st = .migrating ∧
        th'.pc = r.landing b.hdr g.enc ∧ th'.v = moveMap 0 (r.codes g.enc 0) th.v ∧
        th'.p = moveBits (r.codes g.enc 4) th.p := by
  obtain ⟨t, k, hx, ho, hk, hrest, -, hlanes⟩ := eqpt_migrates hc hguard hp h hm hall hd hq hcore hal hu
  have hn := fragLanes_nodup g fid
  have hkeep := noted_eq g (ls := g.fragLanes fid) (f.imm.toNat, r.dpc, r.lpc)
  refine ⟨t, k, hx, by rw [ho.rest]; rfl, fun j hj => ?_, hk, ?_, ?_, ?_, ?_, ?_, ?_, ?_, fun l hl th hth => ?_⟩
  · rw [ho.others j hj, group?_setGroup, if_neg hj, group?_setCore, State.noted, group?_setGroup, if_neg hj]
  · rw [hrest, hkeep]; rfl
  · rw [hrest]; rfl
  · rw [hrest]; rfl
  · rw [hrest, hkeep]; rfl
  · rw [hrest, hkeep]; rfl
  · rw [hrest, hkeep]; rfl
  · rw [hrest, hkeep]; rfl
  · rw [← hall] at hl
    obtain ⟨t0, ht0, hi, -⟩ := mem_fragLanes.mp hl
    rw [hth] at ht0; cases ht0
    have hnoted := noted_lanes g hn (f.imm.toNat, r.dpc, r.lpc) l
    rw [if_pos hl, hth] at hnoted
    have hmoved := move_thread?_issuable _ r b.hdr hnoted hi
    obtain ⟨fr, hth'⟩ := hlanes l (by rw [move_fragLanes, noted_fragLanes g hn]; exact hl) _ hmoved
    exact ⟨_, hth', rfl, rfl, by rw [hkeep]; rfl, by rw [hkeep]; rfl⟩

/-- Settles O38: MIGRATE only notes the class (`migrate_effect`); EQPT notes its point (`eqpt_notes`, `eqpt_point`), and moves
the whole group where a migration is asked for and nothing is in flight (`eqpt_moves`). -/
theorem migrationResults : Obligations.MigrationResults := by
  intro s gid fid g hc hdr lanes
  have hdr_of : ∀ {b}, s.block? g.bid = some b → hdr = b.hdr := fun hb => by simp [hdr, hb]
  refine ⟨?migrate, ?unmapped, ?mapped⟩
  case migrate =>
    intro f hguard target
    refine ⟨fun ht => migrate_effect hc hguard (.inl ⟨rfl, ht⟩), fun ht hD hL => ?_⟩
    obtain ⟨b, hb⟩ := block_of_getD (p := KHdr.encD) rfl hD
    rw [hdr_of hb] at hD hL
    exact migrate_effect hc hguard (.inr ⟨rfl, ht, by simp [hb, hD, hL]⟩)
  case unmapped =>
    intro f hguard hb hm hboth
    obtain ⟨b, hb⟩ := Option.isSome_iff_exists.mp hb
    rw [hdr_of hb] at hboth
    refine eqpt_notes hc hguard hm (by simp [hb, hboth]) rfl ?_
    simp only [hb, hboth]; rfl
  case mapped =>
    intro f r hguard hb hD hL hmap hp hfound here there hhere hvalid harm hret
    obtain ⟨b, hb⟩ := Option.isSome_iff_exists.mp hb
    rw [hdr_of hb] at hD hL hmap hfound hhere hvalid ⊢
    have hpt : AtPoint f s g lanes b r := ⟨hb, hD, hL, hmap, hfound, hhere, hvalid, harm, hc.settled, hret⟩
    exact ⟨eqpt_point hc hguard hp hpt, eqpt_moves hc hguard hp hpt⟩

end Sys2Proof.Machine
end

-- ==== Proofs: stores of the launch unit and placed records (O35, O36) ====
section
namespace Sys2Proof.Machine

/-! ## What the launch unit's stores leave as it was (R89) -/

/-- Everything but device memory. -/
def OnlyMemory (s t : State) : Prop := t = { s with mem := t.mem, poison := t.poison }

theorem OnlyMemory.refl (s : State) : OnlyMemory s s := rfl

theorem OnlyMemory.trans {s t u : State} (h : OnlyMemory s t) (h' : OnlyMemory t u) : OnlyMemory s u := by
  unfold OnlyMemory at *
  rw [h] at h'
  exact h'

/-- What a state that differs in memory alone has of the rest. -/
theorem OnlyMemory.proj {α : Type} {s t : State} (h : OnlyMemory s t) (p : State → α)
    (hp : ∀ (m : SMap Byte) (k : List Nat), p { s with mem := m, poison := k } = p s) : p t = p s :=
  (congrArg p h).trans (hp t.mem t.poison)

theorem writes_onlyMemory (xs : List (Nat × Byte)) (s : State) :
    OnlyMemory s (xs.foldl (fun s (x : Nat × Byte) => s.write x.1 [x.2]) s) := by
  induction xs generalizing s with
  | nil => rfl
  | cons x xs ih => exact OnlyMemory.trans (t := s.write x.1 [x.2]) rfl (ih _)

section Stores
variable {part va n x : Nat} {s t : State}

theorem deviceWrite_onlyMemory {bs : List Byte} (h : s.deviceWrite part va bs = .ok t) : OnlyMemory s t := by
  unfold State.deviceWrite at h
  split at h
  · cases h
  · split at h <;> cases h
    · rfl
    · exact writes_onlyMemory ..

variable (s part va n x) in
theorem deviceStore_onlyMemory : OnlyMemory s (s.deviceStore part va n x) := by
  unfold State.deviceStore
  split
  · exact deviceWrite_onlyMemory ‹_›
  · rfl

theorem SameReach.symm (h : SameReach part s t) : SameReach part t s := ⟨h.mem.symm, h.regions.symm, h.reach.symm⟩

/-- The launch unit's stores depend on no more than the device's writes do. -/
theorem deviceStore_sameReach (h : SameReach part s t) :
    SameReach part (s.deviceStore part va n x) (t.deviceStore part va n x) := by
  unfold State.deviceStore
  cases hs : s.deviceWrite part va (leBytes n x) with
  | ok m =>
    obtain ⟨k, hk, hr⟩ := deviceWrite_sameReach h hs
    rw [hk]
    exact hr
  | error e =>
    cases ht : t.deviceWrite part va (leBytes n x) with
    | ok k =>
      obtain ⟨m, hm, -⟩ := deviceWrite_sameReach h.symm ht
      rw [hs] at hm
      cases hm
    | error e => exact h

end Stores

theorem putFields_onlyMemory (s : State) (r : Launch) : OnlyMemory s (s.putFields r) := by
  unfold State.putFields
  dsimp only
  refine OnlyMemory.trans ?_ ((deviceStore_onlyMemory ..).trans ((deviceStore_onlyMemory ..).trans
      (deviceStore_onlyMemory ..)))
  split
  · rfl
  · exact deviceStore_onlyMemory ..

section Fields
variable (s : State) (r : Launch)

@[simp] theorem putFields_launches : (s.putFields r).launches = s.launches :=
    (putFields_onlyMemory s r).proj _ fun _ _ => rfl
@[simp] theorem putFields_lqueues : (s.putFields r).lqueues = s.lqueues :=
    (putFields_onlyMemory s r).proj _ fun _ _ => rfl
@[simp] theorem putFields_blocks : (s.putFields r).blocks = s.blocks := (putFields_onlyMemory s r).proj _ fun _ _ => rfl
@[simp] theorem putFields_cores : (s.putFields r).cores = s.cores := (putFields_onlyMemory s r).proj _ fun _ _ => rfl
@[simp] theorem putFields_parts : (s.putFields r).parts = s.parts := (putFields_onlyMemory s r).proj _ fun _ _ => rfl
@[simp] theorem putFields_msix : (s.putFields r).msix = s.msix := (putFields_onlyMemory s r).proj _ fun _ _ => rfl

end Fields

/-! ## Placing a record (R89, R99) -/

theorem lqueue_setLQueue (s : State) (j k : Nat) (f : LQueue → LQueue) :
    (s.setLQueue k f).lqueue j = if j = k then f (s.lqueue k) else s.lqueue j := mapGet_put ..

section Place
variable (s : State) (part q : Nat) (addr : DWord) (parent : Option Nat) (parentAddr : DWord) (depth : Nat)

/-- A record is placed: the launch unit's fields are in memory, it is the last of its queue, and it is tracked as not read. -/
theorem enqueueRecord_placed : RecordPlaced s (s.enqueueRecord part q addr parent parentAddr depth).2 part q addr
    parentAddr parent depth
    (s.enqueueRecord part q addr parent parentAddr depth).1 := by
  refine ⟨?_, ?_, { addr := addr, part := part, queue := q, order := s.placed, parent := parent, parentAddr := parentAddr, depth := depth },
    ?_, rfl, rfl, rfl, rfl, rfl, rfl, rfl, rfl⟩
  · simp only [State.enqueueRecord, State.putFields, if_true]
    generalize hn : State.setLQueue _ _ _ = n
    have hr : SameReach part s n := by subst hn; exact ⟨rfl, rfl, rfl⟩
    exact (deviceStore_sameReach (deviceStore_sameReach (deviceStore_sameReach hr))).mem
  · simp only [State.enqueueRecord, State.lqueue, putFields_lqueues]
    exact (congrArg LQueue.records (lqueue_setLQueue ..)).trans (by simp [State.lqueue])
  · simp only [State.enqueueRecord, State.launch?, putFields_launches]
    exact mapFind_insert_self ..

@[simp] theorem enqueueRecord_groups : (s.enqueueRecord part q addr parent parentAddr depth).2.groups = s.groups := by
  simp [State.enqueueRecord]
@[simp] theorem enqueueRecord_blocks : (s.enqueueRecord part q addr parent parentAddr depth).2.blocks = s.blocks := by
  simp [State.enqueueRecord]
@[simp] theorem enqueueRecord_cores : (s.enqueueRecord part q addr parent parentAddr depth).2.cores = s.cores := by
  simp [State.enqueueRecord]

end Place

end Sys2Proof.Machine
end

-- ==== Proofs: child grids (O35) ====
section
namespace Sys2Proof.Machine

/-! ## SPAWN of one record (R99) -/

/-- A device access that succeeds is translated, of the right kind, and in memory that the partition's quota and world allow. -/
theorem deviceAccess_ok {s : State} {part va pa : Nat} (h : s.deviceAccess part va true = .ok pa) :
    ∃ e, s.walk part va = some e ∧ va < 2 ^ 56 ∧ e.w = true ∧ inDevice (e.pa va) = true ∧
      s.admits part (e.pa va) = true := by
  unfold State.deviceAccess at h
  split at h
  · cases h
  · next hva =>
    split at h
    · cases h
    · next e he =>
      refine ⟨e, he, Nat.lt_of_not_le hva, ?_⟩
      split_ifs at h <;> simp_all

/-- Once a record has been placed, its number joins the children of the group. -/
def adoptChild (gid : Nat) (x : Nat × State) : State :=
  x.2.setGroup gid fun g => { g with children := setAdd x.1 g.children }

/-- A SPAWN that places its record does nothing else but remember the child. -/
theorem spawn_cases {s m : State} {gid : Nat} {g : Group} {addr : DWord} (h : s.spawn gid g addr = .ok m) :
    ∃ q, m = adoptChild gid (s.enqueueRecord g.part q addr ((s.launchOf g).map (·.1))
        (((s.launchOf g).map (·.2.addr)).getD 0)
      (s.depthOf g + 1)) := by
  unfold State.spawn at h
  dsimp only at h
  iterate 8 (split at h; · cases h)
  generalize (if leNat _ = 255 then _ else _ : Nat) = q at h
  iterate 2 (split at h; · cases h)
  cases h
  exact ⟨q, rfl⟩

/-- A SPAWN of a record that it may place, in a queue that has room. -/
theorem spawn_ok {s : State} {gid pa q : Nat} {g : Group} {addr : DWord} {named : Byte} (hal : addr.toNat % 128 = 0)
    (hdepth : s.depthOf g ≠ 16) (hacc : s.deviceAccess g.part addr.toNat true = .ok pa)
    (hread : s.deviceRead g.part (addr.toNat + 0x28) 1 = .ok [named])
    (hq : q = if named = 255 then ((s.launchOf g).map (·.2.queue)).getD 64 else named.toNat) (hlt : q < 64)
    (hown : (s.part g.part).lqueues.getLsbD q = true) (hroom : (s.lqueue q).records.length < 256) :
    s.spawn gid g addr = .ok (adoptChild gid (s.enqueueRecord g.part q addr ((s.launchOf g).map (·.1))
      (((s.launchOf g).map (·.2.addr)).getD 0) (s.depthOf g + 1))) := by
  obtain ⟨e, hwalk, hva, hw, hdev, hadm⟩ := deviceAccess_ok hacc
  have hname : (if leNat [named] = 255 then ((s.launchOf g).map (·.2.queue)).getD 64 else leNat [named]) = q := by
    have : leNat [named] = named.toNat := by simp [leNat]
    rw [hq, this]
    exact if_congr (by rw [← BitVec.toNat_inj]; rfl) rfl rfl
  have hok : ¬ (64 ≤ q ∨ (!(s.part g.part).lqueues.getLsbD q) = true) := by simp [hown]; omega
  simp only [State.spawn, hal, hdepth, hwalk, hw, hdev, hadm, hread, hname, hok, Nat.not_le.mpr hva,
      Nat.not_le.mpr hroom, ne_eq,
    not_true_eq_false, if_false, Bool.not_true, Bool.false_eq_true]
  rfl

section Adopt
variable (s : State) (gid : Nat) {g : Group} (part q : Nat) (addr : DWord) (parent : Option Nat)
    (parentAddr : DWord) (depth : Nat)

/-- What placing a child leaves of the groups. -/
theorem adoptChild_group? (hg : s.group? gid = some g) :
    (adoptChild gid (s.enqueueRecord part q addr parent parentAddr depth)).group? gid =
      some { g with children := setAdd (s.enqueueRecord part q addr parent parentAddr depth).1 g.children } := by
  rw [adoptChild, group?_setGroup, if_pos rfl, State.group?, enqueueRecord_groups]
  exact congrArg (Option.map _) hg

theorem adoptChild_others {k : Nat} (hk : k ≠ gid) :
    (adoptChild gid (s.enqueueRecord part q addr parent parentAddr depth)).group? k = s.group? k := by
  rw [adoptChild, group?_setGroup, if_neg hk, State.group?, enqueueRecord_groups]; rfl

end Adopt

/-- A SPAWN changes of its group the children alone. -/
theorem spawn_group? {s m : State} {gid : Nat} {g : Group} {addr : DWord} (h : s.spawn gid g addr = .ok m) {k : Group}
    (hk : s.group? gid = some k) : ∃ cs, m.group? gid = some { k with children := cs } := by
  obtain ⟨q, rfl⟩ := spawn_cases h
  exact ⟨_, adoptChild_group? s gid _ _ _ _ _ _ hk⟩

/-! ## SPAWN and USPAWN (R99) -/

/-- A pair of registers as a settled lane has it. -/
theorem readWide_settled {g : Group} {t : Thread} {a : Nat} (hs : t.Settled) (h : Within g t [(a, 2)]) :
    readWide g t true a = .ok (valueOf g t (a, 2)) := by
  obtain ⟨rs, hrs⟩ := h (a, 2) (by simp)
  have hpair : rs = [a, a + 1] := by
    simp only [physRun, show ¬ 2 ≤ 1 by decide, if_false] at hrs
    split at hrs <;> cases hrs
    rfl
  have h2 : readRun g t a 2 = .ok [mapGet 0 t.v a, mapGet 0 t.v (a + 1)] := by
    simp only [readRun, hrs, hpair, List.mapM_cons, List.mapM_nil, readReg_settled hs]
    rfl
  simp only [readWide, if_true, h2, Except.map, valueOf, regsOf, hrs, hpair, wordsNat, List.map_cons,
      List.map_nil, packElems,
    List.getD_cons_zero, List.getD_cons_succ, Nat.mod_eq_of_lt (BitVec.isLt _)]
  congr 1

/-- Lanes that each succeed in a step of their own, in turn. -/
theorem seqLanes_steps {fn : State → Nat → Thread → LaneOut} {step : State → Nat × Thread → Except Stop State}
    {d : Dispo}
    (P : State → Prop) (xs : List (Nat × Thread))
    (h : ∀ x ∈ xs, ∀ m m', P m → step m x = .ok m' → fn m x.1 x.2 = .done m' d ∧ P m') {s m : State} (hp : P s)
    (hx : xs.foldlM step s = .ok m) : seqLanes fn xs s = some (m, xs.map fun x => (x.1, d)) ∧ P m := by
  induction xs generalizing s with
  | nil => cases hx; exact ⟨rfl, hp⟩
  | cons x xs ih =>
    obtain ⟨l, t⟩ := x
    rw [List.foldlM_cons] at hx
    cases hs : step s (l, t) with
    | error e => rw [hs] at hx; cases hx
    | ok s' =>
      rw [hs] at hx
      obtain ⟨h1, h2⟩ := h (l, t) (by simp) s s' hp hs
      obtain ⟨k1, k2⟩ := ih (fun y hy => h y (by simp [hy])) h2 hx
      dsimp only at h1
      exact ⟨by simp only [seqLanes, h1, k1, Option.map_some, List.map_cons], k2⟩

section Issue
variable {f : RForm} {s m : State} {gid fid : Nat} {g : Group} (hc : Calm s gid fid g)
    (hd : s.drained g.core gid = true)
include hc hd

theorem drainFirst_ready (sh : Shape) : drainFirst sh s gid fid = (true, s) := by
  unfold drainFirst
  cases s.willRun sh gid fid <;> simp [hc.group, State.drainGroup, hd]

theorem uniWaits_ready (pred : BitVec 4) : uniWaits pred s gid fid = (true, s) := by
  simp [uniWaits, hc.group, State.drainGroup, hd]

/-- SPAWN: each executing lane in turn places its record, and a region opens after it. -/
theorem spawn_leaves (hguard : laneGuard g false f.pred [(f.a.toNat, 2)] false = none)
    (hw : ∀ l t, (l, t) ∈ executing g fid false f.pred → Within g t [(f.a.toNat, 2)])
    (hm : (executing g fid false f.pred).foldlM
      (fun m x => m.spawn gid g (BitVec.ofNat 64 (valueOf g x.2 (f.a.toNat, 2)))) s = .ok m) :
    ∃ cs, m.group? gid = some { g with children := cs } ∧ Leaves (.spawn f) s m gid fid
      (fun _ t => t.onward (laneActive g false f.pred t)) { g with children := cs } := by
  let sh : Shape := { pred := f.pred, runs := [(f.a.toNat, 2)], stall := f.stall.toNat }
  obtain ⟨hseq, cs, hcs⟩ := seqLanes_steps (fn := spawnLane f gid) (d := .next true)
    (fun m => ∃ cs, m.group? gid = some { g with children := cs }) (actives g fid sh)
    (fun ⟨l, t⟩ hx m m' ⟨cs, hcs⟩ hst => ⟨by
      obtain ⟨hl, ht, -⟩ := mem_actives.mp hx
      have hread : readWide { g with children := cs } t true f.a.toNat = .ok (valueOf g t (f.a.toNat, 2)) :=
        readWide_settled (hc.settled l hl t ht) (hw l t hx)
      have hst' : m.spawn gid { g with children := cs } (BitVec.ofNat 64 (valueOf g t (f.a.toNat, 2))) = .ok m' := hst
      simp only [spawnLane, hcs, hread, hst'], by
      obtain ⟨cs', h⟩ := spawn_group? hst hcs
      exact ⟨cs', h⟩⟩) ⟨g.children, hc.group⟩ hm
  refine ⟨cs, hcs, seq_leaves_each (i := .spawn f) (g' := { g with children := cs }) (sh := sh)
    (d := fun _ _ => .next true) hc (issueAfter_ready hc (drainFirst_ready hc hd sh) _) hguard hseq
    (fun _ _ => rfl) (fun _ _ h => nomatch h) hcs rfl hc.plain (.refl m gid) rfl rfl (fun _ _ => rfl) _ fun l _ t ht =>
      ⟨t, t, t.frag, ht, ht, ?_⟩⟩
  split <;> simp_all [Thread.leave, Thread.onward, sh] <;> rfl

/-- USPAWN: the group places one record, and a region opens after it. -/
theorem uspawn_effect (hq : g.Quiet) (ha : uniActive g f.pred = true)
    (hm : s.spawn gid g (BitVec.ofNat 64 (uniValue g (f.a.toNat, true))) = .ok m) :
    ∃ cs, GroupEffect (.uspawn f) s m gid fid 8 true { g with children := cs } := by
  obtain ⟨cs, hcs⟩ := spawn_group? hm hc.group
  refine ⟨cs, uniInstr_done (i := .uspawn f) hc (issueAfter_ready hc (uniWaits_ready hc hd f.pred) _) rfl ha ?_ hcs
      rfl hc.settled⟩
  simp only [readSWide_quiet hq (f.a.toNat, true), hm]

omit hd in
/-- GRIDWAIT, whose children are all final. -/
theorem gridwait_goesOn (ha : uniActive g f.pred = true) (h : ∀ r ∈ g.children, s.childFinal r = true) :
    GroupEffect (.gridwait f) s s gid fid 8 false { g with children := [] } := by
  have hnone : (g.children.filter fun r => !s.childFinal r) = [] := by simpa [List.filter_eq_nil_iff] using h
  obtain ⟨t, k, h1, h2, h3⟩ := uniInstr_done (i := .gridwait f) (o := false) (g1 := { g with children := [] })
    (m := s.setGroup gid fun g => { g with children := [] }) hc rfl rfl ha
        (by simp only [hnone, List.isEmpty_nil, if_true])
    (by rw [group?_setGroup, if_pos rfl, hc.group]; rfl) rfl hc.settled
  exact ⟨t, k, h1, (onlyGroup_setGroup s gid _).trans h2, h3⟩

omit hd in
/-- GRIDWAIT parks behind the children while some is not final. -/
theorem gridwait_parks (ha : uniActive g f.pred = true) (h : ∃ r ∈ g.children, s.childFinal r = false) :
    Leaves (.gridwait f) s s gid fid (fun _ t => { t.onward with st := .parked (.children g.children) }) g := by
  obtain ⟨r, hr, hf⟩ := h
  have hsome : (g.children.filter fun r => !s.childFinal r).isEmpty = false := by
    rw [List.isEmpty_eq_false_iff_exists_mem]
    exact ⟨r, List.mem_filter.mpr ⟨hr, by simp [hf]⟩⟩
  exact uni_leaves (i := .gridwait f) (d := .parkNext (.children g.children) false) hc rfl rfl ha
    (by simp only [hsome, Bool.false_eq_true, if_false]) hc.group rfl hc.plain rfl fun h => nomatch h

end Issue

/-- Settles O35: a spawn that may places its record and remembers the child (`spawn_ok`, `enqueueRecord_placed`); SPAWN does so
lane by lane (`spawn_leaves`), USPAWN once (`uspawn_effect`); GRIDWAIT goes on or parks by the children's STATUS. -/
theorem spawnResults : Obligations.SpawnResults := by
  intro f s gid fid g hc hq hd lanes parent family
  refine ⟨?one, fun hguard hw m => spawn_leaves hc hd hguard hw, fun ha m => uspawn_effect hc hd hq ha,
    fun ha => ⟨gridwait_goesOn hc ha, gridwait_parks hc ha⟩⟩
  intro addr pa named hal hdepth hacc hread q hlt hown hroom
  obtain ⟨hmem, hrec, r, hr⟩ := enqueueRecord_placed s g.part q addr (parent.map (·.1))
      ((parent.map (·.2.addr)).getD 0) (s.depthOf g + 1)
  have hg := adoptChild_group? s gid g.part q addr (parent.map (·.1)) ((parent.map (·.2.addr)).getD 0)
      (s.depthOf g + 1) hc.group
  refine ⟨_, _, spawn_ok hal hdepth hacc hread rfl hlt hown hroom, ⟨enqueueRecord_cores .., enqueueRecord_blocks ..,
    fun k hk => adoptChild_others s gid _ _ _ _ _ _ hk, _, hg⟩, hg, hmem, hrec, r, hr⟩

end Sys2Proof.Machine
end

-- ==== Proofs: what the launch unit does to records (O36) ====
section
namespace Sys2Proof.Machine

/-! ## What the launch unit's operations do to records, queues and interrupts (R89 to R91) -/

theorem launch?_setLaunch (s : State) (j k : Nat) (f : Launch → Launch) :
    (s.setLaunch k f).launch? j = if j = k then (s.launch? k).map f else s.launch? j := mapFind_update ..

theorem launch?_of_launches {s t : State} (h : t.launches = s.launches) (k : Nat) : t.launch? k = s.launch? k := by
  rw [State.launch?, h]; rfl

/-- An update of an entry that is not there is none. -/
theorem mapUpdate_none {α : Type} {k : Nat} {m : SMap α} (h : mapFind k m = none) (f : α → α) :
    mapUpdate k f m = m := by
  unfold mapUpdate
  rw [h]

section Records
variable (s : State) (k n : Nat)

@[simp] theorem putStatus_launches : (s.putStatus k n).launches =
    mapUpdate k (fun r => { r with status := n }) s.launches := by
  unfold State.putStatus
  split
  · exact (mapUpdate_none ‹_› _).symm
  · exact putFields_launches ..

@[simp] theorem putReason_launches : (s.putReason k n).launches =
    mapUpdate k (fun r => { r with reason := n }) s.launches := rfl

@[simp] theorem leaveQueue_launches : (s.leaveQueue k).launches =
    mapUpdate k (fun r => { r with queued := false }) s.launches := by
  unfold State.leaveQueue
  split
  · exact (mapUpdate_none ‹_› _).symm
  · rfl

@[simp] theorem finish_launches : (s.finish k n).launches =
    mapUpdate k (fun r => { r with queued := false }) (mapUpdate k (fun r => { r with status := n }) s.launches) := by
  unfold State.finish
  split
  · have h : mapFind k s.launches = none := ‹_›
    rw [mapUpdate_none h, mapUpdate_none h]
  · exact (leaveQueue_launches ..).trans (congrArg _ (putStatus_launches ..))

@[simp] theorem putStatus_msix : (s.putStatus k n).msix = s.msix := by
  unfold State.putStatus
  split
  · rfl
  · exact putFields_msix ..

@[simp] theorem leaveQueue_msix : (s.leaveQueue k).msix = s.msix := by
  unfold State.leaveQueue
  split <;> rfl

variable {s k} {r : Launch} (h : s.launch? k = some r)
include h

theorem putStatus_launch? : (s.putStatus k n).launch? k = some { r with status := n } := by
  rw [State.launch?, putStatus_launches, mapFind_update, if_pos rfl, ← State.launch?, h]; rfl

/-- A record that is final has left its queue, whose vector is raised (R90). -/
theorem finish_launch? : (s.finish k n).launch? k = some { r with status := n, queued := false } := by
  rw [State.launch?, finish_launches, mapFind_update, if_pos rfl, mapFind_update, if_pos rfl, ← State.launch?, h]; rfl

theorem finish_msix : (s.finish k n).msix = r.queue :: s.msix := by
  simp [State.finish, h, State.raise]

/-- A record that is refused (R91). -/
theorem refuse_launch? : (s.refuse k n).launch? k = some { r with reason := n, status := 6, queued := false } :=
  finish_launch? (r := { r with reason := n }) 6 (by rw [State.putReason, launch?_setLaunch, if_pos rfl, h]; rfl)

theorem refuse_msix : (s.refuse k n).msix = r.queue :: s.msix :=
  finish_msix (r := { r with reason := n }) 6 (by rw [State.putReason, launch?_setLaunch, if_pos rfl, h]; rfl)

end Records

/-! ## Launches settle (R90, R91, R101) -/

section Settle
variable (s : State) (k : Nat)

/-- What the settling of a record can come to. -/
theorem settle_cases : s.settle k = s ∨ ∃ r, s.launch? k = some r ∧ (r.status = 3 ∨ r.status = 4) ∧
    (s.settle k = s.putStatus k 4 ∨ s.settle k = s.finish k 5 ∨ ∃ c, s.settle k = (s.putReason k c).finish k 7) := by
  unfold State.settle
  split
  · exact .inl rfl
  · next r hr =>
    split
    · next hst =>
      split
      · split
        · exact .inl rfl
        · exact .inr ⟨r, hr, hst.1, .inl rfl⟩
      · refine .inr ⟨r, hr, hst.1, .inr ?_⟩
        split
        · exact .inr ⟨_, rfl⟩
        · exact .inl rfl
    · exact .inl rfl

/-- What the review of a record can come to. -/
theorem review_cases : s.review k = s ∨ ∃ r, s.launch? k = some r ∧ r.status = 1 ∧
    ((∃ e, s.review k = s.refuse k e) ∨
      s.review k = (s.setLaunch k fun r => { r with grid := s.freshGrid }).putStatus k 2) := by
  cases hr : s.launch? k with
  | none => exact .inl (by simp only [State.review, hr])
  | some r =>
    by_cases hst : r.status = 1
    · cases ha : s.afters r r.after with
      | error e => exact .inr ⟨r, rfl, hst,
            .inl ⟨e, by simp only [State.review, hr, hst, ha, ne_eq, not_true_eq_false, if_false]⟩⟩
      | ok b =>
        cases b
        · exact .inl (by simp only [State.review, hr, hst, ha, ne_eq, not_true_eq_false, if_false])
        · exact .inr ⟨r, rfl, hst, .inr (by simp only [State.review, hr, hst, ha, ne_eq, not_true_eq_false, if_false])⟩
    · exact .inl (by simp only [State.review, hr, hst, ne_eq, not_false_eq_true, if_true])

/-- What holds of a state, and is kept as records settle and are reviewed, holds when all have settled. -/
theorem settleAll_induction {P : State → Prop} (hs : ∀ s k, P s → P (s.settle k)) (hr : ∀ s k, P s → P (s.review k))
    {s : State} (h : P s) : P s.settleAll := by
  have hfold : ∀ {κ : Type} (f : State → κ → State) (xs : List κ), (∀ s x, P s → P (f s x)) →
      ∀ s, P s → P (xs.foldl f s) := by
    intro κ f xs hf
    induction xs with
    | nil => exact fun _ h => h
    | cons x xs ih => exact fun s h => ih _ (hf s x h)
  exact hfold _ _ (fun s _ h => hfold _ _ (fun s k h => hr _ k (hs s k h)) s h) s h

end Settle

end Sys2Proof.Machine
end

-- ==== Proofs: grid numbers in use (O36) ====
section
namespace Sys2Proof.Machine

/-! ## Grid numbers in use (R87)

A record takes a grid number once, when it becomes ELIGIBLE. The numbers in use and the records that may still take
one are together never more than the records that there are, so that a record which takes one finds one free. -/

theorem mem_mapInsert {α : Type} {k : Nat} {v : α} {m : SMap α} {x : Nat × α} (h : x ∈ mapInsert k v m) :
    x = (k, v) ∨ x ∈ m := by
  induction m with
  | nil => exact .inl (List.mem_singleton.mp h)
  | cons e rest ih =>
    obtain ⟨j, y⟩ := e
    simp only [mapInsert] at h
    split at h
    · exact (List.mem_cons.mp h).imp_right (List.mem_cons_of_mem _)
    · split at h
      · exact List.mem_cons.mp h
      · rcases List.mem_cons.mp h with rfl | h
        · exact .inr List.mem_cons_self
        · exact (ih h).imp_right (List.mem_cons_of_mem _)

theorem mem_mapUpdate {α : Type} {k : Nat} {f : α → α} {m : SMap α} {x : Nat × α} (h : x ∈ mapUpdate k f m) :
    x ∈ m ∨ ∃ r, mapFind k m = some r ∧ x = (k, f r) := by
  unfold mapUpdate at h
  split at h
  · next r hr => exact (mem_mapInsert h).symm.imp_right fun e => ⟨r, hr, e⟩
  · exact .inl h

/-- A record whose grid is alive. -/
def Launch.alive (r : Launch) : Bool := 2 ≤ r.status && r.status ≤ 4

/-- The grid numbers of the grids alive. -/
def gridsOf (m : SMap Launch) : Finset Nat := ((m.filter fun x => x.2.alive).map (·.2.grid)).toFinset

/-- The records that may still take a grid number. -/
def pendingOf (m : SMap Launch) : Finset Nat := (m.map (·.1)).toFinset.filter fun k => (mapFind k m).any (·.status ≤ 1)

/-- How many grid numbers are in use or may still be taken. -/
def gridNeed (m : SMap Launch) : Nat := (gridsOf m).card + (pendingOf m).card

theorem mem_gridsOf {m : SMap Launch} {n : Nat} : n ∈ gridsOf m ↔ ∃ x ∈ m, x.2.alive = true ∧ x.2.grid = n := by
  simp [gridsOf, and_assoc]

theorem mem_pendingOf {m : SMap Launch} {k : Nat} : k ∈ pendingOf m ↔ ∃ r, mapFind k m = some r ∧ r.status ≤ 1 := by
  simp only [pendingOf, Finset.mem_filter, List.mem_toFinset, Option.any_eq_true, decide_eq_true_eq]
  exact ⟨fun h => h.2, fun ⟨r, hr, hs⟩ => ⟨List.mem_map.mpr ⟨_, mem_of_mapFind hr, rfl⟩, r, hr, hs⟩⟩

/-- Not alive yet and alive: no record is both. -/
theorem gridNeed_le_length (m : SMap Launch) : gridNeed m ≤ m.length := by
  have h1 : (gridsOf m).card ≤ m.countP fun x => x.2.alive := by
    rw [List.countP_eq_length_filter]
    exact (List.toFinset_card_le _).trans (List.length_map ..).le
  have h2 : (pendingOf m).card ≤ m.countP fun x => !x.2.alive := by
    have hsub : pendingOf m ⊆ ((m.filter fun x => !x.2.alive).map (·.1)).toFinset := fun k hk => by
      obtain ⟨r, hr, hs⟩ := mem_pendingOf.mp hk
      have hna : r.alive = false := by simp [Launch.alive]; omega
      exact List.mem_toFinset.mpr (List.mem_map.mpr ⟨(k, r), List.mem_filter.mpr ⟨mem_of_mapFind hr,
          by simp [hna]⟩, rfl⟩)
    rw [List.countP_eq_length_filter]
    exact (Finset.card_le_card hsub).trans ((List.toFinset_card_le _).trans (List.length_map ..).le)
  have h3 := List.length_eq_countP_add_countP (fun x : Nat × Launch => x.2.alive) (l := m)
  unfold gridNeed
  simp only [Bool.not_eq_true, Bool.decide_eq_false] at h3
  omega

/-- An update of a record that takes no grid number, or takes one for the first time. -/
def Launch.Proceeds (r y : Launch) : Prop :=
  ((y.alive = true → r.alive = true ∧ y.grid = r.grid) ∧ (y.status ≤ 1 → r.status ≤ 1)) ∨
      (r.status ≤ 1 ∧ y.alive = true)

theorem gridsOf_update {k : Nat} {f : Launch → Launch} {m : SMap Launch} {r : Launch} (hr : mapFind k m = some r) :
    gridsOf (mapUpdate k f m) ⊆ insert (f r).grid (gridsOf m) ∧
      (((f r).alive = true → r.alive = true ∧ (f r).grid = r.grid) → gridsOf (mapUpdate k f m) ⊆ gridsOf m) := by
  refine ⟨fun n hn => ?_, fun h n hn => ?_⟩ <;> obtain ⟨x, hx, ha, rfl⟩ := mem_gridsOf.mp hn <;>
    obtain hx | ⟨y, hy, rfl⟩ := mem_mapUpdate hx
  · exact Finset.mem_insert_of_mem (mem_gridsOf.mpr ⟨x, hx, ha, rfl⟩)
  · cases hr.symm.trans hy
    exact Finset.mem_insert_self ..
  · exact mem_gridsOf.mpr ⟨x, hx, ha, rfl⟩
  · cases hr.symm.trans hy
    exact mem_gridsOf.mpr ⟨(k, r), mem_of_mapFind hr, (h ha).1, (h ha).2.symm⟩

theorem gridNeed_update {k : Nat} {f : Launch → Launch} {m : SMap Launch}
    (h : ∀ r, mapFind k m = some r → r.Proceeds (f r)) : gridNeed (mapUpdate k f m) ≤ gridNeed m := by
  cases hr : mapFind k m with
  | none => rw [mapUpdate_none hr]
  | some r =>
    have hfind : ∀ j, mapFind j (mapUpdate k f m) = if j = k then some (f r) else mapFind j m := fun j => by
      rw [mapFind_update, hr]; rfl
    obtain ⟨hone, hsame⟩ := gridsOf_update (f := f) hr
    obtain ⟨hg, hp⟩ | ⟨hp, hg⟩ := h r hr
    · refine Nat.add_le_add (Finset.card_le_card (hsame hg)) (Finset.card_le_card fun j hj => ?_)
      obtain ⟨y, hy, hs⟩ := mem_pendingOf.mp hj
      rw [hfind] at hy
      split at hy
      · subst j; cases hy; exact mem_pendingOf.mpr ⟨r, hr, hp hs⟩
      · exact mem_pendingOf.mpr ⟨y, hy, hs⟩
    · have hk : k ∈ pendingOf m := mem_pendingOf.mpr ⟨r, hr, hp⟩
      have hsub : pendingOf (mapUpdate k f m) ⊆ (pendingOf m).erase k := fun j hj => by
        obtain ⟨y, hy, hs⟩ := mem_pendingOf.mp hj
        rw [hfind] at hy
        split at hy
        · cases hy
          simp only [Launch.alive, Bool.and_eq_true, decide_eq_true_eq] at hg
          omega
        · exact Finset.mem_erase.mpr ⟨‹_›, mem_pendingOf.mpr ⟨y, hy, hs⟩⟩
      have h1 := (Finset.card_le_card hone).trans (Finset.card_insert_le _ _)
      have h2 := (Finset.card_le_card hsub).trans_eq (Finset.card_erase_of_mem hk)
      have h3 := Finset.card_pos.mpr ⟨k, hk⟩
      unfold gridNeed
      omega

/-- The number that a record takes is one of 16 bits; while there are few enough grids, no grid alive has it. -/
theorem freshGrid_range (s : State) : 1 ≤ s.freshGrid ∧ s.freshGrid ≤ 65535 := by
  simp only [State.freshGrid]
  cases h : (List.range 65536).find? _ with
  | none => exact ⟨le_rfl, by decide⟩
  | some i =>
    have h1 := List.mem_range.mp (List.mem_of_find?_eq_some h)
    have h2 := List.find?_some h
    simp only [Bool.and_eq_true, bne_iff_ne, ne_eq] at h2
    exact ⟨Nat.pos_of_ne_zero h2.1, Nat.le_of_lt_succ h1⟩

theorem freshGrid_free {s : State} (h : (gridsOf s.launches).card < 65535) : s.freshGrid ∉ gridsOf s.launches := by
  have hused : ∀ n, ((s.launches.filter fun x => 2 ≤ x.2.status && x.2.status ≤ 4).map (·.2.grid)).contains n = true ↔
      n ∈ gridsOf s.launches := fun n => by rw [List.contains_iff_mem, gridsOf, List.mem_toFinset]; rfl
  simp only [State.freshGrid]
  cases hf : (List.range 65536).find? _ with
  | some i =>
    have h2 := List.find?_some hf
    simp only [Bool.and_eq_true, Bool.not_eq_true', ← Bool.not_eq_true] at h2
    exact fun hm => h2.2 ((hused i).mpr hm)
  | none =>
    have hall : Finset.Icc 1 65535 ⊆ gridsOf s.launches := fun i hi => by
      obtain ⟨h1, h2⟩ := Finset.mem_Icc.mp hi
      have := List.find?_eq_none.mp hf i (List.mem_range.mpr (by omega))
      by_contra hm
      exact this (by
        simp only [Bool.and_eq_true, bne_iff_ne, ne_eq, Bool.not_eq_true', ← Bool.not_eq_true]
        exact ⟨by omega, fun hc => hm ((hused i).mp hc)⟩)
    have := Finset.card_le_card hall
    rw [Nat.card_Icc] at this
    omega

end Sys2Proof.Machine
end

-- ==== Proofs: records that stay while others settle (O36) ====
section
namespace Sys2Proof.Machine

/-! ## Records that stay while the others settle (R90, R91) -/

/-- A record that no settling and no review concerns. -/
def Launch.Rests (r : Launch) : Prop := r.status ≠ 1 ∧ r.status ≠ 3 ∧ r.status ≠ 4

section Others
variable (s : State) {j k : Nat}

theorem finish_others (h : j ≠ k) (n : Nat) : (s.finish k n).launch? j = s.launch? j := by
  rw [State.launch?, finish_launches, mapFind_update, if_neg h, mapFind_update, if_neg h]; rfl

theorem putStatus_others (h : j ≠ k) (n : Nat) : (s.putStatus k n).launch? j = s.launch? j := by
  rw [State.launch?, putStatus_launches, mapFind_update, if_neg h]; rfl

theorem putReason_others (h : j ≠ k) (n : Nat) : (s.putReason k n).launch? j = s.launch? j := by
  rw [State.putReason, launch?_setLaunch, if_neg h]

theorem settle_others (h : j ≠ k) : (s.settle k).launch? j = s.launch? j := by
  obtain e | ⟨r, -, -, e | e | ⟨c, e⟩⟩ := settle_cases s k <;> rw [e]
  · exact putStatus_others s h 4
  · exact finish_others s h 5
  · exact (finish_others _ h 7).trans (putReason_others s h c)

theorem review_others (h : j ≠ k) : (s.review k).launch? j = s.launch? j := by
  obtain e | ⟨r, -, -, ⟨c, e⟩ | e⟩ := review_cases s k <;> rw [e]
  · exact (finish_others _ h 6).trans (putReason_others s h c)
  · exact (putStatus_others _ h 2).trans (by rw [launch?_setLaunch, if_neg h])

/-- Interrupts that are raised stay raised. -/
theorem finish_msix_mem {q : Nat} (n : Nat) (h : q ∈ s.msix) : q ∈ (s.finish k n).msix := by
  cases hr : s.launch? k with
  | none => simpa only [State.finish, hr] using h
  | some r => rw [finish_msix n hr]; exact List.mem_cons_of_mem _ h

theorem settle_msix_mem {q : Nat} (h : q ∈ s.msix) : q ∈ (s.settle k).msix := by
  obtain e | ⟨r, -, -, e | e | ⟨c, e⟩⟩ := settle_cases s k <;> rw [e]
  · exact h
  · rwa [putStatus_msix]
  · exact finish_msix_mem s 5 h
  · exact finish_msix_mem (s.putReason k c) 7 h

theorem review_msix_mem {q : Nat} (h : q ∈ s.msix) : q ∈ (s.review k).msix := by
  obtain e | ⟨r, -, -, ⟨c, e⟩ | e⟩ := review_cases s k <;> rw [e]
  · exact h
  · exact finish_msix_mem (s.putReason k c) 6 h
  · rwa [putStatus_msix]

end Others

section Rests
variable {s : State} {rid : Nat} {R : Launch}

theorem settle_rests (h : s.launch? rid = some R) (hr : R.Rests) (k : Nat) : (s.settle k).launch? rid = some R := by
  by_cases e : rid = k
  · subst e
    obtain e | ⟨r, h', hst, -⟩ := settle_cases s rid
    · rw [e, h]
    · rw [h] at h'; cases h'
      exact absurd hst (not_or.mpr ⟨hr.2.1, hr.2.2⟩)
  · rw [settle_others s e, h]

theorem review_rests (h : s.launch? rid = some R) (hr : R.Rests) (k : Nat) : (s.review k).launch? rid = some R := by
  by_cases e : rid = k
  · subst e
    obtain e | ⟨r, h', hst, -⟩ := review_cases s rid
    · rw [e, h]
    · rw [h] at h'; cases h'
      exact absurd hst hr.1
  · rw [review_others s e, h]

theorem settleAll_rests (h : s.launch? rid = some R) (hr : R.Rests) : s.settleAll.launch? rid = some R :=
  settleAll_induction (P := fun s => s.launch? rid = some R) (fun _ k h => settle_rests h hr k) (fun _ k h =>
      review_rests h hr k) h

theorem settleAll_msix_mem {q : Nat} (h : q ∈ s.msix) : q ∈ s.settleAll.msix :=
  settleAll_induction (P := fun s => q ∈ s.msix) (fun s _ h => settle_msix_mem s h) (fun s _ h => review_msix_mem s h) h

end Rests

/-! ## A record whose grid number no other grid alive has (R87) -/

/-- The record `rid` has a grid number of its own, and the records leave a number free for each that may still take one. -/
structure OwnGrid (rid : Nat) (R : Launch) (m : SMap Launch) : Prop where
  need : gridNeed m < 65535
  own : mapFind rid m = some R
  others : ∀ k z, k ≠ rid → mapFind k m = some z → z.alive = true → z.grid ≠ R.grid

section OwnGrid
variable {rid k : Nat} {R : Launch} {m : SMap Launch}

theorem OwnGrid.update (h : OwnGrid rid R m) (hk : k ≠ rid) {f : Launch → Launch}
    (hf : ∀ r, mapFind k m = some r → r.Proceeds (f r) ∧ ((f r).alive = true → (f r).grid ≠ R.grid)) :
    OwnGrid rid R (mapUpdate k f m) := by
  refine ⟨(gridNeed_update fun r hr => (hf r hr).1).trans_lt h.need, ?_, fun j z hj hz ha => ?_⟩
  · rw [mapFind_update, if_neg hk.symm, h.own]
  · rw [mapFind_update] at hz
    split at hz
    · obtain ⟨r, hr, rfl⟩ := Option.map_eq_some_iff.mp hz
      exact (hf r hr).2 ha
    · exact h.others j z hj hz ha

/-- An update that neither begins nor moves a grid. -/
theorem OwnGrid.keep (h : OwnGrid rid R m) (hk : k ≠ rid) {f : Launch → Launch}
    (hf : ∀ r, mapFind k m = some r → ((f r).alive = true → r.alive = true ∧ (f r).grid = r.grid) ∧
      ((f r).status ≤ 1 → r.status ≤ 1)) :
    OwnGrid rid R (mapUpdate k f m) :=
  h.update hk fun r hr => ⟨.inl (hf r hr), fun ha => by
    obtain ⟨h1, h2⟩ := (hf r hr).1 ha
    rw [h2]
    exact h.others k r hk hr h1⟩

theorem OwnGrid.finish (h : OwnGrid rid R m) (hk : k ≠ rid) {n : Nat} (hn : 5 ≤ n) :
    OwnGrid rid R (mapUpdate k (fun r => { r with queued := false })
      (mapUpdate k (fun r => { r with status := n }) m)) :=
  (h.keep hk fun r _ => ⟨fun ha => by simp [Launch.alive] at ha; omega, fun h1 => by dsimp only at h1; omega⟩).keep hk fun _ _ =>
    ⟨fun ha => ⟨ha, rfl⟩, id⟩

variable {s : State} (h : OwnGrid rid R s.launches) (hst : R.status = 2)
include h hst

/-- The other records settle. -/
theorem OwnGrid.settle (k : Nat) : OwnGrid rid R (s.settle k).launches := by
  obtain e | ⟨r, hr, hr34, e⟩ := settle_cases s k
  · rwa [e]
  · have hk : k ≠ rid := by
      rintro rfl
      cases hr.symm.trans h.own
      omega
    obtain e | e | ⟨c, e⟩ := e <;> rw [e]
    · rw [putStatus_launches]
      refine h.keep hk fun y hy => ⟨fun _ => ⟨?_, rfl⟩, fun h1 => by dsimp only at h1; omega⟩
      cases hr.symm.trans hy
      simp [Launch.alive]; omega
    · rw [finish_launches]
      exact h.finish hk le_rfl
    · rw [finish_launches, putReason_launches]
      exact OwnGrid.finish (n := 7) (h.keep (f := fun r => { r with reason := c }) hk fun _ _ =>
          ⟨fun ha => ⟨ha, rfl⟩, id⟩) hk (by decide)

/-- Another record that becomes ELIGIBLE takes another number. -/
theorem OwnGrid.review (k : Nat) : OwnGrid rid R (s.review k).launches := by
  obtain e | ⟨r, hr, hr1, e⟩ := review_cases s k
  · rwa [e]
  · have hk : k ≠ rid := by
      rintro rfl
      cases hr.symm.trans h.own
      omega
    obtain ⟨c, e⟩ | e := e <;> rw [e]
    · rw [State.refuse, finish_launches, putReason_launches]
      exact OwnGrid.finish (n := 6) (h.keep (f := fun r => { r with reason := c }) hk fun _ _ =>
          ⟨fun ha => ⟨ha, rfl⟩, id⟩) hk (by decide)
    · have hR : R.grid ∈ gridsOf s.launches := mem_gridsOf.mpr ⟨_, mem_of_mapFind h.own,
          by simp [Launch.alive, hst], rfl⟩
      have hfresh : s.freshGrid ≠ R.grid := fun e =>
        freshGrid_free (Nat.lt_of_le_of_lt (Nat.le_add_right ..) h.need) (e ▸ hR)
      generalize s.freshGrid = n at hfresh ⊢
      have hna : ¬ r.alive = true := by simp [Launch.alive, hr1]
      have h1 : OwnGrid rid R (s.setLaunch k fun r => { r with grid := n }).launches := h.keep hk fun y hy => by
        cases hr.symm.trans hy
        exact ⟨fun ha => absurd ha hna, id⟩
      rw [putStatus_launches]
      refine h1.update hk fun y hy => ?_
      have hy' : (s.setLaunch k fun r => { r with grid := n }).launch? k = some y := hy
      rw [launch?_setLaunch, if_pos rfl, hr] at hy'
      cases hy'
      exact ⟨.inr ⟨hr1.le, rfl⟩, fun _ => hfresh⟩

theorem OwnGrid.settleAll : OwnGrid rid R s.settleAll.launches :=
  settleAll_induction (P := fun s => OwnGrid rid R s.launches) (fun _ k h => h.settle hst k) (fun _ k h =>
      h.review hst k) h

end OwnGrid

end Sys2Proof.Machine
end

-- ==== Proofs: references of records to earlier ones (O36) ====
section
namespace Sys2Proof.Machine

/-! ## AFTER references (R91) -/

/-- What the verdict on a record's AFTER references says of each: the least REASON to refuse, or whether all are met. -/
def RefsVerdict (s : State) (r : Launch) (refs : List DWord) : Except Nat Bool → Prop
  | .error e => (∃ a ∈ refs, a ≠ 0 ∧ s.afterRef r a = .error e) ∧
      ∀ a ∈ refs, a ≠ 0 → ∀ d, s.afterRef r a = .error d → e ≤ d
  | .ok b => (∀ a ∈ refs, a ≠ 0 → ∃ c, s.afterRef r a = .ok c) ∧
      (b = true ↔ ∀ a ∈ refs, a ≠ 0 → s.afterRef r a = .ok true)

theorem afters_verdict (s : State) (r : Launch) (refs : List DWord) : RefsVerdict s r refs (s.afters r refs) := by
  induction refs with
  | nil => exact ⟨fun _ h => absurd h List.not_mem_nil, by simp⟩
  | cons a rest ih =>
    by_cases ha : a = 0
    · have h0 : s.afters r (a :: rest) = s.afters r rest := by rw [State.afters]; exact if_pos ha
      rw [h0]
      revert ih
      cases s.afters r rest <;> simp [RefsVerdict, ha]
    · rw [State.afters]
      simp only [if_neg ha]
      revert ih
      cases hx : s.afterRef r a <;> cases s.afters r rest <;>
        simp only [RefsVerdict, List.mem_cons, forall_eq_or_imp, exists_eq_or_imp, hx]
      · rintro ⟨⟨b, hb, hb0, hbe⟩, hle⟩
        refine ⟨?_, fun _ d hd => by cases hd; exact Nat.min_le_left .., fun b hb hb0 d hd =>
          (Nat.min_le_right ..).trans (hle b hb hb0 d hd)⟩
        rename_i x y
        obtain h | h := min_choice x y <;> rw [h]
        · exact .inl ⟨ha, rfl⟩
        · exact .inr ⟨b, hb, hb0, hbe⟩
      · rintro ⟨hok, -⟩
        refine ⟨.inl ⟨ha, trivial⟩, fun _ d hd => by cases hd; rfl, fun b hb hb0 d hd => ?_⟩
        obtain ⟨c, hc⟩ := hok b hb hb0
        rw [hc] at hd; cases hd
      · rintro ⟨hex, hle⟩
        exact ⟨.inr hex, fun _ d hd => by (cases hd), hle⟩
      · rintro ⟨hok, hall⟩
        refine ⟨⟨fun _ => ⟨_, rfl⟩, hok⟩, ?_⟩
        rw [Bool.and_eq_true, hall]
        exact and_congr_left' ⟨fun h _ => by rw [h], fun h => by cases h ha; rfl⟩

section Refs
variable {m : State} {r : Launch} {a : DWord}

theorem afterRef_met (h : AfterMet m r a) : m.afterRef r a = .ok true := by
  obtain ⟨hn, w, hw, h5⟩ := h
  simp only [State.afterRef, hn, hw, h5, if_true]

theorem afterRef_waits (h : AfterWaits m r a) : m.afterRef r a = .ok false := by
  obtain ⟨y, hy, hlt⟩ := h
  simp only [State.afterRef, hy, Nat.not_le.mpr hlt, if_false]

theorem afterRef_never (h : AfterNever m r a) : m.afterRef r a = .error 7 := by
  obtain ⟨y, hy, hle⟩ | ⟨hn, w, hw, h5, h6, h7⟩ := h
  · simp only [State.afterRef, hy, hle, if_true]
  · simp only [State.afterRef, hn, hw, h5, h6, h7, or_self, if_false]

theorem afterRef_lost : m.afterRef r a = .error 6 ↔ AfterLost m r a := by
  unfold State.afterRef AfterLost
  cases hn : m.recordAt r.part a fun x => !finalStatus x.status with
  | some y => simp only []; split <;> simp
  | none =>
    cases hw : m.deviceRead r.part (a.toNat + 0x50) 4 with
    | error e =>
      cases hy : m.recordAt r.part a fun _ => true with
      | none => simp
      | some y => simp
    | ok w =>
      simp only []
      split_ifs with h5 h67 <;> simp_all

/-- The REASON of a reference that is never met. -/
theorem afterRef_reason {e : Nat} (h : m.afterRef r a = .error e) : e = 6 ∨ e = 7 := by
  unfold State.afterRef at h
  split at h
  · split at h <;> cases h
    exact .inr rfl
  · split at h
    · cases h
      split <;> simp
    · dsimp only at h
      split_ifs at h <;> cases h <;> simp

theorem afters_met {refs : List DWord} (h : ∀ a ∈ refs, a ≠ 0 → AfterMet m r a) : m.afters r refs = .ok true := by
  have hv := afters_verdict m r refs
  cases hx : m.afters r refs with rw [hx] at hv
  | error e =>
    obtain ⟨⟨a, ha, h0, he⟩, -⟩ := hv
    rw [afterRef_met (h a ha h0)] at he
    cases he
  | ok b => rw [hv.2.mpr fun a ha h0 => afterRef_met (h a ha h0)]

theorem afters_waits {refs : List DWord} (h : ∀ a ∈ refs, a ≠ 0 → AfterMet m r a ∨ AfterWaits m r a)
    (hw : ∃ a ∈ refs, a ≠ 0 ∧ AfterWaits m r a) : m.afters r refs = .ok false := by
  have hv := afters_verdict m r refs
  cases hx : m.afters r refs with rw [hx] at hv
  | error e =>
    obtain ⟨⟨a, ha, h0, he⟩, -⟩ := hv
    obtain hm | hm := h a ha h0
    · rw [afterRef_met hm] at he
      cases he
    · rw [afterRef_waits hm] at he
      cases he
  | ok b =>
    obtain ⟨a, ha, h0, hwa⟩ := hw
    cases b
    · rfl
    · have := hv.2.mp rfl a ha h0
      rw [afterRef_waits hwa] at this
      cases this

/-- A reference that is refused or failed comes before one that is never met (R91). -/
theorem afters_lost {refs : List DWord} (h : ∃ a ∈ refs, a ≠ 0 ∧ AfterLost m r a) : m.afters r refs = .error 6 := by
  obtain ⟨a, ha, h0, hl⟩ := h
  have hv := afters_verdict m r refs
  cases hx : m.afters r refs with rw [hx] at hv
  | error e =>
    obtain ⟨⟨b, hb, hb0, he⟩, hle⟩ := hv
    have := hle a ha h0 6 (afterRef_lost.mpr hl)
    obtain rfl | rfl := afterRef_reason he
    · rfl
    · omega
  | ok b =>
    obtain ⟨c, hc⟩ := hv.1 a ha h0
    rw [afterRef_lost.mpr hl] at hc
    cases hc

theorem afters_never {refs : List DWord} (h : ∀ a ∈ refs, a ≠ 0 → ¬ AfterLost m r a)
    (hn : ∃ a ∈ refs, a ≠ 0 ∧ AfterNever m r a) : m.afters r refs = .error 7 := by
  obtain ⟨a, ha, h0, hl⟩ := hn
  have hv := afters_verdict m r refs
  cases hx : m.afters r refs with rw [hx] at hv
  | error e =>
    obtain ⟨⟨b, hb, hb0, he⟩, -⟩ := hv
    obtain rfl | rfl := afterRef_reason he
    · exact absurd (afterRef_lost.mp he) (h b hb hb0)
    · rfl
  | ok b =>
    obtain ⟨c, hc⟩ := hv.1 a ha h0
    rw [afterRef_never hl] at hc
    cases hc

end Refs

end Sys2Proof.Machine
end

-- ==== Proofs: launch records are placed and read (O36) ====
section
namespace Sys2Proof.Machine

/-! ## A launch port's answers (R326, R343) -/

section Port
variable {s m : State} {port : Nat} {value : DWord}

section Open
variable (hport : port < 64) (hopen : s.barred (0x100000 + 8 * port) = false) {p : Nat}
    (hp : s.queueOwner port = some p)
include hport hopen hp

theorem launchPortWrite_misaligned (hv : value.toNat % 128 ≠ 0) :
    exec (.launchPortWrite port 8 value) s = .next (s.portRefusal port value 9) := by
  change execLaunchPortWrite port 8 value s = _
  simp only [execLaunchPortWrite, hport, hostWrite, hopen, hp, hv, and_self, if_true, Bool.false_eq_true,
      if_false, ne_eq,
    not_false_eq_true]

variable (hv : value.toNat % 128 = 0) {bs : List Byte} (hd : s.deviceRead p value.toNat 128 = .ok bs)
include hv hd

theorem launchPortWrite_full (hl : 256 ≤ (s.lqueue port).records.length) : exec (.launchPortWrite port 8 value) s =
    .next (((s.deviceStore p (value.toNat + 0x50) 4 6).deviceStore p (value.toNat + 0x54) 4 8).portRefusal
      port value 8) := by
  change execLaunchPortWrite port 8 value s = _
  simp only [execLaunchPortWrite, hport, hostWrite, hopen, hp, hv, hd, hl, and_self, if_true, Bool.false_eq_true,
      if_false, ne_eq,
    not_true_eq_false]

theorem launchPortWrite_places (hl : (s.lqueue port).records.length < 256) :
    exec (.launchPortWrite port 8 value) s = .next (s.enqueueRecord p port value none 0 0).2 := by
  change execLaunchPortWrite port 8 value s = _
  simp only [execLaunchPortWrite, hport, hostWrite, hopen, hp, hv, hd, Nat.not_le.mpr hl, and_self, if_true,
      Bool.false_eq_true,
    if_false, ne_eq, not_true_eq_false]

end Open

theorem launchPortWrite_barred (hport : port < 64) (h : s.barred (0x100000 + 8 * port) = true) :
    exec (.launchPortWrite port 8 value) s = .next s.countAttempt := by
  change execLaunchPortWrite port 8 value s = _
  simp only [execLaunchPortWrite, hport, hostWrite, h, and_self, if_true]

/-- A refusal shows in the port's error word and vector alone. -/
theorem portRefusal_shows (h : OnlyMemory s m) (e : Nat) : (m.portRefusal port value e).groups = s.groups ∧
    (m.portRefusal port value e).launches = s.launches ∧ (m.portRefusal port value e).msix = port :: s.msix ∧
    (m.portRefusal port value e).lqueue port = { s.lqueue port with
      errAddr := value, errValid := true, errCount := min ((s.lqueue port).errCount + 1) 0x7FFF, errReason := e } := by
  refine ⟨h.proj State.groups fun _ _ => rfl, h.proj State.launches fun _ _ => rfl,
    congrArg (port :: ·) (h.proj State.msix fun _ _ => rfl), ?_⟩
  have hq : m.lqueue port = s.lqueue port := h.proj (·.lqueue port) fun _ _ => rfl
  rw [← hq]
  exact (lqueue_setLQueue m port port fun x =>
    { x with errAddr := value, errValid := true, errCount := min (x.errCount + 1) 0x7FFF, errReason := e }).trans
        (if_pos rfl)

end Port

/-! ## A record is read in its turn (R89, R91) -/

section Resolution
variable {s : State} {q rid : Nat} {r : Launch}

section Review
variable (h : s.launch? rid = some r) (h1 : r.status = 1)
include h h1

theorem review_refuses {e : Nat} (ha : s.afters r r.after = .error e) : s.review rid = s.refuse rid e := by
  simp only [State.review, h, h1, ha, ne_eq, not_true_eq_false, if_false]

theorem review_waits (ha : s.afters r r.after = .ok false) : s.review rid = s := by
  simp only [State.review, h, h1, ha, ne_eq, not_true_eq_false, if_false]

theorem review_begins (ha : s.afters r r.after = .ok true) :
    s.review rid = (s.setLaunch rid fun r => { r with grid := s.freshGrid }).putStatus rid 2 := by
  simp only [State.review, h, h1, ha, ne_eq, not_true_eq_false, if_false]

end Review

/-- A record that is refused stays so while the others settle. -/
theorem refuse_settles (h : s.launch? rid = some r) (e : Nat) :
    (s.refuse rid e).settleAll.launch? rid = some { r with reason := e, status := 6, queued := false } ∧
      r.queue ∈ (s.refuse rid e).settleAll.msix :=
  ⟨settleAll_rests (refuse_launch? e h) (by simp [Launch.Rests]),
    settleAll_msix_mem (by rw [refuse_msix e h]; exact List.mem_cons_self)⟩

theorem unreadable_settles (h : s.launch? rid = some r) :
    (s.unreadable rid r).launch? rid = some { r with reason := 9, status := 6, queued := false } ∧
      r.queue ∈ (s.unreadable rid r).msix :=
  ⟨settleAll_rests (s := (s.refuse rid 9).portRefusal r.queue r.addr 9) (refuse_launch? 9 h) (by simp [Launch.Rests]),
    settleAll_msix_mem List.mem_cons_self⟩

section Read
variable (hf : (s.lqueue q).records.find? (fun k => (s.launch? k).any (·.status == 0)) = some rid)
    (h : s.launch? rid = some r)
include hf h

theorem resolved_unread : r.status = 0 := by
  have := List.find?_some hf
  simpa [h] using this

theorem recordResolution_unreadable {e : Nat} (hd : s.deviceRead r.part r.addr.toNat 128 = .error e) :
    exec (.recordResolution q) s = .next (s.unreadable rid r) := by
  change execRecordResolution q s = _
  simp only [execRecordResolution, hf, h, hd]

variable {bs : List Byte} (hd : s.deviceRead r.part r.addr.toNat 128 = .ok bs)
include hd

theorem recordResolution_refuses {e : Nat}
    (hc : s.checkRecord (r.fill bs) (s.readHdr r.part (BitVec.ofNat 64 (fieldNat bs 0 8))) = .error e) :
    exec (.recordResolution q) s = .next (((s.setLaunch rid fun _ => r.fill bs).refuse rid e).settleAll) := by
  change execRecordResolution q s = _
  have hp : (r.fill bs).part = r.part := rfl
  simp only [execRecordResolution, hf, h, hd, hp, hc]

theorem recordResolution_accepts {hdr : KHdr}
    (hc : s.checkRecord (r.fill bs) (s.readHdr r.part (BitVec.ofNat 64 (fieldNat bs 0 8))) = .ok hdr) :
    exec (.recordResolution q) s = .next ((((s.setLaunch rid fun _ =>
      { r.fill bs with hdr := some hdr, relaunch := (r.fill bs).relaunch || hdr.relaunch }).putStatus rid 1).review
          rid).settleAll) := by
  change execRecordResolution q s = _
  have hp : (r.fill bs).part = r.part := rfl
  simp only [execRecordResolution, hf, h, hd, hp, hc]

end Read

/-- The record is read and its checks are passed: its AFTER references decide (R91). -/
def State.readIn (s : State) (rid : Nat) (y : Launch) : State := (s.setLaunch rid fun _ => y).putStatus rid 1

section ReadIn
variable {y : Launch} (h : s.launch? rid = some r)
include h

theorem readIn_launch? : (s.readIn rid y).launch? rid = some { y with status := 1 } :=
  putStatus_launch? 1 (by rw [launch?_setLaunch, if_pos rfl, h]; rfl)

theorem gridNeed_readIn (h0 : r.status = 0) (hy : y.status = 0) :
    gridNeed (s.readIn rid y).launches ≤ s.launches.length := by
  refine le_trans ?_ (gridNeed_le_length s.launches)
  rw [State.readIn, putStatus_launches]
  refine (gridNeed_update fun z hz => .inl ⟨fun ha => by simp [Launch.alive] at ha, fun _ => ?_⟩).trans
    (gridNeed_update (f := fun _ => y) fun z hz => .inl ⟨fun ha => by simp [Launch.alive, hy] at ha, fun _ => ?_⟩)
  · have hz' : (s.setLaunch rid fun _ => y).launch? rid = some z := hz
    rw [launch?_setLaunch, if_pos rfl, h] at hz'
    cases hz'
    exact hy.trans_le (Nat.zero_le _)
  · cases h.symm.trans hz
    exact h0.trans_le (Nat.zero_le _)

end ReadIn

theorem begins_launch? {m : State} {z : Launch} (h : m.launch? rid = some z) (n : Nat) :
    ((m.setLaunch rid fun r => { r with grid := n }).putStatus rid 2).launch? rid =
        some { z with grid := n, status := 2 } :=
  putStatus_launch? (r := { z with grid := n }) 2 (by rw [launch?_setLaunch, if_pos rfl, h]; rfl)

/-- A record that becomes ELIGIBLE takes a number that no grid alive has, if there are fewer records than numbers. -/
theorem begins_ownGrid {m : State} {z : Launch} (h : m.launch? rid = some z) (h1 : z.status = 1)
    (hn : gridNeed m.launches < 65535) :
    OwnGrid rid { z with grid := m.freshGrid, status := 2 }
      ((m.setLaunch rid fun r => { r with grid := m.freshGrid }).putStatus rid 2).launches := by
  have hfree : m.freshGrid ∉ gridsOf m.launches := freshGrid_free (Nat.lt_of_le_of_lt (Nat.le_add_right ..) hn)
  generalize m.freshGrid = n at hfree ⊢
  have hg : (m.setLaunch rid fun r => { r with grid := n }).launch? rid = some { z with grid := n } := by
    rw [launch?_setLaunch, if_pos rfl, h]; rfl
  refine ⟨lt_of_le_of_lt ?_ hn, begins_launch? h n, fun k x hk hx ha e => hfree ?_⟩
  · rw [putStatus_launches]
    refine (gridNeed_update fun y hy => .inr ⟨?_, rfl⟩).trans
      (gridNeed_update (f := fun r => { r with grid := n }) fun y hy => .inl ⟨fun ha => ?_, id⟩)
    · cases hg.symm.trans hy
      exact h1.le
    · cases h.symm.trans hy
      simp [Launch.alive, h1] at ha
  · have hx' : m.launch? k = some x := by
      rw [← hx]
      exact ((putStatus_others _ hk 2).trans (by rw [launch?_setLaunch, if_neg hk])).symm
    exact mem_gridsOf.mpr ⟨_, mem_of_mapFind hx', ha, e⟩

end Resolution

/-- Settles O36: a port's write and a record's reading are followed through their branches. A record that is refused, or
begins, stays as it is while the others settle, and the grids that begin after it take other numbers. -/
theorem launchEvents : Obligations.LaunchEvents := by
  unfold Obligations.LaunchEvents
  refine ⟨fun s port p value hport hp => ⟨launchPortWrite_barred hport, fun hopen => ?_⟩, fun s q rid r hf hr => ?_⟩
  · have hrefused : ∀ m e, OnlyMemory s m → exec (.launchPortWrite port 8 value) s =
        .next (m.portRefusal port value e) →
        ∃ u, exec (.launchPortWrite port 8 value) s = .next u ∧ u.groups = s.groups ∧
        u.launches = s.launches ∧ (u.lqueue port).errAddr = value ∧ (u.lqueue port).errValid = true ∧
        (u.lqueue port).errReason = e ∧ (u.lqueue port).errCount = min ((s.lqueue port).errCount + 1) 0x7FFF ∧
        u.msix = port :: s.msix := fun m e hm he => by
      obtain ⟨hg, hl, hx, hq⟩ := portRefusal_shows (port := port) (value := value) hm e
      exact ⟨_, he, hg, hl, by rw [hq], by rw [hq], by rw [hq], by rw [hq], hx⟩
    refine ⟨fun hv => hrefused s 9 (.refl s) (launchPortWrite_misaligned hport hopen hp hv), fun bs hv hd => ?_⟩
    refine ⟨fun hl => ?_, fun hl => ?_⟩
    · exact hrefused _ 8 ((deviceStore_onlyMemory ..).trans (deviceStore_onlyMemory ..))
        (launchPortWrite_full hport hopen hp hv hd hl)
    · exact ⟨_, _, launchPortWrite_places hport hopen hp hv hd hl, enqueueRecord_groups .., enqueueRecord_placed ..⟩
  · have h0 := resolved_unread hf hr
    refine ⟨fun e hd => ?_, fun bs hd => ⟨fun e hc => ?_, fun hdr hc => ?_⟩⟩
    · obtain ⟨hl, hx⟩ := unreadable_settles hr
      exact ⟨_, _, recordResolution_unreadable hf hr hd,
          by simp [State.unreadable, State.portRefusal, State.raise], hl, rfl, rfl, hx⟩
    · obtain ⟨hl, hx⟩ := refuse_settles (s := s.setLaunch rid fun _ => r.fill bs) (r := r.fill bs) (rid := rid)
        (by rw [launch?_setLaunch, if_pos rfl, hr]; rfl) e
      exact ⟨_, _, recordResolution_refuses hf hr hd hc, by simp, hl, rfl, rfl, hx⟩
    · have hex := recordResolution_accepts hf hr hd hc
      extract_lets y m
      have hm : m.launch? rid = some { y with status := 1 } := readIn_launch? hr
      have hm0 : gridNeed m.launches ≤ s.launches.length := gridNeed_readIn hr h0 h0
      have hgroups : (m.review rid).settleAll.groups = s.groups := by simp [m]
      have hrefused : ∀ e, m.afters { y with status := 1 } y.after = .error e → ∃ u r',
          exec (.recordResolution q) s = .next u ∧
          u.groups = s.groups ∧ u.launch? rid = some r' ∧ r'.status = 6 ∧ r'.reason = e ∧ r.queue ∈ u.msix := fun e ha => by
        have hrev := review_refuses hm rfl ha
        obtain ⟨hl, hx⟩ := refuse_settles hm e
        rw [← hrev] at hl hx
        exact ⟨_, _, hex, hgroups, hl, rfl, rfl, hx⟩
      refine ⟨fun ha => ?_, fun ha hw hs => ?_, fun ha => hrefused 6 (afters_lost ha), fun ha hn =>
          hrefused 7 (afters_never ha hn)⟩
      · have hrev := review_begins hm rfl (afters_met ha)
        have hl := settleAll_rests (begins_launch? hm m.freshGrid) (by simp [Launch.Rests])
        have hrange := freshGrid_range m
        have hown := fun hn => (begins_ownGrid hm rfl hn).settleAll rfl
        rw [← hrev] at hl hown
        generalize m.freshGrid = n at hl hrange hown
        exact ⟨_, _, hex, hgroups, hl, rfl, rfl, fun hn => ⟨hrange.1, hrange.2, fun k z hk hz h2 h4 =>
          (hown (Nat.lt_of_le_of_lt hm0 hn)).others k z hk hz (by simp [Launch.alive, h2, h4])⟩⟩
      · have hrev := review_waits hm rfl (afters_waits ha hw)
        refine ⟨_, _, hex, hgroups, ?_, rfl, rfl⟩
        rw [hrev]
        exact (congrArg (·.launch? rid) hs).trans hm

end Sys2Proof.Machine
end

-- ==== Proofs: a refused handler's marks (O37) ====
section
namespace Sys2Proof.Machine

/-! ## A handler's refusal stands while the gangs of its lanes end (R291)

The end of a gang changes a partition's lists of lanes, its error log and its ring, and neither of the marks
that a refused handler leaves. -/

section Parts
variable (s : State)

@[simp] theorem putStatus_parts (k n : Nat) : (s.putStatus k n).parts = s.parts := by
  unfold State.putStatus
  split
  · rfl
  · exact putFields_parts ..

@[simp] theorem leaveQueue_parts (k : Nat) : (s.leaveQueue k).parts = s.parts := by
  unfold State.leaveQueue
  split <;> rfl

@[simp] theorem finish_parts (k n : Nat) : (s.finish k n).parts = s.parts := by
  unfold State.finish
  split
  · rfl
  · exact (leaveQueue_parts ..).trans (putStatus_parts ..)

theorem settle_parts (k : Nat) : (s.settle k).parts = s.parts := by
  obtain e | ⟨r, -, -, e | e | ⟨c, e⟩⟩ := settle_cases s k <;> rw [e]
  · exact putStatus_parts ..
  · exact finish_parts ..
  · exact finish_parts ..

theorem review_parts (k : Nat) : (s.review k).parts = s.parts := by
  obtain e | ⟨r, -, -, ⟨c, e⟩ | e⟩ := review_cases s k <;> rw [e]
  · exact finish_parts ..
  · exact putStatus_parts ..

theorem settleAll_parts : s.settleAll.parts = s.parts :=
  settleAll_induction (P := fun t => t.parts = s.parts) (fun t k h => (settle_parts t k).trans h)
    (fun t k h => (review_parts t k).trans h) rfl

theorem reapBlock_parts (bid : Nat) : (s.reapBlock bid).parts = s.parts := by
  unfold State.reapBlock
  split
  · rfl
  · split <;> rfl

theorem checkBlock_parts (bid : Nat) : (s.checkBlock bid).parts = s.parts := by
  unfold State.checkBlock
  split
  · rfl
  · split
    · rw [settleAll_parts, reapBlock_parts]
      split <;> rfl
    · rfl

theorem checkGroup_parts (gid : Nat) : (s.checkGroup gid).parts = s.parts := by
  unfold State.checkGroup
  split
  · rfl
  · split
    · exact checkBlock_parts ..
    · rfl

theorem closeTaker_parts (w : Waiter) : (s.closeTaker w).parts = s.parts := rfl

theorem checkClose_parts (n : Nat) : (s.checkClose n).parts = s.parts := by
  unfold State.checkClose
  dsimp only
  split
  · exact foldl_keeps State.parts _ (fun s w _ => closeTaker_parts s w) _
  · rfl

theorem retireProducer_parts (gid l n : Nat) : (s.retireProducer gid l n).parts = s.parts := by
  unfold State.retireProducer
  split
  · rfl
  · split
    · rfl
    · split
      · exact checkClose_parts ..
      · rfl

end Parts

/-- The marks that a refused handler leaves in its partition. -/
def State.handlerMarks (part : Nat) (s : State) : Bool × BitVec 32 := ((s.part part).handlerBad, (s.part part).flags)

/-- A lane that exits leaves its partition's lists. -/
def Partition.forget (gid lane : Nat) (p : Partition) : Partition :=
  { p with
    ringWait := p.ringWait.filter (· != (gid, lane))
    halted := p.halted.filter (· != (gid, lane))
    collect := p.collect.map fun (k, xs) => (k, xs.filter (· != (gid, lane))) }

section Marks
variable {part : Nat} (s : State)

theorem handlerMarks_of_parts {s t : State} (h : t.parts = s.parts) : t.handlerMarks part = s.handlerMarks part := by
  simp only [State.handlerMarks, State.part, h]

theorem handlerMarks_setPart (k : Nat) {f : Partition → Partition}
    (hf : ∀ p, (f p).handlerBad = p.handlerBad ∧ (f p).flags = p.flags) :
    (s.setPart k f).handlerMarks part = s.handlerMarks part := by
  simp only [State.handlerMarks, part_setPart]
  split
  · subst part
    rw [(hf _).1, (hf _).2]
  · rfl

theorem handlerMarks_logError (k : Nat) (e : LogEntry) : (s.logError k e).handlerMarks part = s.handlerMarks part :=
  handlerMarks_setPart s k fun _ => ⟨rfl, rfl⟩

theorem handlerMarks_exitThread (gid l : Nat) : (s.exitThread gid l).handlerMarks part = s.handlerMarks part := by
  unfold State.exitThread
  split
  · rfl
  · next g _ =>
    split
    · rfl
    · next t _ =>
      split
      · rfl
      · dsimp only
        rw [handlerMarks_of_parts (checkGroup_parts ..)]
        generalize hm : State.dropPends _ gid l = m
        calc
          _ = (m.setPart g.part (Partition.forget gid l)).handlerMarks part := rfl
          _ = m.handlerMarks part := handlerMarks_setPart m g.part fun _ => ⟨rfl, rfl⟩
          _ = s.handlerMarks part := ?_
        subst hm
        refine (foldl_keeps (State.handlerMarks part) t.producer
          (fun s n _ => handlerMarks_of_parts (retireProducer_parts s gid l n)) _).trans ?_
        split
        · exact handlerMarks_setPart s g.part fun _ => ⟨rfl, rfl⟩
        · rfl

theorem handlerMarks_afterKill (rid gang core cause : Nat) : (s.afterKill rid gang core cause).handlerMarks part =
    s.handlerMarks part := by
  unfold State.afterKill
  split
  · rfl
  · dsimp only
    split
    · exact handlerMarks_logError ..
    · rfl

theorem handlerMarks_gangKill (bid core cause : Nat) (addr : DWord) : (s.gangKill bid core cause addr).handlerMarks part =
    s.handlerMarks part := by
  unfold State.gangKill
  split
  · rfl
  · dsimp only
    generalize hm : State.logError s _ _ = m
    refine (foldl_keeps (State.handlerMarks part) _ (fun s gid _ => ?_) _).trans
        (Eq.trans (b := m.handlerMarks part) ?_ ?_)
    · split
      · rfl
      · exact foldl_keeps (State.handlerMarks part) _ (fun s l _ => handlerMarks_exitThread s gid l) s
    · subst hm
      split
      · exact handlerMarks_afterKill ..
      · rfl
    · subst hm
      exact handlerMarks_logError ..

/-- A refused handler is marked as such in its partition (R291). -/
theorem refuseHandler_marks : (s.refuseHandler part).handlerMarks part = (true, (s.part part).flags ||| 4) := by
  unfold State.refuseHandler
  dsimp only
  refine (foldl_keeps (State.handlerMarks part) _ (fun s x _ => ?_) _).trans ((handlerMarks_logError ..).trans ?_)
  · split
    · rfl
    · split
      · rfl
      · exact handlerMarks_gangKill ..
  · simp only [State.handlerMarks, part_setPart, if_true]

end Marks

end Sys2Proof.Machine
end

-- ==== Proofs: blocks and their groups as they are placed (O37) ====
section
namespace Sys2Proof.Machine

/-! ## Tables whose next number is new -/

/-- Every number that is listed is below the next one. -/
def Fresh {α : Type} (m : SMap α) : Prop := ∀ k, mapFind k m ≠ none → k < mapFresh m

section Fresh
variable {α : Type} {m : SMap α}

theorem mapInsert_above {n : Nat} (h : ∀ k, mapFind k m ≠ none → k < n) (v : α) : mapInsert n v m = m ++ [(n, v)] := by
  induction m with
  | nil => rfl
  | cons e rest ih =>
    obtain ⟨j, x⟩ := e
    have hj : j < n := h j (by simp [mapFind])
    have hrest : ∀ k, mapFind k rest ≠ none → k < n := fun k hk => by
      by_cases hkj : k = j
      · exact hkj ▸ hj
      · exact h k (by simpa only [mapFind, if_neg hkj] using hk)
    rw [mapInsert, if_neg (by omega), if_neg (by omega), ih hrest]
    rfl

theorem mapFresh_insert (h : Fresh m) (v : α) : mapFresh (mapInsert (mapFresh m) v m) = mapFresh m + 1 := by
  rw [mapInsert_above h v]
  generalize mapFresh m = n
  simp [mapFresh]

theorem Fresh.insert (h : Fresh m) (v : α) : Fresh (mapInsert (mapFresh m) v m) := fun k hk => by
  rw [mapFresh_insert h v]
  rw [mapFind_insert] at hk
  split at hk
  · omega
  · exact Nat.lt_succ_of_lt (h k hk)

theorem Fresh.absent (h : Fresh m) : mapFind (mapFresh m) m = none := by
  by_contra hk
  exact Nat.lt_irrefl _ (h _ hk)

end Fresh

theorem length_setAdd {k : Nat} {xs : List Nat} (h : k ∉ xs) : (setAdd k xs).length = xs.length + 1 := by
  induction xs with
  | nil => rfl
  | cons j rest ih =>
    rw [setAdd, if_neg (List.ne_of_not_mem_cons h)]
    split
    · rfl
    · simp [ih (List.not_mem_of_not_mem_cons h)]

/-! ## Shares of a block (R86) -/

theorem findSlots_length {core c w v n : Nat} {xs ys : List Slot} (h : findSlots core c xs w v n = some ys) :
    ys.length = n := by
  induction n generalizing xs ys with
  | zero => cases h; rfl
  | succ n ih =>
    rw [findSlots] at h
    split at h
    · cases h
    · obtain ⟨zs, hz, rfl⟩ := Option.map_eq_some_iff.mp h
      rw [List.length_cons, ih hz]

theorem shareFits_length {s : State} {part c n : Nat} {h : KHdr} {xs : List Slot}
    (hf : s.shareFits part c h n = some xs) : xs.length = n := by
  simp only [State.shareFits] at hf
  split at hf
  · exact findSlots_length hf
  · cases hf

/-- The shares of a block's cores are its groups, each once. -/
theorem shares_total {n k : Nat} (hk : 1 ≤ k) : ((List.range k).map fun i => (shareOf n k i).length).sum = n := by
  have hlen : ∀ i, (shareOf n k i).length = min ((i + 1) * ((n + k - 1) / k)) n - i * ((n + k - 1) / k) := fun i =>
      by simp [shareOf]
  have hm : n ≤ k * ((n + k - 1) / k) := by
    have := Nat.div_add_mod (n + k - 1) k
    have := Nat.mod_lt (n + k - 1) hk
    omega
  simp only [hlen]
  generalize (n + k - 1) / k = m at hm
  have hsum : ∀ j, ((List.range j).map fun i => min ((i + 1) * m) n - i * m).sum = min (j * m) n := fun j => by
    induction j with
    | zero => simp
    | succ j ih =>
      rw [List.range_succ, List.map_append, List.sum_append, ih, List.map_singleton, List.sum_singleton, Nat.succ_mul]
      omega
  rw [hsum]
  omega

/-! ## What placing depends on -/

/-- The launch unit's own tables: its records and whom it granted last. -/
def State.ledger (s : State) (L : SMap Launch) (G : SMap (Nat × Nat)) : State := { s with launches := L, granted := G }

/-- One group more of a block. -/
def State.addGroup (s : State) (bid : Nat) (g : Group) : State :=
  { s with groups := mapInsert (mapFresh s.groups) g s.groups }.setBlock bid fun b =>
    { b with groups := setAdd (mapFresh s.groups) b.groups }

section Ledger
variable (s : State) (L : SMap Launch) (G : SMap (Nat × Nat))

theorem addGroups_ledger (bid : Nat) (gs : List Group) : (s.ledger L G).addGroups bid gs =
    (s.addGroups bid gs).ledger L G := by
  induction gs generalizing s with
  | nil => rfl
  | cons g gs ih => exact ih (s.addGroup bid g)

theorem placeShare_ledger (bid part c home : Nat) (h : KHdr) (ns : List Nat) (pr : Bool) (args : DWord) (len : Nat) :
    (s.ledger L G).placeShare bid part c home h ns pr args len = (s.placeShare bid part c home h ns pr args len).map
        (·.ledger L G) := by
  have hf : (s.ledger L G).shareFits part c h ns.length = s.shareFits part c h ns.length := rfl
  unfold State.placeShare
  rw [hf]
  cases s.shareFits part c h ns.length with
  | none => rfl
  | some xs => exact congrArg some (addGroups_ledger ..)

/-- Placing asks the launch unit nothing. -/
theorem placeShares_ledger (bid part : Nat) (h : KHdr) (n k : Nat) (pr : Bool) (args : DWord) (len : Nat)
    (xs : List (Nat × Nat)) :
    (s.ledger L G).placeShares bid part h n k pr args len xs = (s.placeShares bid part h n k pr args len xs).map
        (·.ledger L G) := by
  induction xs generalizing s with
  | nil => rfl
  | cons x xs ih =>
    rw [State.placeShares, State.placeShares, placeShare_ledger]
    cases s.placeShare bid part x.2 x.1 h (shareOf n k x.1) pr args len with
    | none => rfl
    | some t => exact ih t

end Ledger

/-! ## The groups of a block as it is placed (R87) -/

/-- While a block is placed: it has so many groups, each as it is placed for its kernel, and no other group has changed. -/
structure Placing (s : State) (bid : Nat) (b : Block) (cores : List Nat) (args : DWord) (len n : Nat)
    (t : State) : Prop where
  block : ∃ gs, t.block? bid = some { b with groups := gs } ∧ gs.length = n ∧ ∀ gid ∈ gs, ∃ g, t.group? gid = some g ∧
    g.bid = bid ∧ g.core ∈ cores ∧ PlacedGroup g b.hdr args len
  kept : ∀ k, s.group? k ≠ none → t.group? k = s.group? k
  fresh : Fresh t.groups

section Placing
variable {s t : State} {bid : Nat} {b : Block} {cores : List Nat} {args : DWord} {len n : Nat}

theorem Placing.addGroup (h : Placing s bid b cores args len n t) {g : Group} (hb : g.bid = bid) (hc : g.core ∈ cores)
    (hg : PlacedGroup g b.hdr args len) : Placing s bid b cores args len (n + 1) (t.addGroup bid g) := by
  obtain ⟨gs, hbl, hn, hgs⟩ := h.block
  have hfind : ∀ k, (t.addGroup bid g).group? k = if k = mapFresh t.groups then some g else t.group? k := fun k =>
      mapFind_insert ..
  have hnew : t.group? (mapFresh t.groups) = none := h.fresh.absent
  have hnot : ∀ k, t.group? k ≠ none → k ≠ mapFresh t.groups := fun k hk e => hk (e ▸ hnew)
  have hmem : mapFresh t.groups ∉ gs := fun hm => by
    obtain ⟨g', hg', -⟩ := hgs _ hm
    rw [hnew] at hg'
    cases hg'
  refine ⟨⟨setAdd (mapFresh t.groups) gs, ?_,
      by rw [length_setAdd hmem, hn], fun gid hgid => ?_⟩, fun k hk => ?_, h.fresh.insert g⟩
  · refine (mapFind_update ..).trans ?_
    rw [if_pos rfl]
    exact (congrArg (Option.map _) hbl).trans rfl
  · rw [hfind]
    obtain rfl | hgid := (mem_setAdd ..).mp hgid
    · exact ⟨g, if_pos rfl, hb, hc, hg⟩
    · obtain ⟨g', hg', hrest⟩ := hgs gid hgid
      exact ⟨g', (if_neg (hnot gid (by simp [hg']))).trans hg', hrest⟩
  · have htk := h.kept k hk
    rw [hfind, if_neg (hnot k (htk ▸ hk)), htk]

theorem Placing.addGroups (h : Placing s bid b cores args len n t) {gs : List Group}
    (hgs : ∀ g ∈ gs, g.bid = bid ∧ g.core ∈ cores ∧ PlacedGroup g b.hdr args len) :
    Placing s bid b cores args len (n + gs.length) (t.addGroups bid gs) := by
  induction gs generalizing t n with
  | nil => exact h
  | cons g gs ih =>
    obtain ⟨⟨hb, hc, hg⟩, hrest⟩ := List.forall_mem_cons.mp hgs
    have := ih (h.addGroup hb hc hg) hrest
    rw [List.length_cons, Nat.add_comm gs.length, ← Nat.add_assoc]
    exact this

theorem Placing.placeShare (h : Placing s bid b cores args len n t) {c : Nat} (hc : c ∈ cores) {part home : Nat}
    {ns : List Nat}
    {pr : Bool} {u : State} (hu : t.placeShare bid part c home b.hdr ns pr args len = some u) :
    Placing s bid b cores args len (n + ns.length) u := by
  unfold State.placeShare at hu
  split at hu
  · cases hu
  · next xs hxs =>
    cases hu
    have := h.addGroups (gs := (ns.zip xs).map fun x => t.newGroup bid x.1 home part c b.hdr x.2 pr args len)
        fun g hg => by
      obtain ⟨x, -, rfl⟩ := List.mem_map.mp hg
      exact ⟨rfl, hc, rfl, rfl, rfl, rfl, rfl, rfl⟩
    simpa [shareFits_length hxs] using this

theorem Placing.placeShares (h : Placing s bid b cores args len n t) {N k part : Nat} {pr : Bool}
    {xs : List (Nat × Nat)}
    (hx : ∀ x ∈ xs, x.2 ∈ cores) {u : State} (hu : t.placeShares bid part b.hdr N k pr args len xs = some u) :
    Placing s bid b cores args len (n + (xs.map fun x => (shareOf N k x.1).length).sum) u := by
  induction xs generalizing t n with
  | nil => cases hu; exact h
  | cons x xs ih =>
    obtain ⟨hc, hrest⟩ := List.forall_mem_cons.mp hx
    rw [State.placeShares] at hu
    split at hu
    · cases hu
    · next v hv =>
      rw [List.map_cons, List.sum_cons, ← Nat.add_assoc]
      exact ih (h.placeShare hc hv) hrest hu

end Placing

end Sys2Proof.Machine
end

-- ==== Proofs: an offer is granted (O37) ====
section
namespace Sys2Proof.Machine

/-! ## Placing a block and granting an offer (R92, R93) -/

/-- A block of a launch as it stands once it is placed, but for its groups. -/
def Launch.newBlock (r : Launch) (rid : Nat) (h : KHdr) (index : Nat) (cores : List Nat) : Block :=
  { rid := some rid, part := r.part, index := index, gangb := r.gangb, hdr := h, cores := cores, groups := []
    regions := cores.map fun _ => newRegion h, tiles := cores.map fun _ => newTiles h.tiles
    life := mapGet 0 r.relaunches (index / r.gangb) }

/-- The state while a block is placed: it has no cores, regions and tiles of its own yet. -/
def State.beginBlock (s : State) (b : Block) : State :=
  { s with blocks := mapInsert (mapFresh s.blocks) { b with cores := [], regions := [], tiles := [] } s.blocks }

/-- The shares of a block on its cores, from the state in which its placing begins. -/
def State.placed? (s : State) (r : Launch) (h : KHdr) (b : Block) : Option State :=
  (s.beginBlock b).placeShares (mapFresh s.blocks) r.part h (r.bthreads / h.width) b.cores.length
    ((s.part r.part).privq.getLsbD r.queue) r.kargs r.karglen.toNat ((List.range b.cores.length).zip b.cores)

/-- The block stands: its cores' pools take what it has, its record tracks it. -/
def State.standBlock (t : State) (bid rid : Nat) (b : Block) : State :=
  b.cores.foldl State.l1Shrink ((t.setBlock bid fun x => { b with groups := x.groups }).setLaunch rid fun r =>
    { r with live := setAdd bid r.live })

section Place
variable (s : State) (rid : Nat) (r : Launch) (h : KHdr) (index : Nat) (cores : List Nat)

theorem placeBlock_eq : s.placeBlock rid r h index cores =
    (s.placed? r h (r.newBlock rid h index cores)).map
        (·.standBlock (mapFresh s.blocks) rid (r.newBlock rid h index cores)) := by
  unfold State.placeBlock
  dsimp only
  change (match s.placed? r h (r.newBlock rid h index cores) with | none => none | some t => some _) = _
  cases s.placed? r h (r.newBlock rid h index cores) <;> rfl

theorem placed?_ledger (b : Block) (L : SMap Launch) (G : SMap (Nat × Nat)) :
    (s.ledger L G).placed? r h b = (s.placed? r h b).map (·.ledger L G) :=
  placeShares_ledger (s.beginBlock b) L G ..

variable {s r h} {b : Block} {t : State}

/-- A block placed beside what is there has the groups of its launch. -/
theorem placed?_placing (hn : Numbered s) (hc : 1 ≤ b.cores.length) (hh : b.hdr = h) (hg : b.groups = [])
    (ht : s.placed? r h b = some t) :
    Placing s (mapFresh s.blocks) { b with cores := [], regions := [], tiles := [] } b.cores r.kargs r.karglen.toNat
      (r.bthreads / h.width) t := by
  subst hh
  have h0 : Placing s (mapFresh s.blocks) { b with cores := [], regions := [], tiles := [] } b.cores r.kargs
      r.karglen.toNat 0
      (s.beginBlock b) := by
    refine ⟨⟨[], (mapFind_insert_self ..).trans
        (by rw [← hg]), rfl, fun _ hm => absurd hm List.not_mem_nil⟩, fun _ _ => rfl, hn.2⟩
  have hplaced := h0.placeShares (fun x hx => (List.of_mem_zip hx).2) ht
  have htotal : (((List.range b.cores.length).zip b.cores).map fun x =>
      (shareOf (r.bthreads / b.hdr.width) b.cores.length x.1).length).sum = r.bthreads / b.hdr.width := by
    have hz : ((List.range b.cores.length).zip b.cores).map Prod.fst = List.range b.cores.length :=
      List.map_fst_zip (by rw [List.length_range])
    calc
      _ = ((((List.range b.cores.length).zip b.cores).map Prod.fst).map fun i =>
          (shareOf (r.bthreads / b.hdr.width) b.cores.length i).length).sum := by rw [List.map_map]; rfl
      _ = _ := by rw [hz, shares_total hc]
  rwa [htotal, Nat.zero_add] at hplaced

variable (t) (bid : Nat) (b)

theorem standBlock_frame : (t.standBlock bid rid b).groups = t.groups ∧
    (t.standBlock bid rid b).launches = mapUpdate rid (fun r => { r with live := setAdd bid r.live }) t.launches ∧
    (t.standBlock bid rid b).blocks = mapUpdate bid (fun x => { b with groups := x.groups }) t.blocks := by
  have h : ((t.standBlock bid rid b).groups, (t.standBlock bid rid b).launches, (t.standBlock bid rid b).blocks) = _ :=
    foldl_keeps (fun t : State => (t.groups, t.launches, t.blocks)) (f := State.l1Shrink) b.cores (fun _ _ _ => rfl) _
  exact ⟨(Prod.mk.inj h).1, Prod.mk.inj (Prod.mk.inj h).2⟩

end Place

/-- A block stands with the groups of its launch, and its record has gone on. -/
structure GroupsPlaced (s u : State) (bid : Nat) (b : Block) (cores : List Nat) (args : DWord)
    (len n : Nat) : Prop where
  kept : ∀ k, s.group? k ≠ none → u.group? k = s.group? k
  block : ∃ gs, u.block? bid = some { b with groups := gs } ∧ gs.length = n ∧ ∀ gid ∈ gs, ∃ g, u.group? gid = some g ∧
    g.bid = bid ∧ g.core ∈ cores ∧ PlacedGroup g b.hdr args len

theorem GroupsPlaced.of_frame {s u v : State} {bid : Nat} {b : Block} {cores : List Nat} {args : DWord} {len n : Nat}
    (h : GroupsPlaced s u bid b cores args len n) (hg : v.groups = u.groups) (hb : v.blocks = u.blocks) :
    GroupsPlaced s v bid b cores args len n := by
  have hgroup : ∀ k, v.group? k = u.group? k := fun k => congrArg (mapFind k) hg
  have hblock : ∀ k, v.block? k = u.block? k := fun k => congrArg (mapFind k) hb
  obtain ⟨hk, gs, hgs, hn, hall⟩ := h
  refine ⟨fun k h0 => (hgroup k).trans (hk k h0), gs, (hblock bid).trans hgs, hn, fun gid hm => ?_⟩
  rw [hgroup]
  exact hall gid hm

section Gang
variable {s : State} {rid : Nat} {r : Launch} {h : KHdr} {cores : List Nat}

theorem standBlock_placed {b : Block} {t : State} (hn : Numbered s) (hc : 1 ≤ b.cores.length) (hh : b.hdr = h)
    (hg : b.groups = []) (ht : s.placed? r h b = some t) :
    GroupsPlaced s (t.standBlock (mapFresh s.blocks) rid b) (mapFresh s.blocks) b b.cores r.kargs r.karglen.toNat
      (r.bthreads / h.width) := by
  obtain ⟨⟨gs, hbl, hlen, hall⟩, hkept, -⟩ := placed?_placing hn hc hh hg ht
  obtain ⟨hgr, -, hbk⟩ := standBlock_frame (t := t) (rid := rid) (bid := mapFresh s.blocks) (b := b)
  have hgroup : ∀ k, (t.standBlock (mapFresh s.blocks) rid b).group? k = t.group? k := fun k => congrArg (mapFind k) hgr
  refine ⟨fun k h0 => (hgroup k).trans (hkept k h0), gs, ?_, hlen, fun gid hm => ?_⟩
  · rw [State.block?, hbk, mapFind_update, if_pos rfl]
    exact (congrArg (Option.map _) hbl).trans rfl
  · rw [hgroup]
    exact hall gid hm

theorem takeGang_eq (hr : s.launch? rid = some r) (hh : r.hdr = some h) (ha : r.again = []) (hcl : r.claimed = false)
    (hg : r.gangb = 1) (hlen : cores.length = r.bcores) : s.takeGang rid cores =
      (s.placeBlock rid r h r.next cores).map (·.setLaunch rid fun r => { r with next := r.next + r.gangb }) := by
  have hgang : gangCores r cores = [(0, cores)] := by
    simp [gangCores, hg, List.range_succ, ← hlen]
  simp only [State.takeGang, hr, hh, ha, hcl, hg, hgang, State.placeGang, Nat.div_one, Nat.mul_one, Nat.add_zero,
      Bool.false_eq_true, if_false]
  cases s.placeBlock rid r h r.next cores <;> rfl

end Gang

/-- Another candidate for an offer than the one granted is passed over. -/
def State.passOver (rid : Nat) (s : State) (x : Nat × Launch) : State :=
  if x.1 = rid then s else s.setLaunch x.1 fun y => y.passed (s.lqueue y.queue).aging

/-- The state in which an offer is granted: the others that could have had it have aged, the one that has it begins anew. -/
def State.choose (s : State) (c : Nat) (cands : List (Nat × Launch)) (rid : Nat) (r : Launch) : State :=
  let level := 8 * (c / 32) + r.prio (s.lqueue r.queue)
  (cands.foldl (State.passOver rid) (s.ledger s.launches (mapInsert level (r.queue, r.order) s.granted))).setLaunch rid
    fun x => { x with rounds := 0, boost := 0 }

/-- The record goes on once its gangs are placed: RUNNING, and out of its queue once all are. -/
def State.goOn (s : State) (rid : Nat) (r : Launch) : State :=
  let s := if r.status = 2 then s.putStatus rid 3 else s
  if (s.launch? rid).any (·.claimed) then s.leaveQueue rid else s

theorem grant_eq {s : State} {r : Launch} (hg : r.gangb = 1) (hq : (s.lqueue r.queue).chunk = 1) (c : Nat)
    (cands : List (Nat × Launch)) (rid : Nat) (cores : List Nat) :
    s.grant c cands rid r cores = ((s.choose c cands rid r).takeGangs rid cores 1).goOn rid r := by
  have hn : (if r.gangb = 1 then (s.lqueue r.queue).chunk else max 1 ((s.lqueue r.queue).chunk / r.gangb)) = 1 := by
    rw [if_pos hg, hq]
  exact congrArg (fun n => ((s.choose c cands rid r).takeGangs rid cores n).goOn rid r) hn

section Choose
variable {s : State} {rid : Nat} {r : Launch}

/-- What ages is in the launch unit's tables. -/
theorem passed_ledger (cands : List (Nat × Launch)) {L : SMap Launch} (G : SMap (Nat × Nat))
    (hr : mapFind rid L = some r) :
    ∃ L', cands.foldl (State.passOver rid) (s.ledger L G) = s.ledger L' G ∧ mapFind rid L' = some r := by
  induction cands generalizing L with
  | nil => exact ⟨L, rfl, hr⟩
  | cons x cands ih =>
    rw [List.foldl_cons, State.passOver]
    split
    · exact ih hr
    · next hx => exact ih (by rw [mapFind_update, if_neg (Ne.symm hx)]; exact hr)

theorem choose_ledger (c : Nat) (cands : List (Nat × Launch)) (hr : s.launch? rid = some r) :
    ∃ L G, s.choose c cands rid r = s.ledger L G ∧ mapFind rid L = some { r with rounds := 0, boost := 0 } := by
  obtain ⟨L, hL, hL'⟩ := passed_ledger (s := s) cands
    (mapInsert (8 * (c / 32) + r.prio (s.lqueue r.queue)) (r.queue, r.order) s.granted) hr
  refine ⟨mapUpdate rid (fun x => { x with rounds := 0, boost := 0 }) L, _, congrArg (State.setLaunch · rid fun x =>
      { x with rounds := 0, boost := 0 }) hL, ?_⟩
  exact (mapFind_update ..).trans ((if_pos rfl).trans (congrArg (Option.map _) hL'))

theorem putStatus_blocks (k n : Nat) : (s.putStatus k n).blocks = s.blocks := by
  unfold State.putStatus
  split
  · rfl
  · exact putFields_blocks ..

theorem leaveQueue_blocks (k : Nat) : (s.leaveQueue k).blocks = s.blocks := by
  unfold State.leaveQueue
  split <;> rfl

theorem goOn_frame (s : State) (rid : Nat) (r : Launch) :
    (s.goOn rid r).groups = s.groups ∧ (s.goOn rid r).blocks = s.blocks := by
  have h1 : (if r.status = 2 then s.putStatus rid 3 else s).groups = s.groups ∧
      (if r.status = 2 then s.putStatus rid 3 else s).blocks = s.blocks := by
    split
    · exact ⟨putStatus_groups .., putStatus_blocks ..⟩
    · exact ⟨rfl, rfl⟩
  unfold State.goOn
  dsimp only
  generalize (if r.status = 2 then s.putStatus rid 3 else s) = m at h1 ⊢
  split
  · exact ⟨(leaveQueue_groups ..).trans h1.1, (leaveQueue_blocks ..).trans h1.2⟩
  · exact h1

theorem goOn_launch? {y : Launch} (hy : s.launch? rid = some y) (hs : y.status = r.status)
    (h23 : r.status = 2 ∨ r.status = 3) :
    ∃ r', (s.goOn rid r).launch? rid = some r' ∧ r'.status = 3 ∧ r'.next = y.next := by
  have h1 : (if r.status = 2 then s.putStatus rid 3 else s).launch? rid = some { y with status := 3 } := by
    split
    · exact putStatus_launch? 3 hy
    · next h2 => rw [hy, ← h23.resolve_left h2, ← hs]
  unfold State.goOn
  dsimp only
  generalize (if r.status = 2 then s.putStatus rid 3 else s) = m at h1 ⊢
  split
  · refine ⟨{ y with status := 3, queued := false }, ?_, rfl, rfl⟩
    rw [State.launch?, leaveQueue_launches, mapFind_update, if_pos rfl]
    exact congrArg (Option.map _) h1
  · exact ⟨_, h1, rfl, rfl⟩

end Choose

theorem run_length {s : State} {p c n : Nat} {cores : List Nat} (h : s.run p c n = some cores) : cores.length = n := by
  unfold State.run at h
  obtain ⟨-, h⟩ := Option.ite_none_right_eq_some.mp h
  cases h
  simp

/-- What an offer to a launch says of it (R92). -/
theorem offered_some {s : State} {p c : Nat} {r : Launch} {h : KHdr} {cores : List Nat}
    (ho : s.offered p c r = some (h, cores)) :
    r.hdr = some h ∧ (r.status = 2 ∨ r.status = 3) ∧ r.claimed = false ∧ cores.length = r.gangb * r.bcores := by
  unfold State.offered at ho
  split at ho
  · cases ho
  · next h' hh =>
    split at ho
    · next hc =>
      obtain ⟨-, hst, hcl, -⟩ := hc
      split at ho
      · next cs hcs =>
        split at ho
        · cases ho
          exact ⟨hh, hst, by simpa using hcl, run_length hcs⟩
        · cases ho
      · cases ho
    · cases ho

/-- An offer that is granted to a launch of single blocks places its next block, and the record is RUNNING (R92). -/
theorem grant_places {s : State} {p core rid : Nat} {r : Launch} {h : KHdr} {cores : List Nat} {m : State}
    (cands : List (Nat × Launch)) (hn : Numbered s) (hr : s.launch? rid = some r) (hg : r.gangb = 1) (hb : 1 ≤ r.bcores)
    (ha : r.again = []) (hq : (s.lqueue r.queue).chunk = 1) (ho : s.offered p core r = some (h, cores))
    (ht : s.takeGang rid cores = some m) :
    GroupsPlaced s (s.grant core cands rid r cores) (mapFresh s.blocks) (r.newBlock rid h r.next cores) cores r.kargs
      r.karglen.toNat (r.bthreads / h.width) ∧
    ∃ r', (s.grant core cands rid r cores).launch? rid = some r' ∧ r'.status = 3 ∧ r'.next = r.next + 1 := by
  obtain ⟨hh, hst, hcl, hlen⟩ := offered_some ho
  rw [hg, Nat.one_mul] at hlen
  rw [takeGang_eq hr hh ha hcl hg hlen, placeBlock_eq] at ht
  obtain ⟨_, hbl, -⟩ := Option.map_eq_some_iff.mp ht
  obtain ⟨t, hpl, -⟩ := Option.map_eq_some_iff.mp hbl
  obtain ⟨L, G, hw, hL⟩ := choose_ledger core cands hr
  let y : Launch := { r with rounds := 0, boost := 0 }
  have hy : (s.ledger L G).launch? rid = some y := hL
  have hpw : (s.ledger L G).placed? y h (y.newBlock rid h y.next cores) = some (t.ledger L G) := by
    rw [placed?_ledger]
    exact congrArg (Option.map _) hpl
  have htake : (s.ledger L G).takeGang rid cores = some (((t.ledger L G).standBlock (mapFresh s.blocks) rid
      (r.newBlock rid h r.next cores)).setLaunch rid fun r => { r with next := r.next + r.gangb }) := by
    rw [takeGang_eq hy hh ha hcl hg hlen, placeBlock_eq, hpw]
    rfl
  have hgrant : s.grant core cands rid r cores = (((t.ledger L G).standBlock (mapFresh s.blocks) rid
      (r.newBlock rid h r.next cores)).setLaunch rid fun r => { r with next := r.next + r.gangb }).goOn rid r := by
    rw [grant_eq hg hq, hw, State.takeGangs, htake]
    rfl
  have hst' := standBlock_placed (rid := rid) hn (by rw [← hlen] at hb; exact hb) rfl rfl hpl
  obtain ⟨hg1, -, hb1⟩ := standBlock_frame (t := t) (rid := rid) (bid := mapFresh s.blocks)
    (b := r.newBlock rid h r.next cores)
  obtain ⟨hg2, hl2, hb2⟩ := standBlock_frame (t := t.ledger L G) (rid := rid) (bid := mapFresh s.blocks)
    (b := r.newBlock rid h r.next cores)
  rw [hgrant]
  refine ⟨hst'.of_frame ?_ ?_, ?_⟩
  · exact (goOn_frame ..).1.trans (hg2.trans hg1.symm)
  · exact (goOn_frame ..).2.trans (hb2.trans hb1.symm)
  · refine goOn_launch? (y := { y with live := setAdd (mapFresh s.blocks) r.live, next := r.next + 1 }) ?_ rfl hst
    rw [launch?_setLaunch, if_pos rfl, State.launch?, hl2, mapFind_update, if_pos rfl]
    refine (congrArg (Option.map _) (congrArg (Option.map _) hL)).trans ?_
    simp [y, hg]

end Sys2Proof.Machine
end

-- ==== Proofs: claims, returns and handler waves (O37) ====
section
namespace Sys2Proof.Machine

/-! ## Claims (R92, R93, R107) -/

/-- The launches that an offer can be granted to (R93). -/
def State.grantable (s : State) (p core : Nat) : List (Nat × Launch) :=
  (s.launches.filter fun y => (s.offered p core y.2).isSome).filter fun y =>
    match s.offered p core y.2 with
    | some (_, cs) => (s.takeGang y.1 cs).isSome
    | none => false

section Claim
variable {s : State} {core p : Nat} (hp : s.corePart core = some p)
include hp

/-- A core whose partition is not being switched out claims for it. -/
theorem claim_of_wave (hw : s.waveWaits p core = true) : exec (.claim core false) s = .next s := by
  change execClaim core false s = _
  unfold execClaim
  cases hf : (s.corePart core).filter fun p => !(s.part p).switching with
  | none => rfl
  | some q =>
    obtain ⟨hq, -⟩ := Option.filter_eq_some_iff.mp hf
    cases hp.symm.trans hq
    simp only [hw, if_true]

variable (hs : (s.part p).switching = false) (hw : s.waveWaits p core = false)
include hs hw

theorem claim_migrant {gid : Nat} {g : Group} {x : Slot}
    (hf : (s.groups.find? fun y => y.2.residence == .migrating && y.2.part == p && y.2.enc == coreEnc core &&
      y.2.core / 32 == core / 32 && (s.migrantFits p core y.2).isSome) = some (gid, g))
    (hx : s.migrantFits p core g = some x) :
    exec (.claim core false) s = .next (s.placeMigrant p core gid x) := by
  change execClaim core false s = _
  have hfilter : (s.corePart core).filter (fun p => !(s.part p).switching) = some p := by simp [hp, hs]
  have hff : (s.groups.filter fun y => y.2.residence == .migrating && y.2.part == p && y.2.enc == coreEnc core &&
      y.2.core / 32 == core / 32).find?
      (fun y => (s.migrantFits p core y.2).isSome) = some (gid, g) := by
    rw [List.find?_filter, ← hf]
    simp only [Bool.decide_and, Bool.decide_eq_true]
  unfold execClaim
  simp only [hfilter, hw, Bool.false_eq_true, if_false]
  cases hm : s.groups.filter fun y => y.2.residence == .migrating && y.2.part == p && y.2.enc == coreEnc core &&
      y.2.core / 32 == core / 32 with
  | nil => rw [hm] at hff; cases hff
  | cons m ms =>
    rw [hm] at hff
    simp only [State.offerMigrants, hff, hx]

theorem claim_grants (hg : ∀ y ∈ s.groups, y.2.residence ≠ .migrating) {rid : Nat} {r : Launch} {h : KHdr}
    {cores : List Nat}
    (ho : s.offered p core r = some (h, cores)) (ha : s.arbitrate (core / 32) (s.grantable p core) = some (rid, r)) :
    exec (.claim core false) s = .next (s.grant core (s.grantable p core) rid r cores) := by
  change execClaim core false s = _
  have hfilter : (s.corePart core).filter (fun p => !(s.part p).switching) = some p := by simp [hp, hs]
  have hnone : (s.groups.filter fun y => y.2.residence == .migrating && y.2.part == p && y.2.enc == coreEnc core &&
      y.2.core / 32 == core / 32) = [] :=
    List.filter_eq_nil_iff.mpr fun y hy => by simp [hg y hy]
  unfold execClaim
  simp only [hfilter, hw, hnone, Bool.false_eq_true, if_false, Bool.false_and]
  split
  · next hn => cases ha.symm.trans hn
  · next hr =>
    cases ha.symm.trans hr
    rw [ho]
    rfl

end Claim

/-- A migrating group that is placed is resident on its new core, and its threads are READY (R107). -/
theorem placeMigrant_places {s : State} {p core gid : Nat} {g : Group} (hg : s.group? gid = some g) (x : Slot) :
    (s.placeMigrant p core gid x).mem = s.mem ∧ (∀ k, k ≠ gid → (s.placeMigrant p core gid x).group? k = s.group? k) ∧
      (s.placeMigrant p core gid x).group? gid = some { g with
        core := core, rows := x.rows, lane0 := x.lane0, residence := .resident, fetched := []
        ilk := s.interlocked p core (((s.block? g.bid).map (·.hdr)).getD {})
        threads := g.threads.map fun t => if t.st == .migrating then { t with st := .ready } else t } := by
  have hd : (s.dropFills core fun _ => true).group? gid = some g := hg
  refine ⟨rfl, fun k hk => ?_, ?_⟩
  · rw [State.placeMigrant, group?_setGroup, if_neg hk]
    rfl
  · rw [State.placeMigrant, group?_setGroup, if_pos rfl, hd]
    rfl

/-! ## An evicted group returns (R300) -/

theorem groupRestore_returns {s : State} {gid : Nat} {g : Group} {x : Slot} (hg : s.group? gid = some g)
    (he : g.residence = .evicted)
    (hs : (s.part g.part).switching = false) (hx : s.returnFits g g.core = some x) :
    exec (.groupRestore gid g.core) s = .next (s.restoreOn gid g.core x) := by
  change execGroupRestore gid g.core s = _
  simp [execGroupRestore, hg, he, hs, hx]

/-- On the core that it left, a group stands again as it was; its threads go on where they were. -/
theorem restoreOn_own {s : State} {gid : Nat} {g : Group} (hg : s.group? gid = some g) (hb : g.binned = []) (x : Slot) :
    (s.restoreOn gid g.core x).mem = s.mem ∧ (∀ k, k ≠ gid → (s.restoreOn gid g.core x).group? k = s.group? k) ∧
      (s.restoreOn gid g.core x).group? gid = some { g with
        rows := x.rows, lane0 := x.lane0, residence := .resident, fetched := []
        ilk := s.interlocked g.part g.core (((s.block? g.bid).map (·.hdr)).getD {})
        threads := g.threads.map fun t => { t with st := t.st.unevict } } := by
  have he : s.restoreOn gid g.core x = s.setGroup gid fun y => { y with
      core := g.core, rows := x.rows, lane0 := x.lane0, residence := .resident, binned := [], fetched := []
      ilk := s.interlocked y.part g.core (((s.block? g.bid).map (·.hdr)).getD {})
      threads := y.threads.map fun t => { t with st := t.st.unevict } } := by
    simp only [State.restoreOn, hg, hb, if_true, List.foldl_nil]
  rw [he]
  refine ⟨rfl, fun k hk => by rw [group?_setGroup, if_neg hk], ?_⟩
  rw [group?_setGroup, if_pos rfl, hg, hb]
  rfl

/-! ## Handler waves (R289 to R291) -/

section Wave
variable {s : State} {stack part : Nat} (hs : (s.part part).slicedOut = false)
    (hl : mapGet [] (s.part part).collect stack ≠ [])
include hs hl

theorem handlerWaveForm_refused (aged : Bool) (hh : s.handlerHdr part [stack] = none) :
    exec (.handlerWaveForm stack part aged) s = .next (s.refuseHandler part) := by
  change execHandlerWaveForm stack part aged s = _
  have he : (mapGet [] (s.part part).collect stack).isEmpty = false := by simpa using hl
  simp only [execHandlerWaveForm, he, hs, hh, Bool.or_self, Bool.false_eq_true, if_false]

end Wave

/-- The lanes that a wave takes of its collector, each with its pennant. -/
def State.waveOrigins (s : State) (lanes : List (Nat × Nat)) : List (Nat × Nat × Word) :=
  lanes.map fun o => (o.1, o.2, ((s.thread? o.1 o.2).map (·.pennant)).getD 0)

/-- A stack's collector forms a wave on a core: its block and its group are placed, and the collector keeps the other lanes. -/
def State.formWave (s : State) (stack part c : Nat) (h : KHdr) (x : Slot) : State :=
  let lanes := mapGet [] (s.part part).collect stack
  let b : Block :=
    { rid := none, part := part, index := 0, gangb := 1, hdr := h, cores := [c], groups := [mapFresh s.groups]
      regions := [newRegion h], tiles := [newTiles h.tiles] }
  { s with
    blocks := mapInsert (mapFresh s.blocks) b s.blocks
    groups := mapInsert (mapFresh s.groups)
      (s.waveGroup (mapFresh s.blocks) part c h x (s.waveOrigins (lanes.take h.width))) s.groups }.setPart part fun p =>
    { p with collect := mapPut [] stack (lanes.drop h.width) p.collect }

theorem shareFits_one {s : State} {part c : Nat} {h : KHdr} (hf : (s.shareFits part c h 1).isSome = true) :
    ∃ x, s.shareFits part c h 1 = some [x] := by
  obtain ⟨xs, hxs⟩ := Option.isSome_iff_exists.mp hf
  obtain ⟨x, rfl⟩ := List.length_eq_one_iff.mp (shareFits_length hxs)
  exact ⟨x, hxs⟩

section Wave
variable {s : State} {stack part : Nat} {h : KHdr}

/-- A wave forms on a core of its stack that its header allows, without an eviction where it fits on each. -/
theorem handlerWaveForm_forms (hs : (s.part part).slicedOut = false) (hl : mapGet [] (s.part part).collect stack ≠ [])
    {aged : Bool} (hh : s.handlerHdr part [stack] = some h)
    (hw : aged = true ∨ h.width ≤ (mapGet [] (s.part part).collect stack).length)
    (hfits : ∀ i, i < 32 → s.enabledCore part (32 * stack + i) = true → h.carries (coreEnc (32 * stack + i)) = true →
      (s.shareFits part (32 * stack + i) h 1).isSome = true)
    (hcore : ∃ i, i < 32 ∧ s.enabledCore part (32 * stack + i) = true ∧ h.carries (coreEnc (32 * stack + i)) = true) :
    ∃ c x sel, exec (.handlerWaveForm stack part aged) s = .next ((s.formWave stack part c h x).dropFills c sel) := by
  have he : (mapGet [] (s.part part).collect stack).isEmpty = false := by simpa using hl
  have hfull : (decide ((mapGet [] (s.part part).collect stack).length < h.width) && !aged) = false := by
    obtain rfl | hw := hw
    · simp
    · simp [Nat.not_lt.mpr hw]
  obtain ⟨i, hi, hen, hca⟩ := hcore
  have hsome : ((((List.range 32).map (32 * stack + ·)).filter fun c =>
      s.enabledCore part c && h.carries (coreEnc c)).find? fun c =>
      (s.shareFits part c h 1).isSome).isSome = true := by
    rw [List.find?_isSome]
    exact ⟨32 * stack + i, by simp [hi, hen, hca], hfits i hi hen hca⟩
  obtain ⟨c, hc⟩ := Option.isSome_iff_exists.mp hsome
  have hfit := List.find?_some hc
  obtain ⟨x, hx⟩ := shareFits_one hfit
  refine ⟨c, x, ?_⟩
  change ∃ sel, execHandlerWaveForm stack part aged s = _
  simp only [execHandlerWaveForm, he, hs, hh, hfull, hc, hx, State.makeRoom, Option.isSome_some, Bool.or_self,
      Bool.false_eq_true, if_false, if_true,
    Option.orElse_some]
  exact ⟨_, rfl⟩

/-- Of a wave's lanes the first are at the handler's entry, each for a lane of the collector; the others have exited (R290). -/
theorem waveGroup_lane (bid c : Nat) (x : Slot) {origins : List (Nat × Nat × Word)} {l gid k : Nat} {pen : Word}
    (hl : l < h.width)
    (ho : origins[l]? = some (gid, k, pen)) : (s.waveGroup bid part c h x origins).thread? l =
      some { newThread (h.entryAt (coreEnc c)) with origin := some (gid, k), pennant := pen } := by
  simp [State.waveGroup, Group.thread?, hl, ho]

theorem waveGroup_noLane (bid c : Nat) (x : Slot) {origins : List (Nat × Nat × Word)} {l : Nat} (hl : l < h.width)
    (ho : origins[l]? = none) : (s.waveGroup bid part c h x origins).thread? l = some { st := .exited } := by
  simp [State.waveGroup, Group.thread?, hl, ho]

theorem formWave_waits (stack part c : Nat) (h : KHdr) (x : Slot) (sel : Nat → Bool) :
    mapGet [] (((s.formWave stack part c h x).dropFills c sel).part part).collect stack =
      (mapGet [] (s.part part).collect stack).drop h.width := by
  have hp : ((s.formWave stack part c h x).dropFills c sel).part part = (s.formWave stack part c h x).part part := rfl
  rw [hp, State.formWave, part_setPart, if_pos rfl]
  exact mapGet_put_self ..

theorem formWave_group? (stack part c : Nat) (h : KHdr) (x : Slot) (sel : Nat → Bool) (k : Nat) :
    ((s.formWave stack part c h x).dropFills c sel).group? k = if k = mapFresh s.groups then
      some (s.waveGroup (mapFresh s.blocks) part c h x
          (s.waveOrigins ((mapGet [] (s.part part).collect stack).take h.width)))
    else s.group? k := mapFind_insert ..

end Wave

/-- Settles O37: a claim is followed to what it offers the core to, a restoring to the group's return, and the forming of a
wave to its placing. A block's groups are counted share by share as they are placed. -/
theorem claimEvents : Obligations.ClaimEvents := by
  unfold Obligations.ClaimEvents
  intro s hn
  refine ⟨fun core p hp hw => claim_of_wave hp hw, fun core p gid g x hp hs hw hf hg hx => ?_,
    fun core p rid r h cores m hp hs hw hmig hr hg hb ha hq ho ht harb => ?_, fun gid g x hg he hs hx hb => ?_,
    fun stack part aged hs hl => ⟨fun hh => ?_, fun h hh hw hfits hcore => ?_⟩⟩
  · exact ⟨_, claim_migrant hp hs hw hf hx, placeMigrant_places hg x⟩
  · obtain ⟨⟨hkept, gs, hblock, hlen, hgs⟩, r', hr', h3, hnext⟩ := grant_places (s.grantable p core) hn hr hg
        hb ha hq ho ht
    exact ⟨_, _, r', claim_grants hp hs hw hmig ho harb, hkept, hr', h3, hnext, hblock, rfl, rfl, rfl, rfl, hlen, hgs⟩
  · exact ⟨_, groupRestore_returns hg he hs hx, restoreOn_own hg hb x⟩
  · have hm := refuseHandler_marks (s := s) (part := part)
    obtain ⟨hbad, hflags⟩ := Prod.mk.inj hm
    exact ⟨_, handlerWaveForm_refused hs hl aged hh, hbad, by rw [hflags]; simp⟩
  · obtain ⟨c, x, sel, hex⟩ := handlerWaveForm_forms hs hl hh hw hfits hcore
    refine ⟨_, _, hex, rfl, fun k hk => ?_, formWave_waits .., (formWave_group? ..).trans (if_pos rfl), rfl, rfl, rfl,
        fun l hlt => ?_⟩
    · rw [formWave_group?, if_neg (hn.2 k hk).ne]
    · have ho : (s.waveOrigins ((mapGet [] (s.part part).collect stack).take h.width))[l]? =
          (mapGet [] (s.part part).collect stack)[l]?.map fun o =>
              (o.1, o.2, ((s.thread? o.1 o.2).map (·.pennant)).getD 0) := by
        rw [State.waveOrigins, List.getElem?_map, List.getElem?_take_of_lt hlt]
      cases hlane : (mapGet [] (s.part part).collect stack)[l]? with
      | none =>
        rw [hlane] at ho
        exact ⟨_, waveGroup_noLane _ _ _ hlt ho, rfl⟩
      | some o =>
        rw [hlane] at ho
        exact ⟨_, waveGroup_lane _ _ _ hlt ho, rfl, rfl, rfl⟩

end Sys2Proof.Machine
end

-- ==== Proofs: sorted lists and classes (O45) ====
section
namespace Sys2Proof.Machine

/-! ## Sorted lists and classes -/

section Lists
variable {α : Type}

theorem insertBy_perm (before : α → α → Bool) (x : α) (xs : List α) : (insertBy before x xs).Perm (x :: xs) := by
  induction xs with
  | nil => exact .refl _
  | cons y ys ih =>
    rw [insertBy]
    split
    · exact .refl _
    · exact (ih.cons y).trans (.swap x y ys)

/-- A sort keeps every element as often as it is there. -/
theorem sortBy_perm (before : α → α → Bool) (xs : List α) : (sortBy before xs).Perm xs := by
  have hfold : ∀ (xs acc : List α), (xs.foldl (fun acc x => insertBy before x acc) acc).Perm (xs ++ acc) := by
    intro xs
    induction xs with
    | nil => exact fun _ => .refl _
    | cons x xs ih => exact fun acc => (ih _).trans (((insertBy_perm before x acc).append_left xs).trans
          List.perm_middle)
  simpa [sortBy] using hfold xs []

theorem mem_sortBy {before : α → α → Bool} {x : α} {xs : List α} : x ∈ sortBy before xs ↔ x ∈ xs :=
    (sortBy_perm before xs).mem_iff

theorem mem_listUpdate {i : Nat} {f : α → α} {xs : List α} {x : α} (h : x ∈ xs) :
    x ∈ listUpdate i f xs ∨ f x ∈ listUpdate i f xs := by
  obtain ⟨j, hj⟩ := List.mem_iff_getElem?.mp h
  by_cases hji : j = i
  · exact .inr (List.mem_of_getElem? (i := j) (by rw [listUpdate_get, if_pos hji, hj]; rfl))
  · exact .inl (List.mem_of_getElem? (i := j) (by rw [listUpdate_get, if_neg hji, hj]))

/-- An element that replaces one that is there is there. -/
theorem mem_listUpdate_const {i : Nat} {y : α} {xs : List α} (h : xs[i]? ≠ none) :
    y ∈ listUpdate i (fun _ => y) xs := by
  obtain ⟨x, hx⟩ := Option.ne_none_iff_exists'.mp h
  exact List.mem_of_getElem? (i := i) (by rw [listUpdate_get, if_pos rfl, hx]; rfl)

end Lists

section Classes
variable {κ : Type} [DecidableEq κ] (key : Nat → κ)

/-- The classes of the lanes from one on: of its own class it is the first lane. -/
theorem classes_cons (l : Nat) (ls : List Nat) : ∃ c rest, classes key (l :: ls) = (key l, l :: c) :: rest ∧
    rest = (classes key ls).filter (fun d => !(d.1 == key l)) ∧
        (c = [] ∧ (∀ d ∈ classes key ls, d.1 ≠ key l) ∨ (key l, c) ∈ classes key ls) := by
  cases hf : (classes key ls).find? fun c => c.1 == key l with
  | some c =>
    have hk : c.1 = key l := by simpa using List.find?_some hf
    refine ⟨c.2, _, by rw [classes, hf], rfl, .inr ?_⟩
    rw [← hk]
    exact List.mem_of_find?_eq_some hf
  | none =>
    have hne : ∀ d ∈ classes key ls, d.1 ≠ key l := fun d hd => by simpa using List.find?_eq_none.mp hf d hd
    refine ⟨[], _, by rw [classes, hf], ?_, .inl ⟨rfl, hne⟩⟩
    exact (List.filter_eq_self.mpr fun d hd => by simp [hne d hd]).symm

theorem classes_keys_nodup (ls : List Nat) : ((classes key ls).map (·.1)).Nodup := by
  induction ls with
  | nil => exact List.nodup_nil
  | cons l ls ih =>
    obtain ⟨c, rest, he, hr, -⟩ := classes_cons key l ls
    rw [he, List.map_cons, List.nodup_cons, hr]
    refine ⟨fun hm => ?_, ih.sublist ((List.filter_sublist).map _)⟩
    obtain ⟨d, hd, hk⟩ := List.mem_map.mp hm
    have := (List.mem_filter.mp hd).2
    simp [hk] at this

/-- Every lane of a class has its key. -/
theorem key_of_mem_classes {ls : List Nat} {c : κ × List Nat} (hc : c ∈ classes key ls) : ∀ l ∈ c.2, key l = c.1 := by
  induction ls generalizing c with
  | nil => cases hc
  | cons k ls ih =>
    obtain ⟨cs, rest, he, hr, hcs⟩ := classes_cons key k ls
    rw [he] at hc
    obtain rfl | hc := List.mem_cons.mp hc
    · intro l hl
      obtain rfl | hl := List.mem_cons.mp hl
      · rfl
      · obtain ⟨rfl, -⟩ | hm := hcs
        · cases hl
        · exact ih hm l hl
    · rw [hr] at hc
      exact ih (List.mem_filter.mp hc).1

theorem exists_mem_class {ls : List Nat} {c : κ × List Nat} (hc : c ∈ classes key ls) : ∃ l, l ∈ c.2 := by
  induction ls with
  | nil => cases hc
  | cons k ls ih =>
    obtain ⟨cs, rest, he, hr, -⟩ := classes_cons key k ls
    rw [he] at hc
    obtain rfl | hc := List.mem_cons.mp hc
    · exact ⟨k, List.mem_cons_self⟩
    · rw [hr] at hc
      exact ih (List.mem_filter.mp hc).1

/-- Every lane is in the class of its key. -/
theorem exists_class {ls : List Nat} {l : Nat} (h : l ∈ ls) : ∃ c ∈ classes key ls, c.1 = key l ∧ l ∈ c.2 := by
  induction ls with
  | nil => cases h
  | cons k ls ih =>
    obtain ⟨cs, rest, he, hr, hcs⟩ := classes_cons key k ls
    rw [he]
    obtain rfl | h := List.mem_cons.mp h
    · exact ⟨_, List.mem_cons_self, rfl, List.mem_cons_self⟩
    · obtain ⟨c, hc, hk, hl⟩ := ih h
      by_cases hkk : c.1 = key k
      · obtain ⟨-, hne⟩ | hm := hcs
        · exact absurd hkk (hne c hc)
        · have hcc : c = (key k, cs) := List.inj_on_of_nodup_map (classes_keys_nodup key ls) hc hm hkk
          subst hcc
          exact ⟨_, List.mem_cons_self, hk, List.mem_cons_of_mem _ hl⟩
      · exact ⟨c, List.mem_cons_of_mem _ (hr ▸ List.mem_filter.mpr ⟨hc, by simp [hkk]⟩), hk, hl⟩

theorem classes_disjoint (ls : List Nat) : (classes key ls).Pairwise fun c d => ∀ l ∈ c.2, l ∉ d.2 := by
  have h := List.pairwise_map.mp (classes_keys_nodup key ls)
  refine h.imp_of_mem fun hc hd hne l hlc hld => hne ?_
  rw [← key_of_mem_classes key hc l hlc, ← key_of_mem_classes key hd l hld]

/-- The numbers of a list, each once. -/
theorem classes_self (ls : List Nat) : ((classes (fun k => k) ls).map (·.1)).Nodup ∧
    ∀ k, k ∈ (classes (fun k => k) ls).map (·.1) ↔ k ∈ ls := by
  refine ⟨classes_keys_nodup _ ls, fun k => ⟨fun h => ?_, fun h => ?_⟩⟩
  · obtain ⟨c, hc, rfl⟩ := List.mem_map.mp h
    obtain ⟨l, hl⟩ := exists_mem_class _ hc
    rw [← key_of_mem_classes _ hc l hl]
    exact mem_classes _ ls c hc l hl
  · obtain ⟨c, hc, hk, -⟩ := exists_class (fun k => k) h
    exact List.mem_map.mpr ⟨c, hc, hk⟩

end Classes

end Sys2Proof.Machine
end

-- ==== Proofs: lanes of one PC become one fragment (O45) ====
section
namespace Sys2Proof.Machine

/-! ## Lanes of one PC become one fragment (R94, R110) -/

/-- Lanes that are given a fragment, each as often as it may be. -/
theorem foldl_setFrag_thread? (n : Nat) (ls : List Nat) (g : Group) (l : Nat) :
    (ls.foldl (fun g l => g.setThread l fun t => { t with frag := n }) g).thread? l =
      if l ∈ ls then (g.thread? l).map fun t => { t with frag := n } else g.thread? l := by
  induction ls generalizing g with
  | nil => rfl
  | cons k ls ih =>
    rw [List.foldl_cons, ih, thread?_setThread]
    by_cases hk : l = k
    · subst hk
      cases g.thread? l <;> simp
    · simp [hk]

/-- Merged lanes stand in one fragment; the others stay where they are. -/
theorem mergeLanes_thread? (g : Group) (ls : List Nat) : ∃ n, ∀ l, (g.mergeLanes ls).thread? l =
    if l ∈ ls then (g.thread? l).map fun t => { t with frag := n } else g.thread? l := by
  cases ls with
  | nil => exact ⟨0, fun l => rfl⟩
  | cons k ls =>
    simp only [Group.mergeLanes, thread?_prune]
    split
    · exact ⟨_, fun l => foldl_setFrag_thread? _ (k :: ls) g l⟩
    · exact ⟨_, fun l => foldl_setFrag_thread? _ (k :: ls) _ l⟩

/-- Where a group stands. -/
def Group.stand (g : Group) : Nat × Residence := (g.core, g.residence)

theorem mergeLanes_stand (g : Group) (ls : List Nat) : (g.mergeLanes ls).stand = g.stand := by
  have hfold : ∀ (n : Nat) (ls : List Nat) (g : Group),
      (ls.foldl (fun g l => g.setThread l fun t => { t with frag := n }) g).stand = g.stand :=
    fun n ls g => foldl_keeps Group.stand ls (f := fun g l => g.setThread l fun t => { t with frag := n })
        (fun _ _ _ => rfl) g
  cases ls with
  | nil => rfl
  | cons k ls =>
    simp only [Group.mergeLanes]
    split
    · exact hfold ..
    · exact hfold ..

section Merge
variable {κ : Type}

/-- Of lanes merged class by class, each class stands in one fragment. -/
theorem foldl_mergeLanes {cs : List (κ × List Nat)} (hd : cs.Pairwise fun c d => ∀ l ∈ c.2, l ∉ d.2) (g : Group) :
    (∀ l, (∀ c ∈ cs, l ∉ c.2) → (cs.foldl (fun g c => g.mergeLanes c.2) g).thread? l = g.thread? l) ∧
    ∀ c ∈ cs, ∃ n, ∀ l ∈ c.2, (cs.foldl (fun g c => g.mergeLanes c.2) g).thread? l = (g.thread? l).map fun t =>
        { t with frag := n } := by
  induction cs generalizing g with
  | nil => exact ⟨fun _ _ => rfl, fun _ h => absurd h List.not_mem_nil⟩
  | cons c cs ih =>
    obtain ⟨hc, hcs⟩ := List.pairwise_cons.mp hd
    obtain ⟨n, hn⟩ := mergeLanes_thread? g c.2
    obtain ⟨hout, hin⟩ := ih hcs (g.mergeLanes c.2)
    rw [List.foldl_cons]
    refine ⟨fun l hl => ?_, fun d hdm => ?_⟩
    · rw [hout l fun d hd => hl d (List.mem_cons_of_mem _ hd), hn, if_neg (hl c List.mem_cons_self)]
    · obtain rfl | hdm := List.mem_cons.mp hdm
      · exact ⟨n, fun l hl => by rw [hout l fun e he => hc e he l hl, hn, if_pos hl]⟩
      · obtain ⟨m, hm⟩ := hin d hdm
        exact ⟨m, fun l hl => by rw [hm l hl, hn, if_neg fun h => hc d hdm l h hl]⟩

end Merge

/-- The PC of a lane. -/
def Group.lanePc (g : Group) (l : Nat) : DWord := ((g.thread? l).map (·.pc)).getD 0

/-- A thread that can issue after the merge could before, at its PC; those at one PC are in one fragment. -/
theorem mergeAll_one {g : Group} {l k : Nat} {t t' : Thread} (hl : g.mergeAll.thread? l = some t)
    (hk : g.mergeAll.thread? k = some t')
    (hi : t.st.issuable = true) (hi' : t'.st.issuable = true) (hpc : t.pc = t'.pc) : t.frag = t'.frag := by
  have hd := classes_disjoint g.lanePc (g.lanesWhere fun t => t.st.issuable)
  obtain ⟨hout, hin⟩ := foldl_mergeLanes hd g
  have hbefore : ∀ {l t}, g.mergeAll.thread? l = some t → t.st.issuable = true →
      ∃ c ∈ classes g.lanePc (g.lanesWhere fun t => t.st.issuable), c.1 = t.pc ∧ l ∈ c.2 := by
    intro l t hl hi
    have hmem : l ∈ g.lanesWhere fun t => t.st.issuable := by
      by_contra hn
      have hsame : g.mergeAll.thread? l = g.thread? l := hout l fun c hc hlc => hn (mem_classes _ _ c hc l hlc)
      exact hn (mem_lanesWhere.mpr ⟨t, hsame ▸ hl, hi⟩)
    obtain ⟨c, hc, hkey, hlc⟩ := exists_class g.lanePc hmem
    obtain ⟨n, hn⟩ := hin c hc
    have hm : g.mergeAll.thread? l = _ := hn l hlc
    rw [hl] at hm
    obtain ⟨t0, ht0, rfl⟩ := Option.map_eq_some_iff.mp hm.symm
    exact ⟨c, hc, by rw [hkey, Group.lanePc, ht0]; rfl, hlc⟩
  obtain ⟨c, hc, hcp, hlc⟩ := hbefore hl hi
  obtain ⟨d, hd', hdp, hkd⟩ := hbefore hk hi'
  obtain rfl := List.inj_on_of_nodup_map (classes_keys_nodup g.lanePc _) hc hd' (hcp.trans (hpc.trans hdp.symm))
  obtain ⟨n, hn⟩ := hin c hc
  have h1 : g.mergeAll.thread? l = _ := hn l hlc
  have h2 : g.mergeAll.thread? k = _ := hn k hkd
  rw [hl] at h1
  rw [hk] at h2
  obtain ⟨_, -, rfl⟩ := Option.map_eq_some_iff.mp h1.symm
  obtain ⟨_, -, rfl⟩ := Option.map_eq_some_iff.mp h2.symm
  rfl

theorem mergeAll_stand (g : Group) : g.mergeAll.stand = g.stand :=
  foldl_keeps Group.stand _ (f := fun g (c : DWord × List Nat) => g.mergeLanes c.2) (fun g c _ =>
      mergeLanes_stand g c.2) g

/-! ## The marks of the active set (R103) -/

/-- A thread that can issue is RUNNING in a bundle of the active set, else READY. -/
def Thread.mark (running : Bool) (t : Thread) : Thread :=
  if !t.st.issuable then t else if running then { t with st := .running, readyAt := none } else { t with st := .ready }

theorem mark_keeps (running : Bool) (t : Thread) : (t.mark running).st.issuable = t.st.issuable ∧
    (t.mark running).pc = t.pc ∧
    (t.mark running).frag = t.frag := by
  unfold Thread.mark
  cases h : t.st.issuable
  · exact ⟨h, rfl, rfl⟩
  · cases running
    · exact ⟨rfl, rfl, rfl⟩
    · exact ⟨rfl, rfl, rfl⟩

theorem mark_thread? (gid : Nat) (active : List (Nat × Nat)) (g : Group) (l : Nat) :
    (g.mark gid active).thread? l = (g.thread? l).map fun t => t.mark (active.contains (gid, t.frag)) :=
  List.getElem?_map

/-- The lanes of a group that can issue, and their fragments. -/
theorem mark_frags (gid : Nat) (active : List (Nat × Nat)) (g : Group) :
    ((g.mark gid active).lanesWhere fun t => t.st.issuable) = (g.lanesWhere fun t => t.st.issuable) ∧
      ∀ l, (((g.mark gid active).thread? l).map (·.frag)).getD 0 = ((g.thread? l).map (·.frag)).getD 0 := by
  refine ⟨?_, fun l => ?_⟩
  · unfold Group.lanesWhere
    have hlen : (g.mark gid active).threads.length = g.threads.length := List.length_map ..
    rw [hlen]
    refine List.filter_congr fun l _ => ?_
    have := mark_thread? gid active g l
    unfold Group.thread? at this
    rw [this]
    cases g.threads[l]? with
    | none => rfl
    | some t => exact (mark_keeps _ t).1
  · rw [mark_thread?]
    cases g.thread? l with
    | none => rfl
    | some t => exact (mark_keeps _ t).2.2

end Sys2Proof.Machine
end

-- ==== Proofs: a core's bundles (O45) ====
section
namespace Sys2Proof.Machine

/-! ## A core's bundles (R94, R95) -/

/-- A fragment is in a bundle of a core. -/
def Core.covers (k : Core) (x : Nat × Nat) : Prop := ∃ b ∈ k.active ++ k.pending, x ∈ b.frags

theorem covers_iff {k : Core} {x : Nat × Nat} :
    k.covers x ↔ (∃ b ∈ k.active, x ∈ b.frags) ∨ ∃ b ∈ k.pending, x ∈ b.frags := by
  simp [Core.covers, or_and_right, exists_or]

section Moves
variable {k : Core} {ok : Bundle → Bool} {x : Nat × Nat}

theorem exchange_covers (h : k.covers x) : (k.exchange ok).covers x := by
  unfold Core.exchange
  split
  · next p b hp hb =>
    have hbm := List.mem_of_find?_eq_some hb
    obtain ⟨y, hy, hx⟩ | ⟨y, hy, hx⟩ := covers_iff.mp h
    · by_cases hyb : y = b
      · exact covers_iff.mpr (.inr ⟨b, by simp, hyb ▸ hx⟩)
      · exact covers_iff.mpr (.inl ⟨y, List.mem_append_left _ (List.mem_filter.mpr ⟨hy, by simpa using hyb⟩), hx⟩)
    · by_cases hyp : y = p
      · exact covers_iff.mpr (.inl ⟨{ p with stalled := false, waits := [] }, by simp, hyp ▸ hx⟩)
      · exact covers_iff.mpr (.inr ⟨y, List.mem_append_left _ (List.mem_filter.mpr ⟨hy, by simpa using hyp⟩), hx⟩)
  · exact h

theorem promote_covers (h : k.covers x) : (k.promote ok).covers x := by
  unfold Core.promote
  obtain ⟨y, hy, hx⟩ | ⟨y, hy, hx⟩ := covers_iff.mp h
  · exact covers_iff.mpr (.inl ⟨y, List.mem_append_left _ hy, hx⟩)
  · by_cases hn : y ∈ (k.pending.filter ok).take (8 - k.active.length)
    · exact covers_iff.mpr (.inl ⟨{ y with stalled := false, waits := [] },
        List.mem_append_right _ (List.mem_map_of_mem (f := fun b : Bundle =>
            { b with stalled := false, waits := [] }) hn), hx⟩)
    · exact covers_iff.mpr (.inr ⟨y, List.mem_filter.mpr ⟨hy, by simpa using hn⟩, hx⟩)

/-- An exchange is one for one. -/
theorem exchange_length : (k.exchange ok).active.length ≤ k.active.length := by
  unfold Core.exchange
  split
  · next p b hp hb =>
    have hbm := List.mem_of_find?_eq_some hb
    have hlt : (k.active.filter fun x => x != b).length < k.active.length :=
      List.length_filter_lt_length_iff_exists.mpr ⟨b, hbm, by simp⟩
    rw [List.length_append, List.length_singleton]
    exact hlt
  · exact le_rfl

theorem promote_length : (k.promote ok).active.length ≤ max 8 k.active.length := by
  simp only [Core.promote, List.length_append, List.length_map, List.length_take]
  omega

end Moves

/-! ## Packing (R94) -/

section Pack
variable {s : State} {c : Nat} {bs : List Bundle} {x : Nat × Nat}

theorem pack_holds : ∃ b ∈ s.pack c bs x, x ∈ b.frags := by
  unfold State.pack
  split
  · next i hi =>
    obtain ⟨hlt, -⟩ := List.findIdx?_eq_some_iff_getElem.mp hi
    refine ⟨{ bs[i] with frags := insertBy s.fragBefore x bs[i].frags }, List.mem_of_getElem? (i := i) ?_,
      (insertBy_perm ..).mem_iff.mpr List.mem_cons_self⟩
    rw [listUpdate_get, if_pos rfl, List.getElem?_eq_getElem hlt]
    rfl
  · exact ⟨{ frags := [x] }, by simp, by simp⟩

theorem pack_keeps {y : Nat × Nat} (h : ∃ b ∈ bs, y ∈ b.frags) : ∃ b ∈ s.pack c bs x, y ∈ b.frags := by
  obtain ⟨b, hb, hy⟩ := h
  unfold State.pack
  split
  · obtain hm | hm := mem_listUpdate hb
    · exact ⟨b, hm, hy⟩
    · exact ⟨_, hm, (insertBy_perm ..).mem_iff.mpr (List.mem_cons_of_mem _ hy)⟩
  · exact ⟨b, List.mem_append_left _ hb, hy⟩

theorem pack_length : (s.pack c bs x).length ≤ bs.length + 1 := by
  unfold State.pack
  split
  · rw [listUpdate_length]
    omega
  · simp

/-- Fragments that are packed are each in a bundle, and there are no more bundles than fragments. -/
theorem foldl_pack (xs : List (Nat × Nat)) (bs : List Bundle) :
    (∀ x, x ∈ xs ∨ (∃ b ∈ bs, x ∈ b.frags) → ∃ b ∈ xs.foldl (s.pack c) bs, x ∈ b.frags) ∧
      (xs.foldl (s.pack c) bs).length ≤ bs.length + xs.length := by
  induction xs generalizing bs with
  | nil => exact ⟨fun x h => h.resolve_left List.not_mem_nil, le_rfl⟩
  | cons y ys ih =>
    obtain ⟨hin, hlen⟩ := ih (s.pack c bs y)
    refine ⟨fun x hx => hin x ?_, ?_⟩
    · obtain hx | hx := hx
      · obtain rfl | hx := List.mem_cons.mp hx
        · exact .inr pack_holds
        · exact .inl hx
      · exact .inr (pack_keeps hx)
    · have := pack_length (s := s) (c := c) (bs := bs) (x := y)
      simp only [List.foldl_cons, List.length_cons]
      omega

end Pack

/-! ## One pass of the front end (R94, R95, R103) -/

/-- A wake-up changes groups alone. -/
theorem wakeCore_frame (s : State) (c : Nat) : (s.wakeCore c).mem = s.mem ∧ (s.wakeCore c).cores = s.cores := by
  have h := foldl_keeps (fun s : State => (s.mem, s.cores)) (s.groups.filter fun x => x.2.core == c)
    (f := fun s x => s.wakeGroup x.1) (fun s x _ => by
      unfold State.wakeGroup
      split
      · rfl
      · dsimp only
        split <;> rfl) s
  exact Prod.mk.inj h

/-- The state whose fragments a pass bundles: woken, and merged at each PC. -/
def State.merged (s : State) (c : Nat) : State :=
  { s.wakeCore c with groups := (s.wakeCore c).groups.map fun x =>
      if x.2.core == c && x.2.residence == .resident then (x.1, x.2.mergeAll) else x }

/-- A bundle keeps the fragments that stand. -/
def Bundle.cutTo (live : List (Nat × Nat)) (b : Bundle) : Bundle := { b with frags := b.frags.filter live.contains }

def Core.cutTo (live : List (Nat × Nat)) (k : Core) : Core :=
  { k with
    active := (k.active.map (Bundle.cutTo live)).filter fun b => !b.frags.isEmpty
    pending := (k.pending.map (Bundle.cutTo live)).filter fun b => !b.frags.isEmpty }

/-- The bundles whose fragments still stand. -/
def State.trimmed (s : State) (c : Nat) : State := (s.merged c).setCore c (Core.cutTo ((s.merged c).fragments c))

/-- The fragments that no bundle holds. -/
def State.loose (s : State) (c : Nat) : List (Nat × Nat) :=
  ((s.merged c).fragments c).filter fun x =>
    !((((s.trimmed c).core c).active ++ ((s.trimmed c).core c).pending).any (·.holds x))

/-- The bundles that they make. -/
def State.packed (s : State) (c : Nat) : List Bundle :=
  (sortBy (fun x y => (s.trimmed c).readyTime x < (s.trimmed c).readyTime y) (s.loose c)).foldl
      ((s.trimmed c).pack c) []

/-- A core with new bundles at the end of its pending set. -/
def Core.queue (new : List Bundle) (k : Core) : Core :=
    { k with pending := k.pending ++ new.take (64 - k.pending.length) }

theorem formBundles_eq (s : State) (c : Nat) : s.formBundles c =
    ((s.trimmed c).setCore c fun k => (((k.queue (s.packed c)).exchange (s.trimmed c).eligible).promote
        (s.trimmed c).eligible)).markCore c := rfl

section Pass
variable {s : State} {c : Nat}

theorem merged_core (k : Nat) : (s.merged c).core k = s.core k :=
  congrArg (fun m : SMap Core => mapGet ({} : Core) m k) (wakeCore_frame s c).2

theorem trimmed_core : (s.trimmed c).core c = (s.core c).cutTo ((s.merged c).fragments c) := by
  rw [State.trimmed, core_setCore, if_pos rfl, merged_core]

/-- The core's bundles after the pass. -/
theorem formBundles_core : (s.formBundles c).core c =
    ((((s.trimmed c).core c).queue (s.packed c)).exchange (s.trimmed c).eligible).promote (s.trimmed c).eligible := by
  rw [formBundles_eq]
  exact (core_setCore (s.trimmed c) c c fun k =>
    ((k.queue (s.packed c)).exchange (s.trimmed c).eligible).promote (s.trimmed c).eligible).trans (if_pos rfl)

theorem formBundles_active : ((s.formBundles c).core c).active.length ≤ max 8 (s.core c).active.length := by
  rw [formBundles_core]
  have hcut : ((s.trimmed c).core c).active.length ≤ (s.core c).active.length := by
    rw [trimmed_core]
    exact (List.length_filter_le ..).trans (List.length_map ..).le
  have hex := exchange_length (k := ((s.trimmed c).core c).queue (s.packed c)) (ok := (s.trimmed c).eligible)
  exact promote_length.trans (max_le_max_left 8 (hex.trans hcut))

theorem packed_length : (s.packed c).length ≤ ((s.merged c).fragments c).length := by
  have hpack := (foldl_pack (s := s.trimmed c) (c := c)
    (sortBy (fun x y => (s.trimmed c).readyTime x < (s.trimmed c).readyTime y) (s.loose c)) []).2
  rw [(sortBy_perm ..).length_eq, List.length_nil, Nat.zero_add] at hpack
  exact hpack.trans (List.length_filter_le ..)

/-- Every fragment that stands is in a bundle, if the pending set was empty and there is room for all. -/
theorem formBundles_covers (hp : (s.core c).pending = []) (hn : ((s.merged c).fragments c).length ≤ 64) {x : Nat × Nat}
    (hx : x ∈ (s.merged c).fragments c) : ((s.formBundles c).core c).covers x := by
  rw [formBundles_core]
  refine promote_covers (exchange_covers ?_)
  have hpend : ((s.trimmed c).core c).pending = [] := by rw [trimmed_core, Core.cutTo, hp]; rfl
  by_cases hheld : (((s.trimmed c).core c).active ++ ((s.trimmed c).core c).pending).any (·.holds x) = true
  · obtain ⟨b, hb, hxb⟩ := List.any_eq_true.mp hheld
    rw [hpend, List.append_nil] at hb
    exact covers_iff.mpr (.inl ⟨b, hb, by simpa [Bundle.holds] using hxb⟩)
  · have hloose : x ∈ s.loose c := List.mem_filter.mpr ⟨hx, by simpa using hheld⟩
    obtain ⟨b, hb, hxb⟩ := (foldl_pack (s := s.trimmed c) (c := c) _ []).1 x (.inl (mem_sortBy.mpr hloose))
    refine covers_iff.mpr (.inr ⟨b, ?_, hxb⟩)
    have hall : (s.packed c).take 64 = s.packed c := List.take_of_length_le (packed_length.trans hn)
    rw [Core.queue, hpend]
    exact hall.symm ▸ hb

end Pass

/-- The fragments of a group that can issue. -/
def fragsOf (x : Nat × Group) : List (Nat × Nat) :=
  (classes (fun l => ((x.2.thread? l).map (·.frag)).getD 0) (x.2.lanesWhere fun t => t.st.issuable)).map fun y =>
      (x.1, y.1)

theorem fragments_eq (s : State) (c : Nat) : s.fragments c = (s.residents c).flatMap fragsOf := rfl

theorem fragsOf_mark (x : Nat × Group) (active : List (Nat × Nat)) :
    fragsOf (x.1, x.2.mark x.1 active) = fragsOf x := by
  obtain ⟨hl, hf⟩ := mark_frags x.1 active x.2
  simp only [fragsOf, hl, hf]

/-- The marks of the active set change no fragment. -/
theorem fragments_markCore (s : State) (c k : Nat) : (s.markCore k).fragments c = s.fragments c := by
  have hres : (s.markCore k).residents c = (s.residents c).map fun x =>
      if x.2.core == k then (x.1, x.2.mark x.1 ((s.core k).active.flatMap (·.frags))) else x := by
    unfold State.residents State.markCore
    rw [List.filter_map]
    refine congrArg (List.map _) (List.filter_congr fun x _ => ?_)
    dsimp only [Function.comp]
    split <;> rfl
  rw [fragments_eq, fragments_eq, hres, List.flatMap_map]
  refine List.flatMap_congr fun x _ => ?_
  split
  · exact fragsOf_mark ..
  · rfl

theorem formBundles_fragments (s : State) (c : Nat) : (s.formBundles c).fragments c = (s.merged c).fragments c := by
  rw [formBundles_eq, fragments_markCore]
  rfl

theorem mem_markCore {s : State} {c gid : Nat} {g : Group} (h : (gid, g) ∈ (s.markCore c).groups) (hc : g.core = c) :
    ∃ active g0, (gid, g0) ∈ s.groups ∧ g = g0.mark gid active := by
  obtain ⟨⟨k, g0⟩, hm, he⟩ := List.mem_map.mp h
  dsimp only at he
  split at he <;> cases he
  · exact ⟨_, g0, hm, rfl⟩
  · next hne => exact absurd (beq_iff_eq.mpr hc) hne

theorem mem_merged {s : State} {c gid : Nat} {g : Group} (h : (gid, g) ∈ (s.merged c).groups) (hc : g.core = c)
    (hr : g.residence = .resident) : ∃ g0 : Group, g = g0.mergeAll := by
  obtain ⟨⟨k, g0⟩, hm, he⟩ := List.mem_map.mp h
  dsimp only at he
  split at he <;> cases he
  · exact ⟨g0, rfl⟩
  · next hne => exact absurd (by simp [hc, hr]) hne

/-- After the pass the threads of a resident group that can issue at one PC are in one fragment. -/
theorem formBundles_one {s : State} {c gid : Nat} {g : Group} (hg : (gid, g) ∈ (s.formBundles c).groups)
    (hc : g.core = c)
    (hr : g.residence = .resident) {l k : Nat} {t t' : Thread} (hl : g.thread? l = some t) (hk : g.thread? k = some t')
    (hi : t.st.issuable = true) (hi' : t'.st.issuable = true) (hpc : t.pc = t'.pc) : t.frag = t'.frag := by
  obtain ⟨active, g0, hg0, rfl⟩ := mem_markCore (formBundles_eq s c ▸ hg) hc
  obtain ⟨g1, rfl⟩ := mem_merged hg0 hc hr
  rw [mark_thread?] at hl hk
  obtain ⟨t0, hl0, rfl⟩ := Option.map_eq_some_iff.mp hl
  obtain ⟨t1, hk0, rfl⟩ := Option.map_eq_some_iff.mp hk
  obtain ⟨hi0, hp0, hf0⟩ := mark_keeps (active.contains (gid, t0.frag)) t0
  obtain ⟨hi1, hp1, hf1⟩ := mark_keeps (active.contains (gid, t1.frag)) t1
  rw [hf0, hf1]
  exact mergeAll_one hl0 hk0 (hi0.symm.trans hi) (hi1.symm.trans hi') (hp0.symm.trans (hpc.trans hp1))

end Sys2Proof.Machine
end

-- ==== Proofs: draws from bins and callee queues (O45) ====
section
namespace Sys2Proof.Machine

/-! ## Draws from bins and callee queues (R96, R120) -/

/-- Groups that are each updated once, by a rule of their own. -/
theorem foldl_setGroup_group? (f : Nat → Group → Group) (gids : List Nat) (hn : gids.Nodup) (s : State) (k : Nat) :
    (gids.foldl (fun s gid => s.setGroup gid (f gid)) s).group? k = if k ∈ gids then (s.group? k).map
        (f k) else s.group? k := by
  induction gids generalizing s with
  | nil => rfl
  | cons gid gids ih =>
    obtain ⟨hnot, hrest⟩ := List.nodup_cons.mp hn
    rw [List.foldl_cons, ih hrest, group?_setGroup]
    by_cases hk : k = gid
    · subst hk
      simp [hnot]
    · simp [hk]

theorem foldl_setGroup_frame (f : Nat → Group → Group) (gids : List Nat) (s : State) :
    (gids.foldl (fun s gid => s.setGroup gid (f gid)) s).mem = s.mem ∧
        (gids.foldl (fun s gid => s.setGroup gid (f gid)) s).cores = s.cores :=
  Prod.mk.inj (foldl_keeps (fun s : State => (s.mem, s.cores)) gids (f := fun s gid => s.setGroup gid (f gid))
      (fun _ _ _ => rfl) s)

/-- A drawn thread is READY; one that is evicted will be. -/
def Thread.draw (t : Thread) : Thread :=
  { t with st := match t.st with
    | .binned => .ready
    | st => st.woken }

theorem draw_st (t : Thread) : t.draw.st = if t.st = .binned then .ready else t.st.woken := by
  cases h : t.st <;> simp [Thread.draw, h]

/-- The lanes of a group among drawn threads. -/
def Group.drawnLanes (xs : List (Nat × Nat)) (gid : Nat) (g : Group) : List Nat :=
  (List.range g.threads.length).filter fun l => xs.contains (gid, l)

theorem mem_drawnLanes {xs : List (Nat × Nat)} {gid : Nat} {g : Group} {l : Nat} :
    l ∈ g.drawnLanes xs gid ↔ l < g.threads.length ∧ (gid, l) ∈ xs := by
  simp [Group.drawnLanes]

/-- A group of which threads are drawn: they are READY in one fragment. -/
def Group.draw (xs : List (Nat × Nat)) (gid : Nat) (g : Group) : Group :=
  ((g.drawnLanes xs gid).foldl (fun g l => g.setThread l Thread.draw) g).mergeLanes (g.drawnLanes xs gid)

theorem draw_thread? (xs : List (Nat × Nat)) (gid : Nat) (g : Group) : ∃ n, ∀ l, (g.draw xs gid).thread? l =
    if (gid, l) ∈ xs then (g.thread? l).map fun t => { t.draw with frag := n } else g.thread? l := by
  obtain ⟨n, hn⟩ := mergeLanes_thread? ((g.drawnLanes xs gid).foldl (fun g l => g.setThread l Thread.draw) g)
      (g.drawnLanes xs gid)
  have hnodup : (g.drawnLanes xs gid).Nodup := List.nodup_range.filter _
  have hready := lanesAfter_foldl _ hnodup (fun _ => Thread.draw) g
  refine ⟨n, fun l => (hn l).trans ?_⟩
  rw [hready l]
  by_cases hl : l < g.threads.length
  · by_cases hx : (gid, l) ∈ xs
    · have hm := mem_drawnLanes.mpr ⟨hl, hx⟩
      rw [if_pos hm, if_pos hm, if_pos hx, Option.map_map]
      rfl
    · have hm : l ∉ g.drawnLanes xs gid := fun h => hx (mem_drawnLanes.mp h).2
      rw [if_neg hm, if_neg hm, if_neg hx]
  · have hnone : g.thread? l = none := List.getElem?_eq_none (Nat.not_lt.mp hl)
    rw [hnone]
    simp

/-- The groups of drawn threads, each once. -/
def drawnGids (xs : List (Nat × Nat)) : List Nat := (classes (fun gid => gid) (xs.map (·.1))).map (·.1)

theorem mem_drawnGids {xs : List (Nat × Nat)} {gid : Nat} : gid ∈ drawnGids xs ↔ ∃ l, (gid, l) ∈ xs := by
  rw [drawnGids, (classes_self _).2]
  simp

/-- The state with the threads drawn, not yet bundled. -/
def State.drawGroups (s : State) (xs : List (Nat × Nat)) : State :=
  (drawnGids xs).foldl (fun s gid => s.setGroup gid (Group.draw xs gid)) s

/-- The fragments of the bundle that drawn threads make, one of each group. -/
def State.drawnFrags (s : State) (xs : List (Nat × Nat)) : List (Nat × Nat) :=
  (drawnGids xs).filterMap fun gid =>
    match s.group? gid, xs.find? (·.1 == gid) with
    | some g, some x => (g.thread? x.2).map fun t => (gid, t.frag)
    | _, _ => none

theorem drawBundle_eq (s : State) (c : Nat) (xs : List (Nat × Nat)) : s.drawBundle c xs =
    (s.drawGroups xs).setCore c fun k => if k.pending.length < 64 then
      { k with pending := k.pending ++ [{ frags := sortBy (s.drawGroups xs).fragBefore ((s.drawGroups xs).drawnFrags xs) }] } else k := rfl

section Draw
variable {s : State} {core : Nat} {xs : List (Nat × Nat)}

theorem drawGroups_thread? (gid : Nat) : ∃ n, ∀ l, (s.drawGroups xs).thread? gid l =
    if (gid, l) ∈ xs then (s.thread? gid l).map fun t => { t.draw with frag := n } else s.thread? gid l := by
  have hg := foldl_setGroup_group? (Group.draw xs) (drawnGids xs) (classes_self _).1 s gid
  cases hs : s.group? gid with
  | none =>
    refine ⟨0, fun l => ?_⟩
    have hnone : (s.drawGroups xs).group? gid = none := by rw [State.drawGroups, hg, hs]; simp
    simp [State.thread?, hs, hnone]
  | some g =>
    obtain ⟨n, hn⟩ := draw_thread? xs gid g
    refine ⟨n, fun l => ?_⟩
    simp only [State.thread?, hs, Option.bind_some]
    by_cases hm : gid ∈ drawnGids xs
    · have hsome : (s.drawGroups xs).group? gid = some (g.draw xs gid) :=
          by rw [State.drawGroups, hg, if_pos hm, hs]; rfl
      rw [hsome]
      exact hn l
    · have hsome : (s.drawGroups xs).group? gid = some g := by rw [State.drawGroups, hg, if_neg hm, hs]
      rw [hsome, if_neg fun hx => hm (mem_drawnGids.mpr ⟨l, hx⟩)]
      rfl

/-- The drawn threads of a group are in its fragment of the bundle. -/
theorem mem_drawnFrags (hex : ∀ x ∈ xs, s.thread? x.1 x.2 ≠ none) {gid l : Nat} {th : Thread} (hx : (gid, l) ∈ xs)
    (ht : (s.drawGroups xs).thread? gid l = some th) : (gid, th.frag) ∈ (s.drawGroups xs).drawnFrags xs := by
  obtain ⟨n, hn⟩ := drawGroups_thread? (s := s) (xs := xs) gid
  have hfrag : ∀ {l t}, (gid, l) ∈ xs → (s.drawGroups xs).thread? gid l = some t → t.frag = n := fun hx ht => by
    rw [hn, if_pos hx] at ht
    obtain ⟨t0, -, rfl⟩ := Option.map_eq_some_iff.mp ht
    rfl
  obtain ⟨y, hy⟩ : ∃ y, xs.find? (·.1 == gid) = some y := by
    refine Option.isSome_iff_exists.mp (List.find?_isSome.mpr ⟨(gid, l), hx, by simp⟩)
  have hym : y ∈ xs := List.mem_of_find?_eq_some hy
  have hyg : y.1 = gid := by simpa using List.find?_some hy
  subst hyg
  obtain ⟨g, hg⟩ : ∃ g, (s.drawGroups xs).group? y.1 = some g := by
    cases hg : (s.drawGroups xs).group? y.1 with
    | none => rw [State.thread?, hg] at ht; cases ht
    | some g => exact ⟨g, rfl⟩
  obtain ⟨t, hyt⟩ : ∃ t, (s.drawGroups xs).thread? y.1 y.2 = some t := by
    obtain ⟨t, ht0⟩ := Option.ne_none_iff_exists'.mp (hex y hym)
    exact ⟨_, by rw [hn, if_pos hym, ht0]; rfl⟩
  refine List.mem_filterMap.mpr ⟨y.1, mem_drawnGids.mpr ⟨l, hx⟩, ?_⟩
  have hgt : g.thread? y.2 = some t := by rw [State.thread?, hg] at hyt; exact hyt
  simp only [hg, hy, hgt, Option.map_some, hfrag hym hyt, hfrag hx ht]

theorem drawBundle_core : (s.drawBundle core xs).core core = if (s.core core).pending.length < 64 then
    { s.core core with pending := (s.core core).pending ++
      [{ frags := sortBy (s.drawGroups xs).fragBefore ((s.drawGroups xs).drawnFrags xs) }] } else s.core core := by
  have hc : (s.drawGroups xs).core core = s.core core :=
    congrArg (fun m : SMap Core => mapGet ({} : Core) m core) (foldl_setGroup_frame _ _ s).2
  rw [drawBundle_eq, core_setCore, if_pos rfl, hc]

/-- The threads of a draw are READY in one bundle. -/
theorem drawBundle_drawn (hex : ∀ x ∈ xs, s.thread? x.1 x.2 ≠ none) : Drawn s (s.drawBundle core xs) core xs := by
  have hthread : ∀ g l, (s.drawBundle core xs).thread? g l = (s.drawGroups xs).thread? g l := fun _ _ => rfl
  refine ⟨(foldl_setGroup_frame _ _ s).1, fun g l th hx ht => ?_, fun g l hx => ?_, fun hlen => ?_⟩
  · obtain ⟨n, hn⟩ := drawGroups_thread? (s := s) (xs := xs) g
    refine ⟨n, ?_⟩
    rw [hthread, hn, if_pos hx, ht, ← draw_st]
    rfl
  · obtain ⟨n, hn⟩ := drawGroups_thread? (s := s) (xs := xs) g
    rw [hthread, hn, if_neg hx]
  · refine ⟨_, by rw [drawBundle_core, if_pos hlen], fun g l th hx ht => ?_⟩
    exact mem_sortBy.mpr (mem_drawnFrags hex hx ht)

theorem drawBundle_files : ((s.drawBundle core xs).core core).bins = (s.core core).bins ∧
    ((s.drawBundle core xs).core core).callees = (s.core core).callees := by
  rw [drawBundle_core]
  split <;> exact ⟨rfl, rfl⟩

/-- The threads of a draw so far, and the next entry: its thread, unless its lane has one. -/
def State.drawNext (s : State) (c : Nat) (acc : List (Nat × Nat)) (y : Entry) : List (Nat × Nat) :=
  if acc.any fun z => s.homeLane c z == s.homeLane c y.who then acc else acc ++ [y.who]

theorem foldl_drawNext (ys : List Entry) {acc : List (Nat × Nat)} {x : Nat × Nat}
    (h : x ∈ ys.foldl (s.drawNext core) acc) :
    x ∈ acc ∨ ∃ y ∈ ys, y.who = x := by
  induction ys generalizing acc with
  | nil => exact .inl h
  | cons y ys ih =>
    obtain h | ⟨z, hz, hw⟩ := ih h
    · unfold State.drawNext at h
      split at h
      · exact .inl h
      · exact (List.mem_append.mp h).imp_right fun h => ⟨y, List.mem_cons_self, (List.mem_singleton.mp h).symm⟩
    · exact .inr ⟨z, List.mem_cons_of_mem _ hz, hw⟩

/-- A draw takes entries of its list. -/
theorem mem_drawn {ys : List Entry} {x : Nat × Nat} (h : x ∈ s.drawn core ys) : ∃ y ∈ ys, y.who = x := by
  have hfold : ∃ zs : List Entry, (∀ z ∈ zs, z ∈ ys) ∧ s.drawn core ys = zs.foldl (s.drawNext core) [] := by
    refine ⟨_, ?_, rfl⟩
    intro z hz
    have hsort : ∀ z ∈ sortBy (fun x y : Entry => decide (x.since < y.since)) ys, z ∈ ys := fun z hz => mem_sortBy.mp hz
    split at hz
    · cases hz
    · split at hz
      · exact hsort z (List.mem_filter.mp hz).1
      · exact hsort z hz
  obtain ⟨zs, hz, he⟩ := hfold
  rw [he] at h
  obtain h | ⟨y, hy, hw⟩ := foldl_drawNext zs h
  · cases h
  · exact ⟨y, hz y hy, hw⟩

end Draw

end Sys2Proof.Machine
end

-- ==== Proofs: hoists and drains (O45) ====
section
namespace Sys2Proof.Machine

/-! ## Whose turn it is (R96, R120) -/

theorem goesNext_iff {s : State} {core : Nat} {aged : Bool} {all : List (List Entry)} {xs : List Entry} :
    s.goesNext core aged all xs = true ↔ InTurn s core aged all xs := by
  have hothers : ∀ q : List Entry → Prop, (∀ y ∈ all.filter (fun y => !y.isEmpty), q y) ↔ ∀ y ∈ all, y ≠ [] →
      q y := fun q => by
    simp
  unfold State.goesNext InTurn
  cases aged
  · simp only [Bool.and_eq_true, Bool.false_eq_true, if_false, decide_eq_true_eq, List.all_eq_true, hothers,
        Bool.or_eq_true]
    simp
  · simp only [Bool.and_eq_true, if_true, decide_eq_true_eq, List.all_eq_true, hothers]
    simp

/-! ## Hoists and drains -/

/-- A draw of threads whose entries are taken out of a core's files. -/
theorem drawBundle_filed {s : State} {core : Nat} {f : Core → Core} (hf : ∀ k, (f k).pending = k.pending)
    {xs : List (Nat × Nat)}
    (hex : ∀ x ∈ xs, s.thread? x.1 x.2 ≠ none) : Drawn s ((s.setCore core f).drawBundle core xs) core xs := by
  obtain ⟨hm, hin, hout, hpend⟩ := drawBundle_drawn (s := s.setCore core f) (core := core) hex
  rw [core_setCore, if_pos rfl, hf] at hpend
  exact ⟨hm, hin, hout, hpend⟩

/-- A bin without the entries of drawn threads. -/
def Bin.leaving (xs : List (Nat × Nat)) (b : Bin) : Bin :=
    { b with entries := b.entries.filter fun x => !xs.contains x.who }

def Callee.leaving (xs : List (Nat × Nat)) (q : Callee) : Callee :=
    { q with entries := q.entries.filter fun x => !xs.contains x.who }

/-- A core one of whose bins is replaced, if entries are left. -/
def Core.putBin (bin : Nat) (b : Bin) (k : Core) : Core :=
  { k with bins := (listUpdate bin (fun _ => b) k.bins).filter fun b => !b.entries.isEmpty }

def Core.putCallee (queue : Nat) (q : Callee) (k : Core) : Core :=
  { k with callees := (listUpdate queue (fun _ => q) k.callees).filter fun q => !q.entries.isEmpty }

theorem putBin_pending (bin : Nat) (b : Bin) (k : Core) : (Core.putBin bin b k).pending = k.pending := rfl

theorem putCallee_pending (queue : Nat) (q : Callee) (k : Core) : (Core.putCallee queue q k).pending = k.pending := rfl

section Hoist
variable {s : State} {core : Nat}

theorem binHoist_draws {bin : Nat} {aged : Bool} {b : Bin} (hb : (s.core core).bins[bin]? = some b)
    (h : (b.sort = true ∧ s.hoistable b ≠ []) ∨ InTurn s core aged ((s.core core).bins.map s.hoistable)
        (s.hoistable b)) :
    exec (.binHoist core bin aged) s = .next
        ((s.setCore core (Core.putBin bin (b.leaving (s.drawn core (s.hoistable b))))).drawBundle core
      (s.drawn core (s.hoistable b))) := by
  have hgo : ((b.sort && !(s.hoistable b).isEmpty) || s.goesNext core aged ((s.core core).bins.map s.hoistable)
      (s.hoistable b)) = true := by
    rw [← goesNext_iff] at h
    simpa using h
  change execBinHoist core bin aged s = _
  simp only [execBinHoist, hb, hgo, Bool.not_true, Bool.false_eq_true, if_false]
  rfl

theorem binHoist_waits {bin : Nat} {aged : Bool} {b : Bin} (hb : (s.core core).bins[bin]? = some b)
    (hs : b.sort = false)
    (h : ¬ InTurn s core aged ((s.core core).bins.map s.hoistable) (s.hoistable b)) :
    exec (.binHoist core bin aged) s = .next s := by
  have hgo : s.goesNext core aged ((s.core core).bins.map s.hoistable) (s.hoistable b) = false := by
    rw [← goesNext_iff] at h
    simpa using h
  change execBinHoist core bin aged s = _
  simp only [execBinHoist, hb, hs, hgo, Bool.false_and, Bool.or_self, Bool.not_false, if_true]

theorem calleeQueueDrain_draws {queue : Nat} {aged : Bool} {q : Callee} (hq : (s.core core).callees[queue]? = some q)
    (h : InTurn s core aged ((s.core core).callees.map fun q => s.drawable q.entries) (s.drawable q.entries)) :
    exec (.calleeQueueDrain core queue aged) s = .next ((s.setCore core (Core.putCallee queue
      (q.leaving (s.drawn core (s.drawable q.entries))))).drawBundle core (s.drawn core (s.drawable q.entries))) := by
  have hgo := goesNext_iff.mpr h
  change execCalleeQueueDrain core queue aged s = _
  simp only [execCalleeQueueDrain, hq, hgo, if_true]
  rfl

theorem calleeQueueDrain_waits {queue : Nat} {aged : Bool} {q : Callee} (hq : (s.core core).callees[queue]? = some q)
    (h : ¬ InTurn s core aged ((s.core core).callees.map fun q => s.drawable q.entries) (s.drawable q.entries)) :
    exec (.calleeQueueDrain core queue aged) s = .next s := by
  have hgo : s.goesNext core aged ((s.core core).callees.map fun q => s.drawable q.entries)
      (s.drawable q.entries) = false := by
    rw [← goesNext_iff] at h
    simpa using h
  change execCalleeQueueDrain core queue aged s = _
  simp only [execCalleeQueueDrain, hq, hgo, Bool.false_eq_true, if_false]

/-- The threads drawn from entries are those of the entries, so that they are there. -/
theorem drawn_there {xs : List Entry} (h : ∀ x ∈ xs, s.thread? x.who.1 x.who.2 ≠ none) :
    ∀ x ∈ s.drawn core xs, s.thread? x.1 x.2 ≠ none := fun x hx => by
  obtain ⟨y, hy, rfl⟩ := mem_drawn hx
  exact h y hy

/-- What a hoist leaves stays in its bin. -/
theorem putBin_keeps {bin : Nat} {b : Bin} (hb : (s.core core).bins[bin]? = some b) {xs : List (Nat × Nat)}
    {x : Entry} (hx : x ∈ b.entries)
    (hn : x.who ∉ xs) : ∃ c ∈ (((s.setCore core (Core.putBin bin (b.leaving xs))).drawBundle core xs).core core).bins,
      c.bid = b.bid ∧ c.pc = b.pc ∧ c.sort = b.sort ∧ x ∈ c.entries := by
  have hkept : x ∈ (b.leaving xs).entries := List.mem_filter.mpr ⟨hx, by simpa using hn⟩
  refine ⟨b.leaving xs, ?_, rfl, rfl, rfl, hkept⟩
  rw [drawBundle_files.1, core_setCore, if_pos rfl]
  exact List.mem_filter.mpr ⟨mem_listUpdate_const (by rw [hb]; simp), by simpa using List.ne_nil_of_mem hkept⟩

theorem putCallee_keeps {queue : Nat} {q : Callee} (hq : (s.core core).callees[queue]? = some q)
    {xs : List (Nat × Nat)} {x : Entry}
    (hx : x ∈ q.entries) (hn : x.who ∉ xs) :
    ∃ d ∈ (((s.setCore core (Core.putCallee queue (q.leaving xs))).drawBundle core xs).core core).callees,
      d.bid = q.bid ∧ d.target = q.target ∧ x ∈ d.entries := by
  have hkept : x ∈ (q.leaving xs).entries := List.mem_filter.mpr ⟨hx, by simpa using hn⟩
  refine ⟨q.leaving xs, ?_, rfl, rfl, hkept⟩
  rw [drawBundle_files.2, core_setCore, if_pos rfl]
  exact List.mem_filter.mpr ⟨mem_listUpdate_const (by rw [hq]; simp), by simpa using List.ne_nil_of_mem hkept⟩

end Hoist

end Sys2Proof.Machine
end

-- ==== Proofs: sorts and the front end's events (O45) ====
section
namespace Sys2Proof.Machine

/-! ## Sorts (R98) -/

theorem thread?_setThreadAt (s : State) (at_ to_ : Nat × Nat) (f : Thread → Thread) :
    (s.setThread to_.1 to_.2 f).thread? at_.1 at_.2 =
    if at_ = to_ then (s.thread? to_.1 to_.2).map f else s.thread? at_.1 at_.2 := by
  obtain ⟨g, l⟩ := at_
  obtain ⟨g', l'⟩ := to_
  simp only [State.thread?, State.setThread, group?_setGroup, Prod.mk.injEq]
  by_cases hg : g = g'
  · subst hg
    cases s.group? g with
    | none => simp
    | some x =>
      simp only [if_true, Option.map_some, Option.bind_some, thread?_setThread, true_and]
      split
      · next h => rw [h]
      · rfl
  · simp [hg]

/-- A thread that a sort moves: its entry, the slot that it comes to, and the thread there. -/
def State.moveThread (s : State) (m : Entry × (Nat × Nat) × Thread) : State :=
    s.setThread m.2.1.1 m.2.1.2 fun _ => m.2.2

def State.moveThreads (s : State) (moved : List (Entry × (Nat × Nat) × Thread)) : State :=
    moved.foldl State.moveThread s

section Move
variable (moved : List (Entry × (Nat × Nat) × Thread)) (s : State)

theorem moveThreads_frame : (s.moveThreads moved).mem = s.mem ∧ (s.moveThreads moved).cores = s.cores :=
  Prod.mk.inj (foldl_keeps (fun s : State => (s.mem, s.cores)) moved (f := State.moveThread) (fun _ _ _ => rfl) s)

theorem moveThreads_others {at_ : Nat × Nat} (h : at_ ∉ moved.map (·.2.1)) :
    (s.moveThreads moved).thread? at_.1 at_.2 = s.thread? at_.1 at_.2 :=
  foldl_keeps (fun s : State => s.thread? at_.1 at_.2) moved (f := State.moveThread)
    (fun s m hm => by
      rw [State.moveThread, thread?_setThreadAt, if_neg fun e => h (List.mem_map.mpr ⟨m, hm, e.symm⟩)]) s

/-- Each thread stands where it has been moved. -/
theorem moveThreads_moved (hn : (moved.map (·.2.1)).Nodup) {m : Entry × (Nat × Nat) × Thread} (hm : m ∈ moved)
    (ht : s.thread? m.2.1.1 m.2.1.2 ≠ none) : (s.moveThreads moved).thread? m.2.1.1 m.2.1.2 = some m.2.2 := by
  induction moved generalizing s with
  | nil => cases hm
  | cons y ys ih =>
    rw [List.map_cons, List.nodup_cons] at hn
    have hstep : (s.moveThread y).thread? m.2.1.1 m.2.1.2 = _ := thread?_setThreadAt s m.2.1 y.2.1 fun _ => y.2.2
    obtain rfl | hm := List.mem_cons.mp hm
    · refine (moveThreads_others ys _ hn.1).trans (hstep.trans ?_)
      obtain ⟨t, ht⟩ := Option.ne_none_iff_exists'.mp ht
      rw [if_pos rfl, ht]
      rfl
    · have hne : m.2.1 ≠ y.2.1 := fun e => hn.1
          (e ▸ List.mem_map_of_mem (f := fun m : Entry × (Nat × Nat) × Thread => m.2.1) hm)
      refine ih _ hn.2 hm ?_
      rw [hstep, if_neg hne]
      exact ht

end Move

theorem filterMap_map_sublist {α β γ : Type} {f : α → Option β} {g : β → γ} {h : α → γ}
    (hf : ∀ x y, f x = some y → g y = h x)
    (xs : List α) : ((xs.filterMap f).map g).Sublist (xs.map h) := by
  induction xs with
  | nil => exact .slnil
  | cons x xs ih =>
    cases hx : f x with
    | none => rw [List.filterMap_cons_none hx]; exact ih.cons _
    | some y =>
      rw [List.filterMap_cons_some hx, List.map_cons, List.map_cons, hf x y hx]
      exact ih.cons_cons _

/-- The slots of a sort, in their order. -/
def State.slots (s : State) (core : Nat) (xs : List Entry) : List Entry :=
  sortBy (fun x y => decide ((s.slotOf core x.who).1 < (s.slotOf core y.who).1) ||
    ((s.slotOf core x.who).1 == (s.slotOf core y.who).1 &&
      decide ((s.slotOf core x.who).2 < (s.slotOf core y.who).2))) xs

/-- The threads of a sort, in the order of their keys. -/
def State.byKey (s : State) (core : Nat) (xs : List Entry) : List Entry :=
  sortBy (fun x y => decide (x.key.toNat < y.key.toNat)) (s.slots core xs)

/-- The thread that comes to a slot. -/
def State.dealOne (s : State) (z : Entry × Entry) : Option (Entry × (Nat × Nat) × Thread) :=
  match s.thread? z.2.who.1 z.2.who.2, s.thread? z.1.who.1 z.1.who.2 with
  | some t, some at_ => some (z.2, z.1.who, t.sorted z.2.live at_)
  | _, _ => none

theorem sortMoves_eq (s : State) (core : Nat) (xs : List Entry) :
    s.sortMoves core xs = ((s.slots core xs).zip (s.byKey core xs)).filterMap s.dealOne := rfl

section Deal
variable {s : State} {core : Nat} {xs : List Entry}

theorem dealOne_place {z : Entry × Entry} {m : Entry × (Nat × Nat) × Thread} (h : s.dealOne z = some m) :
    m.2.1 = z.1.who := by
  unfold State.dealOne at h
  split at h <;> cases h
  rfl

theorem sortMoves_places : ((s.sortMoves core xs).map (·.2.1)).Sublist ((s.slots core xs).map (·.who)) := by
  have hz : ((s.slots core xs).zip (s.byKey core xs)).map Prod.fst = s.slots core xs :=
    List.map_fst_zip (sortBy_perm ..).length_eq.ge
  have h := filterMap_map_sublist (g := fun m : Entry × (Nat × Nat) × Thread => m.2.1)
      (h := fun z : Entry × Entry => z.1.who)
    (fun _ _ => dealOne_place (s := s)) ((s.slots core xs).zip (s.byKey core xs))
  rw [← sortMoves_eq] at h
  have hw : ((s.slots core xs).zip (s.byKey core xs)).map (fun z => z.1.who) = (s.slots core xs).map (·.who) :=
    (List.map_map ..).symm.trans (congrArg (List.map (·.who)) hz)
  rwa [hw] at h

theorem slots_perm : ((s.slots core xs).map (·.who)).Perm (xs.map (·.who)) := (sortBy_perm ..).map _

/-- Where each thread of a sort goes: to a slot of its own. -/
theorem sortMoves_nodup (hn : (xs.map (·.who)).Nodup) : ((s.sortMoves core xs).map (·.2.1)).Nodup :=
  (slots_perm.nodup_iff.mpr hn).sublist sortMoves_places

theorem mem_sortMoves_place {at_ : Nat × Nat} (h : at_ ∈ (s.sortMoves core xs).map (·.2.1)) : at_ ∈ xs.map (·.who) :=
  slots_perm.mem_iff.mp (sortMoves_places.subset h)

theorem mem_sortMoves {k : Nat} {slot x : Entry} {t here : Thread} (hs : (s.slots core xs)[k]? = some slot)
    (hx : (s.byKey core xs)[k]? = some x) (ht : s.thread? x.who.1 x.who.2 = some t)
        (hh : s.thread? slot.who.1 slot.who.2 = some here) :
    (x, slot.who, t.sorted x.live here) ∈ s.sortMoves core xs := by
  rw [sortMoves_eq]
  refine List.mem_filterMap.mpr ⟨(slot, x), List.mem_of_getElem? (i := k) (List.getElem?_zip_eq_some.mpr ⟨hs, hx⟩), ?_⟩
  simp only [State.dealOne, ht, hh]

end Deal

/-- A bin whose entries a sort has dealt to their slots. -/
def Bin.dealt (ready : List Entry) (moved : List (Entry × (Nat × Nat) × Thread)) (b : Bin) : Bin :=
  { b with entries := (b.entries.filter fun x => !ready.contains x) ++ moved.map fun m => { m.1 with who := m.2.1, sorted := true } }

/-- The threads of a bin that a sort takes. -/
def State.arrived (s : State) (b : Bin) : List Entry := s.drawable (b.entries.filter fun x => !x.sorted)

/-- The groups of sorted threads hold their producers. -/
def State.register (s : State) (ready : List Entry) : State :=
  ((classes (fun gid => gid) (ready.map (·.who.1))).map (·.1)).foldl (fun s gid => s.setGroup gid Group.registered) s

theorem register_frame (s : State) (ready : List Entry) : (s.register ready).mem = s.mem ∧
    (s.register ready).cores = s.cores :=
  foldl_setGroup_frame (fun _ => Group.registered) _ s

theorem register_thread? (s : State) (ready : List Entry) (g l : Nat) : (s.register ready).thread? g l =
    s.thread? g l := by
  refine foldl_keeps (fun s : State => s.thread? g l) _ (f := fun s gid => s.setGroup gid Group.registered)
      (fun s gid _ => ?_) s
  simp only [State.thread?, group?_setGroup]
  split
  · next h =>
    subst h
    cases s.group? g <;> rfl
  · rfl

/-- A sort of the arrived threads of a bin. -/
def State.deal (s : State) (core bin : Nat) (b : Bin) : State :=
  ((s.moveThreads (s.sortMoves core (s.arrived b))).register (s.arrived b)).setCore core fun k =>
    { k with bins := listUpdate bin (fun _ => b.dealt (s.arrived b) (s.sortMoves core (s.arrived b))) k.bins }

section Sorting
variable {s : State} {core bin : Nat} {b : Bin} (hb : (s.core core).bins[bin]? = some b)
include hb

/-- A thread of the block that has not arrived keeps a sort from its turn. -/
theorem reorderSort_waits (h : ∃ gid g l, (gid, g) ∈ s.groups ∧ g.bid = b.bid ∧ g.core = core ∧ l ∈ g.live ∧
    ∀ x ∈ b.entries, x.who ≠ (gid, l)) : exec (.reorderSort core bin false) s = .next s := by
  obtain ⟨gid, g, l, hg, hbid, hcore, hl, hno⟩ := h
  have hall : (((s.groups.filter fun y => y.2.bid == b.bid && y.2.core == core).flatMap fun y => y.2.live.map fun l =>
      (y.1, l)).all fun x =>
      b.entries.any (·.who == x)) = false := by
    rw [List.all_eq_false]
    refine ⟨(gid, l), List.mem_flatMap.mpr ⟨(gid, g), List.mem_filter.mpr ⟨hg,
        by simp [hbid, hcore]⟩, List.mem_map_of_mem hl⟩, ?_⟩
    simpa using hno
  change execReorderSort core bin false s = _
  simp only [execReorderSort, hb, hall, Bool.or_self, Bool.not_false, Bool.or_true, if_true]

theorem reorderSort_deals (hs : b.sort = true) (hr : s.arrived b ≠ []) :
    exec (.reorderSort core bin true) s = .next (s.deal core bin b) := by
  have hne : (s.drawable (b.entries.filter fun x => !x.sorted)).isEmpty = false := by simpa [State.arrived] using hr
  have hgo : ∀ p, (!b.sort || (s.drawable (b.entries.filter fun x => !x.sorted)).isEmpty || !(true || p)) =
      false := fun p => by
    rw [hs, hne]; rfl
  change execReorderSort core bin true s = _
  simp only [execReorderSort, hb, hgo, Bool.false_eq_true, if_false]
  rfl

theorem deal_bin : b.dealt (s.arrived b) (s.sortMoves core (s.arrived b)) ∈ ((s.deal core bin b).core core).bins := by
  have hc : ((s.moveThreads (s.sortMoves core (s.arrived b))).register (s.arrived b)).core core = s.core core :=
    congrArg (fun m : SMap Core => mapGet ({} : Core) m core) ((register_frame ..).2.trans (moveThreads_frame ..).2)
  rw [State.deal, core_setCore, if_pos rfl, hc]
  exact mem_listUpdate_const (by rw [hb]; simp)

end Sorting

theorem deal_thread? (s : State) (core bin : Nat) (b : Bin) (g l : Nat) : (s.deal core bin b).thread? g l =
    (s.moveThreads (s.sortMoves core (s.arrived b))).thread? g l := register_thread? ..

/-- Settles O45: the front end's pass is taken apart into its wake-up, merge, packing and exchange, each of which keeps the
fragments that stand in bundles; a draw makes one bundle of a list of threads, and a sort moves threads to slots of their own. -/
theorem bundleEvents : Obligations.BundleEvents := by
  unfold Obligations.BundleEvents
  refine ⟨fun s core hc hp => ?_, fun s core bin aged b hb => ⟨fun h hex => ?_, binHoist_waits hb⟩,
    fun s core q aged c hq => ⟨fun h hex => ?_, calleeQueueDrain_waits hq⟩,
    fun s core bin b hb hs => ⟨reorderSort_waits hb, fun hr hn => ?_⟩⟩
  · refine ⟨s.formBundles core, ?_, (wakeCore_frame s core).1, formBundles_active, fun hlen x hx => ?_,
      fun gid g hg hgc hr l k t t' => formBundles_one hg hgc hr⟩
    · change execBundleFormation core s = _
      rw [execBundleFormation, if_pos hc]
    · rw [formBundles_fragments] at hlen hx
      exact formBundles_covers hp hlen hx
  · exact ⟨_, binHoist_draws hb h, drawBundle_filed (putBin_pending _ _) (drawn_there hex), fun x hx hno =>
        putBin_keeps hb hx hno⟩
  · exact ⟨_, calleeQueueDrain_draws hq h, drawBundle_filed (putCallee_pending _ _) (drawn_there hex),
      fun x hx hno => putCallee_keeps hq hx hno⟩
  · refine ⟨_, reorderSort_deals hb hs hr, (register_frame ..).1.trans (moveThreads_frame ..).1, fun g l hout => ?_,
      fun k slot x t here hslot hx ht hh => ⟨?_, _, deal_bin hb, rfl, rfl, hs, ?_⟩⟩
    · rw [deal_thread?]
      exact moveThreads_others _ s (at_ := (g, l)) fun h => hout (mem_sortMoves_place h)
    · rw [deal_thread?]
      exact moveThreads_moved _ s (sortMoves_nodup hn) (mem_sortMoves hslot hx ht hh) (by simp [hh])
    · exact List.mem_append_right _ (List.mem_map_of_mem
        (f := fun m : Entry × (Nat × Nat) × Thread => ({ m.1 with who := m.2.1, sorted := true } : Entry))
            (mem_sortMoves hslot hx ht hh))

end Sys2Proof.Machine
end

-- ==== Proofs: lane registers, forms of results (O1, O2, O4, O6, O7) ====
section
namespace Sys2Proof.Machine

/-! ## Forms whose result is a calculation on whole runs of registers -/

/-- A register form that computes a vector result without a draw. -/
theorem regCompletes_of {i : Instr} {f : RForm} {lat : Nat} {runs : List (Nat × Nat)} {dst : Nat × Nat}
    {srcs : List (Nat × Nat)} {r : List Word → List Nat → Nat}
    (hi : ∀ s, exec i s = laneInstr (regShape f lat runs) (vecCalc dst srcs r) s) : RegCompletes i f runs dst srcs r :=
  vecCompletes_reg hi

/-- A comparison into a predicate. -/
theorem predCompletes_of {i : Instr} {f : RForm} {lat : Nat} {runs srcs : List (Nat × Nat)} {r : List Nat → Bool}
    (hi : ∀ s, exec i s = laneInstr (regShape f lat runs) (predCalc f.d.toNat srcs r) s) :
    PredCompletes i f runs srcs r := predCompletes_reg hi

/-- A form that takes an immediate into a register. -/
theorem vecCompletes_imm {i : Instr} {f : I16Form} {dst : Nat × Nat} {srcs : List (Nat × Nat)}
    {r : List Word → List Nat → Nat} (hi : ∀ s, exec i s = laneInstr (immShape f) (vecCalc dst srcs r) s) :
    VecCompletes i 8 false f.pred [] 0 dst srcs r := vecCompletes_of hi rfl

/-! ## Forms that calculate lane by lane in a way of their own -/

section Own
variable {i : Instr} {fn : LaneFn} {ready : Group → Thread → Prop}
  {w : Group → List (Nat × Thread) → List Word → Nat → Thread → Writes}

theorem laneCompletes_reg {f : RForm} {lat latLog : Nat} {runs : List (Nat × Nat)}
    (hi : ∀ s, exec i s = laneInstr { regShape f lat runs with latLog := latLog } fn s)
    (hw : ∀ g act us l t, t.Settled → (∀ x ∈ act, x.2.Settled ∧ ready g x.2) → (l, t) ∈ act →
      fn g act us l t = .ok (w g act us l t)) : LaneCompletes i 8 false f.pred runs 0 ready w :=
  laneCompletes_of hi rfl hw

theorem laneCompletes_imm {f : I16Form} (hi : ∀ s, exec i s = laneInstr (immShape f) fn s)
    (hw : ∀ g act us l t, t.Settled → (∀ x ∈ act, x.2.Settled ∧ ready g x.2) → (l, t) ∈ act →
      fn g act us l t = .ok (w g act us l t)) : LaneCompletes i 8 false f.pred [] 0 ready w :=
  laneCompletes_of hi rfl hw

end Own

/-- The lanes that execute an instruction at a calm issue have settled threads. -/
theorem Calm.executing_settled {s : State} {gid fid : Nat} {g : Group} (hc : Calm s gid fid g) {unpred : Bool}
    {pred : BitVec 4} : ∀ x ∈ executing g fid unpred pred, x.2.Settled := by
  intro x hx
  obtain ⟨hl, ht, -⟩ := mem_actives (sh := { pred := pred, unpred := unpred }).mp hx
  exact hc.settled x.1 hl x.2 ht

end Sys2Proof.Machine
end

-- ==== Proofs: integer and bit instructions of the lanes (O1, O2) ====
section
namespace Sys2Proof.Machine

/-- Settles O1: the arithmetic is executed as one calculation on runs of registers of the form's type, element by
element and narrowed (R140, R67); the comparisons as one calculation into the predicate that D names (R141, R145). -/
theorem integerResults : Obligations.IntegerResults := by
  refine ⟨fun f => ?arith, fun f => ?compare⟩
  case arith =>
    refine ⟨?iadd, ?isub, ?imul, ?imulh, ?imin, ?imax, ?iabs, ?ineg, ?imad⟩
    all_goals exact regCompletes_of fun _ => rfl
  case compare =>
    refine ⟨?icmp, ?fcmp, ?fclass⟩
    all_goals exact predCompletes_of fun _ => rfl

/-- SEL reads both sources and its predicate, and writes the source that the predicate chooses. -/
theorem sel_completes (f : RForm) :
    LaneCompletes (.sel f) 8 false f.pred [] 0 (fun g t => Within g t [single f.d, single f.a, single f.b])
      fun g _ _ _ t => writeRegs (regsOf g t (single f.d))
        (if getBit8 t.p f.c.toNat then valueOf g t (single f.a) else valueOf g t (single f.b)) := by
  refine laneCompletes_reg (fun _ => rfl) fun g act us l t hs hr ht => ?_
  simp only [operands_settled hs (hr (l, t) ht).2, readPred_settled hs]
  rfl

/-- Settles O2: bit operations, shifts, counts and fields are each one calculation on whole operands, with the count or
the field's specification in a single register (R142, R143); SEL alone reads a predicate besides (R140). -/
theorem bitResults : Obligations.BitResults := by
  intro f ty d a bits shift unary
  refine ⟨?and, ?or, ?xor, ?andn, ?not, ?shl, ?shr, ?sar, ?rot, ?popc, ?clz, ?brev, ?bfx, ?bfi, sel_completes f⟩
  all_goals exact regCompletes_of fun _ => rfl

end Sys2Proof.Machine
end

-- ==== Proofs: floating-point instructions of the lanes (O4) ====
section
namespace Sys2Proof.Machine

/-- Settles O4: the four rounded operations are one calculation with a draw for each element under SR (R75, R76, R144),
and the fused, special, dot and scaling instructions one calculation without a draw (R78, R146, R148). -/
theorem floatResults : Obligations.FloatResults := by
  refine ⟨⟨fun f => ?arith, fun f => ?special⟩, fun f => ?dot⟩
  case arith =>
    refine ⟨?fadd, ?fsub, ?fmul, ?fdiv, ?ffma, ?fmin, ?fmax⟩
    all_goals exact vecCompletes_reg fun _ => rfl
  case special =>
    refine ⟨?frcp, ?fsqrt, ?frsq, ?fexp2, ?flog2, ?fsin, ?fcos⟩
    all_goals exact regCompletes_of fun _ => rfl
  case dot =>
    refine ⟨?dot4, ?dot8, ?dot2, ?fscl⟩
    all_goals exact regCompletes_of fun _ => rfl

end Sys2Proof.Machine
end

-- ==== Proofs: cross-lane instructions (O6) ====
section
namespace Sys2Proof.Machine

/-! ## What the lanes of P offer -/

theorem destAndSource_settled {g : Group} {t : Thread} {d a : Nat × Nat} (hs : t.Settled) (h : Within g t [d, a]) :
    destAndSource g t d a = .ok (regsOf g t d, valueOf g t a) := by
  rw [destAndSource, operands_settled hs h]
  rfl

/-- Every lane of P that has its source offers its value. -/
theorem offers_sources {g : Group} {act : List (Nat × Thread)} {a : Nat × Nat}
    (h : ∀ x ∈ act, x.2.Settled ∧ Within g x.2 [a]) :
    offers act (sourceOf g a) = act.map fun x => (x.1, valueOf g x.2 a) :=
  offers_all (v := fun t => valueOf g t a) fun x hx => sourceOf_settled (h x hx).1 (h x hx).2

theorem offers_preds {g : Group} {act : List (Nat × Thread)} {k : Nat} (h : ∀ x ∈ act, x.2.Settled) :
    offers act (fun t => readPred g t k) = act.map fun x => (x.1, getBit8 x.2.p k) :=
  offers_all (v := fun t => getBit8 t.p k) fun x hx => readPred_settled (h x hx) g k

/-! ## Each cross-lane instruction -/

theorem bcast_completes (f : RForm) :
    LaneCompletes (.bcast f) 8 false f.pred [] 0
      (fun g t => Within g t [single f.d, single f.a] ∧ mapFind f.b.toNat g.stag = none) fun g act _ _ t =>
      writeRegs (regsOf g t (single f.d)) (received g (act.map fun x => (x.1, valueOf g x.2 (single f.a)))
        (some ((mapGet 0 g.s f.b.toNat).toNat % g.width)) (valueOf g t (single f.a))) := by
  refine laneCompletes_reg (fun _ => rfl) fun g act us l t hs hr ht => ?_
  obtain ⟨hin, hq⟩ := (hr (l, t) ht).2
  have hoff := offers_sources (g := g) (act := act) (a := single f.a) fun x hx =>
    ⟨(hr x hx).1, within_mono (hr x hx).2.1 (by simp)⟩
  simp only [destAndSource_settled hs hin, readS_ok hq, hoff]

theorem shfl_completes (f : RForm) :
    LaneCompletes (.shfl f) 8 false f.pred [] 0 (fun g t => Within g t [single f.d, single f.a, single f.b])
      fun g act _ l t => writeRegs (regsOf g t (single f.d)) (received g
        (act.map fun x => (x.1, valueOf g x.2 (single f.a)))
        (shuffleLane g f.c.toNat l (valueOf g t (single f.b))) (valueOf g t (single f.a))) := by
  refine laneCompletes_reg (fun _ => rfl) fun g act us l t hs hr ht => ?_
  have hoff := offers_sources (g := g) (act := act) (a := single f.a) fun x hx =>
    ⟨(hr x hx).1, within_mono (hr x hx).2 (by simp)⟩
  simp only [operands_settled hs (hr (l, t) ht).2, hoff]
  rfl

theorem vote_completes (f : RForm) :
    LaneCompletes (.vote f) 8 false f.pred [] 0 (fun _ _ => True) fun _ act _ _ _ =>
      { p := [(f.d.toNat, voteOf f.c.toNat (act.map fun x => getBit8 x.2.p f.a.toNat))] } := by
  refine laneCompletes_reg (fun _ => rfl) fun g act us l t hs hr ht => ?_
  simp only [readPred_settled hs, offers_preds fun x hx => (hr x hx).1, List.map_map]
  rfl

theorem redux_completes (f : RForm) :
    LaneCompletes (.redux f) 8 false f.pred [typed f.ty f.d, typed f.ty f.a] 0
      (fun g t => Within g t [typed f.ty f.d, typed f.ty f.a]) fun g act _ _ t =>
      writeRegs (regsOf g t (typed f.ty f.d)) ((treeNode (reduceOp f.ty.toNat f.c.toNat)
        (offerAt (act.map fun x => (x.1, valueOf g x.2 (typed f.ty f.a)))) g.width.log2 0).getD
        (valueOf g t (typed f.ty f.a))) := by
  refine laneCompletes_reg (fun _ => rfl) fun g act us l t hs hr ht => ?_
  have hoff := offers_sources (g := g) (act := act) (a := typed f.ty f.a) fun x hx =>
    ⟨(hr x hx).1, within_mono (hr x hx).2 (by simp)⟩
  simp only [destAndSource_settled hs (hr (l, t) ht).2, hoff]

theorem scan_completes (f : RForm) :
    LaneCompletes (.scan f) 8 false f.pred [typed f.ty f.d, typed f.ty f.a] 0
      (fun g t => Within g t [typed f.ty f.d, typed f.ty f.a]) fun g act _ l t =>
      writeRegs (regsOf g t (typed f.ty f.d)) ((treePrefix (reduceOp f.ty.toNat f.c.toNat)
        (offerAt (act.map fun x => (x.1, valueOf g x.2 (typed f.ty f.a)))) g.width.log2 0
        (if f.mx then l else l + 1) none).getD (reduceIdentity f.ty.toNat f.c.toNat)) := by
  refine laneCompletes_reg (fun _ => rfl) fun g act us l t hs hr ht => ?_
  have hoff := offers_sources (g := g) (act := act) (a := typed f.ty f.a) fun x hx =>
    ⟨(hr x hx).1, within_mono (hr x hx).2 (by simp)⟩
  simp only [destAndSource_settled hs (hr (l, t) ht).2, hoff]

/-- What one lane computes of BALLOT, its run being known. -/
def ballotLane (f : RForm) (n : Nat) : LaneFn := fun g act _ _ t =>
  match physAll g t [(f.d.toNat, n)], readPred g t f.a.toNat with
  | .error e, _ => .error e
  | _, .error e => .error e
  | .ok rs, .ok _ =>
    let ps := offers act fun t => readPred g t f.a.toNat
    .ok (writeRegs (rs.getD 0 []) (maskOf ((ps.filter (·.2)).map (·.1))).toNat)

/-- For a bundle of one fragment BALLOT is the lane-set instruction whose run is that of the group's width. -/
theorem ballot_exec {s : State} {gid fid : Nat} {g : Group} (hc : Calm s gid fid g) (f : RForm) :
    exec (.ballot f) s =
      laneInstr (regShape f 8 [(f.d.toNat, ballotRun g.width)]) (ballotLane f (ballotRun g.width)) s := by
  obtain ⟨c, b, hcur, hb⟩ := hc.atIssue
  change execBallot f s = _
  simp only [execBallot, laneInstr, issue, hcur, hb, forBundle, hc.group]
  rfl

theorem ballotLane_settled {g : Group} {t : Thread} {act : List (Nat × Thread)} {f : RForm} {n l : Nat}
    {us : List Word} (hs : t.Settled) (hact : ∀ x ∈ act, x.2.Settled) (hin : Within g t [(f.d.toNat, n)]) :
    ballotLane f n g act us l t = .ok (writeRegs (regsOf g t (f.d.toNat, n))
      (maskOf ((act.filter fun x => getBit8 x.2.p f.a.toNat).map (·.1))).toNat) := by
  simp only [ballotLane, physAll_within hin, readPred_settled hs, offers_preds hact, List.filter_map, List.map_map]
  rfl

/-- Settles O6: every lane of P offers its value or predicate (`offers_sources`, `offers_preds`), and each lane receives
what the instruction makes of the offers; BALLOT's run is that of the group's width (`ballot_exec`). -/
theorem crossLaneResults : Obligations.CrossLaneResults := by
  intro f d a td ta given op
  refine ⟨bcast_completes f, shfl_completes f, vote_completes f, redux_completes f, scan_completes f, ?ballot⟩
  intro s gid fid g hc n hguard hready
  exact laneEffect_of (sh := regShape f 8 [(f.d.toNat, n)]) (ballot_exec hc f) hc _ hguard fun us l t ht =>
    ballotLane_settled (hc.executing_settled _ ht) hc.executing_settled (hready l t ht)

end Sys2Proof.Machine
end

-- ==== Proofs: moves, predicates and index registers (O7) ====
section
namespace Sys2Proof.Machine

/-- With an offset the index register points within its window and the group's allotment (R136). -/
theorem indexed_inside {g : Group} {x : Word} {imm : BitVec 16}
    (h0 : 0 ≤ (indexAt x : Int) + imm.toInt) (hn : (indexAt x : Int) + imm.toInt < indexCount x)
    (hb : (indexBase x : Int) + indexAt x + imm.toInt < g.vregs) :
    indexed g x imm = .ok ((indexBase x : Int) + indexAt x + imm.toInt).toNat := by
  unfold indexed
  rw [if_neg (by omega), if_neg (by omega), ← add_assoc]

theorem readPreds_settled {t : Thread} (hs : t.Settled) (g : Group) (ks : List Nat) :
    readPreds g t ks = .ok (ks.map fun k => if getBit8 t.p k then 2 ^ k else 0).sum := by
  induction ks with
  | nil => rfl
  | cons k ks ih => simp [readPreds, readPred_settled hs, ih]

/-! ## Predicates and the pennant -/

theorem plop_completes (f : RForm) :
    LaneCompletes (.plop f) 8 false f.pred [] 0 (fun _ _ => True) fun _ _ _ _ t =>
      { p := [(f.d.toNat, f.c.toNat.testBit
        ((if getBit8 t.p f.a.toNat then 2 else 0) + (if getBit8 t.p f.b.toNat then 1 else 0)))] } := by
  refine laneCompletes_reg (fun _ => rfl) fun g act us l t hs hr ht => ?_
  simp only [readPred_settled hs]

/-- PMOV out of the predicates, where C is 0. -/
theorem pmov_gets (f : RForm) (hc : f.c = 0) :
    LaneCompletes (.pmov f) 8 false f.pred [] 0 (fun g t => Within g t [single f.d]) fun g _ _ _ t =>
      { v := (regsOf g t (single f.d)).map fun r =>
          (r, BitVec.ofNat 32 (0x80 + ((List.range 7).map fun k => if getBit8 t.p k then 2 ^ k else 0).sum)) } := by
  refine laneCompletes_reg (fun _ => rfl) fun g act us l t hs hr ht => ?_
  obtain ⟨r, hp, hregs⟩ := within_one (hr (l, t) ht).2
  simp only [if_pos hc, hp, hregs, readPreds_settled hs]
  rfl

/-- PMOV into the predicates, where C is not 0. -/
theorem pmov_sets (f : RForm) (hc : f.c ≠ 0) :
    LaneCompletes (.pmov f) 8 false f.pred [] 0 (fun g t => Within g t [single f.a]) fun g _ _ _ t =>
      { p := (List.range 7).map fun k => (k, (valueOf g t (single f.a)).testBit k) } := by
  refine laneCompletes_reg (fun _ => rfl) fun g act us l t hs hr ht => ?_
  simp only [if_neg hc, sourceOf_settled hs (hr (l, t) ht).2]
  rfl

theorem pen_completes (f : RForm) :
    LaneCompletes (.pen f) 8 false f.pred [] 0 (fun g t => Within g t [single f.d]) fun g _ _ _ t =>
      { v := (regsOf g t (single f.d)).map fun r => (r, if g.handler && t.origin.isSome then t.pennant else 0) } := by
  refine laneCompletes_reg (fun _ => rfl) fun g act us l t hs hr ht => ?_
  obtain ⟨r, hp, hregs⟩ := within_one (hr (l, t) ht).2
  simp only [hp, hregs]
  rfl

/-- Settles O7: moves are calculations of one register; predicate logic, PMOV and PEN read settled predicates and lane
state; MOVX and STX reach the register that `indexed_inside` gives. -/
theorem moveResults : Obligations.MoveResults := by
  refine ⟨⟨fun f => ⟨?movi, ?movh⟩, fun f => ⟨plop_completes f, pmov_gets f, pmov_sets f, pen_completes f⟩⟩,
    fun f => ?xset, fun f => ⟨?xadd, ?movx, ?stx⟩⟩
  case movi | movh => exact vecCompletes_imm fun _ => rfl
  case xset =>
    refine laneCompletes_reg (fun _ => rfl) fun g act us l t hs hr ht => ?_
    simp only [sourceOf_settled hs (hr (l, t) ht).2]
    rfl
  case xadd => exact laneCompletes_imm (fun _ => rfl) fun g act us l t hs hr ht => rfl
  case movx | stx =>
    refine laneCompletes_imm (fun _ => rfl) fun g act us l t hs hr ht => ?_
    obtain ⟨hin, h0, hn, hb⟩ := (hr (l, t) ht).2
    obtain ⟨r, hp, hregs⟩ := within_one hin
    simp only [hp, hregs, indexed_inside h0 hn hb, readReg_settled hs]
    rfl

end Sys2Proof.Machine
end

-- ==== Proofs: lanes in turn that all go on (O39, O14) ====
section
namespace Sys2Proof.Machine

/-- The lanes of a fragment, which age and then all go on: nothing changes but their threads. -/
theorem aged_goes (m : State) (gid fid : Nat) (len : DWord) (n : Nat) (g1 : Group) (ls : List Nat)
    (hm : m.group? gid = some g1) (hl : g1.fragLanes fid = ls) (hne : ls ≠ [])
    (hp : ∀ l ∈ ls, ∀ t, g1.thread? l = some t → t.Plain) :
    ∃ h, ((m.setGroup gid fun g => ls.foldl (fun g l => g.setThread l fun t => t.age n) g).retire gid fid
        len (ls.map fun l => (l, .next false))).group? gid = some h ∧
      OnlyGroup m ((m.setGroup gid fun g => ls.foldl (fun g l => g.setThread l fun t => t.age n) g).retire gid fid
        len (ls.map fun l => (l, .next false))) gid ∧
      OnlyThreads g1 h ∧ LanesAfter ls (fun _ t => t.goTo (t.pc + len) false) g1 h := by
  have hn : ls.Nodup := hl ▸ fragLanes_nodup g1 fid
  set g2 := ls.foldl (fun g l => g.setThread l fun t => t.age n) g1 with hg2
  have hage : ∀ l, g2.thread? l = g1.thread? l := by
    intro l
    rw [hg2, lanesAfter_foldl ls hn (fun _ t => t.age n) g1 l]
    split
    · cases ht : g1.thread? l with
      | none => rfl
      | some t => simp [age_plain (hp l ‹_› t ht)]
    · rfl
  have hset :
      (m.setGroup gid fun g => ls.foldl (fun g l => g.setThread l fun t => t.age n) g).group? gid = some g2 := by
    rw [group?_setGroup, if_pos rfl, hm]; rfl
  have hfrag : ∀ l ∈ ls, ∃ t, g2.thread? l = some t ∧ t.frag = fid := by
    intro l hl'
    obtain ⟨t, ht, -, hf⟩ := mem_fragLanes.mp (hl ▸ hl' : l ∈ g1.fragLanes fid)
    exact ⟨t, by rw [hage, ht], hf⟩
  obtain ⟨h, hgrp, honly, hthr, hafter⟩ := retire_goesOn _ gid fid len g2 ls (fun _ => .next false) .next hset hne hn
    hfrag (fun _ _ => rfl) fun _ _ => rfl
  refine ⟨h, hgrp, (onlyGroup_setGroup m gid _).trans honly,
    (onlyThreads_foldl (fun l : Nat => l) (fun _ t => t.age n) ls g1).trans hthr, fun l => ?_⟩
  rw [hafter l, hage l]
  rfl

/-- A fragment whose lanes, each in its turn, lead to `m` and go on. -/
theorem seqFragment_goes {s m : State} {gid fid : Nat} {g g1 : Group} {sh : Shape}
    {fn : Nat → State → Nat → Thread → LaneOut} (hc : Calm s gid fid g)
    (hguard : laneGuard g sh.unpred sh.pred sh.runs sh.forbidden = none)
    (hseq : seqLanes (fn gid) (actives g fid sh) s = some (m, (actives g fid sh).map fun x => (x.1, .next false)))
    (hm : m.group? gid = some g1) (hl : g1.fragLanes fid = g.fragLanes fid)
    (hp : ∀ l ∈ g.fragLanes fid, ∀ t, g1.thread? l = some t → t.Plain) :
    ∃ t h, seqFragment sh fn s gid fid = some t ∧ t.group? gid = some h ∧ OnlyGroup m t gid ∧ OnlyThreads g1 h ∧
      LanesAfter (g.fragLanes fid) (fun _ th => th.goTo (th.pc + sh.len) false) g1 h := by
  obtain ⟨h, hgrp, honly, hthr, hafter⟩ := aged_goes m gid fid sh.len (max 1 sh.stall) g1 (g.fragLanes fid) hm hl
    hc.lanes hp
  refine ⟨_, h, (seqFragmentWith_eq (fin := fun _ s ds => (s, ds)) hc hguard hseq rfl).trans ?_, hgrp, honly, hthr,
    hafter⟩
  congr 2
  apply List.map_congr_left
  intro l hl'
  obtain ⟨t, ht, -⟩ := mem_fragLanes.mp hl'
  rw [dispoOf_actives (fun _ _ => .next false) hl' ht, ite_self]

/-- Lanes that go on and do nothing else. -/
theorem seqFragment_idle {s : State} {gid fid : Nat} {g : Group} {sh : Shape}
    {fn : Nat → State → Nat → Thread → LaneOut} (hc : Calm s gid fid g)
    (hguard : laneGuard g sh.unpred sh.pred sh.runs sh.forbidden = none)
    (hfn : ∀ x ∈ actives g fid sh, fn gid s x.1 x.2 = .stop (.next false)) :
    ∃ t h, seqFragment sh fn s gid fid = some t ∧ t.group? gid = some h ∧ OnlyGroup s t gid ∧ OnlyThreads g h ∧
      LanesAfter (g.fragLanes fid) (fun _ th => th.goTo (th.pc + sh.len) false) g h :=
  seqFragment_goes hc hguard (seqLanes_stop (fn gid) (actives g fid sh) s (fun _ _ => .next false) hfn) hc.group rfl
    hc.plain

/-- Where one lane is held and the others would go somewhere, all are held. -/
theorem seqLanes_held {fn : State → Nat → Thread → LaneOut} {s : State} :
    ∀ {xs : List (Nat × Thread)}, (∀ x ∈ xs, fn s x.1 x.2 = .hold ∨ ∃ d, fn s x.1 x.2 = .stop d) →
      (∃ x ∈ xs, fn s x.1 x.2 = .hold) → seqLanes fn xs s = none
  | [], _, h => by simp at h
  | (l, t) :: xs, hall, hheld => by
    rw [seqLanes]
    rcases hall (l, t) (by simp) with h | ⟨d, h⟩
    · simp only [h]
    · have hrest : ∃ x ∈ xs, fn s x.1 x.2 = .hold := by
        obtain ⟨x, hx, hxh⟩ := hheld
        rcases List.mem_cons.mp hx with rfl | hx
        · rw [hxh] at h; cases h
        · exact ⟨x, hx, hxh⟩
      simp only [h, seqLanes_held (fun x hx => hall x (by simp [hx])) hrest, Option.map_none]

/-- A fragment of which some executing lane is held at issue. -/
theorem seqFragment_held {s : State} {gid fid : Nat} {g : Group} {sh : Shape}
    {fn : Nat → State → Nat → Thread → LaneOut} (hc : Calm s gid fid g)
    (hguard : laneGuard g sh.unpred sh.pred sh.runs sh.forbidden = none)
    (hseq : seqLanes (fn gid) (actives g fid sh) s = none) : seqFragment sh fn s gid fid = none := by
  unfold seqFragment seqFragmentWith
  simp only [hc.group, hguard, views_settled g s (g.fragLanes fid) hc.settled, anyHeld sh hc.settled,
    Bool.false_eq_true, if_false]
  have hact : (withThreads g (g.fragLanes fid)).filter (fun (x : Nat × Thread) => laneActive g sh.unpred sh.pred x.2)
      = actives g fid sh := rfl
  simp only [hact, hseq]

theorem issue_none {s : State} {gid fid : Nat} {g : Group} (hc : Calm s gid fid g)
    {f : State → Nat → Nat → Option State} (h : f s gid fid = none) : issue f s = .next s := by
  obtain ⟨c, b, hcur, hb⟩ := hc.atIssue
  simp only [issue, hcur, hb, forBundle, h]

/-- Every lane of the fragment has gone on by 8, from a state in which the group was as it is. -/
theorem lanesGo_of {i : Instr} {s t : State} {gid fid : Nat} {g h : Group} {pred : BitVec 4} {after : State → Prop}
    (hi : exec i s = .next t) (hg : t.group? gid = some h) (ho : ∀ k, k ≠ gid → t.group? k = s.group? k)
    (hthr : OnlyThreads g h) (hl : LanesAfter (g.fragLanes fid) (fun _ th => th.goTo (th.pc + 8) false) g h)
    (ha : after t) : LanesGo i s gid fid g pred g (fun _ th => th) (fun _ _ => false) after := by
  refine ⟨t, h, h, hi, fun k hk => by rw [ho k hk], hg, rfl, hthr, fun l hl' => ?_, fun l hl' th hth => ?_, ha⟩
  · rw [hl l, if_neg hl']
  · rw [hl l, if_pos hl', hth, ite_self]
    rfl

theorem OnlyGroup.mem {s t : State} {gid : Nat} (h : OnlyGroup s t gid) : t.mem = s.mem := by rw [h.rest]

end Sys2Proof.Machine
end

-- ==== Proofs: NOP, WAIT and YIELD (O39) ====
section
namespace Sys2Proof.Machine

/-- Every active bundle that holds the fragment has met a stall. -/
theorem markStall_stalled (s : State) (c : Nat) (fs : Nat × Nat) (waits : List Nat) :
    ∀ b ∈ ((s.markStall c { frags := [fs] } waits).core c).active, fs ∈ b.frags → b.stalled = true := by
  intro b hb hfs
  rw [State.markStall, core_setCore, if_pos rfl] at hb
  obtain ⟨x, -, rfl⟩ := List.mem_map.mp hb
  by_cases hx : fs ∈ x.frags <;> simp_all

/-- WAIT's fields, from the highest: loads, stores, copies and tile operations. -/
theorem settled_iff (t : Thread) (imm : BitVec 16) : t.settled imm = true ↔
    t.loads ≤ imm.toNat / 4096 ∧ t.stores ≤ imm.toNat / 256 % 16 ∧ t.copies ≤ imm.toNat / 16 % 16 ∧
      t.tiles ≤ imm.toNat % 16 := by
  have hloads : imm.toNat / 4096 % 16 = imm.toNat / 4096 := by omega
  simp [Thread.settled, BitVec.extractLsb'_toNat, Nat.shiftRight_eq_div_pow, hloads, and_assoc]

section Calm
variable {s : State} {gid fid : Nat} {g : Group} (hc : Calm s gid fid g)
include hc

theorem nop_goes (f : RForm) (hguard : laneGuard g false f.pred [] false = none) :
    LanesGo (.nop f) s gid fid g f.pred g (fun _ t => t) (fun _ _ => false) (fun t => t.mem = s.mem) := by
  obtain ⟨t, h, hf, hg, honly, hthr, hl⟩ := seqFragment_idle (sh := { pred := f.pred, stall := f.stall.toNat })
    (fn := fun _ _ _ _ => .stop (.next false)) hc hguard fun _ _ => rfl
  exact lanesGo_of (show execNop f s = _ from issue_one hc hf) hg honly.others hthr hl honly.mem

theorem yield_goes (f : RForm) (hguard : laneGuard g false f.pred [] false = none) :
    LanesGo (.yield f) s gid fid g f.pred g (fun _ t => t) (fun _ _ => false) (fun t => t.mem = s.mem ∧
      ∀ b ∈ (t.core g.core).active, (gid, fid) ∈ b.frags → b.stalled = true) := by
  obtain ⟨t, h, hf, hg, honly, hthr, hl⟩ := seqFragment_idle (sh := { pred := f.pred, stall := f.stall.toNat })
    (fn := fun _ _ _ _ => .stop (.next false)) hc hguard fun _ _ => rfl
  refine lanesGo_of (t := t.markStall g.core { frags := [(gid, fid)] } []) ?_ hg honly.others hthr hl
    ⟨honly.mem, markStall_stalled t g.core (gid, fid) []⟩
  refine (show execYield f s = _ from issue_one hc ?_)
  simp only [hf, hc.group, Option.map_some]

theorem wait_goes (f : I16Form) (hguard : laneGuard g false f.pred [] false = none)
    (hpass : ∀ x ∈ executing g fid false f.pred, x.2.settled f.imm = true) :
    LanesGo (.wait f) s gid fid g f.pred g (fun _ t => t) (fun _ _ => false) (fun t => t.mem = s.mem) := by
  obtain ⟨t, h, hf, hg, honly, hthr, hl⟩ := seqFragment_idle (sh := { pred := f.pred })
    (fn := fun _ _ _ t => if t.settled f.imm then .stop (.next false) else .hold) hc hguard
    fun x hx => if_pos (hpass x hx)
  exact lanesGo_of (show execWait f s = _ from issue_one hc hf) hg honly.others hthr hl honly.mem

theorem wait_holds (f : I16Form) (hguard : laneGuard g false f.pred [] false = none)
    (hheld : ∃ x ∈ executing g fid false f.pred, ¬ x.2.settled f.imm = true) : exec (.wait f) s = .next s := by
  obtain ⟨x, hx, hno⟩ := hheld
  refine (show execWait f s = _ from issue_none hc (seqFragment_held hc hguard
    (seqLanes_held (fun y _ => ?_) ⟨x, hx, if_neg hno⟩)))
  by_cases hy : y.2.settled f.imm = true
  · exact .inr ⟨_, if_pos hy⟩
  · exact .inl (if_neg hy)

end Calm

/-- Settles O39: NOP, YIELD and a passing WAIT do nothing but let the lanes go on, after which YIELD marks the
fragment's bundle as stalled (`markStall_stalled`); a WAIT that some executing lane may not pass holds the fragment at
issue. -/
theorem schedulingResults : Obligations.SchedulingResults := by
  intro s gid fid g hc
  refine ⟨fun f hguard => ⟨nop_goes hc f hguard, yield_goes hc f hguard⟩,
    fun f hguard => ⟨fun hall => ?_, fun hsome => ?_⟩⟩
  · exact wait_goes hc f hguard fun x hx => (settled_iff x.2 f.imm).mpr (hall x.1 x.2 hx)
  · obtain ⟨l, t, hx, hno⟩ := hsome
    exact wait_holds hc f hguard ⟨(l, t), hx, fun h => hno ((settled_iff t f.imm).mp h)⟩

end Sys2Proof.Machine
end

-- ==== Proofs: a group whose operands have been read (O14) ====
section
namespace Sys2Proof.Machine

/-! ## Groups but for what is noted of operands read after issue (R131, R132) -/

/-- The group `h` is `g` but for what is noted of operands that are read after issue. -/
structure ReadsAs (g h : Group) : Prop where
  frame : h = { g with threads := h.threads, late := h.late, products := h.products }
  threads : ∀ l, (h.thread? l).map Thread.asRead = (g.thread? l).map Thread.asRead

namespace ReadsAs

theorem refl (g : Group) : ReadsAs g g := ⟨rfl, fun _ => rfl⟩

theorem trans {g h k : Group} (x : ReadsAs g h) (y : ReadsAs h k) : ReadsAs g k := by
  refine ⟨?_, fun l => (y.threads l).trans (x.threads l)⟩
  have hk := y.frame
  rw [x.frame] at hk
  exact hk

theorem asRead_eq {g h : Group} (x : ReadsAs g h) : h.asRead = g.asRead := by
  have hthr : h.threads.map Thread.asRead = g.threads.map Thread.asRead :=
    List.ext_getElem? fun l => by simpa [Group.thread?] using x.threads l
  rw [Group.asRead, hthr, x.frame]
  rfl

/-- A lane changed in both by a rule that does not look at what is left out. -/
theorem setThread {g h : Group} (x : ReadsAs g h) (l : Nat) {f : Thread → Thread}
    (hf : ∀ t, (f t).asRead = f t.asRead) : ReadsAs (g.setThread l f) (h.setThread l f) := by
  refine ⟨by rw [x.frame]; rfl, fun k => ?_⟩
  have hk := x.threads k
  simp only [thread?_setThread]
  split
  · cases hh : h.thread? k <;> cases hg : g.thread? k <;> simp_all
  · exact hk

/-- Lanes changed in one are changed alike in a group that it reads as. -/
theorem lanesAfter {g h h' : Group} (x : ReadsAs g h) {ls : List Nat} (hn : ls.Nodup) {f : Nat → Thread → Thread}
    (hf : ∀ l t, (f l t).asRead = f l t.asRead) (hh : OnlyThreads h h') (hl : LanesAfter ls f h h') :
    ∃ g', ReadsAs g' h' ∧ OnlyThreads g g' ∧ LanesAfter ls f g g' := by
  have hgl := lanesAfter_foldl ls hn f g
  have hg := onlyThreads_foldl (fun l : Nat => l) f ls g
  refine ⟨{ ls.foldl (fun g l => g.setThread l (f l)) g with frags := h'.frags }, ⟨?_, fun l => ?_⟩, ?_, hgl⟩
  · rw [hh, x.frame, hg]
  · have hl' := x.threads l
    rw [hl l]
    refine Eq.trans ?_ (congrArg _ (hgl l)).symm
    split
    · cases hh : h.thread? l <;> cases hg : g.thread? l <;> simp_all
    · exact hl'
  · rw [OnlyThreads, hg]

/-- A lane of one is a lane of the other. -/
theorem thread {g h : Group} (x : ReadsAs g h) {l : Nat} {t : Thread} (ht : h.thread? l = some t) :
    ∃ u, g.thread? l = some u ∧ t.asRead = u.asRead := by
  have hl := x.threads l
  rw [ht] at hl
  cases hg : g.thread? l with
  | none => simp [hg] at hl
  | some u => exact ⟨u, rfl, by simpa [hg] using hl⟩

theorem thread' {g h : Group} (x : ReadsAs g h) {l : Nat} {u : Thread} (hu : g.thread? l = some u) :
    ∃ t, h.thread? l = some t ∧ t.asRead = u.asRead := by
  have hl := x.threads l
  rw [hu] at hl
  cases hh : h.thread? l with
  | none => simp [hh] at hl
  | some t => exact ⟨t, rfl, by simpa [hh] using hl⟩

theorem fragLanes {g h : Group} (x : ReadsAs g h) (fid : Nat) : h.fragLanes fid = g.fragLanes fid := by
  have key : ∀ k : Group, k.asRead.fragLanes fid = k.fragLanes fid := by
    intro k
    simp only [Group.fragLanes, Group.lanesWhere, Group.asRead, List.length_map, List.getElem?_map]
    refine List.filter_congr fun l _ => ?_
    cases k.threads[l]? <;> rfl
  rw [← key h, x.asRead_eq, key g]

end ReadsAs

theorem asRead_count (t : Thread) (c : Counter) (f : Nat → Nat) : (t.count c f).asRead = t.asRead := by
  cases c <;> rfl

/-- Operands that have been read are noted no more, and nothing else changes. -/
theorem readsAs_closeLate (g : Group) (sel : Late → Bool) : ReadsAs g (g.closeLate sel) := by
  have counts : ∀ (rs : List Late) (k : Group),
      ReadsAs k (rs.foldl (fun k r => k.setThread r.lane (·.count r.counter (· - 1))) k) := by
    intro rs
    induction rs with
    | nil => exact .refl
    | cons r rs ih =>
      intro k
      refine ReadsAs.trans ⟨rfl, fun l => ?_⟩ (ih _)
      rw [thread?_setThread]
      split
      · cases k.thread? l <;> simp [asRead_count]
      · rfl
  unfold Group.closeLate
  split
  · exact (counts _ g).trans ⟨rfl, fun _ => rfl⟩
  · exact .refl g

theorem Thread.asRead_fields {t u : Thread} (h : t.asRead = u.asRead) :
    t = { u with stores := t.stores, copies := t.copies, tiles := t.tiles } := by
  cases t; cases u
  simp only [Thread.asRead, Thread.mk.injEq] at h ⊢
  simp_all

theorem Thread.Settled.asRead {t u : Thread} (hs : u.Settled) (h : t.asRead = u.asRead) : t.Settled := by
  rw [Thread.asRead_fields h]
  exact ⟨hs.vtag, hs.ptag, hs.fut, hs.vhaz, hs.phaz, hs.xhaz⟩

theorem Thread.Plain.asRead {t u : Thread} (hs : u.Plain) (h : t.asRead = u.asRead) : t.Plain := by
  rw [Thread.asRead_fields h]
  exact ⟨hs.vhaz, hs.phaz, hs.xhaz⟩

end Sys2Proof.Machine
end

-- ==== Proofs: what starting a load does (O14) ====
section
namespace Sys2Proof.Machine

/-! ## What starting a load leaves as it was -/

/-- What checks and loads of a group on a core of a partition change of the state: caches, the network, replies,
operations of new numbers, and this one group. -/
structure Loading (gid core part : Nat) (s t : State) : Prop where
  rules : SameRules s t
  residue : t.residue = s.residue
  entries : (t.core core).entries = (s.core core).entries
  coherent : Coherent s core part → Coherent t core part
  others : ∀ k, k ≠ gid → t.group? k = s.group? k
  pends : ∀ id < s.seq, mapFind id t.pends = mapFind id s.pends
  seq : s.seq ≤ t.seq

namespace Loading
variable {gid core part : Nat}

theorem refl (s : State) : Loading gid core part s s :=
  ⟨.refl s, rfl, rfl, id, fun _ _ => rfl, fun _ _ => rfl, le_rfl⟩

theorem trans {s t u : State} (x : Loading gid core part s t) (y : Loading gid core part t u) :
    Loading gid core part s u :=
  ⟨x.rules.trans y.rules, y.residue.trans x.residue, y.entries.trans x.entries, y.coherent ∘ x.coherent,
    fun k hk => (y.others k hk).trans (x.others k hk),
    fun id hid => (y.pends id (hid.trans_le x.seq)).trans (x.pends id hid), x.seq.trans y.seq⟩

theorem mem {s t : State} (x : Loading gid core part s t) : t.mem = s.mem := x.rules.mem

end Loading

section Steps
variable {gid core part : Nat}

/-- Translations are found in the caches of a core and its cluster, and in the page tables. -/
theorem coherent_congr {s t : State} (htlb : (t.core core).tlb = (s.core core).tlb) (hstlb : t.stlb = s.stlb)
    (hr : SameRules s t) (h : Coherent s core part) : Coherent t core part := by
  intro e he hp
  rw [htlb, hstlb] at he
  rw [walk_congr hr.mem hr.parts]
  exact h e he hp

/-- A step that touches no group, no operation and no translation. -/
theorem loading_of {s t : State} (hr : SameRules s t) (hres : t.residue = s.residue)
    (hc : (t.core core).entries = (s.core core).entries ∧ (t.core core).tlb = (s.core core).tlb)
    (hstlb : t.stlb = s.stlb) (hg : ∀ k, k ≠ gid → t.group? k = s.group? k) (hp : t.pends = s.pends)
    (hq : s.seq ≤ t.seq) : Loading gid core part s t :=
  ⟨hr, hres, hc.1, coherent_congr hc.2 hstlb hr, hg, fun _ _ => by rw [hp], hq⟩

/-- A step that touches only operations numbered from here on. -/
theorem loading_pends {s t : State} (h : t = { s with pends := t.pends, seq := t.seq })
    (hp : ∀ id < s.seq, mapFind id t.pends = mapFind id s.pends) (hq : s.seq ≤ t.seq) : Loading gid core part s t := by
  rw [h]
  exact ⟨⟨rfl, rfl, rfl, rfl, rfl, rfl⟩, rfl, rfl, fun c => c, fun _ _ => rfl, hp, hq⟩

theorem loading_setCore (s : State) (c : Nat) (f : Core → Core)
    (hf : ∀ k, (f k).entries = k.entries ∧ (f k).tlb = k.tlb) : Loading gid core part s (s.setCore c f) := by
  refine loading_of ⟨rfl, rfl, rfl, rfl, rfl, rfl⟩ rfl ?_ rfl (fun _ _ => rfl) rfl le_rfl
  rw [core_setCore]
  split
  · subst_vars; exact hf _
  · exact ⟨rfl, rfl⟩

theorem loading_post (s : State) (c slice g p : Nat) (kind : ReqKind) :
    Loading gid core part s (s.post c slice g p kind) :=
  loading_of ⟨rfl, rfl, rfl, rfl, rfl, rfl⟩ rfl ⟨rfl, rfl⟩ rfl (fun _ _ => rfl) rfl (Nat.le_succ _)

theorem loading_pick (s : State) (n : Nat) : Loading gid core part s (s.pick n).2 :=
  loading_of ⟨rfl, rfl, rfl, rfl, rfl, rfl⟩ rfl ⟨rfl, rfl⟩ rfl (fun _ _ => rfl) rfl le_rfl

theorem loading_replyLocal (s : State) (c pend : Nat) (cause : Option (Nat × DWord)) (got : Bool) :
    Loading gid core part s (s.replyLocal c pend cause got) :=
  loading_of ⟨rfl, rfl, rfl, rfl, rfl, rfl⟩ rfl ⟨rfl, rfl⟩ rfl (fun _ _ => rfl) rfl (Nat.le_succ _)

theorem loading_setGroup (s : State) (f : Group → Group) : Loading gid core part s (s.setGroup gid f) :=
  loading_of ⟨rfl, rfl, rfl, rfl, rfl, rfl⟩ rfl ⟨rfl, rfl⟩ rfl (fun k hk => by rw [group?_setGroup, if_neg hk]) rfl
    le_rfl

theorem loading_onlyTlb {s t : State} (h : OnlyTlb s t) (hc : Coherent t core part) : Loading gid core part s t := by
  refine ⟨h.rules, ?_, ?_, fun _ => hc, fun k _ => ?_, fun id _ => ?_, ?_⟩
  · rw [h.rest]
  · rw [h.cores]; rfl
  · rw [h.rest]; rfl
  · rw [h.rest]
  · rw [h.rest]

/-! ## What a load finds in its core (R224) -/

/-- The operands that a load's own stores await have been read. -/
theorem readStored_reads (s : State) (c : Nat) (ps : List (Place × Nat × Nat × Nat)) :
    Loading gid core part s (s.readStored c gid ps) ∧ ∀ h, s.group? gid = some h →
      ∃ h', (s.readStored c gid ps).group? gid = some h' ∧ ReadsAs h h' := by
  have close : ∀ (sel : Late → Bool) (s : State), Loading gid core part s (s.closeLate gid sel) ∧
      ∀ h, s.group? gid = some h → ∃ h', (s.closeLate gid sel).group? gid = some h' ∧ ReadsAs h h' := by
    intro sel s
    unfold State.closeLate
    split
    · exact ⟨loading_setGroup s _, fun h hh =>
        ⟨_, by rw [group?_setGroup, if_pos rfl, hh]; rfl, readsAs_closeLate h sel⟩⟩
    · exact ⟨.refl s, fun h hh => ⟨h, hh, .refl h⟩⟩
  have fold : ∀ (es : List Store), (∀ e ∈ es, e.gid = gid) → ∀ s : State,
      Loading gid core part s (es.foldl State.readOwners s) ∧ ∀ h, s.group? gid = some h →
        ∃ h', (es.foldl State.readOwners s).group? gid = some h' ∧ ReadsAs h h' := by
    intro es
    induction es with
    | nil => exact fun _ s => ⟨.refl s, fun h hh => ⟨h, hh, .refl h⟩⟩
    | cons e es ih =>
      intro he s
      obtain ⟨hgid, hes⟩ := List.forall_mem_cons.mp he
      obtain ⟨l1, r1⟩ := close (fun r => e.owner.any fun (_, i, _) => i == r.id) s
      obtain ⟨l2, r2⟩ := ih hes (s.closeLate gid fun r => e.owner.any fun (_, i, _) => i == r.id)
      rw [List.foldl_cons, State.readOwners, hgid]
      refine ⟨l1.trans l2, fun h hh => ?_⟩
      obtain ⟨h1, hh1, x1⟩ := r1 h hh
      obtain ⟨h2, hh2, x2⟩ := r2 h1 hh1
      exact ⟨h2, hh2, x1.trans x2⟩
  refine fold _ (fun e he => ?_) s
  have := (List.mem_filter.mp he).2
  simp only [Bool.and_eq_true, beq_iff_eq] at this
  exact this.1.2

theorem l1Sector_loading (s : State) (c : Nat) (p : Place) : Loading gid core part s (s.l1Sector c p).2 ∧
    (s.l1Sector c p).2.groups = s.groups := by
  unfold State.l1Sector
  split
  · exact ⟨.refl s, rfl⟩
  · split
    · exact ⟨.refl s, rfl⟩
    · split
      · exact ⟨.refl s, rfl⟩
      · dsimp only
        split
        · exact ⟨loading_pick s 2, rfl⟩
        · exact ⟨(loading_pick s 2).trans (loading_setCore _ c (·.l1Drop p.key) fun _ => ⟨rfl, rfl⟩), rfl⟩

theorem findPiece_loading (s : State) (c gid' : Nat) (o : Order) (p : Place) (off n : Nat) :
    Loading gid core part s (s.findPiece c gid' o p off n).2 ∧ (s.findPiece c gid' o p off n).2.groups = s.groups := by
  unfold State.findPiece
  dsimp only
  split
  · exact ⟨.refl s, rfl⟩
  · split
    · exact ⟨.refl s, rfl⟩
    · have h := l1Sector_loading (gid := gid) (core := core) (part := part) s c p
      split <;> (rename_i hx; rw [hx] at h; exact h)

/-- A piece finds a byte for each place, and each byte that its stores forward. -/
theorem findPiece_data (s : State) (c g : Nat) (o : Order) (p : Place) (off n : Nat) :
    (s.findPiece c g o p off n).1.data.length = n ∧ ∀ i < n, ∀ b,
      (s.core c).forwarded g (o == .weak) (p.add (off + i)) = some b →
        (s.findPiece c g o p off n).1.data[i]? = some (some b) := by
  unfold State.findPiece
  dsimp only
  split
  · simp_all
  · split
    · simp_all
    · split
      · simp_all
      · simp_all

theorem findAll_loading (c g : Nat) (o : Order) (ps : List (Place × Nat × Nat × Nat)) (s : State) :
    Loading gid core part s (s.findAll c g o ps).2 ∧ (s.findAll c g o ps).2.groups = s.groups := by
  induction ps generalizing s with
  | nil => exact ⟨.refl s, rfl⟩
  | cons x ps ih =>
    obtain ⟨p, off, i, n⟩ := x
    obtain ⟨h1, h2⟩ := findPiece_loading (gid := gid) (core := core) (part := part) s c g o p off n
    obtain ⟨k1, k2⟩ := ih (s.findPiece c g o p off n).2
    exact ⟨h1.trans k1, k2.trans h2⟩

end Steps

/-! ## Bytes of a load, piece by piece -/

theorem place_sector_low (p : Place) (i : Nat) : p.sector.add (p.low + i) = p.add i := by
  cases p with
  | mem pa =>
    have : pa / 32 * 32 + (pa % 32 + i) = pa + i := by omega
    simp only [Place.sector, Place.low, Place.add, this]
  | spad b c o =>
    have : o / 32 * 32 + (o % 32 + i) = o + i := by omega
    simp only [Place.sector, Place.low, Place.add, this]

theorem place_add_add (p : Place) (i j : Nat) : (p.add i).add j = p.add (i + j) := by
  cases p <;> simp only [Place.add, Nat.add_assoc]

theorem place_low_lt (p : Place) : p.low < 32 := by
  cases p <;> exact Nat.mod_lt _ (by norm_num)

/-- The bytes that a load of n bytes at a place has found: one for each, those among them that the group's own stores,
or stores pushed in place, hold on their way. -/
structure HasForwarded (c : Core) (gid : Nat) (weak : Bool) (p : Place) (n : Nat) (ds : List (Option Byte)) : Prop where
  length : ds.length = n
  bytes : ∀ i < n, ∀ b, c.forwarded gid weak (p.add i) = some b → ds[i]? = some (some b)

theorem HasForwarded.append {c : Core} {gid : Nat} {weak : Bool} {p : Place} {m n : Nat} {ds es : List (Option Byte)}
    (hd : HasForwarded c gid weak p m ds) (he : HasForwarded c gid weak (p.add m) n es) :
    HasForwarded c gid weak p (m + n) (ds ++ es) := by
  refine ⟨by rw [List.length_append, hd.length, he.length], fun i hi b hb => ?_⟩
  by_cases him : i < m
  · rw [List.getElem?_append_left (by rw [hd.length]; exact him)]
    exact hd.bytes i him b hb
  · rw [List.getElem?_append_right (by rw [hd.length]; omega), hd.length]
    refine he.bytes (i - m) (by omega) b ?_
    rw [place_add_add, show m + (i - m) = i by omega]
    exact hb

theorem forwarded_congr {c d : Core} (h : d.entries = c.entries) (gid : Nat) (weak : Bool) (p : Place) :
    d.forwarded gid weak p = c.forwarded gid weak p := by
  unfold Core.forwarded
  rw [h]

/-- What a core forwards depends on its buffers alone. -/
theorem HasForwarded.congr {c d : Core} {gid : Nat} {weak : Bool} {p : Place} {n : Nat} {ds : List (Option Byte)}
    (h : HasForwarded d gid weak p n ds) (he : d.entries = c.entries) : HasForwarded c gid weak p n ds :=
  ⟨h.length, fun i hi b hb => h.bytes i hi b (by rw [forwarded_congr he]; exact hb)⟩

theorem findAll_pieces (c gid : Nat) (o : Order) : ∀ (fuel : Nat) (p : Place) (i n : Nat) (s : State), n < fuel →
    HasForwarded (s.core c) gid (o == .weak) p n (s.findAll c gid o (piecesFrom fuel p i n)).1.1
  | 0, _, _, _, _, h => absurd h (Nat.not_lt_zero _)
  | fuel + 1, p, i, n, s, h => by
    rw [piecesFrom]
    split
    · subst_vars
      exact ⟨rfl, fun _ h => absurd h (Nat.not_lt_zero _)⟩
    · next hn =>
      have hlow := place_low_lt p
      set k := min n (32 - p.low) with hk
      obtain ⟨hlen, hown⟩ := findPiece_data s c gid o p.sector p.low k
      have hents := (findPiece_loading (gid := gid) (core := c) (part := 0) s c gid o p.sector p.low k).1.entries
      have hrest := findAll_pieces c gid o fuel (p.add k) (i + k) (n - k) (s.findPiece c gid o p.sector p.low k).2
        (by omega)
      have hhere : HasForwarded (s.core c) gid (o == .weak) p k (s.findPiece c gid o p.sector p.low k).1.data :=
        ⟨hlen, fun j hj b hb => hown j hj b (by rw [place_sector_low]; exact hb)⟩
      have hall := hhere.append (hrest.congr hents)
      rwa [show k + (n - k) = n by omega] at hall

/-! ## Starting a load -/

/-- An operation of the number is in flight for lanes of a group, with these fields. -/
structure InFlight (t : State) (id gid : Nat) (lanes : List Nat) (dest : Dest) (data : List (Option Byte))
    (ea pc : DWord) (p : Pend) : Prop where
  found : mapFind id t.pends = some p
  id : p.id = id
  gid : p.gid = gid
  lanes : p.lanes = lanes
  dest : p.dest = dest
  data : p.data = data
  ea : p.ea = ea
  pc : p.pc = pc
  wait : 1 ≤ p.wait

/-- The PC that an operation of lanes goes back to (R221). -/
def pcAt (g : Group) (lanes : List Nat) : DWord := (((lanes.filterMap g.thread?).head?).map (·.pc)).getD 0

section Start
variable {gid core part : Nat}

theorem InFlight.later {s t : State} {id : Nat} {lanes : List Nat} {dest : Dest} {data : List (Option Byte)}
    {ea pc : DWord} {p : Pend} (h : InFlight s id gid lanes dest data ea pc p) {c q : Nat}
    (hl : Loading gid c q s t) (hid : id < s.seq) : InFlight t id gid lanes dest data ea pc p :=
  { h with found := (hl.pends id hid).trans h.found }

theorem openPend_inFlight (s : State) (g : Group) (lanes : List Nat) (dest : Dest) (data : List (Option Byte))
    (wait : Nat) (ea : DWord) (hw : 1 ≤ wait) :
    ∃ p, InFlight (s.openPend gid g lanes dest data wait ea).2 s.seq gid lanes dest data ea (pcAt g lanes) p :=
  ⟨_, mapFind_insert_self _ _ _, rfl, rfl, rfl, rfl, rfl, rfl, rfl, hw⟩

theorem openPend_loading (s : State) (g : Group) (lanes : List Nat) (dest : Dest) (data : List (Option Byte))
    (wait : Nat) (ea : DWord) : Loading gid core part s (s.openPend gid g lanes dest data wait ea).2 := by
  refine loading_pends rfl (fun id hid => ?_) (Nat.le_succ _)
  exact (mapFind_insert ..).trans (if_neg (Nat.ne_of_lt hid))

theorem countL1_loading (s : State) (c g p : Nat) (obj : Word) (l1 : List (Nat × Byte)) :
    Loading gid core part s (s.countL1 c g p obj l1) ∧ (s.countL1 c g p obj l1).groups = s.groups := by
  have hcount := loading_setCore (gid := gid) (core := core) (part := part) s c
    (fun c => { c with l1Reads := c.l1Reads + 1 }) fun _ => ⟨rfl, rfl⟩
  unfold State.countL1
  split
  · exact ⟨.refl s, rfl⟩
  · dsimp only
    split
    · exact ⟨hcount.trans (loading_post ..), rfl⟩
    · exact ⟨hcount, rfl⟩

/-- What an operation is marked with of its number's own. -/
theorem loading_setPend {s t : State} (h : Loading gid core part s t) {id : Nat} (hid : s.seq ≤ id) (f : Pend → Pend) :
    Loading gid core part s (t.setPend id f) := by
  refine ⟨h.rules.trans ⟨rfl, rfl, rfl, rfl, rfl, rfl⟩, h.residue, h.entries, fun c => h.coherent c, h.others,
    fun k hk => ?_, h.seq⟩
  exact ((mapFind_update ..).trans (if_neg (by omega))).trans (h.pends k hk)

theorem InFlight.setCause {t : State} {id : Nat} {lanes : List Nat} {dest : Dest} {data : List (Option Byte)}
    {ea pc : DWord} {p : Pend} (h : InFlight t id gid lanes dest data ea pc p) (c : Option (Nat × DWord)) :
    InFlight (t.setPend id fun p => { p with cause := c }) id gid lanes dest data ea pc { p with cause := c } :=
  { h with
    found := by
      refine (mapFind_update ..).trans ?_
      rw [if_pos rfl, h.found]
      rfl }

/-- The requests for what a load lacks, and the core's own reply where it lacks nothing. -/
theorem asks_loading (s : State) (c g p id : Nat) (weak : Place → Bool) (rs : List (Place × Nat × Nat))
    (cause : Option (Nat × DWord)) :
    let t := rs.foldl (fun s (q, k, i) => s.post c q.slice g p (.load q k id i (weak q))) s
    let u := if rs.isEmpty then t.replyLocal c id cause else t
    Loading gid core part s u ∧ u.groups = s.groups := by
  intro t u
  have hpost : Loading gid core part s t ∧ t.groups = s.groups :=
    List.foldlRecOn rs _ (motive := fun t => Loading gid core part s t ∧ t.groups = s.groups) ⟨.refl s, rfl⟩
      fun t ht x _ => ⟨ht.1.trans (loading_post ..), ht.2⟩
  by_cases hrs : rs.isEmpty = true
  · simp only [u, hrs, if_true]
    exact ⟨hpost.1.trans (loading_replyLocal ..), hpost.2⟩
  · simp only [u, hrs]
    exact hpost

/-- A load that starts has an operation of its own in flight, with what its core has found for it; the operands that its
group's stores to those bytes await have been read. -/
theorem startPieces_starts {s : State} {h : Group} (hg : s.group? gid = some h) (g : Group) (lanes : List Nat)
    (dest : Dest) (o : Order) (obj : Word) (ps : List (Place × Nat × Nat × Nat)) (ea : DWord) :
    ∃ id t h' p, s.startPieces gid g lanes dest o obj ps ea = (id, t) ∧ Loading gid core part s t ∧
      t.group? gid = some h' ∧ ReadsAs h h' ∧ s.seq ≤ id ∧ id < t.seq ∧ InFlight t id gid lanes dest
        ((s.readStored g.core gid ps).findAll g.core gid o ps).1.1 ea (pcAt g lanes) p := by
  obtain ⟨l1, r1⟩ := readStored_reads (gid := gid) (core := core) (part := part) s g.core ps
  obtain ⟨h', hh', hx⟩ := r1 h hg
  obtain ⟨l2, g2⟩ := findAll_loading (gid := gid) (core := core) (part := part) g.core gid o ps
    (s.readStored g.core gid ps)
  unfold State.startPieces
  generalize hfa : (s.readStored g.core gid ps).findAll g.core gid o ps = fa at l2 g2 ⊢
  obtain ⟨⟨ds, rs, fromL1, bad⟩, s2⟩ := fa
  obtain ⟨l3, g3⟩ := countL1_loading (gid := gid) (core := core) (part := part) s2 g.core gid g.part obj fromL1
  set s3 := s2.countL1 g.core gid g.part obj fromL1
  have l13 : Loading gid core part s s3 := l1.trans (l2.trans l3)
  obtain ⟨p, hp⟩ := openPend_inFlight (gid := gid) s3 g lanes dest ds (max 1 rs.length) ea (le_max_left _ _)
  have l4 := openPend_loading (gid := gid) (core := core) (part := part) s3 g lanes dest ds (max 1 rs.length) ea
  set s4 := (s3.openPend gid g lanes dest ds (max 1 rs.length) ea).2 with hs4
  have hseq : s3.seq < s4.seq := Nat.lt_succ_self _
  obtain ⟨l5, g5⟩ := asks_loading (gid := gid) (core := core) (part := part) s4 g.core gid g.part s3.seq
    (fun q => o == .weak && q.cached) rs (bad.map fun a => (0x11, a))
  set s5 := if rs.isEmpty then _ else _ with hs5
  have hgrp : s5.group? gid = some h' := by
    unfold State.group? at hh' ⊢
    rw [g5, show s4.groups = s3.groups from rfl, g3, g2]
    exact hh'
  have hlt : s3.seq < s5.seq := hseq.trans_le l5.seq
  have hfly := hp.later l5 hseq
  cases bad with
  | none => exact ⟨s3.seq, s5, h', p, rfl, l13.trans (l4.trans l5), hgrp, hx, l13.seq, hlt, hfly⟩
  | some a =>
    exact ⟨s3.seq, s5.setPend s3.seq fun p => { p with cause := some (0x11, a) }, h', _, rfl,
      l13.trans (loading_setPend (l4.trans l5) le_rfl _), hgrp, hx, l13.seq, hlt, hfly.setCause _⟩

/-- A load of n bytes at a place. -/
theorem startLoad_starts {s : State} {h : Group} (hg : s.group? gid = some h) (g : Group) (lanes : List Nat)
    (dest : Dest) (o : Order) (obj : Word) (p : Place) (n : Nat) (ea : DWord) :
    ∃ id t h' q ds, s.startLoad gid g lanes dest o obj p n ea = (id, t) ∧ Loading gid g.core g.part s t ∧
      t.group? gid = some h' ∧ ReadsAs h h' ∧ s.seq ≤ id ∧ id < t.seq ∧
      HasForwarded (s.core g.core) gid (o == .weak) p n ds ∧ InFlight t id gid lanes dest ds ea (pcAt g lanes) q := by
  obtain ⟨id, t, h', q, he, hl, hg', hx, h1, h2, hq⟩ := startPieces_starts (core := g.core) (part := g.part) hg g lanes
    dest o obj (pieces p n) ea
  have hents := (readStored_reads (gid := gid) (core := g.core) (part := 0) s g.core (pieces p n)).1.entries
  have hds := findAll_pieces g.core gid o (n + 1) p 0 n (s.readStored g.core gid (pieces p n)) (Nat.lt_succ_self n)
  exact ⟨id, t, h', q, _, he, hl, hg', hx, h1, h2, hds.congr hents, hq⟩

end Start

end Sys2Proof.Machine
end

-- ==== Proofs: lanes that load in turn (O14) ====
section
namespace Sys2Proof.Machine

/-! ## Operands of a memory form in a settled lane (R49) -/

theorem wordsNat_one (w : Word) : wordsNat [w] = w.toNat := by
  have hlt : w.toNat < 2 ^ 32 := w.isLt
  simp only [wordsNat, List.map_cons, List.map_nil, packElems, Nat.mul_zero, Nat.add_zero]
  exact Nat.mod_eq_of_lt hlt

theorem readIndex_settled {g : Group} {t : Thread} (hs : t.Settled) {idx : BitVec 10}
    (h : idx ≠ noIndex → Within g t [single idx]) :
    readIndex g t idx = .ok (if idx = noIndex then 0 else BitVec.ofNat 32 (valueOf g t (single idx))) := by
  unfold readIndex
  by_cases hi : idx = noIndex
  · simp only [if_pos hi]
  · obtain ⟨r, hp, hregs⟩ := within_one (h hi)
    have hv : valueOf g t (single idx) = (mapGet 0 t.v r).toNat := by
      rw [valueOf, hregs]
      exact wordsNat_one _
    rw [if_neg hi, if_neg hi, readVec, hp, hv, BitVec.ofNat_toNat, BitVec.setWidth_eq]
    exact readReg_settled hs g r

theorem loadOperands_settled {g : Group} {t : Thread} (hs : t.Settled) {data : Nat × Nat} {areg : Nat} {idx : BitVec 10}
    (h : MemReady g t [data] areg idx) (scale : Nat) (off : DWord) :
    loadOperands g t data.1 data.2 idx areg scale off = .ok (regsOf g t data, memAddr g t areg idx scale off) := by
  obtain ⟨ha, hin⟩ := h
  have hidx : idx ≠ noIndex → Within g t [single idx] := fun hi => by
    rw [if_neg hi] at hin
    exact within_mono hin (by simp)
  have hregs : physAll g t (if idx = noIndex then [data] else [data, single idx]) =
      .ok ((if idx = noIndex then [data] else [data, single idx]).map (regsOf g t)) := physAll_within hin
  have haddr : laneAddr g t areg idx scale off = .ok (memAddr g t areg idx scale off) := by
    simp only [laneAddr, readA, ha, Option.isSome_none, Bool.false_eq_true, if_false, readIndex_settled hs hidx]
    rfl
  unfold loadOperands
  simp only [single] at hregs
  simp only [hregs, haddr, Except.map]
  split <;> rfl

/-! What a lane's operands and checks look at of a group lies in none of the fields that `TrapFrame` leaves open. -/

theorem TrapFrame.loadOperands {g h : Group} (x : TrapFrame g h) (t : Thread) (d n : Nat) (idx : BitVec 10)
    (areg scale : Nat) (off : DWord) :
    loadOperands h t d n idx areg scale off = loadOperands g t d n idx areg scale off := by
  rw [x]
  by_cases hi : idx = noIndex <;> simp only [Machine.loadOperands, hi, if_true, if_false] <;> rfl

theorem TrapFrame.checks {g h : Group} (x : TrapFrame g h) (s : State) (a : AddrReg) (sp : List Nat) (acc : Access)
    (ea : DWord) (n align : Nat) : s.checkReg h a sp acc ea n = s.checkReg g a sp acc ea n ∧
      s.checkAccess h a acc ea n align = s.checkAccess g a acc ea n align := by
  rw [x]
  exact ⟨rfl, rfl⟩

theorem TrapFrame.sameCore {g h : Group} (x : TrapFrame g h) : h.core = g.core ∧ h.part = g.part := by
  rw [x]
  exact ⟨rfl, rfl⟩

theorem ReadsAs.trapFrame {g h : Group} (x : ReadsAs g h) : TrapFrame g h := by
  rw [x.frame]
  rfl

theorem OnlyThreads.trapFrame {g h : Group} (x : OnlyThreads g h) : TrapFrame g h := by
  rw [x]
  rfl

theorem awaitRegs_plain {t : Thread} (h : t.Plain) (id : Nat) (regs : List Nat) : (t.awaitRegs id regs).Plain := by
  refine ⟨?_, h.phaz, h.xhaz⟩
  have : ∀ rs : List Nat, rs.foldl (fun m r => mapErase r m) ([] : SMap Hazard) = [] := by
    intro rs
    induction rs with
    | nil => rfl
    | cons r rs ih => exact ih
  simp only [Thread.awaitRegs, h.vhaz, this]

/-! ## Loads of the lanes in turn (R130, R226) -/

/-- An operation of the number is in flight for the lane, of a load of the form in a lane that `s` and `g` describe. -/
def LoadOf (f : MForm) (s : State) (gid : Nat) (g : Group) (pa : Nat → Nat) (t : State) (id l : Nat) (th : Thread) :
    Prop :=
  ∃ p ds, HasForwarded (s.core g.core) gid (Order.ofCode f.order.toNat == .weak) (.mem (pa l)) f.bytes ds ∧
    InFlight t id gid [l] (.vec l (regsOf g th f.data)) ds (f.at_ g th).2 th.pc p

theorem LoadOf.later {f : MForm} {s : State} {gid : Nat} {g : Group} {pa : Nat → Nat} {m t : State} {id l : Nat}
    {th : Thread} (h : LoadOf f s gid g pa m id l th) {c q : Nat} (hl : Loading gid c q m t) (hid : id < m.seq) :
    LoadOf f s gid g pa t id l th := by
  obtain ⟨p, ds, hds, hp⟩ := h
  exact ⟨p, ds, hds, hp.later hl hid⟩

/-- The lane may load: its registers are there, it may have one more load, and the access is granted. -/
def MayLoad (f : MForm) (s : State) (g : Group) (pa : Nat → Nat) (l : Nat) (t : Thread) : Prop :=
  t.Settled ∧ f.ready g t [f.data] ∧ Granted s g (f.at_ g t).1 .read (f.at_ g t).2 f.bytes (pa l)

section Turns
variable {f : MForm} {s : State} {gid : Nat} {g : Group} {pa : Nat → Nat} (hcoh : Coherent s g.core g.part)
include hcoh

/-- One lane's turn. -/
theorem loadLane_issues {m : State} {h k : Group} {l : Nat} {t : Thread} (hm : Loading gid g.core g.part s m)
    (hg : m.group? gid = some h) (hk : OnlyThreads g k) (hx : ReadsAs k h) (ht : k.thread? l = some t)
    (hmay : MayLoad f s g pa l t) :
    ∃ id m' h', loadLane f gid m l t = .done m' (.next false) ∧ Loading gid g.core g.part m m' ∧
      m'.group? gid = some h' ∧ ReadsAs (k.setThread l (·.awaitRegs id (regsOf g t f.data))) h' ∧
      m.seq ≤ id ∧ id < m'.seq ∧ LoadOf f s gid g pa m' id l t := by
  obtain ⟨hs, ⟨hready, hloads⟩, hgrant⟩ := hmay
  have hframe : TrapFrame g h := hk.trapFrame.trans hx.trapFrame
  obtain ⟨hcore, hpart⟩ := hframe.sameCore
  obtain ⟨hreg, u, haccess, honly, hcohu⟩ := granted_check (deny := fun _ => false) hgrant hm.rules (hm.coherent hcoh)
    rfl
  have hlu : Loading gid g.core g.part m u := loading_onlyTlb honly hcohu
  have hgu : u.group? gid = some h := by rw [honly.rest]; exact hg
  obtain ⟨id, v, h', p, ds, hstart, hlv, hgv, hxv, hid, hidv, hds, hp⟩ := startLoad_starts hgu h [l]
    (.vec l (regsOf g t f.data)) (Order.ofCode f.order.toNat) (f.at_ g t).1.objid (.mem (pa l)) f.bytes (f.at_ g t).2
  rw [hcore, hpart] at hlv
  rw [hcore] at hds
  obtain ⟨t', ht', hread⟩ := hx.thread' ht
  have hpc : pcAt h [l] = t.pc := by
    have hsame : t'.pc = t.pc := by rw [Thread.asRead_fields hread]
    simp [pcAt, ht', hsame]
  rw [hpc] at hp
  have hv : Loading gid g.core g.part v (v.setThread gid l (·.awaitRegs id (regsOf g t f.data))) := loading_setGroup v _
  refine ⟨id, _, h'.setThread l (·.awaitRegs id (regsOf g t f.data)), ?_, hlu.trans (hlv.trans hv), ?_,
    (hx.trans hxv).setThread l fun _ => rfl, hlu.seq.trans hid, hidv, p, ds, ?_, hp.later hv hidv⟩
  · have hops := loadOperands_settled hs hready f.scale.toNat (f.off.signExtend 64)
    obtain ⟨hcr, hca⟩ := hframe.checks m (f.at_ g t).1 [0, 3] .read (f.at_ g t).2 f.bytes f.bytes
    rw [hreg] at hcr
    rw [haccess] at hca
    simp only [MForm.at_, MForm.bytes, MForm.data] at hops hcr hca hstart
    simp only [loadLane, hg, hframe.loadOperands, hops, if_neg (Nat.not_le.mpr hloads), hcr, hca, hstart]
    rfl
  · exact (group?_setGroup ..).trans (by rw [if_pos rfl, hgv]; rfl)
  · exact hds.congr (hm.trans hlu).entries

omit hcoh in
theorem onlyThreads_setThread (k : Group) (l : Nat) (f : Thread → Thread) : OnlyThreads k (k.setThread l f) := rfl

/-- What the turns of lanes have led to: each waits for an operation of its own. -/
structure Issued (f : MForm) (s : State) (gid : Nat) (g : Group) (pa : Nat → Nat) (xs : List (Nat × Thread)) (m : State)
    (k : Group) (ids : Nat → Nat) (m' : State) (k' : Group) : Prop where
  loading : Loading gid g.core g.part m m'
  frame : OnlyThreads k k'
  length : k'.threads.length = k.threads.length
  others : ∀ l, l ∉ xs.map (·.1) → k'.thread? l = k.thread? l
  waits : ∀ x ∈ xs, k'.thread? x.1 = some (x.2.awaitRegs (ids x.1) (regsOf g x.2 f.data))
  fresh : ∀ x ∈ xs, m.seq ≤ ids x.1 ∧ ids x.1 < m'.seq
  loads : ∀ x ∈ xs, LoadOf f s gid g pa m' (ids x.1) x.1 x.2
  apart : ∀ x ∈ xs, ∀ y ∈ xs, ids y.1 = ids x.1 → y.1 = x.1

/-- The lanes in turn. -/
theorem loadLanes_issue : ∀ (xs : List (Nat × Thread)) (m : State) (h k : Group), (xs.map (·.1)).Nodup →
    Loading gid g.core g.part s m → m.group? gid = some h → OnlyThreads g k → ReadsAs k h →
    (∀ x ∈ xs, k.thread? x.1 = some x.2 ∧ MayLoad f s g pa x.1 x.2) →
    ∃ ids m' h' k', seqLanes (loadLane f gid) xs m = some (m', xs.map fun x => (x.1, .next false)) ∧
      m'.group? gid = some h' ∧ ReadsAs k' h' ∧ Issued f s gid g pa xs m k ids m' k'
  | [], m, h, k, _, _, hg, _, hx, _ =>
    ⟨fun _ => 0, m, h, k, rfl, hg, hx, .refl m, .refl k, rfl, fun _ _ => rfl, by simp, by simp, by simp, by simp⟩
  | (l, t) :: xs, m, h, k, hn, hm, hg, hk, hx, hall => by
    obtain ⟨hl, hn'⟩ : l ∉ xs.map (·.1) ∧ (xs.map (·.1)).Nodup := List.nodup_cons.mp hn
    obtain ⟨⟨ht, hmay⟩, hrest⟩ := List.forall_mem_cons.mp hall
    obtain ⟨id, m1, h1, hfn, hlm1, hg1, hx1, hid, hid1, hload⟩ := loadLane_issues hcoh hm hg hk hx ht hmay
    have hne : ∀ x ∈ xs, x.1 ≠ l := fun x hx e => hl (e ▸ List.mem_map_of_mem (f := (·.1)) hx)
    obtain ⟨ids, m', h', k', hseq, hg', hx', hi⟩ := loadLanes_issue xs m1 h1 _ hn' (hm.trans hlm1) hg1
      (hk.trans (onlyThreads_setThread k l _)) hx1 fun x hx =>
        ⟨by rw [thread?_setThread, if_neg (hne x hx)]; exact (hrest x hx).1, (hrest x hx).2⟩
    have hhead : (Function.update ids l id) l = id := Function.update_self ..
    have htail : ∀ x ∈ xs, Function.update ids l id x.1 = ids x.1 := fun x hx => Function.update_of_ne (hne x hx) ..
    have hlt : ∀ x ∈ xs, id < ids x.1 := fun x hx => hid1.trans_le (hi.fresh x hx).1
    refine ⟨Function.update ids l id, m', h', k', ?_, hg', hx',
      { loading := hlm1.trans hi.loading
        frame := (onlyThreads_setThread k l _).trans hi.frame
        length := ?length
        others := fun j hj => ?others
        waits := ?waits
        fresh := ?fresh
        loads := ?loads
        apart := ?apart }⟩
    · simp only [seqLanes, hfn, hseq, Option.map_some, List.map_cons]
    case length => rw [hi.length, setThread_threads_length]
    case others =>
      simp only [List.map_cons, List.mem_cons, not_or] at hj
      rw [hi.others j hj.2, thread?_setThread, if_neg hj.1]
    case waits =>
      refine List.forall_mem_cons.mpr ⟨?_, fun x hx => by rw [htail x hx]; exact hi.waits x hx⟩
      rw [hhead, hi.others l hl, thread?_setThread, if_pos rfl, ht]
      rfl
    case fresh =>
      refine List.forall_mem_cons.mpr ⟨?_, fun x hx => ?_⟩
      · rw [hhead]
        exact ⟨hid, hid1.trans_le hi.loading.seq⟩
      · rw [htail x hx]
        exact ⟨hid.trans (hlt x hx).le, (hi.fresh x hx).2⟩
    case loads =>
      refine List.forall_mem_cons.mpr ⟨?_, fun x hx => by rw [htail x hx]; exact hi.loads x hx⟩
      rw [hhead]
      exact hload.later hi.loading hid1
    case apart =>
      refine List.forall_mem_cons.mpr ⟨List.forall_mem_cons.mpr ⟨fun _ => rfl, fun y hy e => ?_⟩, fun x hx =>
        List.forall_mem_cons.mpr ⟨fun e => ?_, fun y hy e => ?_⟩⟩
      · rw [hhead, htail y hy] at e
        exact absurd e (hlt y hy).ne'
      · rw [hhead, htail x hx] at e
        exact absurd e (hlt x hx).ne
      · rw [htail x hx, htail y hy] at e
        exact hi.apart x hx y hy e

end Turns

end Sys2Proof.Machine
end

-- ==== Proofs: LD, LDU and ALD (O14) ====
section
namespace Sys2Proof.Machine

/-! ## LD (R130, R224, R226) -/

theorem ofCode_weak {n : Nat} (o : BitVec n) : (Order.ofCode o.toNat == .weak) = decide (o = 0) := by
  by_cases h : o = 0
  · subst h
    simp [Order.ofCode]
  · have hz : o.toNat ≠ 0 := fun e => h (BitVec.eq_of_toNat_eq (by simpa using e))
    have hne : Order.ofCode o.toNat ≠ .weak := by
      unfold Order.ofCode
      split <;> simp_all
    rw [beq_eq_false_iff_ne.mpr hne, decide_eq_false h]

theorem HasForwarded.hasOwn {s : State} {core gid pa n : Nat} {weak : Bool} {ds : List (Option Byte)} {p : Pend}
    (h : HasForwarded (s.core core) gid weak (.mem pa) n ds) (hp : p.data = ds) : HasOwn s core gid weak p pa n := by
  unfold HasOwn
  rw [hp]
  exact ⟨h.length, h.bytes⟩

section Ld
variable {f : MForm} {s m k : State} {gid fid : Nat} {g k' : Group} {pa ids : Nat → Nat}

/-- What a lane of the fragment becomes before it goes on: it waits where it executes. -/
def awaiting (f : MForm) (g : Group) (ids : Nat → Nat) (l : Nat) (t : Thread) : Thread :=
  if laneActive g false f.pred t then t.awaitRegs (ids l) (regsOf g t f.data) else t

theorem awaiting_stands (l : Nat) (t : Thread) :
    (awaiting f g ids l t).st = t.st ∧ (awaiting f g ids l t).frag = t.frag := by
  unfold awaiting
  split <;> exact ⟨rfl, rfl⟩

theorem awaiting_plain {t : Thread} (h : t.Plain) (l : Nat) : (awaiting f g ids l t).Plain := by
  unfold awaiting
  split
  · exact awaitRegs_plain h _ _
  · exact h

theorem Issued.lanesAfter (hi : Issued f s gid g pa (executing g fid false f.pred) m g ids k k') :
    LanesAfter (g.fragLanes fid) (awaiting f g ids) g k' := by
  have hmem : ∀ l t, (l, t) ∈ executing g fid false f.pred ↔
      l ∈ g.fragLanes fid ∧ g.thread? l = some t ∧ laneActive g false f.pred t = true := fun l t =>
    mem_actives (sh := memShape f [])
  have hout : ∀ l, (∀ t, (l, t) ∉ executing g fid false f.pred) → k'.thread? l = g.thread? l := fun l h =>
    hi.others l fun hl => by
      obtain ⟨x, hx, rfl⟩ := List.mem_map.mp hl
      exact h x.2 hx
  intro l
  by_cases hl : l ∈ g.fragLanes fid
  · obtain ⟨t, ht, -⟩ := mem_fragLanes.mp hl
    rw [if_pos hl, ht, Option.map_some, awaiting]
    by_cases ha : laneActive g false f.pred t = true
    · rw [if_pos ha]
      exact hi.waits (l, t) ((hmem l t).mpr ⟨hl, ht, ha⟩)
    · rw [if_neg ha, hout l fun u hu => ?_, ht]
      obtain ⟨-, hu', hau⟩ := (hmem l u).mp hu
      rw [ht] at hu'
      cases hu'
      exact ha hau
  · rw [if_neg hl]
    exact hout l fun u hu => hl ((hmem l u).mp hu).1

theorem ld_awaits (hc : Calm s gid fid g) (hcoh : Coherent s g.core g.part)
    (hguard : laneGuard g false f.pred [f.data] false = none)
    (hready : ∀ l t, (l, t) ∈ executing g fid false f.pred → f.ready g t [f.data] ∧
      Granted s g (f.at_ g t).1 .read (f.at_ g t).2 f.bytes (pa l)) :
    LanesAwait (.ld f) s gid fid g f.pred false (fun id _ t => t.awaitRegs id (regsOf g t f.data)) fun t id l th =>
      ∃ p, mapFind id t.pends = some p ∧ p.id = id ∧ p.gid = gid ∧ p.lanes = [l] ∧
        p.dest = .vec l (regsOf g th f.data) ∧ p.ea = (f.at_ g th).2 ∧ p.pc = th.pc ∧ 1 ≤ p.wait ∧
          HasOwn s g.core gid (decide (f.order = 0)) p (pa l) f.bytes := by
  have hset := hc.executing_settled (unpred := false) (pred := f.pred)
  obtain ⟨ids, m', h', k', hseq, hg', hx', hi⟩ := loadLanes_issue hcoh (executing g fid false f.pred) s g g
    (actives_nodup g fid (memShape f [])) (.refl s) hc.group (.refl g) (.refl g) fun x hx =>
      ⟨(mem_actives (sh := memShape f []) |>.mp hx).2.1, hset x hx, hready x.1 x.2 hx⟩
  have hafter := hi.lanesAfter
  have hlanes : h'.fragLanes fid = g.fragLanes fid :=
    (hx'.fragLanes fid).trans (fragLanes_map _ awaiting_stands _ hafter hi.length)
  have hplain : ∀ l ∈ g.fragLanes fid, ∀ t, h'.thread? l = some t → t.Plain := by
    intro l hl t ht
    obtain ⟨u, hu, hread⟩ := hx'.thread ht
    obtain ⟨th, hth, -⟩ := mem_fragLanes.mp hl
    rw [hafter l, if_pos hl, hth, Option.map_some, Option.some.injEq] at hu
    refine Thread.Plain.asRead ?_ hread
    rw [← hu]
    exact awaiting_plain (hc.plain l hl th hth) l
  obtain ⟨t, h0, hf, hg0, honly, hthr, hgo⟩ := seqFragment_goes (sh := memShape f [f.data]) hc hguard hseq hg' hlanes
    hplain
  obtain ⟨g', hxg, hkg, hgg⟩ := hx'.lanesAfter (f := fun _ th => th.goTo (th.pc + 8) false) (fragLanes_nodup g fid)
    (fun _ _ => rfl) hthr hgo
  refine ⟨ids, t, h0, g', show execLd f s = _ from issue_one hc hf, fun k hk => ?_, hg0, hxg.asRead_eq,
    hi.frame.trans hkg, fun l hl => ?_, fun l hl th hth => ?_, honly.mem.trans hi.loading.mem, fun l th hx => ⟨?_, ?_⟩⟩
  · rw [honly.others k hk, hi.loading.others k hk]
  · rw [hgg l, if_neg hl, hafter l, if_neg hl]
  · rw [hgg l, if_pos hl, hafter l, if_pos hl, hth, Option.map_some, awaiting]
    by_cases ha : laneActive g false f.pred th = true
    · simp only [if_pos ha, Option.map_some]
      rfl
    · simp only [if_neg ha, Option.map_some]
  · obtain ⟨p, ds, hds, hp⟩ := hi.loads (l, th) hx
    have hpends : t.pends = m'.pends := by rw [honly.rest]
    rw [ofCode_weak] at hds
    exact ⟨p, by rw [hpends]; exact hp.found, hp.id, hp.gid, hp.lanes, hp.dest, hp.ea, hp.pc, hp.wait,
      hds.hasOwn hp.data⟩
  · exact fun k th' hk e => hi.apart (l, th) hx (k, th') hk e

end Ld

/-! ## LDU and ALD -/

theorem memUniAddr_quiet {g : Group} (hq : g.Quiet) (f : MForm) : memUniAddr g f = .ok (f.uniAt g) := by
  have hidx : readUniIndex g f.idx = .ok (if f.idx = noIndex then 0 else mapGet 0 g.s f.idx.toNat) := by
    unfold readUniIndex
    split
    · rfl
    · exact readS_quiet hq _
  simp only [memUniAddr, uniAddr, readA_quiet hq, hidx]
  rfl

section Uni
variable {f : MForm} {s : State} {gid fid : Nat} {g : Group}

/-- A granted uniform load, whose registers wait as `await` says. -/
theorem uniLoad_awaits (hc : Calm s gid fid g) (hcoh : Coherent s g.core g.part) (hq : g.Quiet)
    (ha : uniActive g f.pred = true) {i : Instr} {n pa : Nat} {dest : Dest} {checks : Bool}
    {await : Nat → Group → Group} (hi : exec i s = uniLoad f n dest checks await s)
    (hthr : ∀ id k, (await id k).threads = k.threads) (hread : ∀ id k, (await id k).asRead = await id k.asRead)
    (hgrant : Granted s g (f.uniAt g).1 .read (f.uniAt g).2 n pa) :
    ∃ id m, m.mem = s.mem ∧ (∀ k, k ≠ gid → m.group? k = s.group? k) ∧
      GroupStores i s m gid fid 8 false (await id g) ∧
      ∃ p, mapFind id m.pends = some p ∧ p.id = id ∧ p.gid = gid ∧ p.lanes = g.fragLanes fid ∧ p.dest = dest ∧
        p.ea = (f.uniAt g).2 ∧ 1 ≤ p.wait ∧ HasOwn s g.core gid (decide (f.order = 0)) p pa n := by
  obtain ⟨hreg, u, haccess, honly, hcohu⟩ := granted_check (deny := fun _ => false) hgrant (.refl s) hcoh rfl
  have hlu : Loading gid g.core g.part s u := loading_onlyTlb honly hcohu
  have hgu : u.group? gid = some g := by rw [honly.rest]; exact hc.group
  obtain ⟨id, v, h', p, ds, hstart, hlv, hgv, hx, -, -, hds, hp⟩ := startLoad_starts hgu g (g.fragLanes fid) dest
    (Order.ofCode f.order.toNat) (f.uniAt g).1.objid (.mem pa) n (f.uniAt g).2
  set m := v.setGroup gid (await id) with hm
  have hlm : Loading gid g.core g.part s m := hlu.trans (hlv.trans (loading_setGroup v _))
  have hgm : m.group? gid = some (await id h') := (group?_setGroup ..).trans (by rw [if_pos rfl, hgv]; rfl)
  have hthread : ∀ l, (await id h').thread? l = h'.thread? l := fun l => by unfold Group.thread?; rw [hthr]
  have hlanes : (await id h').fragLanes fid = g.fragLanes fid :=
    (fragLanes_congr (hthr id h') fid).trans (hx.fragLanes fid)
  refine ⟨id, m, hlm.mem, hlm.others, ⟨await id h', by rw [hread, hx.asRead_eq, ← hread], ?_⟩, p, hp.found, hp.id,
    hp.gid, hp.lanes, hp.dest, hp.ea, hp.wait, ?_⟩
  · refine uniInstr_done hc hi rfl ha ?_ hgm hlanes fun l hl t ht => ?_
    · have hsound := residueCheck_sound u g (hlu.residue.trans hc.sound)
      simp only [memUniAddr_quiet hq, hreg, haccess, State.checked, hsound, hstart]
      cases checks <;> rfl
    · obtain ⟨w, hw, hread'⟩ := hx.thread ((hthread l).symm.trans ht)
      exact (hc.settled l (hlanes ▸ hl) w hw).asRead hread'
  · rw [← ofCode_weak]
    exact (hds.congr hlu.entries).hasOwn hp.data

theorem ldu_exec (f : MForm) (s : State) : exec (.ldu f) s =
    uniLoad f f.bytes (.uni (uniRun f.d.toNat (sizeRun f.size.toNat))) false (fun id g =>
      { g with stag := (uniRun f.d.toNat (sizeRun f.size.toNat)).foldl (fun m r => mapInsert r id m) g.stag }) s := rfl

theorem ald_exec (f : MForm) (s : State) : exec (.ald f) s =
    uniLoad f 32 (.addr f.d.toNat) true (fun id g => { g with atag := mapInsert f.d.toNat id g.atag }) s := rfl

theorem uniLoad_skips (hc : Calm s gid fid g) (ha : uniActive g f.pred = false) :
    GroupEffect (.ldu f) s s gid fid 8 false g ∧ GroupEffect (.ald f) s s gid fid 8 false g :=
  ⟨uniInstr_skip hc (ldu_exec f s) rfl ha, uniInstr_skip hc (ald_exec f s) rfl ha⟩

end Uni

end Sys2Proof.Machine
end

-- ==== Proofs: PREF, and loads together (O14) ====
section
namespace Sys2Proof.Machine

/-! ## PREF (R227) -/

/-- What a prefetch changes: caches of translations, and sectors asked for the L1. -/
structure Prefetched (core : Nat) (s t : State) : Prop where
  mem : t.mem = s.mem
  groups : t.groups = s.groups
  net : ∃ rs, t.net = s.net ++ rs ∧ ∀ r ∈ rs, r.core = core ∧ ∃ pa, r.kind = .fill pa true

theorem Prefetched.trans {core : Nat} {s t u : State} (x : Prefetched core s t) (y : Prefetched core t u) :
    Prefetched core s u := by
  obtain ⟨rs, hr, hrs⟩ := x.net
  obtain ⟨qs, hq, hqs⟩ := y.net
  refine ⟨y.mem.trans x.mem, y.groups.trans x.groups, rs ++ qs, by rw [hq, hr, List.append_assoc], fun r h => ?_⟩
  exact (List.mem_append.mp h).elim (hrs r) (hqs r)

/-- Checks may fill the caches of translations, whatever these hold. -/
theorem translate_only (s : State) (core part va : Nat) : OnlyTlb s (s.translate core part va).2 := by
  have walked : ∀ u : State, OnlyTlb s u → OnlyTlb s (match u.walk part va with
      | some e => (some e, u.tlbFill core e)
      | none => (none, u)).2 := by
    intro u hu
    cases u.walk part va with
    | none => exact hu
    | some e => exact hu.trans (tlbFill_only u core e)
  have picked : OnlyTlb s (s.pick 2).2 := ⟨rfl, fun _ => rfl⟩
  unfold State.translate
  dsimp only
  split
  · split
    · exact picked.trans (tlbFill_only _ core _)
    · exact walked _ picked
  · exact walked s (.refl s)

theorem checkAccess_only (s : State) (g : Group) (a : AddrReg) (acc : Access) (ea : DWord) (n align : Nat) :
    OnlyTlb s (s.checkAccess g a acc ea n align).2 := by
  have page : OnlyTlb s (s.checkPage g a acc ea n).2 := by
    unfold State.checkPage
    split
    · exact .refl s
    · have h := translate_only s g.core g.part ea.toNat
      split <;> (rename_i he; rw [he] at h; exact h)
  unfold State.checkAccess
  split
  · exact .refl s
  · unfold State.checkGlobal
    split <;> (rename_i he; rw [he] at page; exact page)

theorem OnlyTlb.prefetched {s t : State} (h : OnlyTlb s t) (core : Nat) : Prefetched core s t := by
  refine ⟨?_, ?_, [], ?_, by simp⟩ <;> rw [h.rest]
  exact (List.append_nil _).symm

/-- The sectors that a prefetch asks for. -/
theorem fills_prefetched (core gid part : Nat) (want : List (Place × Nat × Nat × Nat)) (s : State) :
    Prefetched core s (want.foldl (fun s (q, _) =>
      match q with
      | .mem a => s.post core q.slice gid part (.fill a true)
      | .spad _ _ _ => s) s) := by
  refine List.foldlRecOn want _ (motive := Prefetched core s) ((OnlyTlb.refl s).prefetched core) fun t ht x _ =>
    ht.trans ?_
  obtain ⟨q, w⟩ := x
  cases q with
  | mem a => exact ⟨rfl, rfl, _, rfl, by simp⟩
  | spad b i o => exact (OnlyTlb.refl t).prefetched core

section Pref
variable {f : MForm} {gid : Nat} {g : Group} (hatag : mapFind f.areg.toNat g.atag = none)
include hatag

/-- A settled lane's address is there, or its index register is not the group's: nothing holds PREF. -/
theorem memLaneAddr_settled {t : Thread} (hs : t.Settled) :
    (∃ x, memLaneAddr g t f = .ok x) ∨ ∃ r, memLaneAddr g t f = .error (.raise r) := by
  have hidx : (∃ x, readIndex g t f.idx = .ok x) ∨ ∃ r, readIndex g t f.idx = .error (.raise r) := by
    unfold readIndex readVec physReg
    dsimp only
    split
    · exact .inl ⟨_, rfl⟩
    · generalize (if g.region && isMeldCode g.enc f.idx.toNat then _ else _ : Nat) = r
      by_cases hr : r < g.vregs
      · simp only [if_pos hr]
        exact .inl ⟨_, readReg_settled hs g r⟩
      · simp only [if_neg hr]
        exact .inr ⟨_, rfl⟩
  have ha : readA g f.areg.toNat = .ok (mapGet {} g.a f.areg.toNat) := by simp [readA, hatag]
  unfold memLaneAddr laneAddr
  rcases hidx with ⟨x, hx⟩ | ⟨r, hr⟩
  · simp only [ha, hx]
    exact .inl ⟨_, rfl⟩
  · simp only [ha, hr]
    exact .inr ⟨_, rfl⟩

theorem prefLane_goes {m : State} (hg : m.group? gid = some g) (l : Nat) {t : Thread} (hs : t.Settled) :
    ∃ m', Prefetched g.core m m' ∧
      (prefLane f gid m l t = .done m' (.next false) ∨ m' = m ∧ prefLane f gid m l t = .stop (.next false)) := by
  have same : Prefetched g.core m m := (OnlyTlb.refl m).prefetched g.core
  unfold prefLane
  rcases memLaneAddr_settled hatag hs with ⟨⟨a, ea⟩, haddr⟩ | ⟨r, haddr⟩
  · simp only [hg, haddr]
    split
    · exact ⟨m, same, .inr ⟨rfl, rfl⟩⟩
    · have hcheck := checkAccess_only m g a .read ea (sizeBytes f.size) (sizeBytes f.size)
      generalize m.checkAccess g a .read ea (sizeBytes f.size) (sizeBytes f.size) = r at hcheck
      obtain ⟨v, u⟩ := r
      have hu : Prefetched g.core m u := hcheck.prefetched g.core
      cases v with
      | error c => exact ⟨u, hu, .inl rfl⟩
      | ok pa =>
        dsimp only
        split
        · exact ⟨_, hu.trans (fills_prefetched ..), .inl rfl⟩
        · exact ⟨u, hu, .inl rfl⟩
  · simp only [hg, haddr]
    exact ⟨m, same, .inr ⟨rfl, trivial⟩⟩

theorem prefLanes_go : ∀ (xs : List (Nat × Thread)) (m : State), m.group? gid = some g → (∀ x ∈ xs, x.2.Settled) →
    ∃ m', seqLanes (prefLane f gid) xs m = some (m', xs.map fun x => (x.1, .next false)) ∧ Prefetched g.core m m'
  | [], m, _, _ => ⟨m, rfl, (OnlyTlb.refl m).prefetched g.core⟩
  | (l, t) :: xs, m, hg, hs => by
    obtain ⟨ht, hxs⟩ := List.forall_mem_cons.mp hs
    obtain ⟨m1, h1, hfn⟩ := prefLane_goes hatag hg l ht
    have hg1 : m1.group? gid = some g := by unfold State.group? at hg ⊢; rw [h1.groups]; exact hg
    obtain ⟨m', hseq, h'⟩ := prefLanes_go xs m1 hg1 hxs
    refine ⟨m', ?_, h1.trans h'⟩
    rcases hfn with hfn | ⟨rfl, hfn⟩ <;> simp only [seqLanes, hfn, hseq, Option.map_some, List.map_cons]

theorem pref_goes {s : State} {fid : Nat} (hc : Calm s gid fid g) (hguard : laneGuard g false f.pred [] false = none) :
    LanesGo (.pref f) s gid fid g f.pred g (fun _ t => t) (fun _ _ => false) fun t =>
      t.mem = s.mem ∧ ∃ rs, t.net = s.net ++ rs ∧ ∀ r ∈ rs, r.core = g.core ∧ ∃ pa, r.kind = .fill pa true := by
  obtain ⟨m, hseq, hm⟩ := prefLanes_go hatag (executing g fid false f.pred) s hc.group hc.executing_settled
  have hgrp : ∀ k, m.group? k = s.group? k := fun k => by unfold State.group?; rw [hm.groups]
  obtain ⟨t, h, hf, hg, honly, hthr, hl⟩ := seqFragment_goes (sh := memShape f []) hc hguard hseq
    ((hgrp gid).trans hc.group) rfl hc.plain
  refine lanesGo_of (show execPref f s = _ from issue_one hc hf) hg (fun k hk => (honly.others k hk).trans (hgrp k))
    hthr hl ⟨honly.mem.trans hm.mem, ?_⟩
  rw [show t.net = m.net by rw [honly.rest]]
  exact hm.net

end Pref

/-- Settles O14: the lanes of an LD in turn each start a load (`loadLanes_issue`), whose operation is in flight with
what the core's buffers forwarded and stays so while later lanes start theirs (`LoadOf.later`); LDU and ALD start one
for the group (`uniLoad_awaits`); no lane of a PREF is held, and it only asks for sectors (`prefLane_goes`). -/
theorem loadResults : Obligations.LoadResults := by
  refine ⟨?loads, fun f s gid fid g hc hguard hatag => pref_goes hatag hc hguard⟩
  case loads =>
    intro f s gid fid g hc hcoh weak
    refine ⟨fun hguard pa hready => ld_awaits hc hcoh hguard hready, fun hq ha i n pa dest await hform hgrant => ?_,
      uniLoad_skips hc⟩
    rcases hform with ⟨rfl, rfl, rfl, rfl⟩ | ⟨rfl, rfl, rfl, rfl⟩
    · exact uniLoad_awaits hc hcoh hq ha (ldu_exec f s) (fun _ _ => rfl) (fun _ _ => rfl) hgrant
    · exact uniLoad_awaits hc hcoh hq ha (ald_exec f s) (fun _ _ => rfl) (fun _ _ => rfl) hgrant

end Sys2Proof.Machine
end

-- ==== Proofs: uniform arithmetic and bits (O8) ====
section
namespace Sys2Proof.Machine

/-! ## Results of the uniform set (R155, R158) -/

@[simp] theorem uniValue_single (g : Group) (k : Nat) : uniValue g (k, false) = (mapGet 0 g.s k).toNat := rfl

@[simp] theorem putSWide_single (g : Group) (k : Nat) (w : Word) : g.putSWide false k w.toNat = g.putS k w := by
  rw [Group.putSWide, BitVec.ofNat_toNat, BitVec.setWidth_eq]
  rfl

@[simp] theorem putSWide_threads (g : Group) (wide : Bool) (k x : Nat) : (g.putSWide wide k x).threads = g.threads := by
  cases wide <;> rfl

/-- A form of the uniform set that calculates a register or pair. -/
theorem uniCalc_of {i : Instr} {len : DWord} {pred : BitVec 4} {d : Nat} {wide : Bool} {srcs : List (Nat × Bool)}
    {r : List Nat → Nat} (hi : ∀ s, exec i s = uniCalc len pred d wide srcs r s) :
    UniCalc i len pred d wide srcs r := uniCompletes_calc hi

/-- A compact form of two sources. -/
theorem uniCompactCompletes_of {i : Instr} {f : CForm} {r : Nat → Nat → Nat}
    (hi : ∀ s, exec i s = uniCompact2 f r s) : UniCompactCompletes i f r := uniCalc_of hi

/-- A form that calculates one register, told by the word that it writes. -/
theorem uniCompletes_word {i : Instr} {len : DWord} {pred : BitVec 4} {d : Nat} {srcs : List (Nat × Bool)}
    {r : List Nat → Nat} {w : Group → Word} (hi : ∀ s, exec i s = uniCalc len pred d false srcs r s)
    (hw : ∀ g, r (srcs.map (uniValue g)) = (w g).toNat) :
    UniCompletes i len pred Group.Quiet fun g => g.putS d (w g) := by
  have h := uniCompletes_calc hi
  simpa only [hw, putSWide_single] using h

/-! ## The forms that are no calculation of a register or pair from numbers alone -/

/-- UCMP writes the uniform predicate that D names. -/
theorem ucmp_completes (f : RForm) : UniCompletes (.ucmp f) 8 f.pred Group.Quiet fun g =>
    g.putQ f.d.toNat (intCmp f.c.toNat
      (toInt (tySigned f.ty.toNat) (tyWidth f.ty.toNat) (uniValue g (f.a.toNat, wideType f.ty)))
      (toInt (tySigned f.ty.toNat) (tyWidth f.ty.toNat) (uniValue g (f.b.toNat, wideType f.ty)))) := by
  refine uniCompletes_regs (fun _ => rfl) (fun g hq => ?_) fun _ => rfl
  rw [readUnis_quiet hq]
  rfl

/-- USEL reads both sources and writes the one that its predicate chooses. -/
theorem usel_completes (f : RForm) : UniCompletes (.usel f) 8 f.pred Group.Quiet fun g =>
    g.putS f.d.toNat (mapGet 0 g.s (if getBit8 g.q f.c.toNat then f.a.toNat else f.b.toNat)) := by
  refine uniCompletes_regs (fun _ => rfl) (fun g hq => ?_) fun _ => rfl
  rw [readUnis_quiet hq, Except.map]
  by_cases hc : getBit8 g.q f.c.toNat = true
  · rw [if_pos hc, if_pos hc]
    exact congrArg Except.ok (putSWide_single g _ _)
  · rw [if_neg hc, if_neg hc]
    exact congrArg Except.ok (putSWide_single g _ _)

theorem unot_completes (f : RForm) : UniCompletes (.unot f) 8 f.pred Group.Quiet fun g =>
    g.putS f.d.toNat (~~~(mapGet 0 g.s f.a.toNat)) :=
  uniCompletes_word (fun _ => rfl) fun g => by simp

/-- Settles O8: the arithmetic, the bit operations and the shifts are each one calculation on uniform registers or pairs,
with the element results of the lane set's forms and, in a compact form, of the 32-bit type (R34); UCMP writes a
predicate, and USEL chooses by one. -/
theorem uniformResults : Obligations.UniformResults := by
  refine ⟨fun f => ?full, fun f => ?compact⟩
  case full =>
    refine ⟨?uadd, ?usub, ?umul, ?umulh, ?umin, ?umax, ?umad, ucmp_completes f, usel_completes f, ?uand, ?uor, ?uxor,
      unot_completes f, ?ushl, ?ushr, ?usar, ?upopc, ?uclz⟩
    all_goals exact uniCalc_of fun _ => rfl
  case compact =>
    refine ⟨?add, ?sub, ?mul, ?min, ?max, ?and, ?or, ?xor, ?shl, ?shr, ?sar, ?mov, ?mad⟩
    case mov => exact uniCompletes_word (fun _ => rfl) fun _ => rfl
    case mad => exact uniCalc_of fun _ => rfl
    all_goals exact uniCompactCompletes_of fun _ => rfl

end Sys2Proof.Machine
end

-- ==== Proofs: the frame of uniform instructions that act on more than registers of their group (O9) ====
section
namespace Sys2Proof.Machine

/-- A checked operation that no residue mismatch meets (R172, R302). -/
theorem checked_sound {s : State} (h : s.residue = 0) (g : Group) (fn : State → UniOut) : s.checked g fn = fn s := by
  simp only [State.checked, residueCheck_sound s g h, if_true]

section Frame
variable {i : Instr} {s m : State} {gid fid : Nat} {g : Group} {len : DWord} {pred : BitVec 4}
  {fn : State → Nat → Group → List Nat → UniOut}

/-- What completes after an update of its group completes from the state before that update. -/
theorem GroupEffect.of_setGroup {o : Bool} {g1 : Group} {upd : Group → Group}
    (h : GroupEffect i s (m.setGroup gid upd) gid fid len o g1) : GroupEffect i s m gid fid len o g1 := by
  obtain ⟨t, k, hx, honly, hg, hthr, hafter⟩ := h
  exact ⟨t, k, hx, (onlyGroup_setGroup m gid upd).trans honly, hg, hthr, hafter⟩

/-- A uniform-set instruction whose group executes it and changes in none of its threads, from `m`. -/
theorem uniInstr_updates {upd : Group → Group} (hc : Calm s gid fid g) (hi : exec i s = uniInstr len pred false fn s)
    (ha : uniActive g pred = true) (hm : m.group? gid = some g)
    (hfn : fn s gid g (g.fragLanes fid) = .done (m.setGroup gid upd) (.next false))
    (hu : ∀ k, (upd k).threads = k.threads) : GroupEffect i s m gid fid len false (upd g) := by
  have hthread : ∀ l, (upd g).thread? l = g.thread? l := fun l => by unfold Group.thread?; rw [hu]
  have hlanes := fragLanes_congr (hu g) fid
  refine (uniInstr_done hc hi rfl ha hfn ?_ hlanes fun l hl t ht => ?_).of_setGroup
  · rw [group?_setGroup, if_pos rfl, hm]; rfl
  · exact hc.settled l (hlanes ▸ hl) t (hthread l ▸ ht)

end Frame

/-- A register write outside a latency leaves a settled thread settled. -/
theorem Thread.Settled.putReg {t : Thread} (h : t.Settled) (r : Nat) (x : Word) : (t.putReg 0 r x).Settled := by
  refine ⟨?_, h.ptag, ?_, ?_, h.phaz, h.xhaz⟩
  · simp [Thread.putReg, h.vtag, mapErase]
  · simp [Thread.putReg, h.fut, mapErase]
  · simp [Thread.putReg, h.vhaz, mapErase]

/-! ## A register of several lanes -/

/-- One vector register of each lane of a list takes the lane's value. -/
def Group.putLanes (g : Group) (ls : List Nat) (r : Nat) (value : Nat → Word) : Group :=
  ls.foldl (fun g l => g.setThread l fun t => t.putReg 0 r (value l)) g

theorem onlyThreads_putLanes (g : Group) (ls : List Nat) (r : Nat) (value : Nat → Word) :
    OnlyThreads g (g.putLanes ls r value) :=
  onlyThreads_foldl (fun l : Nat => l) (fun l t => t.putReg 0 r (value l)) ls g

theorem lanesAfter_putLanes (g : Group) (fid r : Nat) (value : Nat → Word) :
    LanesAfter (g.fragLanes fid) (fun l t => t.putReg 0 r (value l)) g (g.putLanes (g.fragLanes fid) r value) :=
  lanesAfter_foldl _ (fragLanes_nodup g fid) (fun l t => t.putReg 0 r (value l)) g

theorem fragLanes_putLanes (g : Group) (fid r : Nat) (value : Nat → Word) :
    (g.putLanes (g.fragLanes fid) r value).fragLanes fid = g.fragLanes fid := by
  obtain ⟨ts, hts, hlength⟩ := foldl_setThread (fun l : Nat => l) (fun l t => t.putReg 0 r (value l)) (g.fragLanes fid) g
  exact fragLanes_map (fun l t => t.putReg 0 r (value l)) (fun _ _ => ⟨rfl, rfl⟩) _ (lanesAfter_putLanes g fid r value)
    ((congrArg (·.threads.length) hts).trans hlength)

end Sys2Proof.Machine
end

-- ==== Proofs: uniform moves, predicates and special registers (O9) ====
section
namespace Sys2Proof.Machine

/-! ## Immediates and predicate logic (R160) -/

theorem umovi_completes (f : I16Form) :
    UniCompletes (.umovi f) 8 f.pred (fun _ => True) fun g => g.putS f.d.toNat (f.imm.signExtend 32) :=
  uniCompletes_regs (fun _ => rfl) (fun g _ => congrArg Except.ok (putSWide_single g _ _)) fun _ => rfl

/-- An immediate above the 16 low bits of a word, as a number and as bits. -/
theorem toNat_append_low (imm : BitVec 16) (w : Word) :
    (imm ++ w.extractLsb' 0 16).toNat = imm.toNat * 2 ^ 16 + w.toNat % 2 ^ 16 := by
  rw [BitVec.toNat_append, BitVec.extractLsb'_toNat, Nat.shiftRight_zero, Nat.shiftLeft_eq, mul_comm,
    Nat.two_pow_add_eq_or_of_lt (Nat.mod_lt _ (by decide)) imm.toNat]

theorem umovh_completes (f : I16Form) : UniCompletes (.umovh f) 8 f.pred Group.Quiet fun g =>
    g.putS f.d.toNat (f.imm ++ (mapGet 0 g.s f.d.toNat).extractLsb' 0 16) :=
  uniCompletes_word (fun _ => rfl) fun g => (toNat_append_low f.imm (mapGet 0 g.s f.d.toNat)).symm

theorem uplop_completes (f : RForm) : UniCompletes (.uplop f) 8 f.pred (fun _ => True) fun g =>
    g.putQ f.d.toNat (f.c.toNat.testBit
      ((if getBit8 g.q f.a.toNat then 2 else 0) + (if getBit8 g.q f.b.toNat then 1 else 0))) :=
  uniCompletes_regs (fun _ => rfl) (fun _ _ => rfl) fun _ => rfl

/-- What URSR of sr.lane (0) or sr.thread (1) reads in a lane (R162). -/
def laneNumber (g : Group) (n l : Nat) : Word := BitVec.ofNat 32 (if n = 0 then l else g.index * g.width + l)

section Calm
variable {s : State} {gid fid : Nat} {g : Group} (hc : Calm s gid fid g)
include hc

/-! ## Lane reads (R161) -/

theorem uread_effect (f : RForm) (hq : g.Quiet) (ha : uniActive g f.pred = true) (hr : f.a.toNat < g.vregs) :
    GroupEffect (.uread f) s s gid fid 8 false (g.putS f.d.toNat
      (if (mapGet 0 g.s f.b.toNat).toNat % g.width ∈ g.fragLanes fid then
        ((g.thread? ((mapGet 0 g.s f.b.toNat).toNat % g.width)).map fun t => mapGet 0 t.v f.a.toNat).getD 0
      else 0)) := by
  refine uniInstr_updates (upd := (·.putS f.d.toNat _)) hc rfl ha hc.group ?_ fun _ => rfl
  simp only [readS_quiet hq, if_neg (Nat.not_le.mpr hr), checked_sound hc.sound]
  generalize (mapGet 0 g.s f.b.toNat).toNat % g.width = l
  by_cases hl : l ∈ g.fragLanes fid
  · obtain ⟨t, ht, -⟩ := mem_fragLanes.mp hl
    have hset := hc.settled l hl t ht
    simp only [ht, List.contains_iff_mem.mpr hl, hset.vtag, mapFind_nil, readReg_settled hset, if_pos hl]
    rfl
  · have hout : (g.fragLanes fid).contains l = false := by simpa using hl
    cases ht : g.thread? l with
    | none => simp only [if_neg hl]
    | some t => simp only [hout, if_neg hl]; rfl

/-! ## Special registers (R162, R163) -/

theorem ursr_special (f : I16Form) (hn : 1 < f.imm.toNat) : GroupEffect (.ursr f) s s gid fid 8 false
    (if uniActive g f.pred then g.putS f.d.toNat (s.special g f.imm.toNat) else g) := by
  cases ha : uniActive g f.pred with
  | false => exact uniInstr_skip hc rfl rfl ha
  | true =>
    refine uniInstr_updates (upd := (·.putS f.d.toNat _)) hc rfl ha hc.group ?_ fun _ => rfl
    simp only [if_neg (Nat.not_le.mpr hn), checked_sound hc.sound]

/-- URSR of a lane's own number: every lane of the fragment has its own value. -/
theorem ursr_lanes (f : I16Form) (hn : f.imm.toNat ≤ 1) (ha : uniActive g f.pred = true) (hd : f.d.toNat < g.vregs) :
    LaneEffect (.ursr f) s gid fid g 8 true 7 0 fun _ l _ => { v := [(f.d.toNat, laneNumber g f.imm.toNat l)] } := by
  have hput := lanesAfter_putLanes g fid f.d.toNat (laneNumber g f.imm.toNat)
  have hlanes := fragLanes_putLanes g fid f.d.toNat (laneNumber g f.imm.toNat)
  have heffect : GroupEffect (.ursr f) s s gid fid 8 false
      (g.putLanes (g.fragLanes fid) f.d.toNat (laneNumber g f.imm.toNat)) := by
    refine (uniInstr_done (m := s.setGroup gid fun k => k.putLanes (g.fragLanes fid) f.d.toNat
      (laneNumber g f.imm.toNat)) hc rfl rfl ha ?_ ?_ hlanes fun l hl t ht => ?_).of_setGroup
    · simp only [if_pos hn, if_neg (Nat.not_le.mpr hd), checked_sound hc.sound]
      rfl
    · rw [group?_setGroup, if_pos rfl, hc.group]; rfl
    · rw [hput l, if_pos (hlanes ▸ hl)] at ht
      obtain ⟨u, hu, rfl⟩ := Option.map_eq_some_iff.mp ht
      exact (hc.settled l (hlanes ▸ hl) u hu).putReg _ _
  obtain ⟨t, h, hx, honly, hg, hthr, hafter⟩ := heffect
  rw [hlanes] at hafter
  refine ⟨fun _ => [], s, t, h, hx, fun _ _ => rfl, .refl s, fun _ => rfl, honly, hg,
    (onlyThreads_putLanes g _ _ _).trans hthr, fun l hl => ?_, fun l hl th hth => ?_⟩
  · rw [hafter l, if_neg hl, hput l, if_neg hl]
  · rw [hafter l, if_pos hl, hput l, if_pos hl, hth]
    exact ⟨_, rfl, apply_wrote (hc.settled l hl th hth) 0 { v := [(f.d.toNat, laneNumber g f.imm.toNat l)] } (th.pc + 8)⟩

/-- UWSR seeds every generator of the group's core (R76). -/
theorem uwsr_effect (f : I16Form) (hq : g.Quiet) (ha : uniActive g f.pred = true) :
    GroupEffect (.uwsr f) s (s.setCore g.core fun c =>
      { c with rng := (List.range (s.lanes g.part g.core)).map fun l => (l, srSeed (mapGet 0 g.s f.a.toNat) l) })
      gid fid 8 false g := by
  refine uniInstr_done hc rfl rfl ha ?_ ((group?_setCore ..).trans hc.group) rfl hc.settled
  simp only [readS_quiet hq, checked_sound hc.sound]
  rfl

/-- CCOUNT reads its core's counter, which has run on. -/
theorem ccount_effect (f : RForm) (ha : uniActive g f.pred = true) : ∃ n,
    GroupEffect (.ccount f) s
      ({ s with freeCtr := s.freeCtr + 1 }.setCore g.core fun c => { c with cycle := n }) gid fid 8 false
      (g.putSWide true f.d.toNat n.toNat) := by
  refine ⟨(s.core g.core).cycle + s.free.1 >>> 1,
    uniInstr_updates (upd := (·.putSWide true f.d.toNat _)) hc rfl ha ?_ ?_ fun k => putSWide_threads k _ _ _⟩
  · exact (group?_setCore ..).trans hc.group
  · simp only [checked_sound hc.sound, core_setCore, if_true]
    rfl

end Calm

end Sys2Proof.Machine
end

-- ==== Proofs: address registers, and uniform moves together (O9) ====
section
namespace Sys2Proof.Machine

/-! ## ADDR (R168 to R170) -/

theorem readAPair_quiet {g : Group} (hq : g.Quiet) (d a : Nat) :
    readAPair g d a = .ok (mapGet {} g.a d, BitVec.ofNat 64 (uniValue g (a, true))) := by
  simp only [readAPair, readPair, readA_quiet hq, readSWide_quiet hq (a, true)]
  rfl

/-- ADV stays in the range. -/
theorem advance_within {r : AddrReg} {x : Word} (hlo : r.base.toNat ≤ (r.pointer + x.signExtend 64).toNat)
    (hhi : (r.pointer + x.signExtend 64).toNat < r.base.toNat + r.limit.toNat) :
    r.advance x = some { r with pointer := r.pointer + x.signExtend 64 } :=
  if_neg (by omega)

theorem aset_completes (f : RForm) : UniCompletes (.aset f) 8 f.pred Group.Quiet fun g =>
    g.putA f.d.toNat ((mapGet {} g.a f.d.toNat).setField f.c.toNat (BitVec.ofNat 64 (uniValue g (f.a.toNat, true)))) := by
  refine uniCompletes_regs (fun _ => rfl) (fun g hq => ?_) fun _ => rfl
  rw [readAPair_quiet hq]
  rfl

theorem aget_completes (f : RForm) : UniCompletes (.aget f) 8 f.pred Group.Quiet fun g =>
    g.putSWide true f.d.toNat ((mapGet {} g.a f.a.toNat).field f.c.toNat).toNat := by
  refine uniCompletes_regs (fun _ => rfl) (fun g hq => ?_) fun g => putSWide_threads g _ _ _
  rw [readA_quiet hq]
  rfl

theorem adv_completes (f : RForm) : UniCompletes (.adv f) 8 f.pred
    (fun g => g.Quiet ∧
      let p := (mapGet {} g.a f.d.toNat).pointer + (mapGet 0 g.s f.a.toNat).signExtend 64
      (mapGet {} g.a f.d.toNat).base.toNat ≤ p.toNat ∧
        p.toNat < (mapGet {} g.a f.d.toNat).base.toNat + (mapGet {} g.a f.d.toNat).limit.toNat)
    fun g => g.putA f.d.toNat { mapGet {} g.a f.d.toNat with
      pointer := (mapGet {} g.a f.d.toNat).pointer + (mapGet 0 g.s f.a.toNat).signExtend 64 } := by
  refine uniCompletes_regs (fun _ => rfl) (fun g hr => ?_) fun _ => rfl
  obtain ⟨hq, hlo, hhi⟩ := hr
  simp only [readA_quiet hq, readS_quiet hq, advance_within hlo hhi]

theorem anarrow_completes (f : RForm) : UniCompletes (.anarrow f) 8 f.pred
    (fun g => g.Quiet ∧ ((mapGet {} g.a f.d.toNat).narrowed f.c.toNat
      (BitVec.ofNat 64 (uniValue g (f.a.toNat, true)))).isSome = true)
    fun g => g.putA f.d.toNat (((mapGet {} g.a f.d.toNat).narrowed f.c.toNat
      (BitVec.ofNat 64 (uniValue g (f.a.toNat, true)))).getD {}) := by
  refine uniCompletes_regs (fun _ => rfl) (fun g hr => ?_) fun _ => rfl
  obtain ⟨hq, hsome⟩ := hr
  obtain ⟨q, hnarrowed⟩ := Option.isSome_iff_exists.mp hsome
  simp only [readAPair_quiet hq, hnarrowed]
  rfl

/-- What ANARROW leaves lies within what there was, and no permission is added (R170). -/
theorem narrowed_within {r q : AddrReg} {k : Nat} {v : DWord} (hr : r.base.toNat + r.limit.toNat < 2 ^ 64)
    (h : r.narrowed k v = some q) :
    r.base.toNat ≤ q.base.toNat ∧ q.base.toNat + q.limit.toNat ≤ r.base.toNat + r.limit.toNat ∧
      ∀ b < 3, q.attr.getLsbD b = true → r.attr.getLsbD b = true := by
  unfold AddrReg.narrowed at h
  split at h
  case h_1 =>
    obtain ⟨⟨hlo, hhi⟩, ⟨⟩⟩ := Option.ite_none_right_eq_some.mp h
    refine ⟨hlo, ?_, fun _ _ hb => hb⟩
    show v.toNat + (r.limit - (v - r.base)).toNat ≤ _
    bv_omega
  case h_2 =>
    obtain ⟨hle, ⟨⟩⟩ := Option.ite_none_right_eq_some.mp h
    exact ⟨le_rfl, Nat.add_le_add_left hle _, fun _ _ hb => hb⟩
  case h_3 =>
    cases h
    refine ⟨le_rfl, le_rfl, fun b _ hb => ?_⟩
    rw [BitVec.getLsbD_and, Bool.and_eq_true] at hb
    exact hb.1
  case h_4 =>
    obtain ⟨⟨hlo, hhi⟩, ⟨⟩⟩ := Option.ite_none_right_eq_some.mp h
    exact ⟨hlo, hhi, fun _ _ hb => hb⟩

/-- Settles O9: each move is what its meaning writes into the group or, for sr.lane and sr.thread, into every lane
(`ursr_lanes`); the address forms read and write one register (R169); ANARROW's four forms each shrink the range or mask
the attributes (`narrowed_within`). -/
theorem uniformMoves : Obligations.UniformMoves := by
  refine ⟨⟨⟨fun f => ?imm, fun f => ?reg⟩, fun f => ?addr⟩, fun r q k v hr h => narrowed_within hr h⟩
  case imm =>
    exact ⟨umovi_completes f, umovh_completes f, fun hn s gid fid g hc => ursr_special hc f hn,
      fun hn s gid fid g hc ha hd => ursr_lanes hc f hn ha hd, fun s gid fid g hc hq ha => uwsr_effect hc f hq ha⟩
  case reg =>
    exact ⟨uplop_completes f, fun s gid fid g hc hq ha hr => uread_effect hc f hq ha hr,
      fun s gid fid g hc ha => ccount_effect hc f ha⟩
  case addr => exact ⟨aset_completes f, aget_completes f, adv_completes f, anarrow_completes f⟩

end Sys2Proof.Machine
end

-- ==== Proofs: a store that waits at issue (O55) ====
section
namespace Sys2Proof.Machine

/-! ## A full count of stores (R132) -/

/-- A number taken for a store's entries changes nothing that makes an issue calm. -/
theorem Calm.newStore {s : State} {gid fid : Nat} {g : Group} (hc : Calm s gid fid g) : Calm s.newStore gid fid g :=
  ⟨hc.atIssue, hc.group, hc.lanes, hc.settled, hc.sound⟩

/-- A settled lane's store has its registers, what they hold, and its address. -/
theorem storeOperands_settled {g : Group} {t : Thread} (hs : t.Settled) {data : Nat × Nat} {areg : Nat}
    {idx : BitVec 10} (h : MemReady g t [data] areg idx) (scale : Nat) (off : DWord) :
    storeOperands g t data.1 data.2 idx areg scale off =
      .ok (regsOf g t data, (regsOf g t data).map (mapGet 0 t.v ·), memAddr g t areg idx scale off) := by
  simp only [storeOperands, loadOperands_settled hs h, readAll_settled hs]
  rfl

/-- A lane whose count of stores is full is held at an ST whose operands are there, whatever its access would meet. -/
theorem storeLane_held {f : MForm} {n gid l : Nat} {s : State} {g : Group} {t : Thread} (hg : s.group? gid = some g)
    (hs : t.Settled) (hready : MemReady g t [f.data] f.areg.toNat f.idx) (hfull : 63 ≤ t.stores) :
    storeLane f n gid s l t = .hold := by
  have hops := storeOperands_settled hs hready f.scale.toNat (f.off.signExtend 64)
  have hcount : t.full .stores = true := decide_eq_true hfull
  simp only [MForm.data] at hops
  simp only [storeLane, hg, hops, hcount, if_true]

/-- An ST all of whose executing lanes have a full count of stores waits at issue. -/
theorem st_held {f : MForm} {s : State} {gid fid : Nat} {g : Group} (hc : Calm s gid fid g)
    (hguard : laneGuard g false f.pred [f.data] false = none) (hsome : executing g fid false f.pred ≠ [])
    (hlanes : ∀ x ∈ executing g fid false f.pred,
      MemReady g x.2 [f.data] f.areg.toNat f.idx ∧ 63 ≤ x.2.stores) : exec (.st f) s = .next s := by
  have hheld : ∀ x ∈ executing g fid false f.pred, storeLane f s.newStore.seq gid s.newStore x.1 x.2 = .hold :=
    fun x hx => storeLane_held hc.group (hc.executing_settled x hx) (hlanes x hx).1 (hlanes x hx).2
  obtain ⟨x, hx⟩ := List.exists_mem_of_ne_nil _ hsome
  have hseq : seqLanes (storeLane f s.newStore.seq gid) (executing g fid false f.pred) s.newStore = none :=
    seqLanes_held (fun y hy => .inl (hheld y hy)) ⟨x, hx, hheld x hx⟩
  exact issue_none hc (seqFragment_held (sh := memShape f [f.data]) hc.newStore hguard hseq)

/-! ## A lane whose store is held -/

/-- A lane whose count of stores is full. -/
def fullLane : Thread := { stores := 63 }

/-- The operand of an atomic of that lane, not read yet. -/
def unreadOperand (i : Nat) : Late :=
  { id := i, lane := 0, counter := .stores, regs := [0], size := 4, use := .counted, own := List.range 4 }

/-- That lane alone in its group, in native mode: 63 of its atomics have yet to read their data register. -/
def fullGroup : Group :=
  { launchedGroup 0 0 with
    ilk := false, threads := [fullLane], late := (List.range 63).map unreadOperand }

/-- That group at issue. -/
def fullState : State :=
  { State.reset with
    groups := [(0, fullGroup)], blocks := [(0, launchedBlock 0)], cur := some (0, { frags := [(0, 0)] }), seq := 63 }

/-- ST of a word through an address register of no extent. -/
def strayStore : MForm := { d := 0, areg := 0, scale := 0, order := 0, idx := noIndex, pred := 7, size := 2, off := 0 }

theorem executing_fullGroup : executing fullGroup 0 false strayStore.pred = [(0, fullLane)] := by decide

theorem calm_fullState : Calm fullState 0 0 fullGroup := by
  refine ⟨⟨0, _, rfl, rfl⟩, rfl, by decide, fun l hl t ht => ?_, rfl⟩
  obtain rfl : l = 0 := List.mem_singleton.mp (show l ∈ [0] from hl)
  cases ht
  exact ⟨rfl, rfl, rfl, rfl, rfl, rfl⟩

theorem coherent_fullState : Coherent fullState fullGroup.core fullGroup.part := by
  rintro e (he | he) <;> exact absurd he List.not_mem_nil

theorem ready_fullGroup : strayStore.ready fullGroup fullLane [strayStore.data] := by
  refine ⟨⟨rfl, fun op hop => ⟨[0], ?_⟩⟩, by decide⟩
  obtain rfl : op = (0, 1) := List.mem_singleton.mp (show op ∈ [(0, 1)] from hop)
  rfl

/-- The access reaches past the register's range. -/
theorem accessCause_strayStore : accessCause fullState fullGroup (strayStore.at_ fullGroup fullLane).1 true
    (strayStore.at_ fullGroup fullLane).2.toNat strayStore.bytes = some 4 := by decide

/-- The store waits at issue: the state is as it was. -/
theorem strayStore_held : exec (.st strayStore) fullState = .next fullState :=
  st_held calm_fullState (by decide) (by rw [executing_fullGroup]; simp) fun x hx => by
    rw [executing_fullGroup, List.mem_singleton] at hx
    subst hx
    exact ⟨ready_fullGroup.1, le_rfl⟩

/-- Refutes O55: readiness bounds the lane's count of loads, and a store is counted among its stores. A lane with 63
operands yet to be read waits at an ST (R132), and the access that would fail its range check does not issue: the lane
stays READY with no trap. -/
theorem not_accessFaults : ¬ Obligations.AccessFaults := by
  intro h
  have hlane : (0, fullLane) ∈ executing fullGroup 0 false strayStore.pred := by simp [executing_fullGroup]
  obtain ⟨t, ht, -, hall⟩ := h strayStore fullState 0 0 fullGroup calm_fullState coherent_fullState (by decide)
    (.st strayStore) true (.inr ⟨rfl, rfl⟩) fun l t hx => by
      obtain ⟨rfl, rfl⟩ := Prod.mk.inj (List.mem_singleton.mp (executing_fullGroup ▸ hx))
      exact ⟨ready_fullGroup, by simp [accessCause_strayStore]⟩
  obtain rfl : fullState = t := by rw [strayStore_held] at ht; cases ht; rfl
  obtain ⟨th', hth', hout⟩ := hall 0 _ hlane fullGroup rfl
  cases hth'
  obtain ⟨-, hexited⟩ | ⟨c, -, ⟨hst, -⟩, -⟩ := hout
  · exact absurd hexited (by decide)
  · exact absurd hst (by decide)

end Sys2Proof.Machine
end
